-- ==== Sys2Proof/Word.lean ====
section
/-! DEFINITION. The words the Nathlor 340 sends and stores: bytes, tags, host references. -/

namespace Sys2Proof

/-- One byte of a frame, of the medium or of staging. -/
abbrev Byte := BitVec 8

/-- A 16-bit word: a request's tag, a consent code, a Print Port sequence number (R190, R133, R153). -/
abbrev Word16 := BitVec 16

/-- A 32-bit word: a host reference, a FILE order, an acceptance count (R108, R145). -/
abbrev Word32 := BitVec 32

end Sys2Proof
end

