-- ==== Sys2Proof/Syntax.lean ====
section
/-! DEFINITION. The commands the controller takes: one constructor of `Instr` per row of spec/opcode_table.json. A host
request is a good frame's tag, station and body bytes (R190, R198); a status event carries the status contents of
R67 and the blocks the drive's data channel delivered with it (log 7, log 29). -/

namespace Sys2Proof

/-- Tag and station of a request frame (R190). -/
structure Hdr where
  tag : Word16
  station : Byte
  deriving DecidableEq, Repr

/-- The two recording surfaces of a cartridge. -/
inductive Face | a | b
  deriving DecidableEq, Repr

/-- The picker's phase in its status (R67). -/
inductive PickPhase | parked | idle | taking | carrying | flipping | placing | done
  deriving DecidableEq, Repr

/-- The picker's status contents (R67). `scan` lists the places a finished SCAN found occupied, by their numbers on the
bus (log 8). -/
structure PickerStatus where
  phase : PickPhase
  holding : Bool
  faceBUp : Bool
  scan : Option (List Nat)
  moduleFault : Bool
  deriving DecidableEq, Repr

/-- The drive commands whose results a status reports (R65). -/
inductive DriveOpKind | load | spinUp | spinDown | eject | read | erase | write | verify
  deriving DecidableEq, Repr

/-- The result of the operation last taken (R67); `running` until it completes (log 23). -/
inductive OpResult
  | running
  | complete
  | short (count : Nat)
  | failedBlock (addr : Nat)
  | failed
  deriving DecidableEq, Repr

/-- A block that the data channel delivered (R58), or one the drive reports as reading erased (R3), whose bytes no rule
states and the drive supplies (log 7). -/
inductive BlockIn
  | erased (bytes : List Byte)
  | data (bytes : List Byte)
  deriving DecidableEq, Repr

/-- A drive's status contents (R67) with the blocks sent on its data channel since the last one. -/
structure DriveStatus where
  loaded : Bool
  spinning : Bool
  ejected : Bool
  label : Option (Nat × Face)
  op : Option DriveOpKind
  result : OpResult
  moduleFault : Bool
  blocks : List BlockIn
  deriving DecidableEq, Repr

/-- A door's status contents (R67). -/
structure DoorStatus where
  isOpen : Bool
  loaded : Bool
  locked : Bool
  moduleFault : Bool
  deriving DecidableEq, Repr

/-- One constructor per row of spec/opcode_table.json, in the table's order. -/
inductive Instr
  | powerOn (storeGood : Bool)
  | clockSecond
  | consentDeadline (ref : Word32)
  | status (h : Hdr) (body : List Byte)
  | stationQuery (h : Hdr) (body : List Byte)
  | paramsQuery (h : Hdr) (body : List Byte)
  | locate (h : Hdr) (body : List Byte)
  | sideQuery (h : Hdr) (body : List Byte)
  | cartridgeQuery (h : Hdr) (body : List Byte)
  | slotQuery (h : Hdr) (body : List Byte)
  | workQuery (h : Hdr) (body : List Byte)
  | filingQuery (h : Hdr) (body : List Byte)
  | withheldQuery (h : Hdr) (body : List Byte)
  | copyQuery (h : Hdr) (body : List Byte)
  | feeQuery (h : Hdr) (body : List Byte)
  | accountQuery (h : Hdr) (body : List Byte)
  | fetch (h : Hdr) (body : List Byte)
  | copyOrder (h : Hdr) (body : List Byte)
  | setParams (h : Hdr) (body : List Byte)
  | stationSet (h : Hdr) (body : List Byte)
  | setClock (h : Hdr) (body : List Byte)
  | feeSet (h : Hdr) (body : List Byte)
  | accountOpen (h : Hdr) (body : List Byte)
  | accountLimit (h : Hdr) (body : List Byte)
  | accountDeposit (h : Hdr) (body : List Byte)
  | accountWithdraw (h : Hdr) (body : List Byte)
  | accountSuspend (h : Hdr) (body : List Byte)
  | accountResume (h : Hdr) (body : List Byte)
  | accountClose (h : Hdr) (body : List Byte)
  | tallyQuery (h : Hdr) (body : List Byte)
  | dayOpen (h : Hdr) (body : List Byte)
  | dayClose (h : Hdr) (body : List Byte)
  | driveServiceOut (h : Hdr) (body : List Byte)
  | driveServiceIn (h : Hdr) (body : List Byte)
  | pickerReset (h : Hdr) (body : List Byte)
  | slotDisable (h : Hdr) (body : List Byte)
  | slotEnable (h : Hdr) (body : List Byte)
  | exportCart (h : Hdr) (body : List Byte)
  | forget (h : Hdr) (body : List Byte)
  | closeSide (h : Hdr) (body : List Byte)
  | markFaulty (h : Hdr) (body : List Byte)
  | rest (h : Hdr) (body : List Byte)
  | night (h : Hdr) (body : List Byte)
  | wake (h : Hdr) (body : List Byte)
  | restart (h : Hdr) (body : List Byte)
  | fileBegin (h : Hdr) (body : List Byte)
  | fileData (h : Hdr) (body : List Byte)
  | fileEnd (h : Hdr) (body : List Byte)
  | fileCancel (h : Hdr) (body : List Byte)
  | consent (h : Hdr) (body : List Byte)
  | cancel (h : Hdr) (body : List Byte)
  | unknownKindFrame (kind : Byte) (h : Hdr) (body : List Byte)
  | badFrame (bytes : List Byte)
  | interbyteGap (next : Byte)
  | hostHoldOff (hold : Bool)
  | frameSent
  | pageFrameSent
  | baySend (attention : Bool)
  | bayByteNak
  | bayHoldTimeout
  | bayCommandTaken
  | attentionPass
  | pickerStatusTaken (st : PickerStatus)
  | driveStatusTaken (drive : Nat) (st : DriveStatus)
  | doorStatusTaken (mail : Nat) (st : DoorStatus)
  | transferTimeout
  | spinUpTimeout (drive : Nat)
  | idleTimeout (drive : Nat)
  | answerTimeout
  | sendPage
  | pageEndSent
  | printerAnswer (seq : Word16) (result : Byte)
  | printerStatus (state : Byte)
  | printerFrameBad (bytes : List Byte)
  | powerLoss
  deriving DecidableEq, Repr

end Sys2Proof
end

