-- ==== Sys2Proof/Decode.lean ====
section
/-! DEFINITION. The table of this block gives no row any bits (spec/98_reader.md: no row with "fixed" or "fields"), so
no word spells a command. -/

namespace Sys2Proof

/-- The command a word spells by the table's bits: none, for no row gives bits. -/
def decodeTableWord (_nbits _w : Nat) : Option Instr := none

end Sys2Proof
end

