-- ==== Sys2Proof/Config.lean ====
section
/-! DEFINITION. Capacities and fixed figures of the Nathlor 340 (spec/00_scope.md, "Capacities"). The spec leaves no
result of a command open, so there is no free value here. -/

namespace Sys2Proof.Config

abbrev slotCount : Nat := 120
abbrev recordCount : Nat := 160
abbrev sideCount : Nat := 320
abbrev stationCount : Nat := 32
abbrev accountCount : Nat := 64
abbrev withheldCount : Nat := 256
abbrev workCapacity : Nat := 48
abbrev fetchCapacity : Nat := 48
abbrev filingCapacity : Nat := 6
abbrev orderCapacity : Nat := 16
abbrev transferCapacity : Nat := 8
abbrev noticeCapacity : Nat := 32
abbrev replyCapacity : Nat := 8
abbrev consentCapacity : Nat := 4
abbrev stagingBlocks : Nat := 8192
abbrev filingStaging : Nat := 6144
abbrev blockBytes : Nat := 1024
abbrev dataBlocks : Nat := 280000
abbrev spareBlocks : Nat := 2048
abbrev directorySlots : Nat := 1000
abbrev bodyLimit : Nat := 1100
abbrev docBlockLimit : Nat := 4096
abbrev pageBlockLimit : Nat := 1024
abbrev pageLimit : Nat := 200
abbrev burstBlockLimit : Nat := 2048
abbrev remapLimit : Nat := 32
/-- One more than the highest document number (R1). -/
abbrev docNumberEnd : Nat := 4294967296
/-- The label counter's last value, at which no serial is left (R25). -/
abbrev labelEnd : Nat := 1000000
/-- Side addresses of the regions of a face (R3). -/
abbrev dataBase : Nat := 1001
abbrev spareBase : Nat := 281001
abbrev clockLastDay : Nat := 65535
abbrev secondsPerDay : Nat := 86400
/-- How many internal consequences one command may take before it ends (log 9). -/
def settleBound : Nat := 4096

end Sys2Proof.Config
end

