-- ==== Sys2Proof/Machine/State.lean ====
section
/-! DEFINITION. Everything the spec gives the controller to hold, as plain data, and its value after reset
(INVENTORY.md lists each field with its rule). Tables are lists read 1-based through `tget` (Ops). -/

namespace Sys2Proof.Machine

/-! ### Sides, documents, cartridges, places (chapters 1 and 2) -/

/-- States of a side (R9, R10). -/
inductive SideState | blank | opened | closed | faulty
  deriving DecidableEq, Repr

/-- Close reasons in the order of R9. -/
inductive CloseReason | room | directory | spare | host | rebuild
  deriving DecidableEq, Repr

/-- A Volume Table entry (R9). -/
structure Side where
  state : SideState
  first : Option Nat
  last : Option Nat
  count : Nat
  writePtr : Nat
  spareUsed : Nat
  slotsUsed : Nat
  closeReason : Option CloseReason
  openedDay : Option Nat
  closedPending : Bool
  deriving DecidableEq, Repr

/-- The blank values of R9. -/
def Side.blank : Side :=
  ⟨.blank, none, none, 0, 0, 0, 0, none, none, false⟩

/-- Marks of a label block (R4). -/
inductive Mark | new | opened | closed
  deriving DecidableEq, Repr

/-- The content of a label block (R4). -/
structure Label where
  serial : Nat
  face : Face
  mark : Mark
  firstToBe : Nat
  openedDay : Nat
  closeReason : Option CloseReason
  last : Option Nat
  count : Nat
  deriving DecidableEq, Repr

/-- A label block as read (R4, R41). -/
inductive LabelRead
  | erased
  | good (l : Label)
  | unreadable
  deriving DecidableEq, Repr

/-- A document record (R7). `rect` holds target and withheld ranges of a RECTIFICATION. -/
structure DocRecord where
  number : Nat
  day : Nat
  second : Nat
  station : Nat
  ref : Word32
  pageCount : Nat
  offsets : List Nat
  start : Nat
  count : Nat
  remaps : List (Nat × Nat)
  rect : Option (Nat × List (Nat × Nat))
  deriving DecidableEq, Repr

/-- A directory slot as read (R5). -/
inductive SlotRead
  | erased
  | dead
  | record (r : DocRecord)
  deriving DecidableEq, Repr

/-- States of a cartridge record (R24). -/
inductive CartState | inLibrary | withdrawn | missing
  deriving DecidableEq, Repr

/-- A Cartridge Table record in use (R24). Its place is where the Place Map has it. -/
structure Cart where
  label : Nat
  state : CartState
  home : Option Nat
  deriving DecidableEq, Repr

/-- A place a cartridge can rest (R26). -/
inductive Place
  | slot (n : Nat)
  | drive (n : Nat)
  | gripper
  | mail (n : Nat)
  deriving DecidableEq, Repr

/-- The occupant of a place (R26). -/
inductive Occupant
  | empty
  | record (c : Nat)
  | unrecorded
  deriving DecidableEq, Repr

/-- A storage slot: occupant and disabled mark (R28). -/
structure Slot where
  occ : Occupant
  disabled : Bool
  deriving DecidableEq, Repr

/-- The filing-in-progress marker (R118). -/
structure FilingMarker where
  ref : Word32
  side : Nat
  start : Nat
  deriving DecidableEq, Repr

/-- A COMMITTED Withheld-Page entry (R130). -/
structure Committed where
  target : Nat
  ranges : List (Nat × Nat)
  rectDoc : Nat
  deriving DecidableEq, Repr

/-! ### Money (chapter 9) -/

/-- The fee schedule (R164). -/
structure Fees where
  plain : Nat
  cert : Nat
  certFee : Nat
  deriving DecidableEq, Repr

inductive AccountState | inactive | active | suspended
  deriving DecidableEq, Repr

/-- An account's retained fields (R166); holds and open orders are sums over the Copy Order Table. -/
structure Account where
  state : AccountState
  balance : Int
  limit : Nat
  charged : Nat
  deriving DecidableEq, Repr

def Account.initial : Account := ⟨.inactive, 0, 0, 0⟩

/-- The day total and day counts (R170). -/
structure DayCounts where
  total : Nat
  plainPages : Nat
  certPages : Nat
  certSets : Nat
  voidedSets : Nat
  spoiled : Nat
  deriving DecidableEq, Repr

def DayCounts.zero : DayCounts := ⟨0, 0, 0, 0, 0, 0⟩

/-- A reading of the clock (R180). -/
structure Clock where
  day : Nat
  second : Nat
  deriving DecidableEq, Repr

/-- The day's report (R175). -/
structure DayReport where
  openedDay : Option Nat
  closed : Option Clock
  counts : DayCounts
  accountTotal : Nat
  cashTotal : Nat
  cash : List Nat
  charged : List Nat
  deriving DecidableEq, Repr

/-! ### The Retained Store (R179) -/

structure Retained where
  written : Bool
  rebuildFlag : Bool
  carts : List (Option Cart)
  labelCounter : Nat
  slots : List Slot
  sides : List Side
  nextDoc : Nat
  marker : Option FilingMarker
  withheld : List (Option Committed)
  fees : Fees
  accounts : List Account
  cash : List Nat
  counts : DayCounts
  dayOpen : Bool
  openedDay : Option Nat
  lastClose : Option DayReport
  deriving DecidableEq, Repr

/-- The values "when the Retained Store is first initialised", which the rebuild's clearing step sets (R179, R182). -/
def Retained.initial : Retained where
  written := true
  rebuildFlag := true
  carts := List.replicate Config.recordCount none
  labelCounter := 1
  slots := List.replicate Config.slotCount ⟨.empty, false⟩
  sides := List.replicate Config.sideCount Side.blank
  nextDoc := 1
  marker := none
  withheld := List.replicate Config.withheldCount none
  fees := ⟨0, 0, 0⟩
  accounts := List.replicate Config.accountCount Account.initial
  cash := List.replicate Config.stationCount 0
  counts := DayCounts.zero
  dayOpen := false
  openedDay := none
  lastClose := none

/-! ### Host Link (chapter 11) -/

inductive StationKind | pub | supervisor | scanning
  deriving DecidableEq, Repr

/-- Refusal codes in the order of the table of 11 "Refusal codes". -/
inductive RefCode
  | unknownKind | badField | notPermitted | notFound | offline | unavailable | busy | listFull | tableFull
  | stagingFull | sequence | incomplete | badCode | clockUnset | noDay | accountState | funds | nothingToCopy
  | night | rebuilding
  deriving DecidableEq, Repr

/-- Notice kinds in the order of the table of 11 "Notice kinds". -/
inductive NoticeKind
  | fetchDone | filed | filingFailed | filingHeld | filingLost | consentVoid | sideOpened | sideClosed | copyDone
  | copyFailed | printer | door | imported | importRejected | exported | driveFault | pickerFault | mediaError
  | cartridgeMissing | started | rebuildDone
  deriving DecidableEq, Repr

/-- A reply's outcome (R191). -/
inductive ReplyOutcome
  | accepted
  | done
  | refused (code : RefCode)
  deriving DecidableEq, Repr

/-- A reply; `fields` are the bytes from byte 3 of its body (R200). -/
structure Reply where
  tag : Word16
  station : Byte
  kind : Byte
  outcome : ReplyOutcome
  fields : List Byte
  deriving DecidableEq, Repr

/-- A notice; `fields` are the bytes from byte 2 of its body (R197, R200). -/
structure Notice where
  kind : NoticeKind
  about : Option (Word16 × Nat)
  fields : List Byte
  deriving DecidableEq, Repr

/-- Reasons of a bad frame, in the order of R200's LINK_REJECT body. -/
inductive BadReason | length | check | gap
  deriving DecidableEq, Repr

/-- A frame of the control order (R192). -/
inductive ControlFrame
  | reply (r : Reply)
  | linkReject (why : BadReason)
  | notice (n : Notice)
  deriving DecidableEq, Repr

/-- A frame that arrived and may have to wait for a Reply Queue place (R192). -/
inductive Arrival
  | request (kind : Byte) (h : Hdr) (body : List Byte)
  | bad (why : BadReason)
  deriving DecidableEq, Repr

/-- Markers of a PAGE frame (R101, R200). -/
inductive PageMarker | data | withheld | unreadable
  deriving DecidableEq, Repr

/-- A PAGE frame on the line (R101); `fetch` names its fetch record, `claim` and `block` the staging block it carries. -/
structure PageFrame where
  fetch : Nat
  tag : Word16
  station : Nat
  page : Nat
  chunk : Nat
  chunks : Nat
  marker : PageMarker
  bytes : List Byte
  claim : Nat
  block : Option Nat
  deriving DecidableEq, Repr

/-- The frame being sent (R192): the front of the control order, or a PAGE frame. -/
inductive LineFrame
  | control
  | page (p : PageFrame)
  deriving DecidableEq, Repr

/-- The three classes that SET_PARAMS orders (R73). -/
inductive LowClass | view | copy | file
  deriving DecidableEq, Repr

/-- The seven parameters (R195). -/
structure Params where
  burstPages : Nat
  writeBurst : Nat
  yieldLimit : Nat
  chainLimit : Nat
  classOrder : List LowClass
  idleTime : Nat
  consentWindow : Nat
  deriving DecidableEq, Repr

def Params.default : Params := ⟨8, 256, 3, 8, [.view, .copy, .file], 300, 600⟩

/-! ### Work Scheduler and Staging Store (chapter 4) -/

inductive WorkClass | urgent | media | view | copy | file
  deriving DecidableEq, Repr

inductive ItemKind | fetch | copy | file | inspect
  deriving DecidableEq, Repr

inductive ItemState | waiting | waitingStaging | waitingPort | assigned | active | parked
  deriving DecidableEq, Repr

/-- A work item (R70). `id` is the model's name for it (log 28); its progress is its owner's (`fetch`, `order`,
`filing`). `ended` is set when its owner ends it while its burst runs (R75). `inDrive` is the drive that holds the cartridge
of an INSPECT item returned to WAITING (R92, log 15). -/
structure Item where
  id : Nat
  tag : Option Word16
  station : Option Nat
  cls : WorkClass
  kind : ItemKind
  side : Option Nat
  doc : Option Nat
  filing : Option Word32
  order : Option Nat
  mail : Option Nat
  yields : Nat
  limit : Nat
  state : ItemState
  drive : Option Nat
  ended : Bool
  inDrive : Option Nat
  deriving DecidableEq, Repr

/-- A held request (R71). -/
inductive HeldReq
  | file (ref : Word32)
  | inspect (mail : Nat) (drive : Option Nat)
  deriving DecidableEq, Repr

inductive ClaimOwner
  | filing (ref : Word32)
  | item (id : Nat)
  deriving DecidableEq, Repr

/-- A claim record (R76). `blocks` is absent while the claim waits; `live` are the blocks not yet freed, so held is its length.
`plan` lists page and side address of each block of a read burst, `set` the copy set it belongs to; `begun` says its burst has
been granted to the drive. -/
structure Claim where
  id : Nat
  owner : ClaimOwner
  size : Nat
  blocks : Option (List Nat)
  live : List Nat
  plan : List (Nat × Nat)
  set : Nat
  begun : Bool
  deriving DecidableEq, Repr

/-! ### Drives (chapter 3) -/

inductive DriveState
  | empty | spinningUp | ready | active | spinningDown | stopped | outOfService | faulted
  deriving DecidableEq, Repr

/-- Service states (R50, R61). -/
inductive Service | inService | leaving | out
  deriving DecidableEq, Repr

inductive DriveFault | bus | hardware | spinUp | noAnswer
  deriving DecidableEq, Repr

/-- The three passes of a pass set (R59). -/
inductive Pass | erase | write | verify
  deriving DecidableEq, Repr

/-- One block of a read burst: its page, its side address, the staging block that receives it (R58). -/
structure ReadCell where
  page : Nat
  addr : Nat
  block : Nat
  deriving DecidableEq, Repr

/-- A read burst in progress (R60): what is left of the run commanded, the number of its blocks already sent, the cells after
it, and the page and address of each block marked unreadable. -/
structure ReadBurst where
  item : Nat
  claim : Nat
  run : List ReadCell
  sent : Nat
  rest : List ReadCell
  bad : List (Nat × Nat)
  deriving DecidableEq, Repr

/-- A write burst in progress (R117, R119): document offsets `lo` up to `hi`, the pass, the next offset to verify, the
spare being written for an offset, and the first offset for which a relocation was noted. -/
structure WriteBurst where
  item : Nat
  ref : Word32
  side : Nat
  start : Nat
  lo : Nat
  hi : Nat
  pass : Pass
  next : Nat
  spare : Option (Nat × Nat × Pass)
  relocate : Option Nat
  deriving DecidableEq, Repr

/-- A commit burst in progress (R123). -/
structure CommitBurst where
  item : Nat
  ref : Word32
  side : Nat
  doc : DocRecord
  slot : Nat
  pass : Pass
  deriving DecidableEq, Repr

/-- Which mark a label write carries, and for whom: a NEW mark for reserved record index `c` (R42), an OPEN or CLOSED mark
of a side (R16, R20); `dropped` once RESTART has abandoned an opening (R17). -/
inductive LabelJob
  | new (c : Nat)
  | opening (side : Nat)
  | closing (side : Nat)
  | dropped
  deriving DecidableEq, Repr

/-- A block named to a drive's data channel: a staging block that a READ fills or that a WRITE and its VERIFY take from
(R58, R59), or the label block or document record of a pass set of one block (R59). -/
inductive Supply
  | staging (block : Nat)
  | label (l : Label)
  | record (r : DocRecord)
  deriving DecidableEq, Repr

/-- What an EJECT was sent for: a release (R57), a drive fault (R63), DRIVE_SERVICE IN (R62). -/
inductive EjectWhy | release | fault | service
  deriving DecidableEq, Repr

/-- What a Drive Channel is doing on its drive beyond its drive state (R50 "burst", "operation"; R53 to R60). `readLabel`
keeps the block where a status taken during the READ brought it; `finding` has a label that waits for another import's
finding to end (R42, log 48). -/
inductive Task
  | idle
  | spinUp
  | readLabel (got : Option BlockIn)
  | finding (r : LabelRead)
  | writeLabel (job : LabelJob) (label : Label) (pass : Pass)
  | readDir (next last : Nat) (got : List (Nat × SlotRead))
  | readBurst (b : ReadBurst)
  | writeBurst (b : WriteBurst)
  | commitBurst (b : CommitBurst)
  | stopBurst
  | spinDown
  | eject (why : EjectWhy)
  deriving DecidableEq, Repr

/-- A Drive Channel's record (R50), with the model's own duty flags (log 28): `dirLoaded` (the Directory Copy is the
mounted face's), `chainAsk` (the drive has just become available, R83), `spinDue` (an idle expiry waits for a label
write), `markTried` (the closed mark failed since the last label read), `found` (the unrecorded cartridge has had a
finding), `fromMail` (the mail slot it came through), `label` (the mounted face's label block as last read or written),
`serial` (the label serial read from its cartridge), `toEject` (found loaded by the inventory and not yet ejected, R51), `chan`
(the blocks named to the data channel for the operation in progress, R58, R59). -/
structure Drive where
  state : DriveState
  service : Service
  occ : Occupant
  face : Option Face
  ejected : Bool
  dir : List DocRecord
  idleOn : Bool
  readySince : Nat
  lastUse : Nat
  task : Task
  op : Option DriveOpKind
  opStart : Nat
  opCount : Nat
  spinLimit : Bool
  fault : Option DriveFault
  chain : Nat
  dirLoaded : Bool
  chainAsk : Bool
  spinDue : Bool
  markTried : Bool
  found : Bool
  fromMail : Option Nat
  label : Option LabelRead
  serial : Option Nat
  toEject : Bool
  chan : List Supply
  deriving DecidableEq, Repr

/-- A Drive Channel at power-on (R50). -/
def Drive.initial : Drive where
  state := .empty
  service := .inService
  occ := .empty
  face := none
  ejected := false
  dir := []
  idleOn := false
  readySince := 0
  lastUse := 0
  task := .idle
  op := none
  opStart := 0
  opCount := 0
  spinLimit := false
  fault := none
  chain := 0
  dirLoaded := false
  chainAsk := false
  spinDue := false
  markTried := false
  found := false
  fromMail := none
  label := none
  serial := none
  toEject := false
  chan := []

/-! ### Picker Unit (chapter 2) -/

inductive PickerState | parked | idle | fetching | carrying | flipping | placing | faulted
  deriving DecidableEq, Repr

inductive PickerFaultReason | timeout | bus | hardware
  deriving DecidableEq, Repr

/-- Transfer kinds in the order of R33. -/
inductive XferKind | mount | dismount | importTake | exportPut | ret | reject
  deriving DecidableEq, Repr

/-- Reasons of IMPORT_REJECTED in the order of R43. -/
inductive RejectReason
  | tableFull | noSlot | noLabel | duplicate | unknown | labelWrite | drive | door | picker | unidentified
  deriving DecidableEq, Repr

/-- A transfer (R33). `dst` is absent while its mail slot is not chosen; `face` is the face to be mounted; `report` is the
reason an IMPORT_REJECTED carries when a REJECT completes (R39, R48, R182); `first` marks PICKER_RESET's RETURN (R35). -/
structure Transfer where
  id : Nat
  kind : XferKind
  cart : Option Nat
  src : Place
  dst : Option Place
  face : Face
  item : Option Nat
  report : Option RejectReason
  first : Bool
  deriving DecidableEq, Repr

/-- The transfer that holds the arm (R35): the mail slot chosen, whether TRANSFER is issued, and whether the picker has
taken it, from which its 20 s limit runs (R36). -/
structure Arm where
  xfer : Nat
  mail : Option Nat
  sent : Bool
  taken : Bool
  deriving DecidableEq, Repr

/-- The transfer in progress at a picker fault (R37), until PICKER_RESET settles it (R39). `held` is absent until the
STATUS of R37 has told whether the cartridge is in the gripper; `moved` says TRANSFER had been taken. -/
structure Broken where
  xfer : Transfer
  mail : Option Nat
  moved : Bool
  held : Option Bool
  deriving DecidableEq, Repr

/-- The steps of the inventory scan (R47) and of PICKER_RESET (R39). -/
inductive Routine
  | none
  | invPark
  | invScan (left : List (Nat × Nat))
  | invDrives (left : List Nat)
  | invDoors (left : List Nat)
  | resetPark
  | resetScan (left : List (Nat × Nat)) (seen : List Nat)
  deriving DecidableEq, Repr

inductive MailState | empty | loadedIn | loadedOut | doorOpen
  deriving DecidableEq, Repr

/-- A mail slot (R30). `lockAsked` is what the last door command issued asks for (log 35). -/
structure Mail where
  state : MailState
  locked : Bool
  faulty : Bool
  occ : Occupant
  lockAsked : Bool
  deriving DecidableEq, Repr

def Mail.initial : Mail := ⟨.empty, false, false, .empty, false⟩

/-- An export pending (R24, R44): the record, and the tag and station of its EXPORT, which EXPORTED carries (R197). -/
structure Export where
  cart : Nat
  tag : Word16
  station : Nat
  deriving DecidableEq, Repr

/-- The Picker Unit's record. `gripMail` and `gripSerial` are the mail slot through which the gripper's unrecorded cartridge
came and the serial read from it, for its IMPORT_REJECTED (R43). -/
structure Picker where
  state : PickerState
  fault : Option PickerFaultReason
  gripper : Occupant
  gripFaceB : Bool
  gripMail : Option Nat
  gripSerial : Option Nat
  queue : List Transfer
  deferred : List Transfer
  arm : Option Arm
  broken : Option Broken
  routine : Routine
  parkAsked : Bool
  exportPending : List Export
  mails : List Mail
  inspectWanted : List Nat
  deriving DecidableEq, Repr

/-! ### Bay Link (chapter 3) -/

/-- Bay Link commands (R65). -/
inductive BayCmd
  | transfer (src dst : Place) (flip : Bool)
  | scan (first last : Nat)
  | park
  | load | spinUp | spinDown | eject
  | read (start count : Nat)
  | erase (start count : Nat)
  | write (start count : Nat)
  | verify (start count : Nat)
  | lock | unlock
  | status
  deriving DecidableEq, Repr

/-- What a STATUS was sent for: an attention pass (R68), the inventory (R47), a picker fault (R37), PICKER_RESET (R39),
DRIVE_SERVICE IN (R62); other commands carry `plain`. -/
inductive Why | plain | pass | inventory | broken | reset | service
  deriving DecidableEq, Repr

/-- A command in a module's queue; the module is its bus address 1 to 7 (R65). -/
structure BayEntry where
  module : Nat
  cmd : BayCmd
  why : Why
  deriving DecidableEq, Repr

structure Bay where
  queue : List BayEntry
  bus : Option (BayEntry × Nat)
  passLeft : List Nat
  passFailed : Bool
  deriving DecidableEq, Repr

/-! ### Fetches, filings, copy orders (chapters 5 to 8) -/

/-- A document's layout as copied from its record (R94, R145). -/
structure DocCopy where
  pageCount : Nat
  offsets : List Nat
  start : Nat
  count : Nat
  remaps : List (Nat × Nat)
  deriving DecidableEq, Repr

inductive PageOutcome | unread | inBurst | staged | withheld | unreadable
  deriving DecidableEq, Repr

/-- A page of a fetch record's page list (R94), with the claim and the staging blocks it holds. -/
structure FetchPage where
  page : Nat
  outcome : PageOutcome
  claim : Nat
  blocks : List Nat
  deriving DecidableEq, Repr

inductive FetchState | waitingFace | reading | delivering
  deriving DecidableEq, Repr

inductive FetchOutcome | complete | unavailable | notFound
  deriving DecidableEq, Repr

/-- A fetch record (R94). `seq` is its place in order of acceptance; `sendPage`, `sendChunk` are "next to send"; `lost` is the
lowest page that UNAVAILABLE took off its list (R105, R106). -/
structure Fetch where
  seq : Nat
  tag : Word16
  station : Nat
  full : Bool
  doc : Nat
  side : Nat
  first : Nat
  last : Nat
  copy : Option DocCopy
  clipped : Option Nat
  pages : List FetchPage
  nextRead : Nat
  sendPage : Nat
  sendChunk : Nat
  delivered : Nat
  withheld : Nat
  unreadable : Nat
  state : FetchState
  outcome : FetchOutcome
  item : Option Nat
  lost : Option Nat
  deriving DecidableEq, Repr

inductive FilingState | receiving | awaitingConsent | queued | writing | held | committing
  deriving DecidableEq, Repr

/-- The RECTIFICATION fields of a filing (R108); while RECEIVING or AWAITING_CONSENT they are its pending consent (R133). -/
structure RectInfo where
  target : Nat
  ranges : List (Nat × Nat)
  code : Word16
  deadline : Option Clock
  deriving DecidableEq, Repr

/-- A filing (R108). -/
structure Filing where
  ref : Word32
  tag : Word16
  station : Nat
  rect : Option RectInfo
  pageCount : Nat
  offsets : List Nat
  count : Nat
  received : Nat
  state : FilingState
  fileOrder : Option Word32
  target : Option Nat
  start : Option Nat
  claimed : Nat
  progress : Nat
  remaps : List (Nat × Nat)
  relocated : Bool
  cancelPending : Bool
  item : Option Nat
  deriving DecidableEq, Repr

inductive OrderState | queued | active | suspended
  deriving DecidableEq, Repr

/-- Why an order closes after its page in hand (R145, R160). -/
inductive Closing | cancelled | media | unavailable
  deriving DecidableEq, Repr

/-- A page of a copy order's page list (R145), with its claim and staging blocks. -/
structure CopyPage where
  set : Nat
  page : Nat
  outcome : PageOutcome
  claim : Nat
  blocks : List Nat
  deriving DecidableEq, Repr

/-- A copy order (R145). `payer` is 0 for CASH. The set being printed: `setStarted` once its first PAGE_START is sent,
`setPages` its pages as fixed then, `toSend` those not yet sent. `retry` is a page owed its second attempt (log 30),
`voidOwed` a VOID page owed (R158). -/
structure Order where
  number : Nat
  accept : Word32
  tag : Word16
  station : Nat
  doc : Nat
  side : Nat
  cert : Bool
  sets : Nat
  spans : List (Nat × Nat)
  payer : Nat
  rate : Nat
  certFee : Nat
  selection : List Nat
  copy : Option DocCopy
  hold : Nat
  state : OrderState
  closing : Option Closing
  curSet : Nat
  setStarted : Bool
  setPages : List Nat
  toSend : List Nat
  pendingCharge : Nat
  readSet : Nat
  readPage : Nat
  pages : List CopyPage
  retry : Option Nat
  stampRetry : Bool
  voidRetry : Bool
  voidOwed : Bool
  charged : Nat
  spoiled : Nat
  setsDone : Nat
  setsVoided : Nat
  amount : Nat
  item : Option Nat
  deriving DecidableEq, Repr

inductive PortPage | data | stamp | void
  deriving DecidableEq, Repr

inductive Limit | stopped | running | expired
  deriving DecidableEq, Repr

/-- The page in hand (R153). `sent` says its PAGE_END has left; `noRetry` that a SPOILED answer is not followed by a
second attempt (R140, R141). -/
structure PageInHand where
  seq : Word16
  kind : PortPage
  order : Nat
  set : Nat
  page : Nat
  attempt : Nat
  limit : Limit
  sent : Bool
  noRetry : Bool
  deriving DecidableEq, Repr

/-- A frame on the Print Port (R201): its kind byte and body. -/
structure PortFrame where
  kind : Byte
  body : List Byte
  deriving DecidableEq, Repr

inductive PrinterState | ready | notReady | fault
  deriving DecidableEq, Repr

/-- The Print Port record (R153). -/
structure Port where
  holder : Option Nat
  nextSeq : Word16
  inHand : Option PageInHand
  out : List PortFrame
  printer : PrinterState
  deriving DecidableEq, Repr

/-! ### Start-up and rebuild (chapter 10) -/

/-- A face as read in a rebuild (R23, R182). -/
structure FaceRead where
  label : LabelRead
  slots : List (Nat × SlotRead)
  deriving DecidableEq, Repr

/-- `waiting` for a drive, `busy` being read or moved, `read` on both faces and on its way to its resting slot or there,
unrecorded; `done` identified at its slot, put out or lost. -/
inductive RebuildStage | waiting | busy | read | done
  deriving DecidableEq, Repr

/-- A cartridge listed by a rebuild (R182): where it is, its resting slot, its faces read, the record index it was given. -/
structure RebuildCart where
  place : Place
  rest : Nat
  stage : RebuildStage
  faceA : Option FaceRead
  faceB : Option FaceRead
  index : Option Nat
  deriving DecidableEq, Repr

structure Rebuild where
  listed : Bool
  carts : List RebuildCart
  pickerFaults : Nat
  halted : Bool
  rejected : Nat
  deriving DecidableEq, Repr

/-- The inventory scan's results and the progress of START (R47, R48, R181). -/
structure Boot where
  seen : List Nat
  scanOk : Bool
  driveSeen : List (Nat × Option (Nat × Face))
  settled : Bool
  lost : Bool
  found : Nat
  rebuild : Rebuild
  deriving DecidableEq, Repr

def Boot.initial : Boot := ⟨[], true, [], false, false, 0, ⟨false, [], 0, false, 0⟩⟩

inductive Mode | start | rebuild | run | rest | night
  deriving DecidableEq, Repr

/-! ### The machine -/

structure State where
  powered : Bool
  ret : Retained
  mode : Mode
  clock : Option Clock
  elapsed : Nat
  boot : Boot
  rx : List Byte
  stations : List StationKind
  control : List ControlFrame
  line : Option LineFrame
  lastWasControl : Bool
  heldOff : Bool
  waiting : Option Arrival
  dropped : Bool
  params : Params
  work : List Item
  heldReqs : List HeldReq
  mem : List Host.Cell
  claims : List Claim
  drives : List Drive
  labelFailed : List Nat
  picker : Picker
  bay : Bay
  fetches : List Fetch
  fetchTurn : Nat
  filings : List Filing
  fileCount : Word32
  fileLine : List Word32
  reserved : List (Nat × Word32)
  orders : List Order
  acceptCount : Word32
  port : Port
  nextId : Nat
  pending : List Instr
  deriving DecidableEq, Repr

/-- No command stops this block: requests are answered, bad frames rejected, and faults of drives and picker are states
(INVENTORY.md, Faults). So the type has no constructor; that is safe. -/
inductive Fault
  deriving DecidableEq, Repr

/-- Reasons for which a command has no meaning in this model. -/
inductive Refusal
  /-- A command not modelled; raised by a refused arm of `exec` only, of which there is none. Safe. -/
  | notModelled (mnemonic : String)
  deriving DecidableEq, Repr

/-- The picker at power-on, with the inventory's PARK issued (R32, R47). -/
def Picker.initial : Picker where
  state := .idle
  fault := none
  gripper := .empty
  gripFaceB := false
  gripMail := none
  gripSerial := none
  queue := []
  deferred := []
  arm := none
  broken := none
  routine := .invPark
  parkAsked := false
  exportPending := []
  mails := [Mail.initial, Mail.initial]
  inspectWanted := []

/-- The state after POWER_ON over a given Retained Store and mode, each block as its chapter gives it. -/
def State.poweredOn (ret : Retained) (mode : Mode) (pending : List Instr) : State where
  powered := true
  ret := ret
  mode := mode
  clock := none
  elapsed := 0
  boot := Boot.initial
  rx := []
  stations := List.replicate Config.stationCount .pub
  control := []
  line := none
  lastWasControl := false
  heldOff := false
  waiting := none
  dropped := false
  params := Params.default
  work := []
  heldReqs := []
  mem := []
  claims := []
  drives := List.replicate 4 Drive.initial
  labelFailed := []
  picker := Picker.initial
  bay := ⟨[⟨1, .park, .plain⟩], none, [], false⟩
  fetches := []
  fetchTurn := 0
  filings := []
  fileCount := 0
  fileLine := []
  reserved := []
  orders := []
  acceptCount := 0
  port := ⟨none, 0, none, [], .fault⟩
  nextId := 1
  pending := pending

/-- The controller right after reset: the first power-on of a board whose Retained Store has never been written, which is
a rebuild with its clearing step made (R179, R182; log 1). -/
def State.reset : State := State.poweredOn Retained.initial .rebuild []

end Sys2Proof.Machine
end

