-- ==== Sys2Proof/Machine/Layout.lean ====
section
/-! DEFINITION. Byte layouts (spec/12): numbers, the CRC-16 of R199, enumerated values, request kinds, Host Link frames,
the side label block (R203) and the document record (R204). -/

namespace Sys2Proof.Machine

/-! ### Numbers and lists -/

/-- A number in `k` bytes, most significant first (00_scope "Byte order"). -/
def be (k n : Nat) : List Byte :=
  (List.range k).map fun i => BitVec.ofNat 8 (n / 256 ^ (k - 1 - i))

/-- The number that bytes spell, most significant first. -/
def beNat (bs : List Byte) : Nat :=
  bs.foldl (fun acc b => acc * 256 + b.toNat) 0

/-- The `len` bytes from `off`. -/
def sliceOf (bs : List Byte) (off len : Nat) : List Byte := (bs.drop off).take len

/-- The number in the `len` bytes from `off`. -/
def numAt (bs : List Byte) (off len : Nat) : Nat := beNat (sliceOf bs off len)

/-- A yes/no field in one byte (log 11). -/
def flag (b : Bool) : List Byte := [if b then 1 else 0]

/-- An optional number whose range excludes 0 (R200). -/
def optNum (k : Nat) (o : Option Nat) : List Byte := be k (o.getD 0)

/-- Any other optional field of `k` bytes, with its presence byte (R200). -/
def optField (k : Nat) (o : Option Nat) : List Byte :=
  match o with
  | some n => 1 :: be k n
  | none => 0 :: be k 0

/-- A balance, in two's complement (R200). -/
def balanceBytes (b : Int) : List Byte := be 4 (b % 4294967296).toNat

/-- The pairs of one-byte numbers in `n` places from `off`: page ranges and spans. -/
def pairsAt (bs : List Byte) (off n : Nat) : List (Nat × Nat) :=
  (List.range n).map fun i => (numAt bs (off + 2 * i) 1, numAt bs (off + 2 * i + 1) 1)

def pairBytes (ps : List (Nat × Nat)) : List Byte :=
  ps.flatMap fun p => be 1 p.1 ++ be 1 p.2

/-! ### The check value (R199) -/

def crcBit (c : BitVec 16) : BitVec 16 :=
  if c.getMsbD 0 then (c <<< 1) ^^^ 0x1021#16 else c <<< 1

/-- One byte taken most significant bit first. -/
def crcByte (c : BitVec 16) (b : Byte) : BitVec 16 :=
  (List.range 8).foldl (fun x _ => crcBit x) (c ^^^ (b.zeroExtend 16 <<< 8))

/-- CRC-16, polynomial 1021h, initial value FFFFh, no reversal, no inversion (R199). -/
def crc16 (bs : List Byte) : BitVec 16 := bs.foldl crcByte 0xFFFF#16

/-! ### Enumerated values: positions from 1 in the defining rule's list (R200) -/

def faceCode : Face → Nat | .a => 1 | .b => 2
def SideState.code : SideState → Nat | .blank => 1 | .opened => 2 | .closed => 3 | .faulty => 4
def CloseReason.code : CloseReason → Nat | .room => 1 | .directory => 2 | .spare => 3 | .host => 4 | .rebuild => 5
def CartState.code : CartState → Nat | .inLibrary => 1 | .withdrawn => 2 | .missing => 3
def AccountState.code : AccountState → Nat | .inactive => 1 | .active => 2 | .suspended => 3
def StationKind.code : StationKind → Nat | .pub => 1 | .supervisor => 2 | .scanning => 3
def Mode.code : Mode → Nat | .start => 1 | .rebuild => 2 | .run => 3 | .rest => 4 | .night => 5
def WorkClass.code : WorkClass → Nat | .urgent => 1 | .media => 2 | .view => 3 | .copy => 4 | .file => 5
def ItemKind.code : ItemKind → Nat | .fetch => 1 | .copy => 2 | .file => 3 | .inspect => 4
def ItemState.code : ItemState → Nat
  | .waiting => 1 | .waitingStaging => 2 | .waitingPort => 3 | .assigned => 4 | .active => 5 | .parked => 6
def DriveState.code : DriveState → Nat
  | .empty => 1 | .spinningUp => 2 | .ready => 3 | .active => 4 | .spinningDown => 5 | .stopped => 6
  | .outOfService => 7 | .faulted => 8
def Service.code : Service → Nat | .inService => 1 | .leaving => 2 | .out => 3
def DriveFault.code : DriveFault → Nat | .bus => 1 | .hardware => 2 | .spinUp => 3 | .noAnswer => 4
def PickerState.code : PickerState → Nat
  | .parked => 1 | .idle => 2 | .fetching => 3 | .carrying => 4 | .flipping => 5 | .placing => 6 | .faulted => 7
def PickerFaultReason.code : PickerFaultReason → Nat | .timeout => 1 | .bus => 2 | .hardware => 3
def XferKind.code : XferKind → Nat
  | .mount => 1 | .dismount => 2 | .importTake => 3 | .exportPut => 4 | .ret => 5 | .reject => 6
def RejectReason.code : RejectReason → Nat
  | .tableFull => 1 | .noSlot => 2 | .noLabel => 3 | .duplicate => 4 | .unknown => 5 | .labelWrite => 6 | .drive => 7
  | .door => 8 | .picker => 9 | .unidentified => 10
def MailState.code : MailState → Nat | .empty => 1 | .loadedIn => 2 | .loadedOut => 3 | .doorOpen => 4
def FilingState.code : FilingState → Nat
  | .receiving => 1 | .awaitingConsent => 2 | .queued => 3 | .writing => 4 | .held => 5 | .committing => 6
def FetchOutcome.code : FetchOutcome → Nat | .complete => 1 | .unavailable => 2 | .notFound => 3
def OrderState.code : OrderState → Nat | .queued => 1 | .active => 2 | .suspended => 3
def Closing.code : Closing → Nat | .cancelled => 1 | .media => 2 | .unavailable => 3
def PortPage.code : PortPage → Nat | .data => 1 | .stamp => 2 | .void => 3
def Limit.code : Limit → Nat | .running => 1 | .stopped => 2 | .expired => 3
def PrinterState.code : PrinterState → Nat | .ready => 1 | .notReady => 2 | .fault => 3
def PageMarker.code : PageMarker → Nat | .data => 1 | .withheld => 2 | .unreadable => 3
def BadReason.code : BadReason → Nat | .length => 1 | .check => 2 | .gap => 3
def LowClass.toClass : LowClass → WorkClass | .view => .view | .copy => .copy | .file => .file

def RefCode.code : RefCode → Nat
  | .unknownKind => 1 | .badField => 2 | .notPermitted => 3 | .notFound => 4 | .offline => 5 | .unavailable => 6
  | .busy => 7 | .listFull => 8 | .tableFull => 9 | .stagingFull => 10 | .sequence => 11 | .incomplete => 12
  | .badCode => 13 | .clockUnset => 14 | .noDay => 15 | .accountState => 16 | .funds => 17 | .nothingToCopy => 18
  | .night => 19 | .rebuilding => 20

def NoticeKind.code : NoticeKind → Nat
  | .fetchDone => 1 | .filed => 2 | .filingFailed => 3 | .filingHeld => 4 | .filingLost => 5 | .consentVoid => 6
  | .sideOpened => 7 | .sideClosed => 8 | .copyDone => 9 | .copyFailed => 10 | .printer => 11 | .door => 12
  | .imported => 13 | .importRejected => 14 | .exported => 15 | .driveFault => 16 | .pickerFault => 17
  | .mediaError => 18 | .cartridgeMissing => 19 | .started => 20 | .rebuildDone => 21

/-- The six class orders, numbered in the order of log 11. -/
def classOrders : List (List LowClass) :=
  [[.view, .copy, .file], [.view, .file, .copy], [.copy, .view, .file], [.copy, .file, .view],
   [.file, .view, .copy], [.file, .copy, .view]]

/-! ### Request kinds (R194, R200) -/

/-- The request kinds, in the order of the permission table. -/
inductive ReqKind
  | status | stationQuery | paramsQuery | locate | sideQuery | cartridgeQuery | slotQuery | workQuery | filingQuery
  | withheldQuery | copyQuery | feeQuery | accountQuery | fetch | copyOrder
  | setParams | stationSet | setClock | feeSet | accountOpen | accountLimit | accountDeposit | accountWithdraw
  | accountSuspend | accountResume | accountClose | tallyQuery | dayOpen | dayClose | driveService | pickerReset
  | slotDisable | slotEnable | exportCart | forget | closeSide | markFaulty | rest | night | wake | restart
  | fileBegin | fileData | fileEnd | fileCancel | consent | cancel
  deriving DecidableEq, Repr

def ReqKind.openClass : List ReqKind :=
  [.status, .stationQuery, .paramsQuery, .locate, .sideQuery, .cartridgeQuery, .slotQuery, .workQuery, .filingQuery,
   .withheldQuery, .copyQuery, .feeQuery, .accountQuery, .fetch, .copyOrder]

def ReqKind.maintenanceClass : List ReqKind :=
  [.setParams, .stationSet, .setClock, .feeSet, .accountOpen, .accountLimit, .accountDeposit, .accountWithdraw,
   .accountSuspend, .accountResume, .accountClose, .tallyQuery, .dayOpen, .dayClose, .driveService, .pickerReset,
   .slotDisable, .slotEnable, .exportCart, .forget, .closeSide, .markFaulty, .rest, .night, .wake, .restart]

def ReqKind.ownerClass : List ReqKind := [.fileBegin, .fileData, .fileEnd, .fileCancel, .consent, .cancel]

/-- The position of a kind in a class's list, from 0. -/
def ReqKind.position (k : ReqKind) : List ReqKind → Option Nat
  | [] => none
  | x :: xs => if x = k then some 0 else (k.position xs).map (· + 1)

/-- The kind byte: 01h on for the open class, 10h on for maintenance, 30h on for the owner-checked class (R200). -/
def ReqKind.byte (k : ReqKind) : Byte :=
  match k.position openClass, k.position maintenanceClass, k.position ownerClass with
  | some i, _, _ => BitVec.ofNat 8 (0x01 + i)
  | none, some i, _ => BitVec.ofNat 8 (0x10 + i)
  | none, none, some i => BitVec.ofNat 8 (0x30 + i)
  | none, none, none => 0

/-- The request kind of a kind byte; none for an unknown kind, 80h to 83h among them (R200). -/
def reqKindOf (b : Byte) : Option ReqKind :=
  let n := b.toNat
  if 0x01 ≤ n ∧ n ≤ 0x0F then ReqKind.openClass[n - 0x01]?
  else if 0x10 ≤ n ∧ n ≤ 0x29 then ReqKind.maintenanceClass[n - 0x10]?
  else if 0x30 ≤ n ∧ n ≤ 0x35 then ReqKind.ownerClass[n - 0x30]?
  else none

/-- The body length a kind's layout gives for the counts the body carries (R200 "Principal request bodies" and widths). -/
def layoutLength (k : ReqKind) (body : List Byte) : Nat :=
  match k with
  | .fetch => 7
  | .copyOrder => 8 + 2 * numAt body 7 1
  | .fileBegin => 15 + 2 * numAt body 14 1 + 2 * numAt body 5 1
  | .fileData => 1030
  | .fileEnd | .fileCancel => 4
  | .consent => 6
  | .cancel => 3
  | .locate | .withheldQuery | .exportCart | .forget => 4
  | .sideQuery => 3
  | .cartridgeQuery | .accountQuery | .stationSet | .driveService => 2
  | .setParams => 10
  | .setClock => 6
  | .feeSet => 12
  | .accountOpen | .accountLimit | .accountDeposit | .accountWithdraw => 5
  | .accountSuspend | .accountResume | .accountClose | .slotDisable | .slotEnable => 1
  | .closeSide | .markFaulty => 2
  | .status | .stationQuery | .paramsQuery | .slotQuery | .workQuery | .filingQuery | .copyQuery | .feeQuery
  | .tallyQuery | .dayOpen | .dayClose | .pickerReset | .rest | .night | .wake | .restart => 0

/-- Check 6 of R191. -/
def lengthOk (k : ReqKind) (body : List Byte) : Bool := body.length == layoutLength k body

/-! ### Host Link and Print Port frames (R198 to R201) -/

/-- A frame's bytes: start, length, kind, tag, station, body, check (R198). -/
def frameBytes (kind : Byte) (tag : Word16) (station : Byte) (body : List Byte) : List Byte :=
  let checked := kind :: be 2 tag.toNat ++ station :: body
  0x5A :: be 2 body.length ++ checked ++ be 2 (crc16 checked).toNat

/-- One byte at the receiver (R190), which holds the bytes of the frame in hand, none while it hunts: what it holds after the
byte, and the frame that the byte completes. -/
def rxStep (rx : List Byte) (b : Byte) : List Byte × Option Arrival :=
  let bs := rx ++ [b]
  let len := numAt bs 1 2
  if rx = [] then (if b = 0x5A then [b] else [], none)
  else if bs.length < 3 then (bs, none)
  else if Config.bodyLimit < len then ([], some (.bad .length))
  else if bs.length < 9 + len then (bs, none)
  else if numAt bs (7 + len) 2 = (crc16 (sliceOf bs 3 (4 + len))).toNat then
    ([], some (.request (BitVec.ofNat 8 (numAt bs 3 1)) ⟨BitVec.ofNat 16 (numAt bs 4 2), BitVec.ofNat 8 (numAt bs 6 1)⟩
      (sliceOf bs 7 len)))
  else ([], some (.bad .check))

def Arrival.isBad : Arrival → Bool
  | .bad _ => true
  | .request _ _ _ => false

/-- Bytes received from a hunt hold a frame that is bad. -/
def holdsBadFrame (rx : List Byte) : List Byte → Bool
  | [] => false
  | b :: bs => (rxStep rx b).2.any Arrival.isBad || holdsBadFrame (rxStep rx b).1 bs

def ReplyOutcome.code : ReplyOutcome → Nat | .accepted => 1 | .done => 2 | .refused _ => 3
def ReplyOutcome.refusalCode : ReplyOutcome → Nat | .refused c => c.code | .accepted => 0 | .done => 0

/-- The bytes of a control frame as sent (R198, R200). -/
def ControlFrame.bytes : ControlFrame → List Byte
  | .reply r =>
    frameBytes 0x80 r.tag r.station (be 1 r.outcome.code ++ be 1 r.outcome.refusalCode ++ r.kind :: r.fields)
  | .linkReject w => frameBytes 0x83 0 0 (be 1 w.code)
  | .notice n =>
    match n.about with
    | some (t, st) => frameBytes 0x81 t (BitVec.ofNat 8 st) (be 1 n.kind.code ++ 1 :: n.fields)
    | none => frameBytes 0x81 0 0 (be 1 n.kind.code ++ 0 :: n.fields)

/-- The bytes of a PAGE frame as sent (R200). -/
def PageFrame.frame (p : PageFrame) : List Byte :=
  frameBytes 0x82 p.tag (BitVec.ofNat 8 p.station)
    (be 1 p.page ++ be 2 p.chunk ++ be 2 p.chunks ++ be 1 p.marker.code ++ p.bytes)

/-- A Print Port frame's bytes: the Host Link's framing without tag and station (R201). -/
def PortFrame.bytes (f : PortFrame) : List Byte :=
  0x5A :: be 2 f.body.length ++ f.kind :: f.body ++ be 2 (crc16 (f.kind :: f.body)).toNat

/-- A frame from the printer that is taken: a good frame that is an ANSWER or a STATUS with a value of its range (R201,
R202). -/
def printerFrameGood (bs : List Byte) : Bool :=
  let len := numAt bs 1 2
  let kind := numAt bs 3 1
  bs.length == 6 + len && numAt bs 0 1 == 0x5A &&
    numAt bs (4 + len) 2 == (crc16 (sliceOf bs 3 (1 + len))).toNat &&
    (kind == 0x11 && len == 3 && (numAt bs 6 1 == 1 || numAt bs 6 1 == 2) ||
      kind == 0x12 && len == 1 && decide (1 ≤ numAt bs 4 1 ∧ numAt bs 4 1 ≤ 3))

/-! ### The side label block (R203) -/

def formatWord : Nat := 0x4E333430

def Mark.code : Mark → Nat | .new => 1 | .opened => 2 | .closed => 3

/-- Bytes 0 to 1,021 of a label block. -/
def Label.content (l : Label) : List Byte :=
  be 4 formatWord ++ be 4 l.serial ++ be 1 (faceCode l.face) ++ be 1 l.mark.code ++ be 4 l.firstToBe ++ be 2 l.openedDay
    ++ be 1 ((l.closeReason.map CloseReason.code).getD 0) ++ flag l.last.isSome ++ be 4 (l.last.getD 0) ++ be 2 l.count
    ++ List.replicate 998 0

def Label.bytes (l : Label) : List Byte := l.content ++ be 2 (crc16 l.content).toNat

def faceOf : Nat → Option Face | 1 => some .a | 2 => some .b | _ => none
def markOf : Nat → Option Mark | 1 => some .new | 2 => some .opened | 3 => some .closed | _ => none
def closeReasonOf : Nat → Option CloseReason
  | 1 => some .room | 2 => some .directory | 3 => some .spare | 4 => some .host | 5 => some .rebuild | _ => none

/-- A label block as read: erased, good, or unreadable by its check value or format word (R4). DESIGN CHOICE (log 46): so is
one with a good check value and format word whose face or mark byte is none of the values of R203. -/
def readLabelBlock : BlockIn → LabelRead
  | .erased _ => .erased
  | .data bs =>
    if bs.length = 1024 ∧ numAt bs 0 4 = formatWord ∧ numAt bs 1022 2 = (crc16 (bs.take 1022)).toNat then
      match faceOf (numAt bs 8 1), markOf (numAt bs 9 1) with
      | some f, some m =>
        .good ⟨numAt bs 4 4, f, m, numAt bs 10 4, numAt bs 14 2, closeReasonOf (numAt bs 16 1),
          if numAt bs 17 1 = 1 then some (numAt bs 18 4) else none, numAt bs 22 2⟩
      | _, _ => .unreadable
    else .unreadable

/-! ### The document record (R204) -/

def padTo (n : Nat) (bs : List Byte) : List Byte := bs ++ List.replicate (n - bs.length) 0

/-- Bytes 0 to 1,021 of a document record. -/
def DocRecord.content (r : DocRecord) : List Byte :=
  let ranges := (r.rect.map Prod.snd).getD []
  be 4 r.number ++ be 1 (if r.rect.isSome then 2 else 1) ++ be 1 r.station ++ be 2 r.day ++ be 4 r.second
    ++ be 4 r.ref.toNat ++ be 1 r.pageCount ++ be 1 ranges.length ++ be 1 r.remaps.length ++ [0] ++ be 4 r.start
    ++ be 2 r.count ++ be 4 ((r.rect.map Prod.fst).getD 0) ++ padTo 16 (pairBytes ranges)
    ++ padTo 128 (r.remaps.flatMap fun e => be 2 e.1 ++ be 2 e.2)
    ++ padTo 400 (r.offsets.flatMap (be 2 ·)) ++ List.replicate 448 0

def DocRecord.bytes (r : DocRecord) : List Byte := r.content ++ be 2 (crc16 r.content).toNat

/-- Each entry exceeds the one before it. -/
def strictlyRising : List Nat → Bool
  | a :: b :: rest => decide (a < b) && strictlyRising (b :: rest)
  | _ => true

/-- Each page spans 1 to 1,024 blocks, the first offset being 0 (R7). -/
def pageShapeOk (offsets : List Nat) (count : Nat) : Bool :=
  offsets.head? == some 0 &&
    ((offsets.zip (offsets.drop 1 ++ [count])).all fun p => decide (p.1 < p.2 ∧ p.2 - p.1 ≤ Config.pageBlockLimit))

def rangeOk (r : Nat × Nat) : Bool := decide (1 ≤ r.1 ∧ r.1 ≤ r.2 ∧ r.2 ≤ Config.pageLimit)

/-- The limits of the table of R7. -/
def DocRecord.valid (r : DocRecord) : Bool :=
  decide (1 ≤ r.number ∧ r.number < Config.docNumberEnd) && decide (1 ≤ r.day ∧ r.day ≤ 65535) &&
    decide (r.second < Config.secondsPerDay) && decide (r.station ≤ 32) &&
    decide (1 ≤ r.pageCount ∧ r.pageCount ≤ 200) && r.offsets.length == r.pageCount &&
    decide (1 ≤ r.count ∧ r.count ≤ Config.docBlockLimit) && decide (r.start + r.count ≤ Config.dataBlocks) &&
    pageShapeOk r.offsets r.count && decide (r.remaps.length ≤ Config.remapLimit) &&
    (r.remaps.all fun e => decide (e.1 < r.count ∧ e.2 < Config.spareBlocks)) &&
    strictlyRising (r.remaps.map Prod.fst) && strictlyRising (r.remaps.map Prod.snd) &&
    (match r.rect with
     | none => true
     | some (t, ranges) =>
       decide (1 ≤ t ∧ t < r.number) && decide (1 ≤ ranges.length ∧ ranges.length ≤ 8) && ranges.all rangeOk)

/-- A directory slot's block as read, its check value and field limits tested (R5, R7, R204). -/
def readSlotBlock : BlockIn → SlotRead
  | .erased _ => .erased
  | .data bs =>
    let pages := numAt bs 16 1
    let nr := numAt bs 17 1
    let nm := numAt bs 18 1
    let k := numAt bs 4 1
    if bs.length = 1024 ∧ numAt bs 1022 2 = (crc16 (bs.take 1022)).toNat ∧ nr ≤ 8 ∧ nm ≤ 32 ∧ 1 ≤ pages ∧ pages ≤ 200
        ∧ (k = 1 ∧ nr = 0 ∧ numAt bs 26 4 = 0 ∨ k = 2) then
      let r : DocRecord :=
        ⟨numAt bs 0 4, numAt bs 6 2, numAt bs 8 4, numAt bs 5 1, BitVec.ofNat 32 (numAt bs 12 4), pages,
          (List.range pages).map fun i => numAt bs (174 + 2 * i) 2, numAt bs 20 4, numAt bs 24 2,
          (List.range nm).map fun i => (numAt bs (46 + 4 * i) 2, numAt bs (48 + 4 * i) 2),
          if k = 2 then some (numAt bs 26 4, pairsAt bs 30 nr) else none⟩
      if r.valid then .record r else .dead
    else .dead

/-! ### Numbers of the places on the bus, for TRANSFER and SCAN (log 8) -/

def Place.number : Place → Nat
  | .slot n => n
  | .drive n => 120 + n
  | .gripper => 125
  | .mail n => 125 + n

end Sys2Proof.Machine
end

