-- ==== Sys2Proof/Machine/Ops.lean ====
section
/-! DEFINITION. The named operations over tables, the Staging Store's memory, the control order and the command queues,
which every unit uses. -/

namespace Sys2Proof.Machine

/-! ### Tables numbered from 1 -/

/-- Entry `i` of a table numbered from 1; `d` outside it. -/
def tget {α : Type} (t : List α) (i : Nat) (d : α) : α :=
  match i with
  | 0 => d
  | k + 1 => t.getD k d

/-- The table with entry `i` replaced; unchanged for an `i` outside it. -/
def tset {α : Type} (t : List α) (i : Nat) (x : α) : List α :=
  match i with
  | 0 => t
  | k + 1 => t.set k x

/-- The numbers from 1 to `n`. -/
def upTo (n : Nat) : List Nat := (List.range n).map (· + 1)

/-- The entries of a table with their numbers. -/
def numbered {α : Type} (t : List α) : List (Nat × α) := (upTo t.length).zip t

def State.side (s : State) (n : Nat) : Side := tget s.ret.sides n Side.blank
def State.cart (s : State) (c : Nat) : Option Cart := tget s.ret.carts c none
def State.slot (s : State) (n : Nat) : Slot := tget s.ret.slots n ⟨.empty, true⟩
def State.account (s : State) (a : Nat) : Account := tget s.ret.accounts a Account.initial
def State.drive (s : State) (d : Nat) : Drive := tget s.drives d Drive.initial
def State.mail (s : State) (m : Nat) : Mail := tget s.picker.mails m Mail.initial

/-- One update of the Retained Store, made whole (R179). -/
def State.retain (s : State) (f : Retained → Retained) : State := { s with ret := f s.ret }

def State.setSide (s : State) (n : Nat) (e : Side) : State :=
  s.retain fun r => { r with sides := tset r.sides n e }
def State.setCart (s : State) (c : Nat) (e : Option Cart) : State :=
  s.retain fun r => { r with carts := tset r.carts c e }
def State.setSlot (s : State) (n : Nat) (e : Slot) : State :=
  s.retain fun r => { r with slots := tset r.slots n e }
def State.setAccount (s : State) (a : Nat) (e : Account) : State :=
  s.retain fun r => { r with accounts := tset r.accounts a e }

def State.modDrive (s : State) (d : Nat) (f : Drive → Drive) : State :=
  { s with drives := tset s.drives d (f (s.drive d)) }
def State.modPicker (s : State) (f : Picker → Picker) : State := { s with picker := f s.picker }
def State.setMail (s : State) (m : Nat) (e : Mail) : State :=
  s.modPicker fun p => { p with mails := tset p.mails m e }
def State.modBoot (s : State) (f : Boot → Boot) : State := { s with boot := f s.boot }
def State.modRebuild (s : State) (f : Rebuild → Rebuild) : State :=
  s.modBoot fun b => { b with rebuild := f b.rebuild }
def State.modPort (s : State) (f : Port → Port) : State := { s with port := f s.port }
def State.modItem (s : State) (id : Nat) (f : Item → Item) : State :=
  { s with work := s.work.map fun i => if i.id = id then f i else i }
def State.modFetch (s : State) (seq : Nat) (f : Fetch → Fetch) : State :=
  { s with fetches := s.fetches.map fun r => if r.seq = seq then f r else r }
def State.modFiling (s : State) (ref : Word32) (f : Filing → Filing) : State :=
  { s with filings := s.filings.map fun x => if x.ref = ref then f x else x }
def State.modOrder (s : State) (n : Nat) (f : Order → Order) : State :=
  { s with orders := s.orders.map fun o => if o.number = n then f o else o }

def State.findItem (s : State) (id : Nat) : Option Item := s.work.find? fun i => i.id == id
def State.findFetch (s : State) (seq : Nat) : Option Fetch := s.fetches.find? fun f => f.seq == seq
def State.findFiling (s : State) (ref : Word32) : Option Filing := s.filings.find? fun f => f.ref == ref
def State.findOrder (s : State) (n : Nat) : Option Order := s.orders.find? fun o => o.number == n
def State.findClaim (s : State) (id : Nat) : Option Claim := s.claims.find? fun c => c.id == id

/-! ### The control order (R192, R197) -/

def ControlFrame.isNotice : ControlFrame → Bool
  | .notice _ => true
  | .reply _ => false
  | .linkReject _ => false

def noticeCount (s : State) : Nat := (s.control.filter ControlFrame.isNotice).length
/-- Replies and LINK_REJECT frames waiting (R192). -/
def replyCount (s : State) : Nat := (s.control.filter fun f => !f.isNotice).length

/-- Places a notice at the tail of the Notice Queue, or drops it and sets the flag (R197). -/
def notify (s : State) (kind : NoticeKind) (about : Option (Word16 × Nat)) (fields : List Byte) : State :=
  if noticeCount s < Config.noticeCapacity then
    { s with control := s.control ++ [.notice ⟨kind, about, fields⟩] }
  else { s with dropped := true }

/-- Puts a control frame at a place of the control order. -/
def insertAt (n : Nat) (f : ControlFrame) (l : List ControlFrame) : List ControlFrame :=
  l.take n ++ f :: l.drop n

/-! ### The Staging Store's memory (chapter 4): block b, byte i at 1,024 b + i -/

/-- What a byte of staging that nothing has written reads as (log 3). -/
def stagingUnlisted : Byte := 0

def memRead (m : List Host.Cell) (a : Nat) : Byte :=
  match m with
  | [] => stagingUnlisted
  | (k, v) :: rest => if a = k then v else if a < k then stagingUnlisted else memRead rest a

/-- Writes one byte, keeping the canonical form. -/
def memWrite (m : List Host.Cell) (a : Nat) (b : Byte) : List Host.Cell :=
  match m with
  | [] => if b = stagingUnlisted then [] else [(a, b)]
  | (k, v) :: rest =>
    if a < k then (if b = stagingUnlisted then (k, v) :: rest else (a, b) :: (k, v) :: rest)
    else if a = k then (if b = stagingUnlisted then rest else (a, b) :: rest)
    else (k, v) :: memWrite rest a b

/-- Addresses rise strictly from `lo` and no entry equals what an unlisted address reads as. -/
def memWfFrom (lo : Nat) : List Host.Cell → Bool
  | [] => true
  | (k, v) :: rest => decide (lo ≤ k) && decide (v ≠ stagingUnlisted) && memWfFrom (k + 1) rest

/-- The canonical form of the Staging Store's memory. -/
def Memory.wf (m : List Host.Cell) : Bool := memWfFrom 0 m

/-- Writes bytes at consecutive addresses. -/
def memWriteAll (m : List Host.Cell) (a : Nat) : List Byte → List Host.Cell
  | [] => m
  | b :: bs => memWriteAll (memWrite m a b) (a + 1) bs

/-- Fills staging block `b` with the first 1,024 of `bytes`. -/
def writeBlock (s : State) (b : Nat) (bytes : List Byte) : State :=
  { s with mem := memWriteAll s.mem (Config.blockBytes * b) (bytes.take Config.blockBytes) }

/-- The 1,024 bytes of staging block `b`. -/
def readBlock (s : State) (b : Nat) : List Byte :=
  (List.range Config.blockBytes).map fun i => memRead s.mem (Config.blockBytes * b + i)

/-! ### Names and command queues -/

/-- Takes a fresh name for an item, a claim, a transfer or a fetch record (log 28). -/
def freshId (s : State) : Nat × State := (s.nextId, { s with nextId := s.nextId + 1 })

/-- A command joins its module's queue (R67); the one list keeps the order of issue across modules. -/
def issue (s : State) (module : Nat) (cmd : BayCmd) (why : Why) : State :=
  { s with bay := { s.bay with queue := s.bay.queue ++ [⟨module, cmd, why⟩] } }

/-- Drive `d` is at bus address d + 1, the door of mail slot `m` at m + 5 (R65). -/
def driveAddr (d : Nat) : Nat := d + 1
def doorAddr (m : Nat) : Nat := m + 5

def issueDrive (s : State) (d : Nat) (cmd : BayCmd) : State := issue s (driveAddr d) cmd .plain

/-- Removes the commands still queued for a module (R66). -/
def dropQueued (s : State) (module : Nat) : State :=
  { s with bay := { s.bay with queue := s.bay.queue.filter fun e => e.module != module } }

def BayCmd.isBlockOp : BayCmd → Bool
  | .read _ _ | .erase _ _ | .write _ _ | .verify _ _ => true
  | _ => false

/-- Removes from the queues the commands that `p` picks. -/
def dropCommands (s : State) (p : BayEntry → Bool) : State :=
  { s with bay := { s.bay with queue := s.bay.queue.filter fun e => !p e } }

/-- A first-match search that returns what it found and the rest of the list. -/
def extract {α : Type} (p : α → Bool) : List α → Option (α × List α)
  | [] => none
  | x :: xs => if p x then some (x, xs) else (extract p xs).map fun r => (r.1, x :: r.2)

/-- The consecutive run at the front of a list of read cells (R58): side addresses rising by one. -/
def runLength (addr : Nat) : List ReadCell → Nat
  | [] => 0
  | c :: cs => if c.addr = addr then runLength (addr + 1) cs + 1 else 0

/-- Union of page ranges as an ascending list without duplicates (R148). -/
def pagesOf (ranges : List (Nat × Nat)) : List Nat :=
  (upTo Config.pageLimit).filter fun p => ranges.any fun r => decide (r.1 ≤ p ∧ p ≤ r.2)

/-- An ascending list of pages as disjoint page ranges (R144). -/
def rangesOf : List Nat → List (Nat × Nat)
  | [] => []
  | p :: ps =>
    match rangesOf ps with
    | (a, b) :: rest => if a = p + 1 then (p, b) :: rest else (p, p) :: (a, b) :: rest
    | [] => [(p, p)]

/-! ### Blocks of a page (R8) -/

/-- Block offsets of page `p`. -/
def pageOffsets (c : DocCopy) (p : Nat) : List Nat :=
  let lo := tget c.offsets p 0
  let hi := if p < c.pageCount then tget c.offsets (p + 1) 0 else c.count
  (List.range (hi - lo)).map (lo + ·)

/-- The side address of a block offset: its spare block where the remap list has it, its data block otherwise. -/
def offsetAddr (c : DocCopy) (b : Nat) : Nat :=
  match c.remaps.find? fun e => e.1 == b with
  | some e => Config.spareBase + e.2
  | none => Config.dataBase + c.start + b

def pageAddrs (c : DocCopy) (p : Nat) : List Nat := (pageOffsets c p).map (offsetAddr c)

def DocRecord.toCopy (r : DocRecord) : DocCopy := ⟨r.pageCount, r.offsets, r.start, r.count, r.remaps⟩

end Sys2Proof.Machine
end

