-- ==== Sys2Proof/Machine/Operands.lean ====
section
/-! DEFINITION. The fields of request bodies (R200 "Principal request bodies"; other bodies carry their rule's fields in
its order, at R200's widths). Bodies are read after check 6 of R191 has found their length right. -/

namespace Sys2Proof.Machine

def refAt (body : List Byte) (off : Nat) : Word32 := BitVec.ofNat 32 (numAt body off 4)

structure FetchReq where
  doc : Nat
  first : Nat
  last : Nat
  urgent : Nat
  deriving DecidableEq, Repr

def parseFetch (b : List Byte) : FetchReq := ⟨numAt b 0 4, numAt b 4 1, numAt b 5 1, numAt b 6 1⟩

/-- The fields of FETCH in range: the pages (R96), and urgent 0 or 1 (R200; spec/11, BAD_FIELD). -/
def FetchReq.fieldsOk (q : FetchReq) : Bool := rangeOk (q.first, q.last) && decide (q.urgent ≤ 1)

structure CopyReq where
  doc : Nat
  kind : Nat
  sets : Nat
  payer : Nat
  spans : List (Nat × Nat)
  deriving DecidableEq, Repr

def parseCopy (b : List Byte) : CopyReq :=
  ⟨numAt b 0 4, numAt b 4 1, numAt b 5 1, numAt b 6 1, pairsAt b 8 (numAt b 7 1)⟩

structure FileBeginReq where
  ref : Word32
  kind : Nat
  pageCount : Nat
  count : Nat
  code : Word16
  target : Nat
  ranges : List (Nat × Nat)
  offsets : List Nat
  deriving DecidableEq, Repr

def parseFileBegin (b : List Byte) : FileBeginReq :=
  let r := numAt b 14 1
  let pages := numAt b 5 1
  ⟨refAt b 0, numAt b 4 1, pages, numAt b 6 2, BitVec.ofNat 16 (numAt b 8 2), numAt b 10 4, pairsAt b 15 r,
    (List.range pages).map fun i => numAt b (15 + 2 * r + 2 * i) 2⟩

structure FileDataReq where
  ref : Word32
  seq : Nat
  data : List Byte
  deriving DecidableEq, Repr

def parseFileData (b : List Byte) : FileDataReq := ⟨refAt b 0, numAt b 4 2, b.drop 6⟩

structure ConsentReq where
  ref : Word32
  code : Word16
  deriving DecidableEq, Repr

def parseConsent (b : List Byte) : ConsentReq := ⟨refAt b 0, BitVec.ofNat 16 (numAt b 4 2)⟩

structure CancelReq where
  station : Nat
  tag : Word16
  deriving DecidableEq, Repr

def parseCancel (b : List Byte) : CancelReq := ⟨numAt b 0 1, BitVec.ofNat 16 (numAt b 1 2)⟩

/-- SET_PARAMS' seven values in the order of R195's table; the class order by its number (log 11). -/
structure ParamsReq where
  burstPages : Nat
  writeBurst : Nat
  yieldLimit : Nat
  chainLimit : Nat
  order : Nat
  idleTime : Nat
  consentWindow : Nat
  deriving DecidableEq, Repr

def parseParams (b : List Byte) : ParamsReq :=
  ⟨numAt b 0 1, numAt b 1 2, numAt b 3 1, numAt b 4 1, numAt b 5 1, numAt b 6 2, numAt b 8 2⟩

/-- The first field of SET_PARAMS out of range, by its position in R195's table; 0 for none. -/
def ParamsReq.badField (q : ParamsReq) : Nat :=
  if ¬(1 ≤ q.burstPages ∧ q.burstPages ≤ 16) then 1
  else if ¬(64 ≤ q.writeBurst ∧ q.writeBurst ≤ 1024) then 2
  else if ¬(q.yieldLimit ≤ 7) then 3
  else if ¬(1 ≤ q.chainLimit ∧ q.chainLimit ≤ 32) then 4
  else if ¬(1 ≤ q.order ∧ q.order ≤ 6) then 5
  else if ¬(30 ≤ q.idleTime ∧ q.idleTime ≤ 3600) then 6
  else if ¬(60 ≤ q.consentWindow ∧ q.consentWindow ≤ 1800) then 7
  else 0

def ParamsReq.toParams (q : ParamsReq) : Params :=
  ⟨q.burstPages, q.writeBurst, q.yieldLimit, q.chainLimit, tget classOrders q.order Params.default.classOrder,
    q.idleTime, q.consentWindow⟩

/-- The field check of FILE_BEGIN (R110, third row). -/
def FileBeginReq.fieldsOk (q : FileBeginReq) : Bool :=
  decide (1 ≤ q.pageCount ∧ q.pageCount ≤ Config.pageLimit) && q.offsets.length == q.pageCount &&
    pageShapeOk q.offsets q.count && decide (1 ≤ q.count ∧ q.count ≤ Config.docBlockLimit) &&
    (q.kind == 1 && q.ranges.isEmpty ||
      q.kind == 2 && decide (1 ≤ q.ranges.length ∧ q.ranges.length ≤ 8) && q.ranges.all rangeOk)

/-- The field check of COPY_ORDER (R147, first row, but for the repeated tag). -/
def CopyReq.fieldsOk (q : CopyReq) : Bool :=
  (q.kind == 1 || q.kind == 2) && decide (1 ≤ q.sets ∧ q.sets ≤ 9) &&
    decide (1 ≤ q.spans.length ∧ q.spans.length ≤ 4) && q.spans.all rangeOk && decide (q.payer ≤ Config.accountCount)

end Sys2Proof.Machine
end

