-- ==== Sys2Proof/Machine/Flags.lean ====
section
/-! DEFINITION. Conditions and figures the rules compute from the state: where a cartridge is, whether work may be created
on a side, free slots, free staging, holds, availability of drives, the head filing, withheld sets. -/

namespace Sys2Proof.Machine

/-! ### Sides and cartridges -/

/-- Side n belongs to record ⌈n/2⌉ (chapter 1, "The Volume Table"). -/
def sideCart (n : Nat) : Nat := (n + 1) / 2
def sideFace (n : Nat) : Face := if n % 2 = 1 then .a else .b
def sideOf (c : Nat) (f : Face) : Nat := match f with | .a => 2 * c - 1 | .b => 2 * c

def otherFace : Face → Face | .a => .b | .b => .a

/-- The side a drive holds at its head, if a recorded cartridge with a known face is in it. -/
def Drive.side (d : Drive) : Option Nat :=
  match d.occ, d.face with
  | .record c, some f => some (sideOf c f)
  | _, _ => none

def drives4 : List Nat := [1, 2, 3, 4]
def mails2 : List Nat := [1, 2]

/-- The storage slot a record's cartridge is in. -/
def slotHolding (s : State) (c : Nat) : Option Nat :=
  ((numbered s.ret.slots).find? fun e => e.2.occ == .record c).map Prod.fst

def driveHolding (s : State) (c : Nat) : Option Nat := drives4.find? fun d => (s.drive d).occ == .record c

/-- A record's place, as the Place Map has it (R24, R26). -/
def placeOf (s : State) (c : Nat) : Option Place :=
  match driveHolding s c with
  | some d => some (.drive d)
  | none =>
    if s.picker.gripper = .record c then some .gripper
    else
      match mails2.find? fun m => (s.mail m).occ == .record c with
      | some m => some (.mail m)
      | none => (slotHolding s c).map Place.slot

/-- A place as reported: its number, and the face of a drive's cartridge; 0 and 0 for none (R24, log 8, log 11). -/
def placeBytes (s : State) (p : Option Place) : List Byte :=
  match p with
  | some (.drive d) => be 1 (Place.drive d).number ++ optNum 1 ((s.drive d).face.map faceCode)
  | some p => be 1 p.number ++ be 1 0
  | none => be 1 0 ++ be 1 0

/-- A cartridge is stuck when its place is a FAULTED drive and it is not ejected (R24). -/
def stuck (s : State) (c : Nat) : Bool :=
  match driveHolding s c with
  | some d => (s.drive d).state == .faulted && !(s.drive d).ejected
  | none => false

/-- Ejected from a faulted drive awaiting its RETURN (R64, R96). -/
def returning (s : State) (c : Nat) : Bool :=
  match driveHolding s c with
  | some d => (s.drive d).state == .faulted && (s.drive d).ejected
  | none => false

def exporting (s : State) (c : Nat) : Bool := s.picker.exportPending.any fun e => e.cart == c

def cartInState (s : State) (c : Nat) (st : CartState) : Bool :=
  match s.cart c with
  | some k => k.state == st
  | none => false

def sideAssigned (s : State) (n : Nat) : Bool := (s.cart (sideCart n)).isSome

/-- Range lookup (R13). -/
def rangeLookup (s : State) (doc : Nat) : Option Nat :=
  if doc = 0 ∨ s.ret.nextDoc ≤ doc then none
  else
    (upTo s.ret.sides.length).find? fun n =>
      sideAssigned s n &&
        (match (s.side n).first, (s.side n).last with
         | some a, some b => decide (a ≤ doc ∧ doc ≤ b)
         | _, _ => false)

/-- The first condition of R96 that makes a side UNAVAILABLE, numbered in its order; 0 for none: MISSING, STUCK,
RETURNING, EXPORTING, FAULTY, LABEL_FAILED. -/
def unavailableCode (s : State) (n : Nat) : Nat :=
  let c := sideCart n
  if cartInState s c .missing then 1
  else if stuck s c then 2
  else if returning s c then 3
  else if exporting s c then 4
  else if (s.side n).state = .faulty then 5
  else if s.labelFailed.contains n then 6
  else 0

/-- The OPEN side (R12). -/
def openSide (s : State) : Option Nat :=
  (upTo s.ret.sides.length).find? fun n => (s.side n).state == .opened && sideAssigned s n

/-- Some entry of the Volume Table is OPEN: no other is opened meanwhile (R12). -/
def anyOpened (s : State) : Bool := s.ret.sides.any fun e => e.state == .opened

def freeData (e : Side) : Nat := Config.dataBlocks - e.writePtr
def slotsLeft (e : Side) : Nat := Config.directorySlots - e.slotsUsed
def sparesLeft (e : Side) : Nat := Config.spareBlocks - e.spareUsed

/-- The open-side check's view of the OPEN side's free data blocks: none on a MISSING, stuck or label-failed one (R16, R53). -/
def usableData (s : State) (n : Nat) : Nat :=
  if cartInState s (sideCart n) .missing || stuck s (sideCart n) || s.labelFailed.contains n then 0 else freeData (s.side n)

/-- A BLANK side that meets R16's conditions. -/
def blankUsable (s : State) (n : Nat) : Bool :=
  (s.side n).state == .blank && cartInState s (sideCart n) .inLibrary && !stuck s (sideCart n) &&
    !exporting s (sideCart n)

/-- The side the open-side check would choose to open: the lowest-numbered usable BLANK side (R16). -/
def blankChoice (s : State) : Option Nat := (upTo s.ret.sides.length).find? (blankUsable s)

/-! ### Slots and records -/

def homeOf (s : State) (n : Nat) : Option Nat :=
  ((numbered s.ret.carts).find? fun e => match e.2 with
    | some k => k.home == some n
    | none => false).map Prod.fst

/-- A free slot: EMPTY, not DISABLED, home of no record (R28). -/
def slotFree (s : State) (n : Nat) : Bool :=
  (s.slot n).occ == .empty && !(s.slot n).disabled && (homeOf s n).isNone

def freeSlots (s : State) : List Nat := (upTo s.ret.slots.length).filter (slotFree s)
def lowestFreeSlot (s : State) : Option Nat := (upTo s.ret.slots.length).find? (slotFree s)

/-- Slot state as reported: EMPTY 1, OCCUPIED 2, DISABLED 3 (R28). -/
def slotCode (s : State) (n : Nat) : Nat :=
  if (s.slot n).occ ≠ .empty then 2 else if (s.slot n).disabled then 3 else 1

/-- Record indices reserved for a NEW mark being written (R42). -/
def reservedIndex (s : State) (c : Nat) : Bool :=
  s.drives.any fun d => match d.task with
    | .writeLabel (.new k) _ _ => k == c
    | _ => false

def lowestFreeRecord (s : State) : Option Nat :=
  (upTo s.ret.carts.length).find? fun c => (s.cart c).isNone && !reservedIndex s c

def recordOfLabel (s : State) (l : Nat) : Option Nat :=
  ((numbered s.ret.carts).find? fun e => match e.2 with
    | some k => k.label == l
    | none => false).map Prod.fst

/-! ### Staging (R76, R77) -/

def liveBlocks (s : State) : List Nat := s.claims.flatMap Claim.live
def freeBlocks (s : State) : List Nat :=
  (List.range Config.stagingBlocks).filter fun b => !s.claims.any fun c => c.live.contains b
def ClaimOwner.isFiling : ClaimOwner → Bool | .filing _ => true | .item _ => false
def heldByFilings (s : State) : Nat :=
  ((s.claims.filter fun c => c.owner.isFiling).map fun c => c.live.length).sum
def heldByReads (s : State) : Nat :=
  ((s.claims.filter fun c => !c.owner.isFiling).map fun c => c.live.length).sum
/-- Free blocks, by the staging law (R77). -/
def freeStaging (s : State) : Nat := Config.stagingBlocks - (heldByFilings s + heldByReads s)
def waitingClaims (s : State) : List Claim := s.claims.filter fun c => c.blocks.isNone
def waitingSize (s : State) : Nat := ((waitingClaims s).map Claim.size).sum
/-- A filing claim of `n` blocks is granted (R77). -/
def filingClaimFits (s : State) (n : Nat) : Bool :=
  decide (n + waitingSize s ≤ freeStaging s ∧ n + heldByFilings s ≤ Config.filingStaging)

/-! ### Accounts (R166) -/

def holdsOf (s : State) (a : Nat) : Nat := ((s.orders.filter fun o => o.payer == a).map Order.hold).sum
def openOrders (s : State) (a : Nat) : Nat := (s.orders.filter fun o => o.payer == a).length
/-- Available funds: balance plus credit limit, less holds. -/
def availableFunds (s : State) (a : Nat) : Int := (s.account a).balance + (s.account a).limit - holdsOf s a

/-! ### Stations (R193) -/

def stationKind (s : State) (n : Nat) : StationKind := tget s.stations n .pub
/-- Station 0 and SUPERVISOR stations. -/
def isSupervisor (s : State) (n : Nat) : Bool := n == 0 || stationKind s n == .supervisor
/-- Rights fixed at a fetch's acceptance (R94). -/
def fullRights (s : State) (n : Nat) : Bool := n == 0 || stationKind s n != .pub

/-! ### Withheld pages (R132) -/

def committedOn (s : State) (doc : Nat) : List (Nat × Committed) :=
  (numbered s.ret.withheld).filterMap fun e => match e.2 with
    | some w => if w.target = doc then some (e.1, w) else none
    | none => none

def withheldSet (s : State) (doc : Nat) : List Nat := pagesOf ((committedOn s doc).flatMap fun e => e.2.ranges)

def withheldFree (s : State) (i : Nat) : Bool :=
  (tget s.ret.withheld i none).isNone && !s.reserved.any fun e => e.1 == i
def freeEntries (s : State) : List Nat := (upTo s.ret.withheld.length).filter (withheldFree s)

/-- The pending consents: RECTIFICATIONs in RECEIVING or AWAITING_CONSENT (R133). -/
def Filing.pendingConsent (f : Filing) : Bool :=
  f.rect.isSome && (f.state == .receiving || f.state == .awaitingConsent)
def pendingConsents (s : State) : List Filing := s.filings.filter Filing.pendingConsent

/-! ### Clock (R133, R180) -/

/-- A reading at or past another. -/
def Clock.reaches (now deadline : Clock) : Bool :=
  decide (deadline.day < now.day ∨ deadline.day = now.day ∧ deadline.second ≤ now.second)

/-- The clock's next reading; the last reading is held (R180). -/
def Clock.tick (c : Clock) : Clock :=
  if c.second + 1 < Config.secondsPerDay then ⟨c.day, c.second + 1⟩
  else if c.day < Config.clockLastDay then ⟨c.day + 1, 0⟩
  else c

/-- A reading plus a number of seconds below a day, no later than the clock's last reading (R133). -/
def Clock.plus (c : Clock) (secs : Nat) : Clock :=
  let t := c.second + secs
  let day := c.day + t / Config.secondsPerDay
  if Config.clockLastDay < day then ⟨Config.clockLastDay, Config.secondsPerDay - 1⟩
  else ⟨day, t % Config.secondsPerDay⟩

/-! ### Transfers and drives -/

def allTransfers (s : State) : List Transfer := s.picker.queue ++ s.picker.deferred

/-- Where a transfer takes its cartridge from; an EXPORT_PUT follows its cartridge (R44, R45). -/
def xferSource (s : State) (t : Transfer) : Place :=
  match t.kind, t.cart with
  | .exportPut, some c => (placeOf s c).getD t.src
  | _, _ => t.src

/-- The transfer that holds the arm (R35). -/
def armXfer (s : State) : Option Transfer := s.picker.arm.bind fun a => s.picker.queue.find? fun t => t.id == a.xfer

/-- An EXPORT_PUT from drive `d` holds the arm, or was broken off and R37's STATUS has not yet placed its cartridge. DESIGN CHOICE
(log 69): it is not undone where the drive faults now, and no RETURN is asked beside it. -/
def exportLeaving (s : State) (d : Nat) : Bool :=
  ((armXfer s).any fun t => t.kind == .exportPut && xferSource s t == .drive d) ||
    s.picker.broken.any fun b => b.held.isNone && b.xfer.kind == .exportPut && b.xfer.src == .drive d

/-- A transfer out of drive `d` has been requested: its release is under way (R57). -/
def transferFrom (s : State) (d : Nat) : Bool := (allTransfers s).any fun t => xferSource s t == .drive d
/-- One that takes the cartridge home or puts it out, an EXPORT_PUT aside (R45, R62, R64). -/
def returnFrom (s : State) (d : Nat) : Bool :=
  (allTransfers s).any fun t => xferSource s t == .drive d && t.kind != .exportPut
def transferInto (s : State) (d : Nat) : Bool := (allTransfers s).any fun t => t.dst == some (.drive d)

/-- The cartridge of drive `d` is on its way out: a transfer, an eject made or owed to START (R51), or the drive LEAVING. -/
def releasing (s : State) (d : Nat) : Bool :=
  transferFrom s d || (s.drive d).ejected || (s.drive d).toEject || (s.drive d).service == .leaving

/-- The live item that holds drive `d` (R80). -/
def holderOf (s : State) (d : Nat) : Option Item := s.work.find? fun i => i.drive == some d

/-- A drive is available (R80; a transfer on its way into it keeps it, log 37). -/
def driveAvailable (s : State) (d : Nat) : Bool :=
  let dr := s.drive d
  (holderOf s d).isNone && dr.service == .inService && dr.task == .idle && !releasing s d && !transferInto s d &&
    (dr.state == .empty || dr.state == .ready || dr.state == .stopped)

/-- The closed mark that drive `d` owes to the side it holds (R20). -/
def markDue (s : State) (d : Nat) : Option Nat :=
  match (s.drive d).side with
  | some n =>
    if (s.side n).state = .closed ∧ (s.side n).closedPending ∧ (s.drive d).markTried = false then some n else none
  | none => none

/-! ### Work items (R73, R74) -/

/-- The head filing: the first in FILE order (R114). -/
def headFiling (s : State) : Option Filing := s.fileLine.head?.bind s.findFiling

def classItems (s : State) (c : WorkClass) : List Item := s.work.filter fun i => i.cls == c

/-- The Work List in rank order (R73). -/
def rankedItems (s : State) : List Item :=
  classItems s .urgent ++ classItems s .media ++ s.params.classOrder.flatMap fun c => classItems s c.toClass

/-- A side's cartridge lets an item on it be served (R74, second and third conditions). -/
def sideServable (s : State) (n : Nat) : Bool :=
  cartInState s (sideCart n) .inLibrary && !s.labelFailed.contains n &&
    (match placeOf s (sideCart n) with
     | some (.slot _) => true
     | some (.drive d) => !releasing s d && (s.drive d).state != .faulted
     | _ => false)

/-- An item is eligible for a drive (R74). A FILE item without a target side waits for the open-side check. -/
def eligible (s : State) (i : Item) : Bool :=
  i.state == .waiting && !i.ended &&
    (match i.kind with
     | .inspect =>
       (match i.mail with
        | some m => (s.mail m).state == .loadedIn && !(s.mail m).faulty && i.inDrive.isNone
        | none => false)
     | .file =>
       (match headFiling s, i.side with
        | some f, some n => f.item == some i.id && f.state != .held && sideServable s n
        | _, _ => false)
     | .fetch | .copy =>
       (match i.side with
        | some n => sideServable s n
        | none => false))

/-- The drive a cartridge is in, or is on its way to: an item given a drive for it holds it there already, for it cannot be
in two places (R84, R87; log 44). -/
def cartDrive (s : State) (c : Nat) : Option Nat :=
  (driveHolding s c).orElse fun _ => drives4.find? fun d =>
    ((holderOf s d).any fun i => i.side.map sideCart == some c) ||
      (allTransfers s).any fun t => t.kind == .mount && t.cart == some c && t.dst == some (.drive d)

/-- The drive, if any, for which the cartridge of an item's target side is or is bound. -/
def itemDrive (s : State) (i : Item) : Option Nat := i.side.bind fun n => cartDrive s (sideCart n)

/-- An urgent wait that drive `d` can serve (R88). -/
def urgentFor (s : State) (d : Nat) (i : Item) : Bool :=
  i.cls == .urgent && eligible s i &&
    (match itemDrive s i with
     | some e => e == d
     | none => (s.drive d).service == .inService && (s.drive d).state != .faulted)

def urgentWait (s : State) (d : Nat) : Option Item := (rankedItems s).find? (urgentFor s d)

end Sys2Proof.Machine
end

