-- ==== Sys2Proof/Machine/Staging.lean ====
section
/-! DEFINITION. The Staging Store's allocator (R76 to R79): claims, their grant and the freeing of blocks. -/

namespace Sys2Proof.Machine

/-- Grants a filing claim of `n` blocks: the lowest-numbered free ones (R76, R77). -/
def grantFilingClaim (s : State) (ref : Word32) (n : Nat) : State :=
  let (id, s) := freshId s
  let bs := (freeBlocks s).take n
  { s with claims := s.claims ++ [⟨id, .filing ref, n, some bs, bs, [], 0, true⟩] }

/-- Frees a filing's whole claim (R77). -/
def freeFilingClaim (s : State) (ref : Word32) : State :=
  { s with claims := s.claims.filter fun c => c.owner != .filing ref }

/-- The staging blocks of a filing, in order of block offset. -/
def filingBlocks (s : State) (ref : Word32) : List Nat :=
  match s.claims.find? fun c => c.owner == .filing ref with
  | some c => c.blocks.getD []
  | none => []

/-- Asks a read-burst claim for a plan of (page, side address) (R78); it waits until `grantRule` examines it. -/
def askClaim (s : State) (item : Nat) (plan : List (Nat × Nat)) (set : Nat) : Nat × State :=
  let (id, s) := freshId s
  (id, { s with claims := s.claims ++ [⟨id, .item item, plan.length, none, [], plan, set, false⟩] })

/-- Frees blocks of a granted claim; the record leaves when it holds none (R76). -/
def freeOf (s : State) (claim : Nat) (bs : List Nat) : State :=
  { s with claims := s.claims.filterMap fun c =>
      if c.id = claim ∧ c.blocks.isSome then
        let live := c.live.filter fun b => !bs.contains b
        if live.isEmpty then none else some { c with live := live }
      else some c }

/-- Frees everything a claim holds, or withdraws it (R78, R79). -/
def dropClaim (s : State) (claim : Nat) : State := { s with claims := s.claims.filter fun c => c.id != claim }

/-- The staging blocks a claim gave for a page, in order. -/
def Claim.pageBlocks (c : Claim) (page : Nat) : List Nat :=
  ((c.plan.zip (c.blocks.getD [])).filter fun e => e.1.1 == page).map Prod.snd

/-- The pages a claim's plan names, in order. -/
def Claim.pageList (c : Claim) : List Nat := (c.plan.map Prod.fst).eraseDups

/-- The cells a granted claim's burst reads. -/
def Claim.cells (c : Claim) : List ReadCell :=
  (c.plan.zip (c.blocks.getD [])).map fun e => ⟨e.1.1, e.1.2, e.2⟩

end Sys2Proof.Machine
end

