-- ==== Sys2Proof/Machine/Work.lean ====
section
/-! DEFINITION. The Work List's primitive operations (R70 to R75, R92), transfer requests (R33, R34), the closing of a
side (R18) and the MEDIA_ERROR notices, shared by the owning units. -/

namespace Sys2Proof.Machine

/-! ### Transfer requests (R34) -/

/-- A transfer is requested: it joins the queue, or is deferred while the queue is full. -/
def requestTransfer (s : State) (kind : XferKind) (cart : Option Nat) (src : Place) (dst : Option Place) (face : Face)
    (item : Option Nat) (report : Option RejectReason) (first : Bool) : State :=
  let (id, s) := freshId s
  let t : Transfer := ⟨id, kind, cart, src, dst, face, item, report, first⟩
  s.modPicker fun p =>
    if p.queue.length < Config.transferCapacity ∧ p.deferred = [] then { p with queue := p.queue ++ [t] }
    else { p with deferred := p.deferred ++ [t] }

/-- The occupant's way home from a place: RETURN for a recorded cartridge (`first` where PICKER_RESET asks it, R35), REJECT for
an unrecorded one. -/
def requestHome (s : State) (occ : Occupant) (src : Place) (report : Option RejectReason) (first : Bool) : State :=
  match occ with
  | .empty => s
  | .record c =>
    match (s.cart c).bind Cart.home with
    | some h => requestTransfer s .ret (some c) src (some (.slot h)) .a none none first
    | none => s
  | .unrecorded => requestTransfer s .reject none src none .a none report false

/-- Removes the MOUNT and IMPORT_TAKE of an item that the arm has not been granted (R34). -/
def dropItemTransfers (s : State) (item : Nat) : State :=
  let granted := (s.picker.arm.map Arm.xfer)
  let keep : Transfer → Bool := fun t =>
    !(t.item == some item && (t.kind == .mount || t.kind == .importTake) && granted != some t.id)
  s.modPicker fun p => { p with queue := p.queue.filter keep, deferred := p.deferred.filter keep }

/-! ### Rolling back a burst that was named but not begun (R79, R90, R103) -/

/-- Pages named to a claim become UNREAD again, and next to read moves back to the lowest of them. -/
def Fetch.unname (f : Fetch) (claim : Nat) : Fetch :=
  let named := f.pages.filter fun p => p.claim == claim && p.outcome == .inBurst
  { f with
    pages := f.pages.map fun p => if p.claim = claim ∧ p.outcome = .inBurst then ⟨p.page, .unread, 0, []⟩ else p
    nextRead := named.foldl (fun n p => min n p.page) f.nextRead }

/-- Pages named to a claim leave the page list, and next to read moves back to the lowest of them, in its set. -/
def Order.unname (o : Order) (claim : Nat) : Order :=
  let named := o.pages.filter fun p => p.claim == claim && p.outcome == .inBurst
  match named with
  | [] => o
  | p :: ps =>
    { o with
      pages := o.pages.filter fun q => !(q.claim == claim && q.outcome == .inBurst)
      readSet := p.set
      readPage := ps.foldl (fun n q => min n q.page) p.page }

/-- Withdraws an item's waiting claim, or frees a granted one whose burst has not begun, and unnames its pages. -/
def withdrawClaims (s : State) (item : Nat) : State :=
  (s.claims.filter fun c => c.owner == .item item && !c.begun).foldl
    (fun s c =>
      let s := dropClaim s c.id
      { s with fetches := s.fetches.map fun f => f.unname c.id, orders := s.orders.map fun o => o.unname c.id }) s

/-! ### Items -/

/-- A drive whose item ends looks for work on its face (R83). -/
def freeDrive (s : State) (d : Option Nat) : State :=
  match d with
  | some d => s.modDrive d fun x => { x with chainAsk := true }
  | none => s

/-- Takes an item off the Work List and off its drive. -/
def removeItem (s : State) (id : Nat) : State :=
  match s.findItem id with
  | some i => freeDrive { s with work := s.work.filter fun x => x.id != id } i.drive
  | none => s

/-- An item is ended by its owning unit and removed according to its state (R75). -/
def endItem (s : State) (id : Nat) : State :=
  match s.findItem id with
  | some i =>
    if i.state = .active then s.modItem id fun x => { x with ended := true }
    else removeItem (dropItemTransfers (withdrawClaims s id) id) id
  | none => s

def endItemOpt (s : State) (id : Option Nat) : State :=
  match id with
  | some id => endItem s id
  | none => s

/-- An item returns to waiting at the head of its class (R73, R92). -/
def returnItem (s : State) (id : Nat) : State :=
  match s.findItem id with
  | some i =>
    let s := dropItemTransfers (withdrawClaims s id) id
    let back := { i with state := .waiting, drive := none }
    { s with work := back :: s.work.filter fun x => x.id != id }
  | none => s

/-- A yield (R89): the item's yield count rises and it returns to waiting. -/
def yieldItem (s : State) (id : Nat) : State :=
  returnItem (s.modItem id fun i => { i with yields := i.yields + 1 }) id

/-- An item parks and gives up its drive (R91). DESIGN CHOICE (log 66): a claim granted to it whose burst has not begun is given up
too, and its pages are named anew. -/
def parkItem (s : State) (id : Nat) : State :=
  match s.findItem id with
  | some _ =>
    let s := withdrawClaims s id
    s.modItem id fun x => { x with state := .parked, drive := none }
  | none => s

/-- A new item joins the tail of its class (R70, R73). -/
def createItem (s : State) (tag : Option Word16) (station : Option Nat) (cls : WorkClass) (kind : ItemKind)
    (side doc : Option Nat) (filing : Option Word32) (order mail : Option Nat) (state : ItemState)
    (drive : Option Nat) : Nat × State :=
  let (id, s) := freshId s
  (id, { s with work := s.work ++
    [⟨id, tag, station, cls, kind, side, doc, filing, order, mail, 0, s.params.yieldLimit, state, drive, false, none⟩] })

/-- FILE item of a filing that goes QUEUED, or a held request while the list is full (R71, R113). -/
def createFileItem (s : State) (ref : Word32) : State :=
  match s.findFiling ref with
  | some f =>
    if s.work.length < Config.workCapacity ∧ s.heldReqs = [] then
      let (id, s) := createItem s (some f.tag) (some f.station) .file .file none none (some ref) none none .waiting none
      s.modFiling ref fun x => { x with item := some id }
    else { s with heldReqs := s.heldReqs ++ [.file ref] }
  | none => s

/-- INSPECT item for a mail slot's cartridge (R40), or for one in, or on its way to, a drive: ASSIGNED to it where the drive is
in service, else WAITING while its cartridge is there (R61, R92; log 15). -/
def createInspectItem (s : State) (mail : Nat) (drive : Option Nat) : State :=
  if s.work.length < Config.workCapacity ∧ s.heldReqs = [] then
    match drive with
    | none => (createItem s none none .media .inspect none none none none (some mail) .waiting none).2
    | some d =>
      if (s.drive d).service = .inService then
        (createItem s none none .media .inspect none none none none (some mail) .assigned (some d)).2
      else
        let (id, s) := createItem s none none .media .inspect none none none none (some mail) .waiting none
        s.modItem id fun i => { i with inDrive := some d }
  else { s with heldReqs := s.heldReqs ++ [.inspect mail drive] }

/-- The INSPECT item of the cartridge that drive `d` holds. -/
def inspectItemOn (s : State) (d : Nat) : Option Nat :=
  (s.work.find? fun i => i.kind == .inspect && (i.drive == some d || i.inDrive == some d)).map Item.id

/-! ### Notices of sides (R18, R20, R98) -/

def mediaErrorLabel (s : State) (side : Nat) : State := notify s .mediaError none (be 2 side ++ be 4 0)
def mediaErrorDoc (s : State) (side doc : Nat) (about : Option (Word16 × Nat)) : State :=
  notify s .mediaError about (be 2 side ++ be 4 doc)
def mediaErrorPage (s : State) (side doc page addr : Nat) (about : Option (Word16 × Nat)) : State :=
  notify s .mediaError about (be 2 side ++ be 4 doc ++ be 1 page ++ be 4 addr)

/-- The update of a close of the OPEN side, without its notice (R18). -/
def closeSideUpdate (s : State) (n : Nat) (why : CloseReason) : State :=
  if (s.side n).state = .opened then
    s.setSide n { s.side n with state := .closed, closeReason := some why, closedPending := true }
  else s

def sideClosedNotice (s : State) (n : Nat) : State :=
  let e := s.side n
  notify s .sideClosed none
    (be 2 n ++ be 1 ((e.closeReason.map CloseReason.code).getD 0) ++ optNum 4 e.first ++ optNum 4 e.last ++ be 2 e.count
      ++ be 4 (freeData e))

/-- A close of the OPEN side: one Retained Store update, then SIDE_CLOSED (R18). -/
def closeSideAs (s : State) (n : Nat) (why : CloseReason) : State := sideClosedNotice (closeSideUpdate s n why) n

end Sys2Proof.Machine
end

