-- ==== Sys2Proof/Machine/Fetching.lean ====
section
/-! DEFINITION. The fetch unit (chapter 5): naming pages, taking burst outcomes, re-masking, PAGE frames, FETCH_DONE. -/

namespace Sys2Proof.Machine

/-! ### Naming the pages of a burst (R99) -/

/-- Result of the walk over the page list: the pages after it, the pages named, and the page it stopped at. -/
structure Walk where
  pages : List FetchPage
  named : List Nat
  stop : Option Nat
  deriving DecidableEq, Repr

/-- The walk from next to read: it stops once BURST_PAGES pages are named, or at a page that would bring the blocks above
2,048; until then withheld pages of a PUBLIC record become WITHHELD, others are named, and those that have an outcome already
are passed (R99). -/
def nameWalk (copy : DocCopy) (masked : Nat → Bool) (limit nextRead : Nat) :
    List FetchPage → (count blocks : Nat) → Walk
  | [], _, _ => ⟨[], [], none⟩
  | p :: ps, count, blocks =>
    let len := (pageOffsets copy p.page).length
    if p.page < nextRead then
      let w := nameWalk copy masked limit nextRead ps count blocks
      { w with pages := p :: w.pages }
    else if limit ≤ count then ⟨p :: ps, [], some p.page⟩
    else if p.outcome ≠ .unread then
      let w := nameWalk copy masked limit nextRead ps count blocks
      { w with pages := p :: w.pages }
    else if masked p.page then
      let w := nameWalk copy masked limit nextRead ps count blocks
      { w with pages := { p with outcome := .withheld } :: w.pages }
    else if Config.burstBlockLimit < blocks + len then ⟨p :: ps, [], some p.page⟩
    else
      let w := nameWalk copy masked limit nextRead ps (count + 1) (blocks + len)
      { w with pages := { p with outcome := .inBurst } :: w.pages, named := p.page :: w.named }

/-- The record's item has ended: what is left is delivery (R95). -/
def Fetch.toDelivering (f : Fetch) : Fetch := { f with state := .delivering, item := none }

/-- The document is looked up in the drive's Directory Copy at the first burst (R98). -/
def fetchLookup (s : State) (f : Fetch) (d : Nat) : State × Option Fetch :=
  match f.copy with
  | some _ => (s, some f)
  | none =>
    match (s.drive d).dir.find? fun r => r.number == f.doc with
    | none =>
      let s := s.modFetch f.seq fun x => { x.toDelivering with outcome := .notFound, pages := [] }
      (mediaErrorDoc s f.side f.doc (some (f.tag, f.station)), none)
    | some r =>
      let clipped := min f.last r.pageCount
      let f' := { f with
        copy := some r.toCopy
        clipped := some clipped
        pages := f.pages.filter fun p => decide (p.page ≤ clipped)
        state := .reading }
      (s.modFetch f.seq fun _ => f', some f')

/-- The Work Scheduler asks a FETCH item's next burst on drive `d` (R98, R99). -/
def askFetch (s : State) (item : Item) (d : Nat) : State :=
  match s.fetches.find? fun f => f.item == some item.id with
  | none => endItem s item.id
  | some f =>
    match fetchLookup s f d with
    | (s, none) => endItem s item.id
    | (s, some f) =>
      match f.copy with
      | none => s
      | some copy =>
        let masked : Nat → Bool := fun p => !f.full && (withheldSet s f.doc).contains p
        let w := nameWalk copy masked s.params.burstPages f.nextRead f.pages 0 0
        let next := w.stop.getD ((f.clipped.getD f.last) + 1)
        if w.named = [] then
          endItem (s.modFetch f.seq fun x => { x.toDelivering with pages := w.pages, nextRead := next }) item.id
        else
          let plan := w.named.flatMap fun p => (pageAddrs copy p).map fun a => (p, a)
          let (id, s) := askClaim s item.id plan 0
          let pages := w.pages.map fun p =>
            if w.named.contains p.page ∧ p.outcome = .inBurst ∧ p.claim = 0 then { p with claim := id } else p
          let s := s.modFetch f.seq fun x => { x with pages := pages, nextRead := next }
          s.modItem item.id fun i => { i with state := .waitingStaging }

/-! ### Burst outcomes (R100, R104) -/

/-- The outcome of one named page at a burst's end; the blocks of a page not delivered with data are freed. -/
def settleFetchPage (s : State) (f : Fetch) (c : Claim) (bad : List (Nat × Nat)) (page : Nat) : State :=
  let blocks := c.pageBlocks page
  match f.pages.find? fun p => p.page == page && p.claim == c.id && p.outcome == .inBurst with
  | none => freeOf s c.id blocks
  | some _ =>
    let put : PageOutcome → List Nat → State → State := fun o bs s =>
      s.modFetch f.seq fun x =>
        { x with pages := x.pages.map fun p => if p.page = page then ⟨page, o, c.id, bs⟩ else p }
    match bad.find? fun e => e.1 == page with
    | none => put .staged blocks s
    | some e => mediaErrorPage (put .unreadable [] (freeOf s c.id blocks)) f.side f.doc page e.2 (some (f.tag, f.station))

/-- A fetch's read burst has ended; whether there is more to do on the same side (R100). -/
def fetchBurstEnd (s : State) (item : Nat) (b : ReadBurst) : State × Bool :=
  match s.fetches.find? (fun f => f.item == some item), s.findClaim b.claim with
  | some f, some c =>
    let s := c.pageList.foldl (fun s p => settleFetchPage s f c b.bad p) s
    let more := decide (f.nextRead ≤ f.clipped.getD f.last) && f.pages.any fun p => decide (f.nextRead ≤ p.page)
    if more then (s, true) else (s.modFetch f.seq Fetch.toDelivering, false)
  | _, _ => (dropClaim s b.claim, false)

/-- Pages wholly read before a drive fault become STAGED, the others UNREAD again (R104). -/
def fetchBurstFault (s : State) (item : Nat) (b : ReadBurst) : State :=
  match s.fetches.find? (fun f => f.item == some item), s.findClaim b.claim with
  | some f, some c =>
    let unfinished := (b.run ++ b.rest).map ReadCell.page ++ b.bad.map Prod.fst
    let read := c.pageList.filter fun p => !unfinished.contains p
    let s := read.foldl (fun s p => settleFetchPage s f c [] p) s
    let s := (c.pageList.filter fun p => unfinished.contains p).foldl (fun s p => freeOf s c.id (c.pageBlocks p)) s
    s.modFetch f.seq fun x => x.unname c.id
  | _, _ => dropClaim s b.claim

/-- A page not read yet (R105). -/
def FetchPage.unsettled (p : FetchPage) : Bool := p.outcome == .unread || p.outcome == .inBurst

/-- A fetch ends UNAVAILABLE: staged pages are kept and sent, pages UNREAD or IN_BURST leave the list (R105); the lowest of
them is the first page not delivered (R106, log 49). -/
def fetchUnavailable (s : State) (seq : Nat) : State :=
  match s.findFetch seq with
  | none => s
  | some f =>
    let s := endItemOpt s f.item
    s.modFetch seq fun x =>
      { x.toDelivering with
        outcome := .unavailable
        lost := (x.pages.find? FetchPage.unsettled).map FetchPage.page
        pages := x.pages.filter fun p => !p.unsettled }

/-! ### Re-masking at a rectification's commit (R103) -/

/-- What a newly withheld page of a fetch becomes; its staged blocks are freed. -/
def remaskFetchPage (s : State) (f : Fetch) (p : FetchPage) : State :=
  let withhold : State → State := fun s =>
    s.modFetch f.seq fun x =>
      { x with pages := x.pages.map fun q => if q.page = p.page then ⟨p.page, .withheld, 0, []⟩ else q }
  if p.page < f.sendPage then s
  else
    match p.outcome with
    | .staged => withhold (freeOf s p.claim p.blocks)
    | .unread => withhold s
    | .inBurst => withhold s
    | .withheld | .unreadable => s

/-- A PUBLIC record whose burst waits for its claim names its burst afresh (R103). DESIGN CHOICE (log 67): so does one whose claim
has been granted and whose burst has not begun; the granted claim is freed whole. -/
def renameWaitingFetch (s : State) (f : Fetch) (newly : List Nat) : State :=
  match f.item with
  | none => s
  | some id =>
    if s.claims.any fun c => c.owner == .item id && !c.begun && c.pageList.any fun p => newly.contains p then
      (withdrawClaims s id).modItem id fun i =>
        if i.state = .waitingStaging then { i with state := .assigned } else i
    else s

/-- A PUBLIC record of the target in READING or DELIVERING (R103). -/
def Fetch.remasked (f : Fetch) (target : Nat) : Bool := f.doc == target && !f.full && f.state != .waitingFace

/-- The newly withheld pages of one record (R103). -/
def remaskFetch (s : State) (newly : List Nat) (seq : Nat) : State :=
  match s.findFetch seq with
  | some f => (f.pages.filter fun p => newly.contains p.page).foldl (fun s p => remaskFetchPage s f p) s
  | none => s

/-- Re-masks every PUBLIC fetch of the target (R103). -/
def remaskFetches (s : State) (target : Nat) (newly : List Nat) : State :=
  let fs := s.fetches.filter fun f => f.remasked target
  let s := fs.foldl (fun s f => renameWaitingFetch s f newly) s
  fs.foldl (fun s f => remaskFetch s newly f.seq) s

/-! ### Delivering (R101, R102, R106) -/

/-- The page at next to send: the first page of the list not yet wholly sent. -/
def Fetch.pageToSend (f : Fetch) : Option FetchPage := f.pages.find? fun p => decide (f.sendPage ≤ p.page)

/-- The frame a record has ready (R101). -/
def readyFrame (s : State) (f : Fetch) : Option PageFrame :=
  match f.pageToSend with
  | none => none
  | some p =>
    let marker : PageMarker → PageFrame := fun m => ⟨f.seq, f.tag, f.station, p.page, 1, 1, m, [], 0, none⟩
    match p.outcome with
    | .withheld => some (marker .withheld)
    | .unreadable => some (marker .unreadable)
    | .staged =>
      let chunk := if p.page = f.sendPage then f.sendChunk else 1
      let b := tget p.blocks chunk 0
      some ⟨f.seq, f.tag, f.station, p.page, chunk, p.blocks.length, .data, readBlock s b, p.claim, some b⟩
    | .unread | .inBurst => none

/-- The next PAGE frame of the round: the first ready record after the one served last, else the oldest (R102). -/
def nextPageFrame (s : State) : Option PageFrame :=
  let after := (s.fetches.filter fun f => decide (s.fetchTurn < f.seq)).filterMap (readyFrame s)
  match after with
  | p :: _ => some p
  | [] => (s.fetches.filterMap (readyFrame s)).head?

/-- A PAGE frame's last byte has left: delivery advances and its block is freed (R101). -/
def pageFrameDone (s : State) (p : PageFrame) : State :=
  match s.findFetch p.fetch with
  | none => s
  | some f =>
    match f.pages.find? fun q => q.page == p.page with
    | none => s
    | some q =>
      let next : Fetch → Fetch := fun x => { x with sendPage := p.page + 1, sendChunk := 1 }
      match p.marker, q.outcome with
      | .data, .staged =>
        let s := match p.block with
          | some b => freeOf s p.claim [b]
          | none => s
        if p.chunk < p.chunks then s.modFetch f.seq fun x => { x with sendPage := p.page, sendChunk := p.chunk + 1 }
        else s.modFetch f.seq fun x => { next x with delivered := x.delivered + 1 }
      | .withheld, .withheld => s.modFetch f.seq fun x => { next x with withheld := x.withheld + 1 }
      | .unreadable, .unreadable => s.modFetch f.seq fun x => { next x with unreadable := x.unreadable + 1 }
      | _, _ => s

/-- FETCH_DONE's fields (R106, R200). -/
def fetchDoneFields (f : Fetch) : List Byte :=
  let undelivered := match f.outcome with
    | .unavailable => f.lost.getD 0
    | _ => 0
  be 4 f.doc ++ be 2 f.side ++ be 1 f.first ++ be 1 f.last ++ optNum 1 f.clipped ++ be 1 f.delivered ++ be 1 f.withheld
    ++ be 1 f.unreadable ++ be 1 f.outcome.code ++ be 1 undelivered

/-- A record in DELIVERING with no frame left queues FETCH_DONE and leaves the table (R106). -/
def fetchDoneRule (s : State) : Option State :=
  (s.fetches.find? fun f => f.state == .delivering && f.pageToSend.isNone).map fun f =>
    notify { s with fetches := s.fetches.filter fun x => x.seq != f.seq } .fetchDone (some (f.tag, f.station))
      (fetchDoneFields f)

/-! ### CANCEL (R107) -/

/-- Frees the staged pages of a record that leaves. -/
def freeFetchPages (s : State) (f : Fetch) : State :=
  (f.pages.filter fun p => p.outcome == .staged).foldl (fun s p => freeOf s p.claim p.blocks) s

/-- A fetch record is cancelled in whatever state it is (R107). -/
def cancelFetch (s : State) (f : Fetch) : State :=
  let s := endItemOpt s f.item
  { freeFetchPages s f with fetches := s.fetches.filter fun x => x.seq != f.seq }

end Sys2Proof.Machine
end

