-- ==== Sys2Proof/Machine/Answers.lean ====
section
/-! DEFINITION. What an owning unit answers to a request (R191): the state after its own effect, the outcome, the reply's
fields, and the reply's place in the control order. -/

namespace Sys2Proof.Machine

/-- `place` is where the reply joins the control order: before every notice the request causes, but behind the
CONSENT_VOID notices of a superseding FILE_BEGIN (R191). -/
structure Answer where
  state : State
  outcome : ReplyOutcome
  fields : List Byte
  place : Nat
  deriving DecidableEq, Repr

/-- A refusal that changes no state. -/
def refuse (s : State) (code : RefCode) (fields : List Byte) : Answer := ⟨s, .refused code, fields, s.control.length⟩

/-- The whole effect was made before the reply: the request found `s0` and leaves `s`. -/
def done (s0 s : State) (fields : List Byte) : Answer := ⟨s, .done, fields, s0.control.length⟩

/-- The request began work that ends later. -/
def accepted (s0 s : State) (fields : List Byte) : Answer := ⟨s, .accepted, fields, s0.control.length⟩

/-- A refusal after a change of state that the rule makes all the same. -/
def refuseAfter (s0 s : State) (code : RefCode) (fields : List Byte) : Answer :=
  ⟨s, .refused code, fields, s0.control.length⟩

/-- A work request in REST returns the controller to RUN before its checks (R185). -/
def wakeFromRest (s : State) : State := if s.mode = .rest then { s with mode := .run } else s

end Sys2Proof.Machine
end

