-- ==== Sys2Proof/Machine/Fees.lean ====
section
/-! DEFINITION. The Fee Unit (chapter 9): the fee schedule, charges and counts, the account requests, the day requests and
their reports. -/

namespace Sys2Proof.Machine

/-! ### Charges and counts (R169, R170) -/

/-- What a charge is for: one PLAIN page, or one certified set with its page count. -/
inductive Charged
  | page
  | set (pages : Nat)
  deriving DecidableEq, Repr

/-- The payer's figures after a charge: the account's, or for CASH (payer 0) the station's tally. -/
def Retained.pay (r : Retained) (payer station amount : Nat) : Retained :=
  match payer with
  | 0 => { r with cash := tset r.cash station (tget r.cash station 0 + amount) }
  | a + 1 =>
    let k := tget r.accounts (a + 1) Account.initial
    { r with
      accounts := tset r.accounts (a + 1) { k with balance := k.balance - amount, charged := k.charged + amount } }

/-- The day counts after a charge (R170). -/
def DayCounts.charge (c : DayCounts) (amount : Nat) (what : Charged) : DayCounts :=
  match what with
  | .page => { c with total := c.total + amount, plainPages := c.plainPages + 1 }
  | .set n => { c with total := c.total + amount, certPages := c.certPages + n, certSets := c.certSets + 1 }

/-- A charge, in one Retained Store update (R169); the order's hold falls in the Copy Unit. -/
def charge (s : State) (payer station amount : Nat) (what : Charged) : State :=
  s.retain fun r => let r := r.pay payer station amount
    { r with counts := r.counts.charge amount what }

def countVoided (s : State) : State :=
  s.retain fun r => { r with counts := { r.counts with voidedSets := r.counts.voidedSets + 1 } }
def countSpoiled (s : State) : State :=
  s.retain fun r => { r with counts := { r.counts with spoiled := r.counts.spoiled + 1 } }

/-! ### The fee schedule (R164, R165) -/

def feeFields (f : Fees) : List Byte := be 4 f.plain ++ be 4 f.cert ++ be 4 f.certFee

def feeSetOp (s : State) (body : List Byte) : Answer :=
  let f : Fees := ⟨numAt body 0 4, numAt body 4 4, numAt body 8 4⟩
  if f.plain ≤ 50000 ∧ f.cert ≤ 50000 ∧ f.certFee ≤ 50000 then
    done s (s.retain fun r => { r with fees := f }) (feeFields f)
  else refuse s .badField []

def feeQueryOp (s : State) : Answer := done s s (feeFields s.ret.fees)

/-! ### Account requests (R171 to R173, R176) -/

/-- The figures every account reply carries (R171). -/
def accountFields (s : State) (a : Nat) : List Byte :=
  let k := s.account a
  be 1 k.state.code ++ balanceBytes k.balance ++ be 4 k.limit ++ be 4 (holdsOf s a) ++ balanceBytes (availableFunds s a)
    ++ be 6 k.charged ++ be 1 (openOrders s a)

def accountOk (a : Nat) : Bool := decide (1 ≤ a ∧ a ≤ Config.accountCount)
def limitOk (l : Nat) : Bool := decide (l ≤ 9999999)
def amountOk (m : Nat) : Bool := decide (1 ≤ m ∧ m ≤ 99999999)

/-- A refusal carries the account's figures as they stood, and after them what its own rule adds (R171). -/
def refuseAccount (s : State) (a : Nat) (code : RefCode) (more : List Byte) : Answer :=
  refuse s code (accountFields s a ++ more)

/-- An accepted account request sets the record in one update and carries the figures after it (R171). -/
def setAccountDone (s : State) (a : Nat) (k : Account) : Answer :=
  let s' := s.setAccount a k
  done s s' (accountFields s' a)

def accountOpenOp (s : State) (body : List Byte) : Answer :=
  let a := numAt body 0 1
  let l := numAt body 1 4
  let k := s.account a
  if !accountOk a then refuse s .badField []
  else if !limitOk l then refuseAccount s a .badField []
  else if k.state ≠ .inactive then refuseAccount s a .accountState []
  else setAccountDone s a { k with state := .active, limit := l }

def accountSuspendOp (s : State) (body : List Byte) : Answer :=
  let a := numAt body 0 1
  let k := s.account a
  if !accountOk a then refuse s .badField []
  else if k.state = .inactive then refuseAccount s a .accountState []
  else setAccountDone s a { k with state := .suspended }

def accountResumeOp (s : State) (body : List Byte) : Answer :=
  let a := numAt body 0 1
  let k := s.account a
  if !accountOk a then refuse s .badField []
  else if k.state = .inactive then refuseAccount s a .accountState []
  else setAccountDone s a { k with state := .active }

/-- ACCOUNT_CLOSE; its BUSY reply ends with the number of the condition that held (R171, log 11). -/
def accountCloseOp (s : State) (body : List Byte) : Answer :=
  let a := numAt body 0 1
  let k := s.account a
  if !accountOk a then refuse s .badField []
  else if k.state ≠ .active then refuseAccount s a .accountState []
  else if openOrders s a ≠ 0 ∨ holdsOf s a ≠ 0 then refuseAccount s a .busy (be 1 2)
  else if k.balance ≠ 0 then refuseAccount s a .busy (be 1 3)
  else setAccountDone s a { k with state := .inactive, limit := 0 }

/-- The lowest limit an account's balance and holds allow (R172). -/
def lowestLimit (s : State) (a : Nat) : Int :=
  max 0 (max (-(s.account a).balance) (holdsOf s a - (s.account a).balance))

def accountLimitOp (s : State) (body : List Byte) : Answer :=
  let a := numAt body 0 1
  let l := numAt body 1 4
  let k := s.account a
  if !accountOk a then refuse s .badField []
  else if !limitOk l then refuseAccount s a .badField []
  else if k.state = .inactive then refuseAccount s a .accountState []
  else if k.balance < -(l : Int) ∨ k.balance + l < holdsOf s a then
    refuseAccount s a .funds (balanceBytes (lowestLimit s a))
  else setAccountDone s a { k with limit := l }

def accountDepositOp (s : State) (body : List Byte) : Answer :=
  let a := numAt body 0 1
  let m := numAt body 1 4
  let k := s.account a
  if !accountOk a then refuse s .badField []
  else if !amountOk m then refuseAccount s a .badField []
  else if k.state = .inactive then refuseAccount s a .accountState []
  else if 99999999 < k.balance + m then refuseAccount s a .badField (balanceBytes (99999999 - k.balance))
  else setAccountDone s a { k with balance := k.balance + m }

def accountWithdrawOp (s : State) (body : List Byte) : Answer :=
  let a := numAt body 0 1
  let m := numAt body 1 4
  let k := s.account a
  if !accountOk a then refuse s .badField []
  else if !amountOk m then refuseAccount s a .badField []
  else if k.state = .inactive then refuseAccount s a .accountState []
  else if k.balance - holdsOf s a < m then
    refuseAccount s a .funds (balanceBytes (max 0 (k.balance - holdsOf s a)))
  else setAccountDone s a { k with balance := k.balance - m }

/-- One record of ACCOUNT_QUERY: every field of R166 in its order, then the available funds (R176). -/
def accountRecord (s : State) (a : Nat) : List Byte :=
  let k := s.account a
  be 1 a ++ be 1 k.state.code ++ balanceBytes k.balance ++ be 4 k.limit ++ be 4 (holdsOf s a) ++ be 6 k.charged
    ++ be 1 (openOrders s a) ++ balanceBytes (availableFunds s a)

def accountQueryOp (s : State) (body : List Byte) : Answer :=
  let first := numAt body 0 1
  let count := numAt body 1 1
  if 1 ≤ first ∧ first ≤ Config.accountCount ∧ 1 ≤ count ∧ count ≤ 16 ∧ first + count ≤ Config.accountCount + 1 then
    done s s ((List.range count).flatMap fun i => accountRecord s (first + i))
  else refuse s .badField []

/-! ### The day (R174 to R176) -/

/-- The day's report as it stands (R175). -/
def dayReport (s : State) : DayReport :=
  let charged := s.ret.accounts.map Account.charged
  ⟨s.ret.openedDay, s.clock, s.ret.counts, charged.sum, s.ret.cash.sum, s.ret.cash, charged⟩

def reportFields (r : DayReport) : List Byte :=
  optNum 2 r.openedDay ++ optNum 2 (r.closed.map Clock.day) ++ optField 4 (r.closed.map Clock.second)
    ++ be 6 r.counts.total ++ be 6 r.accountTotal ++ be 6 r.cashTotal ++ r.cash.flatMap (be 6 ·)
    ++ r.charged.flatMap (be 6 ·) ++ be 6 r.counts.plainPages ++ be 6 r.counts.certPages ++ be 6 r.counts.certSets
    ++ be 6 r.counts.voidedSets ++ be 6 r.counts.spoiled

/-- The bytes of a day's report, sent as 0 while there is none (R200). -/
def reportLength : Nat := 633

def dayOpenOp (s : State) : Answer :=
  if s.mode = .night then refuse s .night []
  else if s.ret.dayOpen then refuse s .busy (optNum 2 s.ret.openedDay)
  else done s (s.retain fun r => { r with dayOpen := true, openedDay := s.clock.map Clock.day }) []

/-- The update of an accepted DAY_CLOSE (R175). -/
def closeDay (s : State) : State :=
  s.retain fun r =>
    { r with
      accounts := r.accounts.map fun k => { k with charged := 0 }
      cash := r.cash.map fun _ => 0
      counts := DayCounts.zero
      lastClose := some (dayReport s)
      dayOpen := false
      openedDay := none }

def dayCloseOp (s : State) : Answer :=
  if !s.ret.dayOpen then refuse s .noDay []
  else if s.orders ≠ [] then
    refuse s .busy (be 1 s.orders.length ++ be 1 (if s.port.holder.isSome then 1 else 0))
  else done s (closeDay s) (reportFields (dayReport s))

def tallyReport (s : State) : List Byte :=
  flag s.ret.dayOpen ++ optNum 2 s.ret.openedDay ++ reportFields (dayReport s)
    ++ be 4 (s.orders.map Order.hold).sum
    ++ (match s.ret.lastClose with
        | some r => flag true ++ reportFields r
        | none => flag false ++ List.replicate reportLength 0)

def tallyQueryOp (s : State) : Answer := done s s (tallyReport s)

end Sys2Proof.Machine
end

