-- ==== Sys2Proof/Machine/Copying.lean ====
section
/-! DEFINITION. The Copy Unit (chapter 8, and R139 to R141): the order's figures, its end, reading for the printer, and the
re-masking of copy orders. The printer exchange is in Printing. -/

namespace Sys2Proof.Machine

/-! ### Figures of an order -/

/-- The hold formula of R148 for a number of pages and sets. -/
def holdFor (sets pages rate certFee : Nat) : Nat := sets * (pages * rate + certFee)

/-- Sets an order's hold; a CASH order has none (R145). -/
def Order.withHold (o : Order) (h : Nat) : Order := { o with hold := if o.payer = 0 then 0 else h }

/-- The order holds the Print Port. -/
def holdsPort (s : State) (n : Nat) : Bool := s.port.holder == some n

/-- The page in hand of an order. -/
def inHandOf (s : State) (n : Nat) : Option PageInHand :=
  match s.port.inHand with
  | some h => if h.order = n then some h else none
  | none => none

def stampInHand (s : State) (n : Nat) : Bool :=
  match inHandOf s n with
  | some h => h.kind == .stamp
  | none => false

/-- The set being printed, its STAMP page sent and not yet settled (R141); a STAMP page owed its second attempt counts. -/
def stampSent (s : State) (o : Order) : Bool := stampInHand s o.number || o.stampRetry

/-- A certified set in progress (R157): its first PAGE_START sent, its STAMP page not settled, and not voided. -/
def Order.inProgress (o : Order) : Bool := o.cert && o.setStarted && !o.voidOwed

/-- Pages of the current set not yet sent. -/
def Order.unsent (o : Order) : List Nat := if o.setStarted then o.toSend else o.selection

/-- Sets not yet begun. -/
def Order.setsLeft (o : Order) : Nat := if o.setStarted then o.sets - o.curSet else o.sets + 1 - o.curSet

/-- Bursts staged ahead of the printer: granted claims of the order's item that still hold blocks (R91). -/
def stagedBursts (s : State) (item : Nat) : Nat :=
  (s.claims.filter fun c => c.owner == .item item && c.begun && !c.live.isEmpty).length

/-! ### Staged pages -/

/-- Drops from an order's page list the pages that `p` picks; staged ones free their blocks, those in a running burst free
theirs at its end (R140). -/
def dropCopyPages (s : State) (n : Nat) (p : CopyPage → Bool) : State :=
  match s.findOrder n with
  | none => s
  | some o =>
    let s := (o.pages.filter fun q => p q && q.outcome == .staged).foldl (fun s q => freeOf s q.claim q.blocks) s
    s.modOrder n fun x => { x with pages := x.pages.filter fun q => !p q }

/-- Drops one page of one set: the page has been settled (R154). -/
def dropCopyPage (s : State) (n set page : Nat) : State :=
  dropCopyPages s n fun q => q.set == set && q.page == page

/-! ### Waiting claims that lose pages (R140) -/

/-- A claim of the order's item that waits, or is granted and not begun, and that `p` picks is withdrawn; its burst is
named afresh. -/
def renameWaitingCopy (s : State) (o : Order) (p : Claim → Bool) : State :=
  match o.item with
  | none => s
  | some id =>
    if s.claims.any fun c => c.owner == .item id && !c.begun && p c then
      (withdrawClaims s id).modItem id fun i =>
        if i.state = .waitingStaging then { i with state := .assigned } else i
    else s

/-! ### Voiding a set (R141, R157) -/

/-- A set in progress is voided: its pending charge is discarded, the order and the day count it, its unsent pages are
dropped (but for a page in hand, whose blocks its answer frees), and the reading goes on with the next set. -/
def voidSet (s : State) (n : Nat) : State :=
  match s.findOrder n with
  | none => s
  | some o =>
    if o.inProgress then
      let s := renameWaitingCopy s o fun c => c.set == o.curSet
      let kept : Nat → Bool := fun p => (inHandOf s n).any fun h => h.kind == .data && h.page == p
      let s := dropCopyPages s n fun q => q.set == o.curSet && !kept q.page
      countVoided (s.modOrder n fun x =>
        { x with
          pendingCharge := 0, toSend := [], retry := none, stampRetry := false, voidOwed := true
          setsVoided := x.setsVoided + 1
          readSet := if x.readSet = x.curSet then x.curSet + 1 else x.readSet
          readPage := if x.readSet = x.curSet then 0 else x.readPage })
    else s

/-! ### The end of an order (R160) -/

/-- How an order ends and what reports it. -/
inductive OrderEnd
  | done | cancelledSilent | cancelled | printer | media | unavailable
  deriving DecidableEq, Repr

def Closing.toEnd : Closing → OrderEnd | .cancelled => .cancelled | .media => .media | .unavailable => .unavailable

def orderCounts (o : Order) : List Byte :=
  be 2 o.charged ++ be 2 o.spoiled ++ be 1 o.setsDone ++ be 1 o.setsVoided ++ be 4 o.amount

def kindCode (cert : Bool) : Nat := if cert then 2 else 1

/-- The set and page at which printing stopped: those of the page in hand, else the next of the current set; page 0 for
STAMP, VOID and none (R160, log 11). -/
def stopPoint (s : State) (o : Order) : Nat × Nat :=
  match inHandOf s o.number with
  | some h => (h.set, h.page)
  | none => (o.curSet, (o.retry.orElse fun _ => o.unsent.head?).getD 0)

def orderNotice (s : State) (o : Order) (kind : NoticeKind) (code : Nat) (more : List Byte) : State :=
  notify s kind (some (o.tag, o.station))
    (be 1 o.number ++ be 4 o.doc ++ be 1 (kindCode o.cert) ++ be 1 o.sets ++ be 1 o.payer ++ be 1 code ++ orderCounts o
      ++ more)

def reportOrder (s : State) (o : Order) (stop : Nat × Nat) (why : OrderEnd) : State :=
  match why with
  | .cancelledSilent => s
  | .done => orderNotice s o .copyDone 1 []
  | .cancelled => orderNotice s o .copyDone 2 []
  | .printer => orderNotice s o .copyFailed 1 (be 1 stop.1 ++ be 1 stop.2)
  | .media => orderNotice s o .copyFailed 2 (be 1 stop.1 ++ be 1 stop.2)
  | .unavailable => orderNotice s o .copyFailed 3 (be 1 stop.1 ++ be 1 stop.2)

/-- The order leaves the port with its page in hand and what was still to be sent of it (log 39). -/
def clearPort (s : State) (n : Nat) : State :=
  if holdsPort s n then s.modPort fun p => { p with holder := none, inHand := none, out := [] } else s

/-- An order ends (R160): a set in progress is voided, its item is ended, its staged pages are freed, its hold goes with it,
it leaves the table and the port, and its notice is sent. -/
def endOrder (s : State) (n : Nat) (why : OrderEnd) : State :=
  match s.findOrder n with
  | none => s
  | some o0 =>
    let stop := stopPoint s o0
    let s := voidSet s n
    let o := (s.findOrder n).getD o0
    let s := endItemOpt s o.item
    let s := dropCopyPages s n fun _ => true
    let s := clearPort s n
    reportOrder { s with orders := s.orders.filter fun x => x.number != n } o stop why

/-- The item of an order that awaits its page in hand reads nothing more: it is ended for UNAVAILABLE, parked otherwise
(R91, R162; log 18). -/
def haltItem (s : State) (o : Order) (why : Closing) : State :=
  match why, o.item with
  | .unavailable, some id => (endItem s id).modOrder o.number fun x => { x with item := none }
  | _, _ => s

/-- An order ends CANCELLED, MEDIA or UNAVAILABLE: at once, or after the page in hand (R160). -/
def closeOrder (s : State) (n : Nat) (why : Closing) (atOnce : OrderEnd) : State :=
  match s.findOrder n with
  | none => s
  | some o =>
    match o.closing, inHandOf s n with
    | some _, _ => haltItem s o why
    | none, none => endOrder s n atOnce
    | none, some _ =>
      let s := if stampInHand s n then s else voidSet s n
      haltItem (s.modOrder n fun x => { x with closing := some why }) o why

/-! ### Settled sets -/

/-- The order goes on with its next set. -/
def Order.nextSet (o : Order) : Order :=
  { o with curSet := o.curSet + 1, setStarted := false, setPages := [], toSend := [], pendingCharge := 0 }

/-- Every page of a PLAIN set has been settled. -/
def Order.plainSetOver (o : Order) : Bool := !o.cert && o.setStarted && o.toSend.isEmpty && o.retry.isNone

/-- Nothing is left to print (R160). -/
def Order.finished (o : Order) : Bool :=
  !o.voidOwed && !o.setStarted && (decide (o.sets < o.curSet) || o.selection.isEmpty)

/-- With no page in hand, a PLAIN set whose pages are settled passes to the next, and an order with nothing left ends
DONE. -/
def goOn (s : State) (n : Nat) : State :=
  match s.findOrder n, inHandOf s n with
  | some o, none =>
    let s := if o.plainSetOver then s.modOrder n Order.nextSet else s
    match s.findOrder n with
    | some o => if o.finished then endOrder s n .done else s
    | none => s
  | _, _ => s

/-! ### Reading for the printer (R150 to R152) -/

/-- Names pages of one set from a list, and the first page not reached (R151). -/
def nameCopy (copy : DocCopy) (limit : Nat) : List Nat → (count blocks : Nat) → List Nat × Option Nat
  | [], _, _ => ([], none)
  | p :: ps, count, blocks =>
    let len := (pageOffsets copy p).length
    if limit ≤ count ∨ Config.burstBlockLimit < blocks + len then ([], some p)
    else
      let r := nameCopy copy limit ps (count + 1) (blocks + len)
      (p :: r.1, r.2)

/-- The set and the pages from which the next burst is named; none when no set remains. -/
def Order.nextToRead (o : Order) : Option (Nat × List Nat) :=
  let here := o.selection.filter fun p => decide (o.readPage ≤ p)
  if o.sets < o.readSet then none
  else if here ≠ [] then some (o.readSet, here)
  else if o.readSet < o.sets ∧ o.selection ≠ [] then some (o.readSet + 1, o.selection)
  else none

/-- The set and page from which the next burst is named, a COPY item's progress (R70, R145); 0 and 0 when nothing remains to
be read (log 11). -/
def Order.readPoint (o : Order) : Nat × Nat :=
  match o.nextToRead with
  | some (set, p :: _) => (set, p)
  | _ => (0, 0)

/-- The selection is cut to the document's page count, once (R150). -/
def cutOrder (s : State) (o : Order) (r : DocRecord) : State :=
  s.modOrder o.number fun x =>
    let sel := x.selection.filter fun p => decide (p ≤ r.pageCount)
    { x with selection := sel, copy := some r.toCopy }.withHold (holdFor x.sets sel.length x.rate x.certFee)

/-- The item of an order has nothing more to read: it ends. -/
def endCopyItem (s : State) (item : Nat) : State :=
  let s := endItem s item
  { s with orders := s.orders.map fun o => if o.item = some item then { o with item := none } else o }

/-- An order whose COPY item is not to read now: SUSPENDED, closing, or two bursts staged (R91). -/
def copyParks (s : State) (o : Order) (item : Nat) : Bool :=
  o.state == .suspended || o.closing.isSome || decide (2 ≤ stagedBursts s item)

/-- Names the next burst of an order that has its document copy, and asks its claim (R151). -/
def nameCopyBurst (s : State) (o : Order) (copy : DocCopy) (item : Nat) : State :=
  match o.nextToRead with
  | none => endCopyItem s item
  | some (set, pages) =>
    let r := nameCopy copy s.params.burstPages pages 0 0
    let plan := r.1.flatMap fun p => (pageAddrs copy p).map fun a => (p, a)
    let (id, s) := askClaim s item plan set
    let s := s.modOrder o.number fun x =>
      { x with
        pages := x.pages ++ r.1.map fun p => ⟨set, p, .inBurst, id, []⟩
        readSet := match r.2 with | some _ => set | none => set + 1
        readPage := r.2.getD 0 }
    s.modItem item fun i => { i with state := .waitingStaging }

/-- The Work Scheduler asks a COPY item's next burst on drive `d` (R150, R151). -/
def askCopy (s : State) (item : Item) (d : Nat) : State :=
  match s.orders.find? fun o => o.item == some item.id with
  | none => endItem s item.id
  | some o =>
    if copyParks s o item.id then parkItem s item.id
    else
      match o.copy with
      | some copy => nameCopyBurst s o copy item.id
      | none =>
        match (s.drive d).dir.find? fun r => r.number == o.doc with
        | none => closeOrder (mediaErrorDoc s o.side o.doc (some (o.tag, o.station))) o.number .media .media
        | some r =>
          let s := cutOrder s o r
          match s.findOrder o.number with
          | none => s
          | some o => if o.selection = [] then endOrder s o.number .done else nameCopyBurst s o r.toCopy item.id

/-- The outcome of one page of a COPY burst: STAGED, UNREADABLE, or dropped already (R152). -/
def settleCopyPage (s : State) (n : Nat) (c : Claim) (bad : List Nat) (page : Nat) : State :=
  let blocks := c.pageBlocks page
  let named := (s.findOrder n).any fun o => o.pages.any fun q => q.claim == c.id && q.page == page && q.outcome == .inBurst
  let put : PageOutcome → List Nat → State → State := fun out bs s =>
    s.modOrder n fun x =>
      { x with pages := x.pages.map fun q =>
          if q.claim = c.id ∧ q.page = page then { q with outcome := out, blocks := bs } else q }
  if !named then freeOf s c.id blocks
  else if bad.contains page then put .unreadable [] (freeOf s c.id blocks)
  else put .staged blocks s

/-- A COPY item's read burst has ended; whether there is more to do on the same side (R152). -/
def copyBurstEnd (s : State) (item : Nat) (b : ReadBurst) : State × Bool :=
  match s.orders.find? (fun o => o.item == some item), s.findClaim b.claim with
  | some o, some c =>
    let badNamed := b.bad.filter fun e => o.pages.any fun q => q.claim == c.id && q.page == e.1
    let s := c.pageList.foldl (fun s p => settleCopyPage s o.number c (badNamed.map Prod.fst) p) s
    match badNamed with
    | e :: _ =>
      let s := mediaErrorPage s o.side o.doc e.1 e.2 (some (o.tag, o.station))
      (closeOrder s o.number .media .media, true)
    | [] => (s, ((s.findOrder o.number).bind Order.nextToRead).isSome)
  | _, _ => (dropClaim s b.claim, false)

/-- Pages wholly read before a drive fault become STAGED, the others leave the page list (R152). -/
def copyBurstFault (s : State) (item : Nat) (b : ReadBurst) : State :=
  match s.orders.find? (fun o => o.item == some item), s.findClaim b.claim with
  | some o, some c =>
    let unfinished := (b.run ++ b.rest).map ReadCell.page ++ b.bad.map Prod.fst
    let s := (c.pageList.filter fun p => !unfinished.contains p).foldl (fun s p => settleCopyPage s o.number c [] p) s
    let s := (c.pageList.filter fun p => unfinished.contains p).foldl (fun s p => freeOf s c.id (c.pageBlocks p)) s
    s.modOrder o.number fun x => x.unname c.id
  | _, _ => dropClaim s b.claim

/-! ### The Print Port's grant (R149) -/

def oldestQueued (s : State) : Option Order :=
  if s.port.holder.isSome ∨ s.port.printer = .fault then none
  else s.orders.find? fun o => o.state == .queued

/-- The port is granted; the order's COPY item leaves WAITING_PORT. -/
def grantPort (s : State) (o : Order) : State :=
  let ready := s.port.printer = .ready
  let s := s.modPort fun p => { p with holder := some o.number }
  let s := s.modOrder o.number fun x => { x with state := if ready then .active else .suspended }
  match o.item with
  | some id =>
    s.modItem id fun i =>
      if i.state = .waitingPort then { i with state := if ready then .waiting else .parked } else i
  | none => s

def portGrantRule (s : State) : Option State := (oldestQueued s).map (grantPort s)

/-! ### Parking and unparking COPY items (R91) -/

def itemOrder (s : State) (id : Nat) : Option Order := s.orders.find? fun o => o.item == some id

/-- A PARKED item whose order goes on returns to WAITING at the head of COPY. -/
def unparkRule (s : State) : Option State :=
  (s.work.find? fun i => i.state == .parked && (itemOrder s i.id).any fun o =>
      o.state == .active && !copyParks s o i.id).map fun i => returnItem s i.id

/-- An item of a SUSPENDED or closing order parks at once unless it is ACTIVE or its mount is under way. -/
def parkRule (s : State) : Option State :=
  (s.work.find? fun i => (i.state == .waiting || i.state == .waitingStaging) && i.kind == .copy &&
      (itemOrder s i.id).any fun o => o.state == .suspended || o.closing.isSome).map fun i => parkItem s i.id

/-! ### Re-masking at a rectification's commit (R139 to R141) -/

/-- An order that does not hold the port (R139). -/
def remaskQueued (s : State) (o : Order) (newly : List Nat) : State :=
  let sel := o.selection.filter fun p => !newly.contains p
  let s := s.modOrder o.number fun x =>
    { x with selection := sel }.withHold (holdFor x.sets sel.length x.rate x.certFee)
  if sel = [] then endOrder s o.number .done else s

/-- The hold of the port's holder after the commit (R140, R141). -/
def Order.holderHold (o : Order) (atPrinter stampOut : Bool) : Nat :=
  let later := holdFor o.setsLeft o.selection.length o.rate o.certFee
  if o.cert then later + (if stampOut && !o.voidOwed then o.pendingCharge + o.certFee else 0)
  else
    later + o.rate * ((if o.setStarted then o.toSend.length else 0) + (if o.retry.isSome then 1 else 0)
      + (if atPrinter then 1 else 0))

/-- Drops the newly withheld pages of the holder, in every set, but for the page in hand. -/
def dropNewly (s : State) (n : Nat) (newly : List Nat) : State :=
  let inHand : CopyPage → Bool := fun q => (inHandOf s n).any fun h => h.kind == .data && h.page == q.page && h.set == q.set
  dropCopyPages s n fun q => newly.contains q.page && !inHand q

/-- The order that holds the port (R140, R141). A CERTIFIED one whose selection loses no page is left as it is (R141, log
19). -/
def remaskHolder (s : State) (o : Order) (newly : List Nat) : State :=
  if o.cert && !o.selection.any fun p => newly.contains p then s
  else
    let n := o.number
    let voids := o.inProgress && !stampSent s o
    let s := renameWaitingCopy s o fun c => c.pageList.any fun p => newly.contains p
    let s := if voids then voidSet s n else s
    let s := dropNewly s n newly
    let s := s.modOrder n fun x =>
      { x with
        selection := x.selection.filter fun p => !newly.contains p
        toSend := x.toSend.filter fun p => !newly.contains p
        retry := if x.retry.any fun p => newly.contains p then none else x.retry }
    let s := s.modPort fun p =>
      { p with inHand := p.inHand.map fun h =>
          if h.order = n ∧ h.kind = .data ∧ (voids ∨ newly.contains h.page) then { h with noRetry := true } else h }
    let s := s.modOrder n fun x =>
      x.withHold (x.holderHold ((inHandOf s n).any fun h => h.kind == .data) (stampSent s x))
    goOn s n

/-- Re-masks every copy order of the target (R138). -/
def remaskOrders (s : State) (target : Nat) (newly : List Nat) : State :=
  (s.orders.filter fun o => o.doc == target).foldl
    (fun s o0 =>
      match s.findOrder o0.number with
      | some o => if holdsPort s o.number then remaskHolder s o newly else remaskQueued s o newly
      | none => s) s

end Sys2Proof.Machine
end

