-- ==== Sys2Proof/Machine/Printing.lean ====
section
/-! DEFINITION. The printer exchange (R153 to R159): sending a page, its answer, its limit, the printer's state. -/

namespace Sys2Proof.Machine

/-! ### Sending (R154, R157, R158) -/

/-- What the holder sends next. -/
structure ToSend where
  kind : PortPage
  page : Nat
  attempt : Nat
  blocks : List Nat
  deriving DecidableEq, Repr

/-- The staging blocks of a STAGED page of the current set. -/
def stagedPage (o : Order) (page : Nat) : Option (List Nat) :=
  (o.pages.find? fun q => q.set == o.curSet && q.page == page && q.outcome == .staged).map CopyPage.blocks

/-- A second attempt first; then a VOID page owed; then the next STAGED page of the set, or its STAMP page. -/
def Order.nextToSend (o : Order) : Option ToSend :=
  if o.voidOwed then some ⟨.void, 0, if o.voidRetry then 2 else 1, []⟩
  else if o.stampRetry then some ⟨.stamp, 0, 2, []⟩
  else
    match o.retry, o.unsent with
    | some p, _ => (stagedPage o p).map fun b => ⟨.data, p, 2, b⟩
    | none, p :: _ => (stagedPage o p).map fun b => ⟨.data, p, 1, b⟩
    | none, [] => if o.cert && o.setStarted then some ⟨.stamp, 0, 1, []⟩ else none

/-- The order after a sending: its set begins, and the page is no longer to be sent. -/
def Order.afterSending (o : Order) (t : ToSend) : Order :=
  let o := { o with retry := none, stampRetry := false, voidRetry := false }
  match t.kind, t.attempt with
  | .data, 1 => { o with setStarted := true, setPages := if o.setStarted then o.setPages else o.selection,
                         toSend := o.unsent.drop 1 }
  | _, _ => o

/-- PAGE_START's body (R201); STAMP and VOID pages are dated, a DATA page is not (R157, R158, R180; log 40). -/
def pageStart (s : State) (o : Order) (t : ToSend) : PortFrame :=
  let day := match t.kind with
    | .data => 0
    | .stamp | .void => (s.clock.map Clock.day).getD 0
  let list := match t.kind with
    | .stamp => o.setPages
    | .data | .void => []
  ⟨0x01, be 2 s.port.nextSeq.toNat ++ be 1 t.kind.code ++ be 1 o.number ++ be 4 o.doc ++ be 1 o.curSet ++ be 1 o.sets
    ++ be 1 t.page ++ be 2 t.blocks.length ++ be 2 day ++ be 1 list.length ++ list.flatMap (be 1 ·)⟩

/-- A page goes as PAGE_START, its data frames in block-offset order, PAGE_END (R154, R202). -/
def pageFrames (s : State) (o : Order) (t : ToSend) : List PortFrame :=
  pageStart s o t :: t.blocks.map (fun b => ⟨0x02, readBlock s b⟩) ++ [⟨0x03, []⟩]

/-- The page leaves for the printer and becomes the page in hand (R153). -/
def sendThePage (s : State) (o : Order) (t : ToSend) : State :=
  let frames := pageFrames s o t
  let s := s.modOrder o.number fun x => x.afterSending t
  s.modPort fun p =>
    { p with
      nextSeq := p.nextSeq + 1
      inHand := some ⟨p.nextSeq, t.kind, o.number, o.curSet, t.page, t.attempt, .stopped, false, false⟩
      out := frames }

/-- The holder, where it may send (R154). -/
def sendingOrder (s : State) : Option Order :=
  match s.port.holder, s.port.inHand with
  | some n, none =>
    match s.findOrder n with
    | some o => if o.state = .active ∧ o.closing = none then some o else none
    | none => none
  | _, _ => none

/-- SEND_PAGE's effect; nothing where no page may be sent. -/
def sendPageOp (s : State) : State :=
  match sendingOrder s with
  | none => s
  | some o =>
    match o.nextToSend with
    | none => s
    | some t => sendThePage s o t

/-- PAGE_END has left: the answer limit starts, or waits for READY (R154, R155). -/
def pageEndSentOp (s : State) : State :=
  s.modPort fun p =>
    { p with
      out := []
      inHand := p.inHand.map fun h =>
        if h.sent then h else { h with sent := true, limit := if p.printer = .ready then .running else .stopped } }

/-! ### Settling a page (R154 to R158, R160) -/

/-- The page in hand is settled: its blocks are freed, and the order ends if it was closing, or goes on. -/
def pageSettled (s : State) (h : PageInHand) : State :=
  let s := if h.kind = .data then dropCopyPage s h.order h.set h.page else s
  match s.findOrder h.order with
  | none => s.modPort fun p => { p with inHand := none, out := [] }
  | some o =>
    match o.closing with
    | some why => endOrder s h.order why.toEnd
    | none => goOn (s.modPort fun p => { p with inHand := none, out := [] }) h.order

/-- A charge handed to the Fee Unit lowers the hold by what it charges (R156). -/
def chargeOrder (s : State) (o : Order) (amount pages : Nat) (what : Charged) : State :=
  (charge s o.payer o.station amount what).modOrder o.number fun x =>
    { x with charged := x.charged + pages, amount := x.amount + amount }.withHold (x.hold - amount)

/-- An ACCEPTED page's own effect before it is settled (R156 to R158). -/
def acceptPage (s : State) (o : Order) (h : PageInHand) : State :=
  match h.kind with
  | .data =>
    if o.cert then
      if o.voidOwed then s else s.modOrder o.number fun x => { x with pendingCharge := x.pendingCharge + x.rate }
    else chargeOrder s o o.rate 1 .page
  | .stamp =>
    (chargeOrder s o (o.pendingCharge + o.certFee) o.setPages.length (.set o.setPages.length)).modOrder o.number fun x =>
      { x with setsDone := x.setsDone + 1 }.nextSet
  | .void => s.modOrder o.number fun x => { x with voidOwed := false, voidRetry := false }.nextSet

/-- A SPOILED answer (R154, R157, R158): a second attempt, or the page is settled. -/
def spoilPage (s : State) (o : Order) (h : PageInHand) : State :=
  let s := countSpoiled (s.modOrder o.number fun x => { x with spoiled := x.spoiled + 1 })
  if o.closing.isSome then pageSettled s h
  else if h.attempt ≠ 1 then endOrder s o.number .printer
  else if h.noRetry then pageSettled s h
  else
    let s := s.modPort fun p => { p with inHand := none, out := [] }
    s.modOrder o.number fun x =>
      match h.kind with
      | .data => { x with retry := some h.page }
      | .stamp => { x with stampRetry := true }
      | .void => { x with voidRetry := true }

/-- PRINTER_ANSWER's effect: an answer that names another page, or whose result is neither 1 nor 2, is nothing (R153,
R202). -/
def printerAnswerOp (s : State) (seq : Word16) (result : Byte) : State :=
  match s.port.inHand with
  | none => s
  | some h =>
    match s.findOrder h.order with
    | none => s
    | some o =>
      if h.seq ≠ seq then s
      else if result = 1 then pageSettled (acceptPage s o h) h
      else if result = 2 then spoilPage s o h
      else s

/-! ### The printer's state (R159) -/

/-- PRINTER: the new state, the cause (STATUS 1, TIMEOUT 2), the holder. -/
def setPrinter (s : State) (st : PrinterState) (cause : Nat) : State :=
  notify (s.modPort fun p => { p with printer := st }) .printer none
    (be 1 st.code ++ be 1 cause ++ optNum 1 s.port.holder)

/-- The printer goes to FAULT: the holder fails, or ends with its closing outcome. -/
def printerFault (s : State) (cause : Nat) : State :=
  let s := setPrinter s .fault cause
  match s.port.holder with
  | none => s
  | some n =>
    match (s.findOrder n).bind Order.closing with
    | some why => endOrder s n why.toEnd
    | none => endOrder s n .printer

def setLimit (s : State) (old new : Limit) : State :=
  s.modPort fun p => { p with inHand := p.inHand.map fun h =>
    if h.limit = old ∧ h.sent then { h with limit := new } else h }

def setHolderState (s : State) (f : Order → OrderState) : State :=
  match s.port.holder with
  | some n => s.modOrder n fun o => { o with state := f o }
  | none => s

def printerReady (s : State) : State :=
  match s.port.printer with
  | .ready => s
  | .notReady =>
    setLimit (setHolderState (setPrinter s .ready 1) fun o => if o.closing.isSome then o.state else .active) .stopped .running
  | .fault => setPrinter s .ready 1

def printerNotReady (s : State) : State :=
  match s.port.printer with
  | .ready =>
    setLimit (setHolderState (setPrinter s .notReady 1) fun o => if o.closing.isSome then o.state else .suspended)
      .running .stopped
  | .notReady => s
  | .fault => setPrinter s .notReady 1

/-- A printer status frame; a state byte that is not 1 to 3 is discarded (R202). -/
def printerStatusOp (s : State) (st : Byte) : State :=
  match st.toNat with
  | 1 => printerReady s
  | 2 => printerNotReady s
  | 3 => if s.port.printer = .fault then s else printerFault s 1
  | _ => s

/-- The answer limit of the page in hand expires (R155). -/
def answerTimeoutOp (s : State) : State :=
  match s.port.inHand with
  | some h =>
    if h.limit = .running then
      printerFault (s.modPort fun p => { p with inHand := some { h with limit := .expired } }) 2
    else s
  | none => s

end Sys2Proof.Machine
end

