-- ==== Sys2Proof/Machine/Orders.lean ====
section
/-! DEFINITION. The work requests on documents: FETCH (R96, R97), COPY_ORDER (R147, R148) and CANCEL (R107, R161). -/

namespace Sys2Proof.Machine

/-- A fetch record or a copy order carries the tag and station (R96). -/
def tagInUse (s : State) (tag : Word16) (st : Nat) : Bool :=
  (s.fetches.any fun f => f.tag == tag && f.station == st) || s.orders.any fun o => o.tag == tag && o.station == st

/-- Range lookup and the reach of the document: its side, or the refusal with its fields (R96). -/
inductive Reach
  | side (n : Nat)
  | no (code : RefCode) (fields : List Byte)
  deriving DecidableEq, Repr

def reachDoc (s : State) (doc : Nat) : Reach :=
  match rangeLookup s doc with
  | none => .no .notFound (flag (decide (s.ret.nextDoc ≤ doc)))
  | some n =>
    if cartInState s (sideCart n) .withdrawn then
      .no .offline (be 4 (((s.cart (sideCart n)).map Cart.label).getD 0) ++ be 2 n)
    else if unavailableCode s n ≠ 0 then .no .unavailable (be 2 n ++ be 1 (unavailableCode s n))
    else .side n

/-- The Work List takes no further request item (R71). -/
def listFull (s : State) : Bool := decide (Config.workCapacity ≤ s.work.length) || !s.heldReqs.isEmpty

/-! ### FETCH -/

def newFetch (seq : Nat) (tag : Word16) (st : Nat) (full : Bool) (q : FetchReq) (side item : Nat) : Fetch where
  seq := seq
  tag := tag
  station := st
  full := full
  doc := q.doc
  side := side
  first := q.first
  last := q.last
  copy := none
  clipped := none
  pages := (List.range (q.last + 1 - q.first)).map fun i => ⟨q.first + i, .unread, 0, []⟩
  nextRead := q.first
  sendPage := q.first
  sendChunk := 1
  delivered := 0
  withheld := 0
  unreadable := 0
  state := .waitingFace
  outcome := .complete
  item := some item
  lost := none

def fetchClass (q : FetchReq) : WorkClass := if q.urgent = 1 then .urgent else .view

def fetchOp (s0 : State) (tag : Word16) (st : Nat) (body : List Byte) : Answer :=
  let q := parseFetch body
  if s0.mode = .night then refuse s0 .night []
  else
    let s := wakeFromRest s0
    if !q.fieldsOk || tagInUse s tag st then refuseAfter s0 s .badField []
    else
      match reachDoc s q.doc with
      | .no code fields => refuseAfter s0 s code fields
      | .side n =>
        if listFull s || decide (Config.fetchCapacity ≤ s.fetches.length) then refuseAfter s0 s .listFull []
        else
          let (seq, s) := freshId s
          let (item, s) :=
            createItem s (some tag) (some st) (fetchClass q) .fetch (some n) (some q.doc) none none none .waiting none
          accepted s0 { s with fetches := s.fetches ++ [newFetch seq tag st (fullRights s st) q n item] }
            (be 2 n ++ be 1 (fetchClass q).code)

/-! ### COPY_ORDER -/

/-- The lowest free order number. -/
def freeOrder (s : State) : Option Nat :=
  (upTo Config.orderCapacity).find? fun n => !s.orders.any fun o => o.number == n

/-- Stages 1 and 2 of the page selection (R148). -/
def selectionOf (s : State) (q : CopyReq) : List Nat :=
  (pagesOf q.spans).filter fun p => !(withheldSet s q.doc).contains p

/-- The fee schedule's rates of a kind (R145): the page rate, and the certification fee of CERTIFIED. -/
def ratesOf (f : Fees) (cert : Bool) : Nat × Nat := if cert then (f.cert, f.certFee) else (f.plain, 0)

def newOrder (number : Nat) (accept : Word32) (tag : Word16) (st : Nat) (q : CopyReq) (side : Nat) (rate certFee : Nat)
    (sel : List Nat) (hold item : Nat) : Order where
  number := number
  accept := accept
  tag := tag
  station := st
  doc := q.doc
  side := side
  cert := q.kind == 2
  sets := q.sets
  spans := q.spans
  payer := q.payer
  rate := rate
  certFee := certFee
  selection := sel
  copy := none
  hold := hold
  state := .queued
  closing := none
  curSet := 1
  setStarted := false
  setPages := []
  toSend := []
  pendingCharge := 0
  readSet := 1
  readPage := 0
  pages := []
  retry := none
  stampRetry := false
  voidRetry := false
  voidOwed := false
  charged := 0
  spoiled := 0
  setsDone := 0
  setsVoided := 0
  amount := 0
  item := some item

/-- The accepted order enters the table QUEUED, its item WAITING_PORT, and the port is granted (R148, R149). -/
def enterOrder (s : State) (tag : Word16) (st : Nat) (q : CopyReq) (side number : Nat) : State :=
  let sel := selectionOf s q
  let (rate, certFee) := ratesOf s.ret.fees (q.kind == 2)
  let hold := if q.payer = 0 then 0 else holdFor q.sets sel.length rate certFee
  let (item, s) :=
    createItem s (some tag) (some st) .copy .copy (some side) (some q.doc) none (some number) none .waitingPort none
  let s := { s with
    orders := s.orders ++ [newOrder number s.acceptCount tag st q side rate certFee sel hold item]
    acceptCount := s.acceptCount + 1 }
  (portGrantRule s).getD s

def copyOrderOp (s0 : State) (tag : Word16) (st : Nat) (body : List Byte) : Answer :=
  let q := parseCopy body
  if s0.mode = .night then refuse s0 .night []
  else
    let s := wakeFromRest s0
    if !q.fieldsOk || tagInUse s tag st then refuseAfter s0 s .badField []
    else if !s.ret.dayOpen then refuseAfter s0 s .noDay []
    else
      match reachDoc s q.doc with
      | .no code fields => refuseAfter s0 s code fields
      | .side n =>
        let sel := selectionOf s q
        let (rate, certFee) := ratesOf s.ret.fees (q.kind == 2)
        let fee := holdFor q.sets sel.length rate certFee
        if q.payer ≠ 0 ∧ (s.account q.payer).state ≠ .active then refuseAfter s0 s .accountState []
        else if sel = [] then refuseAfter s0 s .nothingToCopy []
        else if q.payer ≠ 0 ∧ availableFunds s q.payer < fee then
          refuseAfter s0 s .funds (be 4 fee ++ balanceBytes (availableFunds s q.payer))
        else
          match freeOrder s with
          | none => refuseAfter s0 s .tableFull []
          | some number =>
            if listFull s then refuseAfter s0 s .listFull []
            else if q.payer = 0 ∧ st = 0 then refuseAfter s0 s .notPermitted []
            else
              let s' := enterOrder s tag st q n number
              accepted s0 s' (be 1 number ++ be 2 n ++ be 1 sel.length ++ sel.flatMap (be 1 ·)
                ++ be 4 (if q.payer = 0 then 0 else fee) ++ flag (holdsPort s' number)
                ++ optField 4 (if q.payer = 0 then some fee else none))

/-! ### CANCEL -/

/-- CANCEL of a copy order (R161): whether it awaits the page in hand, and the counts. -/
def cancelOrder (s : State) (o : Order) : Answer :=
  match o.closing, inHandOf s o.number with
  | some _, _ => accepted s s (flag true ++ orderCounts o)
  | none, some _ =>
    let s' := closeOrder s o.number .cancelled .cancelledSilent
    accepted s s' (flag true ++ orderCounts ((s'.findOrder o.number).getD o))
  | none, none =>
    let final := ((voidSet s o.number).findOrder o.number).getD o
    done s (endOrder s o.number .cancelledSilent) (flag false ++ orderCounts final)

def cancelOp (s : State) (st : Nat) (body : List Byte) : Answer :=
  let q := parseCancel body
  if !(st == q.station || isSupervisor s st) then refuse s .notPermitted []
  else
    match s.fetches.find? fun f => f.tag == q.tag && f.station == q.station with
    | some f => done s (cancelFetch s f) (be 1 f.delivered ++ be 1 f.withheld ++ be 1 f.unreadable)
    | none =>
      match s.orders.find? fun o => o.tag == q.tag && o.station == q.station with
      | some o => cancelOrder s o
      | none => refuse s .notFound []

end Sys2Proof.Machine
end

