-- ==== Sys2Proof/Machine/Filing.lean ====
section
/-! DEFINITION. The Filing Unit (chapter 6; R16 to R19) and the Rectification Unit (chapter 7): receiving, consent, the
open-side check, write bursts, relocation, commit, cancelling and failing. -/

namespace Sys2Proof.Machine

/-! ### Leaving the table -/

/-- Clears the filing-in-progress marker where it names this filing (R118). -/
def clearMarker (s : State) (ref : Word32) : State :=
  match s.ret.marker with
  | some m => if m.ref = ref then s.retain fun r => { r with marker := none } else s
  | none => s

/-- A filing leaves the table: its item or held request, its staging claim, its reserved entry and its marker go with it
(R126, R128, R135). -/
def removeFiling (s : State) (ref : Word32) : State :=
  let s := endItemOpt s ((s.findFiling ref).bind Filing.item)
  let s := clearMarker (freeFilingClaim s ref) ref
  { s with
    filings := s.filings.filter fun f => f.ref != ref
    fileLine := s.fileLine.filter fun r => r != ref
    reserved := s.reserved.filter fun e => e.2 != ref
    heldReqs := s.heldReqs.filter fun h => h != .file ref }

def rectKind (f : Filing) : Nat := if f.rect.isSome then 2 else 1

/-- The side a filing last wrote to and the dead blocks there: the marker's side, from its start block (R118, R128). -/
def deadRun (s : State) (ref : Word32) : Option Nat × Nat :=
  match s.ret.marker with
  | some m => if m.ref = ref then (some m.side, (s.side m.side).writePtr - m.start) else (none, 0)
  | none => (none, 0)

/-- Reasons of FILING_FAILED, in the order of R128. -/
inductive FailReason | media | unavailable
  deriving DecidableEq, Repr

def FailReason.code : FailReason → Nat | .media => 1 | .unavailable => 2

/-- A filing fails (R128). -/
def failFiling (s : State) (ref : Word32) (why : FailReason) : State :=
  match s.findFiling ref with
  | none => s
  | some f =>
    let dead := deadRun s ref
    notify (removeFiling s ref) .filingFailed (some (f.tag, f.station))
      (be 4 ref.toNat ++ be 1 f.station ++ be 1 why.code ++ optNum 2 dead.1 ++ be 2 dead.2 ++ flag f.relocated)

/-! ### Voiding a rectification (R135) -/

inductive VoidReason | code | timeout | superseded
  deriving DecidableEq, Repr

def VoidReason.code' : VoidReason → Nat | .code => 1 | .timeout => 2 | .superseded => 3

def voidFiling (s : State) (f : Filing) (why : VoidReason) : State :=
  notify (removeFiling s f.ref) .consentVoid (some (f.tag, f.station))
    (be 4 f.ref.toNat ++ be 1 f.station ++ be 4 ((f.rect.map RectInfo.target).getD 0) ++ be 1 why.code'
      ++ be 1 f.state.code)

/-- The pending consent's deadline has been reached (R133). -/
def Filing.due (f : Filing) (now : Clock) : Bool :=
  f.state == .awaitingConsent && (f.rect.bind RectInfo.deadline).any fun d => now.reaches d

/-- Expires every pending consent whose deadline the clock has reached (R133, log 12). -/
def expireDue (s : State) : State :=
  match s.clock with
  | none => s
  | some now => (s.filings.filter fun f => f.due now).foldl (fun s f => voidFiling s f .timeout) s

/-! ### FILE_BEGIN (R110, R111, R131, R137) -/

/-- The same station's earlier rectifications that a FILE_BEGIN supersedes (R137). -/
def superseded (s : State) (st : Nat) : List Filing := (pendingConsents s).filter fun f => f.station == st

def supersede (s : State) (st : Nat) : State := (superseded s st).foldl (fun s f => voidFiling s f .superseded) s

/-- The state a FILE_BEGIN is checked on: for a RECTIFICATION, as it would stand after the voidings (R137). -/
def afterVoidings (s : State) (st : Nat) (q : FileBeginReq) : State := if q.kind = 2 then supersede s st else s

/-- The TABLE_FULL check of R110 on the state as it would stand after the voidings. -/
def tableRoom (s : State) (isRect : Bool) : Bool :=
  decide (s.filings.length < Config.filingCapacity) &&
    decide (s.filings.length < Config.docNumberEnd - s.ret.nextDoc) &&
    (!isRect || decide ((pendingConsents s).length < Config.consentCapacity) && !(freeEntries s).isEmpty)

def newFiling (tag : Word16) (st : Nat) (q : FileBeginReq) : Filing where
  ref := q.ref
  tag := tag
  station := st
  rect := if q.kind = 2 then some ⟨q.target, q.ranges, q.code, none⟩ else none
  pageCount := q.pageCount
  offsets := q.offsets
  count := q.count
  received := 0
  state := .receiving
  fileOrder := none
  target := none
  start := none
  claimed := 0
  progress := 0
  remaps := []
  relocated := false
  cancelPending := false
  item := none

/-- The accepted filing takes its staging claim, its reserved entry and its place in the table (R111). -/
def enterFiling (s : State) (tag : Word16) (st : Nat) (q : FileBeginReq) : State :=
  let s := grantFilingClaim s q.ref q.count
  { s with
    filings := s.filings ++ [newFiling tag st q]
    reserved := if q.kind = 2 then s.reserved ++ ((freeEntries s).take 1).map fun i => (i, q.ref) else s.reserved }

def fileBeginOp (s0 : State) (tag : Word16) (st : Nat) (body : List Byte) : Answer :=
  let q := parseFileBegin body
  if s0.mode = .night then refuse s0 .night []
  else
    let s := wakeFromRest s0
    if s.clock = none then refuseAfter s0 s .clockUnset []
    else if !fullRights s st then refuseAfter s0 s .notPermitted []
    else if !q.fieldsOk then refuseAfter s0 s .badField []
    else if ((afterVoidings s st q).findFiling q.ref).isSome then refuseAfter s0 s .badField []
    else if q.kind = 2 ∧ rangeLookup s q.target = none then refuseAfter s0 s .notFound []
    else
      let v := afterVoidings s st q
      if !tableRoom v (q.kind == 2) then refuseAfter s0 s .tableFull []
      else if !filingClaimFits v q.count then refuseAfter s0 s .stagingFull []
      else ⟨enterFiling v tag st q, .accepted, be 4 q.ref.toNat ++ be 2 q.count, v.control.length⟩

/-! ### FILE_DATA, FILE_END (R112, R113) -/

/-- The checks FILE_DATA and FILE_END share, in their order (R112, R113). -/
def receivingCheck (s : State) (st : Nat) (ref : Word32) : Except RefCode Filing :=
  if s.mode = .night then .error .night
  else
    match s.findFiling ref with
    | none => .error .notFound
    | some f =>
      if st ≠ f.station then .error .notPermitted
      else if f.state ≠ .receiving then .error .busy
      else .ok f

def fileDataOp (s : State) (st : Nat) (body : List Byte) : Answer :=
  let q := parseFileData body
  match receivingCheck s st q.ref with
  | .error c => refuse s c []
  | .ok f =>
    if f.count ≤ q.seq then refuse s .badField []
    else if q.seq ≠ f.received then refuse s .sequence (be 2 f.received)
    else
      let s' := match (filingBlocks s q.ref)[q.seq]? with
        | some b => writeBlock s b q.data
        | none => s
      done s (s'.modFiling q.ref fun x => { x with received := x.received + 1 }) (be 2 (f.received + 1))

/-- A filing goes QUEUED for the first time: it takes the next FILE order, and its FILE item is asked for (R113, R134). -/
def queueFiling (s : State) (ref : Word32) : State :=
  let s := s.modFiling ref fun x => { x with state := .queued, fileOrder := some s.fileCount }
  createFileItem { s with fileCount := s.fileCount + 1, fileLine := s.fileLine ++ [ref] } ref

/-- A complete rectification awaits consent until the clock plus the consent window (R133). -/
def awaitConsent (s : State) (ref : Word32) : State :=
  let deadline := s.clock.map fun c => c.plus s.params.consentWindow
  s.modFiling ref fun x =>
    { x with state := .awaitingConsent, rect := x.rect.map fun r => { r with deadline := deadline } }

def fileEndOp (s : State) (st : Nat) (body : List Byte) : Answer :=
  let ref := refAt body 0
  match receivingCheck s st ref with
  | .error c => refuse s c []
  | .ok f =>
    if f.received < f.count then refuse s .incomplete (be 2 f.received)
    else if f.rect.isSome then accepted s (awaitConsent s ref) (be 1 FilingState.awaitingConsent.code)
    else accepted s (queueFiling s ref) (be 1 FilingState.queued.code)

/-! ### CONSENT (R134) -/

def consentOp (s : State) (st : Nat) (body : List Byte) : Answer :=
  let q := parseConsent body
  if s.mode = .night then refuse s .night []
  else
    match s.findFiling q.ref with
    | none => refuse s .notFound []
    | some f =>
      match f.rect with
      | none => refuse s .badField []
      | some r =>
        if !isSupervisor s st || st == f.station then refuse s .notPermitted []
        else if f.state ≠ .awaitingConsent then refuse s .busy (be 1 f.state.code)
        else if q.code ≠ r.code then refuseAfter s (voidFiling s f .code) .badCode (flag true)
        else accepted s (queueFiling s q.ref) (be 4 q.ref.toNat ++ be 1 FilingState.queued.code)

/-! ### FILE_CANCEL (R126) -/

/-- A write burst of the filing is running. -/
def writingNow (s : State) (f : Filing) : Bool :=
  f.state == .writing && (f.item.bind s.findItem).any fun i => i.state == .active

def fileCancelOp (s : State) (st : Nat) (body : List Byte) : Answer :=
  let ref := refAt body 0
  match s.findFiling ref with
  | none => refuse s .notFound []
  | some f =>
    if !(st == f.station || isSupervisor s st) then refuse s .notPermitted []
    else if f.state = .committing then refuse s .busy []
    else if f.cancelPending || writingNow s f then
      accepted s (s.modFiling ref fun x => { x with cancelPending := true }) (be 1 2 ++ be 2 f.claimed)
    else done s (removeFiling s ref) (be 1 1 ++ be 2 f.claimed)

/-! ### The open-side check (R16, R115) -/

/-- A filing's target side and its item's are one. -/
def setTarget (s : State) (f : Filing) (n : Option Nat) : State :=
  let s := s.modFiling f.ref fun x => { x with target := n }
  match f.item with
  | some id => s.modItem id fun i => { i with side := n }
  | none => s

/-- No side can be opened: the filing goes HELD (R115). -/
def holdFiling (s : State) (f : Filing) : State :=
  notify ((setTarget s f none).modFiling f.ref fun x => { x with state := .held }) .filingHeld (some (f.tag, f.station))
    (be 4 f.ref.toNat ++ be 2 f.count)

/-- The BLANK side the check chooses, or HELD. -/
def chooseBlank (s : State) (f : Filing) : State :=
  match blankChoice s with
  | some n => setTarget s f (some n)
  | none => holdFiling s f

/-- The open-side check for the head filing (R16). -/
def openSideCheck (s : State) (f : Filing) : State :=
  match openSide s with
  | none => chooseBlank s f
  | some n =>
    if usableData s n < f.count then chooseBlank (closeSideAs s n .room) f
    else if slotsLeft (s.side n) = 0 then chooseBlank (closeSideAs s n .directory) f
    else setTarget s f (some n)

/-- The side whose OPEN mark a task writes. -/
def Task.openingSide : Task → Option Nat
  | .writeLabel (.opening n) _ _ => some n
  | _ => none

/-- The OPEN mark of a side still BLANK is being written: the opening of a filing cancelled meanwhile goes on (R17). -/
def openingUnderWay (s : State) : Bool :=
  s.drives.any fun x => x.task.openingSide.any fun n => (s.side n).state == .blank

/-- The check of a FILE item that waits without a target side (R84 step 1, log 17); it waits for an opening under way, whose
side serves the next filing (R12, R17). -/
def fileCheckRule (s : State) : Option State :=
  match headFiling s with
  | none => none
  | some f =>
    match f.item.bind s.findItem with
    | none => none
    | some i =>
      if f.target = none ∧ f.state ≠ .held ∧ i.state = .waiting ∧ i.ended = false ∧ openingUnderWay s = false then
        some (openSideCheck s f)
      else none

/-- A usable BLANK side has been brought in: its cartridge is in a slot, or in a drive that has not ejected it; one that was
stuck counts once it is home (R116). -/
def blankBrought (s : State) (n : Nat) : Bool :=
  blankUsable s n &&
    (match placeOf s (sideCart n) with
     | some (.slot _) => true
     | some (.drive d) => !(s.drive d).ejected
     | _ => false)

/-- A HELD filing returns to QUEUED once a BLANK side meets the conditions of the choice (R116). -/
def heldReleaseRule (s : State) : Option State :=
  match headFiling s with
  | none => none
  | some f =>
    if f.state = .held ∧ (upTo s.ret.sides.length).any (blankBrought s) then
      some (s.modFiling f.ref fun x => { x with state := .queued })
    else none

/-! ### Write bursts (R117 to R121) -/

/-- The claim of a burst: one Retained Store update advances the write pointer and, at the first claim on a side, sets the
marker (R117, R118). -/
def claimBurst (s : State) (f : Filing) (n hi : Nat) : State :=
  let e := s.side n
  let start := f.start.getD e.writePtr
  let s := s.retain fun r =>
    { r with
      sides := tset r.sides n { e with writePtr := e.writePtr + (hi - f.claimed) }
      marker := if f.start.isNone then some ⟨f.ref, n, start⟩ else r.marker }
  s.modFiling f.ref fun x => { x with start := some start, claimed := hi, state := .writing }

/-- The end of the next write burst of a filing whose progress is below its block count (R117). -/
def burstTop (s : State) (f : Filing) : Nat :=
  if f.progress < f.claimed then f.claimed else min f.count (f.progress + s.params.writeBurst)

/-- Takes the next spare of a side for an offset, where a remap is possible (R119). -/
def takeSpare (s : State) (ref : Word32) (n : Nat) : Option (Nat × State) :=
  match s.findFiling ref with
  | none => none
  | some f =>
    let e := s.side n
    if Config.remapLimit ≤ f.remaps.length ∨ Config.spareBlocks ≤ e.spareUsed ∨ e.state = .blank then none
    else some (e.spareUsed, s.setSide n { e with spareUsed := e.spareUsed + 1 })

/-- The spare verified: the offset's entry joins the remap list (R119). -/
def addRemap (s : State) (ref : Word32) (offset spare : Nat) : State :=
  s.modFiling ref fun x => { x with remaps := x.remaps ++ [(offset, spare)] }

/-- What an owner reports at a burst's end (R82). -/
inductive BurstResult | same | other | nothing
  deriving DecidableEq, Repr

/-- Step 3 and 4 of a relocation: the filing starts again from offset 0, its target absent (R122). -/
def resetFiling (s : State) (f : Filing) : State :=
  (setTarget s f none).modFiling f.ref fun x =>
    { x with relocated := true, remaps := [], progress := 0, claimed := 0, start := none, state := .queued }

/-- A relocation whose cause closes the side (R122): made once; a second need fails the filing. -/
def relocateFiling (s : State) (ref : Word32) (n : Nat) (why : CloseReason) : State × BurstResult :=
  match s.findFiling ref with
  | none => (s, .nothing)
  | some f =>
    let s := if (s.side n).state = .opened then closeSideAs s n why else s
    if f.relocated then (failFiling s ref .media, .nothing)
    else
      let s := resetFiling s f
      match s.findFiling ref with
      | some f => (openSideCheck s f, .other)
      | none => (s, .nothing)

/-- A write burst has ended without a fault (R120, R126). -/
def writeBurstEnd (s : State) (b : WriteBurst) : State × BurstResult :=
  match s.findFiling b.ref with
  | none => (s, .nothing)
  | some f =>
    if f.cancelPending then (removeFiling s b.ref, .nothing)
    else
      let s := s.modFiling b.ref fun x => { x with progress := b.hi }
      if b.relocate.isSome then relocateFiling s b.ref b.side .spare else (s, .same)

/-- The first offset a faulted burst leaves unsettled (R121): settled offsets are those verified or remapped. -/
def WriteBurst.settled (b : WriteBurst) : Nat :=
  match b.pass, b.spare with
  | .verify, _ => min b.next (b.relocate.getD b.next)
  | _, _ => b.lo

/-- A write burst ended by a drive fault (R121, R126). -/
def writeBurstFault (s : State) (b : WriteBurst) : State :=
  match s.findFiling b.ref with
  | none => s
  | some f =>
    if f.cancelPending then removeFiling s b.ref
    else s.modFiling b.ref fun x => { x with progress := b.settled }

/-! ### The commit (R123 to R125) -/

/-- Assembles the document record (R123). -/
def assemble (s : State) (f : Filing) : DocRecord where
  number := s.ret.nextDoc
  day := (s.clock.map Clock.day).getD 0
  second := (s.clock.map Clock.second).getD 0
  station := f.station
  ref := f.ref
  pageCount := f.pageCount
  offsets := f.offsets
  start := f.start.getD 0
  count := f.count
  remaps := f.remaps
  rect := f.rect.map fun r => (r.target, r.ranges)

/-- Counts a directory slot of a side that has been opened as used (R5, R123, R125). -/
def countSlot (s : State) (n : Nat) : State :=
  if (s.side n).state = .blank then s else s.setSide n { s.side n with slotsUsed := (s.side n).slotsUsed + 1 }

/-- The entry a committing rectification's reservation becomes (R130). -/
def commitEntry (s : State) (f : Filing) (r : Retained) : List (Option Committed) :=
  match f.rect, s.reserved.find? fun e => e.2 == f.ref with
  | some q, some (i, _) => tset r.withheld i (some ⟨q.target, q.ranges, r.nextDoc⟩)
  | _, _ => r.withheld

/-- The commit's one Retained Store update (R124). -/
def commitUpdate (s : State) (f : Filing) (n : Nat) : State :=
  let e := s.side n
  { s.retain fun r =>
      { r with
        nextDoc := r.nextDoc + 1
        sides := tset r.sides n
          { e with first := some (e.first.getD r.nextDoc), last := some r.nextDoc, count := e.count + 1,
                   slotsUsed := e.slotsUsed + 1 }
        withheld := commitEntry s f r
        marker := none } with
    reserved := s.reserved.filter fun x => x.2 != f.ref }

/-- The threshold test after a commit (R19). -/
def thresholdTest (s : State) (n : Nat) : State :=
  let e := s.side n
  if e.state ≠ .opened then s
  else if freeData e < 64 then closeSideAs s n .room
  else if slotsLeft e = 0 then closeSideAs s n .directory
  else if sparesLeft e < 16 then closeSideAs s n .spare
  else s

/-- The pages newly withheld by a rectification (R138), before its update. -/
def newlyWithheld (s : State) (q : RectInfo) : List Nat :=
  (pagesOf q.ranges).filter fun p => !(withheldSet s q.target).contains p

/-- Re-masks the work in flight on a committed rectification's target (R138). -/
def remask (s : State) (target : Nat) (newly : List Nat) : State :=
  if newly = [] then s else remaskOrders (remaskFetches s target newly) target newly

def filedFields (f : Filing) (r : DocRecord) (n : Nat) : List Byte :=
  be 4 f.ref.toNat ++ be 1 f.station ++ be 4 r.number ++ be 1 (rectKind f) ++ be 2 n ++ be 4 r.start ++ be 2 r.count
    ++ be 1 r.remaps.length ++ flag f.relocated

/-- The commit of a verified record on the side that drive `d` holds (R124). -/
def commitFiling (s : State) (d : Nat) (b : CommitBurst) : State :=
  match s.findFiling b.ref with
  | none => s
  | some f =>
    let newly := (f.rect.map (newlyWithheld s)).getD []
    let s := commitUpdate s f b.side
    let s := s.modDrive d fun x => { x with dir := x.dir ++ [b.doc] }
    let s := match f.rect with
      | some q => remask s q.target newly
      | none => s
    let s := notify (freeFilingClaim s f.ref) .filed (some (f.tag, f.station)) (filedFields f b.doc b.side)
    thresholdTest (removeFiling s f.ref) b.side

/-- A slot failed verification: the next slot, or a relocation where none is left (R123). -/
def commitSlotFailed (s : State) (b : CommitBurst) : State × Option CommitBurst :=
  let s := countSlot s b.side
  if Config.directorySlots ≤ (s.side b.side).slotsUsed then (s, none)
  else (s, some { b with slot := (s.side b.side).slotsUsed + 1, pass := .erase })

/-- A commit burst ended by a drive fault: the slot is counted, the filing returns to WRITING (R125). -/
def commitBurstFault (s : State) (b : CommitBurst) : State :=
  (countSlot s b.side).modFiling b.ref fun x => { x with state := .writing }

/-! ### The target side is lost (R17, R22, R53, R122) -/

/-- The chosen side is lost before its OPEN mark verifies: the target becomes absent, and the check is made anew (R17). -/
def loseChosen (s : State) (ref : Word32) : State :=
  match s.findFiling ref with
  | some f => setTarget s f none
  | none => s

/-- The OPEN side failed its label check at a mount: a relocation where blocks were claimed on it, else only another side
(R53, R122). -/
def openSideLost (s : State) (ref : Word32) : State :=
  match s.findFiling ref with
  | none => s
  | some f =>
    if f.claimed = 0 then setTarget s f none
    else if f.relocated then failFiling s ref .media
    else resetFiling s f

/-! ### Opening (R16, R17) -/

/-- The OPEN mark's label block (R16; the clock is set, for FILE_BEGIN needs it: log 31). -/
def openLabel (s : State) (n : Nat) : Label :=
  ⟨((s.cart (sideCart n)).map Cart.label).getD 0, sideFace n, .opened, s.ret.nextDoc, (s.clock.map Clock.day).getD 0, none,
    none, 0⟩

/-- The OPEN mark verified: the side becomes OPEN, and SIDE_OPENED is reported (R16). -/
def sideOpened (s : State) (n : Nat) (l : Label) : State :=
  notify (s.setSide n { Side.blank with state := .opened, openedDay := some l.openedDay }) .sideOpened none
    (be 2 n ++ be 1 (faceCode l.face) ++ be 4 l.serial ++ be 4 l.firstToBe ++ be 2 l.openedDay)

/-- The filing that chose side `n` loses it, and the next open-side check chooses again (R17). -/
def loseTarget (s : State) (n : Nat) : State :=
  match s.filings.find? fun f => f.target == some n with
  | some f => setTarget s f none
  | none => s

/-- The OPEN mark failed verification: the side becomes FAULTY, and the filing that chose it chooses again (R17). -/
def openMarkFailed (s : State) (n : Nat) : State :=
  loseTarget (mediaErrorLabel (s.setSide n { s.side n with state := .faulty }) n) n

end Sys2Proof.Machine
end

