-- ==== Sys2Proof/Machine/Owners.lean ====
section
/-! DEFINITION. What the owning units do when a side or cartridge becomes unavailable to its items (R22, R39, R53, R64,
R105, R162), and where a burst's outcome goes (R64, R82). -/

namespace Sys2Proof.Machine

/-! ### Items that end UNAVAILABLE -/

/-- The owning unit ends an item with UNAVAILABLE. -/
def endUnavailable (s : State) (i : Item) : State :=
  match i.kind with
  | .fetch =>
    match s.fetches.find? fun f => f.item == some i.id with
    | some f => fetchUnavailable s f.seq
    | none => s
  | .copy =>
    match s.orders.find? fun o => o.item == some i.id with
    | some o => closeOrder s o.number .unavailable .unavailable
    | none => s
  | .file =>
    match i.filing with
    | some r => failFiling s r .unavailable
    | none => s
  | .inspect => s

/-- Ends the work on a side; FILE items go the way `file` gives. -/
def endSideWork (s : State) (n : Nat) (file : State → Item → State) : State :=
  (s.work.filter fun i => i.side == some n && !i.ended).foldl
    (fun s i => if i.kind = .file then file s i else endUnavailable s i) s

/-- A cartridge becomes stuck or MISSING: the work on both its sides ends (R39, R64). -/
def endCartWork (s : State) (c : Nat) : State :=
  endSideWork (endSideWork s (sideOf c .a) endUnavailable) (sideOf c .b) endUnavailable

/-- The label check failed on a side: FILE items on an OPEN side wait for the next check, other items end (R53, R92). -/
def endLabelFailedWork (s : State) (n : Nat) : State :=
  endSideWork s n fun s i =>
    if (s.side n).state = .opened then
      match i.filing with
      | some r => returnItem (openSideLost s r) i.id
      | none => s
    else endUnavailable s i

/-! ### A side change under an item that holds a drive (R86) -/

/-- A drive is given to an item (R83, R85): on its own face the chain count rises. -/
def giveDrive (s : State) (id d : Nat) : State :=
  let onFace := (s.findItem id).any fun i => i.side.isSome && (s.drive d).side == i.side
  let s := s.modItem id fun i => { i with state := .assigned, drive := some d }
  if onFace then
    s.modDrive d fun x => { x with chain := if x.chain ≤ s.params.chainLimit then x.chain + 1 else x.chain, chainAsk := false }
  else s.modDrive d fun x => { x with chainAsk := false }

/-- The item on drive `d` has another target side: it goes on, moves, keeps the drive for another face, or waits (R86, log
36). -/
def takeNewSide (s : State) (id d : Nat) : State :=
  match s.findItem id with
  | none => s
  | some i =>
    match i.side with
    | none => returnItem s id
    | some n =>
      if (s.drive d).service ≠ .inService then returnItem s id
      else if (s.drive d).side = some n then s.modItem id fun x => { x with state := .assigned }
      else
        match cartDrive { s with work := s.work.filter fun x => x.id != id } (sideCart n) with
        | some e =>
          if e = d then (dropItemTransfers s id).modItem id fun x => { x with state := .assigned }
          else if driveAvailable s e then giveDrive (returnItem s id) id e
          else returnItem s id
        | none => (dropItemTransfers s id).modItem id fun x => { x with state := .assigned }

/-- The open-side check made anew for an item that holds drive `d` (R17, R86, R115). -/
def recheckOn (s : State) (ref : Word32) (id d : Nat) : State :=
  match s.findFiling ref with
  | some f => takeNewSide (openSideCheck s f) id d
  | none => s

/-- A filing whose chosen side is lost checks anew: at once where its item holds a drive, else when it is next considered
(R17). -/
def recheckChosen (s : State) (ref : Word32) : State :=
  let s := loseChosen s ref
  match (s.findFiling ref).bind Filing.item with
  | none => s
  | some id =>
    match (s.findItem id).bind Item.drive with
    | some d => recheckOn s ref id d
    | none => s

/-! ### Burst outcomes -/

def moreIf (r : State × Bool) : State × BurstResult := (r.1, if r.2 then .same else .nothing)

/-- A read burst's outcome goes to the item's owner (R82). -/
def readBurstEnd (s : State) (i : Item) (b : ReadBurst) : State × BurstResult :=
  match i.kind with
  | .fetch => moreIf (fetchBurstEnd s i.id b)
  | .copy => moreIf (copyBurstEnd s i.id b)
  | .file | .inspect => (dropClaim s b.claim, .nothing)

/-- A read burst ended by a drive fault (R64). -/
def readBurstFault (s : State) (i : Item) (b : ReadBurst) : State :=
  match i.kind with
  | .fetch => fetchBurstFault s i.id b
  | .copy => copyBurstFault s i.id b
  | .file | .inspect => dropClaim s b.claim

def Task.isRead : Task → Bool
  | .readBurst _ => true
  | _ => false

/-- A burst's outcome marked discarded: a read burst frees its blocks (R78); a write burst of a filing that has gone leaves
its blocks dead. -/
def discardBurst (s : State) (t : Task) : State :=
  match t with
  | .readBurst b => dropClaim s b.claim
  | _ => s

/-- The item ends at its burst's end, and its owner no longer names it (R75, R82). -/
def finishItem (s : State) (id : Nat) : State :=
  let s := removeItem s id
  { s with
    fetches := s.fetches.map fun f => if f.item = some id then { f with item := none } else f
    orders := s.orders.map fun o => if o.item = some id then { o with item := none } else o }

/-- The urgent wait to which the item on drive `d` yields (R88). -/
def yieldsTo (s : State) (i : Item) (d : Nat) : Option Item :=
  if i.cls ≠ .urgent ∧ i.yields < i.limit then urgentWait s d else none

/-- More to do on the same side (R82, R91, R92): the preemption test, then the park, then the next burst. -/
def goOnSame (s : State) (i : Item) (d : Nat) : State :=
  if (s.drive d).service ≠ .inService then returnItem s i.id
  else
    match yieldsTo s i d with
    | some u => giveDrive (yieldItem s i.id) u.id d
    | none =>
      if i.kind = .copy ∧ (itemOrder s i.id).any (fun o => copyParks s o i.id) then parkItem s i.id
      else s.modItem i.id fun x => { x with state := .assigned }

/-- More to do on another side (R82, R86, R88). -/
def goOnOther (s : State) (i : Item) (d : Nat) : State :=
  match yieldsTo s i d with
  | some u => if (s.drive d).service = .inService then giveDrive (yieldItem s i.id) u.id d else takeNewSide s i.id d
  | none => takeNewSide s i.id d

/-- The scheduler's decision at a burst's end (R82). -/
def decide_ (s : State) (id d : Nat) (r : BurstResult) : State :=
  match s.findItem id with
  | none => s
  | some i =>
    if i.ended then finishItem s id
    else
      match r with
      | .nothing => finishItem s id
      | .same => goOnSame s i d
      | .other => goOnOther s i d

/-- A burst on drive `d` has ended with an outcome computed by `outcome`, discarded where its item has been ended (R60,
R75). -/
def endBurst (s : State) (d id : Nat) (t : Task) (outcome : State → Item → State × BurstResult) : State :=
  let s := s.modDrive d fun x =>
    { x with state := .ready, task := .idle, op := none, lastUse := s.elapsed, readySince := s.elapsed, idleOn := true }
  match s.findItem id with
  | none => discardBurst s t
  | some i =>
    if i.ended ∧ t.isRead then
      finishItem (discardBurst s t) id
    else
      let r := outcome s i
      decide_ r.1 id d r.2

end Sys2Proof.Machine
end

