-- ==== Sys2Proof/Machine/Rebuild.lean ====
section
/-! DEFINITION. The rebuild (R182, R183) and the tables it sets (R23, R143). What the rules leave to choose is log 20. -/

namespace Sys2Proof.Machine

/-! ### The list of cartridges -/

def rebuilding (s : State) : Bool := s.mode == .rebuild && s.boot.rebuild.listed && !s.boot.rebuild.halted

def rebuildAt (s : State) (p : Place) : Option RebuildCart := s.boot.rebuild.carts.find? fun k => k.place == p

def modRebuildAt (s : State) (p : Place) (f : RebuildCart → RebuildCart) : State :=
  s.modRebuild fun r => { r with carts := r.carts.map fun k => if k.place = p then f k else k }

/-- The lowest slot the inventory found empty and that no earlier cartridge has been given; 0 where none is left. -/
def restFor (seen : List Nat) (given : List RebuildCart) : Nat :=
  ((upTo Config.slotCount).find? fun n => !seen.contains n && !given.any fun k => k.rest == n).getD 0

/-- The cartridges found, in the order storage slots, drives, gripper (R182 step 2). -/
def listCarts (s : State) : List RebuildCart :=
  let seen := s.boot.seen
  let slots := ((upTo Config.slotCount).filter fun n => seen.contains n).map
    fun n => (⟨.slot n, n, .waiting, none, none, none⟩ : RebuildCart)
  let places := (drives4.filter fun d => (s.drive d).occ != .empty).map Place.drive
    ++ if s.picker.gripper = .empty then [] else [.gripper]
  places.foldl (fun l p => l ++ [⟨p, restFor seen l, .waiting, none, none, none⟩]) slots

/-! ### Faces read -/

def RebuildCart.unreadFace (k : RebuildCart) : Option Face :=
  if k.faceA.isNone then some .a else if k.faceB.isNone then some .b else none

def RebuildCart.setFace (k : RebuildCart) (f : Face) (r : FaceRead) : RebuildCart :=
  match f with
  | .a => { k with faceA := some r }
  | .b => { k with faceB := some r }

def RebuildCart.face (k : RebuildCart) (f : Face) : Option FaceRead :=
  match f with
  | .a => k.faceA
  | .b => k.faceB

/-- The serial of a cartridge read on both faces (R182 step 4). -/
def RebuildCart.serial (k : RebuildCart) : Option Nat :=
  match k.faceA.map FaceRead.label, k.faceB.map FaceRead.label with
  | some (.good l), _ => some l.serial
  | _, some (.good l) => if l.mark = .new then none else some l.serial
  | _, _ => none

/-- Every label read, for the label counter (R25). -/
def serialsRead (s : State) : List Nat :=
  s.boot.rebuild.carts.flatMap fun k => [k.faceA, k.faceB].filterMap fun f => match f.map FaceRead.label with
    | some (.good l) => some l.serial
    | _ => none

/-! ### Identifying (R182 step 4) -/

/-- A cartridge leaves by REJECT from where it is; its IMPORT_REJECTED comes at completion. -/
def rebuildReject (s : State) (p : Place) (why : RejectReason) : State :=
  let s := modRebuildAt s p fun k => { k with stage := .done }
  let s := s.modRebuild fun r => { r with rejected := r.rejected + 1 }
  let s := match p with
    | .drive d => s.modDrive d fun x => { x with found := true }
    | _ => s
  requestTransfer s .reject none p none .a none (some why) false

/-- A cartridge read on both faces is put out, or goes to its resting slot, where it is identified in its turn (log 20). -/
def rebuildRead (s : State) (d : Nat) (k : RebuildCart) : State :=
  if k.serial.isNone then rebuildReject s (.drive d) .unidentified
  else if k.rest = 0 then rebuildReject s (.drive d) .noSlot
  else
    requestTransfer (modRebuildAt s (.drive d) fun x => { x with stage := .read }) .ret none (.drive d) (some (.slot k.rest))
      .a none none false

/-- A face of the cartridge in drive `d` has been read (R182 step 3): its other face is next, or it has been read. -/
def rebuildFaceDone (s : State) (d : Nat) (got : List (Nat × SlotRead)) : State :=
  match (s.drive d).face with
  | some f =>
    let s := modRebuildAt s (.drive d) fun x => x.setFace f ⟨(s.drive d).label.getD .unreadable, got⟩
    match rebuildAt s (.drive d) with
    | none => s
    | some k =>
      if k.unreadFace.isSome then
        if k.rest = 0 then rebuildReject s (.drive d) .noSlot
        else requestTransfer s .dismount none (.drive d) (some (.slot k.rest)) .a none none false
      else rebuildRead s d k
  | none => s

/-- A transfer of a listed cartridge has completed. -/
def rebuildMoved (s : State) (src dst : Place) : State :=
  modRebuildAt s src fun k =>
    { k with
      place := dst
      stage := match k.stage, dst with
        | .read, _ => .read
        | .done, _ => .done
        | _, .drive _ => .busy
        | _, .mail _ => .done
        | _, .gripper => if k.unreadFace.isSome then .waiting else k.stage
        | _, .slot _ => if k.unreadFace.isSome then .waiting else k.stage }

/-- The first cartridge of the list that has not been identified, if it stands read in its resting slot. -/
def identifiable : List RebuildCart → Option RebuildCart
  | [] => none
  | k :: ks =>
    match k.stage with
    | .done => identifiable ks
    | .read => if k.place = .slot k.rest then some k else none
    | .waiting | .busy => none

/-- A cartridge in its resting slot is given a record, or is put out (R182 step 4); the list's order decides which of two
bearing one serial is the second, and which index each receives (R25). -/
def rebuildIdentify (s : State) (k : RebuildCart) : State :=
  match k.serial, lowestFreeRecord s with
  | none, _ => rebuildReject s k.place .unidentified
  | some l, free =>
    if (recordOfLabel s l).isSome then rebuildReject s k.place .duplicate
    else
      match free with
      | none => rebuildReject s k.place .tableFull
      | some c =>
        let s := s.setCart c (some ⟨l, .inLibrary, some k.rest⟩)
        let s := s.setSlot k.rest { s.slot k.rest with occ := .record c }
        modRebuildAt s k.place fun x => { x with stage := .done, index := some c }

def rebuildIdentifyRule (s : State) : Option State :=
  if rebuilding s then (identifiable s.boot.rebuild.carts).map (rebuildIdentify s) else none

/-! ### Setting the tables (R23, R143, R182 step 5) -/

/-- A face's valid records: one per number, that of the higher slot (R5). -/
def validRecords (slots : List (Nat × SlotRead)) : List DocRecord :=
  let recs := slots.filterMap fun e => match e.2 with
    | .record r => some (e.1, r)
    | .erased | .dead => none
  (recs.filter fun e => !recs.any fun g => g.2.number == e.2.number && decide (e.1 < g.1)).map Prod.snd

/-- A side being rebuilt. -/
structure SideRead where
  side : Nat
  label : LabelRead
  slots : List (Nat × SlotRead)
  recs : List DocRecord
  deriving DecidableEq, Repr

def sidesRead (s : State) : List SideRead :=
  s.boot.rebuild.carts.flatMap fun k => match k.index with
    | none => []
    | some c => [Face.a, Face.b].filterMap fun f =>
        (k.face f).map fun r => ⟨sideOf c f, r.label, r.slots, validRecords r.slots⟩

/-- The valid records on the faces read of cartridges that have no record, those put out among them: they count for the next
document number and the withheld pages (R1, R23, R143). -/
def looseRecords (s : State) : List DocRecord :=
  s.boot.rebuild.carts.flatMap fun k => match k.index with
    | some _ => []
    | none => [k.faceA, k.faceB].flatMap fun f => match f with
      | some r => validRecords r.slots
      | none => []

def minNum (rs : List DocRecord) : Option Nat := (rs.map DocRecord.number).min?
def maxNum (rs : List DocRecord) : Option Nat := (rs.map DocRecord.number).max?

/-- The overlap of the ranges of two sides. -/
def overlapOf (a b : List DocRecord) : Option (Nat × Nat) :=
  match minNum a, maxNum a, minNum b, maxNum b with
  | some la, some ha, some lb, some hb => if max la lb ≤ min ha hb then some (max la lb, min ha hb) else none
  | _, _, _, _ => none

/-- The filed time of a side's earliest record within an overlap; none where it has none. -/
def earliestIn (rs : List DocRecord) (lo hi : Nat) : Option Nat :=
  ((rs.filter fun r => decide (lo ≤ r.number ∧ r.number ≤ hi)).map
    fun r => r.day * Config.secondsPerDay + r.second).min?

/-- Of two overlapping sides, whether the first's records die from the overlap upward (R23). -/
def firstDies (a b : SideRead) (lo hi : Nat) : Bool :=
  match earliestIn a.recs lo hi, earliestIn b.recs lo hi with
  | some x, some y => decide (x < y ∨ x = y ∧ a.side < b.side)
  | some _, none => true
  | none, _ => false

def SideRead.cutFrom (a : SideRead) (lo : Nat) : SideRead :=
  { a with recs := a.recs.filter fun r => decide (r.number < lo) }

/-- One side against one other. -/
def settleOverlap (a b : SideRead) : SideRead :=
  match overlapOf a.recs b.recs with
  | some (lo, hi) => if a.side ≠ b.side ∧ firstDies a b lo hi then a.cutFrom lo else a
  | none => a

/-- The overlap rule over every pair of sides (R23). DESIGN CHOICE (log 59): pairs are settled in the order of the list of sides
read, and a cut takes effect before the next pair. -/
def settleOverlaps (l : List SideRead) : List SideRead :=
  l.foldl (fun acc a =>
    let cur := (acc.find? fun x => x.side == a.side).getD a
    acc.foldl (fun acc b0 =>
      let a' := (acc.find? fun x => x.side == cur.side).getD cur
      let b := (acc.find? fun x => x.side == b0.side).getD b0
      acc.map fun x =>
        if x.side = a'.side then settleOverlap a' b else if x.side = b.side then settleOverlap b a' else x) acc) l

/-- A side's entry after the rebuild (R23). -/
def SideRead.entry (a : SideRead) : Side :=
  let used := ((a.slots.filter fun e => e.2 != .erased).map Prod.fst).max?.getD 0
  let fields : Side :=
    { state := .closed
      first := minNum a.recs
      last := maxNum a.recs
      count := a.recs.length
      writePtr := (a.recs.map fun r => r.start + r.count).max?.getD 0
      spareUsed := ((a.recs.flatMap fun r => r.remaps.map fun e => e.2 + 1).max?).getD 0
      slotsUsed := used
      closeReason := some .rebuild
      openedDay := match a.label with
        | .good l => if l.mark = .new then none else some l.openedDay
        | .erased | .unreadable => none
      closedPending := match a.label with
        | .good l => l.mark == .opened
        | .erased | .unreadable => false }
  match a.label with
  | .unreadable => { fields with state := .faulty, closeReason := none }
  | .erased => if validRecords a.slots = [] then Side.blank else fields
  | .good _ => fields

/-- Distinct RECTIFICATION records in ascending order of their numbers (R143). -/
def rectRecords (l : List SideRead) (loose : List DocRecord) : List DocRecord :=
  let rs := (l.flatMap SideRead.recs ++ loose).filter fun r => r.rect.isSome
  (rs.foldl (fun acc r => if acc.any (fun x => x.number == r.number) then acc else acc ++ [r]) []).mergeSort
    fun a b => decide (a.number ≤ b.number)

def withheldFrom (rs : List DocRecord) : List (Option Committed) :=
  (List.range Config.withheldCount).map fun i =>
    (rs[i]?).bind fun r => r.rect.map fun q => ⟨q.1, q.2, r.number⟩

/-- The final update: the tables are stored and the rebuild-in-progress flag is cleared (R182 steps 5 and 6). -/
def rebuildTables (s : State) : State :=
  let raw := sidesRead s
  let cut := settleOverlaps raw
  s.retain fun r =>
    { r with
      rebuildFlag := false
      sides := cut.foldl (fun t a => tset t a.side a.entry) r.sides
      withheld := withheldFrom (rectRecords cut (looseRecords s))
      nextDoc := ((raw.flatMap SideRead.recs ++ looseRecords s).map DocRecord.number).max?.getD 0 + 1
      labelCounter := (serialsRead s).max?.getD 0 + 1 }

def cartsRead (s : State) : Nat := (s.boot.rebuild.carts.filter fun k => k.unreadFace.isNone).length

/-- REBUILD_DONE: outcome COMPLETE 1 or HALTED 2, cartridges read, rejected, RECTIFICATION records, next document number. -/
def rebuildNotice (s : State) (outcome : Nat) : State :=
  notify s .rebuildDone none
    (be 1 outcome ++ be 1 (cartsRead s) ++ be 1 s.boot.rebuild.rejected
      ++ be 4 (rectRecords (settleOverlaps (sidesRead s)) (looseRecords s)).length ++ be 6 s.ret.nextDoc)

/-- The rebuild halts (R183): REBUILD_DONE with outcome HALTED, and the board stays in REBUILD. -/
def rebuildHalt (s : State) : State :=
  if s.mode = .rebuild ∧ s.boot.rebuild.halted = false then rebuildNotice (s.modRebuild fun r => { r with halted := true }) 2 else s

/-- Every listed cartridge has been read and every RETURN has completed (R182 step 6). -/
def rebuildEndRule (s : State) : Option State :=
  if rebuilding s && s.boot.rebuild.carts.all fun k => k.stage == .done then
    some (rebuildNotice { rebuildTables s with mode := .run } 1)
  else none

/-! ### Reading goes on -/

/-- A cartridge that waits for a drive: the next face of the first waiting one is mounted (R182 step 3). -/
def rebuildMountRule (s : State) : Option State :=
  if !rebuilding s then none
  else
    match drives4.find? (fun d => (s.drive d).state == .empty && (s.drive d).service == .inService && !transferInto s d),
        s.boot.rebuild.carts.find? (fun k => k.stage == .waiting && match k.place with
          | .drive _ => false
          | _ => true) with
    | some d, some k =>
      let s := modRebuildAt s k.place fun x => { x with stage := .busy }
      some (requestTransfer s .mount none k.place (some (.drive d)) (k.unreadFace.getD .a) none none false)
    | _, _ => none

/-- No drive is left to read the faces still unread (R183). -/
def rebuildStarved (s : State) : Bool :=
  rebuilding s && (s.boot.rebuild.carts.any fun k => k.stage == .waiting) &&
    drives4.all fun d => (s.drive d).state == .outOfService || (s.drive d).state == .faulted

def rebuildStarvedRule (s : State) : Option State := if rebuildStarved s then some (rebuildHalt s) else none

end Sys2Proof.Machine
end

