-- ==== Sys2Proof/Machine/Drives.lean ====
section
/-! DEFINITION. The Drive Channels (chapter 3): mounting, labels, directories, block operations, idle, release, faults and
service; the import finding (R41 to R43). -/

namespace Sys2Proof.Machine

/-! ### Commands of a Drive Channel -/

/-- The blocks a Drive Channel names to the data channel before it sends a command of a task: the staging blocks that receive a
burst's run (R58); those that supply a write pass and that its VERIFY compares with, the label block or document record in a
pass set of one block (R59). Labels and directories are read into the Drive Channel itself. -/
def channelFor (s : State) (task : Task) (cmd : BayCmd) : List Supply :=
  let passes : List Supply → List Supply := fun l => match cmd with
    | .write _ _ | .verify _ _ => l
    | _ => []
  match task with
  | .readBurst b => b.run.map fun c => .staging c.block
  | .writeBurst b =>
    match b.spare with
    | some (offset, _, _) => passes ((((filingBlocks s b.ref).drop offset).take 1).map .staging)
    | none =>
      match cmd with
      | .write a n | .verify a n =>
        (((filingBlocks s b.ref).drop (a - (Config.dataBase + b.start))).take n).map .staging
      | _ => []
  | .commitBurst b => passes [.record b.doc]
  | .writeLabel _ l _ => passes [.label l]
  | _ => []

/-- The bytes the data channel supplies for a named block. -/
def supplied (s : State) : Supply → List Byte
  | .staging b => readBlock s b
  | .label l => l.bytes
  | .record r => r.bytes

/-- A command of a task is queued for drive `d` as its next operation, its blocks named to the data channel (R58, R59). -/
def driveOp (s : State) (d : Nat) (task : Task) (cmd : BayCmd) : State :=
  issueDrive (s.modDrive d fun x => { x with task := task, op := none, chan := channelFor s task cmd }) d cmd

/-- SPIN_DOWN (R56, R57). -/
def beginSpinDown (s : State) (d : Nat) : State :=
  issueDrive (s.modDrive d fun x =>
    { x with state := .spinningDown, task := .spinDown, op := none, idleOn := false, spinDue := false }) d .spinDown

/-- EJECT (R57, R62, R63). -/
def beginEject (s : State) (d : Nat) (why : EjectWhy) : State := driveOp s d (.eject why) .eject

/-- SPIN_UP of a STOPPED drive: a remount (R56). -/
def beginRemount (s : State) (d : Nat) : State :=
  issueDrive (s.modDrive d fun x => { x with state := .spinningUp, task := .spinUp, op := none }) d .spinUp

/-- LOAD and then SPIN_UP (R52). -/
def beginMount (s : State) (d : Nat) : State :=
  issueDrive (issueDrive (s.modDrive d fun x => { x with state := .spinningUp, task := .spinUp, op := none }) d .load) d .spinUp

/-- A label block is erased, written and verified (R16, R20, R42); a READY drive is ACTIVE for an OPEN mark (R53). -/
def beginLabelWrite (s : State) (d : Nat) (job : LabelJob) (l : Label) : State :=
  let s := match job with
    | .opening _ => s.modDrive d fun x => if x.state = .ready then { x with state := .active, idleOn := false } else x
    | .new _ | .closing _ | .dropped => s
  driveOp s d (.writeLabel job l .erase) (.erase 0 1)

/-! ### A cartridge arrives or leaves (R52, R57) -/

/-- A transfer has set a cartridge in drive `d`: an EMPTY drive mounts it; one that is not EMPTY any more holds it for its
way home (R52, log 38). -/
def cartridgeIn (s : State) (d : Nat) (occ : Occupant) (face : Face) (mail : Option Nat) : State :=
  let held := (holderOf s d).isSome
  if (s.drive d).state = .empty then
    beginMount (s.modDrive d fun x =>
      { x with occ := occ, face := some face, fromMail := mail, chain := if held then 1 else 0, dirLoaded := false,
               found := false, label := none, serial := none }) d
  else
    s.modDrive d fun x =>
      { x with occ := occ, face := some face, fromMail := mail, ejected := true, found := false, serial := none }

/-- The changes of R57 when a transfer, or a dropped one, has taken the cartridge out of drive `d`. -/
def cartridgeOut (s : State) (d : Nat) : State :=
  s.modDrive d fun x =>
    let x := { x with occ := .empty, face := none, dir := [], ejected := false, chain := 0, dirLoaded := false,
                      chainAsk := false, spinDue := false, markTried := false, found := false, fromMail := none,
                      label := none, serial := none, toEject := false }
    match x.state, x.service with
    | .stopped, .inService => { x with state := .empty }
    | .faulted, _ => x
    | _, .leaving => { x with state := .outOfService, service := .out }
    | _, _ => x

/-! ### READY (R54, R56) -/

/-- The mount is complete: READY, last use set, idle timer started; with no item, the face looks for one (R83). -/
def enterReady (s : State) (d : Nat) : State :=
  let held := (holderOf s d).isSome
  s.modDrive d fun x =>
    { x with state := .ready, task := .idle, op := none, dirLoaded := true, lastUse := s.elapsed, readySince := s.elapsed,
             idleOn := true, chainAsk := !held || x.chainAsk }

/-- R5's Directory Copy from the slots read: valid records in the side's range, one per number, in slot order. -/
def directoryCopy (e : Side) (got : List (Nat × SlotRead)) : List DocRecord :=
  (validRecords got).filter fun r => match e.first, e.last with
    | some a, some b => decide (a ≤ r.number ∧ r.number ≤ b)
    | _, _ => false

/-- The directory read has ended (R54, R182). -/
def directoryDone (s : State) (d : Nat) (got : List (Nat × SlotRead)) : State :=
  let e := match (s.drive d).side with
    | some n => s.side n
    | none => Side.blank
  let s := enterReady (s.modDrive d fun x => { x with dir := directoryCopy e got }) d
  if rebuilding s then rebuildFaceDone s d got else s

/-- READ of directory slots `next` to `last`; none where there is nothing to read (R54). -/
def readDirectory (s : State) (d next last : Nat) (got : List (Nat × SlotRead)) : State :=
  if last < next then directoryDone s d got
  else driveOp s d (.readDir next last got) (.read next (last + 1 - next))

/-- After the label: the directory, unless the Directory Copy was kept (R54, R56). -/
def afterMark (s : State) (d : Nat) : State :=
  if (s.drive d).dirLoaded then enterReady s d
  else
    match (s.drive d).side with
    | some n => readDirectory s d 1 (s.side n).slotsUsed []
    | none => enterReady s d

/-! ### Marks (R16, R20) -/

/-- The CLOSED mark carries forward what the OPEN mark gave (R4, R20). -/
def closedLabel (s : State) (d n : Nat) : Label :=
  let e := s.side n
  let old := match (s.drive d).label with
    | some (.good l) => some l
    | _ => none
  ⟨((s.cart (sideCart n)).map Cart.label).getD 0, sideFace n, .closed,
    (old.map Label.firstToBe).getD (e.first.getD 0), (old.map Label.openedDay).getD (e.openedDay.getD 0), e.closeReason,
    e.last, e.count⟩

/-- The BLANK side in drive `d` that its FILE item is to open (R53), no side being OPEN (R12). -/
def openingOn (s : State) (d : Nat) : Option Nat :=
  match holderOf s d, (s.drive d).side with
  | some i, some n => if i.kind = .file ∧ i.side = some n ∧ (s.side n).state = .blank ∧ anyOpened s = false then some n else none
  | _, _ => none

/-- The label has passed: a pending closed mark, or an OPEN mark, then the directory (R53). -/
def labelPassed (s : State) (d : Nat) : State :=
  match markDue s d, openingOn s d with
  | some n, _ => beginLabelWrite s d (.closing n) (closedLabel s d n)
  | none, some n => beginLabelWrite s d (.opening n) (openLabel s n)
  | none, none => afterMark s d

/-! ### The import finding (R41 to R43) -/

def importedFields (mail c l home finding : Nat) : List Byte := be 1 mail ++ be 1 c ++ be 4 l ++ be 1 home ++ be 1 finding

/-- IMPORT_REJECTED: mail slot, label where one was read, reason (R43). -/
def importRejected (s : State) (mail label : Option Nat) (why : RejectReason) : State :=
  notify s .importRejected none (optNum 1 mail ++ optNum 4 label ++ be 1 why.code)

/-- The INSPECT item of the cartridge in drive `d` ends at the finding. -/
def endInspect (s : State) (d : Nat) : State := endItemOpt s (inspectItemOn s d)

/-- A rejected cartridge is released, and a REJECT requested (R43). -/
def rejectFinding (s : State) (d : Nat) (label : Option Nat) (why : RejectReason) : State :=
  let s := importRejected (endInspect s d) (s.drive d).fromMail label why
  let s := s.modDrive d fun x => { x with found := true, chainAsk := false }
  let s := if transferFrom s d then s else requestTransfer s .reject none (.drive d) none .a none none false
  beginSpinDown s d

/-- A recorded cartridge's import is complete: the record is the drive's occupant, and IMPORTED is reported (R41). -/
def acceptFinding (s : State) (d c l home finding : Nat) : State :=
  let mail := ((s.drive d).fromMail).getD 0
  let s := s.modDrive d fun x => { x with occ := .record c, found := true, task := .idle }
  notify (endInspect s d) .imported none (importedFields mail c l home finding)

/-- A WITHDRAWN or MISSING record comes back (R41). -/
def recordBack (s : State) (d c : Nat) (k : Cart) (home finding : Nat) : State :=
  let s := s.setCart c (some { k with state := .inLibrary, home := some home })
  labelPassed (acceptFinding s d c k.label home finding) d

/-- A factory-blank cartridge: its serial is claimed and its NEW mark written (R41, R42). -/
def labelNew (s : State) (d : Nat) : State :=
  match lowestFreeRecord s, lowestFreeSlot s with
  | none, _ => rejectFinding s d none .tableFull
  | some _, none => rejectFinding s d none .noSlot
  | some c, some _ =>
    let l := s.ret.labelCounter
    if Config.labelEnd ≤ l then rejectFinding s d none .noLabel
    else
      beginLabelWrite (s.retain fun r => { r with labelCounter := l + 1 }) d (.new c) ⟨l, .a, .new, 0, 0, none, none, 0⟩

/-- A NEW mark is being written: its finding has not ended (R42). -/
def newUnderWay (s : State) : Bool :=
  s.drives.any fun x => match x.task with
    | .writeLabel (.new _) _ _ => true
    | _ => false

/-- The finding from face A's label (R41). -/
def importFinding (s : State) (d : Nat) (r : LabelRead) : State :=
  match r with
  | .erased => labelNew s d
  | .unreadable => rejectFinding s d none .unknown
  | .good l =>
    match recordOfLabel s l.serial with
    | none => rejectFinding s d (some l.serial) .unknown
    | some c =>
      match s.cart c with
      | none => rejectFinding s d (some l.serial) .unknown
      | some k =>
        if l.face = .b then rejectFinding s d (some l.serial) .unknown
        else
          match k.state with
          | .inLibrary => rejectFinding s d (some l.serial) .duplicate
          | .missing => recordBack s d c k (k.home.getD 0) 3
          | .withdrawn =>
            match lowestFreeSlot s with
            | some h => recordBack s d c k h 2
            | none => rejectFinding s d (some l.serial) .noSlot

/-- Findings are made one at a time (R42): one whose label is read during another's NEW mark waits (log 48). -/
def findOrWait (s : State) (d : Nat) (r : LabelRead) : State :=
  if newUnderWay s then s.modDrive d fun x => { x with task := .finding r } else importFinding s d r

/-- The waiting finding of the lowest-numbered drive is made once no NEW mark is being written (log 48). -/
def findingRule (s : State) : Option State :=
  if newUnderWay s then none
  else drives4.findSome? fun d => match (s.drive d).task with
    | .finding r => some (importFinding s d r)
    | _ => none

/-- Index `c` of the Cartridge Table is free. -/
def recordFree (s : State) (c : Nat) : Bool := decide (1 ≤ c ∧ c ≤ s.ret.carts.length) && (s.cart c).isNone

/-- The NEW mark verified: the record, whose index was kept free for it, is completed, or no slot is left for it (R42); no
label was read from its face (R43). -/
def newVerified (s : State) (d c : Nat) (l : Label) : State :=
  match lowestFreeSlot s, recordFree s c with
  | some h, true =>
    let s := s.retain fun r =>
      { r with
        carts := tset r.carts c (some ⟨l.serial, .inLibrary, some h⟩)
        sides := tset (tset r.sides (sideOf c .a) Side.blank) (sideOf c .b) Side.blank }
    enterReady ((acceptFinding s d c l.serial h 1).modDrive d fun x => { x with dir := [] }) d
  | _, _ => rejectFinding s d none .noSlot

/-! ### The label read (R53) -/

/-- The label passes for a side (R53). DESIGN CHOICE (log 63): a side that was BLANK and is marked FAULTY while its drive is
SPINNING_UP is checked as one not BLANK, so that its erased label fails. -/
def labelPasses (s : State) (n : Nat) (r : LabelRead) : Bool :=
  (s.side n).state == .blank ||
    (match r with
     | .good l => some l.serial == (s.cart (sideCart n)).map Cart.label && l.face == sideFace n && l.mark != .new
     | .erased => false
     | .unreadable => false)

/-- The label fails: MEDIA_ERROR, the Label-Failed List, the cartridge home, its work ended (R53). -/
def labelFail (s : State) (d n : Nat) : State :=
  let s := mediaErrorLabel s n
  let s := { s with labelFailed := if s.labelFailed.contains n then s.labelFailed else s.labelFailed ++ [n] }
  let s := s.modDrive d fun x => { x with chainAsk := false }
  let s := if transferFrom s d then s else requestHome s (s.drive d).occ (.drive d) none false
  beginSpinDown (endLabelFailedWork s n) d

/-- A rebuild keeps the label as read and reads every slot (R182). -/
def rebuildLabel (s : State) (d : Nat) (r : LabelRead) : State :=
  let seen := (s.boot.driveSeen.find? fun e => e.1 == d).bind Prod.snd
  let face := (s.drive d).face.getD (match r with
    | .good l => l.face
    | .erased | .unreadable => (seen.map Prod.snd).getD .a)
  let s := s.modDrive d fun x => { x with face := some face }
  readDirectory s d 1 Config.directorySlots []

/-- The label block has been read (R53). A halted rebuild makes no finding and reads no further (R183). -/
def labelRead (s : State) (d : Nat) (r : LabelRead) : State :=
  let s := s.modDrive d fun x =>
    { x with markTried := false, label := some r, serial := match r with
        | .good l => some l.serial
        | .erased | .unreadable => x.serial }
  if s.mode = .rebuild then (if rebuilding s then rebuildLabel s d r else enterReady s d)
  else
    match (s.drive d).side with
    | none => findOrWait s d r
    | some n => if labelPasses s n r then labelPassed s d else labelFail s d n

/-! ### Label writes end -/

/-- The mount, or the READY drive, goes on after a label write. -/
def afterLabelWrite (s : State) (d : Nat) : State :=
  match (s.drive d).state with
  | .spinningUp => afterMark s d
  | .active =>
    s.modDrive d fun x =>
      { x with state := .ready, task := .idle, op := none, lastUse := s.elapsed, readySince := s.elapsed, idleOn := true }
  | _ => s.modDrive d fun x => { x with task := .idle, op := none }

/-- The label write's VERIFY has ended: `ok` where the block verified (R16, R17, R20, R42). A side is opened only while none
is OPEN (R12). -/
def labelWritten (s : State) (d : Nat) (job : LabelJob) (l : Label) (ok : Bool) : State :=
  let s := if ok then s.modDrive d fun x => { x with label := some (.good l) } else s
  match job with
  | .new c => if ok then newVerified s d c l else rejectFinding s d none .labelWrite
  | .closing n =>
    let s := s.modDrive d fun x => { x with markTried := true }
    let s :=
      if (s.side n).closedPending = false then s
      else if ok then s.setSide n { s.side n with closedPending := false }
      else mediaErrorLabel s n
    match (s.drive d).state, openingOn s d with
    | .spinningUp, some m => beginLabelWrite s d (.opening m) (openLabel s m)
    | _, _ => afterLabelWrite s d
  | .dropped => afterLabelWrite s d
  | .opening n =>
    if (s.side n).state ≠ .blank ∨ sideAssigned s n = false ∨ anyOpened s then afterLabelWrite s d
    else if ok then afterLabelWrite (sideOpened s n l) d
    else
      let ref := ((s.filings.find? fun f => f.target == some n).map Filing.ref)
      let s := afterLabelWrite (openMarkFailed s n) d
      match ref with
      | some r => recheckChosen s r
      | none => s

/-! ### Read bursts (R58, R60) -/

/-- The next READ of a burst: the run left, or the next run of consecutive side addresses. -/
def nextRead (b : ReadBurst) : Option ReadBurst :=
  match b.run, b.rest with
  | [], [] => none
  | [], c :: cs =>
    let n := runLength c.addr (c :: cs)
    some { b with run := (c :: cs).take n, rest := (c :: cs).drop n }
  | _ :: _, _ => some b

def runStart (b : ReadBurst) : Nat := (b.run.head?.map ReadCell.addr).getD 0

def sendRead (s : State) (d : Nat) (b : ReadBurst) : State :=
  driveOp s d (.readBurst b) (.read (runStart b) b.run.length)

/-- What a block read puts into staging: the bytes the drive delivered (R58, log 7). -/
def filling (b : BlockIn) : List Byte :=
  match b with
  | .data bytes | .erased bytes => bytes

/-- The blocks the data channel delivered go into the staging blocks named for them (R58). -/
def deliver (s : State) : List ReadCell → List BlockIn → State
  | c :: cs, b :: bs => deliver (writeBlock s c.block (filling b)) cs bs
  | _, _ => s

/-- How many blocks of what is left of a run a status reports as sent: up to a failed block; as many as a short count exceeds
those already taken; all when complete; those it brought while the READ runs or where it failed without an address. -/
def cellsSent (b : ReadBurst) (st : DriveStatus) : Nat :=
  match st.result with
  | .failedBlock a => (b.run.filter fun c => decide (c.addr < a)).length
  | .short n => n - b.sent
  | .complete => b.run.length
  | .running | .failed => st.blocks.length

/-- A run after `n` more of its blocks have been sent. -/
def ReadBurst.advance (b : ReadBurst) (n : Nat) : ReadBurst := { b with run := b.run.drop n, sent := b.sent + n }

/-- The blocks sent since the last status are in staging, and the run goes on behind them (R58). -/
def takeSent (s : State) (b : ReadBurst) (st : DriveStatus) : State × ReadBurst :=
  let n := cellsSent b st
  (deliver s (b.run.take n) st.blocks, b.advance n)

/-- What a finished READ leaves of its run, behind the blocks sent, and the block marked unreadable (R58). DESIGN CHOICE (log
47): where it failed without a block address, that is the first block not sent. -/
def afterRead (b : ReadBurst) (r : OpResult) : ReadBurst :=
  match r with
  | .failedBlock a =>
    match b.run.find? fun c => c.addr == a with
    | some c => { b with run := b.run.filter (fun x => decide (a < x.addr)), sent := 0, bad := b.bad ++ [(c.page, a)] }
    | none => { b with run := [], sent := 0 }
  | .short _ => { b with sent := 0 }
  | .failed =>
    match b.run with
    | c :: cs => { b with run := cs, sent := 0, bad := b.bad ++ [(c.page, c.addr)] }
    | [] => { b with sent := 0 }
  | .complete | .running => { b with run := [], sent := 0 }

/-- A READ of a burst has ended (R58). -/
def readTaken (s : State) (d : Nat) (b : ReadBurst) (st : DriveStatus) : State :=
  let (s, b) := takeSent s b st
  let b := afterRead b st.result
  match nextRead b with
  | some b => sendRead s d b
  | none => endBurst s d b.item (.readBurst b) fun s i => readBurstEnd s i b

/-! ### Write bursts (R59, R119) -/

def spareAddr (k : Nat) : Nat := Config.spareBase + k
def WriteBurst.addr (b : WriteBurst) (offset : Nat) : Nat := Config.dataBase + b.start + offset

/-- VERIFY goes on from the next offset, or the pass set ends (R59). -/
def verifyOn (s : State) (d : Nat) (b : WriteBurst) : State :=
  if b.next < b.hi then driveOp s d (.writeBurst b) (.verify (b.addr b.next) (b.hi - b.next))
  else endBurst s d b.item (.writeBurst b) fun s _ => writeBurstEnd s b

/-- An offset did not verify: it is rewritten to the next spare, or a relocation is noted (R119). -/
def remapOffset (s : State) (d : Nat) (b : WriteBurst) (offset : Nat) : State :=
  match takeSpare s b.ref b.side with
  | some (k, s) =>
    driveOp s d (.writeBurst { b with next := offset, spare := some (offset, k, .erase) }) (.erase (spareAddr k) 1)
  | none =>
    verifyOn s d { b with next := offset + 1, spare := none, relocate := some (b.relocate.getD offset) }

/-- A pass over a spare block has ended (R119); one whose VERIFY does not succeed is dead (R6). -/
def spareTaken (s : State) (d : Nat) (b : WriteBurst) (offset k : Nat) (p : Pass) (r : OpResult) : State :=
  match p with
  | .erase => driveOp s d (.writeBurst { b with spare := some (offset, k, .write) }) (.write (spareAddr k) 1)
  | .write => driveOp s d (.writeBurst { b with spare := some (offset, k, .verify) }) (.verify (spareAddr k) 1)
  | .verify =>
    match r with
    | .complete => verifyOn (addRemap s b.ref offset k) d { b with next := offset + 1, spare := none }
    | _ => remapOffset s d b offset

/-- A pass of a write burst has ended (R59). DESIGN CHOICE (log 47): a VERIFY that failed without a block address failed at the
first block not yet verified, and one that ended short goes on behind the blocks it counts. -/
def writeTaken (s : State) (d : Nat) (b : WriteBurst) (r : OpResult) : State :=
  match b.spare with
  | some (offset, k, p) => spareTaken s d b offset k p r
  | none =>
    match b.pass with
    | .erase => driveOp s d (.writeBurst { b with pass := .write }) (.write (b.addr b.lo) (b.hi - b.lo))
    | .write => driveOp s d (.writeBurst { b with pass := .verify }) (.verify (b.addr b.lo) (b.hi - b.lo))
    | .verify =>
      match r with
      | .failedBlock a => remapOffset s d b (a - (Config.dataBase + b.start))
      | .failed => remapOffset s d b b.next
      | .short n => verifyOn s d { b with next := b.next + n }
      | .complete | .running => verifyOn s d { b with next := b.hi }

/-! ### Commit bursts (R123, R124) -/

def sendCommit (s : State) (d : Nat) (b : CommitBurst) : State :=
  driveOp s d (.commitBurst b) (match b.pass with
    | .erase => .erase b.slot 1
    | .write => .write b.slot 1
    | .verify => .verify b.slot 1)

/-- A pass of a commit burst has ended; a slot whose VERIFY does not succeed is dead (R5). A document is committed
only to the OPEN side (R2). -/
def commitTaken (s : State) (d : Nat) (b : CommitBurst) (r : OpResult) : State :=
  match b.pass with
  | .erase => sendCommit s d { b with pass := .write }
  | .write => sendCommit s d { b with pass := .verify }
  | .verify =>
    match r with
    | .complete =>
      endBurst s d b.item (.commitBurst b) fun s _ =>
        if (s.side b.side).state = .opened then (commitFiling s d b, .nothing)
        else relocateFiling s b.ref b.side .directory
    | _ =>
      match commitSlotFailed s b with
      | (s, some b) => sendCommit s d b
      | (s, none) => endBurst s d b.item (.commitBurst b) fun s _ => relocateFiling s b.ref b.side .directory

/-! ### Faults (R63, R64) -/

/-- How DRIVE_FAULT tells the cartridge: 0 none, 1 ejected, 2 stuck. -/
def faultCartridge (x : Drive) : Nat := if x.occ = .empty then 0 else if x.ejected then 1 else 2

def occupantLabel (s : State) (o : Occupant) : Option Nat :=
  match o with
  | .record c => (s.cart c).map Cart.label
  | .empty | .unrecorded => none

/-- DRIVE_FAULT: drive, reason, cartridge label, face, ejected or stuck (R64). -/
def driveFaultNotice (s : State) (d : Nat) : State :=
  let x := s.drive d
  notify s .driveFault none
    (be 1 d ++ optNum 1 (x.fault.map DriveFault.code) ++ optNum 4 (occupantLabel s x.occ) ++ optNum 1 (x.face.map faceCode)
      ++ be 1 (faultCartridge x))

/-- The burst's outcome goes to its owner at a fault (R64); an ended item's is discarded (R75). -/
def faultBurst (s : State) (t : Task) : State :=
  match t with
  | .readBurst b =>
    match s.findItem b.item with
    | some i => if i.ended then dropClaim s b.claim else readBurstFault s i b
    | none => dropClaim s b.claim
  | .writeBurst b => writeBurstFault s b
  | .commitBurst b => commitBurstFault s b
  | _ => s

/-- The filing whose BLANK side drive `d` was mounting or labelling for it loses that side at a fault (R17), its item being
back in waiting already (R61). -/
def loseOpening (s : State) (d : Nat) : State :=
  let x := s.drive d
  match x.side with
  | some n => if (s.side n).state = .blank ∧ (x.state = .spinningUp ∨ x.task.openingSide = some n) then loseTarget s n else s
  | none => s

/-- The item that holds a faulting drive: removed where its owner has ended it; its import ended where its cartridge was
not yet read; else returned to waiting, a side chosen for opening being given up (R17, R40, R64, R92). -/
def faultHolder (s : State) (d : Nat) : State :=
  match holderOf s d with
  | none => loseOpening s d
  | some i =>
    if i.ended then finishItem s i.id
    else if i.kind = .inspect ∧ (s.drive d).occ = .unrecorded then endItem s i.id
    else
      let s := match i.filing, i.side with
        | some r, some n => if (s.side n).state = .blank then loseChosen s r else s
        | _, _ => s
      returnItem s i.id

/-- The INSPECT item of a cartridge in a faulting drive that had gone back to WAITING ends too (R40, R92). -/
def faultInspect (s : State) (d : Nat) : State :=
  if (s.drive d).occ = .unrecorded then endItemOpt s (inspectItemOn s d) else s

/-- An import whose finding was not made ends with reason DRIVE (R40, R42), its label told where one was read (R43). -/
def faultImport (s : State) (d : Nat) : State :=
  let x := s.drive d
  if x.occ = .unrecorded ∧ x.found = false ∧ x.fromMail.isSome ∧ ¬rebuilding s then
    (importRejected s x.fromMail x.serial .drive).modDrive d fun y => { y with found := true }
  else s

/-- Mounts into a drive that leaves service or faults leave the queue, but for the one that holds the arm (R34). -/
def dropMountsInto (s : State) (d : Nat) : State :=
  let granted := s.picker.arm.map Arm.xfer
  let keep : Transfer → Bool := fun t =>
    !(t.dst == some (.drive d) && (t.kind == .mount || t.kind == .importTake) && granted != some t.id)
  let dropped := (allTransfers s).filter fun t => !keep t
  let s := s.modPicker fun p => { p with queue := p.queue.filter keep, deferred := p.deferred.filter keep }
  dropped.foldl (fun s t => modRebuildAt s t.src fun k => { k with stage := .waiting }) s

/-- A drive goes FAULTED (R63); one already FAULTED or OUT_OF_SERVICE takes it as status only. -/
def driveFault (s : State) (d : Nat) (why : DriveFault) : State :=
  let x := s.drive d
  if x.state = .faulted ∨ x.state = .outOfService then s
  else
    let s := dropQueued s (driveAddr d)
    let s := faultBurst s x.task
    let s := faultImport (faultInspect (faultHolder s d) d) d
    let s := dropMountsInto s d
    let s := s.modDrive d fun y =>
      { y with state := .faulted, task := .idle, op := none, idleOn := false, spinLimit := false, fault := some why,
               service := if y.service = .leaving then .inService else y.service, chainAsk := false, spinDue := false,
               toEject := false, chan := [] }
    if x.occ ≠ .empty ∧ x.ejected = false then beginEject s d .fault else driveFaultNotice s d

def Task.ejecting : Task → Bool
  | .eject _ => true
  | _ => false

/-- The EJECT of a fault has failed: the cartridge is stuck, and the work on its sides ends; a rebuild halts (R64, R183). -/
def faultStuck (s : State) (d : Nat) : State :=
  let s := driveFaultNotice (s.modDrive d fun x => { x with task := .idle, op := none }) d
  let s := match (s.drive d).occ with
    | .record c => endCartWork s c
    | .empty | .unrecorded => s
  rebuildHalt s

/-- An EJECT of drive `d` is queued, on the bus or running. -/
def ejectOut (s : State) (d : Nat) : Bool :=
  (s.drive d).op == some .eject || (s.bay.queue.any fun e => e.module == driveAddr d && e.cmd == .eject) ||
    s.bay.bus.any fun e => e.1.module == driveAddr d && e.1.cmd == .eject

/-- A drive goes FAULTED because its STATUS or its EJECT failed under DRIVE_SERVICE IN (R62). The commands queued for it go with
a failure on the bus (R66); an EJECT still under way keeps its outcome (R64). DESIGN CHOICE (log 62): the service state of a
drive that was OUT_OF_SERVICE becomes IN. -/
def serviceFault (s : State) (d : Nat) (why : DriveFault) : State :=
  let s := if why = .bus ∧ (s.drive d).state ≠ .faulted then dropQueued s (driveAddr d) else s
  let keep := (s.drive d).task.ejecting && ejectOut s d
  driveFaultNotice (s.modDrive d fun x =>
    { x with state := .faulted, task := if keep then x.task else .idle, op := if keep then x.op else none, fault := some why,
             service := .inService }) d

/-! ### EJECT ends (R57, R62, R64) -/

def ejectDone (s : State) (d : Nat) (why : EjectWhy) : State :=
  let s := s.modDrive d fun x => { x with task := .idle, op := none, ejected := true, toEject := false }
  match why with
  | .release => s
  | .fault => driveFaultNotice s d
  | .service =>
    let s := s.modDrive d fun x =>
      { x with state := if x.occ = .empty then .empty else .stopped, ejected := decide (x.occ ≠ .empty),
               service := .inService, fault := none }
    if returnFrom s d || exportLeaving s d then s
    else requestHome s (s.drive d).occ (.drive d) (if (s.drive d).found then none else some .drive) false

def ejectFailed (s : State) (d : Nat) (why : EjectWhy) (reason : DriveFault) : State :=
  match why with
  | .release => driveFault s d reason
  | .fault => faultStuck s d
  | .service => serviceFault s d reason

/-! ### A drive's status (R51, R52, R62, R67) -/

/-- The directory slots a status of their READ brought, from slot `next` on. -/
def slotsSent (next : Nat) (st : DriveStatus) : List (Nat × SlotRead) :=
  (st.blocks.zip (List.range st.blocks.length)).map fun e => (next + e.2, readSlotBlock e.1)

/-- The operation last taken has ended; what it was part of goes on. DESIGN CHOICE (log 47): a directory READ that failed without
a block address leaves the first slot not sent dead, one that ended short goes on from it. A side that has become FAULTY is not
written any further for its closed mark (R11, R20). -/
def opEnded (s : State) (d : Nat) (k : DriveOpKind) (st : DriveStatus) : State :=
  let x := s.drive d
  let s := s.modDrive d fun y => { y with op := none, chan := [] }
  match x.task, k with
  | .spinUp, .load => if st.result = .failed then driveFault s d .hardware else s
  | .spinUp, .spinUp =>
    let s := s.modDrive d fun y => { y with spinLimit := false }
    if st.result = .failed then driveFault s d .hardware else driveOp s d (.readLabel none) (.read 0 1)
  | .spinDown, .spinDown =>
    if st.result = .failed then driveFault s d .hardware
    else s.modDrive d fun y => { y with state := .stopped, task := .idle }
  | .eject why, .eject => if st.result = .failed then ejectFailed s d why .hardware else ejectDone s d why
  | .readLabel kept, .read =>
    labelRead s d (match st.result, kept.orElse fun _ => st.blocks.head? with
      | .complete, some b => readLabelBlock b
      | _, _ => .unreadable)
  | .readDir next last got, .read =>
    let got := got ++ (slotsSent next st).filter fun e => decide (e.1 ≤ last)
    let reached := next + st.blocks.length
    match st.result with
    | .failedBlock a => readDirectory s d (a + 1) last ((got.filter fun e => decide (e.1 < a)) ++ [(a, .dead)])
    | .failed => if reached ≤ last then readDirectory s d (reached + 1) last (got ++ [(reached, .dead)]) else directoryDone s d got
    | .short _ => readDirectory s d reached last got
    | .complete | .running => directoryDone s d got
  | .writeLabel (.closing n) l .erase, .erase =>
    if (s.side n).closedPending then driveOp s d (.writeLabel (.closing n) l .write) (.write 0 1)
    else labelWritten s d (.closing n) l false
  | .writeLabel (.closing n) l .write, .write =>
    if (s.side n).closedPending then driveOp s d (.writeLabel (.closing n) l .verify) (.verify 0 1)
    else labelWritten s d (.closing n) l false
  | .writeLabel job l .erase, .erase => driveOp s d (.writeLabel job l .write) (.write 0 1)
  | .writeLabel job l .write, .write => driveOp s d (.writeLabel job l .verify) (.verify 0 1)
  | .writeLabel job l .verify, .verify =>
    labelWritten s d job l (match st.result with
      | .complete => true
      | _ => false)
  | .readBurst b, .read => readTaken s d b st
  | .writeBurst b, _ => writeTaken s d b st.result
  | .commitBurst b, _ => commitTaken s d b st.result
  | .stopBurst, _ =>
    s.modDrive d fun y =>
      { y with state := .ready, task := .idle, lastUse := s.elapsed, readySince := s.elapsed, idleOn := true,
               chainAsk := true }
  | _, _ => s

/-- The STATUS of DRIVE_SERVICE IN has answered (R62). DESIGN CHOICE (log 50): where it finds empty a drive that is a record's
place, the record stays IN_LIBRARY at no place. -/
def serviceStatus (s : State) (d : Nat) (st : DriveStatus) : State :=
  if !st.loaded then
    (cartridgeOut s d).modDrive d fun x => { x with state := .empty, service := .inService, fault := none, task := .idle }
  else if st.ejected ∧ (returnFrom s d ∨ (s.drive d).ejected) then
    s.modDrive d fun x => { x with state := .stopped, ejected := true, service := .inService, fault := none }
  else beginEject (s.modDrive d fun x => { x with occ := if x.occ = .empty then .unrecorded else x.occ }) d .service

/-- A drive found at the inventory (R51): loaded drives stop their disc and are to be ejected; in a rebuild they are read where
they are. A drive already FAULTED stays so. -/
def inventoryStatus (s : State) (d : Nat) (st : DriveStatus) : State :=
  let seen := if st.loaded then st.label else none
  let s := s.modBoot fun b => { b with driveSeen := b.driveSeen ++ [(d, seen)] }
  let s := s.modDrive d fun x => { x with task := .idle }
  let faulted := decide ((s.drive d).state = .faulted)
  let s :=
    if !st.loaded then s.modDrive d fun x => { x with state := if faulted then .faulted else .empty }
    else
      let s := s.modDrive d fun x =>
        { x with occ := .unrecorded, ejected := st.ejected, face := st.label.map Prod.snd, serial := st.label.map Prod.fst,
                 toEject := !st.ejected && !faulted && s.mode != .rebuild,
                 state := if faulted then .faulted else .stopped }
      if st.spinning && !faulted then beginSpinDown s d else s
  if st.moduleFault then driveFault s d .hardware else s

/-- What a status tells of an operation beside its end: blocks sent so far, and blocks verified (R58, R59, R64). -/
def takeProgress (s : State) (d : Nat) (k : DriveOpKind) (st : DriveStatus) : State :=
  let put : Task → State → State := fun t s => s.modDrive d fun x => { x with task := t }
  match (s.drive d).task, k with
  | .readLabel kept, .read => put (.readLabel (kept.orElse fun _ => st.blocks.head?)) s
  | .readDir next last got, .read =>
    put (.readDir (next + st.blocks.length) last (got ++ (slotsSent next st).filter fun e => decide (e.1 ≤ last))) s
  | .readBurst b, .read => put (.readBurst (takeSent s b st).2) (takeSent s b st).1
  | .writeBurst b, .verify =>
    match b.spare, st.result with
    | some (offset, k, _), .complete =>
      put (.writeBurst { b with next := offset + 1, spare := none }) (addRemap s b.ref offset k)
    | none, .failedBlock a => put (.writeBurst { b with next := a - (Config.dataBase + b.start) }) s
    | none, .short n => put (.writeBurst { b with next := b.next + n }) s
    | none, .complete => put (.writeBurst { b with next := b.hi }) s
    | _, _ => s
  | _, _ => s

/-- The status reports on the operation last taken (R67, log 23). -/
def reportedOp (s : State) (d : Nat) (st : DriveStatus) : Option DriveOpKind :=
  (s.drive d).op.filter fun k => st.op == some k

/-- A status is taken as the completion of the operation last taken, or as its progress while it runs. -/
def takeCompletion (s : State) (d : Nat) (st : DriveStatus) : State :=
  match reportedOp s d st with
  | some k => if st.result = .running then takeProgress s d k st else opEnded s d k st
  | none => s

/-- A module fault: what the status reports as sent or verified counts as done before it (R64). DESIGN CHOICE (log 68): a commit's
VERIFY that the same status reports complete is not taken, and R125 applies. -/
def moduleFault (s : State) (d : Nat) (st : DriveStatus) : State :=
  let s := match reportedOp s d st with
    | some k => takeProgress s d k st
    | none => s
  driveFault s d .hardware

/-- A drive's status is taken (R67). One asked by DRIVE_SERVICE IN while an EJECT still runs is asked again (log 43). -/
def driveStatusOp (s : State) (d : Nat) (st : DriveStatus) (why : Why) : State :=
  let x := s.drive d
  if why = .inventory then inventoryStatus s d st
  else if st.moduleFault ∧ x.state ≠ .faulted ∧ x.state ≠ .outOfService then moduleFault s d st
  else
    let s := takeCompletion s d st
    if why ≠ .service ∨ ((s.drive d).state ≠ .faulted ∧ (s.drive d).state ≠ .outOfService) then s
    else if (s.drive d).task.ejecting then issue s (driveAddr d) .status .service
    else serviceStatus s d st

/-! ### A drive's commands on the Bay Link (R52, R66) -/

def BayCmd.opKind : BayCmd → Option DriveOpKind
  | .load => some .load
  | .spinUp => some .spinUp
  | .spinDown => some .spinDown
  | .eject => some .eject
  | .read _ _ => some .read
  | .erase _ _ => some .erase
  | .write _ _ => some .write
  | .verify _ _ => some .verify
  | _ => none

def BayCmd.start : BayCmd → Nat
  | .read a _ | .erase a _ | .write a _ | .verify a _ => a
  | _ => 0

def BayCmd.count : BayCmd → Nat
  | .read _ n | .erase _ n | .write _ n | .verify _ n => n
  | _ => 0

/-- Drive `d` has taken a command: its operation runs; the spin-up limit starts at SPIN_UP (R52, R65). -/
def driveCommandTaken (s : State) (d : Nat) (cmd : BayCmd) : State :=
  s.modDrive d fun x =>
    { x with op := cmd.opKind, opStart := cmd.start, opCount := cmd.count,
             spinLimit := if cmd = .spinUp then true else x.spinLimit }

/-- A command to drive `d` has failed after its tries (R62, R64, R66); a STATUS of DRIVE_SERVICE IN that fails once the drive is
back in service faults it as any other command. -/
def driveCommandFailed (s : State) (d : Nat) (e : BayEntry) : State :=
  let x := s.drive d
  match e.why, x.task with
  | .inventory, _ =>
    driveFaultNotice (s.modDrive d fun y =>
      { y with state := .outOfService, service := .out, fault := some .noAnswer, task := .idle }) d
  | .service, _ => if x.state = .faulted ∨ x.state = .outOfService then serviceFault s d .bus else driveFault s d .bus
  | _, .eject why => if e.cmd = .eject then ejectFailed s d why .bus else driveFault s d .bus
  | _, _ => driveFault s d .bus

/-! ### Timers (R52, R56) -/

/-- The spin-up limit of drive `d` is taken. -/
def spinUpTimeoutOp (s : State) (d : Nat) : State :=
  if (s.drive d).spinLimit then driveFault s d .spinUp else s

/-- A READY drive spins down, or once its closed mark is written (R20, R56, log 22). -/
def spinDownNow (s : State) (d : Nat) : State :=
  if (s.drive d).task = .idle ∧ markDue s d = none then beginSpinDown s d
  else s.modDrive d fun x => { x with spinDue := true }

/-- The idle timer of drive `d` expires. -/
def idleTimeoutOp (s : State) (d : Nat) : State :=
  if (s.drive d).state = .ready ∧ (s.drive d).idleOn then spinDownNow s d else s

/-! ### DRIVE_SERVICE (R61, R62) -/

/-- Items assigned to a drive that leaves service return to waiting (R61, R92); an INSPECT item whose cartridge is in the drive
keeps its name (log 15). -/
def returnAssigned (s : State) (d : Nat) : State :=
  match holderOf s d with
  | none => s
  | some i =>
    if i.state = .active then s
    else if i.kind = .inspect ∧ (s.drive d).occ = .unrecorded then
      (returnItem s i.id).modItem i.id fun x => { x with inDrive := some d }
    else returnItem s i.id

def driveServiceOut (s : State) (d : Nat) : Answer :=
  let x := s.drive d
  let out : State → State := fun s => s.modDrive d fun y => { y with service := .out, state := .outOfService }
  if x.service ≠ .inService then done s s []
  else
    match x.state with
    | .empty => done s (out (dropMountsInto (returnAssigned s d) d)) []
    | .faulted => if x.occ = .empty then done s (out s) [] else refuse s .busy []
    | .outOfService => done s s []
    | _ => accepted s (returnAssigned (s.modDrive d fun y => { y with service := .leaving }) d) []

def driveServiceIn (s : State) (d : Nat) : Answer :=
  let x := s.drive d
  if x.service = .leaving then refuse s .busy []
  else if x.state = .outOfService ∨ x.state = .faulted then
    accepted s (issue s (driveAddr d) .status .service) []
  else done s s []

/-- DRIVE_SERVICE with its drive and direction, OUT 1 or IN 2 (log 10). -/
def driveServiceOp (s : State) (body : List Byte) : Answer :=
  let d := numAt body 0 1
  let dir := numAt body 1 1
  if ¬(1 ≤ d ∧ d ≤ 4 ∧ (dir = 1 ∨ dir = 2)) then refuse s .badField []
  else if dir = 1 then driveServiceOut s d else driveServiceIn s d

/-! ### Duties a drive takes up on its own -/

def findDrive (p : Nat → Bool) : Option Nat := drives4.find? p

/-- A pending closed mark in a READY drive (R20, log 22). -/
def closedMarkRule (s : State) : Option State :=
  (findDrive fun d => (s.drive d).state == .ready && (s.drive d).task == .idle && (markDue s d).isSome).bind fun d =>
    (markDue s d).map fun n => beginLabelWrite s d (.closing n) (closedLabel s d n)

/-- A spin-down that waited for the mark, and every READY drive in REST (R56, R184). -/
def spinDownRule (s : State) : Option State :=
  (findDrive fun d => (s.drive d).state == .ready && (s.drive d).task == .idle && (markDue s d).isNone &&
    ((s.drive d).spinDue || s.mode == .rest)).map (beginSpinDown s)

/-- A LEAVING drive asks for its cartridge's way out (R61). -/
def leavingRule (s : State) : Option State :=
  (findDrive fun d => (s.drive d).service == .leaving && !transferFrom s d && (s.drive d).task != .spinUp &&
    ((s.drive d).state == .ready || (s.drive d).state == .spinningDown || (s.drive d).state == .stopped)).map fun d =>
      requestHome s (s.drive d).occ (.drive d) (if (s.drive d).found then none else some .drive) false

/-- A release goes on: READY to SPIN_DOWN, STOPPED to EJECT (R57); what the inventory found loaded is ejected (R51). -/
def releaseRule (s : State) : Option State :=
  match findDrive (fun d => transferFrom s d && (s.drive d).state == .ready && (s.drive d).task == .idle) with
  | some d => some (beginSpinDown s d)
  | none =>
    (findDrive fun d => (transferFrom s d || (s.drive d).toEject) &&
      (s.drive d).state == .stopped && (s.drive d).task == .idle && !(s.drive d).ejected).map fun d =>
        beginEject s d .release

/-- A cartridge found in a drive by a rebuild is read there (R182 step 3). -/
def rebuildDriveRule (s : State) : Option State :=
  if !rebuilding s then none
  else
    (findDrive fun d => (s.drive d).state == .stopped && (s.drive d).task == .idle &&
      ((rebuildAt s (.drive d)).any fun k => k.stage == .waiting)).map fun d =>
        let s := modRebuildAt s (.drive d) fun k => { k with stage := .busy }
        if (s.drive d).ejected then beginMount (s.modDrive d fun x => { x with ejected := false }) d else beginRemount s d

end Sys2Proof.Machine
end

