-- ==== Sys2Proof/Machine/PickerUnit.lean ====
section
/-! DEFINITION. The Picker Unit (chapter 2): mail slots and doors, the arm, transfers, picker faults, PICKER_RESET, the
inventory scan and reconciliation. -/

namespace Sys2Proof.Machine

/-! ### Mail slots and doors (R30, R31) -/

/-- A mail slot changes; every change of its state or flags is a DOOR notice (R30). -/
def modMail (s : State) (m : Nat) (f : Mail → Mail) : State :=
  let x := s.mail m
  let y := f x
  let s := s.setMail m y
  if (x.state, x.locked, x.faulty) = (y.state, y.locked, y.faulty) then s
  else notify s .door none (be 1 m ++ be 1 y.state.code ++ flag y.locked ++ flag y.faulty)

/-- The granted transfer uses mail slot `m` (R31). -/
def armUses (s : State) (m : Nat) : Bool :=
  (s.picker.arm.bind Arm.mail) == some m || (armXfer s).any fun t => t.src == .mail m

/-- An IMPORT_TAKE from mail slot `m`. -/
def Transfer.takesFrom (t : Transfer) (m : Nat) : Bool := t.kind == .importTake && t.src == .mail m

/-- A granted IMPORT_TAKE from mail slot `m` has not completed (R30); one that a picker fault broke off counts until the STATUS
of R37 has placed its cartridge. -/
def takeGranted (s : State) (m : Nat) : Bool :=
  (armXfer s).any (Transfer.takesFrom · m) || s.picker.broken.any fun b => b.held.isNone && b.xfer.takesFrom m

def armSent (s : State) : Bool := s.picker.arm.any Arm.sent

def dropArm (s : State) : State := s.modPicker fun p => { p with arm := none }
def dropXfer (s : State) (id : Nat) : State :=
  s.modPicker fun p =>
    { p with queue := p.queue.filter (fun t => t.id != id), deferred := p.deferred.filter fun t => t.id != id }

/-- A mail slot becomes LOADED_IN: REST ends, and an INSPECT item is asked for (R30, R40, R185). -/
def enterLoadedIn (s : State) (m : Nat) : State :=
  let s := wakeFromRest s
  let s := modMail s m fun x => { x with state := .loadedIn, occ := .unrecorded }
  s.modPicker fun p => { p with inspectWanted := p.inspectWanted ++ [m] }

/-- An INSPECT item whose cartridge is still in mail slot `m`. -/
def inspectInMail (s : State) (m : Nat) : Option Nat :=
  (s.work.find? fun i => i.kind == .inspect && i.mail == some m && i.inDrive.isNone &&
    !(i.drive.any fun d => (s.drive d).occ == .unrecorded)).map Item.id

/-- The import of a LOADED_IN slot ends with reason DOOR (R40). -/
def endImportAtDoor (s : State) (m : Nat) : State :=
  let s := match (armXfer s) with
    | some t => if t.kind = .importTake ∧ t.src = .mail m then dropArm (dropXfer s t.id) else s
    | none => s
  let s := endItemOpt s (inspectInMail s m)
  let s := { s with heldReqs := s.heldReqs.filter fun h => match h with
    | .inspect k d => !(k == m && d.isNone)
    | .file _ => true }
  let s := s.modPicker fun p => { p with inspectWanted := p.inspectWanted.filter fun k => k != m }
  importRejected s (some m) none .door

/-- A door becomes faulty (R31): a grant that has not been sent goes back to waiting, and a LOADED_IN slot's import ends
unless its IMPORT_TAKE is under way. -/
def doorFault (s : State) (m : Nat) : State :=
  if (s.mail m).faulty then s
  else
    let s := modMail s m fun x => { x with faulty := true }
    let under := takeGranted s m && (armSent s || s.picker.arm.isNone)
    let s := if armUses s m && !armSent s && !takeGranted s m then dropArm s else s
    if (s.mail m).state = .loadedIn ∧ under = false then endImportAtDoor s m else s

/-- A mail slot goes DOOR_OPEN: a LOCK or UNLOCK not yet sent is not sent any more (R31). -/
def doorOpened (s : State) (m : Nat) : State :=
  let s := { s with bay := { s.bay with queue := s.bay.queue.filter fun e =>
    !(e.module == doorAddr m && (e.cmd == .lock || e.cmd == .unlock)) } }
  modMail s m fun y => { y with state := .doorOpen, lockAsked := y.locked }

/-- A door report taken after attention (R30, R31); a faulty door's is status only (R68). -/
def doorReport (s : State) (m : Nat) (st : DoorStatus) : State :=
  let x := s.mail m
  if x.faulty then s
  else if st.isOpen then
    if x.state = .loadedIn then doorFault s m
    else
      let s := doorOpened s m
      if x.locked then doorFault s m
      else if armUses s m && !armSent s then dropArm s
      else s
  else
    match x.state, st.loaded with
    | .loadedIn, false => if takeGranted s m then s else doorFault s m
    | .doorOpen, false => modMail s m fun y => { y with state := .empty, occ := .empty }
    | .doorOpen, true => enterLoadedIn s m
    | _, _ => s

/-- The import of mail slot `m`'s cartridge has been asked for and has not ended. -/
def importPending (s : State) (m : Nat) : Bool :=
  (inspectInMail s m).isSome || s.picker.inspectWanted.contains m || s.heldReqs.any fun h => match h with
    | .inspect k d => k == m && d.isNone
    | .file _ => false

/-- A mail slot set from a door's status at the inventory, or when PICKER_RESET finds the door answering (R30, R39, log
42); an import whose cartridge is no longer there ends (R40). -/
def doorSet (s : State) (m : Nat) (st : DoorStatus) : State :=
  let s := modMail s m fun y => { y with faulty := false, lockAsked := y.locked }
  let s := if (st.isOpen || !st.loaded) && importPending s m then endImportAtDoor s m else s
  if st.isOpen then doorOpened s m
  else if !st.loaded then modMail s m fun y => { y with state := .empty, occ := .empty }
  else if (s.mail m).state = .loadedOut then s
  else if importPending s m then modMail s m fun y => { y with state := .loadedIn, occ := .unrecorded }
  else enterLoadedIn s m

/-! ### Transfers: ready, granted, sent (R33, R35) -/

def placeOcc (s : State) (p : Place) : Occupant :=
  match p with
  | .slot n => (s.slot n).occ
  | .drive d => (s.drive d).occ
  | .gripper => s.picker.gripper
  | .mail m => (s.mail m).occ

/-- The occupant that a transfer moves. -/
def Transfer.occ (t : Transfer) : Occupant :=
  match t.cart with
  | some c => .record c
  | none => .unrecorded

/-- The source holds its cartridge and can release it; an EXPORT_PUT lets a RETURN from its drive go first (R45). -/
def sourceReady (s : State) (t : Transfer) : Bool :=
  let p := xferSource s t
  placeOcc s p == t.occ &&
  (match p with
   | .drive d => (s.drive d).ejected && !(t.kind == .exportPut && ((s.drive d).state == .faulted || returnFrom s d))
   | .mail m => (s.mail m).state == .loadedIn && !(s.mail m).faulty
   | .slot _ => true
   | .gripper => true)

/-- The lowest EMPTY mail slot whose door is not faulty (R33). -/
def freeMail (s : State) : Option Nat := mails2.find? fun m => (s.mail m).state == .empty && !(s.mail m).faulty

/-- The destination can take the cartridge. DEDUCED (log 51): the home slot of a RETURN or DISMOUNT counts as free even
where R48 found an unrecorded cartridge in it. -/
def destReady (s : State) (t : Transfer) : Bool :=
  match t.dst with
  | none => (freeMail s).isSome
  | some (.drive d) => (s.drive d).state == .empty && (s.drive d).service == .inService
  | some (.slot _) => true
  | some .gripper => false
  | some (.mail _) => false

def xferReady (s : State) (t : Transfer) : Bool := sourceReady s t && destReady s t

def xferUrgent (s : State) (t : Transfer) : Bool :=
  (t.item.bind s.findItem).any fun i => i.cls == .urgent

/-- The ready transfer the arm goes to (R35). -/
def bestXfer (s : State) : Option Transfer :=
  let ready := s.picker.queue.filter (xferReady s)
  (ready.find? Transfer.first).orElse fun _ => (ready.find? (xferUrgent s)).orElse fun _ =>
    (ready.find? fun t => t.kind == .dismount).orElse fun _ => ready.head?

/-- The arm is granted whenever the picker is free and a transfer is ready (R35). DESIGN CHOICE (log 52): also while the gripper
holds a cartridge whose REJECT waits for a mail slot. -/
def grantRule (s : State) : Option State :=
  let p := s.picker
  if (p.state = .idle ∨ p.state = .parked) ∧ p.arm = none ∧ p.routine = .none then
    (bestXfer s).map fun t =>
      s.modPicker fun p => { p with arm := some ⟨t.id, if t.dst.isNone then freeMail s else none, false, false⟩ }
  else none

/-- The cartridge is turned over on the way (R33). -/
def flipFor (s : State) (t : Transfer) (src : Place) : Bool :=
  let up := match src with
    | .drive d => (s.drive d).face == some .b
    | .gripper => s.picker.gripFaceB
    | .slot _ => false
    | .mail _ => false
  match t.kind with
  | .mount => (t.face == .b) != up
  | _ => up

def armDest (a : Arm) (t : Transfer) : Place := t.dst.getD (.mail (a.mail.getD 0))

/-- The door of mail slot `m` is locked, and no command to it is still to be taken. -/
def doorHeld (s : State) (m : Nat) : Bool :=
  (s.mail m).locked && (s.mail m).lockAsked &&
    !(s.bay.queue.any fun e => e.module == doorAddr m && (e.cmd == .lock || e.cmd == .unlock))

/-- TRANSFER is sent once every LOCK of the grant has succeeded (R35). -/
def sendRule (s : State) : Option State :=
  match s.picker.arm, armXfer s with
  | some a, some t =>
    if a.sent = false ∧ mails2.all (fun m => !armUses s m || doorHeld s m) then
      let src := xferSource s t
      some (issue (s.modPicker fun p => { p with arm := some { a with sent := true } }) 1
        (.transfer src (armDest a t) (flipFor s t src)) .plain)
    else none
  | _, _ => none

/-- A door is locked while it has a cause to be (R31). DESIGN CHOICE (log 61): a transfer that a picker fault broke off is no
cause, before R37's STATUS as after it, until it is granted anew. -/
def lockCause (s : State) (m : Nat) : Bool := (s.mail m).state == .loadedIn || armUses s m || s.mode == .night

/-- LOCK and UNLOCK follow the causes, where the slot is not DOOR_OPEN; a faulty door is sent them as any other (R31, R66, log
35). -/
def doorRule (s : State) : Option State :=
  (mails2.find? fun m => (s.mail m).state != .doorOpen && lockCause s m != (s.mail m).lockAsked).map
    fun m =>
      let want := lockCause s m
      issue (s.setMail m { s.mail m with lockAsked := want }) (doorAddr m) (if want then .lock else .unlock) .plain

/-- Deferred requests join the queue as entries leave it (R34). -/
def admitRule (s : State) : Option State :=
  match s.picker.deferred with
  | t :: ts =>
    if s.picker.queue.length < Config.transferCapacity then
      some (s.modPicker fun p => { p with queue := p.queue ++ [t], deferred := ts })
    else none
  | [] => none

/-- PARK in REST and NIGHT (R32, R184, R186). -/
def parkPickerRule (s : State) : Option State :=
  let p := s.picker
  if (s.mode = .rest ∨ s.mode = .night) ∧ p.state = .idle ∧ p.queue = [] ∧ p.deferred = [] ∧ p.arm = none ∧
      p.routine = .none ∧ p.parkAsked = false then
    some (issue (s.modPicker fun p => { p with parkAsked := true }) 1 .park .plain)
  else none

/-! ### The completion of a transfer (R35, R44) -/

/-- Transfers that were to take the cartridge at a place, but for an EXPORT_PUT, which follows its cartridge (R44, R45), leave the
queue once it has gone. -/
def dropFrom (s : State) (p : Place) : State :=
  let keep : Transfer → Bool := fun t => !(t.src == p && t.kind != .exportPut)
  s.modPicker fun q => { q with queue := q.queue.filter keep, deferred := q.deferred.filter keep }

/-- The cartridge at a place is taken from it. -/
def vacate (s : State) (p : Place) : State :=
  let s := dropFrom s p
  match p with
  | .slot n => s.setSlot n { s.slot n with occ := .empty }
  | .drive d => cartridgeOut s d
  | .gripper => s.modPicker fun q => { q with gripper := .empty, gripFaceB := false, gripMail := none, gripSerial := none }
  | .mail m => modMail s m fun x => { x with state := .empty, occ := .empty }

def occupy (s : State) (p : Place) (occ : Occupant) (face : Face) (mail : Option Nat) : State :=
  match p with
  | .slot n => s.setSlot n { s.slot n with occ := occ }
  | .drive d => cartridgeIn s d occ face mail
  | .gripper => s.modPicker fun q => { q with gripper := occ }
  | .mail m => modMail s m fun x => { x with state := .loadedOut, occ := .unrecorded }

/-- What a transfer takes from its source: the occupant there (R26); where DRIVE_SERVICE IN has found the drive empty under the
arm, so that its record is at no place, that record (log 50). -/
def carried (s : State) (t : Transfer) (src : Place) : Occupant :=
  match placeOcc s src, t.cart with
  | .empty, some c => if placeOf s c = none ∧ cartInState s c .inLibrary then .record c else .empty
  | .empty, none => .unrecorded
  | occ, _ => occ

/-- The mail slot through which the cartridge at a place came (R43). -/
def mailOf (s : State) (p : Place) : Option Nat :=
  match p with
  | .mail m => some m
  | .drive d => (s.drive d).fromMail
  | .gripper => s.picker.gripMail
  | .slot _ => none

/-- The label serial read from the cartridge at a place, in a rebuild on either face (R43). -/
def serialOf (s : State) (p : Place) : Option Nat :=
  ((rebuildAt s p).bind RebuildCart.serial).orElse fun _ => match p with
    | .drive d => (s.drive d).serial
    | .gripper => s.picker.gripSerial
    | .mail _ | .slot _ => none

/-- A record that has left the library has no export pending and no transfer (R44, log 53). -/
def dropCartXfers (s : State) (c : Nat) : State :=
  s.modPicker fun p =>
    { p with
      exportPending := p.exportPending.filter fun x => x.cart != c
      queue := p.queue.filter fun t => t.cart != some c
      deferred := p.deferred.filter fun t => t.cart != some c }

/-- An EXPORT_PUT has completed (R44, R197); its sides leave the Label-Failed List (R53). -/
def exportDone (s : State) (c m : Nat) : State :=
  match s.cart c with
  | none => s
  | some k =>
    let s := s.setCart c (some { k with state := .withdrawn, home := none })
    let about := (s.picker.exportPending.find? fun x => x.cart == c).map fun x => (x.tag, x.station)
    let s := dropCartXfers s c
    let s := { s with labelFailed := s.labelFailed.filter fun n => sideCart n != c }
    notify s .exported about (be 4 k.label ++ optNum 1 k.home ++ be 1 m)

/-- The import ends whose cartridge a transfer took from `src`: its item, and one that RESTART asked for the drive it goes to or
for the mail slot it came from (R40). -/
def endTaken (s : State) (t : Transfer) (src : Place) : State :=
  let s := endItemOpt s t.item
  let s := match src with
    | .mail m => endItemOpt s (inspectInMail s m)
    | _ => s
  match t.dst with
  | some (.drive d) => endItemOpt s (inspectItemOn s d)
  | _ => s

/-- The INSPECT item that RESTART asked for a mail slot whose cartridge is found in drive `d` follows it there, and ends at the
finding that drive makes (R40, log 54). -/
def followTake (s : State) (src : Place) (d : Nat) : State :=
  match src with
  | .mail m =>
    match inspectInMail s m with
    | some id => (returnItem s id).modItem id fun i => { i with inDrive := some d }
    | none => s
  | _ => s

/-- An IMPORT_TAKE from `src` that ends in a drive which can no longer mount ends its import with reason DRIVE (log 38). -/
def takeArrived (s : State) (t : Transfer) (src : Place) (d : Nat) : State :=
  if (s.drive d).state ≠ .spinningUp then
    (importRejected (endTaken s t src) (s.drive d).fromMail none .drive).modDrive d fun x => { x with found := true }
  else followTake s src d

/-- The changes a transfer's completion makes, its cartridge taken from `src` (R35). An IMPORT_REJECTED made at a REJECT's
completion carries the mail slot the cartridge came through and the label, where known (R43). -/
def completeXfer (s : State) (t : Transfer) (src dst : Place) : State :=
  let occ := carried s t src
  let mail := mailOf s src
  let serial := serialOf s src
  let s := dropXfer s t.id
  let s := occupy (vacate s src) dst occ t.face mail
  let s := rebuildMoved s src dst
  match t.kind, occ, dst with
  | .exportPut, .record c, .mail m => exportDone s c m
  | .reject, _, _ =>
    match t.report with
    | some why => importRejected s mail serial why
    | none => s
  | .importTake, _, .drive d => takeArrived s t src d
  | _, _, _ => s

/-- The picker's completion of the transfer that holds the arm. -/
def armDone (s : State) : State :=
  match s.picker.arm, armXfer s with
  | some a, some t =>
    let src := xferSource s t
    completeXfer (s.modPicker fun p => { p with arm := none, state := .idle }) t src (armDest a t)
  | _, _ => s

/-! ### Picker faults (R36 to R38) -/

/-- PICKER_FAULT: reason, transfer kind, cartridge label, cartridge's place; a rebuild resets the picker once (R37, R183). -/
def reportPickerFault (s : State) (t : Option Transfer) (place : Option Place) : State :=
  let label := (t.bind Transfer.cart).bind fun c => (s.cart c).map Cart.label
  let s := notify s .pickerFault none
    (optNum 1 (s.picker.fault.map PickerFaultReason.code) ++ optNum 1 (t.map fun x => x.kind.code) ++ optNum 4 label
      ++ placeBytes s place)
  if s.mode = .rebuild ∧ s.boot.rebuild.halted = false then
    if s.boot.rebuild.pickerFaults = 0 then
      issue ((s.modRebuild fun r => { r with pickerFaults := 1 }).modPicker fun p => { p with routine := .resetPark }) 1
        .park .plain
    else rebuildHalt s
  else s

/-- An import whose IMPORT_TAKE from `src` left its cartridge in the gripper ends; its notice follows the REJECT (R37, R40). -/
def dropTaken (s : State) (t : Transfer) (src : Place) : State :=
  match t.kind with
  | .mount =>
    match t.item with
    | some id => returnItem s id
    | none => s
  | .importTake => endTaken s t src
  | _ => s

/-- The cartridge of the transfer in progress is found in the gripper: the transfer is dropped (R37). -/
def intoGripper (s : State) (t : Transfer) (faceB : Bool) : State :=
  let src := xferSource s t
  let occ := carried s t src
  let mail := mailOf s src
  let serial := serialOf s src
  let s := dropXfer s t.id
  let s := vacate s src
  let s := s.modPicker fun p => { p with gripper := occ, gripFaceB := faceB, gripMail := mail, gripSerial := serial }
  dropTaken (rebuildMoved s src .gripper) t src

/-- The cartridge of the transfer in progress is still at its source, and the transfer is kept (R37); an import whose door has
become faulty meanwhile ends (R31, R40). -/
def stayAtSource (s : State) (t : Transfer) : State :=
  match t.src with
  | .mail m => if t.kind = .importTake ∧ (s.mail m).faulty ∧ (s.mail m).state = .loadedIn then endImportAtDoor s m else s
  | _ => s

/-- The one STATUS of R37 has answered, or failed: the cartridge's place is known, and PICKER_FAULT is reported (log 27). -/
def brokenAnswered (s : State) (st : Option PickerStatus) : State :=
  match s.picker.broken with
  | none => s
  | some b =>
    if b.held.isSome then s
    else
      let held := b.moved && st.any PickerStatus.holding
      let src := xferSource s b.xfer
      let s := s.modPicker fun p => { p with broken := some { b with held := some held } }
      let s := if held then intoGripper s b.xfer (st.any PickerStatus.faceBUp) else stayAtSource s b.xfer
      reportPickerFault s (some b.xfer) (some (if held then .gripper else src))

/-- The picker goes FAULTED (R36 to R38). -/
def pickerFault (s : State) (why : PickerFaultReason) : State :=
  if s.picker.state = .faulted then s
  else
    let s := dropQueued s 1
    let s := s.modPicker fun p => { p with state := .faulted, fault := some why, parkAsked := false }
    match s.picker.arm, armXfer s with
    | some a, some t =>
      let s := s.modPicker fun p => { p with arm := none, broken := some ⟨{ t with src := xferSource s t }, a.mail, a.taken, none⟩ }
      issue s 1 .status .broken
    | _, _ => reportPickerFault (dropArm s) none none

/-- The transfer's time limit is taken (R36). -/
def transferTimeoutOp (s : State) : State :=
  if s.picker.arm.any Arm.taken then pickerFault s .timeout else s

/-! ### PICKER_RESET (R39) -/

def startReset (s : State) : State :=
  issue (s.modPicker fun p => { p with routine := .resetPark, parkAsked := false }) 1 .park .plain

def pickerResetOp (s : State) : Answer :=
  if s.picker.arm.isSome then refuse s .busy [] else accepted s (startReset s) []

/-- The places PICKER_RESET scans: the gripper, and the source and destination of the transfer in progress. -/
def resetPlaces (s : State) : List (Nat × Nat) :=
  match s.picker.broken with
  | some b =>
    let dst := b.xfer.dst.getD (.mail (b.mail.getD 0))
    [(125, 125), (b.xfer.src.number, b.xfer.src.number), (dst.number, dst.number)]
  | none => [(125, 125)]

/-- A cartridge found at no place: a recorded one goes MISSING, an unrecorded one is forgotten (R39). CARTRIDGE_MISSING carries
the label, as R39 names it. DEDUCED (log 53): the transfers of the record are removed. -/
def lostCart (s : State) (occ : Occupant) : State :=
  match occ with
  | .record c =>
    match s.cart c with
    | some k =>
      let s := if k.state = .inLibrary then s.setCart c (some { k with state := .missing }) else s
      endCartWork (notify (dropCartXfers s c) .cartridgeMissing none (be 4 k.label)) c
    | none => s
  | .unrecorded | .empty => s

/-- The cartridge that was at a place is lost; a rebuild reads it no further (R39, R183). -/
def loseAt (s : State) (p : Place) (occ : Occupant) : State :=
  modRebuildAt (lostCart (vacate s p) occ) p fun k => { k with stage := .done }

/-- Sets the place of the faulted transfer's cartridge from what the scan found (R39). DESIGN CHOICE (log 54): one that R37's
STATUS put in the gripper and the scan finds at its source is set back there; where that is a mail slot, the import that
has ended makes it LOADED_OUT, with no IMPORT_REJECTED. -/
def settleBroken (s : State) (b : Broken) (seen : List Nat) : State :=
  let dst := b.xfer.dst.getD (.mail (b.mail.getD 0))
  let at_ : Place := if b.held = some true then .gripper else b.xfer.src
  let s := s.modPicker fun p => { p with broken := none }
  if seen.contains dst.number ∧ dst ≠ at_ then completeXfer s b.xfer at_ dst
  else if seen.contains 125 then
    if at_ = .gripper then s else intoGripper s b.xfer s.picker.gripFaceB
  else if seen.contains b.xfer.src.number then
    if at_ = .gripper then
      rebuildMoved (occupy (vacate s .gripper) b.xfer.src (carried s b.xfer .gripper) b.xfer.face s.picker.gripMail) .gripper
        b.xfer.src
    else s
  else
    let s := if b.held = some true then s else dropTaken (dropXfer s b.xfer.id) b.xfer b.xfer.src
    loseAt s at_ (carried s b.xfer at_)

/-- A cartridge in the gripper is moved: a recorded one home first of all, an unrecorded one out with reason PICKER (R39). In
a rebuild one not yet read waits for a drive, and one read goes to its resting slot (R182, R183). DEDUCED (log 55): while
the queue holds 8, the transfer is deferred like any other (R34). -/
def clearGripper (s : State) : State :=
  if (allTransfers s).any fun t => t.src == .gripper then s
  else
    match s.picker.gripper, rebuildAt s .gripper with
    | .unrecorded, some k =>
      if s.mode ≠ .rebuild ∨ k.stage = .done then requestHome s .unrecorded .gripper (some .picker) true
      else if k.unreadFace.isSome then modRebuildAt s .gripper fun k => { k with stage := .waiting }
      else requestTransfer s .ret none .gripper (some (.slot k.rest)) .a none none true
    | .unrecorded, none => if s.mode = .rebuild then s else requestHome s .unrecorded .gripper (some .picker) true
    | occ, _ => requestHome s occ .gripper (some .picker) true

/-- The scan's finding for the gripper where no transfer was in progress. -/
def settleGripper (s : State) (seen : List Nat) : State :=
  if seen.contains 125 then
    if s.picker.gripper = .empty then s.modPicker fun p => { p with gripper := .unrecorded } else s
  else loseAt s .gripper s.picker.gripper

/-- The scan results are taken: the picker becomes IDLE, and faulty doors are asked their STATUS (R39). -/
def resetDone (s : State) (seen : List Nat) : State :=
  let s := match s.picker.broken with
    | some b => settleBroken s b seen
    | none => settleGripper s seen
  let s := s.modPicker fun p => { p with state := .idle, fault := none, routine := .none, broken := none }
  let s := clearGripper s
  let s := (mails2.filter fun m => (s.mail m).faulty).foldl (fun s m => issue s (doorAddr m) .status .reset) s
  if s.mode = .rebuild ∧ s.boot.rebuild.listed = false ∧ s.boot.rebuild.halted = false then
    issue ((s.modBoot fun b => { b with seen := [] }).modPicker fun p => { p with routine := .invPark }) 1 .park .plain
  else s

def resetScanNext (s : State) (left : List (Nat × Nat)) (seen : List Nat) : State :=
  match left with
  | [] => resetDone s seen
  | (a, b) :: _ => issue (s.modPicker fun p => { p with routine := .resetScan left seen }) 1 (.scan a b) .plain

/-! ### Reconciliation (R48) and the rebuild's list (R182) -/

/-- The record a drive's label names, IN_LIBRARY or MISSING and not already found. -/
def recordNamed (s : State) (found : List Nat) (l : Nat) : Option Nat :=
  match recordOfLabel s l with
  | some c => if cartInState s c .withdrawn || found.contains c then none else some c
  | none => none

/-- Drives 1 to 4 in order: the records found there (R48). -/
def foundInDrives (s : State) : List (Nat × Nat) :=
  s.boot.driveSeen.foldl (fun acc e =>
    match e.2 with
    | some (l, _) =>
      (match recordNamed s (acc.map Prod.snd) l with
       | some c => acc ++ [(e.1, c)]
       | none => acc)
    | none => acc) []

/-- What a storage slot holds: the record whose home it is, where found there and not in a drive. -/
def slotFinding (s : State) (inDrives seen : List Nat) (n : Nat) : Occupant :=
  if !seen.contains n then .empty
  else
    match homeOf s n with
    | some c => if cartInState s c .withdrawn || inDrives.contains c then .unrecorded else .record c
    | none => .unrecorded

/-- The one Retained Store update of reconciliation (R48). -/
def reconcileUpdate (s : State) (inDrives : List Nat) (occs : List Occupant) : State :=
  let found := inDrives ++ occs.filterMap fun o => match o with
    | .record c => some c
    | .empty | .unrecorded => none
  s.retain fun r =>
    { r with
      slots := (r.slots.zip occs).map fun e => { e.1 with occ := e.2 }
      carts := (numbered r.carts).map fun e => e.2.map fun k =>
        match k.state with
        | .withdrawn => k
        | _ => if found.contains e.1 then { k with state := .inLibrary } else { k with state := .missing } }

/-- CARTRIDGE_MISSING for each record that was IN_LIBRARY and was not found. -/
def missingNotices (old new : State) : State :=
  (numbered old.ret.carts).foldl (fun s e => match e.2 with
    | some k =>
      if k.state = .inLibrary ∧ cartInState s e.1 .missing then
        notify s .cartridgeMissing none (be 4 k.label ++ optNum 1 k.home)
      else s
    | none => s) new

/-- REJECTs for the unrecorded cartridges of storage slots and gripper (R48). -/
def rejectFound (s : State) : State :=
  let slots := (numbered s.ret.slots).filter fun e => e.2.occ == .unrecorded
  let s := slots.foldl (fun s e => requestTransfer s .reject none (.slot e.1) none .a none (some .unidentified) false) s
  if s.picker.gripper = .unrecorded then requestTransfer s .reject none .gripper none .a none (some .unidentified) false
  else s

def foundCount (s : State) : Nat := (s.ret.carts.filter fun k => k.any fun x => x.state == .inLibrary).length

/-- A loaded drive holds the record found there, or an unrecorded cartridge (R48). -/
def setDrives (s : State) (inDrives : List (Nat × Nat)) : State :=
  drives4.foldl (fun s d => s.modDrive d fun x =>
    { x with occ := match inDrives.find? fun e => e.1 == d with
        | some e => .record e.2
        | none => if x.occ = .empty then .empty else .unrecorded }) s

/-- Reconciliation sets the Cartridge Table from the scan (R48). -/
def reconcile (s : State) : State :=
  let inDrives := foundInDrives s
  let occs := (upTo s.ret.slots.length).map (slotFinding s (inDrives.map Prod.snd) s.boot.seen)
  let s0 := s
  let s := setDrives s inDrives
  let s := missingNotices s0 (reconcileUpdate s (inDrives.map Prod.snd) occs)
  let s := s.modPicker fun p => { p with exportPending := [] }
  rejectFound (s.modBoot fun b => { b with settled := true, found := foundCount s })

/-- The rebuild lists the cartridges found; until identified each is an unrecorded occupant (R182). -/
def rebuildList (s : State) : State :=
  let s := s.retain fun r =>
    { r with slots := (numbered r.slots).map fun e =>
        { e.2 with occ := if s.boot.seen.contains e.1 then .unrecorded else .empty } }
  s.modRebuild fun r => { r with listed := true, carts := listCarts s }

/-! ### The inventory scan (R47) -/

/-- The scan has ended: occupants are set, and START reconciles or REBUILD lists. -/
def inventoryDone (s : State) : State :=
  let s := s.modPicker fun p =>
    { p with
      routine := .none
      gripper := if s.boot.scanOk && s.boot.seen.contains 125 then .unrecorded else .empty }
  if s.mode = .rebuild then rebuildList s else reconcile s

def invDoors (s : State) : State :=
  mails2.foldl (fun s m => issue s (doorAddr m) .status .inventory) (s.modPicker fun p => { p with routine := .invDoors mails2 })

def invDrives (s : State) : State :=
  drives4.foldl (fun s d => issue s (driveAddr d) .status .inventory)
    (s.modPicker fun p => { p with routine := .invDrives drives4 })

/-- One of the inventory's status reads has ended. -/
def invDriveDone (s : State) (d : Nat) : State :=
  match s.picker.routine with
  | .invDrives left =>
    let left := left.filter fun x => x != d
    if left = [] then invDoors s else s.modPicker fun p => { p with routine := .invDrives left }
  | _ => s

def invDoorDone (s : State) (m : Nat) : State :=
  match s.picker.routine with
  | .invDoors left =>
    let left := left.filter fun x => x != m
    if left = [] then inventoryDone s else s.modPicker fun p => { p with routine := .invDoors left }
  | _ => s

/-- PARK or SCAN of the inventory has failed: the slots are taken as last recorded, the gripper as empty (R47). -/
def scanFailed (s : State) (why : PickerFaultReason) : State :=
  let s := dropQueued s 1
  let s := s.modPicker fun p => { p with state := .faulted, fault := some why, routine := .none }
  let held := ((numbered s.ret.slots).filter fun e => e.2.occ != .empty).map Prod.fst
  if s.mode = .rebuild then reportPickerFault s none none
  else invDrives ((reportPickerFault s none none).modBoot fun b => { b with scanOk := false, seen := held })

def invScanNext (s : State) (left : List (Nat × Nat)) : State :=
  match left with
  | [] => invDrives s
  | (a, b) :: _ => issue (s.modPicker fun p => { p with routine := .invScan left }) 1 (.scan a b) .plain

/-- The places the inventory scans: storage slots, then gripper and mail slots (R47). -/
def invPlaces : List (Nat × Nat) := [(1, 120), (125, 127)]

/-! ### The picker's status (R32, R67) -/

/-- A picker command of this form is waiting or on the bus. -/
def pickerCmdOut (s : State) (p : BayCmd → Bool) : Bool :=
  (s.bay.queue.any fun e => e.module == 1 && p e.cmd) || s.bay.bus.any fun e => e.1.module == 1 && p e.1.cmd

def BayCmd.isPark : BayCmd → Bool
  | .park => true
  | _ => false
def BayCmd.isScan : BayCmd → Bool
  | .scan _ _ => true
  | _ => false

/-- The routines advance on the completion of their PARK and SCAN (R39, R47). -/
def routineStatus (s : State) (st : PickerStatus) : State :=
  let parked := st.phase = .parked ∧ pickerCmdOut s BayCmd.isPark = false
  let scanned := if pickerCmdOut s BayCmd.isScan then none else st.scan
  match s.picker.routine with
  | .invPark => if parked then invScanNext s invPlaces else s
  | .invScan left =>
    match scanned with
    | some l =>
      let s := s.modBoot fun b => { b with seen := b.seen ++ l }
      invScanNext (s.modPicker fun p => { p with gripFaceB := st.holding && st.faceBUp }) (left.drop 1)
    | none => s
  | .resetPark => if parked then resetScanNext s (resetPlaces s) [] else s
  | .resetScan left seen =>
    match scanned with
    | some l =>
      resetScanNext (s.modPicker fun p => { p with gripFaceB := st.holding && st.faceBUp }) (left.drop 1) (seen ++ l)
    | none => s
  | _ => s

/-- The phases of the transfer that holds the arm (R32, R35), and the end of a PARK. -/
def phaseStatus (s : State) (st : PickerStatus) : State :=
  let put : PickerState → State := fun x => s.modPicker fun p => { p with state := x }
  if s.picker.arm.any Arm.taken then
    match st.phase with
    | .taking => put .fetching
    | .carrying => put .carrying
    | .flipping => put .flipping
    | .placing => put .placing
    | .done => armDone s
    | .parked | .idle => s
  else if s.picker.parkAsked ∧ st.phase = .parked ∧ pickerCmdOut s BayCmd.isPark = false then
    s.modPicker fun p => { p with parkAsked := false, state := if p.state = .idle then .parked else p.state }
  else s

def Routine.scanning : Routine → Bool
  | .invPark | .invScan _ => true
  | _ => false

def Routine.inventory : Routine → Bool
  | .invPark | .invScan _ | .invDrives _ | .invDoors _ => true
  | _ => false

/-- The inventory scan is being made, or a rebuild has not yet listed what it found. -/
def inventoryOn (s : State) : Bool :=
  s.picker.routine.inventory || (s.mode == .rebuild && !s.boot.rebuild.listed && !s.boot.rebuild.halted)

/-- A picker status is taken (R32). -/
def pickerStatusOp (s : State) (st : PickerStatus) (why : Why) : State :=
  if why = .broken then brokenAnswered s (some st)
  else if st.moduleFault ∧ s.picker.state ≠ .faulted then
    if s.picker.routine.scanning then scanFailed s .hardware
    else pickerFault (s.modPicker fun p => { p with routine := match p.routine with
      | .resetPark | .resetScan _ _ => .none
      | r => r }) .hardware
  else if s.picker.routine ≠ .none then routineStatus s st
  else if s.picker.state = .faulted then s
  else phaseStatus s st

/-- The picker has taken a command: at TRANSFER its time limit starts, and it goes to FETCHING (R35, R36). -/
def pickerCommandTaken (s : State) (cmd : BayCmd) : State :=
  match cmd with
  | .transfer _ _ _ =>
    s.modPicker fun p =>
      { p with
        arm := p.arm.map fun a => { a with taken := true }
        state := if p.arm.isSome then .fetching else p.state
        parkAsked := false }
  | _ => s

/-- A picker command has failed after its tries (R36, R38, R39, R47). DEDUCED (log 56): a PARK or SCAN of PICKER_RESET that
fails ends it without its third step. -/
def pickerCommandFailed (s : State) (e : BayEntry) : State :=
  match e.why, s.picker.routine with
  | .broken, _ => brokenAnswered s none
  | _, .invPark => scanFailed s .bus
  | _, .invScan _ => scanFailed s .bus
  | _, .resetPark | _, .resetScan _ _ =>
    if e.cmd.isPark || e.cmd.isScan || s.picker.state != .faulted then
      let s := dropQueued s 1
      reportPickerFault (s.modPicker fun p => { p with state := .faulted, fault := some .bus, routine := .none }) none none
    else s
  | _, _ => pickerFault s .bus

/-! ### A door's commands (R31, R39, R47) -/

def doorStatusOp (s : State) (m : Nat) (st : DoorStatus) (why : Why) : State :=
  match why with
  | .inventory => invDoorDone (doorSet s m st) m
  | .reset => doorSet s m st
  | _ => doorReport s m st

def doorCommandTaken (s : State) (m : Nat) (cmd : BayCmd) : State :=
  match cmd with
  | .lock => modMail s m fun x => { x with locked := true }
  | .unlock => modMail s m fun x => { x with locked := false }
  | _ => s

/-- A door command has failed: the door is faulty (R31); at the inventory its slot is taken as EMPTY (R47). -/
def doorCommandFailed (s : State) (m : Nat) (e : BayEntry) : State :=
  let s := if (s.mail m).faulty then s else doorFault (dropQueued s (doorAddr m)) m
  if e.why = .inventory then invDoorDone s m else s

/-! ### The way home of an ejected cartridge (R48, R62, R64, R183) -/

/-- Transfers out of drive `d` that take its cartridge home or out; a FAULTED drive's EXPORT_PUT waits, unless it holds the arm
(R45). -/
def homeAsked (s : State) (d : Nat) : Bool :=
  ((allTransfers s).any fun t => xferSource s t == .drive d && !(t.kind == .exportPut && (s.drive d).state == .faulted)) ||
    exportLeaving s d

/-- An ejected cartridge that nothing takes away is requested home, or out. -/
def homeRule (s : State) : Option State :=
  if s.picker.routine ≠ .none ∧ s.picker.routine.scanning ∨ s.boot.rebuild.halted then none
  else if s.mode = .start ∧ s.boot.settled = false then none
  else if s.mode = .rebuild ∧ s.boot.rebuild.listed = false then none
  else
    (findDrive fun d => (s.drive d).ejected && (s.drive d).occ != .empty &&
        ((s.drive d).state == .stopped || (s.drive d).state == .faulted || (s.drive d).state == .outOfService) &&
        (s.drive d).task == .idle && !homeAsked s d &&
        !(rebuilding s && (s.drive d).state == .stopped && (rebuildAt s (.drive d)).any fun k => k.stage == .waiting)).map
      fun d =>
        match (s.drive d).occ, rebuilding s, rebuildAt s (.drive d) with
        | .unrecorded, true, some k =>
          if k.rest = 0 then rebuildReject s (.drive d) .noSlot
          else requestTransfer s .ret none (.drive d) (some (.slot k.rest)) .a none none false
        | occ, _, _ =>
          let why := if (s.drive d).found then none
            else if (s.drive d).fromMail.isSome then some RejectReason.drive else some .unidentified
          requestHome s occ (.drive d) why false

/-! ### Exports (R44, R45) -/

/-- An export whose cartridge is home again has its EXPORT_PUT requested anew (R37). -/
def exportAgainRule (s : State) : Option State :=
  (s.picker.exportPending.find? fun e =>
      !((allTransfers s).any fun t => t.kind == .exportPut && t.cart == some e.cart) && (slotHolding s e.cart).isSome).bind
    fun e => (slotHolding s e.cart).map fun n =>
      requestTransfer s .exportPut (some e.cart) (.slot n) none .a none none false

end Sys2Proof.Machine
end

