-- ==== Sys2Proof/Machine/Library.lean ====
section
/-! DEFINITION. The maintenance requests on sides, slots and cartridges (R21, R22, R29, R44, R46), settings (R193, R195) and
their reports. -/

namespace Sys2Proof.Machine

/-! ### Sides -/

def closeSideOp (s : State) (body : List Byte) : Answer :=
  let n := numAt body 0 2
  let e := s.side n
  if ¬(1 ≤ n ∧ n ≤ Config.sideCount) then refuse s .badField []
  else if e.state ≠ .opened then refuse s .notFound []
  else if s.filings.any fun f => f.state == .writing || f.state == .committing then refuse s .busy []
  else done s (closeSideAs s n .host) (be 2 n ++ optNum 4 e.first ++ optNum 4 e.last ++ be 2 e.count)

/-- A closed mark of side `n` is being written in drive `x` (R20). -/
def closingOn (x : Drive) (n : Nat) : Bool :=
  match x.task with
  | .writeLabel (.closing k) _ _ => k == n
  | _ => false

/-- The pending flag of a side that becomes FAULTY is cleared while its closed mark is written: a pass not yet sent is not
sent any more, and one that runs is the last (R11, R20). -/
def abandonMark (s : State) (n : Nat) : State :=
  match findDrive fun d => closingOn (s.drive d) n &&
      s.bay.queue.any fun e => e.module == driveAddr d && e.cmd.isBlockOp with
  | some d => afterLabelWrite (dropCommands s fun e => e.module == driveAddr d && e.cmd.isBlockOp) d
  | none => s

/-- The update of MARK_FAULTY (R22). -/
def faultSide (s : State) (n : Nat) : State :=
  s.setSide n { s.side n with state := .faulty, closeReason := none, closedPending := false }

/-- The work on a side marked faulty: each item ends UNAVAILABLE, but a FILE item that chose the side while it was BLANK
chooses again (R17, R22). -/
def endFaultyWork (s : State) (n : Nat) (wasBlank : Bool) : State :=
  endSideWork s n fun s i =>
    match i.filing, wasBlank with
    | some r, true => recheckChosen s r
    | _, _ => endUnavailable s i

def markFaultyOp (s : State) (body : List Byte) : Answer :=
  let n := numAt body 0 2
  let e := s.side n
  if ¬(1 ≤ n ∧ n ≤ Config.sideCount) ∨ sideAssigned s n = false then refuse s .badField []
  else if e.state = .opened then refuse s .busy []
  else if e.state = .faulty then done s s []
  else done s (endFaultyWork (abandonMark (faultSide s n) n) n (e.state == .blank)) []

/-! ### Slots (R29) -/

def slotFields (s : State) (n : Nat) : List Byte := be 1 (slotCode s n) ++ be 1 (freeSlots s).length

def setDisabled (s : State) (n : Nat) (b : Bool) : Answer :=
  let s' := s.setSlot n { s.slot n with disabled := b }
  done s s' (slotFields s' n)

def slotOk (n : Nat) : Bool := decide (1 ≤ n ∧ n ≤ Config.slotCount)

def slotDisableOp (s : State) (body : List Byte) : Answer :=
  let n := numAt body 0 1
  if !slotOk n then refuse s .badField []
  else if (s.slot n).disabled && (s.slot n).occ == .empty || (s.slot n).occ == .empty && (homeOf s n).isNone then
    setDisabled s n true
  else refuse s .busy []

/-- SLOT_ENABLE (R29). DESIGN CHOICE (log 60): an OCCUPIED slot that carries a disabled mark loses the mark. -/
def slotEnableOp (s : State) (body : List Byte) : Answer :=
  let n := numAt body 0 1
  if !slotOk n then refuse s .badField [] else setDisabled s n false

/-! ### EXPORT, FORGET (R44, R46) -/

/-- The OPEN mark of a side of record `c`, BLANK as yet, is being written. -/
def openingCart (s : State) (c : Nat) : Bool :=
  s.drives.any fun x => x.task.openingSide.any fun n => sideCart n == c && (s.side n).state == .blank

/-- The fifth check of EXPORT: something stands in the way. DEDUCED (log 58): a side whose opening outlives its cancelled filing
stands in the way as a chosen side does, for R10 knows no OPEN side of a WITHDRAWN record. -/
def exportBusy (s : State) (c : Nat) : Bool :=
  exporting s c || s.picker.gripper == .record c ||
    (s.work.any fun i => i.side == some (sideOf c .a) || i.side == some (sideOf c .b)) || openingCart s c ||
    (s.side (sideOf c .a)).state == .opened || (s.side (sideOf c .b)).state == .opened

/-- An accepted EXPORT (R44). DESIGN CHOICE (log 64): its EXPORT_PUT is requested at once also while another transfer from the
cartridge's drive is outstanding, and waits for it. -/
def startExport (s : State) (c : Nat) (tag : Word16) (st : Nat) : State :=
  let src := (placeOf s c).getD .gripper
  requestTransfer (s.modPicker fun p => { p with exportPending := p.exportPending ++ [⟨c, tag, st⟩] })
    .exportPut (some c) src none .a
    none none false

def exportOp (s : State) (tag : Word16) (st : Nat) (body : List Byte) : Answer :=
  let l := numAt body 0 4
  if s.mode = .night then refuse s .night []
  else
    match recordOfLabel s l with
    | none => refuse s .notFound []
    | some c =>
      if !cartInState s c .inLibrary then refuse s .notFound []
      else if stuck s c then refuse s .unavailable []
      else if exportBusy s c then refuse s .busy []
      else accepted s (startExport s c tag st) []

def forgetRecord (s : State) (c : Nat) : State :=
  s.retain fun r =>
    { r with
      carts := tset r.carts c none
      sides := tset (tset r.sides (sideOf c .a) Side.blank) (sideOf c .b) Side.blank }

def forgetOp (s : State) (body : List Byte) : Answer :=
  match recordOfLabel s (numAt body 0 4) with
  | none => refuse s .notFound []
  | some c =>
    if !cartInState s c .withdrawn then refuse s .badField []
    else if (s.side (sideOf c .a)).count ≠ 0 ∨ (s.side (sideOf c .b)).count ≠ 0 then refuse s .notPermitted []
    else done s (forgetRecord s c) []

/-! ### Stations and parameters (R193, R195) -/

def stationFields (s : State) : List Byte := s.stations.flatMap fun k => be 1 k.code

def kindOfCode : Nat → Option StationKind | 1 => some .pub | 2 => some .supervisor | 3 => some .scanning | _ => none

def stationSetOp (s : State) (body : List Byte) : Answer :=
  let n := numAt body 0 1
  match kindOfCode (numAt body 1 1) with
  | none => refuse s .badField []
  | some k =>
    if 1 ≤ n ∧ n ≤ Config.stationCount then
      let s' := { s with stations := tset s.stations n k }
      done s s' (stationFields s')
    else refuse s .badField []

def orderNumber (o : List LowClass) : Nat := classOrders.findIdx (· == o) + 1

def paramFields (p : Params) : List Byte :=
  be 1 p.burstPages ++ be 2 p.writeBurst ++ be 1 p.yieldLimit ++ be 1 p.chainLimit ++ be 1 (orderNumber p.classOrder)
    ++ be 2 p.idleTime ++ be 2 p.consentWindow

/-- A running idle timer that has already run longer than the new idle time expires at once (R56). -/
def idleChanged (s : State) : State :=
  drives4.foldl (fun s d =>
    let x := s.drive d
    if x.state = .ready ∧ x.idleOn ∧ s.params.idleTime ≤ s.elapsed - x.readySince then spinDownNow s d else s) s

def setParamsOp (s : State) (body : List Byte) : Answer :=
  let q := parseParams body
  if q.badField ≠ 0 then refuse s .badField (be 1 q.badField)
  else
    let s' := { s with params := q.toParams }
    done s (if q.idleTime = s.params.idleTime then s' else idleChanged s') (paramFields q.toParams)

/-! ### The clock (R180) -/

def clockFields (c : Clock) : List Byte := be 2 c.day ++ be 4 c.second

def setClockOp (s : State) (body : List Byte) : Answer :=
  let c : Clock := ⟨numAt body 0 2, numAt body 2 4⟩
  if 1 ≤ c.day ∧ c.day ≤ Config.clockLastDay ∧ c.second < Config.secondsPerDay then
    done s (expireDue { s with clock := some c }) (clockFields c)
  else refuse s .badField []

end Sys2Proof.Machine
end

