-- ==== Sys2Proof/Machine/Modes.lean ====
section
/-! DEFINITION. The Mode Unit (chapter 10): power, the clock's second, START, REST, NIGHT, WAKE and RESTART. -/

namespace Sys2Proof.Machine

/-! ### Power (R179) -/

/-- START when the check passes and no rebuild was in progress. -/
def storePasses (s : State) (storeGood : Bool) : Bool := storeGood && s.ret.written && !s.ret.rebuildFlag

def powerOnOp (s : State) (storeGood : Bool) : State :=
  if storePasses s storeGood then State.poweredOn s.ret .start s.pending
  else State.poweredOn Retained.initial .rebuild s.pending

/-- Power fails: what is volatile is lost; the Retained Store keeps its last whole update (log 6, log 26). -/
def powerLossOp (s : State) : State := { State.poweredOn s.ret s.mode s.pending with powered := false }

/-! ### Time (R133, R180) -/

def clockSecondOp (s : State) : State :=
  expireDue { s with clock := s.clock.map Clock.tick, elapsed := s.elapsed + 1 }

/-- A consent deadline is taken, where the clock has reached it (R133, log 12). -/
def consentDeadlineOp (s : State) (ref : Word32) : State :=
  match s.clock, s.findFiling ref with
  | some now, some f => if f.due now then voidFiling s f .timeout else s
  | _, _ => s

/-! ### The end of START (R181) -/

/-- The one STATUS of R37 has not yet answered. -/
def placing (s : State) : Bool := s.picker.broken.any fun b => b.held.isNone

/-- Reconciliation has ended: every RETURN has completed, or cannot be made (R48); one that a picker fault broke off cannot, once
R37 has placed its cartridge (R181). -/
def reconciled (s : State) : Bool :=
  s.boot.settled && !placing s && (s.picker.state == .faulted ||
    !((allTransfers s).any fun t => t.kind == .ret) &&
      drives4.all fun d => match (s.drive d).occ with
        | .record _ => (s.drive d).state == .faulted && (s.drive d).task == .idle && !(s.drive d).ejected
        | .empty | .unrecorded => true)

/-- FILING_LOST for a marker found at power-on (R118). -/
def filingLost (s : State) : State :=
  match s.ret.marker with
  | none => s
  | some m =>
    let s := notify s .filingLost none
      (be 4 m.ref.toNat ++ be 2 m.side ++ be 4 m.start ++ be 2 ((s.side m.side).writePtr - m.start))
    (s.retain fun r => { r with marker := none }).modBoot fun b => { b with lost := true }

def countCarts (s : State) (st : CartState) : Nat := (s.ret.carts.filter fun k => k.any fun x => x.state == st).length
def drivesIn (s : State) : Nat := (s.drives.filter fun d => d.service == .inService).length

/-- REJECTs still waiting for a mail slot; the one that holds the arm has its slot (R33, R181). -/
def rejectsWaiting (s : State) : Nat :=
  ((allTransfers s).filter fun t => t.kind == .reject && s.picker.arm.map Arm.xfer != some t.id).length

def startedNotice (s : State) : State :=
  notify s .started none
    (be 1 s.boot.found ++ be 1 (countCarts s .missing) ++ be 1 (rejectsWaiting s) ++ be 1 (drivesIn s) ++ flag s.boot.lost)

/-- START becomes RUN (R181 steps 4 and 5). -/
def startEndRule (s : State) : Option State :=
  if s.mode = .start ∧ reconciled s then some (startedNotice { filingLost s with mode := .run }) else none

/-! ### REST and NIGHT (R184, R186) -/

/-- The number of the first condition of REST that does not hold; 0 where all hold (R184). -/
def restBlocked (s : State) : Nat :=
  if s.work ≠ [] then 1
  else if s.filings ≠ [] then 2
  else if s.drives.any fun d => d.state == .active || d.state == .spinningUp then 3
  else if allTransfers s ≠ [] then 4
  else if s.picker.state ≠ .idle ∧ s.picker.state ≠ .parked then 5
  else 0

/-- Of NIGHT, which has two conditions more (R186). -/
def nightBlocked (s : State) : Nat :=
  if restBlocked s ≠ 0 then restBlocked s
  else if s.ret.dayOpen then 6
  else if s.filings.any fun f => f.state == .awaitingConsent then 7
  else 0

def restOp (s : State) : Answer :=
  match s.mode with
  | .night => refuse s .night []
  | .rest => done s s []
  | _ => if restBlocked s ≠ 0 then refuse s .busy (be 1 (restBlocked s)) else done s { s with mode := .rest } []

/-- On entry to NIGHT every loaded drive that is not FAULTED is released for a RETURN (R186). DEDUCED (log 70): an unrecorded
cartridge, which has no home slot, goes out by a REJECT. -/
def nightRelease (s : State) : State :=
  drives4.foldl (fun s d =>
    let x := s.drive d
    if x.state = .faulted ∨ x.state = .outOfService ∨ transferFrom s d then s
    else requestHome s x.occ (.drive d) none false) s

def nightOp (s : State) : Answer :=
  match s.mode with
  | .night => done s s []
  | _ =>
    if nightBlocked s ≠ 0 then refuse s .busy (be 1 (nightBlocked s)) else done s (nightRelease { s with mode := .night }) []

/-- WAKE (R188): what NIGHT held back goes on through the door rule and the INSPECT requests. -/
def wakeOp (s : State) : Answer :=
  match s.mode with
  | .night | .rest => done s { s with mode := .run } []
  | _ => done s s []

/-! ### RESTART (R189, R69, R60) -/

def Task.isBurst : Task → Bool
  | .readBurst _ | .writeBurst _ | .commitBurst _ => true
  | _ => false

def onBus (s : State) (d : Nat) (p : BayCmd → Bool) : Bool :=
  s.bay.bus.any fun e => e.1.module == driveAddr d && p e.1.cmd

def queued (s : State) (d : Nat) (cmd : BayCmd) : Bool :=
  s.bay.queue.any fun e => e.module == driveAddr d && e.cmd == cmd

/-- A burst is stopped: the data channel stops, queued commands are dropped, and the operation in progress is awaited (R60). -/
def stopBurst (s : State) (d : Nat) : State :=
  let busy := (s.drive d).op.isSome || onBus s d BayCmd.isBlockOp
  let s := dropCommands s fun e => e.module == driveAddr d && e.cmd.isBlockOp
  if busy then s.modDrive d fun x => { x with task := .stopBurst, chan := [] }
  else
    s.modDrive d fun x =>
      { x with state := .ready, task := .idle, chan := [], lastUse := s.elapsed, readySince := s.elapsed, idleOn := true }

/-- A mount whose LOAD, or a remount whose SPIN_UP, has not been sent is undone (R69, log 14). -/
def undoMount (s : State) (d : Nat) : State :=
  let x := s.drive d
  let unsent := queued s d .load || (x.dirLoaded && queued s d .spinUp)
  if unsent then
    let s := dropCommands s fun e => e.module == driveAddr d && (e.cmd == .load || e.cmd == .spinUp)
    s.modDrive d fun x => { x with state := .stopped, task := .idle }
  else s

/-- What RESTART does to one drive. -/
def restartDrive (s : State) (d : Nat) : State :=
  let s := s.modDrive d fun x => { x with chain := 0, chainAsk := false }
  match (s.drive d).task with
  | .readBurst _ | .writeBurst _ | .commitBurst _ => stopBurst s d
  | .spinUp => if rebuilding s then s else undoMount s d
  | .writeLabel (.opening _) l p => s.modDrive d fun x => { x with task := .writeLabel .dropped l p }
  | _ => s

/-- Every item, held request, filing, order and fetch record ends with no notice; staging, reservations and the port are
freed (R189). -/
def dropWork (s : State) : State :=
  { s with
    work := []
    heldReqs := []
    claims := []
    filings := []
    fileLine := []
    reserved := []
    orders := []
    fetches := []
    port := { s.port with holder := none, inHand := none, out := [] } }

/-- Queued MOUNT and IMPORT_TAKE transfers are removed, but for the one that holds the arm (R34). -/
def dropMounts (s : State) : State :=
  let granted := s.picker.arm.map Arm.xfer
  let keep : Transfer → Bool := fun t => !((t.kind == .mount || t.kind == .importTake) && granted != some t.id)
  s.modPicker fun p => { p with queue := p.queue.filter keep, deferred := p.deferred.filter keep }

/-- The LOADED_IN mail slots in the order they became so, as items, held requests and the Picker Unit's own requests stand
(R40). -/
def inspectOrder (s : State) : List Nat :=
  let items := (s.work.filter fun i => i.kind == .inspect).mergeSort fun a b => decide (a.id ≤ b.id)
  let all := items.filterMap Item.mail ++ (s.heldReqs.filterMap fun h => match h with
    | .inspect m _ => some m
    | .file _ => none) ++ s.picker.inspectWanted ++ mails2
  all.eraseDups.filter fun m => (s.mail m).state == .loadedIn

/-- The drive to which a granted IMPORT_TAKE is bringing a mail slot's cartridge. -/
def takeDrive (s : State) (m : Nat) : Option Nat :=
  (armXfer s).bind fun t => match t.kind, t.dst with
    | .importTake, some (.drive d) => if t.src = .mail m then some d else none
    | _, _ => none

/-- Drives holding an unrecorded cartridge that has had no finding (R40, log 15). -/
def uninspected (s : State) : List Nat :=
  drives4.filter fun d =>
    let x := s.drive d
    x.occ == .unrecorded && x.fromMail.isSome && !x.found && x.state != .faulted && !transferFrom s d

/-- RESTART asks for the INSPECT items again (R189). -/
def askInspects (s : State) (order : List Nat) : State :=
  let s := order.foldl (fun s m => createInspectItem s m (takeDrive s m)) s
  (uninspected s).foldl (fun s d => createInspectItem s (((s.drive d).fromMail).getD 1) (some d)) s

/-- The certified sets in progress, which are voided as their orders end (R157). -/
def setsInProgress (s : State) : Nat := (s.orders.filter Order.inProgress).length

/-- RESTART's Retained Store update: the filing-in-progress marker is cleared (R189), and the day counts the sets voided
(R157). -/
def restartStore (s : State) : State :=
  s.retain fun r =>
    { r with marker := none, counts := { r.counts with voidedSets := r.counts.voidedSets + setsInProgress s } }

def restartOp (s0 : State) : Answer :=
  let order := inspectOrder s0
  let s := drives4.foldl restartDrive (dropMounts (dropWork (restartStore s0)))
  let s := (s.modPicker fun p => { p with inspectWanted := [] })
  let s := askInspects { s with mode := .run } order
  done s0 s (be 1 Mode.run.code ++ be 2 Config.stagingBlocks)

end Sys2Proof.Machine
end

