-- ==== Sys2Proof/Machine/Queries.lean ====
section
/-! DEFINITION. The reports: STATUS (R196) and the queries, at R200's widths; lists carry their count first (log 11). -/

namespace Sys2Proof.Machine

/-- A list with its count in one byte. -/
def counted {α : Type} (l : List α) (f : α → List Byte) : List Byte := be 1 l.length ++ l.flatMap f

/-- A clock reading, absent while there is none. -/
def optClock (c : Option Clock) : List Byte := optNum 2 (c.map Clock.day) ++ optField 4 (c.map Clock.second)

/-! ### STATUS (R196) -/

def mailFields (m : Mail) : List Byte := be 1 m.state.code ++ flag m.locked ++ flag m.faulty

def classCounts (s : State) : List Byte :=
  [WorkClass.urgent, .media, .view, .copy, .file].flatMap fun c => be 1 (classItems s c).length

def statusFields (s : State) : List Byte :=
  be 1 s.mode.code ++ (s.drives.flatMap fun d => be 1 d.state.code ++ be 1 d.service.code) ++ be 1 s.picker.state.code
    ++ s.picker.mails.flatMap mailFields ++ be 2 (freeStaging s) ++ classCounts s ++ be 1 s.heldReqs.length
    ++ be 1 s.filings.length ++ be 1 s.orders.length ++ be 1 s.fetches.length ++ be 1 (pendingConsents s).length
    ++ be 1 s.picker.queue.length ++ be 2 s.picker.deferred.length ++ be 1 (noticeCount s) ++ be 1 s.port.printer.code
    ++ optNum 2 (openSide s) ++ be 6 s.ret.nextDoc ++ optClock s.clock ++ flag s.dropped

/-- STATUS clears the dropped-notice flag that its reply carries. -/
def statusOp (s : State) : Answer := done s { s with dropped := false } (statusFields s)

def stationQueryOp (s : State) : Answer := done s s (stationFields s)
def paramsQueryOp (s : State) : Answer := done s s (paramFields s.params)

/-! ### LOCATE and SIDE_QUERY (R14, R15) -/

def cartStateCode (s : State) (c : Nat) : Nat := ((s.cart c).map fun k => k.state.code).getD 0
def cartLabel (s : State) (c : Nat) : Nat := ((s.cart c).map Cart.label).getD 0

def locateOp (s : State) (body : List Byte) : Answer :=
  let doc := numAt body 0 4
  match rangeLookup s doc with
  | none => done s s (flag false ++ flag (decide (s.ret.nextDoc ≤ doc)))
  | some n =>
    let c := sideCart n
    done s s (flag true ++ be 2 n ++ be 1 (faceCode (sideFace n)) ++ be 4 (cartLabel s c) ++ be 1 (cartStateCode s c)
      ++ be 1 (s.side n).state.code ++ flag (stuck s c))

def sideReport (s : State) (n : Nat) : List Byte :=
  if !sideAssigned s n then flag false
  else
    let c := sideCart n
    let e := s.side n
    flag true ++ be 1 c ++ be 4 (cartLabel s c) ++ be 1 (cartStateCode s c) ++ be 1 e.state.code ++ optNum 4 e.first
      ++ optNum 4 e.last ++ be 2 e.count ++ be 4 e.writePtr ++ be 2 e.spareUsed ++ be 2 e.slotsUsed
      ++ optNum 1 (e.closeReason.map CloseReason.code) ++ optNum 2 e.openedDay ++ flag e.closedPending
      ++ be 4 (freeData e) ++ be 2 (slotsLeft e) ++ be 2 (sparesLeft e)

/-- A first number and a count of 1 to 16 within a table of `size`. -/
def spanOk (size first count : Nat) : Bool :=
  decide (1 ≤ first ∧ first ≤ size ∧ 1 ≤ count ∧ count ≤ 16 ∧ first + count ≤ size + 1)

def sideQueryOp (s : State) (body : List Byte) : Answer :=
  let first := numAt body 0 2
  let count := numAt body 2 1
  if spanOk Config.sideCount first count then
    done s s ((List.range count).flatMap fun i => sideReport s (first + i))
  else refuse s .badField []

/-! ### CARTRIDGE_QUERY and SLOT_QUERY (R49) -/

def cartReport (s : State) (c : Nat) : List Byte :=
  match s.cart c with
  | none => flag false
  | some k =>
    flag true ++ be 4 k.label ++ be 1 k.state.code ++ optNum 1 k.home ++ placeBytes s (placeOf s c) ++ flag (exporting s c)
      ++ flag (stuck s c) ++ be 1 (s.side (sideOf c .a)).state.code ++ be 1 (s.side (sideOf c .b)).state.code

def cartridgeQueryOp (s : State) (body : List Byte) : Answer :=
  let first := numAt body 0 1
  let count := numAt body 1 1
  if spanOk Config.recordCount first count then
    done s s ((List.range count).flatMap fun i => cartReport s (first + i))
  else refuse s .badField []

def occupantFields (o : Occupant) : List Byte :=
  match o with
  | .empty => be 1 1 ++ be 1 0
  | .record c => be 1 2 ++ be 1 c
  | .unrecorded => be 1 3 ++ be 1 0

def slotReport (s : State) : List Byte :=
  ((upTo Config.slotCount).flatMap fun n => be 1 (slotCode s n) ++ optNum 1 (homeOf s n))
    ++ s.picker.mails.flatMap mailFields ++ (s.drives.flatMap fun d => occupantFields d.occ)
    ++ occupantFields s.picker.gripper ++ be 1 (freeSlots s).length ++ be 4 s.ret.labelCounter
    ++ be 1 s.picker.state.code ++ be 1 s.picker.queue.length ++ be 2 s.picker.deferred.length

def slotQueryOp (s : State) : Answer := done s s (slotReport s)

/-! ### WORK_QUERY (R93) -/

/-- An item's progress (R70): FETCH its next page, COPY its set and next page, FILE its next block offset, INSPECT none. -/
def itemProgress (s : State) (i : Item) : List Byte :=
  match i.kind with
  | .fetch => be 1 (((s.fetches.find? fun f => f.item == some i.id).map Fetch.nextRead).getD 0)
  | .copy =>
    let at_ := ((itemOrder s i.id).map Order.readPoint).getD (0, 0)
    be 1 at_.1 ++ be 1 at_.2
  | .file => be 2 (((i.filing.bind s.findFiling).map Filing.progress).getD 0)
  | .inspect => []

/-- The one drive an eligible item waits for (R84 steps 3 and 4). -/
def waitedDrive (s : State) (i : Item) : Option Nat :=
  if eligible s i then (itemDrive s i).bind fun d => if driveAvailable s d then none else some d else none

def itemReport (s : State) (i : Item) : List Byte :=
  optField 2 (i.tag.map BitVec.toNat) ++ optField 1 i.station ++ be 1 i.cls.code ++ be 1 i.kind.code ++ optNum 2 i.side
    ++ optNum 4 i.doc ++ optField 4 (i.filing.map BitVec.toNat) ++ optNum 1 i.mail ++ be 1 i.state.code
    ++ itemProgress s i ++ be 1 i.yields ++ be 1 i.limit ++ optNum 1 i.drive
    ++ optNum 1 (waitedDrive s i)

def workReport (s : State) : List Byte :=
  counted (rankedItems s) (itemReport s) ++ be 1 s.heldReqs.length ++ (s.drives.flatMap fun d => be 1 d.chain)
    ++ be 1 (orderNumber s.params.classOrder) ++ be 1 s.params.burstPages ++ be 2 s.params.writeBurst
    ++ be 1 s.params.yieldLimit ++ be 1 s.params.chainLimit ++ be 2 (freeStaging s) ++ be 2 (heldByFilings s)
    ++ be 2 (heldByReads s) ++ be 1 (waitingClaims s).length ++ be 2 (waitingSize s)

def workQueryOp (s : State) : Answer := done s s (workReport s)

/-! ### FILING_QUERY and WITHHELD_QUERY (R129, R144) -/

def filingReport (f : Filing) : List Byte :=
  be 4 f.ref.toNat ++ be 1 f.station ++ be 1 (rectKind f) ++ be 1 f.state.code ++ be 2 f.count ++ be 2 f.received
    ++ optNum 2 f.target ++ optField 4 f.start ++ be 2 f.claimed ++ be 2 f.progress ++ be 1 f.remaps.length
    ++ flag f.relocated ++ flag f.cancelPending ++ optNum 4 (f.rect.map RectInfo.target)
    ++ optClock (f.rect.bind RectInfo.deadline)

/-- Filings in FILE order, then those without one in order of FILE_BEGIN. -/
def filingsInOrder (s : State) : List Filing :=
  s.fileLine.filterMap s.findFiling ++ s.filings.filter fun f => !s.fileLine.contains f.ref

def markerFields (m : Option FilingMarker) : List Byte :=
  match m with
  | some m => flag true ++ be 4 m.ref.toNat ++ be 2 m.side ++ be 4 m.start
  | none => flag false ++ be 4 0 ++ be 2 0 ++ be 4 0

def filingsReport (s : State) : List Byte :=
  counted (filingsInOrder s) filingReport ++ optField 4 ((headFiling s).map fun f => f.ref.toNat)
    ++ be 6 s.ret.nextDoc ++ optNum 2 (openSide s) ++ markerFields s.ret.marker ++ be 2 (heldByFilings s)

def filingQueryOp (s : State) : Answer := done s s (filingsReport s)

def rangesFields (rs : List (Nat × Nat)) : List Byte := counted rs fun r => be 1 r.1 ++ be 1 r.2

def consentReport (f : Filing) : List Byte :=
  be 4 f.ref.toNat ++ be 1 f.station ++ be 4 ((f.rect.map RectInfo.target).getD 0) ++ optClock (f.rect.bind RectInfo.deadline)

def committedCount (s : State) : Nat := (s.ret.withheld.filter Option.isSome).length

def withheldReport (s : State) (doc : Nat) : List Byte :=
  let es := committedOn s doc
  be 2 es.length ++ (es.flatMap fun e => be 4 e.2.rectDoc ++ rangesFields e.2.ranges)
    ++ rangesFields (rangesOf (withheldSet s doc)) ++ be 2 (committedCount s) ++ be 2 s.reserved.length
    ++ be 2 (Config.withheldCount - committedCount s - s.reserved.length) ++ counted (pendingConsents s) consentReport

def withheldQueryOp (s : State) (body : List Byte) : Answer :=
  let doc := numAt body 0 4
  if doc = 0 then refuse s .badField [] else done s s (withheldReport s doc)

/-! ### COPY_QUERY (R163) -/

def pagesIn (o : Order) (p : PageOutcome) : Nat := (o.pages.filter fun q => q.outcome == p).length

def orderReport (o : Order) : List Byte :=
  be 1 o.number ++ be 4 o.accept.toNat ++ be 2 o.tag.toNat ++ be 1 o.station ++ be 4 o.doc ++ be 2 o.side
    ++ be 1 (kindCode o.cert) ++ be 1 o.sets ++ rangesFields o.spans ++ be 1 o.payer ++ be 4 o.rate
    ++ optField 4 (if o.cert then some o.certFee else none) ++ counted o.selection (be 1 ·) ++ flag o.copy.isSome
    ++ be 4 o.hold ++ be 1 o.state.code
    ++ optNum 1 (o.closing.map Closing.code) ++ be 1 o.curSet ++ counted o.setPages (be 1 ·) ++ be 4 o.pendingCharge
    ++ be 1 o.readPoint.1 ++ be 1 o.readPoint.2 ++ orderCounts o ++ be 2 (pagesIn o .staged) ++ be 2 (pagesIn o .inBurst)

def inHandFields (h : Option PageInHand) : List Byte :=
  match h with
  | some h => flag true ++ be 1 h.kind.code ++ be 1 h.set ++ be 1 h.page ++ be 1 h.attempt ++ be 1 h.limit.code
  | none => flag false ++ be 5 0

def ordersReport (s : State) : List Byte :=
  counted s.orders orderReport ++ be 1 s.port.printer.code ++ optNum 1 s.port.holder ++ inHandFields s.port.inHand
    ++ be 2 s.port.nextSeq.toNat

def copyQueryOp (s : State) : Answer := done s s (ordersReport s)

end Sys2Proof.Machine
end

