-- ==== Sys2Proof/Machine/Schedule.lean ====
section
/-! DEFINITION. The Work Scheduler's decisions (R71, R79 to R90): held requests, chaining, the assignment pass, the way to an
item's face, the asking of bursts, the claims of read bursts, and the preemption of an item that runs no burst. -/

namespace Sys2Proof.Machine

/-! ### Held requests (R71) -/

/-- The oldest held request becomes an item where the list has room. -/
def heldRule (s : State) : Option State :=
  match s.heldReqs with
  | [] => none
  | h :: hs =>
    if Config.workCapacity ≤ s.work.length then none
    else
      let s := { s with heldReqs := [] }
      let s := match h with
        | .file ref => createFileItem s ref
        | .inspect m d => createInspectItem s m d
      some { s with heldReqs := hs }

/-- The Picker Unit's requests for INSPECT items are taken in RUN (R40, R181, R187). -/
def inspectRule (s : State) : Option State :=
  match s.picker.inspectWanted with
  | m :: ms => if s.mode = .run then some (createInspectItem (s.modPicker fun p => { p with inspectWanted := ms }) m none) else none
  | [] => none

/-! ### Chaining (R83) -/

/-- The drive that a chain decision finds exhausted: an eligible item of another side waits without a drive or for the other
face (R83; log 16). -/
def chainExhausted (s : State) (d : Nat) : Bool :=
  decide (s.params.chainLimit ≤ (s.drive d).chain) && s.work.any fun i =>
    eligible s i && i.side != (s.drive d).side &&
      (match itemDrive s i with
       | none => true
       | some e => e == d)

/-- An eligible URGENT item for another side waits without a drive (R83, R88). -/
def urgentElsewhere (s : State) (d : Nat) : Bool :=
  s.work.any fun i => i.cls == .urgent && eligible s i && i.side != (s.drive d).side && (itemDrive s i).isNone

/-- The best-ranked eligible item on the face drive `d` holds. -/
def chainItem (s : State) (d : Nat) : Option Item :=
  (rankedItems s).find? fun i => eligible s i && i.side.isSome && i.side == (s.drive d).side

/-- A drive that has just become available with its face looks for work on it (R83). -/
def chainRule (s : State) : Option State :=
  (findDrive fun d =>
      (s.drive d).chainAsk && driveAvailable s d && ((s.drive d).state != .ready || (markDue s d).isNone)).map fun d =>
    match chainItem s d with
    | some i =>
      if chainExhausted s d || urgentElsewhere s d then s.modDrive d fun x => { x with chainAsk := false }
      else giveDrive s i.id d
    | none => s.modDrive d fun x => { x with chainAsk := false }

/-! ### The assignment pass (R84) -/

/-- The drive holds a face for which no eligible item waits. -/
def faceIdle (s : State) (d : Nat) : Bool :=
  (s.drive d).side.isSome && !s.work.any fun i => eligible s i && i.side == (s.drive d).side

/-- Of two drives the one with the older last use, the lower number on a tie. -/
def olderUse (s : State) (best : Option Nat) (d : Nat) : Option Nat :=
  match best with
  | none => some d
  | some b => if (s.drive d).lastUse < (s.drive b).lastUse then some d else some b

/-- Step 6: the lowest-numbered EMPTY drive, or the idle face with the oldest last use. -/
def freshDrive (s : State) : Option Nat :=
  (findDrive fun d => driveAvailable s d && (s.drive d).state == .empty).orElse fun _ =>
    (drives4.filter fun d => driveAvailable s d && (s.drive d).state != .empty && faceIdle s d).foldl (olderUse s) none

/-- The drive the pass gives an item (R84 steps 2 to 7). -/
def driveFor (s : State) (i : Item) : Option Nat :=
  match itemDrive s i with
  | some e => if driveAvailable s e then some e else none
  | none => freshDrive s

/-- One gift of the pass: the best-ranked eligible item for which there is a drive. -/
def assignRule (s : State) : Option State :=
  ((rankedItems s).find? fun i => eligible s i && (driveFor s i).isSome).bind fun i =>
    (driveFor s i).map fun d => giveDrive s i.id d

/-! ### Preemption of an item that runs no burst (R90) -/

/-- The item's remount has not had its SPIN_UP sent. -/
def remountUnsent (s : State) (i : Item) (d : Nat) : Bool :=
  let x := s.drive d
  i.state == .assigned && x.side == i.side && x.dirLoaded && !releasing s d &&
    (x.state == .stopped || x.state == .spinningDown || x.state == .spinningUp && queued s d .spinUp)

/-- A remount not yet sent is abandoned. -/
def abandonRemount (s : State) (d : Nat) : State := if (s.drive d).state = .spinningUp then undoMount s d else s

def preemptOn (s : State) (d : Nat) : Option State :=
  (holderOf s d).bind fun i =>
    if !i.ended && (i.state == .waitingStaging || remountUnsent s i d) then
      (yieldsTo s i d).map fun u => giveDrive (yieldItem (abandonRemount s d) i.id) u.id d
    else none

def preemptRule (s : State) : Option State := drives4.findSome? (preemptOn s)

/-! ### The way to the item's face (R56, R85) -/

/-- DISMOUNT of what the drive holds, to its home slot. -/
def askDismount (s : State) (i : Item) (d : Nat) : Option State :=
  match (s.drive d).occ with
  | .record c =>
    ((s.cart c).bind Cart.home).map fun h =>
      requestTransfer s .dismount (some c) (.drive d) (some (.slot h)) .a (some i.id) none false
  | .empty | .unrecorded => none

/-- The transfer that brings an item's cartridge into the EMPTY drive it holds. -/
def askMount (s : State) (i : Item) (d : Nat) : Option State :=
  match i.kind, i.side, i.mail with
  | .inspect, _, some m =>
    if (s.mail m).state = .loadedIn then
      some (requestTransfer s .importTake none (.mail m) (some (.drive d)) .a (some i.id) none false)
    else none
  | _, some n, _ =>
    (slotHolding s (sideCart n)).map fun k =>
      requestTransfer s .mount (some (sideCart n)) (.slot k) (some (.drive d)) (sideFace n) (some i.id) none false
  | _, _, _ => none

/-- The drive holds what the item is for: its face, or for INSPECT a cartridge that has had no finding. -/
def holdsTarget (s : State) (i : Item) (d : Nat) : Bool :=
  if i.kind = .inspect then (s.drive d).occ == .unrecorded && !(s.drive d).found
  else i.side.isSome && (s.drive d).side == i.side

/-- The next request for an ASSIGNED item's face on drive `d`. -/
def faceStep (s : State) (i : Item) (d : Nat) : Option State :=
  let x := s.drive d
  if holdsTarget s i d then
    if x.state = .stopped ∧ x.task = .idle ∧ ¬releasing s d then
      some (if x.dirLoaded then beginRemount s d else beginMount s d)
    else none
  else if x.state = .empty then
    if transferInto s d then none else askMount s i d
  else if transferFrom s d then none
  else if x.state = .ready ∨ x.state = .stopped ∨ x.state = .spinningDown then askDismount s i d
  else none

def faceOn (s : State) (d : Nat) : Option State :=
  (holderOf s d).bind fun i => if i.state = .assigned ∧ i.ended = false then faceStep s i d else none

def faceRule (s : State) : Option State := drives4.findSome? (faceOn s)

/-! ### Asking bursts (R81, R98, R117, R151) -/

/-- The burst that the Filing Unit names is granted to drive `d` (R117). -/
def startWrite (s : State) (i : Item) (f : Filing) (n d hi : Nat) : State :=
  let s := if f.progress < f.claimed then s else claimBurst s f n hi
  let s := s.modItem i.id fun x => { x with state := .active }
  let s := s.modDrive d fun x => { x with state := .active, idleOn := false }
  let b : WriteBurst :=
    { item := i.id, ref := f.ref, side := n, start := ((s.findFiling f.ref).bind Filing.start).getD 0, lo := f.progress,
      hi := hi, pass := .erase, next := f.progress, spare := none, relocate := none }
  driveOp s d (.writeBurst b) (.erase (b.addr b.lo) (b.hi - b.lo))

/-- The commit burst is granted (R123); with no directory slot left the filing relocates (R122). -/
def startCommit (s : State) (i : Item) (f : Filing) (n d : Nat) : State :=
  let s := s.modFiling f.ref fun x => { x with state := .committing }
  if slotsLeft (s.side n) = 0 then
    let r := relocateFiling s f.ref n .directory
    decide_ r.1 i.id d r.2
  else
    let s := s.modItem i.id fun x => { x with state := .active }
    let s := s.modDrive d fun x => { x with state := .active, idleOn := false }
    sendCommit s d ⟨i.id, f.ref, n, assemble s f, (s.side n).slotsUsed + 1, .erase⟩

/-- The Work Scheduler asks a FILE item's next burst on the READY drive `d` that holds its target side (R115, R117). -/
def askFile (s : State) (i : Item) (d : Nat) : State :=
  match i.filing.bind s.findFiling, i.side with
  | some f, some n =>
    if (s.side n).state = .blank ∧ anyOpened s = false then beginLabelWrite s d (.opening n) (openLabel s n)
    else if (s.side n).state ≠ .opened then recheckOn s f.ref i.id d
    else if f.progress < f.count then startWrite s i f n d (burstTop s f)
    else startCommit s i f n d
  | _, _ => endItem s i.id

def askBurst (s : State) (i : Item) (d : Nat) : State :=
  match i.kind with
  | .fetch => askFetch s i d
  | .copy => askCopy s i d
  | .file => askFile s i d
  | .inspect => s

/-- The item's face is READY at the head and nothing stands before its burst. -/
def faceReady (s : State) (i : Item) (d : Nat) : Bool :=
  let x := s.drive d
  i.state == .assigned && !i.ended && i.kind != .inspect && x.state == .ready && x.task == .idle && x.service == .inService &&
    i.side.isSome && x.side == i.side && (markDue s d).isNone && !releasing s d

/-- The claim granted to an item and not yet begun. -/
def readyClaim (s : State) (item : Nat) : Option Claim :=
  s.claims.find? fun c => c.owner == .item item && c.blocks.isSome && !c.begun

/-- A granted read burst begins (R60, R79). -/
def startRead (s : State) (i : Item) (d : Nat) (c : Claim) : State :=
  let s := { s with claims := s.claims.map fun (x : Claim) => if x.id = c.id then { x with begun := true } else x }
  let s := s.modItem i.id fun x => { x with state := .active }
  let s := s.modDrive d fun x => { x with state := .active, idleOn := false }
  match nextRead ⟨i.id, c.id, [], 0, c.cells, []⟩ with
  | some b => sendRead s d b
  | none =>
    let b : ReadBurst := ⟨i.id, c.id, [], 0, [], []⟩
    endBurst s d i.id (.readBurst b) fun s i => readBurstEnd s i b

/-- The next burst of the item on drive `d`: the one whose claim has been granted, or a new one; an item whose order went
SUSPENDED or closing meanwhile parks (R79, R81, R91). -/
def burstOn (s : State) (d : Nat) : Option State :=
  (holderOf s d).bind fun i =>
    if faceReady s i d then
      some (match readyClaim s i.id with
        | some c =>
          if i.kind = .copy ∧ (itemOrder s i.id).any (fun o => copyParks s o i.id) then parkItem s i.id
          else startRead s i d c
        | none => askBurst s i d)
    else none

def burstRule (s : State) : Option State := drives4.findSome? (burstOn s)

/-! ### The allocator's grant (R79) -/

/-- The waiting claim of the best-ranked item that has one. -/
def firstWaiting (s : State) : Option Claim :=
  (rankedItems s).findSome? fun i => s.claims.find? fun c => c.owner == .item i.id && c.blocks.isNone

/-- The best-ranked waiting claim is granted where it fits; a claim behind it does not pass it. DESIGN CHOICE (log 65): it is
examined also when SET_PARAMS changes the class order. -/
def claimRule (s : State) : Option State :=
  match firstWaiting s with
  | none => none
  | some c =>
    if freeStaging s < c.size then none
    else
      let bs := (freeBlocks s).take c.size
      let s := { s with claims := s.claims.map fun (x : Claim) =>
        if x.id = c.id then { x with blocks := some bs, live := bs } else x }
      some (match c.owner with
        | .item id => s.modItem id fun i => if i.state = .waitingStaging then { i with state := .assigned } else i
        | .filing _ => s)

end Sys2Proof.Machine
end

