-- ==== Sys2Proof/Machine/BayLink.lean ====
section
/-! DEFINITION. The Bay Link Master (R65 to R69): sending, tries, attention passes, and where a module's answers go. -/

namespace Sys2Proof.Machine

def State.modBay (s : State) (f : Bay → Bay) : State := { s with bay := f s.bay }

/-- A module by its bus address (R65). -/
inductive Module
  | picker
  | drive (d : Nat)
  | door (m : Nat)
  deriving DecidableEq, Repr

def moduleAt (a : Nat) : Module := if a = 1 then .picker else if a ≤ 5 then .drive (a - 1) else .door (a - 5)

/-! ### Sending and passes (R67, R68) -/

/-- The oldest queued command goes on the free bus where no attention read is owed, a failed pass gives way to it (R68), or the
inventory's own status reads serve the attention line (R69, log 57). -/
def baySendOp (s : State) (attention : Bool) : State :=
  match s.bay.bus, s.bay.queue with
  | none, e :: rest =>
    if attention && !s.bay.passFailed && !inventoryOn s then s
    else s.modBay fun b => { b with bus := some (e, 0), queue := rest, passFailed := false }
  | _, _ => s

def passRead (module : Nat) : BayEntry := ⟨module, .status, .pass⟩

/-- An attention pass begins at the lowest address (R68). While the inventory is made it waits for the queues to empty and
reads the picker alone, for the ends of its PARK and SCAN (R69, log 57). -/
def attentionPassOp (s : State) : State :=
  if s.bay.bus.isNone ∧ ¬((s.bay.passFailed ∨ inventoryOn s) ∧ s.bay.queue ≠ []) then
    s.modBay fun b =>
      { b with bus := some (passRead 1, 0), passLeft := if inventoryOn s then [] else [2, 3, 4, 5, 6, 7], passFailed := false }
  else s

/-- A pass goes on with its next module. -/
def passNext (s : State) : State :=
  match s.bay.passLeft with
  | m :: ms => s.modBay fun b => { b with bus := some (passRead m, 0), passLeft := ms }
  | [] => s

def freeBus (s : State) : State := s.modBay fun b => { b with bus := none }

/-- What follows the end of a command on the bus: the rest of its pass. -/
def afterCommand (s : State) (e : BayEntry) : State := if e.why = .pass then passNext s else s

/-! ### Answers -/

/-- The module's acknowledge of a command's last byte (R65). -/
def bayCommandTakenOp (s : State) : State :=
  match s.bay.bus with
  | some (e, _) =>
    if e.cmd = .status then s
    else
      let s := freeBus s
      match moduleAt e.module with
      | .picker => pickerCommandTaken s e.cmd
      | .drive d => driveCommandTaken s d e.cmd
      | .door m => doorCommandTaken s m e.cmd
  | none => s

/-- A STATUS to module `a` is on the bus. -/
def statusOnBus (s : State) (a : Nat) : Option BayEntry :=
  match s.bay.bus with
  | some (e, _) => if e.cmd = .status ∧ e.module = a then some e else none
  | none => none

/-- A status goes to the block that owns module `a` (R67). -/
def statusTaken (s : State) (a : Nat) (op : State → Why → State) : State :=
  match statusOnBus s a with
  | some e => afterCommand (op (freeBus s) e.why) e
  | none => s

def pickerTakenOp (s : State) (st : PickerStatus) : State := statusTaken s 1 fun s w => pickerStatusOp s st w

def driveTakenOp (s : State) (d : Nat) (st : DriveStatus) : State :=
  if 1 ≤ d ∧ d ≤ 4 then
    statusTaken s (driveAddr d) fun s w =>
      let s := driveStatusOp s d st w
      if w = .inventory then invDriveDone s d else s
  else s

def doorTakenOp (s : State) (m : Nat) (st : DoorStatus) : State :=
  if m = 1 ∨ m = 2 then statusTaken s (doorAddr m) fun s w => doorStatusOp s m st w else s

/-! ### Failed tries (R65, R66) -/

/-- A command has failed: the block that issued it is told, and the module is faulted (R66). -/
def commandFailed (s : State) (e : BayEntry) : State :=
  let s := if e.why = .pass then s.modBay fun b => { b with passFailed := true } else s
  let s := match moduleAt e.module with
    | .picker => pickerCommandFailed s e
    | .drive d =>
      let s := driveCommandFailed s d e
      if e.why = .inventory then invDriveDone s d else s
    | .door m => doorCommandFailed s m e
  afterCommand s e

/-- A try fails; the same command is tried again at once, three times in all (R66). -/
def tryFailed (s : State) : State :=
  match s.bay.bus with
  | some (e, n) => if n < 2 then s.modBay fun b => { b with bus := some (e, n + 1) } else commandFailed (freeBus s) e
  | none => s

/-! ### Inventory reads lost with a fault (R47, R66) -/

/-- An inventory STATUS of module `a` is queued or on the bus. -/
def inventoryOut (s : State) (a : Nat) : Bool :=
  (s.bay.queue.any fun e => e.module == a && e.why == .inventory) ||
    s.bay.bus.any fun e => e.1.module == a && e.1.why == .inventory

/-- An inventory read that left its queue at a fault counts as failed. -/
def inventoryLostRule (s : State) : Option State :=
  match s.picker.routine with
  | .invDrives left => (left.find? fun d => !inventoryOut s (driveAddr d)).map (invDriveDone s)
  | .invDoors left => (left.find? fun m => !inventoryOut s (doorAddr m)).map (invDoorDone s)
  | _ => none

end Sys2Proof.Machine
end

