-- ==== Sys2Proof/Machine/Settle.lean ====
section
/-! DEFINITION. What comes about inside one command (spec/95): the rules a block acts on by itself, applied in one order until
none applies (log 9), and the outgoing line of the Host Link (R192). -/

namespace Sys2Proof.Machine

/-! ### The line (R192) -/

/-- Begins a control frame, or a PAGE frame of the fetch unit's round. -/
def lineControl (s : State) : State := { s with line := some .control, lastWasControl := true }
def linePage (s : State) (p : PageFrame) : State :=
  { s with line := some (.page p), lastWasControl := false, fetchTurn := p.fetch }

/-- The free line takes its next frame: control and PAGE frames in turn, or whichever waits (log 25). -/
def pumpLine (s : State) : State :=
  if s.line.isSome || s.heldOff then s
  else
    match nextPageFrame s, s.control with
    | some p, [] => linePage s p
    | some p, _ :: _ => if s.lastWasControl then linePage s p else lineControl s
    | none, _ :: _ => lineControl s
    | none, [] => s

/-! ### The rules -/

/-- Requests and orders: R71, R40, R116, R16, R149, R91. -/
def workRules : List (State → Option State) :=
  [inventoryLostRule, heldRule, inspectRule, heldReleaseRule, fileCheckRule, portGrantRule, parkRule, unparkRule]

/-- Drives on their own: R42, R20, R56, R61, R57, R64, R182, R183. -/
def driveRules : List (State → Option State) :=
  [findingRule, closedMarkRule, spinDownRule, leavingRule, releaseRule, homeRule, rebuildDriveRule, rebuildIdentifyRule,
    rebuildMountRule, rebuildStarvedRule, rebuildEndRule, exportAgainRule]

/-- The scheduler: R79, R83, R84, R90, R85, R81. -/
def scheduleRules : List (State → Option State) :=
  [claimRule, chainRule, assignRule, preemptRule, faceRule, burstRule]

/-- The picker and the doors, and the ends: R34, R35, R31, R32, R106, R181. -/
def pickerRules : List (State → Option State) :=
  [admitRule, grantRule, sendRule, doorRule, parkPickerRule, fetchDoneRule, startEndRule]

def rules : List (State → Option State) := workRules ++ driveRules ++ scheduleRules ++ pickerRules

/-- The first rule that applies. -/
def applyFirst : List (State → Option State) → State → Option State
  | [], _ => none
  | r :: rs, s =>
    match r s with
    | some s' => some s'
    | none => applyFirst rs s

/-- Rules applied until none applies. -/
def settleLoop : Nat → State → State
  | 0, s => s
  | n + 1, s =>
    match applyFirst rules s with
    | some s' => settleLoop n s'
    | none => s

/-- A command's consequences, then the line. -/
def settle (s : State) : State := pumpLine (settleLoop Config.settleBound s)

end Sys2Proof.Machine
end

