-- ==== Sys2Proof/Machine/HostLink.lean ====
section
/-! DEFINITION. The Host Link Unit (R190 to R192): frames that arrive, the checks before dispatch, replies, and frames that have
left. -/

namespace Sys2Proof.Machine

/-! ### Dispatch to the owning block -/

/-- The owning block's answer to a request that passed the checks of R191. -/
def dispatch (k : ReqKind) (s : State) (tag : Word16) (st : Nat) (b : List Byte) : Answer :=
  match k with
  | .status => statusOp s
  | .stationQuery => stationQueryOp s
  | .paramsQuery => paramsQueryOp s
  | .locate => locateOp s b
  | .sideQuery => sideQueryOp s b
  | .cartridgeQuery => cartridgeQueryOp s b
  | .slotQuery => slotQueryOp s
  | .workQuery => workQueryOp s
  | .filingQuery => filingQueryOp s
  | .withheldQuery => withheldQueryOp s b
  | .copyQuery => copyQueryOp s
  | .feeQuery => feeQueryOp s
  | .accountQuery => accountQueryOp s b
  | .fetch => fetchOp s tag st b
  | .copyOrder => copyOrderOp s tag st b
  | .setParams => setParamsOp s b
  | .stationSet => stationSetOp s b
  | .setClock => setClockOp s b
  | .feeSet => feeSetOp s b
  | .accountOpen => accountOpenOp s b
  | .accountLimit => accountLimitOp s b
  | .accountDeposit => accountDepositOp s b
  | .accountWithdraw => accountWithdrawOp s b
  | .accountSuspend => accountSuspendOp s b
  | .accountResume => accountResumeOp s b
  | .accountClose => accountCloseOp s b
  | .tallyQuery => tallyQueryOp s
  | .dayOpen => dayOpenOp s
  | .dayClose => dayCloseOp s
  | .driveService => driveServiceOp s b
  | .pickerReset => pickerResetOp s
  | .slotDisable => slotDisableOp s b
  | .slotEnable => slotEnableOp s b
  | .exportCart => exportOp s tag st b
  | .forget => forgetOp s b
  | .closeSide => closeSideOp s b
  | .markFaulty => markFaultyOp s b
  | .rest => restOp s
  | .night => nightOp s
  | .wake => wakeOp s
  | .restart => restartOp s
  | .fileBegin => fileBeginOp s tag st b
  | .fileData => fileDataOp s st b
  | .fileEnd => fileEndOp s st b
  | .fileCancel => fileCancelOp s st b
  | .consent => consentOp s st b
  | .cancel => cancelOp s st b

/-- A kind whose effect reaches no rule of the scheduler, the drives or the picker. -/
def ReqKind.simple (k : ReqKind) : Bool :=
  match k with
  | .status | .stationQuery | .paramsQuery | .locate | .sideQuery | .cartridgeQuery | .slotQuery | .workQuery
  | .filingQuery | .withheldQuery | .copyQuery | .feeQuery | .accountQuery | .stationSet | .feeSet | .accountOpen
  | .accountLimit | .accountDeposit | .accountWithdraw | .accountSuspend | .accountResume | .accountClose | .tallyQuery
  | .dayOpen | .dayClose | .fileData => true
  | _ => false

/-! ### The checks of R191 -/

/-- The first of checks 2 to 6 that fails: the refusal and its fields; BUSY carries the mode. -/
def gate (s : State) (k : ReqKind) (h : Hdr) (body : List Byte) : Option (RefCode × List Byte) :=
  if s.mode = .start ∧ k ≠ .status then some (.busy, be 1 s.mode.code)
  else if s.mode = .rebuild ∧ k ≠ .status then some (.rebuilding, [])
  else if Config.stationCount < h.station.toNat then some (.badField, [])
  else if ReqKind.maintenanceClass.contains k ∧ isSupervisor s h.station.toNat = false then some (.notPermitted, [])
  else if lengthOk k body = false then some (.badField, [])
  else none

/-- A reply joins the control order at its place. -/
def putReply (a : Answer) (kind : Byte) (h : Hdr) : State :=
  { a.state with
    control := insertAt a.place (.reply ⟨h.tag, h.station, kind, a.outcome, a.fields⟩) a.state.control }

/-- A request of a known kind is taken (R191). -/
def takeKnown (s : State) (k : ReqKind) (h : Hdr) (body : List Byte) : State :=
  match gate s k h body with
  | some (code, fields) => pumpLine (putReply (refuse s code fields) k.byte h)
  | none =>
    let s' := putReply (dispatch k s h.tag h.station.toNat body) k.byte h
    if k.simple then pumpLine s' else settle s'

/-- A good frame is taken: check 1, and the rest for a known kind. -/
def takeRequest (s : State) (kind : Byte) (h : Hdr) (body : List Byte) : State :=
  match reqKindOf kind with
  | some k => takeKnown s k h body
  | none => pumpLine (putReply (refuse s .unknownKind []) kind h)

/-- One LINK_REJECT frame (R190). -/
def linkReject (s : State) (why : BadReason) : State := pumpLine { s with control := s.control ++ [.linkReject why] }

def takeArrival (s : State) (a : Arrival) : State :=
  match a with
  | .request kind h body => takeRequest s kind h body
  | .bad why => linkReject s why

/-- A frame has been received: it is taken, or waits for a Reply Queue place with the host held off (R192, log 21). -/
def arrive (s : State) (a : Arrival) : State :=
  if Config.replyCapacity ≤ replyCount s then { s with waiting := some a } else takeArrival s a

/-- The receiver takes one byte (R190); held off, it receives none (R192, log 21). -/
def rxByte (s : State) (b : Byte) : State :=
  if s.waiting.isSome then s
  else
    let t := { s with rx := (rxStep s.rx b).1 }
    match (rxStep s.rx b).2 with
    | some a => arrive t a
    | none => t

/-- Bytes arrive on the line. -/
def hear (s : State) (bytes : List Byte) : State := bytes.foldl rxByte s

/-- The bytes of a good frame arrive: from a hunt they are that frame, behind bytes of a frame in hand they go on with it
(R190). -/
def arriveFrame (s : State) (kind : Byte) (h : Hdr) (body : List Byte) : State :=
  if s.powered = false ∨ s.waiting.isSome then s
  else if s.rx = [] then arrive s (.request kind h body)
  else hear s (frameBytes kind h.tag h.station body)

/-- A request frame of kind `k` arrives. -/
def arriveKind (s : State) (k : ReqKind) (h : Hdr) (body : List Byte) : State := arriveFrame s k.byte h body

/-- The bytes of BAD_FRAME arrive (R190). -/
def badFrameOp (s : State) (bytes : List Byte) : State := if s.powered then hear s bytes else s

/-- A byte that ends a gap: of a frame in hand it makes a bad frame, and it begins a new hunt (R190). -/
def gapOp (s : State) (next : Byte) : State :=
  if s.powered = false ∨ s.waiting.isSome then s
  else if s.rx = [] then rxByte s next
  else arrive { s with rx := (rxStep [] next).1 } (.bad .gap)

/-! ### Sending (R192) -/

def holdOffOp (s : State) (hold : Bool) : State := pumpLine { s with heldOff := hold }

/-- The frame held with a full Reply Queue is taken once a place is free. -/
def takeWaiting (s : State) : State :=
  match s.waiting with
  | some a => if replyCount s < Config.replyCapacity then takeArrival { s with waiting := none } a else s
  | none => s

/-- The control frame on the line has left: its queue place is free. -/
def frameSentOp (s : State) : State :=
  if s.line = some .control then pumpLine (takeWaiting { s with line := none, control := s.control.tail }) else s

/-- The PAGE frame on the line has left (R101). -/
def pageSentOp (s : State) : State :=
  match s.line with
  | some (.page p) => settle (pageFrameDone { s with line := none } p)
  | _ => s

end Sys2Proof.Machine
end

