-- ==== Sys2Proof/Machine/Powered.lean ====
section
/-! DEFINITION. An event reaches a powered board only (log 6). -/

namespace Sys2Proof.Machine

def whenPowered (s : State) (f : State → State) : State := if s.powered then f s else s

end Sys2Proof.Machine
end

