-- ==== Sys2Proof/Machine/BayEvents.lean ====
section
/-! DEFINITION. Events on the Bay Link, and the limits of transfers and drives (R36, R52, R56, R65 to R68). -/

namespace Sys2Proof.Machine

/-- BAY_SEND (R67). -/
def execBaySend (attention : Bool) (s : State) : Host.Outcome State Fault Refusal :=
  .next (whenPowered s fun s => baySendOp s attention)

/-- BAY_BYTE_NAK (R65, R66). -/
def execBayByteNak (s : State) : Host.Outcome State Fault Refusal :=
  .next (whenPowered s fun s => settle (tryFailed s))

/-- BAY_HOLD_TIMEOUT (R65, R66). -/
def execBayHoldTimeout (s : State) : Host.Outcome State Fault Refusal :=
  .next (whenPowered s fun s => settle (tryFailed s))

/-- BAY_COMMAND_TAKEN (R65). -/
def execBayCommandTaken (s : State) : Host.Outcome State Fault Refusal :=
  .next (whenPowered s fun s => settle (bayCommandTakenOp s))

/-- ATTENTION_PASS (R68). -/
def execAttentionPass (s : State) : Host.Outcome State Fault Refusal :=
  .next (whenPowered s attentionPassOp)

/-- PICKER_STATUS_TAKEN (R32, R67). -/
def execPickerStatusTaken (st : PickerStatus) (s : State) : Host.Outcome State Fault Refusal :=
  .next (whenPowered s fun s => settle (pickerTakenOp s st))

/-- DRIVE_STATUS_TAKEN (R67). -/
def execDriveStatusTaken (drive : Nat) (st : DriveStatus) (s : State) : Host.Outcome State Fault Refusal :=
  .next (whenPowered s fun s => settle (driveTakenOp s drive st))

/-- DOOR_STATUS_TAKEN (R30, R67). -/
def execDoorStatusTaken (mail : Nat) (st : DoorStatus) (s : State) : Host.Outcome State Fault Refusal :=
  .next (whenPowered s fun s => settle (doorTakenOp s mail st))

/-- TRANSFER_TIMEOUT (R36). -/
def execTransferTimeout (s : State) : Host.Outcome State Fault Refusal :=
  .next (whenPowered s fun s => settle (transferTimeoutOp s))

/-- SPIN_UP_TIMEOUT (R52). -/
def execSpinUpTimeout (drive : Nat) (s : State) : Host.Outcome State Fault Refusal :=
  .next (whenPowered s fun s => settle (spinUpTimeoutOp s drive))

/-- IDLE_TIMEOUT (R56). -/
def execIdleTimeout (drive : Nat) (s : State) : Host.Outcome State Fault Refusal :=
  .next (whenPowered s fun s => settle (idleTimeoutOp s drive))

end Sys2Proof.Machine
end

