-- ==== Sys2Proof/Machine/FilingRequests.lean ====
section
/-! DEFINITION. The request frames of the owner-checked class (R194). -/

namespace Sys2Proof.Machine

/-- FILE_BEGIN (R110, R111). -/
def execFileBegin (h : Hdr) (body : List Byte) (s : State) : Host.Outcome State Fault Refusal :=
  .next (arriveKind s .fileBegin h body)

/-- FILE_DATA (R112). -/
def execFileData (h : Hdr) (body : List Byte) (s : State) : Host.Outcome State Fault Refusal :=
  .next (arriveKind s .fileData h body)

/-- FILE_END (R113). -/
def execFileEnd (h : Hdr) (body : List Byte) (s : State) : Host.Outcome State Fault Refusal :=
  .next (arriveKind s .fileEnd h body)

/-- FILE_CANCEL (R126). -/
def execFileCancel (h : Hdr) (body : List Byte) (s : State) : Host.Outcome State Fault Refusal :=
  .next (arriveKind s .fileCancel h body)

/-- CONSENT (R134). -/
def execConsent (h : Hdr) (body : List Byte) (s : State) : Host.Outcome State Fault Refusal :=
  .next (arriveKind s .consent h body)

/-- CANCEL (R107, R161). -/
def execCancel (h : Hdr) (body : List Byte) (s : State) : Host.Outcome State Fault Refusal :=
  .next (arriveKind s .cancel h body)

end Sys2Proof.Machine
end

