-- ==== Sys2Proof/Machine/LinkEvents.lean ====
section
/-! DEFINITION. Events on the Host Link's line (R190 to R192). -/

namespace Sys2Proof.Machine

/-- A good frame of any kind byte; an unknown kind is refused UNKNOWN_KIND (R191, R200). -/
def execUnknownKindFrame (kind : Byte) (h : Hdr) (body : List Byte) (s : State) : Host.Outcome State Fault Refusal :=
  .next (arriveFrame s kind h body)

/-- BAD_FRAME (R190). -/
def execBadFrame (bytes : List Byte) (s : State) : Host.Outcome State Fault Refusal :=
  .next (badFrameOp s bytes)

/-- INTERBYTE_GAP (R190). -/
def execInterbyteGap (next : Byte) (s : State) : Host.Outcome State Fault Refusal :=
  .next (gapOp s next)

/-- HOST_HOLD_OFF (R192). -/
def execHostHoldOff (hold : Bool) (s : State) : Host.Outcome State Fault Refusal :=
  .next (whenPowered s fun s => holdOffOp s hold)

/-- FRAME_SENT (R192). -/
def execFrameSent (s : State) : Host.Outcome State Fault Refusal :=
  .next (whenPowered s frameSentOp)

/-- PAGE_FRAME_SENT (R101). -/
def execPageFrameSent (s : State) : Host.Outcome State Fault Refusal :=
  .next (whenPowered s pageSentOp)

end Sys2Proof.Machine
end

