-- ==== Sys2Proof/Machine/MaintenanceRequests.lean ====
section
/-! DEFINITION. The request frames of the maintenance class (R194). -/

namespace Sys2Proof.Machine

/-- SET_PARAMS (R195). -/
def execSetParams (h : Hdr) (body : List Byte) (s : State) : Host.Outcome State Fault Refusal :=
  .next (arriveKind s .setParams h body)

/-- STATION_SET (R193). -/
def execStationSet (h : Hdr) (body : List Byte) (s : State) : Host.Outcome State Fault Refusal :=
  .next (arriveKind s .stationSet h body)

/-- SET_CLOCK (R180). -/
def execSetClock (h : Hdr) (body : List Byte) (s : State) : Host.Outcome State Fault Refusal :=
  .next (arriveKind s .setClock h body)

/-- FEE_SET (R165). -/
def execFeeSet (h : Hdr) (body : List Byte) (s : State) : Host.Outcome State Fault Refusal :=
  .next (arriveKind s .feeSet h body)

/-- ACCOUNT_OPEN (R171). -/
def execAccountOpen (h : Hdr) (body : List Byte) (s : State) : Host.Outcome State Fault Refusal :=
  .next (arriveKind s .accountOpen h body)

/-- ACCOUNT_LIMIT (R172). -/
def execAccountLimit (h : Hdr) (body : List Byte) (s : State) : Host.Outcome State Fault Refusal :=
  .next (arriveKind s .accountLimit h body)

/-- ACCOUNT_DEPOSIT (R173). -/
def execAccountDeposit (h : Hdr) (body : List Byte) (s : State) : Host.Outcome State Fault Refusal :=
  .next (arriveKind s .accountDeposit h body)

/-- ACCOUNT_WITHDRAW (R173). -/
def execAccountWithdraw (h : Hdr) (body : List Byte) (s : State) : Host.Outcome State Fault Refusal :=
  .next (arriveKind s .accountWithdraw h body)

/-- ACCOUNT_SUSPEND (R171). -/
def execAccountSuspend (h : Hdr) (body : List Byte) (s : State) : Host.Outcome State Fault Refusal :=
  .next (arriveKind s .accountSuspend h body)

/-- ACCOUNT_RESUME (R171). -/
def execAccountResume (h : Hdr) (body : List Byte) (s : State) : Host.Outcome State Fault Refusal :=
  .next (arriveKind s .accountResume h body)

/-- ACCOUNT_CLOSE (R171). -/
def execAccountClose (h : Hdr) (body : List Byte) (s : State) : Host.Outcome State Fault Refusal :=
  .next (arriveKind s .accountClose h body)

/-- TALLY_QUERY (R176). -/
def execTallyQuery (h : Hdr) (body : List Byte) (s : State) : Host.Outcome State Fault Refusal :=
  .next (arriveKind s .tallyQuery h body)

/-- DAY_OPEN (R174). -/
def execDayOpen (h : Hdr) (body : List Byte) (s : State) : Host.Outcome State Fault Refusal :=
  .next (arriveKind s .dayOpen h body)

/-- DAY_CLOSE (R175). -/
def execDayClose (h : Hdr) (body : List Byte) (s : State) : Host.Outcome State Fault Refusal :=
  .next (arriveKind s .dayClose h body)

/-- DRIVE_SERVICE, the row of direction OUT (R61; log 10). -/
def execDriveServiceOut (h : Hdr) (body : List Byte) (s : State) : Host.Outcome State Fault Refusal :=
  .next (arriveKind s .driveService h body)

/-- DRIVE_SERVICE, the row of direction IN (R62; log 10). -/
def execDriveServiceIn (h : Hdr) (body : List Byte) (s : State) : Host.Outcome State Fault Refusal :=
  .next (arriveKind s .driveService h body)

/-- PICKER_RESET (R39). -/
def execPickerReset (h : Hdr) (body : List Byte) (s : State) : Host.Outcome State Fault Refusal :=
  .next (arriveKind s .pickerReset h body)

/-- SLOT_DISABLE (R29). -/
def execSlotDisable (h : Hdr) (body : List Byte) (s : State) : Host.Outcome State Fault Refusal :=
  .next (arriveKind s .slotDisable h body)

/-- SLOT_ENABLE (R29). -/
def execSlotEnable (h : Hdr) (body : List Byte) (s : State) : Host.Outcome State Fault Refusal :=
  .next (arriveKind s .slotEnable h body)

/-- EXPORT (R44). -/
def execExportCart (h : Hdr) (body : List Byte) (s : State) : Host.Outcome State Fault Refusal :=
  .next (arriveKind s .exportCart h body)

/-- FORGET (R46). -/
def execForget (h : Hdr) (body : List Byte) (s : State) : Host.Outcome State Fault Refusal :=
  .next (arriveKind s .forget h body)

/-- CLOSE_SIDE (R21). -/
def execCloseSide (h : Hdr) (body : List Byte) (s : State) : Host.Outcome State Fault Refusal :=
  .next (arriveKind s .closeSide h body)

/-- MARK_FAULTY (R22). -/
def execMarkFaulty (h : Hdr) (body : List Byte) (s : State) : Host.Outcome State Fault Refusal :=
  .next (arriveKind s .markFaulty h body)

/-- REST (R184). -/
def execRest (h : Hdr) (body : List Byte) (s : State) : Host.Outcome State Fault Refusal :=
  .next (arriveKind s .rest h body)

/-- NIGHT (R186). -/
def execNight (h : Hdr) (body : List Byte) (s : State) : Host.Outcome State Fault Refusal :=
  .next (arriveKind s .night h body)

/-- WAKE (R188). -/
def execWake (h : Hdr) (body : List Byte) (s : State) : Host.Outcome State Fault Refusal :=
  .next (arriveKind s .wake h body)

/-- RESTART (R189). -/
def execRestart (h : Hdr) (body : List Byte) (s : State) : Host.Outcome State Fault Refusal :=
  .next (arriveKind s .restart h body)

end Sys2Proof.Machine
end

