-- ==== Sys2Proof/Machine/OpenRequests.lean ====
section
/-! DEFINITION. The request frames of the open class (R194): each arrives, is checked by R191 and goes to its block. -/

namespace Sys2Proof.Machine

/-- STATUS (R196). -/
def execStatus (h : Hdr) (body : List Byte) (s : State) : Host.Outcome State Fault Refusal :=
  .next (arriveKind s .status h body)

/-- STATION_QUERY (R193). -/
def execStationQuery (h : Hdr) (body : List Byte) (s : State) : Host.Outcome State Fault Refusal :=
  .next (arriveKind s .stationQuery h body)

/-- PARAMS_QUERY (R195). -/
def execParamsQuery (h : Hdr) (body : List Byte) (s : State) : Host.Outcome State Fault Refusal :=
  .next (arriveKind s .paramsQuery h body)

/-- LOCATE (R14). -/
def execLocate (h : Hdr) (body : List Byte) (s : State) : Host.Outcome State Fault Refusal :=
  .next (arriveKind s .locate h body)

/-- SIDE_QUERY (R15). -/
def execSideQuery (h : Hdr) (body : List Byte) (s : State) : Host.Outcome State Fault Refusal :=
  .next (arriveKind s .sideQuery h body)

/-- CARTRIDGE_QUERY (R49). -/
def execCartridgeQuery (h : Hdr) (body : List Byte) (s : State) : Host.Outcome State Fault Refusal :=
  .next (arriveKind s .cartridgeQuery h body)

/-- SLOT_QUERY (R49). -/
def execSlotQuery (h : Hdr) (body : List Byte) (s : State) : Host.Outcome State Fault Refusal :=
  .next (arriveKind s .slotQuery h body)

/-- WORK_QUERY (R93). -/
def execWorkQuery (h : Hdr) (body : List Byte) (s : State) : Host.Outcome State Fault Refusal :=
  .next (arriveKind s .workQuery h body)

/-- FILING_QUERY (R129). -/
def execFilingQuery (h : Hdr) (body : List Byte) (s : State) : Host.Outcome State Fault Refusal :=
  .next (arriveKind s .filingQuery h body)

/-- WITHHELD_QUERY (R144). -/
def execWithheldQuery (h : Hdr) (body : List Byte) (s : State) : Host.Outcome State Fault Refusal :=
  .next (arriveKind s .withheldQuery h body)

/-- COPY_QUERY (R163). -/
def execCopyQuery (h : Hdr) (body : List Byte) (s : State) : Host.Outcome State Fault Refusal :=
  .next (arriveKind s .copyQuery h body)

/-- FEE_QUERY (R165). -/
def execFeeQuery (h : Hdr) (body : List Byte) (s : State) : Host.Outcome State Fault Refusal :=
  .next (arriveKind s .feeQuery h body)

/-- ACCOUNT_QUERY (R176). -/
def execAccountQuery (h : Hdr) (body : List Byte) (s : State) : Host.Outcome State Fault Refusal :=
  .next (arriveKind s .accountQuery h body)

/-- FETCH (R96, R97). -/
def execFetch (h : Hdr) (body : List Byte) (s : State) : Host.Outcome State Fault Refusal :=
  .next (arriveKind s .fetch h body)

/-- COPY_ORDER (R147, R148). -/
def execCopyOrder (h : Hdr) (body : List Byte) (s : State) : Host.Outcome State Fault Refusal :=
  .next (arriveKind s .copyOrder h body)

end Sys2Proof.Machine
end

