-- ==== Sys2Proof/Machine/PortEvents.lean ====
section
/-! DEFINITION. Events on the Print Port (R153 to R159, R201, R202). -/

namespace Sys2Proof.Machine

/-- ANSWER_TIMEOUT (R155). -/
def execAnswerTimeout (s : State) : Host.Outcome State Fault Refusal :=
  .next (whenPowered s fun s => settle (answerTimeoutOp s))

/-- SEND_PAGE (R154). -/
def execSendPage (s : State) : Host.Outcome State Fault Refusal :=
  .next (whenPowered s fun s => settle (sendPageOp s))

/-- PAGE_END_SENT (R154). -/
def execPageEndSent (s : State) : Host.Outcome State Fault Refusal :=
  .next (whenPowered s pageEndSentOp)

/-- PRINTER_ANSWER (R154). -/
def execPrinterAnswer (seq : Word16) (result : Byte) (s : State) : Host.Outcome State Fault Refusal :=
  .next (whenPowered s fun s => settle (printerAnswerOp s seq result))

/-- PRINTER_STATUS (R159). -/
def execPrinterStatus (state : Byte) (s : State) : Host.Outcome State Fault Refusal :=
  .next (whenPowered s fun s => settle (printerStatusOp s state))

/-- PRINTER_FRAME_BAD: the frame is ignored (R202). -/
def execPrinterFrameBad (_bytes : List Byte) (s : State) : Host.Outcome State Fault Refusal :=
  .next (s)

end Sys2Proof.Machine
end

