-- ==== Sys2Proof/Machine/PowerEvents.lean ====
section
/-! DEFINITION. Power and time (R133, R179, R180). -/

namespace Sys2Proof.Machine

/-- POWER_ON (R179); on a powered board power has gone and come back (log 6). -/
def execPowerOn (storeGood : Bool) (s : State) : Host.Outcome State Fault Refusal :=
  .next (powerOnOp s storeGood)

/-- CLOCK_SECOND (R180). -/
def execClockSecond (s : State) : Host.Outcome State Fault Refusal :=
  .next (whenPowered s fun s => settle (clockSecondOp s))

/-- CONSENT_DEADLINE (R133). -/
def execConsentDeadline (ref : Word32) (s : State) : Host.Outcome State Fault Refusal :=
  .next (whenPowered s fun s => settle (consentDeadlineOp s ref))

/-- POWER_LOSS (R179). -/
def execPowerLoss (s : State) : Host.Outcome State Fault Refusal :=
  .next (whenPowered s powerLossOp)

end Sys2Proof.Machine
end

