-- ==== Sys2Proof/Machine/Dispatch.lean ====
section
/-! DEFINITION. One arm per command of spec/opcode_table.json. -/

namespace Sys2Proof.Machine

def exec (i : Instr) (s : State) : Host.Outcome State Fault Refusal :=
  match i with
  | .powerOn storeGood => Sys2Proof.Machine.execPowerOn storeGood s
  | .clockSecond => Sys2Proof.Machine.execClockSecond s
  | .consentDeadline ref => Sys2Proof.Machine.execConsentDeadline ref s
  | .status h body => Sys2Proof.Machine.execStatus h body s
  | .stationQuery h body => Sys2Proof.Machine.execStationQuery h body s
  | .paramsQuery h body => Sys2Proof.Machine.execParamsQuery h body s
  | .locate h body => Sys2Proof.Machine.execLocate h body s
  | .sideQuery h body => Sys2Proof.Machine.execSideQuery h body s
  | .cartridgeQuery h body => Sys2Proof.Machine.execCartridgeQuery h body s
  | .slotQuery h body => Sys2Proof.Machine.execSlotQuery h body s
  | .workQuery h body => Sys2Proof.Machine.execWorkQuery h body s
  | .filingQuery h body => Sys2Proof.Machine.execFilingQuery h body s
  | .withheldQuery h body => Sys2Proof.Machine.execWithheldQuery h body s
  | .copyQuery h body => Sys2Proof.Machine.execCopyQuery h body s
  | .feeQuery h body => Sys2Proof.Machine.execFeeQuery h body s
  | .accountQuery h body => Sys2Proof.Machine.execAccountQuery h body s
  | .fetch h body => Sys2Proof.Machine.execFetch h body s
  | .copyOrder h body => Sys2Proof.Machine.execCopyOrder h body s
  | .setParams h body => Sys2Proof.Machine.execSetParams h body s
  | .stationSet h body => Sys2Proof.Machine.execStationSet h body s
  | .setClock h body => Sys2Proof.Machine.execSetClock h body s
  | .feeSet h body => Sys2Proof.Machine.execFeeSet h body s
  | .accountOpen h body => Sys2Proof.Machine.execAccountOpen h body s
  | .accountLimit h body => Sys2Proof.Machine.execAccountLimit h body s
  | .accountDeposit h body => Sys2Proof.Machine.execAccountDeposit h body s
  | .accountWithdraw h body => Sys2Proof.Machine.execAccountWithdraw h body s
  | .accountSuspend h body => Sys2Proof.Machine.execAccountSuspend h body s
  | .accountResume h body => Sys2Proof.Machine.execAccountResume h body s
  | .accountClose h body => Sys2Proof.Machine.execAccountClose h body s
  | .tallyQuery h body => Sys2Proof.Machine.execTallyQuery h body s
  | .dayOpen h body => Sys2Proof.Machine.execDayOpen h body s
  | .dayClose h body => Sys2Proof.Machine.execDayClose h body s
  | .driveServiceOut h body => Sys2Proof.Machine.execDriveServiceOut h body s
  | .driveServiceIn h body => Sys2Proof.Machine.execDriveServiceIn h body s
  | .pickerReset h body => Sys2Proof.Machine.execPickerReset h body s
  | .slotDisable h body => Sys2Proof.Machine.execSlotDisable h body s
  | .slotEnable h body => Sys2Proof.Machine.execSlotEnable h body s
  | .exportCart h body => Sys2Proof.Machine.execExportCart h body s
  | .forget h body => Sys2Proof.Machine.execForget h body s
  | .closeSide h body => Sys2Proof.Machine.execCloseSide h body s
  | .markFaulty h body => Sys2Proof.Machine.execMarkFaulty h body s
  | .rest h body => Sys2Proof.Machine.execRest h body s
  | .night h body => Sys2Proof.Machine.execNight h body s
  | .wake h body => Sys2Proof.Machine.execWake h body s
  | .restart h body => Sys2Proof.Machine.execRestart h body s
  | .fileBegin h body => Sys2Proof.Machine.execFileBegin h body s
  | .fileData h body => Sys2Proof.Machine.execFileData h body s
  | .fileEnd h body => Sys2Proof.Machine.execFileEnd h body s
  | .fileCancel h body => Sys2Proof.Machine.execFileCancel h body s
  | .consent h body => Sys2Proof.Machine.execConsent h body s
  | .cancel h body => Sys2Proof.Machine.execCancel h body s
  | .unknownKindFrame kind h body => Sys2Proof.Machine.execUnknownKindFrame kind h body s
  | .badFrame bytes => Sys2Proof.Machine.execBadFrame bytes s
  | .interbyteGap next => Sys2Proof.Machine.execInterbyteGap next s
  | .hostHoldOff hold => Sys2Proof.Machine.execHostHoldOff hold s
  | .frameSent => Sys2Proof.Machine.execFrameSent s
  | .pageFrameSent => Sys2Proof.Machine.execPageFrameSent s
  | .baySend attention => Sys2Proof.Machine.execBaySend attention s
  | .bayByteNak => Sys2Proof.Machine.execBayByteNak s
  | .bayHoldTimeout => Sys2Proof.Machine.execBayHoldTimeout s
  | .bayCommandTaken => Sys2Proof.Machine.execBayCommandTaken s
  | .attentionPass => Sys2Proof.Machine.execAttentionPass s
  | .pickerStatusTaken st => Sys2Proof.Machine.execPickerStatusTaken st s
  | .driveStatusTaken drive st => Sys2Proof.Machine.execDriveStatusTaken drive st s
  | .doorStatusTaken mail st => Sys2Proof.Machine.execDoorStatusTaken mail st s
  | .transferTimeout => Sys2Proof.Machine.execTransferTimeout s
  | .spinUpTimeout drive => Sys2Proof.Machine.execSpinUpTimeout drive s
  | .idleTimeout drive => Sys2Proof.Machine.execIdleTimeout drive s
  | .answerTimeout => Sys2Proof.Machine.execAnswerTimeout s
  | .sendPage => Sys2Proof.Machine.execSendPage s
  | .pageEndSent => Sys2Proof.Machine.execPageEndSent s
  | .printerAnswer seq result => Sys2Proof.Machine.execPrinterAnswer seq result s
  | .printerStatus state => Sys2Proof.Machine.execPrinterStatus state s
  | .printerFrameBad bytes => Sys2Proof.Machine.execPrinterFrameBad bytes s
  | .powerLoss => Sys2Proof.Machine.execPowerLoss s

end Sys2Proof.Machine
end

