-- ==== Sys2Proof/Machine/Step.lean ====
section
/-! DEFINITION. One step: the command at the front of the queue acts on the state with the queue's rest; on an empty queue
the block idles (log 2). -/

namespace Sys2Proof.Machine

/-- The state whose queue is `q`. -/
def State.withQueue (s : State) (q : List Instr) : State := { s with pending := q }

def step (s : State) : Host.Outcome State Fault Refusal :=
  match s.pending with
  | [] => .next s
  | c :: rest => exec c (s.withQueue rest)

/-- The state with the command a word spells put at the front of its queue; unchanged where it spells none. -/
def State.withFetchWord (s : State) (nbits w : Nat) : State :=
  match decodeTableWord nbits w with
  | some c => s.withQueue (c :: s.pending)
  | none => s

end Sys2Proof.Machine
end

