-- ==== Sys2Proof/WellFormed.lean ====
section
/-! DEFINITION. What a command must be to be one that the part can meet: frame bodies and bus contents within the limits the
spec gives them. `exec` is total and needs none of it. -/

namespace Sys2Proof

open Machine

/-- A body has 0 to 1,100 bytes (R190). -/
def bodyOk (body : List Byte) : Bool := decide (body.length ≤ Config.bodyLimit)

def driveOk (d : Nat) : Bool := decide (1 ≤ d ∧ d ≤ 4)
def mailOk (m : Nat) : Bool := decide (1 ≤ m ∧ m ≤ 2)

/-- A SCAN reports places by their numbers on the bus (R47, log 8). -/
def scanOk (l : List Nat) : Bool := l.all fun n => decide (1 ≤ n ∧ n ≤ 127)

/-- A block has 1,024 bytes (R3). -/
def BlockIn.ok : BlockIn → Bool
  | .erased bytes | .data bytes => bytes.length == Config.blockBytes

/-- A side address of the label, a slot, a data block or a spare block (R3). -/
def sideAddrOk (a : Nat) : Bool := decide (a < Config.spareBase + Config.spareBlocks)

def OpResult.ok : OpResult → Bool
  | .failedBlock a => sideAddrOk a
  | .running | .complete | .short _ | .failed => true

/-- A drive's status: blocks of 1,024 bytes, a failed address on the face, a serial below 1,000,000 (R25, R67). -/
def DriveStatus.ok (st : DriveStatus) : Bool :=
  st.blocks.all BlockIn.ok && st.result.ok && st.label.all fun l => decide (1 ≤ l.1 ∧ l.1 < Config.labelEnd)

/-- The well-formed commands. -/
def Instr.wf : Instr → Bool
  | .status _ b | .stationQuery _ b | .paramsQuery _ b | .locate _ b | .sideQuery _ b | .cartridgeQuery _ b
  | .slotQuery _ b | .workQuery _ b | .filingQuery _ b | .withheldQuery _ b | .copyQuery _ b | .feeQuery _ b
  | .accountQuery _ b | .fetch _ b | .copyOrder _ b | .setParams _ b | .stationSet _ b | .setClock _ b | .feeSet _ b
  | .accountOpen _ b | .accountLimit _ b | .accountDeposit _ b | .accountWithdraw _ b | .accountSuspend _ b
  | .accountResume _ b | .accountClose _ b | .tallyQuery _ b | .dayOpen _ b | .dayClose _ b | .driveServiceOut _ b
  | .driveServiceIn _ b | .pickerReset _ b | .slotDisable _ b | .slotEnable _ b | .exportCart _ b | .forget _ b
  | .closeSide _ b | .markFaulty _ b | .rest _ b | .night _ b | .wake _ b | .restart _ b | .fileBegin _ b
  | .fileData _ b | .fileEnd _ b | .fileCancel _ b | .consent _ b | .cancel _ b => bodyOk b
  | .unknownKindFrame k _ b => (reqKindOf k).isNone && bodyOk b
  | .badFrame bytes => holdsBadFrame [] bytes
  | .pickerStatusTaken st => st.scan.all scanOk
  | .driveStatusTaken d st => driveOk d && st.ok
  | .doorStatusTaken m _ => mailOk m
  | .spinUpTimeout d | .idleTimeout d => driveOk d
  | .printerAnswer _ r => r == 1 || r == 2
  | .printerStatus st => decide (1 ≤ st.toNat ∧ st.toNat ≤ 3)
  | .printerFrameBad bytes => !printerFrameGood bytes
  | .powerOn _ | .clockSecond | .consentDeadline _ | .interbyteGap _ | .hostHoldOff _ | .frameSent | .pageFrameSent
  | .baySend _ | .bayByteNak | .bayHoldTimeout | .bayCommandTaken | .attentionPass | .transferTimeout | .answerTimeout
  | .sendPage | .pageEndSent | .powerLoss => true

end Sys2Proof
end

