-- ==== Sys2Proof/Safety.lean ====
section
/-! DEFINITION. What the statements speak of: when a request is admitted, where its reply goes, and the properties that
every step keeps. -/

namespace Sys2Proof.Machine

/-! ### Requests -/

/-- The request kind, header and body of a request frame of a known kind. -/
def requestOf : Instr → Option (ReqKind × Hdr × List Byte)
  | .status h b => some (.status, h, b)
  | .stationQuery h b => some (.stationQuery, h, b)
  | .paramsQuery h b => some (.paramsQuery, h, b)
  | .locate h b => some (.locate, h, b)
  | .sideQuery h b => some (.sideQuery, h, b)
  | .cartridgeQuery h b => some (.cartridgeQuery, h, b)
  | .slotQuery h b => some (.slotQuery, h, b)
  | .workQuery h b => some (.workQuery, h, b)
  | .filingQuery h b => some (.filingQuery, h, b)
  | .withheldQuery h b => some (.withheldQuery, h, b)
  | .copyQuery h b => some (.copyQuery, h, b)
  | .feeQuery h b => some (.feeQuery, h, b)
  | .accountQuery h b => some (.accountQuery, h, b)
  | .fetch h b => some (.fetch, h, b)
  | .copyOrder h b => some (.copyOrder, h, b)
  | .setParams h b => some (.setParams, h, b)
  | .stationSet h b => some (.stationSet, h, b)
  | .setClock h b => some (.setClock, h, b)
  | .feeSet h b => some (.feeSet, h, b)
  | .accountOpen h b => some (.accountOpen, h, b)
  | .accountLimit h b => some (.accountLimit, h, b)
  | .accountDeposit h b => some (.accountDeposit, h, b)
  | .accountWithdraw h b => some (.accountWithdraw, h, b)
  | .accountSuspend h b => some (.accountSuspend, h, b)
  | .accountResume h b => some (.accountResume, h, b)
  | .accountClose h b => some (.accountClose, h, b)
  | .tallyQuery h b => some (.tallyQuery, h, b)
  | .dayOpen h b => some (.dayOpen, h, b)
  | .dayClose h b => some (.dayClose, h, b)
  | .driveServiceOut h b => some (.driveService, h, b)
  | .driveServiceIn h b => some (.driveService, h, b)
  | .pickerReset h b => some (.pickerReset, h, b)
  | .slotDisable h b => some (.slotDisable, h, b)
  | .slotEnable h b => some (.slotEnable, h, b)
  | .exportCart h b => some (.exportCart, h, b)
  | .forget h b => some (.forget, h, b)
  | .closeSide h b => some (.closeSide, h, b)
  | .markFaulty h b => some (.markFaulty, h, b)
  | .rest h b => some (.rest, h, b)
  | .night h b => some (.night, h, b)
  | .wake h b => some (.wake, h, b)
  | .restart h b => some (.restart, h, b)
  | .fileBegin h b => some (.fileBegin, h, b)
  | .fileData h b => some (.fileData, h, b)
  | .fileEnd h b => some (.fileEnd, h, b)
  | .fileCancel h b => some (.fileCancel, h, b)
  | .consent h b => some (.consent, h, b)
  | .cancel h b => some (.cancel, h, b)
  | .powerOn _ | .clockSecond | .consentDeadline _ | .unknownKindFrame _ _ _ | .badFrame _ | .interbyteGap _
  | .hostHoldOff _ | .frameSent | .pageFrameSent | .baySend _ | .bayByteNak | .bayHoldTimeout | .bayCommandTaken
  | .attentionPass | .pickerStatusTaken _ | .driveStatusTaken _ _ | .doorStatusTaken _ _ | .transferTimeout
  | .spinUpTimeout _ | .idleTimeout _ | .answerTimeout | .sendPage | .pageEndSent | .printerAnswer _ _
  | .printerStatus _ | .printerFrameBad _ | .powerLoss => none

/-- The Host Link takes frames: the board is powered, no frame waits, the receiver hunts, and the Reply Queue has a place (R190,
R192). -/
abbrev LinkTakes (s : State) : Prop :=
  s.powered = true ∧ s.waiting = none ∧ s.rx = [] ∧ replyCount s < Config.replyCapacity

/-- A request passes the checks of R191: the mode takes it, the station exists and has the right, the body length is the
kind's. -/
abbrev Admitted (s : State) (k : ReqKind) (h : Hdr) (body : List Byte) : Prop :=
  LinkTakes s ∧ (k ≠ .status → s.mode ≠ .start ∧ s.mode ≠ .rebuild) ∧ h.station.toNat ≤ Config.stationCount ∧
    (k ∈ ReqKind.maintenanceClass → isSupervisor s h.station.toNat = true) ∧ body.length = layoutLength k body

/-- The state `t` with the reply to a request that arrived in `s`, placed before every notice the request has caused. -/
def replied (s t : State) (h : Hdr) (k : ReqKind) (out : ReplyOutcome) (fields : List Byte) : State :=
  { t with control := insertAt s.control.length (.reply ⟨h.tag, h.station, k.byte, out, fields⟩) t.control }

/-- A refusal that changes nothing but to be replied. -/
def refusedAs (s : State) (h : Hdr) (k : ReqKind) (code : RefCode) (fields : List Byte) : State :=
  replied s s h k (.refused code) fields

/-! ### What every step keeps -/

/-- The tables have the spec's sizes (00_scope "Capacities"). -/
abbrev TablesSized (s : State) : Prop :=
  s.ret.slots.length = Config.slotCount ∧ s.ret.carts.length = Config.recordCount ∧
    s.ret.sides.length = Config.sideCount ∧ s.ret.accounts.length = Config.accountCount ∧
    s.ret.cash.length = Config.stationCount ∧ s.ret.withheld.length = Config.withheldCount ∧
    s.stations.length = Config.stationCount ∧ s.drives.length = 4 ∧ s.picker.mails.length = 2

/-- The lists stay within their capacities (R34, R70, R94, R108, R133); order numbers are 1 to 16 and given once (R145), and so
are host references (R108). -/
abbrev WithinCapacity (s : State) : Prop :=
  s.work.length ≤ Config.workCapacity ∧ s.fetches.length ≤ Config.fetchCapacity ∧
    s.filings.length ≤ Config.filingCapacity ∧ s.picker.queue.length ≤ Config.transferCapacity ∧
    (pendingConsents s).length ≤ Config.consentCapacity ∧ (s.filings.map Filing.ref).Nodup ∧
    (s.orders.map Order.number).Nodup ∧ ∀ o ∈ s.orders, 1 ≤ o.number ∧ o.number ≤ Config.orderCapacity

/-- A reading of the clock in range (R180). -/
abbrev Clock.inRange (c : Clock) : Prop :=
  1 ≤ c.day ∧ c.day ≤ Config.clockLastDay ∧ c.second < Config.secondsPerDay

/-- The parameters in the ranges of R195. -/
abbrev Params.inRange (p : Params) : Prop :=
  (1 ≤ p.burstPages ∧ p.burstPages ≤ 16) ∧ (64 ≤ p.writeBurst ∧ p.writeBurst ≤ 1024) ∧ p.yieldLimit ≤ 7 ∧
    (1 ≤ p.chainLimit ∧ p.chainLimit ≤ 32) ∧ p.classOrder ∈ classOrders ∧ (30 ≤ p.idleTime ∧ p.idleTime ≤ 3600) ∧
    (60 ≤ p.consentWindow ∧ p.consentWindow ≤ 1800)

abbrev SettingsInRange (s : State) : Prop := s.params.inRange ∧ ∀ c, s.clock = some c → c.inRange

/-- A payer of the Account Table, or CASH of a counter (R147). -/
abbrev Order.payerOk (o : Order) : Prop :=
  o.payer ≤ Config.accountCount ∧ (o.payer = 0 → 1 ≤ o.station ∧ o.station ≤ Config.stationCount)

/-- The day-balance law (R169), with what it rests on. -/
abbrev DayBalanced (s : State) : Prop :=
  s.ret.counts.total = (s.ret.accounts.map Account.charged).sum + s.ret.cash.sum

abbrev MoneyKept (s : State) : Prop :=
  TablesSized s ∧ (∀ o ∈ s.orders, o.payerOk) ∧ DayBalanced s

/-- The funds law (R168): the holds on an account never pass its balance and credit limit; an INACTIVE account has no limit
(R171). -/
abbrev FundsLaw (s : State) : Prop :=
  ∀ a, 1 ≤ a → a ≤ Config.accountCount → (holdsOf s a : Int) ≤ (s.account a).balance + (s.account a).limit ∧
    ((s.account a).state = .inactive → (s.account a).limit = 0)

/-! ### The laws of the Volume Table and the Cartridge Table -/

def Retained.side (r : Retained) (n : Nat) : Side := tget r.sides n Side.blank
def Retained.cart (r : Retained) (c : Nat) : Option Cart := tget r.carts c none
def Retained.disabled (r : Retained) (n : Nat) : Bool := (tget r.slots n ⟨.empty, true⟩).disabled

/-- A side holds a document number: its run embraces it (R2, R13). -/
def Side.holds (e : Side) (d : Nat) : Prop := ∃ a z, e.first = some a ∧ e.last = some z ∧ a ≤ d ∧ d ≤ z

/-- A side's run: absent with no document counted, or below the next document number and counted (R2, R9). -/
def Side.runOk (e : Side) (next : Nat) : Prop :=
  (e.first = none ∧ e.last = none ∧ e.count = 0) ∨
    ∃ a z, e.first = some a ∧ e.last = some z ∧ 1 ≤ a ∧ a ≤ z ∧ z < next ∧ e.count + a = z + 1

/-- At most one side is OPEN (R12); a BLANK side, and a side of no record, has the blank values (R9); the next document number is 1
or more (R1), runs are below it and do not overlap, and the OPEN side's ends with the number given last (R2); a close reason is
present exactly in CLOSED (R9), and a closed mark is pending on a CLOSED side alone (R11, R20). -/
structure VolumeLaw (r : Retained) : Prop where
  next : 1 ≤ r.nextDoc
  oneOpen : ∀ n m, (r.side n).state = .opened → (r.side m).state = .opened → n = m
  blank : ∀ n, (r.side n).state = .blank → r.side n = Side.blank
  unassigned : ∀ n, r.cart (sideCart n) = none → r.side n = Side.blank
  runs : ∀ n, (r.side n).runOk r.nextDoc
  disjoint : ∀ n m d, (r.side n).holds d → (r.side m).holds d → n = m
  openLast : ∀ n z, (r.side n).state = .opened → (r.side n).last = some z → z + 1 = r.nextDoc
  marks : ∀ n, ((r.side n).closeReason.isSome = true ↔ (r.side n).state = .closed) ∧
    ((r.side n).closedPending = true → (r.side n).state = .closed)

/-- A record has a home slot exactly while it is not WITHDRAWN (R24); a home slot is the home of one record and not DISABLED
(R28, R29). -/
structure CartLaw (r : Retained) : Prop where
  home : ∀ c k, r.cart c = some k → (k.home = none ↔ k.state = .withdrawn)
  oneHome : ∀ c d k l h, r.cart c = some k → r.cart d = some l → k.home = some h → l.home = some h → c = d
  enabled : ∀ c k h, r.cart c = some k → k.home = some h → r.disabled h = false

def Lawful (r : Retained) : Prop := VolumeLaw r ∧ CartLaw r

/-- The serial of the NEW mark that a drive writes (R42). -/
def Task.newSerial : Task → Option Nat
  | .writeLabel (.new _) l _ => some l.serial
  | _ => none

/-- Labels are below the counter (R25) and given once (R24), a NEW mark's among them from its claim on (R42). -/
structure LabelLaw (carts : List (Option Cart)) (counter : Nat) (drives : List Drive) : Prop where
  below : ∀ c k, tget carts c none = some k → k.label < counter
  once : ∀ c d k l, tget carts c none = some k → tget carts d none = some l → k.label = l.label → c = d
  claimed : ∀ d n, (tget drives d Drive.initial).task.newSerial = some n →
    n < counter ∧ ∀ c k, tget carts c none = some k → k.label ≠ n
  claimedOnce : ∀ d e n, (tget drives d Drive.initial).task.newSerial = some n →
    (tget drives e Drive.initial).task.newSerial = some n → d = e

abbrev LabelsKept (s : State) : Prop := LabelLaw s.ret.carts s.ret.labelCounter s.drives

/-! ### The laws of places, staging and withheld pages -/

/-- The place law (R27): a record is at one place at most, at none unless it is IN_LIBRARY, and in no mail slot, where what an
EXPORT_PUT leaves and what the operator loads is unrecorded (R27, R30). -/
structure PlaceLaw (s : State) : Prop where
  one : ∀ c p q, placeOcc s p = .record c → placeOcc s q = .record c → p = q
  inLibrary : ∀ c p, placeOcc s p = .record c → cartInState s c .inLibrary = true
  noMail : ∀ c m, placeOcc s (.mail m) ≠ .record c

/-- The staging law (R77): no block is held twice, and filings hold 6,144 at most; a claim that waits holds none (R79). -/
structure StagingLaw (claims : List Claim) (nextId : Nat) : Prop where
  ids : (claims.map Claim.id).Nodup
  fresh : ∀ c ∈ claims, c.id < nextId
  waiting : ∀ c ∈ claims, c.blocks = none → c.live = []
  disjoint : (claims.flatMap Claim.live).Nodup
  range : ∀ b ∈ claims.flatMap Claim.live, b < Config.stagingBlocks
  filings : ((claims.filter fun c => c.owner.isFiling).map fun c => c.live.length).sum ≤ Config.filingStaging

abbrev StagingKept (s : State) : Prop := StagingLaw s.claims s.nextId

/-- The rectification-capacity law (R131): a RESERVED entry is a free one of the table, reserved once; a rebuild, which sets the
table afresh, finds none. -/
structure ReserveLaw (mode : Mode) (reserved : List (Nat × Word32)) (withheld : List (Option Committed)) : Prop where
  rebuild : mode = .rebuild → reserved = []
  once : (reserved.map Prod.fst).Nodup
  free : ∀ e ∈ reserved, 1 ≤ e.1 ∧ e.1 ≤ withheld.length ∧ tget withheld e.1 none = none

abbrev ReserveKept (s : State) : Prop := ReserveLaw s.mode s.reserved s.ret.withheld

/-- The append-only law (R11) and the numbering law (R1, R2) from one store to a later one: no pointer or count falls, no side
loses a document number it holds, and each number given since is held by a side. -/
structure Grows (r t : Retained) : Prop where
  pointers : ∀ n, (r.side n).writePtr ≤ (t.side n).writePtr ∧ (r.side n).spareUsed ≤ (t.side n).spareUsed ∧
    (r.side n).slotsUsed ≤ (t.side n).slotsUsed
  numbers : ∀ n d, (r.side n).holds d → (t.side n).holds d
  next : r.nextDoc ≤ t.nextDoc
  given : ∀ d, r.nextDoc ≤ d → d < t.nextDoc → ∃ n, (t.side n).holds d

/-! ### What a commit masks -/

/-- A PUBLIC record of the target that has named its pages (R103). -/
abbrev Masked (target : Nat) (f : Fetch) : Prop := f.doc = target ∧ f.full = false ∧ f.state ≠ .waitingFace

/-- A claim whose burst has not begun, of a masked record's item that has such a claim for a newly withheld page: it is withdrawn
(R103; where it has been granted, log 67). -/
abbrev Withdrawn (s : State) (target : Nat) (newly : List Nat) (c : Claim) : Prop :=
  c.begun = false ∧ ∃ f ∈ s.fetches, Masked target f ∧ f.item.map ClaimOwner.item = some c.owner ∧
    ∃ e ∈ s.claims, e.owner = c.owner ∧ e.begun = false ∧ ∃ p ∈ e.pageList, p ∈ newly

end Sys2Proof.Machine
end

