-- ==== Sys2Proof/Certificates/Slice0/Obligations.lean ====
section
/-! DEFINITION. The statements for the provers. A request's statement is about every header and body that R191 admits;
`s` is the state with the receiver hunting again, and `replied` puts the reply at its place in the control order. -/

open Sys2Proof Sys2Proof.Machine

/-! ### The machine -/

/-- One step takes the front command with the queue's rest, and an empty queue idles (log 2, the model's choice). -/
def Obligations.StepRunsFrontOfQueue : Prop :=
  (∀ (c : Instr) (q : List Instr) (s : State), step (s.withQueue (c :: q)) = exec c (s.withQueue q)) ∧
    ∀ s : State, step (s.withQueue []) = .next (s.withQueue [])

/-- No command stops the board, and none touches the queue of commands. -/
def Obligations.CommandsAnswerNextAndKeepQueue : Prop :=
  ∀ (c : Instr) (s : State), ∃ t, exec c s = .next t ∧ t.pending = s.pending

/-- The values at power-on over a Retained Store first initialised; that this is the reset state is the model's choice
(log 1). -/
def Obligations.ResetValues : Prop :=
  let s := State.reset
  s.mode = .rebuild ∧ s.clock = none ∧ s.params = Params.default ∧ s.stations = List.replicate 32 .pub ∧
    s.control = [] ∧ s.line = none ∧ s.dropped = false ∧ s.work = [] ∧ s.heldReqs = [] ∧ s.claims = [] ∧
    s.fetches = [] ∧ s.filings = [] ∧ s.orders = [] ∧ s.fileCount = 0 ∧ s.acceptCount = 0 ∧ s.reserved = [] ∧
    s.drives = List.replicate 4 Drive.initial ∧ s.port.holder = none ∧ s.port.inHand = none ∧ s.labelFailed = [] ∧
    s.ret.nextDoc = 1 ∧ s.ret.labelCounter = 1 ∧ s.ret.fees = ⟨0, 0, 0⟩ ∧ s.ret.dayOpen = false ∧
    s.ret.openedDay = none ∧ s.ret.lastClose = none ∧ s.ret.marker = none ∧ s.ret.counts = DayCounts.zero ∧
    (∀ a, s.account a = ⟨.inactive, 0, 0, 0⟩) ∧ (∀ n, s.side n = Side.blank) ∧ (∀ c, s.cart c = none)

/-! ### What every step keeps -/

def Obligations.StagingMemoryStaysCanonical : Prop :=
  ∀ s t : State, Memory.wf s.mem = true → step s = .next t → Memory.wf t.mem = true

/-- The Notice Queue holds at most 32 (R197), the Reply Queue at most 8 replies and LINK_REJECT frames (R192). -/
def Obligations.QueuesStayBounded : Prop :=
  ∀ s t : State, step s = .next t →
    (noticeCount s ≤ 32 → noticeCount t ≤ 32) ∧ (replyCount s ≤ 8 → replyCount t ≤ 8)

/-- Work List 48, Fetch Table 48, Filing Table 6, Transfer Queue 8, Pending-Consent Table 4; order numbers 1 to 16 and host
references, each given once. The place law (R27); the staging law (R77), by which every block is free or held once; the
rectification-capacity law (R131), by which COMMITTED and RESERVED entries are 256 at most. -/
def Obligations.TablesAndListsStayWithinCapacity : Prop :=
  (∀ s t : State, step s = .next t →
    (TablesSized s → TablesSized t) ∧ (WithinCapacity s → WithinCapacity t) ∧ (TablesSized s → PlaceLaw s → PlaceLaw t) ∧
      (StagingKept s → StagingKept t) ∧ (ReserveKept s → ReserveKept t)) ∧
  ∀ s : State,
    (StagingKept s → heldByFilings s + heldByReads s + (freeBlocks s).length = 8192 ∧ heldByFilings s ≤ 6144 ∧
      freeStaging s = (freeBlocks s).length) ∧
    (TablesSized s → ReserveKept s → (s.ret.withheld.filter Option.isSome).length + s.reserved.length ≤ 256)

def Obligations.SettingsAndClockStayInRange : Prop :=
  ∀ s t : State, SettingsInRange s → step s = .next t → SettingsInRange t

/-- The day-balance law (R169): the day total is what the accounts were charged plus what the drawers took. -/
def Obligations.DayBalanceLawHolds : Prop :=
  ∀ s t : State, MoneyKept s → step s = .next t → MoneyKept t

/-- No side loses a document number it holds, the next document number does not fall, and each number given is held by a side
(R1, R2). -/
def Sys2Proof.NumbersGoOn (r t : Retained) : Prop :=
  (∀ n d, (r.side n).holds d → (t.side n).holds d) ∧ r.nextDoc ≤ t.nextDoc ∧
    ∀ d, r.nextDoc ≤ d → d < t.nextDoc → ∃ n, (t.side n).holds d

/-- No FORGET frame (R46) can be taken in the next step: the front command is none and holds the bytes of none, none waits, and no
bytes of one are in hand. -/
def Sys2Proof.NoForgetNext (s : State) : Prop :=
  s.rx = [] ∧ (∀ h b, s.waiting ≠ some (.request ReqKind.forget.byte h b)) ∧
    ∀ c, s.pending.head? = some c → (∀ h b, c ≠ .forget h b) ∧ (∀ bytes, c ≠ .badFrame bytes) ∧
      ∀ h b, c ≠ .unknownKindFrame ReqKind.forget.byte h b

/-- Outside REBUILD every step keeps the laws of the Volume Table and the Cartridge Table (R1, R2, R9 to R12, R20, R24, R28), close
reasons and pending closed marks among them, and the labels once given and below the counter (R24, R25, R42). But for a power-on,
which may begin a rebuild, document numbers go on; and but for FORGET, which frees a record with no document, no pointer or count
falls. -/
def Obligations.VolumeAndCartridgeTablesStayLawful : Prop :=
  ∀ s t : State, step s = .next t → s.mode ≠ .rebuild →
    (LabelsKept s → LabelsKept t) ∧
    (Lawful s.ret → Lawful t.ret ∧
      ((∀ g, s.pending.head? ≠ some (.powerOn g)) → NumbersGoOn s.ret t.ret ∧ (NoForgetNext s → Grows s.ret t.ret)))

/-- The funds law (R168) at each event that changes an account's holds, balance or limit: the account requests and every other
request that ends in its reply alone, a hold placed, a hold narrowed, a charge within its order's hold, and orders that leave. -/
def Obligations.FundsLawIsKept : Prop :=
  ∀ s : State, FundsLaw s →
    (∀ (c : Instr) (k : ReqKind) (h : Hdr) (body : List Byte) (t : State), requestOf c = some (k, h, body) → k.simple = true →
      LinkTakes s → exec c s = .next t → FundsLaw t) ∧
    (∀ (tag : Word16) (st n number rate certFee : Nat) (q : CopyReq) (sel : List Nat) (fee : Nat),
      (q.payer ≠ 0 → (fee : Int) ≤ availableFunds s q.payer) →
      FundsLaw { s with orders := s.orders ++
        [newOrder number s.acceptCount tag st q n rate certFee sel (if q.payer = 0 then 0 else fee) s.nextId] }) ∧
    ((s.orders.map Order.number).Nodup → ∀ o ∈ s.orders,
      (∀ h, h ≤ o.hold → FundsLaw (s.modOrder o.number fun x => x.withHold h)) ∧
      (∀ (amount pages : Nat) (what : Charged), amount ≤ o.hold →
        FundsLaw (chargeOrder s o amount pages what))) ∧
    ∀ p : Order → Bool, FundsLaw { s with orders := s.orders.filter p }

/-- Reset meets every invariant above. -/
def Obligations.ResetMeetsInvariants : Prop :=
  Memory.wf State.reset.mem = true ∧ noticeCount State.reset ≤ 32 ∧ replyCount State.reset ≤ 8 ∧
    TablesSized State.reset ∧ WithinCapacity State.reset ∧ SettingsInRange State.reset ∧ MoneyKept State.reset ∧
    Lawful State.reset.ret ∧ LabelsKept State.reset ∧ PlaceLaw State.reset ∧ StagingKept State.reset ∧
    ReserveKept State.reset ∧ FundsLaw State.reset

/-- What comes about by itself after a command leaves alone: the power, the queue, time, settings, the receiver, staged bytes
and the money; and it only appends notices to the control order. -/
def Obligations.SettleFrame : Prop :=
  ∀ s : State, ∃ ns, (settle s).control = s.control ++ ns ∧ (∀ f ∈ ns, f.isNotice = true) ∧
    (settle s).powered = s.powered ∧ (settle s).pending = s.pending ∧ (settle s).clock = s.clock ∧
    (settle s).elapsed = s.elapsed ∧ (settle s).params = s.params ∧ (settle s).stations = s.stations ∧
    (settle s).rx = s.rx ∧ (settle s).heldOff = s.heldOff ∧ (settle s).waiting = s.waiting ∧
    (settle s).mem = s.mem ∧ (settle s).ret.fees = s.ret.fees ∧ (settle s).ret.accounts = s.ret.accounts ∧
    (settle s).ret.cash = s.ret.cash ∧ (settle s).ret.dayOpen = s.ret.dayOpen ∧
    (settle s).ret.openedDay = s.ret.openedDay ∧ (settle s).ret.lastClose = s.ret.lastClose

/-- An unpowered board takes nothing but POWER_ON (log 6, the model's choice). -/
def Sys2Proof.UnpoweredBoardTakesNothing : Prop :=
  ∀ (c : Instr) (s : State), s.powered = false → (∀ b, c ≠ .powerOn b) → exec c s = .next s

/-! ### Bytes and frames -/

/-- The CRC-16 of R199: the remainder taken bit by bit, most significant bit first, its check value over the digits, in every
frame sent, and compared on receipt. -/
def Obligations.CheckValueIsCrc16 : Prop :=
  crc16 ((List.range 9).map fun i => BitVec.ofNat 8 (0x31 + i)) = 0x29B1#16 ∧
    crc16 [] = 0xFFFF#16 ∧
    (∀ (bs : List Byte) (b : Byte), crc16 (bs ++ [b]) = (List.range 8).foldl
      (fun (c : BitVec 16) (i : Nat) => (c <<< 1) ^^^ (if c.getLsbD 15 != b.getLsbD (7 - i) then 0x1021#16 else 0#16)) (crc16 bs)) ∧
    (∀ (k : Byte) (tag : Word16) (st : Byte) (body : List Byte),
      frameBytes k tag st body = 0x5A :: be 2 body.length ++ (k :: be 2 tag.toNat ++ st :: body) ++
        be 2 (crc16 (k :: be 2 tag.toNat ++ st :: body)).toNat) ∧
    (∀ f : ControlFrame, ∃ k tag st body, f.bytes = frameBytes k tag st body) ∧
    (∀ p : PageFrame, ∃ k tag st body, p.frame = frameBytes k tag st body) ∧
    ∀ (rx : List Byte) (b : Byte), let bs := rx ++ [b]; let len := numAt bs 1 2
      len ≤ 1100 → bs.length = 9 + len →
        (rxStep rx b = ([], some (.bad .check)) ↔ numAt bs (7 + len) 2 ≠ (crc16 (sliceOf bs 3 (4 + len))).toNat)

/-- A frame built by R198 with a body of at most 1,100 bytes, received byte by byte from a hunt, arrives good and whole, and no
byte before its last completes a frame. -/
def Obligations.SentFramesAreReceivedGood : Prop :=
  ∀ (k : Byte) (tag : Word16) (st : Byte) (body : List Byte), body.length ≤ 1100 →
    holdsBadFrame [] (frameBytes k tag st body) = false ∧
    ∀ s : State, LinkTakes s → hear s (frameBytes k tag st body) = arrive s (.request k ⟨tag, st⟩ body) ∧
      ∀ n, n < (frameBytes k tag st body).length →
        hear s ((frameBytes k tag st body).take n) = { s with rx := (frameBytes k tag st body).take n }

/-- The principal request bodies are read as R200 lays them out. -/
def Sys2Proof.RequestBodiesReadAsLaidOut : Prop :=
  (∀ d a b u : Nat, d < 4294967296 → a < 256 → b < 256 → u < 256 →
    parseFetch (be 4 d ++ be 1 a ++ be 1 b ++ be 1 u) = ⟨d, a, b, u⟩) ∧
  (∀ (d k n p : Nat) (ss : List (Nat × Nat)), d < 4294967296 → k < 256 → n < 256 → p < 256 → ss.length < 256 →
    (∀ r ∈ ss, r.1 < 256 ∧ r.2 < 256) →
    parseCopy (be 4 d ++ be 1 k ++ be 1 n ++ be 1 p ++ be 1 ss.length ++ pairBytes ss) = ⟨d, k, n, p, ss⟩) ∧
  (∀ (ref : Word32) (k n t : Nat) (code : Word16) (rs : List (Nat × Nat)) (os : List Nat), k < 256 → n < 65536 →
    t < 4294967296 → rs.length < 256 → (∀ r ∈ rs, r.1 < 256 ∧ r.2 < 256) → os.length < 256 → (∀ o ∈ os, o < 65536) →
    parseFileBegin (be 4 ref.toNat ++ be 1 k ++ be 1 os.length ++ be 2 n ++ be 2 code.toNat ++ be 4 t ++ be 1 rs.length ++
      pairBytes rs ++ os.flatMap (be 2 ·)) = ⟨ref, k, os.length, n, code, t, rs, os⟩) ∧
  (∀ (ref : Word32) (q : Nat) (data : List Byte), q < 65536 →
    parseFileData (be 4 ref.toNat ++ be 2 q ++ data) = ⟨ref, q, data⟩) ∧
  (∀ ref : Word32, refAt (be 4 ref.toNat) 0 = ref) ∧
  (∀ (ref : Word32) (code : Word16), parseConsent (be 4 ref.toNat ++ be 2 code.toNat) = ⟨ref, code⟩) ∧
  ∀ (st : Nat) (tag : Word16), st < 256 → parseCancel (be 1 st ++ be 2 tag.toNat) = ⟨st, tag⟩

/-- A label block read back is the label that was written (R203). -/
def Sys2Proof.LabelBlockRoundTrip : Prop :=
  ∀ l : Label, l.serial < 4294967296 → l.firstToBe < 4294967296 → l.openedDay < 65536 →
    (∀ n, l.last = some n → n < 4294967296) → l.count < 65536 → readLabelBlock (.data l.bytes) = .good l

/-- A valid document record read back is the record that was written (R7, R204). -/
def Sys2Proof.DocumentRecordRoundTrip : Prop :=
  ∀ r : DocRecord, r.valid = true → readSlotBlock (.data r.bytes) = .record r

/-- Request bodies, label blocks and document records. -/
def Obligations.LayoutsRoundTrip : Prop := RequestBodiesReadAsLaidOut ∧ LabelBlockRoundTrip ∧ DocumentRecordRoundTrip

/-- In a canonical memory a block written to staging reads back, and every other block is as it was. -/
def Obligations.StagingBlockReadsBack : Prop :=
  ∀ (s : State) (b : Nat) (bytes : List Byte), Memory.wf s.mem = true → bytes.length = 1024 →
    readBlock (writeBlock s b bytes) b = bytes ∧ ∀ c, c ≠ b → readBlock (writeBlock s b bytes) c = readBlock s c

/-! ### The Host Link -/

/-- A request of a known kind takes R191's checks 2 to 6 in their order: the first that fails is the refusal, and nothing
else changes. -/
def Sys2Proof.RequestChecksInOrder : Prop :=
  ∀ (c : Instr) (k : ReqKind) (h : Hdr) (body : List Byte) (s : State), requestOf c = some (k, h, body) → LinkTakes s →
    (s.mode = .start → k ≠ .status →
      exec c s = .next (pumpLine (refusedAs s h k .busy (be 1 1)))) ∧
    (s.mode = .rebuild → k ≠ .status → exec c s = .next (pumpLine (refusedAs s h k .rebuilding []))) ∧
    ((k = .status ∨ (s.mode ≠ .start ∧ s.mode ≠ .rebuild)) →
      (32 < h.station.toNat → exec c s = .next (pumpLine (refusedAs s h k .badField []))) ∧
      (h.station.toNat ≤ 32 →
        (k ∈ ReqKind.maintenanceClass → isSupervisor s h.station.toNat = false →
          exec c s = .next (pumpLine (refusedAs s h k .notPermitted []))) ∧
        ((k ∈ ReqKind.maintenanceClass → isSupervisor s h.station.toNat = true) → body.length ≠ layoutLength k body →
          exec c s = .next (pumpLine (refusedAs s h k .badField [])))))

/-- A good frame of an unknown kind is refused UNKNOWN_KIND and changes nothing else (R191). -/
def Sys2Proof.UnknownKindRefused : Prop :=
  ∀ (kind : Byte) (h : Hdr) (body : List Byte) (s : State), reqKindOf kind = none → LinkTakes s →
    exec (.unknownKindFrame kind h body) s = .next (pumpLine
      { s with control := s.control ++ [.reply ⟨h.tag, h.station, kind, .refused .unknownKind, []⟩] })

/-- The checks of R191. -/
def Obligations.RequestChecks : Prop := RequestChecksInOrder ∧ UnknownKindRefused

/-- The receiver (R190): a hunt discards every byte but a start byte; a length above 1,100 and a check value that does not match
are each answered by one LINK_REJECT with their reason, and the hunt begins anew behind them; nothing else changes. -/
def Sys2Proof.BadFramesAreRejected : Prop :=
  ∀ s : State, LinkTakes s →
    let rejected : BadReason → Host.Outcome State Fault Refusal := fun why =>
      .next (pumpLine { s with control := s.control ++ [.linkReject why] })
    (∀ hi lo : Byte, 1100 < hi.toNat * 256 + lo.toNat → exec (.badFrame [0x5A, hi, lo]) s = rejected .length) ∧
    (∀ (checked : List Byte) (check : Nat), 4 ≤ checked.length → checked.length ≤ 1104 → check < 65536 →
      check ≠ (crc16 checked).toNat →
      exec (.badFrame (0x5A :: be 2 (checked.length - 4) ++ checked ++ be 2 check)) s = rejected .check) ∧
    (∀ hunted bytes : List Byte, 0x5A ∉ hunted → exec (.badFrame (hunted ++ bytes)) s = exec (.badFrame bytes) s) ∧
    ∀ (first rest : List Byte) (t : State), exec (.badFrame first) s = .next t →
      exec (.badFrame (first ++ rest)) s = exec (.badFrame rest) t

/-- A gap within a frame is answered by one LINK_REJECT, and the byte that ends it is the first of a new hunt; in a hunt there is
no frame to have a gap (R190). With the Reply Queue full the LINK_REJECT waits with its frame (R192). -/
def Sys2Proof.GapsAreRejected : Prop :=
  ∀ (next : Byte) (s : State), s.powered = true → s.waiting = none →
    let hunt : List Byte := if next = 0x5A then [0x5A] else []
    (s.rx = [] → exec (.interbyteGap next) s = .next { s with rx := hunt }) ∧
    (s.rx ≠ [] → replyCount s < 8 → exec (.interbyteGap next) s =
      .next (pumpLine { s with rx := hunt, control := s.control ++ [.linkReject .gap] })) ∧
    (s.rx ≠ [] → 8 ≤ replyCount s → exec (.interbyteGap next) s =
      .next { s with rx := hunt, waiting := some (.bad .gap) })

/-- A request frame whose bytes come while a frame is in hand goes on with it, byte by byte (R190). -/
def Sys2Proof.BytesGoOnWithTheFrameInHand : Prop :=
  ∀ (c : Instr) (k : ReqKind) (h : Hdr) (body : List Byte) (s : State), requestOf c = some (k, h, body) → s.powered = true →
    s.rx ≠ [] → exec c s = exec (.badFrame (frameBytes k.byte h.tag h.station body)) s

/-- Bad frames, gaps, and bytes behind a frame in hand. -/
def Obligations.BadFramesAndGaps : Prop := BadFramesAreRejected ∧ GapsAreRejected ∧ BytesGoOnWithTheFrameInHand

/-- With the Reply Queue full a frame waits and no further one is received; when a control frame has left, the frame is taken
(R192). -/
def Sys2Proof.FullReplyQueueHoldsTheFrame : Prop :=
  (∀ (c : Instr) (k : ReqKind) (h : Hdr) (body : List Byte) (s : State), requestOf c = some (k, h, body) →
    s.powered = true →
    (s.waiting = none → s.rx = [] → Config.replyCapacity ≤ replyCount s →
      exec c s = .next { s with waiting := some (.request k.byte h body) }) ∧
    (s.waiting.isSome = true → exec c s = .next s)) ∧
  (∀ s : State, s.powered = true → s.line = some .control → s.waiting = none →
    exec .frameSent s = .next (pumpLine { s with line := none, control := s.control.tail })) ∧
  ∀ (s : State) (a : Arrival), s.powered = true → s.line = some .control → s.waiting = some a →
    replyCount { s with control := s.control.tail } < 8 →
    exec .frameSent s =
      .next (pumpLine (takeArrival { s with line := none, control := s.control.tail, waiting := none } a))

/-- The free line takes a control frame, a PAGE frame, or the two in turn; a line held off sends nothing (R192; that it begins
with a control frame is log 25). -/
def Sys2Proof.LineAlternates : Prop :=
  (∀ (s : State) (hold : Bool), s.powered = true →
    exec (.hostHoldOff hold) s = .next (pumpLine { s with heldOff := hold })) ∧
  ∀ s : State,
    (s.heldOff = true ∨ s.line.isSome = true → pumpLine s = s) ∧
    (s.heldOff = false → s.line = none →
      (nextPageFrame s = none → s.control = [] → pumpLine s = s) ∧
      (nextPageFrame s = none → s.control ≠ [] → (pumpLine s).line = some .control) ∧
      ∀ p, nextPageFrame s = some p →
        (s.control = [] ∨ s.lastWasControl = true → (pumpLine s).line = some (.page p)) ∧
        (s.control ≠ [] → s.lastWasControl = false → (pumpLine s).line = some .control)) ∧
    (pumpLine s).control = s.control ∧ (pumpLine s).ret = s.ret ∧ (pumpLine s).fetches = s.fetches

/-- The outgoing line and the Reply Queue (R192). -/
def Obligations.LineAndReplyQueue : Prop := FullReplyQueueHoldsTheFrame ∧ LineAlternates

/-- A notice joins the queue's tail, or is dropped with the flag set when 32 wait (R197). -/
def Obligations.NoticePlacedOrDropped : Prop :=
  ∀ (s : State) (k : NoticeKind) (about : Option (Word16 × Nat)) (fields : List Byte),
    (noticeCount s < 32 → notify s k about fields = { s with control := s.control ++ [.notice ⟨k, about, fields⟩] }) ∧
    (32 ≤ noticeCount s → notify s k about fields = { s with dropped := true })

/-- The last byte of a PAGE frame: the record's next frame follows, the block sent is freed, and a page wholly sent is counted
by its marker (R101). -/
def Obligations.PageFrameSentAdvancesDelivery : Prop :=
  (∀ (s : State) (p : PageFrame) (f : Fetch) (q : FetchPage) (b : Nat), s.powered = true → s.line = some (.page p) →
    s.findFetch p.fetch = some f → (f.pages.find? fun q => q.page == p.page) = some q → p.marker = .data →
    q.outcome = .staged → p.block = some b →
    (p.chunk < p.chunks → exec .pageFrameSent s = .next (settle ((freeOf { s with line := none } p.claim [b]).modFetch f.seq
      fun x => { x with sendPage := p.page, sendChunk := p.chunk + 1 }))) ∧
    (p.chunks ≤ p.chunk → exec .pageFrameSent s = .next (settle ((freeOf { s with line := none } p.claim [b]).modFetch f.seq
      fun x => { x with sendPage := p.page + 1, sendChunk := 1, delivered := x.delivered + 1 })))) ∧
  ∀ (s : State) (p : PageFrame) (f : Fetch) (q : FetchPage), s.powered = true → s.line = some (.page p) →
    s.findFetch p.fetch = some f → (f.pages.find? fun q => q.page == p.page) = some q →
    (p.marker = .withheld → q.outcome = .withheld → exec .pageFrameSent s = .next (settle
      (State.modFetch { s with line := none } f.seq fun x =>
        { x with sendPage := p.page + 1, sendChunk := 1, withheld := x.withheld + 1 }))) ∧
    (p.marker = .unreadable → q.outcome = .unreadable → exec .pageFrameSent s = .next (settle
      (State.modFetch { s with line := none } f.seq fun x =>
        { x with sendPage := p.page + 1, sendChunk := 1, unreadable := x.unreadable + 1 })))

/-! ### Reports -/

/-- STATUS replies DONE with its report and clears the dropped-notice flag; nothing else changes (R196). -/
def Sys2Proof.StatusReports : Prop :=
  ∀ (s : State) (h : Hdr) (b : List Byte), Admitted s .status h b →
    exec (.status h b) s = .next (pumpLine (replied s { s with dropped := false } h .status .done (statusFields s)))

/-- The queries without operands reply DONE with their report and change nothing else (R49, R93, R129, R163, R165, R176,
R193, R195). -/
def Sys2Proof.QueriesReportAndChangeNothing : Prop :=
  ∀ (s : State) (h : Hdr) (b : List Byte),
    (Admitted s .stationQuery h b →
      exec (.stationQuery h b) s = .next (pumpLine (replied s s h .stationQuery .done (stationFields s)))) ∧
    (Admitted s .paramsQuery h b →
      exec (.paramsQuery h b) s = .next (pumpLine (replied s s h .paramsQuery .done (paramFields s.params)))) ∧
    (Admitted s .slotQuery h b →
      exec (.slotQuery h b) s = .next (pumpLine (replied s s h .slotQuery .done (slotReport s)))) ∧
    (Admitted s .workQuery h b →
      exec (.workQuery h b) s = .next (pumpLine (replied s s h .workQuery .done (workReport s)))) ∧
    (Admitted s .filingQuery h b →
      exec (.filingQuery h b) s = .next (pumpLine (replied s s h .filingQuery .done (filingsReport s)))) ∧
    (Admitted s .copyQuery h b →
      exec (.copyQuery h b) s = .next (pumpLine (replied s s h .copyQuery .done (ordersReport s)))) ∧
    (Admitted s .feeQuery h b →
      exec (.feeQuery h b) s = .next (pumpLine (replied s s h .feeQuery .done
        (be 4 s.ret.fees.plain ++ be 4 s.ret.fees.cert ++ be 4 s.ret.fees.certFee)))) ∧
    (Admitted s .tallyQuery h b →
      exec (.tallyQuery h b) s = .next (pumpLine (replied s s h .tallyQuery .done (tallyReport s))))

/-- SIDE_QUERY, CARTRIDGE_QUERY, ACCOUNT_QUERY reply one report for each number of their span, or BAD_FIELD; WITHHELD_QUERY
reports its document's entries (R15, R49, R144, R176). -/
def Obligations.SpanQueriesReport : Prop :=
  ∀ (s : State) (h : Hdr) (b : List Byte),
    (Admitted s .sideQuery h b → let n := numAt b 0 2; let c := numAt b 2 1
      (1 ≤ n → n ≤ 320 → 1 ≤ c → c ≤ 16 → n + c ≤ 321 → exec (.sideQuery h b) s = .next (pumpLine
        (replied s s h .sideQuery .done ((List.range c).flatMap fun i => sideReport s (n + i))))) ∧
      (n = 0 ∨ c = 0 ∨ 16 < c ∨ 321 < n + c →
        exec (.sideQuery h b) s = .next (pumpLine (refusedAs s h .sideQuery .badField [])))) ∧
    (Admitted s .cartridgeQuery h b → let n := numAt b 0 1; let c := numAt b 1 1
      (1 ≤ n → n ≤ 160 → 1 ≤ c → c ≤ 16 → n + c ≤ 161 → exec (.cartridgeQuery h b) s = .next (pumpLine
        (replied s s h .cartridgeQuery .done ((List.range c).flatMap fun i => cartReport s (n + i))))) ∧
      (n = 0 ∨ c = 0 ∨ 16 < c ∨ 161 < n + c →
        exec (.cartridgeQuery h b) s = .next (pumpLine (refusedAs s h .cartridgeQuery .badField [])))) ∧
    (Admitted s .accountQuery h b → let n := numAt b 0 1; let c := numAt b 1 1
      (1 ≤ n → n ≤ 64 → 1 ≤ c → c ≤ 16 → n + c ≤ 65 → exec (.accountQuery h b) s = .next (pumpLine
        (replied s s h .accountQuery .done ((List.range c).flatMap fun i => accountRecord s (n + i))))) ∧
      (n = 0 ∨ c = 0 ∨ 16 < c ∨ 65 < n + c →
        exec (.accountQuery h b) s = .next (pumpLine (refusedAs s h .accountQuery .badField [])))) ∧
    (Admitted s .withheldQuery h b → let d := numAt b 0 4
      (d ≠ 0 → exec (.withheldQuery h b) s =
        .next (pumpLine (replied s s h .withheldQuery .done (withheldReport s d)))) ∧
      (d = 0 → exec (.withheldQuery h b) s = .next (pumpLine (refusedAs s h .withheldQuery .badField []))))

/-- Range lookup (R13): a number of 0, or at or above the next document number, is in no side; otherwise the lookup gives an
assigned side whose first and last document embrace the number, wherever there is one. -/
def Obligations.RangeLookupFindsTheSide : Prop :=
  ∀ (s : State) (d : Nat),
    (d = 0 ∨ s.ret.nextDoc ≤ d → rangeLookup s d = none) ∧
    (∀ n, rangeLookup s d = some n → 1 ≤ n ∧ n ≤ s.ret.sides.length ∧ sideAssigned s n = true ∧
      ∃ a z, (s.side n).first = some a ∧ (s.side n).last = some z ∧ a ≤ d ∧ d ≤ z) ∧
    (∀ n a z, 1 ≤ d → d < s.ret.nextDoc → 1 ≤ n → n ≤ s.ret.sides.length → sideAssigned s n = true →
      (s.side n).first = some a → (s.side n).last = some z → a ≤ d → d ≤ z → (rangeLookup s d).isSome = true)

/-- LOCATE reports the result of range lookup and changes nothing (R14; its yes or no bytes are log 11's). -/
def Sys2Proof.LocateReports : Prop :=
  ∀ (s : State) (h : Hdr) (b : List Byte), Admitted s .locate h b → let d := numAt b 0 4
    (rangeLookup s d = none → exec (.locate h b) s = .next (pumpLine
      (replied s s h .locate .done (flag false ++ flag (decide (s.ret.nextDoc ≤ d)))))) ∧
    ∀ n, rangeLookup s d = some n → exec (.locate h b) s = .next (pumpLine (replied s s h .locate .done
      (flag true ++ be 2 n ++ be 1 (faceCode (sideFace n)) ++ be 4 (((s.cart (sideCart n)).map Cart.label).getD 0) ++
        be 1 (((s.cart (sideCart n)).map fun k => k.state.code).getD 0) ++ be 1 (s.side n).state.code ++
        flag (stuck s (sideCart n)))))

/-- STATUS, LOCATE and the queries without operands (how a yes or no is sent in their replies is log 11's). -/
def Obligations.QueriesReport : Prop := StatusReports ∧ QueriesReportAndChangeNothing ∧ LocateReports

/-- The fields of STATUS, in R196's order. -/
def Sys2Proof.StatusFieldsInOrder : Prop :=
  ∀ s : State, statusFields s =
    be 1 s.mode.code ++ (s.drives.flatMap fun d => be 1 d.state.code ++ be 1 d.service.code) ++ be 1 s.picker.state.code ++
      (s.picker.mails.flatMap fun m => be 1 m.state.code ++ flag m.locked ++ flag m.faulty) ++ be 2 (freeStaging s) ++
      ([WorkClass.urgent, .media, .view, .copy, .file].flatMap fun c => be 1 (s.work.filter fun i => i.cls == c).length) ++
      be 1 s.heldReqs.length ++ be 1 s.filings.length ++ be 1 s.orders.length ++ be 1 s.fetches.length ++
      be 1 (pendingConsents s).length ++ be 1 s.picker.queue.length ++ be 2 s.picker.deferred.length ++ be 1 (noticeCount s) ++
      be 1 s.port.printer.code ++ optNum 2 (openSide s) ++ be 6 s.ret.nextDoc ++ optNum 2 (s.clock.map Clock.day) ++
      optField 4 (s.clock.map Clock.second) ++ flag s.dropped

/-- One report of SIDE_QUERY: unassigned and nothing more, or the cartridge, every field of the side's entry and what is left of it
(R15). -/
def Sys2Proof.SideReportFields : Prop :=
  ∀ (s : State) (n : Nat), let e := s.side n
    (s.cart (sideCart n) = none → sideReport s n = flag false) ∧
    ∀ k, s.cart (sideCart n) = some k → sideReport s n =
      flag true ++ be 1 (sideCart n) ++ be 4 k.label ++ be 1 k.state.code ++ be 1 e.state.code ++ optNum 4 e.first ++
        optNum 4 e.last ++ be 2 e.count ++ be 4 e.writePtr ++ be 2 e.spareUsed ++ be 2 e.slotsUsed ++
        optNum 1 (e.closeReason.map CloseReason.code) ++ optNum 2 e.openedDay ++ flag e.closedPending ++
        be 4 (Config.dataBlocks - e.writePtr) ++ be 2 (1000 - e.slotsUsed) ++ be 2 (2048 - e.spareUsed)

/-- One report of CARTRIDGE_QUERY, and the reply of SLOT_QUERY (R49). -/
def Sys2Proof.CartridgeAndSlotReportFields : Prop :=
  ∀ s : State,
    (∀ c, s.cart c = none → cartReport s c = flag false) ∧
    (∀ c k, s.cart c = some k → cartReport s c =
      flag true ++ be 4 k.label ++ be 1 k.state.code ++ optNum 1 k.home ++ placeBytes s (placeOf s c) ++
        flag (s.picker.exportPending.any fun e => e.cart == c) ++ flag (stuck s c) ++ be 1 (s.side (2 * c - 1)).state.code ++
        be 1 (s.side (2 * c)).state.code) ∧
    slotReport s =
      ((upTo 120).flatMap fun n =>
        be 1 (if (s.slot n).occ ≠ .empty then 2 else if (s.slot n).disabled then 3 else 1) ++ optNum 1 (homeOf s n)) ++
        (s.picker.mails.flatMap fun m => be 1 m.state.code ++ flag m.locked ++ flag m.faulty) ++
        (s.drives.flatMap fun d => occupantFields d.occ) ++ occupantFields s.picker.gripper ++ be 1 (freeSlots s).length ++
        be 4 s.ret.labelCounter ++ be 1 s.picker.state.code ++ be 1 s.picker.queue.length ++ be 2 s.picker.deferred.length

/-- The reply of WORK_QUERY: a report for each item in rank order, then the held requests, chains, parameters and staging (R93). -/
def Sys2Proof.WorkReportFields : Prop :=
  ∀ s : State, workReport s =
    be 1 (rankedItems s).length ++
      ((rankedItems s).flatMap fun i =>
        optField 2 (i.tag.map BitVec.toNat) ++ optField 1 i.station ++ be 1 i.cls.code ++ be 1 i.kind.code ++ optNum 2 i.side ++
          optNum 4 i.doc ++ optField 4 (i.filing.map BitVec.toNat) ++ optNum 1 i.mail ++ be 1 i.state.code ++ itemProgress s i ++
          be 1 i.yields ++ be 1 i.limit ++ optNum 1 i.drive ++ optNum 1 (waitedDrive s i)) ++
      be 1 s.heldReqs.length ++ (s.drives.flatMap fun d => be 1 d.chain) ++ be 1 (orderNumber s.params.classOrder) ++
      be 1 s.params.burstPages ++ be 2 s.params.writeBurst ++ be 1 s.params.yieldLimit ++ be 1 s.params.chainLimit ++
      be 2 (freeStaging s) ++ be 2 (heldByFilings s) ++ be 2 (heldByReads s) ++
      be 1 (s.claims.filter fun c => c.blocks.isNone).length ++
      be 2 ((s.claims.filter fun c => c.blocks.isNone).map Claim.size).sum

/-- The replies of FILING_QUERY (R129) and WITHHELD_QUERY (R144). -/
def Sys2Proof.FilingAndWithheldReportFields : Prop :=
  ∀ s : State,
    (∀ f : Filing, filingReport f =
      be 4 f.ref.toNat ++ be 1 f.station ++ be 1 (if f.rect.isSome then 2 else 1) ++ be 1 f.state.code ++ be 2 f.count ++
        be 2 f.received ++ optNum 2 f.target ++ optField 4 f.start ++ be 2 f.claimed ++ be 2 f.progress ++
        be 1 f.remaps.length ++ flag f.relocated ++ flag f.cancelPending ++ optNum 4 (f.rect.map RectInfo.target) ++
        optNum 2 ((f.rect.bind RectInfo.deadline).map Clock.day) ++
        optField 4 ((f.rect.bind RectInfo.deadline).map Clock.second)) ∧
    (let fs := s.fileLine.filterMap s.findFiling ++ s.filings.filter fun f => !s.fileLine.contains f.ref
     filingsReport s =
      be 1 fs.length ++ fs.flatMap filingReport ++ optField 4 ((headFiling s).map fun f => f.ref.toNat) ++
        be 6 s.ret.nextDoc ++ optNum 2 (openSide s) ++
        (match s.ret.marker with
         | some m => flag true ++ be 4 m.ref.toNat ++ be 2 m.side ++ be 4 m.start
         | none => flag false ++ be 4 0 ++ be 2 0 ++ be 4 0) ++ be 2 (heldByFilings s)) ∧
    ∀ doc, let ranges := fun rs : List (Nat × Nat) => be 1 rs.length ++ pairBytes rs
      let committed := (s.ret.withheld.filter Option.isSome).length
      withheldReport s doc =
        be 2 (committedOn s doc).length ++ ((committedOn s doc).flatMap fun e => be 4 e.2.rectDoc ++ ranges e.2.ranges) ++
          ranges (rangesOf (withheldSet s doc)) ++ be 2 committed ++ be 2 s.reserved.length ++
          be 2 (Config.withheldCount - committed - s.reserved.length) ++ be 1 (pendingConsents s).length ++
          ((pendingConsents s).flatMap fun f => be 4 f.ref.toNat ++ be 1 f.station ++
            be 4 ((f.rect.map RectInfo.target).getD 0) ++ optNum 2 ((f.rect.bind RectInfo.deadline).map Clock.day) ++
            optField 4 ((f.rect.bind RectInfo.deadline).map Clock.second))

/-- The reply of COPY_QUERY: every field of R145 but the document copy and the page list, then the port (R163). -/
def Sys2Proof.OrderReportFields : Prop :=
  (∀ o : Order, orderReport o =
    be 1 o.number ++ be 4 o.accept.toNat ++ be 2 o.tag.toNat ++ be 1 o.station ++ be 4 o.doc ++ be 2 o.side ++
      be 1 (if o.cert then 2 else 1) ++ be 1 o.sets ++ be 1 o.spans.length ++ pairBytes o.spans ++ be 1 o.payer ++
      be 4 o.rate ++ optField 4 (if o.cert then some o.certFee else none) ++ be 1 o.selection.length ++
      o.selection.flatMap (be 1 ·) ++ flag o.copy.isSome ++ be 4 o.hold ++ be 1 o.state.code ++
      optNum 1 (o.closing.map Closing.code) ++ be 1 o.curSet ++
      be 1 o.setPages.length ++ o.setPages.flatMap (be 1 ·) ++ be 4 o.pendingCharge ++ be 1 o.readPoint.1 ++
      be 1 o.readPoint.2 ++ be 2 o.charged ++ be 2 o.spoiled ++ be 1 o.setsDone ++ be 1 o.setsVoided ++ be 4 o.amount ++
      be 2 (o.pages.filter fun q => q.outcome == .staged).length ++
      be 2 (o.pages.filter fun q => q.outcome == .inBurst).length) ∧
  ∀ s : State, ordersReport s =
    be 1 s.orders.length ++ s.orders.flatMap orderReport ++ be 1 s.port.printer.code ++ optNum 1 s.port.holder ++
      (match s.port.inHand with
       | some h => flag true ++ be 1 h.kind.code ++ be 1 h.set ++ be 1 h.page ++ be 1 h.attempt ++ be 1 h.limit.code
       | none => flag false ++ be 5 0) ++ be 2 s.port.nextSeq.toNat

/-- One record of ACCOUNT_QUERY, and the replies of TALLY_QUERY and DAY_CLOSE (R175, R176). -/
def Sys2Proof.AccountReportFields : Prop :=
  (∀ (s : State) (a : Nat), let k := s.account a
    accountRecord s a = be 1 a ++ be 1 k.state.code ++ balanceBytes k.balance ++ be 4 k.limit ++ be 4 (holdsOf s a) ++
      be 6 k.charged ++ be 1 (openOrders s a) ++ balanceBytes (k.balance + k.limit - holdsOf s a)) ∧
  (∀ r : DayReport, reportFields r =
    optNum 2 r.openedDay ++ optNum 2 (r.closed.map Clock.day) ++ optField 4 (r.closed.map Clock.second) ++
      be 6 r.counts.total ++ be 6 r.accountTotal ++ be 6 r.cashTotal ++ r.cash.flatMap (be 6 ·) ++
      r.charged.flatMap (be 6 ·) ++ be 6 r.counts.plainPages ++ be 6 r.counts.certPages ++ be 6 r.counts.certSets ++
      be 6 r.counts.voidedSets ++ be 6 r.counts.spoiled) ∧
  ∀ s : State, let now : DayReport := ⟨s.ret.openedDay, s.clock, s.ret.counts, (s.ret.accounts.map Account.charged).sum,
      s.ret.cash.sum, s.ret.cash, s.ret.accounts.map Account.charged⟩
    (∀ r, s.ret.lastClose = some r → tallyReport s = flag s.ret.dayOpen ++ optNum 2 s.ret.openedDay ++ reportFields now ++
      be 4 (s.orders.map Order.hold).sum ++ flag true ++ reportFields r) ∧
    (s.ret.lastClose = none → ∃ zeroes, (∀ b ∈ zeroes, b = 0) ∧ tallyReport s = flag s.ret.dayOpen ++
      optNum 2 s.ret.openedDay ++ reportFields now ++ be 4 (s.orders.map Order.hold).sum ++ flag false ++ zeroes)

/-- The reports field by field, each in its rule's order at R200's widths (how a list, a yes or no, a place and a clock are
sent, and the class orders' numbers, are log 11's). -/
def Obligations.ReportsCarryTheirFields : Prop :=
  StatusFieldsInOrder ∧ SideReportFields ∧ CartridgeAndSlotReportFields ∧ WorkReportFields ∧
    FilingAndWithheldReportFields ∧ OrderReportFields ∧ AccountReportFields

/-! ### Settings -/

/-- STATION_SET gives one station its kind; a bad station or kind is refused (R193). -/
def Sys2Proof.StationSetSetsOneStation : Prop :=
  ∀ (s : State) (h : Hdr) (b : List Byte), Admitted s .stationSet h b → let n := numAt b 0 1; let k := numAt b 1 1
    (∀ kind : StationKind, k = kind.code → 1 ≤ n → n ≤ 32 → let t := tset s.stations n kind
      exec (.stationSet h b) s = .next (pumpLine
        (replied s { s with stations := t } h .stationSet .done (t.flatMap fun x => be 1 x.code)))) ∧
    (n = 0 ∨ 32 < n ∨ k = 0 ∨ 3 < k →
      exec (.stationSet h b) s = .next (pumpLine (refusedAs s h .stationSet .badField [])))

/-- SET_PARAMS sets all seven parameters together, or is refused naming the first out of range and changes none (R195). -/
def Sys2Proof.SetParamsSetsAllOrNone : Prop :=
  ∀ (s : State) (h : Hdr) (b : List Byte), Admitted s .setParams h b → let q := parseParams b
    let t := { s with params := q.toParams }
    (q.badField = 0 → exec (.setParams h b) s = .next (settle (replied s
      (if q.idleTime = s.params.idleTime then t else idleChanged t) h .setParams .done (paramFields q.toParams)))) ∧
    (q.badField ≠ 0 → exec (.setParams h b) s =
      .next (settle (refusedAs s h .setParams .badField (be 1 q.badField)))) ∧
    (q.badField = 0 ↔ (1 ≤ q.burstPages ∧ q.burstPages ≤ 16) ∧ (64 ≤ q.writeBurst ∧ q.writeBurst ≤ 1024) ∧
      q.yieldLimit ≤ 7 ∧ (1 ≤ q.chainLimit ∧ q.chainLimit ≤ 32) ∧ (1 ≤ q.order ∧ q.order ≤ 6) ∧
      (30 ≤ q.idleTime ∧ q.idleTime ≤ 3600) ∧ (60 ≤ q.consentWindow ∧ q.consentWindow ≤ 1800)) ∧
    ((∀ d, (s.drive d).state = .ready → (s.drive d).idleOn = true → s.elapsed - (s.drive d).readySince < q.idleTime) →
      idleChanged t = t)

/-- SET_CLOCK takes a reading in range, at which due consents expire; another is refused (R180). -/
def Sys2Proof.SetClockTakesTheReading : Prop :=
  ∀ (s : State) (h : Hdr) (b : List Byte), Admitted s .setClock h b → let d := numAt b 0 2; let n := numAt b 2 4
    (1 ≤ d → n < 86400 → exec (.setClock h b) s = .next (settle
      (replied s (expireDue { s with clock := some ⟨d, n⟩ }) h .setClock .done (be 2 d ++ be 4 n)))) ∧
    (d = 0 ∨ 86400 ≤ n → exec (.setClock h b) s = .next (settle (refusedAs s h .setClock .badField []))) ∧
    ((∀ f ∈ s.filings, f.due ⟨d, n⟩ = false) →
      expireDue { s with clock := some ⟨d, n⟩ } = { s with clock := some ⟨d, n⟩ })

/-- FEE_SET replaces the three rates together, or is refused (R165). -/
def Sys2Proof.FeeSetReplacesTheSchedule : Prop :=
  ∀ (s : State) (h : Hdr) (b : List Byte), Admitted s .feeSet h b →
    let p := numAt b 0 4; let c := numAt b 4 4; let f := numAt b 8 4
    (p ≤ 50000 → c ≤ 50000 → f ≤ 50000 → exec (.feeSet h b) s = .next (pumpLine
      (replied s { s with ret := { s.ret with fees := ⟨p, c, f⟩ } } h .feeSet .done (be 4 p ++ be 4 c ++ be 4 f)))) ∧
    (50000 < p ∨ 50000 < c ∨ 50000 < f →
      exec (.feeSet h b) s = .next (pumpLine (refusedAs s h .feeSet .badField [])))

/-- STATION_SET, SET_PARAMS, SET_CLOCK and FEE_SET (the replies' fields as log 11 lays them out). -/
def Obligations.SettingRequests : Prop :=
  StationSetSetsOneStation ∧ SetParamsSetsAllOrNone ∧ SetClockTakesTheReading ∧ FeeSetReplacesTheSchedule

/-! ### Accounts and the day -/

/-- The state after an accepted account request: one record replaced, replied with its figures. -/
def Sys2Proof.accountSet (s : State) (h : Hdr) (k : ReqKind) (a : Nat) (e : Account) : State :=
  let t := s.setAccount a e
  pumpLine (replied s t h k .done (accountFields t a))

/-- A refused account request, with the account's figures as they stood. -/
def Sys2Proof.accountRefused (s : State) (h : Hdr) (k : ReqKind) (a : Nat) (code : RefCode) (more : List Byte) : State :=
  pumpLine (refusedAs s h k code (accountFields s a ++ more))

/-- ACCOUNT_OPEN, ACCOUNT_SUSPEND, ACCOUNT_RESUME and ACCOUNT_CLOSE (R171; that BUSY names ACCOUNT_CLOSE's conditions 2 and 3 by
these bytes is log 11's numbering, the model's choice). -/
def Obligations.AccountStateRequests : Prop :=
  ∀ (s : State) (h : Hdr) (b : List Byte), let a := numAt b 0 1; let k := s.account a; let l := numAt b 1 4
    (Admitted s .accountOpen h b →
      (a = 0 ∨ 64 < a → exec (.accountOpen h b) s = .next (pumpLine (refusedAs s h .accountOpen .badField []))) ∧
      (1 ≤ a → a ≤ 64 →
        (9999999 < l → exec (.accountOpen h b) s = .next (accountRefused s h .accountOpen a .badField [])) ∧
        (l ≤ 9999999 → k.state ≠ .inactive →
          exec (.accountOpen h b) s = .next (accountRefused s h .accountOpen a .accountState [])) ∧
        (l ≤ 9999999 → k.state = .inactive →
          exec (.accountOpen h b) s = .next (accountSet s h .accountOpen a { k with state := .active, limit := l })))) ∧
    (Admitted s .accountSuspend h b →
      (a = 0 ∨ 64 < a → exec (.accountSuspend h b) s = .next (pumpLine (refusedAs s h .accountSuspend .badField []))) ∧
      (1 ≤ a → a ≤ 64 →
        (k.state = .inactive →
          exec (.accountSuspend h b) s = .next (accountRefused s h .accountSuspend a .accountState [])) ∧
        (k.state ≠ .inactive →
          exec (.accountSuspend h b) s = .next (accountSet s h .accountSuspend a { k with state := .suspended })))) ∧
    (Admitted s .accountResume h b →
      (a = 0 ∨ 64 < a → exec (.accountResume h b) s = .next (pumpLine (refusedAs s h .accountResume .badField []))) ∧
      (1 ≤ a → a ≤ 64 →
        (k.state = .inactive →
          exec (.accountResume h b) s = .next (accountRefused s h .accountResume a .accountState [])) ∧
        (k.state ≠ .inactive →
          exec (.accountResume h b) s = .next (accountSet s h .accountResume a { k with state := .active })))) ∧
    (Admitted s .accountClose h b →
      (a = 0 ∨ 64 < a → exec (.accountClose h b) s = .next (pumpLine (refusedAs s h .accountClose .badField []))) ∧
      (1 ≤ a → a ≤ 64 →
        (k.state ≠ .active → exec (.accountClose h b) s = .next (accountRefused s h .accountClose a .accountState [])) ∧
        (k.state = .active → openOrders s a ≠ 0 ∨ holdsOf s a ≠ 0 →
          exec (.accountClose h b) s = .next (accountRefused s h .accountClose a .busy (be 1 2))) ∧
        (k.state = .active → openOrders s a = 0 → holdsOf s a = 0 → k.balance ≠ 0 →
          exec (.accountClose h b) s = .next (accountRefused s h .accountClose a .busy (be 1 3))) ∧
        (k.state = .active → openOrders s a = 0 → holdsOf s a = 0 → k.balance = 0 →
          exec (.accountClose h b) s = .next (accountSet s h .accountClose a { k with state := .inactive, limit := 0 }))))

/-- ACCOUNT_LIMIT's four conditions in their order, its FUNDS reply, its one update; under the funds law a raised limit passes
(R172). -/
def Obligations.AccountLimitChecksAndSets : Prop :=
  ∀ (s : State) (h : Hdr) (b : List Byte), Admitted s .accountLimit h b →
    let a := numAt b 0 1; let l := numAt b 1 4; let k := s.account a
    let funds := exec (.accountLimit h b) s = .next (accountRefused s h .accountLimit a .funds
      (balanceBytes (max 0 (max (-k.balance) (holdsOf s a - k.balance)))))
    (a = 0 ∨ 64 < a → exec (.accountLimit h b) s = .next (pumpLine (refusedAs s h .accountLimit .badField []))) ∧
    (1 ≤ a → a ≤ 64 →
      (9999999 < l → exec (.accountLimit h b) s = .next (accountRefused s h .accountLimit a .badField [])) ∧
      (l ≤ 9999999 → k.state ≠ .active → k.state ≠ .suspended →
        exec (.accountLimit h b) s = .next (accountRefused s h .accountLimit a .accountState [])) ∧
      (l ≤ 9999999 → k.state = .active ∨ k.state = .suspended →
        (k.balance < -(l : Int) → funds) ∧
        (-(l : Int) ≤ k.balance → k.balance + l < holdsOf s a → funds) ∧
        (-(l : Int) ≤ k.balance → (holdsOf s a : Int) ≤ k.balance + l →
          exec (.accountLimit h b) s = .next (accountSet s h .accountLimit a { k with limit := l })) ∧
        (-(k.limit : Int) ≤ k.balance → (holdsOf s a : Int) ≤ k.balance + k.limit → k.limit ≤ l →
          exec (.accountLimit h b) s = .next (accountSet s h .accountLimit a { k with limit := l }))))

/-- ACCOUNT_DEPOSIT and ACCOUNT_WITHDRAW: their checks in order and the balance after them; nothing else moves (R173). -/
def Obligations.AccountMoneyRequests : Prop :=
  ∀ (s : State) (h : Hdr) (b : List Byte), let a := numAt b 0 1; let m := numAt b 1 4; let k := s.account a
    (Admitted s .accountDeposit h b →
      (a = 0 ∨ 64 < a → exec (.accountDeposit h b) s = .next (pumpLine (refusedAs s h .accountDeposit .badField []))) ∧
      (1 ≤ a → a ≤ 64 →
        (m = 0 ∨ 99999999 < m →
          exec (.accountDeposit h b) s = .next (accountRefused s h .accountDeposit a .badField [])) ∧
        (1 ≤ m → m ≤ 99999999 →
          (k.state = .inactive →
            exec (.accountDeposit h b) s = .next (accountRefused s h .accountDeposit a .accountState [])) ∧
          (k.state ≠ .inactive → 99999999 < k.balance + m →
            exec (.accountDeposit h b) s =
              .next (accountRefused s h .accountDeposit a .badField (balanceBytes (99999999 - k.balance)))) ∧
          (k.state ≠ .inactive → k.balance + m ≤ 99999999 →
            exec (.accountDeposit h b) s =
              .next (accountSet s h .accountDeposit a { k with balance := k.balance + m }))))) ∧
    (Admitted s .accountWithdraw h b →
      (a = 0 ∨ 64 < a → exec (.accountWithdraw h b) s = .next (pumpLine (refusedAs s h .accountWithdraw .badField []))) ∧
      (1 ≤ a → a ≤ 64 →
        (m = 0 ∨ 99999999 < m →
          exec (.accountWithdraw h b) s = .next (accountRefused s h .accountWithdraw a .badField [])) ∧
        (1 ≤ m → m ≤ 99999999 →
          (k.state = .inactive →
            exec (.accountWithdraw h b) s = .next (accountRefused s h .accountWithdraw a .accountState [])) ∧
          (k.state ≠ .inactive → k.balance - holdsOf s a < m →
            exec (.accountWithdraw h b) s =
              .next (accountRefused s h .accountWithdraw a .funds (balanceBytes (max 0 (k.balance - holdsOf s a))))) ∧
          (k.state ≠ .inactive → (m : Int) ≤ k.balance - holdsOf s a →
            exec (.accountWithdraw h b) s =
              .next (accountSet s h .accountWithdraw a { k with balance := k.balance - m })))))

/-- DAY_OPEN: NIGHT, BUSY with the opened day, or the flag and the opened day set in one update (R174). -/
def Sys2Proof.DayOpenOpensTheDay : Prop :=
  ∀ (s : State) (h : Hdr) (b : List Byte), Admitted s .dayOpen h b →
    (s.mode = .night → exec (.dayOpen h b) s = .next (pumpLine (refusedAs s h .dayOpen .night []))) ∧
    (s.mode ≠ .night → s.ret.dayOpen = true →
      exec (.dayOpen h b) s = .next (pumpLine (refusedAs s h .dayOpen .busy (optNum 2 s.ret.openedDay)))) ∧
    (s.mode ≠ .night → s.ret.dayOpen = false → exec (.dayOpen h b) s = .next (pumpLine (replied s
      { s with ret := { s.ret with dayOpen := true, openedDay := s.clock.map Clock.day } } h .dayOpen .done [])))

/-- DAY_CLOSE: NO_DAY, BUSY, or the report and the one update that starts the next day from zero (R175; the yes or no byte of its
BUSY is log 11's). -/
def Sys2Proof.DayCloseReportsAndZeroes : Prop :=
  ∀ (s : State) (h : Hdr) (b : List Byte), Admitted s .dayClose h b →
    let report : DayReport := ⟨s.ret.openedDay, s.clock, s.ret.counts, (s.ret.accounts.map Account.charged).sum,
      s.ret.cash.sum, s.ret.cash, s.ret.accounts.map Account.charged⟩
    (s.ret.dayOpen = false → exec (.dayClose h b) s = .next (pumpLine (refusedAs s h .dayClose .noDay []))) ∧
    (s.ret.dayOpen = true → s.orders ≠ [] → exec (.dayClose h b) s = .next (pumpLine (refusedAs s h .dayClose .busy
      (be 1 s.orders.length ++ be 1 (if s.port.holder.isSome then 1 else 0))))) ∧
    (s.ret.dayOpen = true → s.orders = [] → exec (.dayClose h b) s = .next (pumpLine (replied s
      { s with ret := { s.ret with
          accounts := s.ret.accounts.map fun k => { k with charged := 0 }
          cash := s.ret.cash.map fun _ => 0
          counts := ⟨0, 0, 0, 0, 0, 0⟩
          lastClose := some report
          dayOpen := false
          openedDay := none } } h .dayClose .done (reportFields report))))

/-- DAY_OPEN and DAY_CLOSE. -/
def Obligations.DayRequests : Prop := DayOpenOpensTheDay ∧ DayCloseReportsAndZeroes

/-- A charge's Retained Store update: the payer's figures, the day total and the counts of what was charged, and nothing else
(R169, R170); the order's hold falls in PrinterAnswerSettlesThePage. -/
def Obligations.ChargeMovesThePayerAndTheDay : Prop :=
  ∀ (s : State) (st m : Nat),
    (∀ (a : Nat) (n : Nat), 1 ≤ a → let k := s.account a
      charge s a st m (.set n) = { s with ret := { s.ret with
        accounts := tset s.ret.accounts a { k with balance := k.balance - m, charged := k.charged + m }
        counts := { s.ret.counts with
          total := s.ret.counts.total + m, certPages := s.ret.counts.certPages + n, certSets := s.ret.counts.certSets + 1 } } } ∧
      charge s a st m .page = { s with ret := { s.ret with
        accounts := tset s.ret.accounts a { k with balance := k.balance - m, charged := k.charged + m }
        counts := { s.ret.counts with total := s.ret.counts.total + m, plainPages := s.ret.counts.plainPages + 1 } } }) ∧
    ∀ n : Nat, let cash := tset s.ret.cash st (tget s.ret.cash st 0 + m)
      charge s 0 st m (.set n) = { s with ret := { s.ret with
        cash := cash
        counts := { s.ret.counts with
          total := s.ret.counts.total + m, certPages := s.ret.counts.certPages + n, certSets := s.ret.counts.certSets + 1 } } } ∧
      charge s 0 st m .page = { s with ret := { s.ret with
        cash := cash
        counts := { s.ret.counts with total := s.ret.counts.total + m, plainPages := s.ret.counts.plainPages + 1 } } }

/-! ### The library -/

/-- SLOT_DISABLE and SLOT_ENABLE (R29). -/
def Sys2Proof.SlotRequestsSetTheMark : Prop :=
  ∀ (s : State) (h : Hdr) (b : List Byte), let n := numAt b 0 1; let x := s.slot n
    (Admitted s .slotDisable h b →
      (n = 0 ∨ 120 < n → exec (.slotDisable h b) s = .next (settle (refusedAs s h .slotDisable .badField []))) ∧
      (1 ≤ n → n ≤ 120 →
        (x.occ = .empty → x.disabled = true ∨ homeOf s n = none → let t := s.setSlot n ⟨.empty, true⟩
          exec (.slotDisable h b) s = .next (settle
            (replied s t h .slotDisable .done (be 1 (slotCode t n) ++ be 1 (freeSlots t).length)))) ∧
        (x.occ ≠ .empty ∨ (x.disabled = false ∧ homeOf s n ≠ none) →
          exec (.slotDisable h b) s = .next (settle (refusedAs s h .slotDisable .busy []))))) ∧
    (Admitted s .slotEnable h b →
      (n = 0 ∨ 120 < n → exec (.slotEnable h b) s = .next (settle (refusedAs s h .slotEnable .badField []))) ∧
      (1 ≤ n → n ≤ 120 → let t := s.setSlot n ⟨x.occ, false⟩
        exec (.slotEnable h b) s = .next (settle
          (replied s t h .slotEnable .done (be 1 (slotCode t n) ++ be 1 (freeSlots t).length)))))

/-- FORGET: its three checks, and one update that frees the record and blanks its sides (R46). -/
def Sys2Proof.ForgetFreesTheRecord : Prop :=
  ∀ (s : State) (h : Hdr) (b : List Byte), Admitted s .forget h b → let r := recordOfLabel s (numAt b 0 4)
    (r = none → exec (.forget h b) s = .next (settle (refusedAs s h .forget .notFound []))) ∧
    ∀ c, r = some c →
      (cartInState s c .withdrawn = false → exec (.forget h b) s = .next (settle (refusedAs s h .forget .badField []))) ∧
      (cartInState s c .withdrawn = true →
        ((s.side (2 * c - 1)).count ≠ 0 ∨ (s.side (2 * c)).count ≠ 0 →
          exec (.forget h b) s = .next (settle (refusedAs s h .forget .notPermitted []))) ∧
        ((s.side (2 * c - 1)).count = 0 → (s.side (2 * c)).count = 0 →
          exec (.forget h b) s = .next (settle (replied s
            { s with ret := { s.ret with
                carts := tset s.ret.carts c none
                sides := tset (tset s.ret.sides (2 * c - 1) Side.blank) (2 * c) Side.blank } } h .forget .done []))))

/-- EXPORT: its checks in their order, and the export begun: pending, with an EXPORT_PUT from the cartridge's place (R44). -/
def Sys2Proof.ExportBeginsAnExport : Prop :=
  ∀ (s : State) (h : Hdr) (b : List Byte), Admitted s .exportCart h b → let r := recordOfLabel s (numAt b 0 4)
    (s.mode = .night → exec (.exportCart h b) s = .next (settle (refusedAs s h .exportCart .night []))) ∧
    (s.mode ≠ .night →
      (r = none → exec (.exportCart h b) s = .next (settle (refusedAs s h .exportCart .notFound []))) ∧
      ∀ c, r = some c →
        (cartInState s c .inLibrary = false →
          exec (.exportCart h b) s = .next (settle (refusedAs s h .exportCart .notFound []))) ∧
        (cartInState s c .inLibrary = true → stuck s c = true →
          exec (.exportCart h b) s = .next (settle (refusedAs s h .exportCart .unavailable []))) ∧
        (cartInState s c .inLibrary = true → stuck s c = false →
          (exportBusy s c = true → exec (.exportCart h b) s = .next (settle (refusedAs s h .exportCart .busy []))) ∧
          (exportBusy s c = false → exec (.exportCart h b) s = .next (settle (replied s
            (requestTransfer
              { s with picker := { s.picker with exportPending := s.picker.exportPending ++ [⟨c, h.tag, h.station.toNat⟩] } }
              .exportPut (some c) ((placeOf s c).getD .gripper) none .a none none false) h .exportCart .accepted [])))))

/-- CLOSE_SIDE: its checks, and the close with reason HOST, its notice after the reply (R18, R21). -/
def Sys2Proof.CloseSideClosesTheOpenSide : Prop :=
  ∀ (s : State) (h : Hdr) (b : List Byte), Admitted s .closeSide h b → let n := numAt b 0 2; let e := s.side n
    (n = 0 ∨ 320 < n → exec (.closeSide h b) s = .next (settle (refusedAs s h .closeSide .badField []))) ∧
    (1 ≤ n → n ≤ 320 →
      (e.state ≠ .opened → exec (.closeSide h b) s = .next (settle (refusedAs s h .closeSide .notFound []))) ∧
      (e.state = .opened → (∃ f ∈ s.filings, f.state = .writing ∨ f.state = .committing) →
        exec (.closeSide h b) s = .next (settle (refusedAs s h .closeSide .busy []))) ∧
      (e.state = .opened → (∀ f ∈ s.filings, f.state ≠ .writing ∧ f.state ≠ .committing) →
        exec (.closeSide h b) s = .next (settle (replied s
          (sideClosedNotice
            (s.setSide n { e with state := .closed, closeReason := some .host, closedPending := true }) n)
          h .closeSide .done (be 2 n ++ optNum 4 e.first ++ optNum 4 e.last ++ be 2 e.count)))))

/-- MARK_FAULTY: its checks; a FAULTY side is accepted unchanged; another becomes FAULTY in one update, a closed mark being written
on it goes no further, and its work ends (R11, R22). -/
def Sys2Proof.MarkFaultySetsTheSide : Prop :=
  ∀ (s : State) (h : Hdr) (b : List Byte), Admitted s .markFaulty h b → let n := numAt b 0 2; let e := s.side n
    (n = 0 ∨ 320 < n ∨ sideAssigned s n = false →
      exec (.markFaulty h b) s = .next (settle (refusedAs s h .markFaulty .badField []))) ∧
    (1 ≤ n → n ≤ 320 → sideAssigned s n = true →
      (e.state = .opened → exec (.markFaulty h b) s = .next (settle (refusedAs s h .markFaulty .busy []))) ∧
      (e.state = .faulty → exec (.markFaulty h b) s = .next (settle (replied s s h .markFaulty .done []))) ∧
      (e.state = .blank ∨ e.state = .closed →
        let t := s.setSide n { e with state := .faulty, closeReason := none, closedPending := false }
        exec (.markFaulty h b) s =
          .next (settle (replied s (endFaultyWork (abandonMark t n) n (e.state == .blank)) h .markFaulty .done [])) ∧
        ((∀ d l p, (s.drive d).task ≠ .writeLabel (.closing n) l p) → abandonMark t n = t ∧
          ((∀ i ∈ s.work, i.side ≠ some n) → endFaultyWork t n (e.state == .blank) = t))))

/-- FORGET, EXPORT, CLOSE_SIDE and MARK_FAULTY. -/
def Obligations.CartridgeAndSideRequests : Prop :=
  ForgetFreesTheRecord ∧ ExportBeginsAnExport ∧ CloseSideClosesTheOpenSide ∧ MarkFaultySetsTheSide

/-- DRIVE_SERVICE OUT by the drive's state (R61; the direction byte, and DONE or ACCEPTED, are log 10's). -/
def Sys2Proof.DriveServiceOutByState : Prop :=
  ∀ (s : State) (h : Hdr) (b : List Byte), Admitted s .driveService h b → numAt b 1 1 = 1 →
    let d := numAt b 0 1; let x := s.drive d; let run := exec (.driveServiceOut h b) s
    let out : Drive → Drive := fun y => { y with service := .out, state := .outOfService }
    (d = 0 ∨ 4 < d → run = .next (settle (refusedAs s h .driveService .badField []))) ∧
    (1 ≤ d → d ≤ 4 →
      (x.service ≠ .inService → run = .next (settle (replied s s h .driveService .done []))) ∧
      (x.service = .inService →
        (x.state = .empty → run = .next (settle (replied s
          ((dropMountsInto (returnAssigned s d) d).modDrive d out) h .driveService .done []))) ∧
        (x.state = .faulted → x.occ = .empty →
          run = .next (settle (replied s (s.modDrive d out) h .driveService .done []))) ∧
        (x.state = .faulted → x.occ ≠ .empty → run = .next (settle (refusedAs s h .driveService .busy []))) ∧
        (x.state = .ready ∨ x.state = .active ∨ x.state = .spinningUp ∨ x.state = .spinningDown ∨ x.state = .stopped →
          run = .next (settle (replied s
            (returnAssigned (s.modDrive d fun y => { y with service := .leaving }) d) h .driveService .accepted []))))) ∧
    (holderOf s d = none → returnAssigned s d = s)

/-- DRIVE_SERVICE IN by the drive's state (R62; the direction byte, and DONE or ACCEPTED, are log 10's). -/
def Sys2Proof.DriveServiceInByState : Prop :=
  ∀ (s : State) (h : Hdr) (b : List Byte), Admitted s .driveService h b → numAt b 1 1 = 2 →
    let d := numAt b 0 1; let x := s.drive d; let run := exec (.driveServiceIn h b) s
    (d = 0 ∨ 4 < d → run = .next (settle (refusedAs s h .driveService .badField []))) ∧
    (1 ≤ d → d ≤ 4 →
      (x.service = .leaving → run = .next (settle (refusedAs s h .driveService .busy []))) ∧
      (x.service ≠ .leaving →
        (x.state = .outOfService ∨ x.state = .faulted → run = .next (settle (replied s
          { s with bay := { s.bay with queue := s.bay.queue ++ [⟨d + 1, .status, .service⟩] } }
          h .driveService .accepted []))) ∧
        (x.state ≠ .outOfService → x.state ≠ .faulted →
          run = .next (settle (replied s s h .driveService .done [])))))

/-- PICKER_RESET is refused BUSY while a transfer holds the arm; otherwise PARK is sent and the reset's steps begin (R39). -/
def Sys2Proof.PickerResetParksThePicker : Prop :=
  ∀ (s : State) (h : Hdr) (b : List Byte), Admitted s .pickerReset h b →
    (s.picker.arm ≠ none → exec (.pickerReset h b) s = .next (settle (refusedAs s h .pickerReset .busy []))) ∧
    (s.picker.arm = none → exec (.pickerReset h b) s = .next (settle (replied s
      { s with
        picker := { s.picker with routine := .resetPark, parkAsked := false }
        bay := { s.bay with queue := s.bay.queue ++ [⟨1, .park, .plain⟩] } } h .pickerReset .accepted [])))

/-- DRIVE_SERVICE, SLOT_DISABLE, SLOT_ENABLE and PICKER_RESET. -/
def Obligations.DriveSlotAndPickerRequests : Prop :=
  DriveServiceOutByState ∧ DriveServiceInByState ∧ SlotRequestsSetTheMark ∧ PickerResetParksThePicker

/-! ### Modes and power -/

/-- REST and NIGHT: refused or accepted by the mode and the conditions of R184 and R186; the BUSY reply names the first that
does not hold, by its place in the list (log 11). NIGHT asks a RETURN home for each cartridge in a drive in service that is not
FAULTED; that an unrecorded one, which has no home slot, goes out by a REJECT is the model's inference (log 70). -/
def Sys2Proof.RestAndNightByConditions : Prop :=
  ∀ (s : State) (h : Hdr) (b : List Byte),
    (Admitted s .rest h b →
      (s.mode = .night → exec (.rest h b) s = .next (settle (refusedAs s h .rest .night []))) ∧
      (s.mode = .rest → exec (.rest h b) s = .next (settle (replied s s h .rest .done []))) ∧
      (s.mode = .run →
        (restBlocked s ≠ 0 → exec (.rest h b) s = .next (settle (refusedAs s h .rest .busy (be 1 (restBlocked s))))) ∧
        (restBlocked s = 0 →
          exec (.rest h b) s = .next (settle (replied s { s with mode := .rest } h .rest .done []))))) ∧
    (Admitted s .night h b →
      (s.mode = .night → exec (.night h b) s = .next (settle (replied s s h .night .done []))) ∧
      (s.mode ≠ .night →
        (nightBlocked s ≠ 0 → exec (.night h b) s = .next (settle (refusedAs s h .night .busy (be 1 (nightBlocked s))))) ∧
        (nightBlocked s = 0 → exec (.night h b) s =
          .next (settle (replied s (nightRelease { s with mode := .night }) h .night .done []))))) ∧
    (restBlocked s = 0 ↔ s.work = [] ∧ s.filings = [] ∧ (∀ d ∈ s.drives, d.state ≠ .active ∧ d.state ≠ .spinningUp) ∧
      s.picker.queue = [] ∧ s.picker.deferred = [] ∧ (s.picker.state = .idle ∨ s.picker.state = .parked)) ∧
    (nightBlocked s = 0 ↔ restBlocked s = 0 ∧ s.ret.dayOpen = false ∧ ∀ f ∈ s.filings, f.state ≠ .awaitingConsent) ∧
    (let spinning := ∃ d ∈ s.drives, d.state = .active ∨ d.state = .spinningUp
     (s.work ≠ [] → restBlocked s = 1) ∧
     (s.work = [] → s.filings ≠ [] → restBlocked s = 2) ∧
     (s.work = [] → s.filings = [] → spinning → restBlocked s = 3) ∧
     (s.work = [] → s.filings = [] → ¬spinning → s.picker.queue ≠ [] ∨ s.picker.deferred ≠ [] → restBlocked s = 4) ∧
     (s.work = [] → s.filings = [] → ¬spinning → s.picker.queue = [] → s.picker.deferred = [] → s.picker.state ≠ .idle →
       s.picker.state ≠ .parked → restBlocked s = 5)) ∧
    (restBlocked s ≠ 0 → nightBlocked s = restBlocked s) ∧ (restBlocked s = 0 → s.ret.dayOpen = true → nightBlocked s = 6) ∧
    (s.picker.queue = [] → s.picker.deferred = [] → ∃ asked : List Transfer,
      nightRelease s = { s with
        picker := { s.picker with queue := asked }
        nextId := s.nextId + asked.length } ∧
      (asked.map fun x => (x.kind, x.cart, x.src, x.dst)) = [1, 2, 3, 4].filterMap fun d =>
        if (s.drive d).state = .faulted ∨ (s.drive d).state = .outOfService then none
        else match (s.drive d).occ with
          | .empty => none
          | .record c => ((s.cart c).bind Cart.home).map fun h => (.ret, some c, .drive d, some (.slot h))
          | .unrecorded => some (.reject, none, .drive d, none))

/-- WAKE sets RUN from NIGHT and REST, and changes nothing in RUN (R188). -/
def Sys2Proof.WakeReturnsToRun : Prop :=
  ∀ (s : State) (h : Hdr) (b : List Byte), Admitted s .wake h b →
    exec (.wake h b) s = .next (settle (replied s { s with mode := .run } h .wake .done []))

/-- REST, NIGHT and WAKE. -/
def Obligations.ModeRequests : Prop := RestAndNightByConditions ∧ WakeReturnsToRun

/-- RESTART ends all work without a notice, frees staging and the port, clears the marker, and sets RUN; the Retained Store but
for the marker and the day's count of voided sets, which takes each certified set in progress (R157), the clock, the parameters,
the stations and the control order are kept (R189). Its MOUNT and IMPORT_TAKE transfers leave but for one that holds the arm (R34),
and so do the block commands of its bursts (R69). -/
def Obligations.RestartEndsAllWork : Prop :=
  ∀ (s : State) (h : Hdr) (b : List Byte), Admitted s .restart h b → ∃ t : State,
    exec (.restart h b) s = .next (settle
      (replied s t h .restart .done (be 1 3 ++ be 2 8192))) ∧
    t.mode = .run ∧ t.filings = [] ∧ t.fileLine = [] ∧ t.reserved = [] ∧ t.orders = [] ∧ t.fetches = [] ∧ t.claims = [] ∧
    (∀ i ∈ t.work, i.kind = .inspect) ∧ t.port.holder = none ∧ t.port.inHand = none ∧ t.control = s.control ∧
    t.dropped = s.dropped ∧
    t.ret = { s.ret with
      marker := none
      counts := { s.ret.counts with
        voidedSets := s.ret.counts.voidedSets + (s.orders.filter Order.inProgress).length } } ∧
    t.clock = s.clock ∧ t.params = s.params ∧
    t.stations = s.stations ∧ t.mem = s.mem ∧ t.pending = s.pending ∧ t.fileCount = s.fileCount ∧
    t.acceptCount = s.acceptCount ∧ t.labelFailed = s.labelFailed ∧
    (∀ q ∈ t.heldReqs, ∃ m d, q = .inspect m d) ∧
    (∀ x ∈ t.picker.queue ++ t.picker.deferred, x.kind = .mount ∨ x.kind = .importTake →
      s.picker.arm.map Arm.xfer = some x.id) ∧
    (∀ x ∈ s.picker.queue, x.kind ≠ .mount → x.kind ≠ .importTake → x ∈ t.picker.queue) ∧
    (∀ e ∈ t.bay.queue, e ∈ s.bay.queue) ∧ t.bay.bus = s.bay.bus ∧
    (∀ e ∈ s.bay.queue, e.cmd.isBlockOp = false → e.cmd ≠ .load → e.cmd ≠ .spinUp → e ∈ t.bay.queue) ∧
    ∀ d, 1 ≤ d → d ≤ 4 → (s.drive d).task.isBurst = true → ∀ e ∈ t.bay.queue, e.module = d + 1 → e.cmd.isBlockOp = false

/-- POWER_ON begins START over a good store, and REBUILD over a bad one or one whose rebuild was interrupted, with the clearing
step made (R179, R182, R183); everything volatile takes its power-on value, the printer's state FAULT (R159), and staging that
lists nothing (log 3, the model's choice). -/
def Sys2Proof.PowerOnStartsOrRebuilds : Prop :=
  ∀ (s : State) (good : Bool), ∃ t : State, exec (.powerOn good) s = .next t ∧ t.powered = true ∧
    t.pending = s.pending ∧
    (good = true → s.ret.written = true → s.ret.rebuildFlag = false → t.mode = .start ∧ t.ret = s.ret) ∧
    (good = false ∨ s.ret.written = false ∨ s.ret.rebuildFlag = true → t.mode = .rebuild ∧ t.ret = Retained.initial) ∧
    t.clock = none ∧ t.params = Params.default ∧ t.stations = List.replicate 32 .pub ∧ t.control = [] ∧ t.line = none ∧
    t.waiting = none ∧ t.dropped = false ∧ t.work = [] ∧ t.heldReqs = [] ∧ t.claims = [] ∧ t.mem = [] ∧
    t.drives = List.replicate 4 Drive.initial ∧ t.fetches = [] ∧ t.filings = [] ∧ t.orders = [] ∧ t.reserved = [] ∧
    t.fileCount = 0 ∧ t.acceptCount = 0 ∧ t.labelFailed = [] ∧ t.port = ⟨none, 0, none, [], .fault⟩ ∧
    t.bay.queue = [⟨1, .park, .plain⟩] ∧ t.bay.bus = none ∧ t.picker = Picker.initial

/-- POWER_LOSS keeps the Retained Store and loses the rest (R179). That what is lost shows the values of a power-on from POWER_LOSS
on is log 26, the model's inference, and that staging then lists nothing is log 3, the model's choice. -/
def Sys2Proof.PowerLossKeepsTheRetainedStore : Prop :=
  ∀ s : State, s.powered = true → ∃ t : State, exec .powerLoss s = .next t ∧ t.powered = false ∧ t.ret = s.ret ∧
    t.pending = s.pending ∧ t.clock = none ∧ t.params = Params.default ∧ t.stations = List.replicate 32 .pub ∧
    t.rx = [] ∧ t.control = [] ∧ t.line = none ∧ t.lastWasControl = false ∧ t.heldOff = false ∧ t.waiting = none ∧
    t.dropped = false ∧ t.work = [] ∧ t.heldReqs = [] ∧ t.claims = [] ∧ t.mem = [] ∧
    t.drives = List.replicate 4 Drive.initial ∧ t.labelFailed = [] ∧ t.picker = Picker.initial ∧ t.bay.bus = none ∧
    t.bay.passLeft = [] ∧ t.fetches = [] ∧ t.filings = [] ∧ t.fileCount = 0 ∧ t.fileLine = [] ∧ t.reserved = [] ∧
    t.orders = [] ∧ t.acceptCount = 0 ∧ t.port = ⟨none, 0, none, [], .fault⟩ ∧ t.boot = Boot.initial

/-- Power comes and goes (R179, R182, R183; logs 3, 6 and 26). -/
def Obligations.PowerOnAndLoss : Prop := PowerOnStartsOrRebuilds ∧ PowerLossKeepsTheRetainedStore ∧ UnpoweredBoardTakesNothing

/-- A second passes: the clock goes on, holds its last reading, and stays unset where it is unset; the money, the settings and
staged bytes are unchanged (R180). -/
def Sys2Proof.ClockSecondAdvancesTheClock : Prop :=
  ∀ s : State, s.powered = true → ∃ t : State, exec .clockSecond s = .next t ∧ t.elapsed = s.elapsed + 1 ∧
    (s.clock = none → t.clock = none) ∧
    (∀ d n, s.clock = some ⟨d, n⟩ → n + 1 < 86400 → t.clock = some ⟨d, n + 1⟩) ∧
    (∀ d, s.clock = some ⟨d, 86399⟩ → d < 65535 → t.clock = some ⟨d + 1, 0⟩) ∧
    (s.clock = some ⟨65535, 86399⟩ → t.clock = some ⟨65535, 86399⟩) ∧
    t.params = s.params ∧ t.stations = s.stations ∧ t.mem = s.mem ∧ t.ret.accounts = s.ret.accounts ∧
    t.ret.cash = s.ret.cash ∧ t.ret.fees = s.ret.fees ∧ t.ret.dayOpen = s.ret.dayOpen

/-- A consent deadline that the clock has reached voids its rectification with reason TIMEOUT; another changes nothing itself (R133,
R135; log 5; the event is log 12's). -/
def Sys2Proof.ConsentDeadlineVoidsTheFiling : Prop :=
  ∀ (s : State) (ref : Word32), s.powered = true →
    (∀ (now : Clock) (f : Filing) (r : RectInfo) (d : Clock), s.clock = some now → s.findFiling ref = some f →
      f.state = .awaitingConsent → f.rect = some r → r.deadline = some d →
      (d.day < now.day ∨ d.day = now.day ∧ d.second ≤ now.second →
        exec (.consentDeadline ref) s = .next (settle (notify (removeFiling s f.ref) .consentVoid (some (f.tag, f.station))
          (be 4 f.ref.toNat ++ be 1 f.station ++ be 4 r.target ++ be 1 2 ++ be 1 2)))) ∧
      (now.day < d.day ∨ now.day = d.day ∧ now.second < d.second →
        exec (.consentDeadline ref) s = .next (settle s))) ∧
    (s.clock = none ∨ s.findFiling ref = none → exec (.consentDeadline ref) s = .next (settle s))

/-- CLOCK_SECOND and CONSENT_DEADLINE. -/
def Obligations.TimePasses : Prop := ClockSecondAdvancesTheClock ∧ ConsentDeadlineVoidsTheFiling

/-! ### Work requests -/

/-- The item of a request, as R70 and R73 give it. -/
def Sys2Proof.requestItem (s : State) (id : Nat) (h : Hdr) (cls : WorkClass) (kind : ItemKind) (side doc : Nat) (order : Option Nat)
    (st : ItemState) : Item :=
  ⟨id, some h.tag, some h.station.toNat, cls, kind, some side, some doc, none, order, none, 0, s.params.yieldLimit, st,
    none, false, none⟩

/-- FETCH in RUN or REST: the record and the item are made, REST ends, the reply carries side and class (R96, R97, R185). -/
def Sys2Proof.FetchMakesRecordAndItem : Prop :=
  ∀ (s : State) (h : Hdr) (b : List Byte) (n : Nat), Admitted s .fetch h b → s.mode ≠ .night →
    let q := parseFetch b; let cls : WorkClass := if q.urgent = 1 then .urgent else .view
    1 ≤ q.first → q.first ≤ q.last → q.last ≤ 200 → q.urgent ≤ 1 → tagInUse s h.tag h.station.toNat = false →
    rangeLookup s q.doc = some n → cartInState s (sideCart n) .withdrawn = false → unavailableCode s n = 0 →
    s.work.length < 48 → s.heldReqs = [] → s.fetches.length < 48 →
    exec (.fetch h b) s = .next (settle (replied s
      { s with
        mode := .run
        nextId := s.nextId + 2
        work := s.work ++ [requestItem s (s.nextId + 1) h cls .fetch n q.doc none .waiting]
        fetches := s.fetches ++
          [newFetch s.nextId h.tag h.station.toNat (fullRights s h.station.toNat) q n (s.nextId + 1)] }
      h .fetch .accepted (be 2 n ++ be 1 cls.code)))

/-- FETCH's refusals in the order of R96, an urgent byte that R200 does not give among the fields out of range; a work request has
left REST before its checks (the yes or no byte of NOT_FOUND is log 11's). -/
def Sys2Proof.FetchRefusalsInOrder : Prop :=
  ∀ (s : State) (h : Hdr) (b : List Byte), Admitted s .fetch h b → let q := parseFetch b
    let refused := fun (code : RefCode) (fields : List Byte) =>
      exec (.fetch h b) s = .next (settle (replied s { s with mode := .run } h .fetch (.refused code) fields))
    (s.mode = .night → exec (.fetch h b) s = .next (settle (refusedAs s h .fetch .night []))) ∧
    (s.mode ≠ .night →
      (¬(1 ≤ q.first ∧ q.first ≤ q.last ∧ q.last ≤ 200 ∧ q.urgent ≤ 1) ∨ tagInUse s h.tag h.station.toNat = true →
        refused .badField []) ∧
      (1 ≤ q.first → q.first ≤ q.last → q.last ≤ 200 → q.urgent ≤ 1 → tagInUse s h.tag h.station.toNat = false →
        (rangeLookup s q.doc = none → refused .notFound (flag (decide (s.ret.nextDoc ≤ q.doc)))) ∧
        ∀ n, rangeLookup s q.doc = some n →
          (cartInState s (sideCart n) .withdrawn = true →
            refused .offline (be 4 (((s.cart (sideCart n)).map Cart.label).getD 0) ++ be 2 n)) ∧
          (cartInState s (sideCart n) .withdrawn = false →
            (unavailableCode s n ≠ 0 → refused .unavailable (be 2 n ++ be 1 (unavailableCode s n))) ∧
            (unavailableCode s n = 0 → 48 ≤ s.work.length ∨ s.heldReqs ≠ [] ∨ 48 ≤ s.fetches.length →
              refused .listFull []))))

/-- FETCH. -/
def Obligations.FetchRequest : Prop := FetchMakesRecordAndItem ∧ FetchRefusalsInOrder

/-- COPY_ORDER in RUN or REST: the order is made QUEUED with its hold and its item waiting for the port, and the port is
granted where it is free (R147 to R149; the yes or no byte of the reply is log 11's). -/
def Sys2Proof.CopyOrderMakesOrderAndItem : Prop :=
  ∀ (s : State) (h : Hdr) (b : List Byte) (n number : Nat), Admitted s .copyOrder h b → s.mode ≠ .night →
    let q := parseCopy b; let r := { s with mode := .run }
    let cert := q.kind == 2
    let rate := if cert then s.ret.fees.cert else s.ret.fees.plain
    let certFee := if cert then s.ret.fees.certFee else 0
    let sel := (pagesOf q.spans).filter fun p => !(withheldSet s q.doc).contains p
    let fee := q.sets * (sel.length * rate + certFee)
    q.fieldsOk = true → tagInUse s h.tag h.station.toNat = false → s.ret.dayOpen = true →
    rangeLookup s q.doc = some n → cartInState s (sideCart n) .withdrawn = false → unavailableCode s n = 0 →
    (q.payer ≠ 0 → (s.account q.payer).state = .active ∧ (fee : Int) ≤ availableFunds s q.payer) → sel ≠ [] →
    freeOrder s = some number → s.work.length < 48 → s.heldReqs = [] → (q.payer = 0 → h.station.toNat ≠ 0) →
    let t := { r with
      nextId := s.nextId + 1
      work := s.work ++ [requestItem s s.nextId h .copy .copy n q.doc (some number) .waitingPort]
      orders := s.orders ++ [newOrder number s.acceptCount h.tag h.station.toNat q n rate certFee sel
        (if q.payer = 0 then 0 else fee) s.nextId]
      acceptCount := s.acceptCount + 1 }
    let u := (portGrantRule t).getD t
    exec (.copyOrder h b) s = .next (settle (replied s u h .copyOrder .accepted
      (be 1 number ++ be 2 n ++ be 1 sel.length ++ sel.flatMap (be 1 ·) ++ be 4 (if q.payer = 0 then 0 else fee) ++
        flag (u.port.holder == some number) ++ optField 4 (if q.payer = 0 then some fee else none))))

/-- COPY_ORDER's refusals in the order of R147 (the yes or no byte of NOT_FOUND is log 11's). -/
def Sys2Proof.CopyOrderRefusalsInOrder : Prop :=
  ∀ (s : State) (h : Hdr) (b : List Byte), Admitted s .copyOrder h b → let q := parseCopy b
    let cert := q.kind == 2
    let sel := (pagesOf q.spans).filter fun p => !(withheldSet s q.doc).contains p
    let fee := q.sets * (sel.length * (if cert then s.ret.fees.cert else s.ret.fees.plain) +
      (if cert then s.ret.fees.certFee else 0))
    let refused := fun (code : RefCode) (fields : List Byte) =>
      exec (.copyOrder h b) s = .next (settle (replied s { s with mode := .run } h .copyOrder (.refused code) fields))
    (s.mode = .night → exec (.copyOrder h b) s = .next (settle (refusedAs s h .copyOrder .night []))) ∧
    (s.mode ≠ .night →
      (q.fieldsOk = false ∨ tagInUse s h.tag h.station.toNat = true → refused .badField []) ∧
      (q.fieldsOk = true → tagInUse s h.tag h.station.toNat = false →
        (s.ret.dayOpen = false → refused .noDay []) ∧
        (s.ret.dayOpen = true →
          (rangeLookup s q.doc = none → refused .notFound (flag (decide (s.ret.nextDoc ≤ q.doc)))) ∧
          ∀ n, rangeLookup s q.doc = some n →
            (cartInState s (sideCart n) .withdrawn = true →
              refused .offline (be 4 (((s.cart (sideCart n)).map Cart.label).getD 0) ++ be 2 n)) ∧
            (cartInState s (sideCart n) .withdrawn = false →
              (unavailableCode s n ≠ 0 → refused .unavailable (be 2 n ++ be 1 (unavailableCode s n))) ∧
              (unavailableCode s n = 0 →
                (q.payer ≠ 0 → (s.account q.payer).state ≠ .active → refused .accountState []) ∧
                ((q.payer = 0 ∨ (s.account q.payer).state = .active) →
                  (sel = [] → refused .nothingToCopy []) ∧
                  (sel ≠ [] → q.payer ≠ 0 → availableFunds s q.payer < fee →
                    refused .funds (be 4 fee ++ balanceBytes (availableFunds s q.payer))) ∧
                  (sel ≠ [] → (q.payer = 0 ∨ (fee : Int) ≤ availableFunds s q.payer) →
                    (freeOrder s = none → refused .tableFull []) ∧
                    (freeOrder s ≠ none →
                      (48 ≤ s.work.length ∨ s.heldReqs ≠ [] → refused .listFull []) ∧
                      (s.work.length < 48 → s.heldReqs = [] → q.payer = 0 → h.station.toNat = 0 →
                        refused .notPermitted [])))))))))

/-- COPY_ORDER. -/
def Obligations.CopyOrderRequest : Prop := CopyOrderMakesOrderAndItem ∧ CopyOrderRefusalsInOrder

/-- CANCEL: its checks, and what it does to a fetch and to an order with and without a page in hand (R107, R161; the yes or no
byte of an order's reply is log 11's). -/
def Sys2Proof.CancelEndsFetchOrOrder : Prop :=
  ∀ (s : State) (h : Hdr) (b : List Byte), Admitted s .cancel h b → let q := parseCancel b
    let right := h.station.toNat == q.station || isSupervisor s h.station.toNat
    let f? := s.fetches.find? fun f => f.tag == q.tag && f.station == q.station
    let o? := s.orders.find? fun o => o.tag == q.tag && o.station == q.station
    (right = false → exec (.cancel h b) s = .next (settle (refusedAs s h .cancel .notPermitted []))) ∧
    (right = true →
      (∀ f, f? = some f → exec (.cancel h b) s = .next (settle (replied s (cancelFetch s f) h .cancel .done
        (be 1 f.delivered ++ be 1 f.withheld ++ be 1 f.unreadable)))) ∧
      (f? = none → o? = none → exec (.cancel h b) s = .next (settle (refusedAs s h .cancel .notFound []))) ∧
      (∀ o, f? = none → o? = some o →
        (o.closing ≠ none → exec (.cancel h b) s =
          .next (settle (replied s s h .cancel .accepted (flag true ++ orderCounts o)))) ∧
        (o.closing = none → inHandOf s o.number ≠ none →
          let t := closeOrder s o.number .cancelled .cancelledSilent
          exec (.cancel h b) s = .next (settle (replied s t h .cancel .accepted
            (flag true ++ orderCounts ((t.findOrder o.number).getD o))))) ∧
        (o.closing = none → inHandOf s o.number = none →
          exec (.cancel h b) s = .next (settle (replied s (endOrder s o.number .cancelledSilent) h .cancel .done
            (flag false ++ orderCounts (((voidSet s o.number).findOrder o.number).getD o)))))))

/-- A cancelled fetch leaves the table with no notice. -/
def Sys2Proof.CancelledFetchLeavesSilently : Prop :=
  ∀ (s : State) (f : Fetch), (∀ g ∈ (cancelFetch s f).fetches, g.seq ≠ f.seq) ∧ (cancelFetch s f).control = s.control ∧
    (cancelFetch s f).ret = s.ret ∧ (cancelFetch s f).mem = s.mem ∧ (cancelFetch s f).orders.length = s.orders.length

/-- CANCEL. -/
def Obligations.CancelRequest : Prop := CancelEndsFetchOrOrder ∧ CancelledFetchLeavesSilently

/-- FILE_BEGIN in RUN or REST: an ORIGINAL takes its staging claim and its place in the table; the reply carries reference and
block count (R110, R111). A RECTIFICATION first voids the same station's earlier ones and takes a RESERVED entry (R131,
R137). -/
def Sys2Proof.FileBeginEntersTheFiling : Prop :=
  ∀ (s : State) (h : Hdr) (b : List Byte), Admitted s .fileBegin h b → s.mode ≠ .night → s.clock ≠ none →
    fullRights s h.station.toNat = true → let q := parseFileBegin b; q.fieldsOk = true →
    let r := { s with mode := .run }
    (q.kind = 1 → s.findFiling q.ref = none → tableRoom s false = true → filingClaimFits s q.count = true →
      exec (.fileBegin h b) s = .next (settle (replied s
        { r with
          nextId := s.nextId + 1
          claims := s.claims ++ [⟨s.nextId, .filing q.ref, q.count, some ((freeBlocks s).take q.count),
            (freeBlocks s).take q.count, [], 0, true⟩]
          filings := s.filings ++ [newFiling h.tag h.station.toNat q] }
        h .fileBegin .accepted (be 4 q.ref.toNat ++ be 2 q.count)))) ∧
    (q.kind = 2 → (rangeLookup s q.target).isSome = true → let v := supersede r h.station.toNat
      v.findFiling q.ref = none → tableRoom v true = true → filingClaimFits v q.count = true →
      exec (.fileBegin h b) s = .next (settle (replied v (enterFiling v h.tag h.station.toNat q) h .fileBegin .accepted
        (be 4 q.ref.toNat ++ be 2 q.count))))

/-- FILE_BEGIN's refusals in the order of R110; a RECTIFICATION's are tested as the table would stand after the voidings of R137. -/
def Sys2Proof.FileBeginRefusalsInOrder : Prop :=
  ∀ (s : State) (h : Hdr) (b : List Byte), Admitted s .fileBegin h b → let q := parseFileBegin b
    let r := { s with mode := .run }
    let v := if q.kind = 2 then supersede r h.station.toNat else r
    let refused := fun (code : RefCode) =>
      exec (.fileBegin h b) s = .next (settle (replied s r h .fileBegin (.refused code) []))
    (s.mode = .night → exec (.fileBegin h b) s = .next (settle (refusedAs s h .fileBegin .night []))) ∧
    (s.mode ≠ .night →
      (s.clock = none → refused .clockUnset) ∧
      (s.clock ≠ none →
        (fullRights s h.station.toNat = false → refused .notPermitted) ∧
        (fullRights s h.station.toNat = true →
          (q.fieldsOk = false ∨ v.findFiling q.ref ≠ none → refused .badField) ∧
          (q.fieldsOk = true → v.findFiling q.ref = none →
            (q.kind = 2 → rangeLookup s q.target = none → refused .notFound) ∧
            (q.kind = 1 ∨ rangeLookup s q.target ≠ none →
              (tableRoom v (q.kind == 2) = false → refused .tableFull) ∧
              (tableRoom v (q.kind == 2) = true → filingClaimFits v q.count = false → refused .stagingFull))))))

/-- FILE_BEGIN. -/
def Obligations.FileBeginRequest : Prop := FileBeginEntersTheFiling ∧ FileBeginRefusalsInOrder

/-- FILE_DATA and FILE_END share their first checks; FILE_DATA takes the next block into the claim's staging block of that
offset, FILE_END queues an ORIGINAL and has a RECTIFICATION await consent (R112, R113, R133; the replies' fields as log 11 lays them
out). -/
def Sys2Proof.FileDataAndEnd : Prop :=
  ∀ (s : State) (h : Hdr) (b : List Byte),
    (Admitted s .fileData h b → let q := parseFileData b; let f? := s.findFiling q.ref
      let refused := fun (code : RefCode) (fields : List Byte) =>
        exec (.fileData h b) s = .next (pumpLine (refusedAs s h .fileData code fields))
      (s.mode = .night → refused .night []) ∧
      (s.mode ≠ .night → (f? = none → refused .notFound []) ∧
        ∀ f, f? = some f →
          (h.station.toNat ≠ f.station → refused .notPermitted []) ∧
          (h.station.toNat = f.station → (f.state ≠ .receiving → refused .busy []) ∧
            (f.state = .receiving → (f.count ≤ q.seq → refused .badField []) ∧
              (q.seq < f.count → (q.seq ≠ f.received → refused .sequence (be 2 f.received)) ∧
                (q.seq = f.received → ∀ blk, (filingBlocks s q.ref)[q.seq]? = some blk →
                  exec (.fileData h b) s = .next (pumpLine (replied s ((writeBlock s blk q.data).modFiling q.ref
                    fun x => { x with received := x.received + 1 }) h .fileData .done (be 2 (f.received + 1)))))))))) ∧
    (Admitted s .fileEnd h b → let ref := refAt b 0; let f? := s.findFiling ref
      let refused := fun (code : RefCode) (fields : List Byte) =>
        exec (.fileEnd h b) s = .next (settle (refusedAs s h .fileEnd code fields))
      (s.mode = .night → refused .night []) ∧
      (s.mode ≠ .night → (f? = none → refused .notFound []) ∧
        ∀ f, f? = some f →
          (h.station.toNat ≠ f.station → refused .notPermitted []) ∧
          (h.station.toNat = f.station → (f.state ≠ .receiving → refused .busy []) ∧
            (f.state = .receiving → (f.received < f.count → refused .incomplete (be 2 f.received)) ∧
              (f.count ≤ f.received →
                (f.rect = none → exec (.fileEnd h b) s =
                  .next (settle (replied s (queueFiling s ref) h .fileEnd .accepted (be 1 3)))) ∧
                (f.rect ≠ none → exec (.fileEnd h b) s = .next (settle (replied s
                  (s.modFiling ref fun x => { x with
                    state := .awaitingConsent
                    rect := x.rect.map fun r =>
                      { r with deadline := s.clock.map fun c => c.plus s.params.consentWindow } })
                  h .fileEnd .accepted (be 1 2)))))))))

/-- A filing that goes QUEUED takes the next FILE order at the end of the line, and its item joins the tail of class FILE, or
a held request is made while the list is full (R71, R113, R114). -/
def Sys2Proof.QueuedFilingTakesFileOrder : Prop :=
  ∀ (s : State) (ref : Word32) (f : Filing), s.findFiling ref = some f →
    let t := queueFiling s ref
    t.fileCount = s.fileCount + 1 ∧ t.fileLine = s.fileLine ++ [ref] ∧
    (∀ g, t.findFiling ref = some g → g.state = .queued ∧ g.fileOrder = some s.fileCount) ∧
    (s.work.length < 48 → s.heldReqs = [] → t.heldReqs = [] ∧
      t.work = s.work ++ [⟨s.nextId, some f.tag, some f.station, .file, .file, none, none, some ref, none, none, 0,
        s.params.yieldLimit, .waiting, none, false, none⟩]) ∧
    (48 ≤ s.work.length ∨ s.heldReqs ≠ [] → t.heldReqs = s.heldReqs ++ [.file ref] ∧ t.work = s.work) ∧
    t.control = s.control ∧ t.ret = s.ret ∧ t.claims = s.claims

/-- FILE_DATA and FILE_END, and the filing that goes QUEUED. -/
def Obligations.FilingData : Prop := FileDataAndEnd ∧ QueuedFilingTakesFileOrder

/-- CONSENT's checks in the order of R134; a wrong code voids the filing, the right one queues it (the replies' fields as log 11
lays them out). -/
def Obligations.ConsentQueuesTheFiling : Prop :=
  ∀ (s : State) (h : Hdr) (b : List Byte), Admitted s .consent h b → let q := parseConsent b; let st := h.station.toNat
    let refused := fun (code : RefCode) (fields : List Byte) =>
      exec (.consent h b) s = .next (settle (refusedAs s h .consent code fields))
    (s.mode = .night → refused .night []) ∧
    (s.mode ≠ .night → (s.findFiling q.ref = none → refused .notFound []) ∧
      ∀ f, s.findFiling q.ref = some f →
        (f.rect = none → refused .badField []) ∧
        ∀ r, f.rect = some r →
          (isSupervisor s st = false ∨ st = f.station → refused .notPermitted []) ∧
          (isSupervisor s st = true → st ≠ f.station →
            (f.state ≠ .awaitingConsent → refused .busy (be 1 f.state.code)) ∧
            (f.state = .awaitingConsent → q.code ≠ r.code → exec (.consent h b) s =
              .next (settle (replied s (voidFiling s f .code) h .consent (.refused .badCode) (flag true)))) ∧
            (f.state = .awaitingConsent → q.code = r.code → exec (.consent h b) s =
              .next (settle (replied s (queueFiling s q.ref) h .consent .accepted (be 4 q.ref.toNat ++ be 1 3))))))

/-- FILE_CANCEL's checks, and its effect with and without a write burst running (R126; the byte that says which is log 11's). -/
def Sys2Proof.FileCancelRemovesOrPends : Prop :=
  ∀ (s : State) (h : Hdr) (b : List Byte), Admitted s .fileCancel h b → let ref := refAt b 0; let st := h.station.toNat
    let refused := fun (code : RefCode) => exec (.fileCancel h b) s = .next (settle (refusedAs s h .fileCancel code []))
    (s.findFiling ref = none → refused .notFound) ∧
    ∀ f, s.findFiling ref = some f →
      (st ≠ f.station → isSupervisor s st = false → refused .notPermitted) ∧
      (st = f.station ∨ isSupervisor s st = true →
        (f.state = .committing → refused .busy) ∧
        (f.state ≠ .committing → f.cancelPending = false → writingNow s f = false → exec (.fileCancel h b) s =
          .next (settle (replied s (removeFiling s ref) h .fileCancel .done (be 1 1 ++ be 2 f.claimed)))) ∧
        (f.state ≠ .committing → f.cancelPending = true ∨ writingNow s f = true → exec (.fileCancel h b) s =
          .next (settle (replied s (s.modFiling ref fun x => { x with cancelPending := true }) h .fileCancel .accepted
            (be 1 2 ++ be 2 f.claimed)))))

/-- A filing that leaves takes with it its staging claim, its RESERVED entry, its FILE order, its held request and its marker;
no notice and no other filing is touched (R126, R128, R135). -/
def Sys2Proof.RemovedFilingLeavesNothing : Prop :=
  ∀ (s : State) (ref : Word32), let t := removeFiling s ref
    t.filings = (s.filings.filter fun f => f.ref != ref) ∧ (∀ c ∈ t.claims, c.owner ≠ .filing ref) ∧
    (∀ e ∈ t.reserved, e.2 ≠ ref) ∧ ref ∉ t.fileLine ∧ HeldReq.file ref ∉ t.heldReqs ∧
    (∀ m, t.ret.marker = some m → m.ref ≠ ref) ∧ t.control = s.control ∧ t.mem = s.mem ∧
    t.ret = { s.ret with marker := t.ret.marker }

/-- FILE_CANCEL, and what a filing that leaves takes with it. -/
def Obligations.FileCancelRequest : Prop := FileCancelRemovesOrPends ∧ RemovedFilingLeavesNothing

/-! ### The Bay Link -/

/-- The oldest queued command goes on the free bus when no attention read is owed, or after a failed pass (R67, R68), or while the
inventory's own reads serve the line (R69, log 57); else nothing changes. An attention pass begins at the lowest address, and goes
on with its next module; with the bus busy nothing changes (log 13). -/
def Sys2Proof.BaySendAndPasses : Prop :=
  (∀ s : State, s.powered = true →
    (∀ (attention : Bool) (e : BayEntry) (rest : List BayEntry), s.bay.bus = none → s.bay.queue = e :: rest →
      (attention = false ∨ s.bay.passFailed = true ∨ inventoryOn s = true → exec (.baySend attention) s =
        .next { s with bay := { s.bay with bus := some (e, 0), queue := rest, passFailed := false } }) ∧
      (attention = true → s.bay.passFailed = false → inventoryOn s = false → exec (.baySend attention) s = .next s)) ∧
    (∀ attention : Bool, s.bay.bus ≠ none ∨ s.bay.queue = [] → exec (.baySend attention) s = .next s) ∧
    (s.bay.bus = none → s.bay.queue = [] ∨ (s.bay.passFailed = false ∧ inventoryOn s = false) → exec .attentionPass s =
      .next { s with bay := { s.bay with
        bus := some (⟨1, .status, .pass⟩, 0), passLeft := if inventoryOn s then [] else [2, 3, 4, 5, 6, 7]
        passFailed := false } }) ∧
    (s.bay.bus ≠ none ∨ (s.bay.queue ≠ [] ∧ (s.bay.passFailed = true ∨ inventoryOn s = true)) →
      exec .attentionPass s = .next s)) ∧
  ∀ s : State,
    (∀ m ms, s.bay.passLeft = m :: ms →
      passNext s = { s with bay := { s.bay with bus := some (⟨m, .status, .pass⟩, 0), passLeft := ms } }) ∧
    (s.bay.passLeft = [] → passNext s = s)

/-- A failed try, by a byte not acknowledged or a hold beyond 50 ms, is followed by another; the third fails the command and
faults the module, and a pass goes on behind it (R65, R66, R68). -/
def Sys2Proof.ThreeTriesThenTheModuleFaults : Prop :=
  ∀ (c : Instr) (s : State), c = .bayByteNak ∨ c = .bayHoldTimeout → s.powered = true →
    (s.bay.bus = none → exec c s = .next (settle s)) ∧
    ∀ (e : BayEntry) (n : Nat), s.bay.bus = some (e, n) →
      let u := freeBus s
      let p := { u with bay := { u.bay with passFailed := true } }
      (n < 2 → exec c s = .next (settle { s with bay := { s.bay with bus := some (e, n + 1) } })) ∧
      (2 ≤ n → e.why = .plain →
        (∀ d, 1 ≤ d → d ≤ 4 → e.module = d + 1 → (∀ w, (s.drive d).task ≠ .eject w) →
          exec c s = .next (settle (driveFault u d .bus))) ∧
        (∀ m, m = 1 ∨ m = 2 → e.module = m + 5 → (s.mail m).faulty = false →
          exec c s = .next (settle (doorFault (dropQueued u (m + 5)) m))) ∧
        (e.module = 1 → s.picker.routine = .none → exec c s = .next (settle (pickerFault u .bus)))) ∧
      (2 ≤ n → e.why = .pass →
        (∀ d, 1 ≤ d → d ≤ 4 → e.module = d + 1 → e.cmd = .status →
          exec c s = .next (settle (passNext (driveFault p d .bus)))) ∧
        (∀ m, m = 1 ∨ m = 2 → e.module = m + 5 → (s.mail m).faulty = false →
          exec c s = .next (settle (passNext (doorFault (dropQueued p (m + 5)) m)))) ∧
        (e.module = 1 → s.picker.routine = .none → exec c s = .next (settle (passNext (pickerFault p .bus)))))

/-- Sending, passes and tries. -/
def Obligations.BayLinkSendsAndPolls : Prop := BaySendAndPasses ∧ ThreeTriesThenTheModuleFaults

/-- A module takes a command: the drive's operation runs, and SPIN_UP starts its limit; TRANSFER starts the transfer's limit
and the picker is FETCHING; PARK and SCAN only free the bus; LOCK and UNLOCK set the door's flag (R31, R35, R36, R52, R65). -/
def Obligations.CommandTakenByItsModule : Prop :=
  ∀ (s : State) (e : BayEntry) (n : Nat), s.powered = true → s.bay.bus = some (e, n) → e.cmd ≠ .status →
    let u := freeBus s
    (∀ d, 1 ≤ d → d ≤ 4 → e.module = d + 1 → exec .bayCommandTaken s = .next (settle (u.modDrive d fun x => { x with
      op := e.cmd.opKind, opStart := e.cmd.start, opCount := e.cmd.count
      spinLimit := if e.cmd = .spinUp then true else x.spinLimit }))) ∧
    (∀ src dst flip a, e.module = 1 → e.cmd = .transfer src dst flip → s.picker.arm = some a →
      exec .bayCommandTaken s = .next (settle { u with
        picker := { s.picker with arm := some { a with taken := true }, state := .fetching, parkAsked := false } })) ∧
    (e.module = 1 → e.cmd = .park ∨ (∃ a b, e.cmd = .scan a b) → exec .bayCommandTaken s = .next (settle u)) ∧
    ∀ m, m = 1 ∨ m = 2 → e.module = m + 5 →
      (e.cmd = .lock → exec .bayCommandTaken s = .next (settle (modMail u m fun x => { x with locked := true }))) ∧
      (e.cmd = .unlock → exec .bayCommandTaken s = .next (settle (modMail u m fun x => { x with locked := false })))

/-- A STATUS of module `a` for purpose `w` is on the bus of a powered board. -/
def Sys2Proof.StatusAsked (s : State) (a : Nat) (w : Why) : Prop :=
  s.powered = true ∧ ∃ n, s.bay.bus = some (⟨a, .status, w⟩, n)

/-- A command is queued for a module. -/
def Sys2Proof.asked (s : State) (a : Nat) (cmd : BayCmd) (w : Why) : State :=
  { s with bay := { s.bay with queue := s.bay.queue ++ [⟨a, cmd, w⟩] } }

/-! ### The picker and the doors -/

/-- The picker's status in a pass: with a transfer under way its phase sets the state, and the completion makes the transfer's
changes; the end of an asked PARK parks an IDLE picker; a module fault faults a picker that is not FAULTED, and a FAULTED one
takes nothing (R32, R35, R36; log 34). -/
def Sys2Proof.PickerStatusByPhase : Prop :=
  ∀ (s : State) (st : PickerStatus), StatusAsked s 1 .pass → s.picker.routine = .none →
    let goes := fun t => exec (.pickerStatusTaken st) s = .next (settle (passNext t))
    let u := freeBus s
    let set := fun (x : PickerState) => { u with picker := { s.picker with state := x } }
    (st.moduleFault = true → s.picker.state ≠ .faulted → goes (pickerFault u .hardware)) ∧
    (s.picker.state = .faulted → goes u) ∧
    (st.moduleFault = false → s.picker.state ≠ .faulted →
      (∀ a, s.picker.arm = some a → a.taken = true →
        (st.phase = .taking → goes (set .fetching)) ∧ (st.phase = .carrying → goes (set .carrying)) ∧
        (st.phase = .flipping → goes (set .flipping)) ∧ (st.phase = .placing → goes (set .placing)) ∧
        (st.phase = .parked ∨ st.phase = .idle → goes u) ∧
        (∀ t, st.phase = .done → armXfer s = some t → goes (completeXfer
          { u with picker := { s.picker with arm := none, state := .idle } } t (xferSource s t) (armDest a t)))) ∧
      ((∀ a ∈ s.picker.arm, a.taken = false) →
        (s.picker.parkAsked = true → st.phase = .parked → s.picker.state = .idle →
          (∀ e ∈ s.bay.queue, e.module ≠ 1 ∨ e.cmd ≠ .park) →
          goes { u with picker := { s.picker with parkAsked := false, state := .parked } }) ∧
        (s.picker.parkAsked = false ∨ st.phase ≠ .parked → goes u)))

/-- The picker's status in a pass while the inventory or a PICKER_RESET is made: PARK's end sends the first SCAN, a SCAN's result
the next or what follows the last: the drives' status reads, or the end of the reset (R39, R47; the places' numbers are log 8's, the
model's choice). -/
def Sys2Proof.PickerStatusInRoutines : Prop :=
  ∀ (s : State) (st : PickerStatus), StatusAsked s 1 .pass → st.moduleFault = false →
    (∀ e ∈ s.bay.queue, e.module ≠ 1) →
    let goes := fun t => exec (.pickerStatusTaken st) s = .next (settle (passNext t))
    let u := freeBus s
    let routine := fun (t : State) (r : Routine) => { t with picker := { t.picker with routine := r } }
    let up := fun (t : State) => { t with picker := { t.picker with gripFaceB := st.holding && st.faceBUp } }
    let seen := fun (t : State) l => { t with boot := { t.boot with seen := t.boot.seen ++ l } }
    (s.picker.routine = .invPark →
      (st.phase = .parked → goes (asked (routine u (.invScan [(1, 120), (125, 127)])) 1 (.scan 1 120) .plain)) ∧
      (st.phase ≠ .parked → goes u)) ∧
    (∀ a left, s.picker.routine = .invScan (a :: left) →
      (∀ l, st.scan = some l →
        (∀ x y rest, left = (x, y) :: rest →
          goes (asked (routine (up (seen u l)) (.invScan left)) 1 (.scan x y) .plain)) ∧
        (left = [] → goes (asked (asked (asked (asked (routine (up (seen u l)) (.invDrives [1, 2, 3, 4]))
          2 .status .inventory) 3 .status .inventory) 4 .status .inventory) 5 .status .inventory))) ∧
      (st.scan = none → goes u)) ∧
    (s.picker.routine = .resetPark → st.phase = .parked →
      (s.picker.broken = none → goes (asked (routine u (.resetScan [(125, 125)] [])) 1 (.scan 125 125) .plain)) ∧
      ∀ b, s.picker.broken = some b → let source := b.xfer.src.number
        let dest := (b.xfer.dst.getD (.mail (b.mail.getD 0))).number
        goes (asked (routine u (.resetScan [(125, 125), (source, source), (dest, dest)] [])) 1 (.scan 125 125) .plain)) ∧
    ∀ a left got, s.picker.routine = .resetScan (a :: left) got →
      (∀ l, st.scan = some l →
        (∀ x y rest, left = (x, y) :: rest →
          goes (asked (routine (up u) (.resetScan left (got ++ l))) 1 (.scan x y) .plain)) ∧
        (left = [] → goes (resetDone (up u) (got ++ l)))) ∧
      (st.scan = none → goes u)

/-- The STATUS of a picker fault: a cartridge that TRANSFER moved and the picker holds is in the gripper, and its transfer is
dropped; else its place stays its source and its transfer stays queued. What is in the gripper is the source's occupant, but
where DRIVE_SERVICE IN has found the source drive empty under the arm (log 50, as in TransferCompletes). PICKER_FAULT carries
the reason, the kind of the transfer, the label and the place (R37, R38; log 27; the places' numbers are log 8's, the model's
choice). -/
def Sys2Proof.PickerFaultPlacesTheCartridge : Prop :=
  ∀ (s : State) (st : PickerStatus) (b : Broken), StatusAsked s 1 .broken → s.picker.broken = some b → b.held = none →
    let t := brokenAnswered (freeBus s) (some st)
    let src := xferSource s b.xfer
    exec (.pickerStatusTaken st) s = .next (settle t) ∧
    (b.moved = true → st.holding = true →
      t.picker.gripper = carried s b.xfer src ∧ (placeOcc s src ≠ .empty → t.picker.gripper = placeOcc s src) ∧
      t.picker.gripFaceB = st.faceBUp ∧ (∀ x ∈ t.picker.queue, x.id ≠ b.xfer.id) ∧
      (∀ n, src = .slot n → (t.slot n).occ = .empty)) ∧
    (b.moved = false ∨ st.holding = false → b.xfer.kind ≠ .importTake →
      t.picker.gripper = s.picker.gripper ∧ t.picker.queue = s.picker.queue ∧ t.ret = s.ret ∧
        t.drives.map Drive.occ = s.drives.map Drive.occ) ∧
    (s.mode ≠ .rebuild → noticeCount s < 31 →
      let reported := fun (place : List Byte) => (.notice ⟨.pickerFault, none,
        optNum 1 (s.picker.fault.map PickerFaultReason.code) ++ be 1 b.xfer.kind.code ++
          optNum 4 ((b.xfer.cart.bind s.cart).map Cart.label) ++ place⟩ : ControlFrame) ∈ t.control
      (b.moved = true → st.holding = true → reported (be 1 125 ++ be 1 0)) ∧
      (b.moved = false ∨ st.holding = false →
        (∀ n, src = .slot n → reported (be 1 n ++ be 1 0)) ∧
        (∀ d, src = .drive d → reported (be 1 (120 + d) ++ optNum 1 ((s.drive d).face.map faceCode))) ∧
        (src = .gripper → reported (be 1 125 ++ be 1 0)) ∧
        (∀ m, src = .mail m → reported (be 1 (125 + m) ++ be 1 0))))

/-- The picker's status. -/
def Obligations.PickerStatusSetsThePhase : Prop :=
  PickerStatusByPhase ∧ PickerStatusInRoutines ∧ PickerFaultPlacesTheCartridge

/-- What a transfer carries is its source's occupant (R26). Only where DRIVE_SERVICE IN has found the source drive empty under the
arm (log 50) is the source empty: then it is the transfer's own cartridge, a record only while it is IN_LIBRARY at no place. -/
def Sys2Proof.CarriedIsTheOccupant : Prop :=
  ∀ (s : State) (t : Transfer) (src : Place),
    (placeOcc s src ≠ .empty → carried s t src = placeOcc s src) ∧
    (placeOcc s src = .empty → t.cart = none → carried s t src = .unrecorded) ∧
    ∀ c, placeOcc s src = .empty → t.cart = some c →
      (placeOf s c = none → cartInState s c .inLibrary = true → carried s t src = .record c) ∧
      (placeOf s c ≠ none ∨ cartInState s c .inLibrary = false → carried s t src = .empty)

/-- A transfer that completes: the source's occupant becomes none, the destination's what was carried, and the transfer leaves the
queue, with every other that was to take the cartridge from there but its EXPORT_PUT. A MOUNT or IMPORT_TAKE has its drive load and
spin the disc; out of a STOPPED drive the drive becomes EMPTY; an EXPORT_PUT makes its record WITHDRAWN with no home slot and no
transfer left, and reports EXPORTED with the tag and station of its EXPORT; a REJECT leaves its mail slot LOADED_OUT (R35, R44, R52,
R57). -/
def Sys2Proof.TransferMovesTheCartridge : Prop :=
  ∀ (s : State) (t : Transfer), TablesSized s →
    (∀ src dst, let u := completeXfer s t src dst
      ∀ x ∈ u.picker.queue ++ u.picker.deferred, x.id ≠ t.id ∧ (x.src = src → x.kind = .exportPut)) ∧
    (∀ n d, 1 ≤ n → n ≤ 120 → 1 ≤ d → d ≤ 4 → t.kind = .mount → (s.drive d).state = .empty →
      let u := completeXfer s t (.slot n) (.drive d)
      (u.slot n) = ⟨.empty, (s.slot n).disabled⟩ ∧ (u.drive d).occ = carried s t (.slot n) ∧
        (u.drive d).face = some t.face ∧
        (u.drive d).state = .spinningUp ∧ (u.drive d).task = .spinUp ∧
        u.bay.queue = s.bay.queue ++ [⟨d + 1, .load, .plain⟩, ⟨d + 1, .spinUp, .plain⟩]) ∧
    (∀ m d, m = 1 ∨ m = 2 → 1 ≤ d → d ≤ 4 → t.kind = .importTake → (s.drive d).state = .empty →
      let u := completeXfer s t (.mail m) (.drive d)
      (u.mail m).state = .empty ∧ (u.mail m).occ = .empty ∧ (u.drive d).occ = carried s t (.mail m) ∧
        (u.drive d).fromMail = some m ∧ (u.drive d).state = .spinningUp) ∧
    (∀ n d, 1 ≤ n → n ≤ 120 → 1 ≤ d → d ≤ 4 → t.kind = .dismount ∨ t.kind = .ret → (s.drive d).state = .stopped →
      (s.drive d).service = .inService → let u := completeXfer s t (.drive d) (.slot n)
      u.slot n = ⟨carried s t (.drive d), (s.slot n).disabled⟩ ∧ (u.drive d).occ = .empty ∧ (u.drive d).face = none ∧
        (u.drive d).dir = [] ∧ (u.drive d).ejected = false ∧ (u.drive d).state = .empty) ∧
    (∀ n m c k, 1 ≤ n → n ≤ 120 → m = 1 ∨ m = 2 → 1 ≤ c → c ≤ 160 → t.kind = .exportPut →
      (s.slot n).occ = .record c → s.cart c = some k → let u := completeXfer s t (.slot n) (.mail m)
      u.cart c = some { k with state := .withdrawn, home := none } ∧ (u.slot n).occ = .empty ∧
        (u.mail m).state = .loadedOut ∧ (u.mail m).occ = .unrecorded ∧ (∀ e ∈ u.picker.exportPending, e.cart ≠ c) ∧
        (∀ x ∈ u.picker.queue ++ u.picker.deferred, x.cart ≠ some c) ∧
        (∀ i ∈ u.labelFailed, sideCart i ≠ c) ∧
        (noticeCount s < 31 → (.notice ⟨.exported, (s.picker.exportPending.find? fun x => x.cart == c).map fun x =>
          (x.tag, x.station), be 4 k.label ++ optNum 1 k.home ++ be 1 m⟩ : ControlFrame) ∈ u.control)) ∧
    ∀ n m, 1 ≤ n → n ≤ 120 → m = 1 ∨ m = 2 → t.kind = .reject → let u := completeXfer s t (.slot n) (.mail m)
      (u.slot n).occ = .empty ∧ (u.mail m).state = .loadedOut ∧ (u.mail m).occ = .unrecorded

/-- Transfers that complete. -/
def Obligations.TransferCompletes : Prop := CarriedIsTheOccupant ∧ TransferMovesTheCartridge

/-- A change of a mail slot's state or flags is reported by DOOR (R30). -/
def Sys2Proof.DoorChangesAreReported : Prop :=
  ∀ (s : State) (m : Nat) (f : Mail → Mail), let x := s.mail m; let y := f x
    (x.state = y.state ∧ x.locked = y.locked ∧ x.faulty = y.faulty → modMail s m f = s.setMail m y) ∧
    (x.state ≠ y.state ∨ x.locked ≠ y.locked ∨ x.faulty ≠ y.faulty → modMail s m f =
      notify (s.setMail m y) .door none (be 1 m ++ be 1 y.state.code ++ flag y.locked ++ flag y.faulty))

/-- A door's status in a pass: an EMPTY or LOADED_OUT slot read open is DOOR_OPEN, its LOCK and UNLOCK not yet sent dropped (log
35), and faulty where it was locked; a LOADED_IN slot read open, or empty with no IMPORT_TAKE of it granted, has a faulty door; a
DOOR_OPEN slot read closed is EMPTY or LOADED_IN; a faulty door changes nothing (R30, R31). -/
def Sys2Proof.DoorStatusByState : Prop :=
  ∀ (s : State) (m : Nat) (st : DoorStatus), m = 1 ∨ m = 2 → StatusAsked s (m + 5) .pass →
    let x := s.mail m
    let u := freeBus s
    let goes := fun t => exec (.doorStatusTaken m st) s = .next (settle (passNext t))
    let opened := modMail { u with bay := { u.bay with
        queue := u.bay.queue.filter fun e => !(e.module == m + 5 && (e.cmd == .lock || e.cmd == .unlock)) } } m fun y =>
      { y with state := .doorOpen, lockAsked := y.locked }
    (x.faulty = true → goes u) ∧
    (x.faulty = false →
      (x.state = .empty ∨ x.state = .loadedOut →
        (st.isOpen = true → x.locked = false → armUses s m = false → goes opened) ∧
        (st.isOpen = true → x.locked = false → armUses s m = true → armSent s = false →
          goes { opened with picker := { opened.picker with arm := none } }) ∧
        (st.isOpen = true → x.locked = true → goes (doorFault opened m)) ∧
        (st.isOpen = false → goes u)) ∧
      (x.state = .doorOpen → st.isOpen = false →
        (st.loaded = true → goes (enterLoadedIn u m)) ∧
        (st.loaded = false → goes (modMail u m fun y => { y with state := .empty, occ := .empty }))) ∧
      (x.state = .loadedIn →
        (st.isOpen = true → goes (doorFault u m)) ∧
        (st.isOpen = false → st.loaded = false → takeGranted s m = false → goes (doorFault u m)) ∧
        (st.isOpen = false → st.loaded = false → takeGranted s m = true → goes u) ∧
        (st.isOpen = false → st.loaded = true → goes u)))

/-- A slot that becomes LOADED_IN ends REST, holds an unrecorded cartridge and has its INSPECT asked for; a door that becomes
faulty ends the import of a LOADED_IN slot whose IMPORT_TAKE is not granted, with IMPORT_REJECTED, reason DOOR (R30, R31, R40). -/
def Sys2Proof.MailSlotsLoadedAndFaulty : Prop :=
  ∀ (s : State) (m : Nat), m = 1 ∨ m = 2 → s.picker.mails.length = 2 →
    (let t := enterLoadedIn s m
     (t.mail m).state = .loadedIn ∧ (t.mail m).occ = .unrecorded ∧ t.picker.inspectWanted = s.picker.inspectWanted ++ [m] ∧
       (s.mode = .rest → t.mode = .run)) ∧
    ((s.mail m).faulty = false → ((doorFault s m).mail m).faulty = true) ∧
    ((s.mail m).faulty = true → doorFault s m = s) ∧
    ((s.mail m).faulty = false → (s.mail m).state = .loadedIn → takeGranted s m = false → noticeCount s < 31 →
      (.notice ⟨.importRejected, none, be 1 m ++ be 4 0 ++ be 1 8⟩ : ControlFrame) ∈ (doorFault s m).control ∧
        m ∉ (doorFault s m).picker.inspectWanted)

/-- The doors. -/
def Obligations.DoorStatusSetsTheMailSlot : Prop :=
  DoorChangesAreReported ∧ DoorStatusByState ∧ MailSlotsLoadedAndFaulty

/-! ### The drives -/

/-- A drive's status is taken in a pass and reports the end of the operation last taken (R67; log 23). -/
def Sys2Proof.OperationEnds (s : State) (d : Nat) (st : DriveStatus) (k : DriveOpKind) : Prop :=
  StatusAsked s (d + 1) .pass ∧ 1 ≤ d ∧ d ≤ 4 ∧ st.moduleFault = false ∧ (s.drive d).op = some k ∧ st.op = some k ∧
    st.result ≠ .running

/-- The bus is free and drive `d` has no operation in progress. -/
def Sys2Proof.opOver (s : State) (d : Nat) : State := (freeBus s).modDrive d fun y => { y with op := none, chan := [] }

/-- A READY drive of which the last use is now and whose idle timer runs; with no item it looks for work on its face (R54,
R83). -/
def Sys2Proof.nowReady (s : State) (d : Nat) (f : Drive → Drive) : State :=
  s.modDrive d fun y => { f y with
    state := .ready, task := .idle, op := none, dirLoaded := true, lastUse := s.elapsed, readySince := s.elapsed
    idleOn := true, chainAsk := (holderOf s d).isNone || y.chainAsk }

/-- LOAD and SPIN_UP: each completion leads to the next step, SPIN_UP's to the READ of the label block; a failure faults the drive
(R52, R53, R63). -/
def Sys2Proof.DriveSpinsUp : Prop :=
  ∀ (s : State) (d : Nat) (st : DriveStatus), let x := s.drive d
    let v := opOver s d
    let goes := fun t => exec (.driveStatusTaken d st) s = .next (settle (passNext t))
    let still := v.modDrive d fun y => { y with spinLimit := false }
    x.task = .spinUp →
      (OperationEnds s d st .load → (st.result ≠ .failed → goes v) ∧ (st.result = .failed → goes (driveFault v d .hardware))) ∧
      (OperationEnds s d st .spinUp →
        (st.result ≠ .failed → goes (asked (still.modDrive d fun y => { y with task := .readLabel none, op := none, chan := [] })
          (d + 1) (.read 0 1) .plain)) ∧
        (st.result = .failed → goes (driveFault still d .hardware)))

/-- The label block has been read (R53): a label that passes is followed by a closed mark that is due, by the OPEN mark of a side
its FILE item is to open, or by the directory; one that fails sends the cartridge home; a cartridge of no record has its finding
made (R41). -/
def Sys2Proof.LabelIsChecked : Prop :=
  ∀ (s : State) (d : Nat) (st : DriveStatus), let x := s.drive d
    let goes := fun t => exec (.driveStatusTaken d st) s = .next (settle (passNext t))
    OperationEnds s d st .read → s.mode ≠ .rebuild →
      ∀ r : LabelRead,
        (x.task = .readLabel none ∧ ((∃ b bs, st.result = .complete ∧ st.blocks = b :: bs ∧ r = readLabelBlock b) ∨
          (st.result ≠ .complete ∧ r = .unreadable))) →
        let w := (opOver s d).modDrive d fun y => { y with
          markTried := false, label := some r, serial := match r with
            | .good l => some l.serial
            | _ => y.serial }
        (x.side = none → newUnderWay s = false → goes (importFinding w d r)) ∧
        (x.side = none → newUnderWay s = true → goes (w.modDrive d fun y => { y with task := .finding r })) ∧
        ∀ n, x.side = some n → let e := s.side n
          let passes := e.state = .blank ∨ ∃ l k, r = .good l ∧ s.cart (sideCart n) = some k ∧ l.serial = k.label ∧
            l.face = sideFace n ∧ l.mark ≠ .new
          (¬passes → goes (labelFail w d n)) ∧
          (passes →
            (e.state = .closed → e.closedPending = true → goes (asked (w.modDrive d fun y =>
              { y with task := .writeLabel (.closing n) (closedLabel w d n) .erase, op := none, chan := [] })
              (d + 1) (.erase 0 1) .plain)) ∧
            (e.state ≠ .blank → e.state ≠ .closed ∨ e.closedPending = false →
              (x.dirLoaded = false → 1 ≤ e.slotsUsed → goes (asked (w.modDrive d fun y =>
                { y with task := .readDir 1 e.slotsUsed [], op := none, chan := [] }) (d + 1) (.read 1 e.slotsUsed) .plain)) ∧
              (x.dirLoaded = true → goes (nowReady w d id))) ∧
            (e.state = .blank → x.state = .spinningUp → ∀ i, holderOf s d = some i → i.kind = .file → i.side = some n →
              anyOpened s = false → goes (asked (w.modDrive d fun y =>
                { y with task := .writeLabel (.opening n) (openLabel s n) .erase, op := none, chan := [] })
                (d + 1) (.erase 0 1) .plain)))

/-- A label that fails: the side joins the Label-Failed List, MEDIA_ERROR is reported, the disc spins down, and the cartridge's way
home is requested (R53). -/
def Sys2Proof.FailedLabelSendsTheCartridgeHome : Prop :=
  ∀ (s : State) (d n c : Nat), s.drives.length = 4 → 1 ≤ d → d ≤ 4 → (s.drive d).occ = .record c → let t := labelFail s d n
    n ∈ t.labelFailed ∧ (t.drive d).state = .spinningDown ∧ (∃ q, t.bay.queue = q ++ [⟨d + 1, .spinDown, .plain⟩]) ∧
      (noticeCount s < 32 → (.notice ⟨.mediaError, none, be 2 n ++ be 4 0⟩ : ControlFrame) ∈ t.control)

/-- The directory read ends: slots past a failed block are read on from the next, and the last of them leaves the Directory Copy of
R5 and a READY drive (R54). -/
def Sys2Proof.DirectoryIsLoaded : Prop :=
  ∀ (s : State) (d next last n : Nat) (got : List (Nat × SlotRead)) (st : DriveStatus), let x := s.drive d
    let v := opOver s d
    let goes := fun t => exec (.driveStatusTaken d st) s = .next (settle (passNext t))
    OperationEnds s d st .read → s.mode ≠ .rebuild → x.task = .readDir next last got → x.side = some n → next ≤ last →
      let all := got ++ ((st.blocks.zip (List.range st.blocks.length)).map fun e => (next + e.2, readSlotBlock e.1)).filter
        fun e => decide (e.1 ≤ last)
      let ready := fun (l : List (Nat × SlotRead)) => nowReady v d fun y => { y with dir := directoryCopy (s.side n) l }
      (st.result = .complete → goes (ready all)) ∧
      ∀ a, st.result = .failedBlock a → let l := (all.filter fun e => decide (e.1 < a)) ++ [(a, .dead)]
        (a < last → goes (asked (v.modDrive d fun y => { y with task := .readDir (a + 1) last l, op := none, chan := [] })
          (d + 1) (.read (a + 1) (last - a)) .plain)) ∧
        (last ≤ a → goes (ready l))

/-- SPIN_DOWN and EJECT end: the drive is STOPPED, or its cartridge ejected; a failure faults the drive (R56, R57, R63). -/
def Sys2Proof.DriveStopsAndEjects : Prop :=
  ∀ (s : State) (d : Nat) (st : DriveStatus), let x := s.drive d
    let v := opOver s d
    let goes := fun t => exec (.driveStatusTaken d st) s = .next (settle (passNext t))
    (x.task = .spinDown → OperationEnds s d st .spinDown →
      (st.result ≠ .failed → goes (v.modDrive d fun y => { y with state := .stopped, task := .idle })) ∧
      (st.result = .failed → goes (driveFault v d .hardware))) ∧
    (x.task = .eject .release → OperationEnds s d st .eject →
      (st.result ≠ .failed → goes (v.modDrive d fun y =>
        { y with task := .idle, op := none, ejected := true, toEject := false })) ∧
      (st.result = .failed → goes (driveFault v d .hardware))) ∧
    (x.task = .eject .fault → OperationEnds s d st .eject →
      (st.result ≠ .failed → goes (driveFaultNotice (v.modDrive d fun y =>
        { y with task := .idle, op := none, ejected := true, toEject := false }) d)) ∧
      (st.result = .failed → goes (faultStuck v d)))

/-- A drive's status in a pass: a module fault faults a working drive, what the status reports of its operation first taken; a
status that reports nothing of the operation last taken changes nothing; the completions of a mount, a spin-down and an ejection
(R51 to R57, R63, R64, R67). -/
def Obligations.DriveStatusTakesTheCompletion : Prop :=
  (∀ (s : State) (d : Nat) (st : DriveStatus), StatusAsked s (d + 1) .pass → 1 ≤ d → d ≤ 4 → let x := s.drive d
    let u := freeBus s
    let goes := fun t => exec (.driveStatusTaken d st) s = .next (settle (passNext t))
    (st.moduleFault = true → x.state ≠ .faulted → x.state ≠ .outOfService →
      (x.op = none ∨ x.op ≠ st.op → goes (driveFault u d .hardware)) ∧
      ∀ k, x.op = some k → st.op = some k → goes (driveFault (takeProgress u d k st) d .hardware)) ∧
    (st.moduleFault = false ∨ x.state = .faulted ∨ x.state = .outOfService →
      (x.op = none ∨ x.op ≠ st.op → goes u) ∧
      ∀ k, x.op = some k → st.op = some k → st.result = .running → goes (takeProgress u d k st))) ∧
  DriveSpinsUp ∧ LabelIsChecked ∧ FailedLabelSendsTheCartridgeHome ∧ DirectoryIsLoaded ∧ DriveStopsAndEjects

/-- The blocks a status brings go into the staging blocks of the cells, in order (R58; what an erased block delivers is the
drive's: log 7). -/
def Sys2Proof.filled (s : State) (cells : List ReadCell) (blocks : List BlockIn) : State :=
  (cells.zip blocks).foldl (fun s e => writeBlock s e.1.block (match e.2 with
    | .data bytes => bytes
    | .erased bytes => bytes)) s

/-- A read burst after one of its READs: the rest of the run is read, else the next run of consecutive side addresses, else the
burst has ended and its outcome goes to the item's owner (R58, R60). -/
def Sys2Proof.burstGoesOn (s : State) (d : Nat) (b : ReadBurst) : State :=
  let read := fun (b : ReadBurst) (first : ReadCell) =>
    asked (s.modDrive d fun y => { y with task := .readBurst b, op := none, chan := b.run.map fun c => .staging c.block })
      (d + 1) (.read first.addr b.run.length) .plain
  match b.run, b.rest with
  | c :: _, _ => read b c
  | [], c :: cs => let n := runLength c.addr (c :: cs); read { b with run := (c :: cs).take n, rest := (c :: cs).drop n } c
  | [], [] => endBurst s d b.item (.readBurst b) fun s i => readBurstEnd s i b

/-- A READ of a burst ends: complete, short by the count it reports, at a failed block, whose page is marked and behind which the
burst goes on, or failed without an address (that the first block not sent is marked then is log 47). While it runs the blocks
sent so far are taken (R58). -/
def Sys2Proof.ReadBurstTakesItsBlocks : Prop :=
  ∀ (s : State) (d : Nat) (st : DriveStatus) (b : ReadBurst), let x := s.drive d
    let v := opOver s d
    let goes := fun t => exec (.driveStatusTaken d st) s = .next (settle (passNext t))
    x.task = .readBurst b →
      (OperationEnds s d st .read →
        (st.result = .complete →
          goes (burstGoesOn (filled v b.run st.blocks) d { b with run := [], sent := 0 })) ∧
        (∀ n, st.result = .short n → let m := n - b.sent
          goes (burstGoesOn (filled v (b.run.take m) st.blocks) d { b with run := b.run.drop m, sent := 0 })) ∧
        (∀ pre c post, st.result = .failedBlock c.addr → b.run = pre ++ c :: post → (∀ e ∈ pre, e.addr < c.addr) →
          (∀ e ∈ post, c.addr < e.addr) → goes (burstGoesOn (filled v pre st.blocks) d
            { b with run := post, sent := 0, bad := b.bad ++ [(c.page, c.addr)] })) ∧
        (st.result = .failed → ∀ c post, b.run.drop st.blocks.length = c :: post →
          goes (burstGoesOn (filled v (b.run.take st.blocks.length) st.blocks) d
            { b with run := post, sent := 0, bad := b.bad ++ [(c.page, c.addr)] }))) ∧
      (StatusAsked s (d + 1) .pass → 1 ≤ d → d ≤ 4 → st.moduleFault = false → x.op = some .read → st.op = some .read →
        st.result = .running → let n := st.blocks.length
        goes ((filled (freeBus s) (b.run.take n) st.blocks).modDrive d fun y =>
          { y with task := .readBurst { b with run := b.run.drop n, sent := b.sent + n } }))

/-- A run is the longest of cells whose side addresses rise by one (R58). -/
def Sys2Proof.RunsAreConsecutive : Prop :=
  ∀ (a : Nat) (l : List ReadCell), runLength a l ≤ l.length ∧
    (∀ i c, i < runLength a l → l[i]? = some c → c.addr = a + i) ∧
    ∀ c, l[runLength a l]? = some c → c.addr ≠ a + runLength a l

/-- A fetch's burst has ended: each page it named is STAGED with its blocks, or UNREADABLE where one of them was marked; pages of
other claims stay as they were (R100). -/
def Sys2Proof.FetchBurstStagesItsPages : Prop :=
  ∀ (s : State) (id : Nat) (b : ReadBurst) (f : Fetch) (c : Claim),
    (s.fetches.find? fun f => f.item == some id) = some f → s.findClaim b.claim = some c → s.findFetch f.seq = some f →
    (s.fetches.map Fetch.seq).Nodup → (f.pages.map FetchPage.page).Nodup →
    ∀ g, (fetchBurstEnd s id b).1.findFetch f.seq = some g → g.pages = f.pages.map fun p =>
      if p.outcome = .inBurst ∧ p.claim = c.id ∧ p.page ∈ c.pageList then
        (if ∃ e ∈ b.bad, e.1 = p.page then ⟨p.page, .unreadable, c.id, []⟩ else ⟨p.page, .staged, c.id, c.pageBlocks p.page⟩)
      else p

/-- Read bursts. -/
def Obligations.ReadBursts : Prop := ReadBurstTakesItsBlocks ∧ RunsAreConsecutive ∧ FetchBurstStagesItsPages

/-- A write burst's pass set: ERASE, WRITE and VERIFY of the run, the staging blocks of its offsets named to the data channel for
WRITE and VERIFY; a VERIFY that stops at a failed block hands it on, and the burst ends when all is verified (R59, R117). -/
def Sys2Proof.WritePassesFollow : Prop :=
  ∀ (s : State) (d : Nat) (st : DriveStatus) (b : WriteBurst), let x := s.drive d
    let v := opOver s d
    let goes := fun t => exec (.driveStatusTaken d st) s = .next (settle (passNext t))
    let addr := Config.dataBase + b.start
    let blocks := fun lo n => (((filingBlocks s b.ref).drop lo).take n).map Supply.staging
    let send := fun (t : State) (c : WriteBurst) (cmd : BayCmd) (l : List Supply) =>
      asked (t.modDrive d fun y => { y with task := .writeBurst c, op := none, chan := l }) (d + 1) cmd .plain
    x.task = .writeBurst b → b.spare = none →
      (b.pass = .erase → OperationEnds s d st .erase → goes (send v { b with pass := .write }
        (.write (addr + b.lo) (b.hi - b.lo)) (blocks b.lo (b.hi - b.lo)))) ∧
      (b.pass = .write → OperationEnds s d st .write → goes (send v { b with pass := .verify }
        (.verify (addr + b.lo) (b.hi - b.lo)) (blocks b.lo (b.hi - b.lo)))) ∧
      (b.pass = .verify → OperationEnds s d st .verify →
        (st.result = .complete → goes (endBurst v d b.item (.writeBurst { b with next := b.hi })
          fun s _ => writeBurstEnd s { b with next := b.hi })) ∧
        ∀ o, st.result = .failedBlock (addr + o) →
          (∀ f, s.findFiling b.ref = some f → f.remaps.length < 32 → (s.side b.side).spareUsed < 2048 →
            (s.side b.side).state ≠ .blank → let k := (s.side b.side).spareUsed
            goes (send (v.setSide b.side { s.side b.side with spareUsed := k + 1 })
              { b with next := o, spare := some (o, k, .erase) } (.erase (Config.spareBase + k) 1) [])) ∧
          (∀ f, s.findFiling b.ref = some f → 32 ≤ f.remaps.length ∨ 2048 ≤ (s.side b.side).spareUsed →
            let c := { b with next := o + 1, spare := none, relocate := some (b.relocate.getD o) }
            (o + 1 < b.hi → goes (send v c (.verify (addr + (o + 1)) (b.hi - (o + 1))) (blocks (o + 1) (b.hi - (o + 1))))) ∧
            (b.hi ≤ o + 1 → goes (endBurst v d b.item (.writeBurst c) fun s _ => writeBurstEnd s c))))

/-- A remap: the spare is erased, written and verified with the offset's block; verified, the offset's entry joins the remap list
and the VERIFY goes on from the next offset (R119). -/
def Sys2Proof.SparesAreWritten : Prop :=
  ∀ (s : State) (d o k : Nat) (p : Pass) (st : DriveStatus) (b : WriteBurst), let x := s.drive d
    let v := opOver s d
    let goes := fun t => exec (.driveStatusTaken d st) s = .next (settle (passNext t))
    let block := (((filingBlocks s b.ref).drop o).take 1).map Supply.staging
    let send := fun (c : WriteBurst) (cmd : BayCmd) (l : List Supply) =>
      asked (v.modDrive d fun y => { y with task := .writeBurst c, op := none, chan := l }) (d + 1) cmd .plain
    x.task = .writeBurst b → b.spare = some (o, k, p) →
      (p = .erase → OperationEnds s d st .erase →
        goes (send { b with spare := some (o, k, .write) } (.write (Config.spareBase + k) 1) block)) ∧
      (p = .write → OperationEnds s d st .write →
        goes (send { b with spare := some (o, k, .verify) } (.verify (Config.spareBase + k) 1) block)) ∧
      (p = .verify → OperationEnds s d st .verify → st.result = .complete →
        goes (verifyOn (v.modFiling b.ref fun f => { f with remaps := f.remaps ++ [(o, k)] }) d
          { b with next := o + 1, spare := none }))

/-- A write burst has ended: its filing's progress is its last offset; a filing whose cancel was pending leaves, and a relocation
that was noted is made: the side is closed with reason SPARE and the filing starts again from offset 0, once (R120, R122, R126). -/
def Sys2Proof.WriteBurstEndsOrRelocates : Prop :=
  ∀ (s : State) (b : WriteBurst) (f : Filing), s.findFiling b.ref = some f →
    (f.cancelPending = true → writeBurstEnd s b = (removeFiling s b.ref, .nothing)) ∧
    (f.cancelPending = false → let t := s.modFiling b.ref fun x => { x with progress := b.hi }
      (b.relocate = none → writeBurstEnd s b = (t, .same)) ∧
      (∀ o, b.relocate = some o → (s.side b.side).state = .opened → let u := closeSideAs t b.side .spare
        (f.relocated = true → writeBurstEnd s b = (failFiling u b.ref .media, .nothing)) ∧
        (f.relocated = false → ∃ g, (resetFiling u { f with progress := b.hi }).findFiling b.ref = some g ∧ g.progress = 0 ∧
          g.claimed = 0 ∧ g.start = none ∧ g.remaps = [] ∧ g.relocated = true ∧ g.state = .queued ∧ g.target = none ∧
          writeBurstEnd s b = (openSideCheck (resetFiling u { f with progress := b.hi }) g, .other))))

/-- The data channel supplies a staging block as it stands, a label block and a document record as they are laid out (R59, R203,
R204). -/
def Sys2Proof.ChannelSupplies : Prop :=
  ∀ (s : State), (∀ b, supplied s (.staging b) = readBlock s b) ∧ (∀ l, supplied s (.label l) = l.bytes) ∧
    ∀ r, supplied s (.record r) = r.bytes

/-- Write bursts. -/
def Obligations.WriteBursts : Prop := WritePassesFollow ∧ SparesAreWritten ∧ WriteBurstEndsOrRelocates ∧ ChannelSupplies

/-- A mark's pass set of one block: ERASE, WRITE and VERIFY of block 0, the label block named for WRITE and VERIFY (R16, R20, R42,
R59); a closed mark whose side has become FAULTY goes no further (R11). -/
def Sys2Proof.MarkPassesFollow : Prop :=
  ∀ (s : State) (d : Nat) (st : DriveStatus) (job : LabelJob) (l : Label), let x := s.drive d
    let v := opOver s d
    let goes := fun t => exec (.driveStatusTaken d st) s = .next (settle (passNext t))
    let send := fun (p : Pass) (cmd : BayCmd) =>
      asked (v.modDrive d fun y => { y with task := .writeLabel job l p, op := none, chan := [.label l] }) (d + 1) cmd .plain
    let owed := ∀ n, job = .closing n → (s.side n).closedPending = true
    (x.task = .writeLabel job l .erase → OperationEnds s d st .erase → owed → goes (send .write (.write 0 1))) ∧
    (x.task = .writeLabel job l .write → OperationEnds s d st .write → owed → goes (send .verify (.verify 0 1))) ∧
    (x.task = .writeLabel job l .verify → OperationEnds s d st .verify →
      goes (labelWritten v d job l (decide (st.result = .complete)))) ∧
    (∀ n, job = .closing n → (s.side n).closedPending = false →
      (x.task = .writeLabel job l .erase ∧ OperationEnds s d st .erase) ∨
        (x.task = .writeLabel job l .write ∧ OperationEnds s d st .write) → goes (labelWritten v d job l false))

/-- The OPEN mark verified makes the chosen BLANK side OPEN and reports SIDE_OPENED; one that fails makes it FAULTY with
MEDIA_ERROR, and the filing that chose it chooses again, at once where its item holds a drive, which may end in HELD (R16, R17).
A closed mark verified clears the pending mark; one that fails leaves it with MEDIA_ERROR (R20). A NEW mark verified completes
the record (R42). -/
def Sys2Proof.MarksSetTheSide : Prop :=
  ∀ (s : State) (d n : Nat) (l : Label), TablesSized s → 1 ≤ n → n ≤ 320 → 1 ≤ d → d ≤ 4 →
    ((s.side n).state = .blank → sideAssigned s n = true → anyOpened s = false →
      (let t := labelWritten s d (.opening n) l true
       t.side n = { Side.blank with state := .opened, openedDay := some l.openedDay } ∧ t.ret.nextDoc = s.ret.nextDoc ∧
         (noticeCount s < 32 → (.notice ⟨.sideOpened, none, be 2 n ++ be 1 (faceCode l.face) ++ be 4 l.serial ++
           be 4 l.firstToBe ++ be 2 l.openedDay⟩ : ControlFrame) ∈ t.control)) ∧
      (let t := labelWritten s d (.opening n) l false
       t.side n = { s.side n with state := .faulty } ∧
         (noticeCount s < 32 → (.notice ⟨.mediaError, none, be 2 n ++ be 4 0⟩ : ControlFrame) ∈ t.control) ∧
         ∀ f, (s.filings.map Filing.ref).Nodup → (s.filings.find? fun x => x.target == some n) = some f → ∃ g,
           t.findFiling f.ref = some g ∧
           ((∀ i, f.item.bind s.findItem = some i → i.drive = none) → g = { f with target := none }) ∧
           (∀ i e, f.item.bind s.findItem = some i → i.drive = some e →
             let usable := fun m => m != n && blankUsable s m
             (∀ m, (upTo s.ret.sides.length).find? usable = some m → g = { f with target := some m }) ∧
             ((upTo s.ret.sides.length).find? usable = none → g = { f with target := none, state := .held })))) ∧
    ((s.side n).closedPending = true → (s.drive d).state = .ready →
      (labelWritten s d (.closing n) l true).side n = { s.side n with closedPending := false } ∧
      (labelWritten s d (.closing n) l false).side n = s.side n ∧
      (noticeCount s < 32 → (.notice ⟨.mediaError, none, be 2 n ++ be 4 0⟩ : ControlFrame) ∈
        (labelWritten s d (.closing n) l false).control)) ∧
    ∀ c h, 1 ≤ c → c ≤ 160 → s.cart c = none → lowestFreeSlot s = some h → (s.drive d).fromMail ≠ none →
      let t := labelWritten s d (.new c) l true
      t.cart c = some ⟨l.serial, .inLibrary, some h⟩ ∧ (t.drive d).occ = .record c ∧ (t.drive d).state = .ready ∧
        t.side (sideOf c .a) = Side.blank ∧ t.side (sideOf c .b) = Side.blank

/-- The closed label carries the side's run and close reason, and forward what the OPEN mark gave (R4, R20); the OPEN label
the next document number and the day (R16). -/
def Sys2Proof.MarksCarryTheirFields : Prop :=
  ∀ (s : State) (d n : Nat) (k : Cart), s.cart (sideCart n) = some k →
    (∀ o, (s.drive d).label = some (.good o) → closedLabel s d n =
      ⟨k.label, sideFace n, .closed, o.firstToBe, o.openedDay, (s.side n).closeReason, (s.side n).last, (s.side n).count⟩) ∧
    ∀ c, s.clock = some c → openLabel s n = ⟨k.label, sideFace n, .opened, s.ret.nextDoc, c.day, none, none, 0⟩

/-- Marks. -/
def Obligations.LabelMarks : Prop := MarkPassesFollow ∧ MarksSetTheSide ∧ MarksCarryTheirFields

/-- A commit burst's passes over its directory slot, the document record named for WRITE and VERIFY; verified on the OPEN side the
document is committed; a slot that fails is counted used, and the next is tried, or the filing relocates (R5, R123, R124). -/
def Sys2Proof.CommitPassesFollow : Prop :=
  ∀ (s : State) (d : Nat) (st : DriveStatus) (b : CommitBurst), let x := s.drive d
    let v := opOver s d
    let goes := fun t => exec (.driveStatusTaken d st) s = .next (settle (passNext t))
    let send := fun (t : State) (c : CommitBurst) (cmd : BayCmd) (l : List Supply) =>
      asked (t.modDrive d fun y => { y with task := .commitBurst c, op := none, chan := l }) (d + 1) cmd .plain
    x.task = .commitBurst b →
      (b.pass = .erase → OperationEnds s d st .erase →
        goes (send v { b with pass := .write } (.write b.slot 1) [.record b.doc])) ∧
      (b.pass = .write → OperationEnds s d st .write →
        goes (send v { b with pass := .verify } (.verify b.slot 1) [.record b.doc])) ∧
      (b.pass = .verify → OperationEnds s d st .verify →
        (st.result = .complete → goes (endBurst v d b.item (.commitBurst b) fun t _ =>
          if (t.side b.side).state = .opened then (commitFiling t d b, .nothing)
          else relocateFiling t b.ref b.side .directory)) ∧
        (st.result ≠ .complete → (s.side b.side).state = .opened → TablesSized s → 1 ≤ b.side → b.side ≤ 320 →
          let used := (s.side b.side).slotsUsed + 1
          let w := v.setSide b.side { s.side b.side with slotsUsed := used }
          (used < 1000 → goes (send w { b with slot := used + 1, pass := .erase } (.erase (used + 1) 1) [])) ∧
          (1000 ≤ used → goes (endBurst w d b.item (.commitBurst b) fun t _ => relocateFiling t b.ref b.side .directory))))

/-- The commit's one update (R124): the document takes the next number, the side's run and slots grow by one, the marker is
cleared, and a rectification's reserved entry becomes COMMITTED with that number. -/
def Sys2Proof.CommitUpdatesOnce : Prop :=
  ∀ (s : State) (f : Filing) (n : Nat), TablesSized s → 1 ≤ n → n ≤ 320 → let e := s.side n; let t := commitUpdate s f n
    t.ret.nextDoc = s.ret.nextDoc + 1 ∧ t.ret.marker = none ∧
    t.side n = { e with
      first := some (e.first.getD s.ret.nextDoc), last := some s.ret.nextDoc, count := e.count + 1
      slotsUsed := e.slotsUsed + 1 } ∧
    (∀ m, m ≠ n → t.side m = s.side m) ∧
    (f.rect = none → t.ret.withheld = s.ret.withheld) ∧
    (∀ r i, f.rect = some r → (s.reserved.find? fun x => x.2 == f.ref) = some (i, f.ref) →
      t.ret.withheld = tset s.ret.withheld i (some ⟨r.target, r.ranges, s.ret.nextDoc⟩)) ∧
    (∀ x ∈ t.reserved, x.2 ≠ f.ref) ∧
    t.ret = { s.ret with
      nextDoc := t.ret.nextDoc, sides := t.ret.sides, withheld := t.ret.withheld, marker := t.ret.marker } ∧
    (assemble s f).number = s.ret.nextDoc ∧ (assemble s f).rect = f.rect.map (fun r => (r.target, r.ranges))

/-- What follows the commit's update, in its order (R124): the drive's Directory Copy has the record, a rectification's commit masks
the work in flight, the staging claim is freed, FILED is reported, the filing leaves the table, and the thresholds are tested. -/
def Sys2Proof.CommitReportsFiled : Prop :=
  ∀ (s : State) (d : Nat) (b : CommitBurst) (f : Filing), s.findFiling b.ref = some f →
    let t := (commitUpdate s f b.side).modDrive d fun x => { x with dir := x.dir ++ [b.doc] }
    let filed := fun (t : State) => notify (freeFilingClaim t f.ref) .filed (some (f.tag, f.station))
      (be 4 f.ref.toNat ++ be 1 f.station ++ be 4 b.doc.number ++ be 1 (if f.rect.isSome then 2 else 1) ++ be 2 b.side ++
        be 4 b.doc.start ++ be 2 b.doc.count ++ be 1 b.doc.remaps.length ++ flag f.relocated)
    (f.rect = none → commitFiling s d b = thresholdTest (removeFiling (filed t) f.ref) b.side) ∧
    ∀ r, f.rect = some r → let newly := (pagesOf r.ranges).filter fun p => !(withheldSet s r.target).contains p
      (newly = [] → commitFiling s d b = thresholdTest (removeFiling (filed t) f.ref) b.side) ∧
      (newly ≠ [] → commitFiling s d b = thresholdTest (removeFiling (filed
        (remaskOrders (remaskFetches t r.target newly) r.target newly)) f.ref) b.side)

/-- After a commit the side is closed at fewer than 64 free data blocks, at no directory slot left, or at fewer than 16 spares left,
in that order (R19). -/
def Sys2Proof.ThresholdsCloseTheSide : Prop :=
  ∀ (s : State) (n : Nat), (s.side n).state = .opened → let e := s.side n
    (freeData e < 64 → thresholdTest s n = closeSideAs s n .room) ∧
    (64 ≤ freeData e → slotsLeft e = 0 → thresholdTest s n = closeSideAs s n .directory) ∧
    (64 ≤ freeData e → slotsLeft e ≠ 0 → sparesLeft e < 16 → thresholdTest s n = closeSideAs s n .spare) ∧
    (64 ≤ freeData e → slotsLeft e ≠ 0 → 16 ≤ sparesLeft e → thresholdTest s n = s)

/-- A rectification's commit masks the fetches of its target. A masked record's newly withheld pages not yet sent become
WITHHELD, staged, in a running burst, in a claim that waits, or not read yet; staged ones free their blocks; a burst whose claim
waits is named afresh from the pages that remain. A FULL record, one of another document and one in WAITING_FACE keep their
pages but for those that a withdrawn claim named (R103). -/
def Sys2Proof.CommitMasksFetches : Prop :=
  ∀ (s : State) (target : Nat) (newly : List Nat), StagingKept s → (s.fetches.map Fetch.seq).Nodup →
    let t := remaskFetches s target newly
    let masks := fun (f : Fetch) (p : FetchPage) => Masked target f ∧ p.page ∈ newly ∧ f.sendPage ≤ p.page ∧
      p.outcome ≠ .withheld ∧ p.outcome ≠ .unreadable
    (∀ f ∈ s.fetches, (f.pages.map FetchPage.page).Nodup → ∃ g, t.findFetch f.seq = some g ∧
      g.pages.length = f.pages.length ∧ g = { f with pages := g.pages, nextRead := g.nextRead } ∧
      ∀ (i : Nat) (p : FetchPage), f.pages[i]? = some p →
        (masks f p → g.pages[i]? = some ⟨p.page, .withheld, 0, []⟩) ∧
        (¬masks f p → p.outcome = .inBurst → (∃ c ∈ s.claims, c.id = p.claim ∧ Withdrawn s target newly c) →
          g.pages[i]? = some ⟨p.page, .unread, 0, []⟩) ∧
        (¬masks f p → (p.outcome = .inBurst → ∀ c ∈ s.claims, c.id = p.claim → ¬Withdrawn s target newly c) →
          g.pages[i]? = some p) ∧
        (masks f p → p.outcome = .staged → ∀ c ∈ t.claims, c.id = p.claim → c.blocks ≠ none → ∀ b ∈ p.blocks, b ∉ c.live)) ∧
    (∀ c ∈ s.claims, Withdrawn s target newly c → ∀ e ∈ t.claims, e.id ≠ c.id) ∧
    (∀ f ∈ s.fetches, Masked target f → ∀ id, f.item = some id →
      (∃ e ∈ s.claims, e.owner = .item id ∧ Withdrawn s target newly e) → ∀ i ∈ t.work, i.id = id → i.state ≠ .waitingStaging) ∧
    ((∀ f ∈ s.fetches, ¬Masked target f) → t = s) ∧ t.drives = s.drives ∧ t.control = s.control ∧ t.ret = s.ret

/-- It masks the copy orders of its target. Each that waits for the port loses the newly withheld pages from its selection, its hold
falls to what is left, and it ends where nothing is (R138, R139); orders of other documents keep selection and hold. -/
def Sys2Proof.CommitMasksQueuedOrders : Prop :=
  ∀ (s : State) (target : Nat) (newly : List Nat), (s.orders.map Order.number).Nodup → let t := remaskOrders s target newly
    (∀ o ∈ s.orders, o.doc = target → s.port.holder ≠ some o.number →
      let sel := o.selection.filter fun p => !newly.contains p
      let hold := if o.payer = 0 then 0 else o.sets * (sel.length * o.rate + o.certFee)
      (sel = [] → t.findOrder o.number = none) ∧
      (sel ≠ [] → ∃ p, t.findOrder o.number = some p ∧
        p = { o with selection := sel, hold := hold, pages := p.pages, readSet := p.readSet, readPage := p.readPage })) ∧
    (∀ o ∈ s.orders, o.doc ≠ target → ∃ p, t.findOrder o.number = some p ∧
      p = { o with pages := p.pages, readSet := p.readSet, readPage := p.readPage }) ∧
    ∀ o, s.orders = [o] → o.doc = target → s.port.holder ≠ some o.number →
      let sel := o.selection.filter fun p => !newly.contains p
      let hold := if o.payer = 0 then 0 else o.sets * (sel.length * o.rate + o.certFee)
      let u := { s with orders := [{ o with selection := sel, hold := hold }] }
      (sel ≠ [] → t = u) ∧ (sel = [] → t = endOrder u o.number .done)

/-- The order that holds the port loses the pages from its selection and from what is still to be sent of its set; its page in hand
is not recalled. A certified set in progress whose STAMP page has not been sent is voided where its selection loses a page, and a
VOID page is owed; with no page lost a certified order stays as it is (log 19). The hold becomes what is left to print. With no page
in hand the order goes on, or ends (R140, R141, R157, R160). -/
def Sys2Proof.CommitMasksTheHolder : Prop :=
  ∀ (s : State) (target : Nat) (newly : List Nat) (o : Order), (s.orders.map Order.number).Nodup → s.findOrder o.number = some o →
    (s.orders.filter fun x => x.doc == target) = [o] → s.port.holder = some o.number →
    let t := remaskOrders s target newly
    let loses := ∃ p ∈ o.selection, p ∈ newly
    (o.cert = true → ¬loses → t = s) ∧
    (o.cert = false ∨ loses →
      let sel := o.selection.filter fun p => !newly.contains p
      let stampOut := o.stampRetry = true ∨ ∃ h, s.port.inHand = some h ∧ h.order = o.number ∧ h.kind = .stamp
      let setsLeft := if o.setStarted then o.sets - o.curSet else o.sets + 1 - o.curSet
      let later := setsLeft * (sel.length * o.rate + o.certFee)
      let account := fun (n : Nat) => if o.payer = 0 then 0 else n
      let voids := o.cert = true ∧ o.setStarted = true ∧ o.voidOwed = false ∧ ¬stampOut
      let masked := fun (p : Order) => p.selection = sel ∧
        (voids → p.toSend = [] ∧ p.retry = none ∧ p.pendingCharge = 0 ∧ p.voidOwed = true ∧ p.setsVoided = o.setsVoided + 1 ∧
          p.hold = account later) ∧
        (¬voids → p.toSend = (o.toSend.filter fun q => !newly.contains q) ∧
          p.retry = (if ∃ q ∈ o.retry, q ∈ newly then none else o.retry) ∧ p.pendingCharge = o.pendingCharge ∧
          p.voidOwed = o.voidOwed ∧ p.setsVoided = o.setsVoided ∧
          (o.cert = true → stampOut → o.voidOwed = false → p.hold = account (later + (o.pendingCharge + o.certFee))) ∧
          (o.cert = true → ¬stampOut ∨ o.voidOwed = true → p.hold = account later)) ∧
        (o.cert = false → ∀ atPrinter : Nat,
          atPrinter = (if (∃ h ∈ s.port.inHand, h.order = o.number ∧ h.kind = .data) then 1 else 0) →
          p.hold = account (later + o.rate * ((if o.setStarted then p.toSend.length else 0) +
            (if p.retry.isSome then 1 else 0) + atPrinter)))
      (voids → t.ret = { s.ret with counts := { s.ret.counts with voidedSets := s.ret.counts.voidedSets + 1 } }) ∧
      (¬voids → t.ret = s.ret) ∧
      (∀ h, s.port.inHand = some h → h.order = o.number → ∃ p, t.findOrder o.number = some p ∧ masked p ∧
        p.state = o.state ∧ p.curSet = o.curSet ∧ p.charged = o.charged ∧ p.amount = o.amount ∧
        (∀ q ∈ p.pages, q.page ∈ newly → h.kind = .data ∧ h.page = q.page ∧ h.set = q.set) ∧
        t.port.holder = some o.number ∧
        (h.kind = .data → voids ∨ h.page ∈ newly → t.port.inHand = some { h with noRetry := true }) ∧
        (h.kind ≠ .data ∨ (¬voids ∧ h.page ∉ newly) → t.port.inHand = some h)) ∧
      ((∀ h, s.port.inHand = some h → h.order ≠ o.number) → ∃ (u : State) (p : Order), u.findOrder o.number = some p ∧ masked p ∧
        u.port = s.port ∧ u.ret = t.ret ∧ (∀ q ∈ p.pages, q.page ∉ newly) ∧
        (p.plainSetOver = false → p.finished = false → t = u) ∧
        (p.plainSetOver = false → p.finished = true → t = endOrder u o.number .done) ∧
        (p.plainSetOver = true → p.nextSet.finished = false → t = u.modOrder o.number Order.nextSet) ∧
        (p.plainSetOver = true → p.nextSet.finished = true →
          t = endOrder (u.modOrder o.number Order.nextSet) o.number .done)))

/-- Commits. -/
def Obligations.CommitsAndRemasking : Prop :=
  CommitPassesFollow ∧ CommitUpdatesOnce ∧ CommitReportsFiled ∧ ThresholdsCloseTheSide ∧ CommitMasksFetches ∧
    CommitMasksQueuedOrders ∧ CommitMasksTheHolder

/-- A transfer's limit faults the picker: its queued commands go, STATUS is asked, and the transfer is kept as broken off
(R36, R37; log 27); a stopped limit does nothing itself (log 5). -/
def Sys2Proof.TransferTimeoutFaultsThePicker : Prop :=
  ∀ s : State, s.powered = true →
    (∀ (a : Arm) (t : Transfer), s.picker.arm = some a → a.taken = true → armXfer s = some t → s.picker.state ≠ .faulted →
      exec .transferTimeout s = .next (settle { s with
        picker := { s.picker with
          state := .faulted, fault := some .timeout, parkAsked := false, arm := none
          broken := some ⟨{ t with src := xferSource s t }, a.mail, true, none⟩ }
        bay := { s.bay with queue := (s.bay.queue.filter fun e => e.module != 1) ++ [⟨1, .status, .broken⟩] } })) ∧
    (s.picker.arm = none → exec .transferTimeout s = .next (settle s))

/-- The spin-up limit and the idle timer of a drive: a mark that is due or a task under way goes first (R52, R56; log 22); a stopped
one does nothing itself (log 5). -/
def Sys2Proof.DriveTimersExpire : Prop :=
  ∀ (s : State) (d : Nat), s.powered = true → let x := s.drive d
    (x.spinLimit = true → exec (.spinUpTimeout d) s = .next (settle (driveFault s d .spinUp))) ∧
    (x.spinLimit = false → exec (.spinUpTimeout d) s = .next (settle s)) ∧
    (x.state = .ready → x.idleOn = true → x.task = .idle → markDue s d = none → exec (.idleTimeout d) s =
      .next (settle { s.modDrive d fun y => { y with
          state := .spinningDown, task := .spinDown, op := none, idleOn := false, spinDue := false } with
        bay := { s.bay with queue := s.bay.queue ++ [⟨d + 1, .spinDown, .plain⟩] } })) ∧
    (x.state = .ready → x.idleOn = true → x.task ≠ .idle ∨ markDue s d ≠ none → exec (.idleTimeout d) s =
      .next (settle (s.modDrive d fun y => { y with spinDue := true }))) ∧
    (x.state ≠ .ready ∨ x.idleOn = false → exec (.idleTimeout d) s = .next (settle s))

/-- The transfer limit, the spin-up limit and the idle timer. -/
def Obligations.LimitsExpire : Prop := TransferTimeoutFaultsThePicker ∧ DriveTimersExpire

/-- A drive goes FAULTED with its reason, its timers and limit stopped and its queued commands dropped; a cartridge it holds is
ejected, else DRIVE_FAULT is reported; a drive that was leaving service is in service again; one already FAULTED or OUT_OF_SERVICE
is unchanged (R63, R64, R66; DRIVE_FAULT's last byte, 0 where it holds no cartridge, is log 11's, the model's choice). -/
def Sys2Proof.FaultStopsTheDrive : Prop :=
  ∀ (s : State) (d : Nat) (why : DriveFault), s.drives.length = 4 → 1 ≤ d → d ≤ 4 → let x := s.drive d
    let t := driveFault s d why
    (x.state = .faulted ∨ x.state = .outOfService → t = s) ∧
    (x.state ≠ .faulted → x.state ≠ .outOfService →
      (t.drive d).state = .faulted ∧ (t.drive d).fault = some why ∧ (t.drive d).idleOn = false ∧
      (t.drive d).spinLimit = false ∧
      (t.drive d).service = (if x.service = .leaving then .inService else x.service) ∧
      t.bay.queue = (s.bay.queue.filter fun e => e.module != d + 1) ++
        (if x.occ ≠ .empty ∧ x.ejected = false then [⟨d + 1, .eject, .plain⟩] else []) ∧
      (x.occ ≠ .empty → x.ejected = false → (t.drive d).task = .eject .fault) ∧
      (x.occ = .empty ∨ x.ejected = true → (t.drive d).task = .idle) ∧
      (x.occ = .empty → noticeCount s < 32 → (.notice ⟨.driveFault, none, be 1 d ++ be 1 why.code ++ be 4 0 ++
        optNum 1 (x.face.map faceCode) ++ be 1 0⟩ : ControlFrame) ∈ t.control))

/-- What a burst comes to at its drive's fault (R64): of a fetch, the pages wholly read before it are STAGED and the others UNREAD
again (R104); of a filing, its progress is the first offset not settled, or it leaves where its cancel was pending (R121, R126); of
a commit, the slot is counted used and the filing returns to WRITING (R125). -/
def Sys2Proof.FaultEndsTheBurst : Prop :=
  (∀ (s : State) (id : Nat) (b : ReadBurst) (f : Fetch) (c : Claim),
    (s.fetches.find? fun f => f.item == some id) = some f → s.findClaim b.claim = some c → s.findFetch f.seq = some f →
    (s.fetches.map Fetch.seq).Nodup → (f.pages.map FetchPage.page).Nodup →
    (∀ p ∈ f.pages, p.claim = c.id → p.outcome = .inBurst → p.page ∈ c.pageList) →
    ∀ g, (fetchBurstFault s id b).findFetch f.seq = some g → g.pages = f.pages.map fun p =>
      if p.outcome = .inBurst ∧ p.claim = c.id then
        (if (∃ e ∈ b.run ++ b.rest, e.page = p.page) ∨ (∃ e ∈ b.bad, e.1 = p.page) then ⟨p.page, .unread, 0, []⟩
          else ⟨p.page, .staged, c.id, c.pageBlocks p.page⟩)
      else p) ∧
  (∀ (s : State) (b : WriteBurst) (f : Filing), s.findFiling b.ref = some f →
    (f.cancelPending = true → writeBurstFault s b = removeFiling s b.ref) ∧
    (f.cancelPending = false →
      (b.pass ≠ .verify → writeBurstFault s b = s.modFiling b.ref fun x => { x with progress := b.lo }) ∧
      (b.pass = .verify → b.relocate = none →
        writeBurstFault s b = s.modFiling b.ref fun x => { x with progress := b.next }))) ∧
  ∀ (s : State) (b : CommitBurst), (s.side b.side).state ≠ .blank → commitBurstFault s b =
    (s.setSide b.side { s.side b.side with slotsUsed := (s.side b.side).slotsUsed + 1 }).modFiling b.ref
      fun x => { x with state := .writing }

/-- The EJECT of a fault fails: the cartridge is stuck, DRIVE_FAULT says so, and a rebuild halts (R64, R183; the notice's last
byte, 2, is log 11's, the model's choice). -/
def Sys2Proof.StuckCartridgeIsReported : Prop :=
  ∀ (s : State) (d c : Nat), s.drives.length = 4 → 1 ≤ d → d ≤ 4 → (s.drive d).occ = .record c → (s.drive d).ejected = false →
    let t := faultStuck s d
    (t.drive d).task = .idle ∧ (t.drive d).occ = .record c ∧ (s.mode = .rebuild → t.boot.rebuild.halted = true) ∧
      (noticeCount s < 32 → (.notice ⟨.driveFault, none, be 1 d ++ optNum 1 ((s.drive d).fault.map DriveFault.code) ++
        optNum 4 ((s.cart c).map Cart.label) ++ optNum 1 ((s.drive d).face.map faceCode) ++ be 1 2⟩ : ControlFrame) ∈ t.control)

/-- Drive faults. -/
def Obligations.DriveFaultStopsAndEjects : Prop := FaultStopsTheDrive ∧ FaultEndsTheBurst ∧ StuckCartridgeIsReported

/-! ### The Print Port -/

/-- SEND_PAGE: the holder's next page leaves and becomes the page in hand; where no page may be sent nothing leaves (R153,
R154, R202; log 5, and log 40 for the day in PAGE_START). -/
def Sys2Proof.SendPagePutsAPageInHand : Prop :=
  ∀ s : State, s.powered = true →
    (∀ (n : Nat) (o : Order) (t : ToSend), s.port.holder = some n → s.port.inHand = none → s.findOrder n = some o →
      o.state = .active → o.closing = none → o.nextToSend = some t →
      exec .sendPage s = .next (settle { s.modOrder o.number fun x => x.afterSending t with
        port := { s.port with
          nextSeq := s.port.nextSeq + 1
          inHand := some ⟨s.port.nextSeq, t.kind, o.number, o.curSet, t.page, t.attempt, .stopped, false, false⟩
          out := pageStart s o t :: t.blocks.map (fun b => ⟨0x02, readBlock s b⟩) ++ [⟨0x03, []⟩] } })) ∧
    (s.port.holder = none ∨ s.port.inHand ≠ none → exec .sendPage s = .next (settle s))

/-- When PAGE_END has left, the answer limit runs, or waits while the printer is not READY (R154, R155). -/
def Sys2Proof.PageEndStartsTheAnswerLimit : Prop :=
  ∀ (s : State) (h : PageInHand), s.powered = true → s.port.inHand = some h → h.sent = false →
    (s.port.printer = .ready → exec .pageEndSent s =
      .next { s with port := { s.port with out := [], inHand := some { h with sent := true, limit := .running } } }) ∧
    (s.port.printer ≠ .ready → exec .pageEndSent s =
      .next { s with port := { s.port with out := [], inHand := some { h with sent := true, limit := .stopped } } })

/-- SEND_PAGE and PAGE_END_SENT. -/
def Obligations.PageGoesToThePrinter : Prop := SendPagePutsAPageInHand ∧ PageEndStartsTheAnswerLimit

/-- A printer's answer to the page in hand: an ACCEPTED PLAIN page is charged, a CERTIFIED page joins the pending charge, but not of
a voided set, a STAMP page charges its set, a VOID page charges nothing, and the page is settled; SPOILED is counted, and then the
page is owed again at its first attempt, settled for an order that is closing or a page not to be sent again, and else the order
ends with PRINTER; an answer to another page, or of another value, changes nothing itself (R140, R141, R153 to R158, R202; log 5
for an answer with no page in hand). -/
def Sys2Proof.AnswerByPage : Prop :=
  ∀ (s : State) (seq : Word16) (result : Byte), s.powered = true → let run := exec (.printerAnswer seq result) s
    (s.port.inHand = none → run = .next (settle s)) ∧
    ∀ (h : PageInHand) (o : Order), s.port.inHand = some h → s.findOrder h.order = some o →
      (h.seq ≠ seq ∨ (result ≠ 1 ∧ result ≠ 2) → run = .next (settle s)) ∧
      (h.seq = seq → result = 1 →
        (h.kind = .data → o.cert = false → run = .next (settle (pageSettled
          ((charge s o.payer o.station o.rate .page).modOrder o.number fun x =>
            Order.withHold { x with charged := x.charged + 1, amount := x.amount + o.rate } (x.hold - o.rate)) h))) ∧
        (h.kind = .data → o.cert = true → o.voidOwed = false → run = .next (settle (pageSettled
          (s.modOrder o.number fun x => { x with pendingCharge := x.pendingCharge + x.rate }) h))) ∧
        (h.kind = .data → o.cert = true → o.voidOwed = true → run = .next (settle (pageSettled s h))) ∧
        (h.kind = .stamp → let fee := o.pendingCharge + o.certFee; let pages := o.setPages.length
          run = .next (settle (pageSettled
            (((charge s o.payer o.station fee (.set pages)).modOrder o.number fun x =>
              Order.withHold { x with charged := x.charged + pages, amount := x.amount + fee } (x.hold - fee)).modOrder o.number
              fun x => Order.nextSet { x with setsDone := x.setsDone + 1 }) h))) ∧
        (h.kind = .void → run = .next (settle (pageSettled
          (s.modOrder o.number fun x => Order.nextSet { x with voidOwed := false, voidRetry := false }) h)))) ∧
      (h.seq = seq → result = 2 →
        let spoiled := { s.modOrder o.number fun x => { x with spoiled := x.spoiled + 1 } with
          ret := { s.ret with counts := { s.ret.counts with spoiled := s.ret.counts.spoiled + 1 } } }
        (o.closing ≠ none → run = .next (settle (pageSettled spoiled h))) ∧
        (o.closing = none → h.attempt ≠ 1 → run = .next (settle (endOrder spoiled o.number .printer))) ∧
        (o.closing = none → h.attempt = 1 → h.noRetry = true → run = .next (settle (pageSettled spoiled h))) ∧
        (o.closing = none → h.attempt = 1 → h.noRetry = false → run = .next (settle (State.modOrder
          { spoiled with port := { s.port with inHand := none, out := [] } } o.number fun x =>
            match h.kind with
            | .data => { x with retry := some h.page }
            | .stamp => { x with stampRetry := true }
            | .void => { x with voidRetry := true }))))

/-- The page in hand is settled: an order that is closing ends for its reason; otherwise the port has no page in hand, the
page's staging is freed, a PLAIN set with nothing left passes to the next, and an order with nothing left ends DONE, the last
set of a PLAIN order being its usual end (R154, R160). -/
def Sys2Proof.SettledPageGoesOn : Prop :=
  ∀ (s : State) (h : PageInHand) (o : Order), s.findOrder h.order = some o → s.port.inHand = some h →
    let gone := if h.kind = .data then dropCopyPage s h.order h.set h.page else s
    let free := { gone with port := { s.port with inHand := none, out := [] } }
    (∀ why, o.closing = some why → pageSettled s h = endOrder gone h.order why.toEnd) ∧
    (o.closing = none →
      (o.plainSetOver = false → o.finished = false → pageSettled s h = free) ∧
      (o.plainSetOver = false → o.finished = true → pageSettled s h = endOrder free h.order .done) ∧
      (o.plainSetOver = true →
        (o.nextSet.finished = false → pageSettled s h = free.modOrder h.order Order.nextSet) ∧
        (o.nextSet.finished = true → pageSettled s h = endOrder (free.modOrder h.order Order.nextSet) h.order .done)))

/-- The printer's answers. -/
def Obligations.PrinterAnswerSettlesThePage : Prop := AnswerByPage ∧ SettledPageGoesOn

/-- The printer's status frames by the table of R159, and the frames that are discarded (R202); a holder that is closing keeps its
state. -/
def Sys2Proof.PrinterStatusByState : Prop :=
  ∀ s : State, s.powered = true →
    let notice := fun (st : PrinterState) => notify { s with port := { s.port with printer := st } } .printer none
      (be 1 st.code ++ be 1 1 ++ optNum 1 s.port.holder)
    (s.port.printer = .ready → exec (.printerStatus 1) s = .next (settle s)) ∧
    (s.port.printer = .notReady → exec (.printerStatus 2) s = .next (settle s)) ∧
    (s.port.printer = .fault → exec (.printerStatus 3) s = .next (settle s)) ∧
    (s.port.printer = .fault → exec (.printerStatus 1) s = .next (settle (notice .ready))) ∧
    (s.port.printer = .fault → exec (.printerStatus 2) s = .next (settle (notice .notReady))) ∧
    (s.port.printer = .ready → exec (.printerStatus 2) s = .next (settle
      (setLimit (setHolderState (notice .notReady) fun o => if o.closing.isSome then o.state else .suspended) .running
        .stopped))) ∧
    (s.port.printer = .notReady → exec (.printerStatus 1) s = .next (settle
      (setLimit (setHolderState (notice .ready) fun o => if o.closing.isSome then o.state else .active) .stopped .running))) ∧
    (s.port.printer ≠ .fault → s.port.holder = none → exec (.printerStatus 3) s = .next (settle (notice .fault))) ∧
    (∀ n o, s.port.printer ≠ .fault → s.port.holder = some n → s.findOrder n = some o → exec (.printerStatus 3) s =
      .next (settle (endOrder (notice .fault) n ((o.closing.map Closing.toEnd).getD .printer)))) ∧
    (∀ b : Byte, b = 0 ∨ 3 < b.toNat → exec (.printerStatus b) s = .next (settle s)) ∧
    ∀ bytes, exec (.printerFrameBad bytes) s = .next s

/-- The answer limit expires: the printer goes to FAULT with cause TIMEOUT and the holder ends; a limit that does not run does
nothing itself (R155, R159; log 5). -/
def Sys2Proof.AnswerTimeoutFaultsThePrinter : Prop :=
  ∀ (s : State) (h : PageInHand), s.powered = true → s.port.inHand = some h →
    (∀ n o, h.limit = .running → s.port.holder = some n → s.findOrder n = some o → exec .answerTimeout s =
      .next (settle (endOrder (notify { s with port := { s.port with
          printer := .fault, inHand := some { h with limit := .expired } } } .printer none (be 1 3 ++ be 1 2 ++ be 1 n)) n
        ((o.closing.map Closing.toEnd).getD .printer)))) ∧
    (h.limit ≠ .running → exec .answerTimeout s = .next (settle s))

/-- The printer states. -/
def Obligations.PrinterStateChanges : Prop := PrinterStatusByState ∧ AnswerTimeoutFaultsThePrinter

/-- An order that ends leaves the table, and the port; its item leaves the Work List, its staged pages' blocks are freed; the other
orders keep their entries, and the accounts, tallies, rates, filings, staged bytes and the fetch records' number stay (R160). -/
def Sys2Proof.EndedOrderIsGone : Prop :=
  ∀ (s : State) (n : Nat) (why : OrderEnd) (o : Order), s.findOrder n = some o → let t := endOrder s n why
    t.findOrder n = none ∧ t.port.holder ≠ some n ∧
    t.orders.map Order.number = (s.orders.map Order.number).filter (fun m => m != n) ∧
    t.ret.accounts = s.ret.accounts ∧ t.ret.cash = s.ret.cash ∧ t.ret.fees = s.ret.fees ∧ t.mem = s.mem ∧
    t.filings = s.filings ∧ t.fetches.length = s.fetches.length ∧
    (∀ id, o.item = some id → (∀ i ∈ s.work, i.id = id → i.state ≠ .active) →
      ∀ i ∈ t.work, i.id ≠ id) ∧
    (o.inProgress = false → o.item = none → ∀ q ∈ o.pages, q.outcome = .staged → ∀ c ∈ t.claims, c.id = q.claim →
      c.blocks ≠ none → ∀ b ∈ q.blocks, b ∉ c.live)

/-- COPY_DONE and COPY_FAILED, with the order's counts and amount; COPY_FAILED ends with the set and page at which printing stopped
(R160, R200; log 11 for the last two). -/
def Sys2Proof.EndedOrderIsReported : Prop :=
  ∀ (s : State) (n : Nat) (o : Order), s.findOrder n = some o → o.inProgress = false → noticeCount s < 32 →
    let fields := fun (code : Nat) => be 1 o.number ++ be 4 o.doc ++ be 1 (if o.cert then 2 else 1) ++ be 1 o.sets ++
      be 1 o.payer ++ be 1 code ++ be 2 o.charged ++ be 2 o.spoiled ++ be 1 o.setsDone ++ be 1 o.setsVoided ++ be 4 o.amount
    let stop := be 1 (stopPoint s o).1 ++ be 1 (stopPoint s o).2
    let ends := fun (why : OrderEnd) (kind : NoticeKind) (l : List Byte) =>
      (endOrder s n why).control = s.control ++ [.notice ⟨kind, some (o.tag, o.station), l⟩]
    ends .done .copyDone (fields 1) ∧ ends .cancelled .copyDone (fields 2) ∧
      ends .printer .copyFailed (fields 1 ++ stop) ∧ ends .media .copyFailed (fields 2 ++ stop) ∧
      ends .unavailable .copyFailed (fields 3 ++ stop) ∧ (endOrder s n .cancelledSilent).control = s.control

/-- A certified set in progress is voided as its order ends: its pending charge is discarded, and the order and the day count it
(R141, R157, R160). -/
def Sys2Proof.SetInProgressIsVoided : Prop :=
  ∀ (s : State) (n : Nat) (o : Order), s.findOrder n = some o →
    (o.inProgress = false → voidSet s n = s) ∧
    (o.inProgress = true → let t := voidSet s n
      t.ret = { s.ret with counts := { s.ret.counts with voidedSets := s.ret.counts.voidedSets + 1 } } ∧
      ∃ p, t.findOrder n = some p ∧ p.pendingCharge = 0 ∧ p.toSend = [] ∧ p.retry = none ∧ p.voidOwed = true ∧
        p.setsVoided = o.setsVoided + 1 ∧ p.hold = o.hold ∧ p.charged = o.charged ∧ p.amount = o.amount)

/-- Orders that end. -/
def Obligations.EndedOrderLeavesTableAndPort : Prop := EndedOrderIsGone ∧ EndedOrderIsReported ∧ SetInProgressIsVoided
end

