-- ==== Sys2Proof/Laws/Retained.lean ====
section
/-! SUPPORT. `Kept`: what the mode and the Retained Store keep from one state to a later one outside REBUILD, and one lemma
for each kind of update the units make. -/

namespace Sys2Proof.Machine

/-- Outside REBUILD the store stays lawful and grows; the Withheld Table keeps its size. -/
def Kept (m : Mode) (r : Retained) (m' : Mode) (r' : Retained) : Prop :=
  (r.withheld.length = Config.withheldCount → r'.withheld.length = Config.withheldCount) ∧
    (m ≠ .rebuild → m' ≠ .rebuild ∧ (Lawful r → Lawful r' ∧ Grows r r'))

theorem Grows.refl (r : Retained) : Grows r r :=
  ⟨fun _ => ⟨le_rfl, le_rfl, le_rfl⟩, fun _ _ h => h, le_rfl, fun _ h k => absurd k (Nat.not_lt.mpr h)⟩

theorem Grows.trans {a b c : Retained} (h : Grows a b) (k : Grows b c) : Grows a c where
  pointers n := ⟨(h.pointers n).1.trans (k.pointers n).1, (h.pointers n).2.1.trans (k.pointers n).2.1,
    (h.pointers n).2.2.trans (k.pointers n).2.2⟩
  numbers n d e := k.numbers n d (h.numbers n d e)
  next := h.next.trans k.next
  given d h1 h2 := by
    by_cases hb : d < b.nextDoc
    · obtain ⟨n, hn⟩ := h.given d h1 hb
      exact ⟨n, k.numbers n d hn⟩
    · exact k.given d (Nat.not_lt.mp hb) h2

theorem Kept.refl (m : Mode) (r : Retained) : Kept m r m r := ⟨id, fun h => ⟨h, fun l => ⟨l, Grows.refl r⟩⟩⟩

theorem Kept.trans {m1 m2 m3 : Mode} {a b c : Retained} (h : Kept m1 a m2 b) (k : Kept m2 b m3 c) : Kept m1 a m3 c :=
  ⟨fun e => k.1 (h.1 e), fun e =>
    have h2 := h.2 e
    have k2 := k.2 h2.1
    ⟨k2.1, fun l =>
      have h3 := h2.2 l
      have k3 := k2.2 h3.1
      ⟨k3.1, h3.2.trans k3.2⟩⟩⟩

/-- A change of the mode alone, to another than REBUILD. -/
theorem Kept.mode {m m' : Mode} (r : Retained) (h : m' ≠ .rebuild) : Kept m r m' r :=
  ⟨id, fun _ => ⟨h, fun l => ⟨l, Grows.refl r⟩⟩⟩

/-- In REBUILD any update is made. -/
theorem Kept.rebuild {r r' : Retained} {m' : Mode}
    (h : r.withheld.length = Config.withheldCount → r'.withheld.length = Config.withheldCount) : Kept .rebuild r m' r' :=
  ⟨h, fun e => absurd rfl e⟩

/-! ### Entries of an updated table -/

theorem tget_of_tset {α : Type} (t : List α) (i j : Nat) (x d : α) :
    tget (tset t i x) j d = if i = j ∧ i ≠ 0 ∧ i ≤ t.length then x else tget t j d := by
  cases i with
  | zero => simp [tset]
  | succ i =>
    cases j with
    | zero => simp [tget]
    | succ j =>
      simp only [tget, tset, List.getD_eq_getElem?_getD, List.getElem?_set]
      by_cases h : i = j
      · subst h
        by_cases h2 : i < t.length
        · simp [h2, Nat.succ_le_of_lt h2]
        · simp [h2]
      · simp [h]

theorem tget_outside {α : Type} (t : List α) (i : Nat) (d : α) (h : i = 0 ∨ t.length < i) : tget t i d = d := by
  cases i with
  | zero => rfl
  | succ i => simp only [tget, List.getD_eq_getElem?_getD, List.getElem?_eq_none (show t.length ≤ i by omega), Option.getD_none]

/-- What the laws see of two stores is the same. -/
theorem Kept.same {m : Mode} {r r' : Retained} (hs : r'.sides = r.sides) (hc : r'.carts = r.carts)
    (hd : ∀ n, r'.disabled n = r.disabled n) (hn : r'.nextDoc = r.nextDoc) (hw : r'.withheld.length = r.withheld.length) :
    Kept m r m r' := by
  have e : ∀ n, r'.side n = r.side n := fun n => by simp only [Retained.side, hs]
  have f : ∀ n, r'.cart n = r.cart n := fun n => by simp only [Retained.cart, hc]
  refine ⟨fun h => hw.trans h, fun h => ⟨h, fun l => ⟨⟨⟨hn.ge.trans' l.1.next, ?_, ?_, ?_, ?_, ?_, ?_, fun n => by rw [e n]; exact l.1.marks n⟩, ⟨?_, ?_, ?_⟩⟩, ⟨?_, ?_, ?_, ?_⟩⟩⟩⟩
  · simpa only [e] using l.1.oneOpen
  · simpa only [e] using l.1.blank
  · simpa only [e, f] using l.1.unassigned
  · simpa only [e, hn] using l.1.runs
  · simpa only [e] using l.1.disjoint
  · simpa only [e, hn] using l.1.openLast
  · simpa only [f] using l.2.home
  · simpa only [f] using l.2.oneHome
  · simpa only [f, hd] using l.2.enabled
  · simp only [e, le_refl, and_self, implies_true]
  · intro n d h; rwa [e]
  · exact hn.ge
  · intro d h1 h2; omega

theorem Retained.disabled_occ (r : Retained) (n : Nat) (o : Occupant) (m : Nat) :
    ({ r with slots := tset r.slots n { tget r.slots n ⟨.empty, true⟩ with occ := o } } : Retained).disabled m = r.disabled m := by
  simp only [Retained.disabled, tget_of_tset]
  split
  · next h => rw [h.1]
  · rfl

/-- The records keep their homes, and WITHDRAWN ones stay so. -/
theorem Kept.carts {m : Mode} {r r' : Retained} (hs : r'.sides = r.sides) (hn : r'.nextDoc = r.nextDoc)
    (hw : r'.withheld = r.withheld) (hd : ∀ n, r'.disabled n = r.disabled n)
    (hc : ∀ c, match r.cart c with
      | none => r'.cart c = none
      | some k => ∃ k', r'.cart c = some k' ∧ k'.home = k.home ∧ (k'.state = .withdrawn ↔ k.state = .withdrawn)) :
    Kept m r m r' := by
  have e : ∀ n, r'.side n = r.side n := fun n => by simp only [Retained.side, hs]
  have f : ∀ c k', r'.cart c = some k' → ∃ k, r.cart c = some k ∧ k'.home = k.home ∧ (k'.state = .withdrawn ↔ k.state = .withdrawn) :=
    fun c k' h => by
      have := hc c
      cases x : r.cart c with
      | none => rw [x] at this; rw [this] at h; cases h
      | some k =>
        rw [x] at this
        obtain ⟨q, h1, h2⟩ := this
        rw [h1] at h
        cases h
        exact ⟨k, rfl, h2⟩
  refine ⟨fun h => by rw [hw]; exact h, fun h => ⟨h, fun l => ⟨⟨⟨hn.ge.trans' l.1.next, ?_, ?_, ?_, ?_, ?_, ?_, fun n => by rw [e n]; exact l.1.marks n⟩, ⟨?_, ?_, ?_⟩⟩, ⟨?_, ?_, hn.ge, ?_⟩⟩⟩⟩
  · simpa only [e] using l.1.oneOpen
  · simpa only [e] using l.1.blank
  · intro n hx
    rw [e]
    apply l.1.unassigned
    have := hc (sideCart n)
    cases y : r.cart (sideCart n) with
    | none => rfl
    | some k => rw [y] at this; obtain ⟨q, h1, _⟩ := this; rw [hx] at h1; cases h1
  · simpa only [e, hn] using l.1.runs
  · simpa only [e] using l.1.disjoint
  · simpa only [e, hn] using l.1.openLast
  · intro c k' hk
    obtain ⟨k, h1, h2, h3⟩ := f c k' hk
    rw [h2, h3]
    exact l.2.home c k h1
  · intro a b p q x ha hb hp hq
    obtain ⟨p', a1, a2, _⟩ := f a p ha
    obtain ⟨q', b1, b2, _⟩ := f b q hb
    exact l.2.oneHome a b p' q' x a1 b1 (a2 ▸ hp) (b2 ▸ hq)
  · intro c k' x hk hx
    obtain ⟨k, h1, h2, _⟩ := f c k' hk
    rw [hd]
    exact l.2.enabled c k x h1 (h2 ▸ hx)
  · simp only [e, le_refl, and_self, implies_true]
  · intro n d h; rwa [e]
  · intro d x y; omega

/-- An update of one side that keeps its run and opens nothing. -/
theorem Kept.side {m : Mode} {r r' : Retained} (n : Nat) (e : Side) (hs : r'.sides = tset r.sides n e)
    (hc : r'.carts = r.carts) (hd : r'.slots = r.slots) (hn : r'.nextDoc = r.nextDoc)
    (hw : r'.withheld = r.withheld) (he : Lawful r → (r.cart (sideCart n) = none → e = Side.blank) ∧
      (e.state = .opened → (r.side n).state = .opened) ∧ (e.state = .blank → e = Side.blank) ∧
      (e.first = (r.side n).first ∧ e.last = (r.side n).last ∧ e.count = (r.side n).count) ∧
      ((e.closeReason.isSome = true ↔ e.state = .closed) ∧ (e.closedPending = true → e.state = .closed)) ∧
      (r.side n).writePtr ≤ e.writePtr ∧ (r.side n).spareUsed ≤ e.spareUsed ∧ (r.side n).slotsUsed ≤ e.slotsUsed) :
    Kept m r m r' := by
  refine ⟨fun h => by rw [hw]; exact h, fun h => ⟨h, fun l => ?_⟩⟩
  obtain ⟨h1, h2, h3, h4, h4b, h5⟩ := he l
  have g : ∀ k, r'.side k = r.side k ∨ (k = n ∧ r'.side k = e) := fun k => by
    simp only [Retained.side, hs, tget_of_tset]
    split
    · next x => exact Or.inr ⟨x.1.symm, rfl⟩
    · exact Or.inl rfl
  have f : ∀ k, r'.cart k = r.cart k := fun k => by simp only [Retained.cart, hc]
  have hold : ∀ k d, (r'.side k).holds d ↔ (r.side k).holds d := fun k d => by
    rcases g k with x | ⟨rfl, x⟩ <;> simp only [x, Side.holds, h4.1, h4.2.1]
  have op : ∀ k, (r'.side k).state = .opened → (r.side k).state = .opened := fun k hk => by
    rcases g k with x | ⟨rfl, x⟩
    · rwa [x] at hk
    · rw [x] at hk; exact h2 hk
  refine ⟨⟨⟨hn.ge.trans' l.1.next, ?_, ?_, ?_, ?_, ?_, ?_, fun k => by rcases g k with x | ⟨rfl, x⟩ <;> rw [x]; exacts [l.1.marks k, h4b]⟩, ⟨?_, ?_, ?_⟩⟩, ⟨?_, ?_, ?_, ?_⟩⟩
  · exact fun a b ha hb => l.1.oneOpen a b (op a ha) (op b hb)
  · intro k hk
    rcases g k with x | ⟨rfl, x⟩
    · rw [x] at hk ⊢; exact l.1.blank k hk
    · rw [x] at hk ⊢; exact h3 hk
  · intro k hk
    rw [f] at hk
    rcases g k with x | ⟨rfl, x⟩
    · rw [x]; exact l.1.unassigned k hk
    · rw [x]; exact h1 hk
  · intro k
    have := l.1.runs k
    rw [hn]
    rcases g k with x | ⟨rfl, x⟩
    · rwa [x]
    · rw [x]; simpa only [Side.runOk, h4.1, h4.2.1, h4.2.2] using this
  · intro a b d ha hb
    exact l.1.disjoint a b d ((hold a d).1 ha) ((hold b d).1 hb)
  · intro k z hk hz
    rw [hn]
    rcases g k with x | ⟨rfl, x⟩
    · rw [x] at hk hz; exact l.1.openLast k z hk hz
    · rw [x, h4.2.1] at hz; exact l.1.openLast k z (op k hk) hz
  · simpa only [f] using l.2.home
  · simpa only [f] using l.2.oneHome
  · simpa only [f, Retained.disabled, hd] using l.2.enabled
  · intro k
    rcases g k with x | ⟨rfl, x⟩
    · rw [x]; exact ⟨le_rfl, le_rfl, le_rfl⟩
    · rw [x]; exact h5
  · exact fun k d hk => (hold k d).2 hk
  · exact hn.ge
  · intro d x y; omega

/-- A BLANK side is opened while none is OPEN (R12). -/
theorem Kept.opened {m : Mode} {r r' : Retained} (n day : Nat)
    (hs : r'.sides = tset r.sides n { Side.blank with state := .opened, openedDay := some day })
    (hc : r'.carts = r.carts) (hd : r'.slots = r.slots) (hn : r'.nextDoc = r.nextDoc) (hw : r'.withheld = r.withheld)
    (hb : (r.side n).state = .blank) (ha : r.cart (sideCart n) ≠ none) (ho : ∀ k, (r.side k).state ≠ .opened) :
    Kept m r m r' := by
  refine ⟨fun h => by rw [hw]; exact h, fun h => ⟨h, fun l => ?_⟩⟩
  have eb := l.1.blank n hb
  have g : ∀ k, r'.side k = r.side k ∨ (k = n ∧ r'.side k = { Side.blank with state := .opened, openedDay := some day }) :=
    fun k => by
      simp only [Retained.side, hs, tget_of_tset]
      split
      · next x => exact Or.inr ⟨x.1.symm, rfl⟩
      · exact Or.inl rfl
  have f : ∀ k, r'.cart k = r.cart k := fun k => by simp only [Retained.cart, hc]
  have hold : ∀ k d, (r'.side k).holds d ↔ (r.side k).holds d := fun k d => by
    rcases g k with x | ⟨rfl, x⟩
    · rw [x]
    · rw [x, eb]; simp [Side.holds, Side.blank]
  have op : ∀ k, (r'.side k).state = .opened → k = n := fun k hk => by
    rcases g k with x | ⟨rfl, x⟩
    · rw [x] at hk; exact absurd hk (ho k)
    · rfl
  refine ⟨⟨⟨hn.ge.trans' l.1.next, ?_, ?_, ?_, ?_, ?_, ?_, fun k => by rcases g k with x | ⟨rfl, x⟩ <;> rw [x]; exacts [l.1.marks k, by simp [Side.blank]]⟩, ⟨?_, ?_, ?_⟩⟩, ⟨?_, ?_, ?_, ?_⟩⟩
  · exact fun a b ha hb => (op a ha).trans (op b hb).symm
  · intro k hk
    rcases g k with x | ⟨rfl, x⟩
    · rw [x] at hk ⊢; exact l.1.blank k hk
    · rw [x] at hk; simp at hk
  · intro k hk
    rw [f] at hk
    rcases g k with x | ⟨rfl, x⟩
    · rw [x]; exact l.1.unassigned k hk
    · exact absurd hk ha
  · intro k
    have := l.1.runs k
    rw [hn]
    rcases g k with x | ⟨rfl, x⟩
    · rwa [x]
    · rw [x]; exact Or.inl ⟨rfl, rfl, rfl⟩
  · exact fun a b d ha hb => l.1.disjoint a b d ((hold a d).1 ha) ((hold b d).1 hb)
  · intro k z hk hz
    obtain rfl := op k hk
    rcases g k with x | ⟨_, x⟩
    · rw [x] at hk; exact absurd hk (ho k)
    · rw [x] at hz; simp [Side.blank] at hz
  · simpa only [f] using l.2.home
  · simpa only [f] using l.2.oneHome
  · simpa only [f, Retained.disabled, hd] using l.2.enabled
  · intro k
    rcases g k with x | ⟨rfl, x⟩
    · rw [x]; exact ⟨le_rfl, le_rfl, le_rfl⟩
    · rw [eb, x]; exact ⟨le_rfl, le_rfl, le_rfl⟩
  · exact fun k d hk => (hold k d).2 hk
  · exact hn.ge
  · intro d x y; omega

/-- The commit gives the next document number to the OPEN side (R1, R2, R124). -/
theorem Kept.commit {m : Mode} {r r' : Retained} (n : Nat)
    (hs : r'.sides = tset r.sides n { r.side n with
      first := some ((r.side n).first.getD r.nextDoc), last := some r.nextDoc, count := (r.side n).count + 1,
      slotsUsed := (r.side n).slotsUsed + 1 })
    (hc : r'.carts = r.carts) (hd : r'.slots = r.slots) (hn : r'.nextDoc = r.nextDoc + 1)
    (hw : r'.withheld.length = r.withheld.length) (ho : (r.side n).state = .opened) : Kept m r m r' := by
  refine ⟨fun h => hw.trans h, fun h => ⟨h, fun l => ?_⟩⟩
  have hr : n ≠ 0 ∧ n ≤ r.sides.length := by
    by_contra hx
    have : r.side n = Side.blank := tget_outside _ _ _ (by omega)
    rw [this] at ho
    simp [Side.blank] at ho
  have gn : r'.side n = { r.side n with
      first := some ((r.side n).first.getD r.nextDoc), last := some r.nextDoc, count := (r.side n).count + 1,
      slotsUsed := (r.side n).slotsUsed + 1 } := by
    simp only [Retained.side, hs, tget_of_tset, hr, ne_eq, not_false_eq_true, and_self, if_true]
  have go : ∀ k, k ≠ n → r'.side k = r.side k := fun k hk => by
    simp only [Retained.side, hs, tget_of_tset, Ne.symm hk, false_and, if_false]
  have f : ∀ k, r'.cart k = r.cart k := fun k => by simp only [Retained.cart, hc]
  have hst : (r'.side n).state = .opened := by rw [gn]; exact ho
  have op : ∀ k, (r'.side k).state = .opened → k = n := fun k hk => by
    by_contra hne
    rw [go k hne] at hk
    exact hne (l.1.oneOpen k n hk ho)
  have below : ∀ k d, (r.side k).holds d → d < r.nextDoc := fun k d ⟨a, z, h1, h2, h3, h4⟩ => by
    rcases l.1.runs k with x | ⟨a', z', e1, e2, _, _, e5, _⟩
    · rw [x.1] at h1; cases h1
    · rw [h2] at e2; cases e2; omega
  have hold : ∀ d, (r'.side n).holds d ↔ (r.side n).holds d ∨ d = r.nextDoc := fun d => by
    rw [gn]
    rcases l.1.runs n with x | ⟨a, z, e1, e2, e3, e4, e5, e6⟩
    · simp only [Side.holds, x.1, x.2.1, Option.getD_none, Option.some.injEq, reduceCtorEq, false_and, exists_false, false_or]
      constructor
      · rintro ⟨_, _, rfl, rfl, h1, h2⟩; omega
      · rintro rfl; exact ⟨_, _, rfl, rfl, le_rfl, le_rfl⟩
    · simp only [Side.holds, e1, e2, Option.getD_some, Option.some.injEq]
      constructor
      · rintro ⟨_, _, rfl, rfl, h1, h2⟩
        by_cases hz : d = r.nextDoc
        · exact Or.inr hz
        · exact Or.inl ⟨_, _, rfl, rfl, h1, by have := l.1.openLast n z ho e2; omega⟩
      · rintro (⟨_, _, rfl, rfl, h1, h2⟩ | rfl)
        · exact ⟨_, _, rfl, rfl, h1, by omega⟩
        · exact ⟨_, _, rfl, rfl, by omega, le_rfl⟩
  refine ⟨⟨⟨by omega, ?_, ?_, ?_, ?_, ?_, ?_, fun k => by
    by_cases hkn : k = n
    · subst hkn; rw [gn]; exact l.1.marks k
    · rw [go k hkn]; exact l.1.marks k⟩, ⟨?_, ?_, ?_⟩⟩, ⟨?_, ?_, ?_, ?_⟩⟩
  · exact fun a b ha hb => (op a ha).trans (op b hb).symm
  · intro k hk
    by_cases hkn : k = n
    · subst hkn; rw [hst] at hk; cases hk
    · rw [go k hkn] at hk ⊢; exact l.1.blank k hk
  · intro k hk
    rw [f] at hk
    by_cases hkn : k = n
    · subst hkn
      have := l.1.unassigned k hk
      rw [this] at ho; simp [Side.blank] at ho
    · rw [go k hkn]; exact l.1.unassigned k hk
  · intro k
    rw [hn]
    by_cases hkn : k = n
    · subst hkn
      rw [gn]
      rcases l.1.runs k with x | ⟨a, z, e1, e2, e3, e4, e5, e6⟩
      · exact Or.inr ⟨r.nextDoc, r.nextDoc, by simp [x.1], rfl, l.1.next, le_rfl, by omega, by simp [x.2.2]; omega⟩
      · have := l.1.openLast k z ho e2
        exact Or.inr ⟨a, r.nextDoc, by simp [e1], rfl, e3, by omega, by omega, by simp only; omega⟩
    · rw [go k hkn]
      rcases l.1.runs k with x | ⟨a, z, e1, e2, e3, e4, e5, e6⟩
      · exact Or.inl x
      · exact Or.inr ⟨a, z, e1, e2, e3, e4, by omega, e6⟩
  · intro a b d ha hb
    by_cases h1 : a = n <;> by_cases h2 : b = n
    · exact h1.trans h2.symm
    · subst h1
      rw [go b h2] at hb
      rcases (hold d).1 ha with x | rfl
      · exact l.1.disjoint a b d x hb
      · exact absurd (below b _ hb) (by omega)
    · subst h2
      rw [go a h1] at ha
      rcases (hold d).1 hb with x | rfl
      · exact l.1.disjoint a b d ha x
      · exact absurd (below a _ ha) (by omega)
    · rw [go a h1] at ha; rw [go b h2] at hb; exact l.1.disjoint a b d ha hb
  · intro k z hk hz
    obtain rfl := op k hk
    rw [gn] at hz
    cases hz
    exact hn.symm
  · simpa only [f] using l.2.home
  · simpa only [f] using l.2.oneHome
  · simpa only [f, Retained.disabled, hd] using l.2.enabled
  · intro k
    by_cases hkn : k = n
    · subst hkn; rw [gn]; exact ⟨le_rfl, le_rfl, Nat.le_succ _⟩
    · rw [go k hkn]; exact ⟨le_rfl, le_rfl, le_rfl⟩
  · intro k d hk
    by_cases hkn : k = n
    · subst hkn; exact (hold d).2 (Or.inl hk)
    · rw [go k hkn]; exact hk
  · omega
  · intro d x y
    exact ⟨n, (hold d).2 (Or.inr (by omega))⟩

/-- A record in use takes another state: its home slot stays, or goes, or is one that was free (R24, R28, R29). -/
theorem Kept.cart {m : Mode} {r r' : Retained} (c : Nat) (k k' : Cart) (hc : r'.carts = tset r.carts c (some k'))
    (hs : r'.sides = r.sides) (hd : r'.slots = r.slots) (hn : r'.nextDoc = r.nextDoc) (hw : r'.withheld = r.withheld)
    (ho : r.cart c = some k) (he : CartLaw r → (k'.home = none ↔ k'.state = .withdrawn) ∧
      ∀ h, k'.home = some h → k.home = some h ∨
        (r.disabled h = false ∧ ∀ d l, r.cart d = some l → l.home ≠ some h)) : Kept m r m r' := by
  refine ⟨fun h => by rw [hw]; exact h, fun h => ⟨h, fun l => ?_⟩⟩
  obtain ⟨h1, h2⟩ := he l.2
  have e : ∀ n, r'.side n = r.side n := fun n => by simp only [Retained.side, hs]
  have g : ∀ d, r'.cart d = r.cart d ∨ (d = c ∧ r'.cart d = some k') := fun d => by
    simp only [Retained.cart, hc, tget_of_tset]
    split
    · next x => exact Or.inr ⟨x.1.symm, rfl⟩
    · exact Or.inl rfl
  have dis : ∀ n, r'.disabled n = r.disabled n := fun n => by simp only [Retained.disabled, hd]
  refine ⟨⟨⟨hn.ge.trans' l.1.next, ?_, ?_, ?_, ?_, ?_, ?_, fun n => by rw [e n]; exact l.1.marks n⟩, ⟨?_, ?_, ?_⟩⟩, ⟨?_, ?_, hn.ge, ?_⟩⟩
  · simpa only [e] using l.1.oneOpen
  · simpa only [e] using l.1.blank
  · intro n hx
    rw [e]
    rcases g (sideCart n) with x | ⟨rfl, x⟩
    · rw [x] at hx; exact l.1.unassigned n hx
    · rw [x] at hx; cases hx
  · simpa only [e, hn] using l.1.runs
  · simpa only [e] using l.1.disjoint
  · simpa only [e, hn] using l.1.openLast
  · intro d q hq
    rcases g d with x | ⟨rfl, x⟩
    · rw [x] at hq; exact l.2.home d q hq
    · rw [x] at hq; cases hq; exact h1
  · intro a b p q h ha hb hp hq
    have key : ∀ {d q}, d ≠ c → r'.cart d = some q → q.home = some h → k'.home = some h → False := fun {d q} hne hq hh hk => by
      have : r.cart d = some q := by
        rcases g d with x | ⟨y, _⟩
        · rwa [← x]
        · exact absurd y hne
      rcases h2 h hk with x | ⟨_, x⟩
      · exact hne (l.2.oneHome d c q k h this ho hh x)
      · exact x d q this hh
    by_cases hac : a = c <;> by_cases hbc : b = c
    · exact hac.trans hbc.symm
    · rcases g a with x | ⟨_, x⟩
      · have hb' : r.cart b = some q := by
          rcases g b with y | ⟨y, _⟩
          · rwa [← y]
          · exact absurd y hbc
        exact l.2.oneHome a b p q h (x ▸ ha) hb' hp hq
      · rw [x] at ha; cases ha; exact (key hbc hb hq hp).elim
    · rcases g b with x | ⟨_, x⟩
      · have ha' : r.cart a = some p := by
          rcases g a with y | ⟨y, _⟩
          · rwa [← y]
          · exact absurd y hac
        exact l.2.oneHome a b p q h ha' (x ▸ hb) hp hq
      · rw [x] at hb; cases hb; exact (key hac ha hp hq).elim
    · have ha' : r.cart a = some p := by
        rcases g a with y | ⟨y, _⟩
        · rwa [← y]
        · exact absurd y hac
      have hb' : r.cart b = some q := by
        rcases g b with y | ⟨y, _⟩
        · rwa [← y]
        · exact absurd y hbc
      exact l.2.oneHome a b p q h ha' hb' hp hq
  · intro d q h hq hh
    rw [dis]
    rcases g d with x | ⟨rfl, x⟩
    · rw [x] at hq; exact l.2.enabled d q h hq hh
    · rw [x] at hq; cases hq
      rcases h2 h hh with y | y
      · exact l.2.enabled d k h ho y
      · exact y.1
  · simp only [e, le_refl, and_self, implies_true]
  · intro n d h; rwa [e]
  · intro d x y; omega

/-- A record not in use is given to a new cartridge, with a free slot for its home, and both its sides BLANK (R9, R41). -/
theorem Kept.newCart {m : Mode} {r r' : Retained} (c : Nat) (k : Cart) (h : Nat) (hc : r'.carts = tset r.carts c (some k))
    (hs : VolumeLaw r → ∀ n, r'.side n = r.side n) (hd : r'.slots = r.slots) (hn : r'.nextDoc = r.nextDoc)
    (hw : r'.withheld = r.withheld) (ho : r.cart c = none) (hk : k.home = some h) (hst : k.state ≠ .withdrawn)
    (hf : r.disabled h = false ∧ ∀ d l, r.cart d = some l → l.home ≠ some h) : Kept m r m r' := by
  refine ⟨fun h => by rw [hw]; exact h, fun hm => ⟨hm, fun l => ?_⟩⟩
  have e := hs l.1
  have g : ∀ d, r'.cart d = r.cart d ∨ (d = c ∧ r'.cart d = some k) := fun d => by
    simp only [Retained.cart, hc, tget_of_tset]
    split
    · next x => exact Or.inr ⟨x.1.symm, rfl⟩
    · exact Or.inl rfl
  have g2 : ∀ d q, r'.cart d = some q → r.cart d = some q ∨ (d = c ∧ q = k) := fun d q hq => by
    rcases g d with x | ⟨x, y⟩
    · exact Or.inl (x ▸ hq)
    · exact Or.inr ⟨x, by rw [y] at hq; exact (Option.some.inj hq).symm⟩
  have dis : ∀ n, r'.disabled n = r.disabled n := fun n => by simp only [Retained.disabled, hd]
  refine ⟨⟨⟨hn.ge.trans' l.1.next, ?_, ?_, ?_, ?_, ?_, ?_, fun n => by rw [e n]; exact l.1.marks n⟩, ⟨?_, ?_, ?_⟩⟩, ⟨?_, ?_, hn.ge, ?_⟩⟩
  · simpa only [e] using l.1.oneOpen
  · simpa only [e] using l.1.blank
  · intro n hx
    rw [e]
    rcases g (sideCart n) with x | ⟨_, x⟩
    · rw [x] at hx; exact l.1.unassigned n hx
    · rw [x] at hx; cases hx
  · simpa only [e, hn] using l.1.runs
  · simpa only [e] using l.1.disjoint
  · simpa only [e, hn] using l.1.openLast
  · intro d q hq
    rcases g2 d q hq with x | ⟨_, rfl⟩
    · exact l.2.home d q x
    · simp [hk, hst]
  · intro a b p q x ha hb hp hq
    rcases g2 a p ha with ha | ⟨rfl, rfl⟩ <;> rcases g2 b q hb with hb | ⟨rfl, rfl⟩
    · exact l.2.oneHome a b p q x ha hb hp hq
    · rw [hk] at hq; cases hq; exact absurd hp (hf.2 a p ha)
    · rw [hk] at hp; cases hp; exact absurd hq (hf.2 b q hb)
    · rfl
  · intro d q x hq hh
    rw [dis]
    rcases g2 d q hq with hq | ⟨rfl, rfl⟩
    · exact l.2.enabled d q x hq hh
    · rw [hk] at hh; cases hh; exact hf.1
  · simp only [e, le_refl, and_self, implies_true]
  · intro n d h; rwa [e]
  · intro d x y; omega

/-- A side that is not BLANK is a record's. -/
theorem Lawful.assigned {r : Retained} (l : Lawful r) {n : Nat} (h : (r.side n).state ≠ .blank) : r.cart (sideCart n) ≠ none :=
  fun x => h (by rw [l.1.unassigned n x]; rfl)

theorem tget_map_numbered {α : Type} (t : List α) (f : Nat × α → α) (d : α) (i : Nat) :
    tget ((numbered t).map f) i d = if i ≠ 0 ∧ i ≤ t.length then f (i, tget t i d) else d := by
  cases i with
  | zero => rfl
  | succ i =>
    simp only [tget, List.getD_eq_getElem?_getD]
    by_cases hl : i < t.length
    · rw [List.getElem?_eq_getElem (by simpa [numbered, upTo] using hl), Option.getD_some, List.getElem?_eq_getElem hl]
      simp [numbered, upTo, Nat.succ_le_of_lt hl]
    · rw [List.getElem?_eq_none (by simpa [numbered, upTo] using hl)]
      simp only [Option.getD_none]
      rw [if_neg (by omega)]

/-- Occupants set in a whole table of slots leave its marks (R29). -/
theorem Retained.disabled_zip (r : Retained) (occs : List Occupant) (h : occs.length = r.slots.length) (m : Nat) :
    ({ r with slots := (r.slots.zip occs).map fun e => { e.1 with occ := e.2 } } : Retained).disabled m = r.disabled m := by
  simp only [Retained.disabled]
  cases m with
  | zero => rfl
  | succ m =>
    simp only [tget, List.getD_eq_getElem?_getD, List.getElem?_map]
    by_cases hl : m < r.slots.length
    · rw [List.getElem?_eq_getElem (by simpa [h] using hl), List.getElem?_eq_getElem hl]
      simp
    · rw [List.getElem?_eq_none (by simpa [h] using hl), List.getElem?_eq_none (Nat.not_lt.mp hl)]
      rfl

theorem mem_numbered {α : Type} (t : List α) (i : Nat) (x d : α) (h : tget t i d = x) (hx : x ≠ d) : (i, x) ∈ numbered t := by
  cases i with
  | zero => exact absurd h.symm hx
  | succ i =>
    simp only [tget, List.getD_eq_getElem?_getD] at h
    by_cases hl : i < t.length
    · rw [List.getElem?_eq_getElem hl, Option.getD_some] at h
      refine List.mem_iff_getElem.2 ⟨i, by simpa [numbered, upTo] using hl, ?_⟩
      simp [numbered, upTo, h]
    · rw [List.getElem?_eq_none (Nat.not_lt.mp hl), Option.getD_none] at h
      exact absurd h.symm hx

/-- A slot that is home of no record (R28). -/
theorem homeOf_none {s : State} {h : Nat} (e : homeOf s h = none) (d : Nat) (l : Cart) (hl : s.ret.cart d = some l) :
    l.home ≠ some h := fun x => by
  simp only [homeOf, Option.map_eq_none_iff, List.find?_eq_none] at e
  have := e (d, some l) (mem_numbered _ _ _ none hl (by simp))
  simp [x] at this

/-- What a free slot is: not DISABLED, and the home of no record (R28). -/
theorem lowestFreeSlot_free {s : State} {h : Nat} (e : lowestFreeSlot s = some h) :
    s.ret.disabled h = false ∧ ∀ d l, s.ret.cart d = some l → l.home ≠ some h := by
  have := List.find?_some e
  simp only [slotFree, Bool.and_eq_true, Bool.not_eq_true', Option.isNone_iff_eq_none] at this
  exact ⟨this.1.2, homeOf_none this.2⟩

theorem anyOpened_false {s : State} (h : anyOpened s = false) (k : Nat) : (s.ret.side k).state ≠ .opened := fun x => by
  unfold Retained.side tget at x
  cases k with
  | zero => simp [Side.blank] at x
  | succ k =>
    simp only [List.getD_eq_getElem?_getD] at x
    by_cases hl : k < s.ret.sides.length
    · rw [List.getElem?_eq_getElem hl, Option.getD_some] at x
      simp only [anyOpened, List.any_eq_false, beq_iff_eq] at h
      exact h _ (List.getElem_mem hl) x
    · rw [List.getElem?_eq_none (Nat.not_lt.mp hl)] at x
      simp [Side.blank] at x

/-- The sides of a record not in use are blank, so setting them so changes none (R9). -/
theorem VolumeLaw.blanked {r : Retained} (l : VolumeLaw r) {c : Nat} (h : r.cart c = none) (n : Nat) :
    tget (tset (tset r.sides (sideOf c .a) Side.blank) (sideOf c .b) Side.blank) n Side.blank = r.side n := by
  have key : ∀ f, sideOf c f = n → n ≠ 0 → r.side n = Side.blank := fun f e hn =>
    l.unassigned n (by
      have : sideCart n = c := by
        subst e
        cases f <;> simp only [sideOf, sideCart] at hn ⊢ <;> omega
      rw [this, h])
  rw [tget_of_tset, tget_of_tset]
  split
  · next x => exact (key .b x.1 (x.1 ▸ x.2.1)).symm
  · split
    · next x => exact (key .a x.1 (x.1 ▸ x.2.1)).symm
    · rfl

end Sys2Proof.Machine
end

