-- ==== Sys2Proof/Laws/Places.lean ====
section
/-! SUPPORT. The place law (R27), the label law (R24, R25), the staging law (R77) and the rectification-capacity law (R131) over the
fields they rest on, and one lemma for each kind of update that keeps them. -/

namespace Sys2Proof.Machine

/-! ### Places -/

/-- `placeOcc` over the fields it reads. -/
def occAt (slots : List Slot) (drives : List Drive) (grip : Occupant) (mails : List Mail) : Place → Occupant
  | .slot n => (tget slots n ⟨.empty, true⟩).occ
  | .drive d => (tget drives d Drive.initial).occ
  | .gripper => grip
  | .mail m => (tget mails m Mail.initial).occ

/-- The place law over the fields it rests on. -/
structure Placed (slots : List Slot) (drives : List Drive) (grip : Occupant) (mails : List Mail) (carts : List (Option Cart)) :
    Prop where
  one : ∀ c p q, occAt slots drives grip mails p = .record c → occAt slots drives grip mails q = .record c → p = q
  inLib : ∀ c p, occAt slots drives grip mails p = .record c → ∃ k, tget carts c none = some k ∧ k.state = .inLibrary
  noMail : ∀ c m, occAt slots drives grip mails (.mail m) ≠ .record c

abbrev State.placed (s : State) : Prop := Placed s.ret.slots s.drives s.picker.gripper s.picker.mails s.ret.carts

theorem placeOcc_eq (s : State) (p : Place) : placeOcc s p = occAt s.ret.slots s.drives s.picker.gripper s.picker.mails p := by
  cases p <;> rfl

theorem cartInState_iff (s : State) (c : Nat) (x : CartState) :
    cartInState s c x = true ↔ ∃ k, tget s.ret.carts c none = some k ∧ k.state = x := by
  show (match tget s.ret.carts c none with | some k => k.state == x | none => false) = true ↔ _
  cases h : tget s.ret.carts c none <;> simp

theorem placeLaw_iff (s : State) : PlaceLaw s ↔ s.placed := by
  constructor
  · intro h
    refine ⟨fun c p q a b => h.one c p q ((placeOcc_eq s p).trans a) ((placeOcc_eq s q).trans b), fun c p a => ?_, h.noMail⟩
    exact (cartInState_iff s c _).1 (h.inLibrary c p ((placeOcc_eq s p).trans a))
  · intro h
    refine ⟨fun c p q a b => h.one c p q ((placeOcc_eq s p).symm.trans a) ((placeOcc_eq s q).symm.trans b), fun c p a => ?_, h.noMail⟩
    exact (cartInState_iff s c _).2 (h.inLib c p ((placeOcc_eq s p).symm.trans a))

/-- Occupants that go, or become unrecorded, keep the law; so does a record in use that stays IN_LIBRARY. -/
theorem Placed.mono {sl sl' : List Slot} {dr dr' : List Drive} {g g' : Occupant} {ma ma' : List Mail} {ca ca' : List (Option Cart)}
    (h : Placed sl dr g ma ca) (ho : ∀ p c, occAt sl' dr' g' ma' p = .record c → occAt sl dr g ma p = .record c)
    (hc : ∀ c p, occAt sl' dr' g' ma' p = .record c → (∃ k, tget ca c none = some k ∧ k.state = .inLibrary) →
      ∃ k, tget ca' c none = some k ∧ k.state = .inLibrary) : Placed sl' dr' g' ma' ca' :=
  ⟨fun c p q a b => h.one c p q (ho p c a) (ho q c b), fun c p a => hc c p a (h.inLib c p (ho p c a)),
    fun c m a => h.noMail c m (ho _ c a)⟩

/-- A record that is at no place is set at one. -/
theorem Placed.put {sl sl' : List Slot} {dr dr' : List Drive} {g g' : Occupant} {ma ma' : List Mail} {ca : List (Option Cart)}
    (h : Placed sl dr g ma ca) (at_ : Place) (hm : ∀ m, at_ ≠ .mail m)
    (ho : ∀ p c, p ≠ at_ → occAt sl' dr' g' ma' p = .record c → occAt sl dr g ma p = .record c)
    (hat : ∀ c, occAt sl' dr' g' ma' at_ = .record c → occAt sl dr g ma at_ = .record c ∨
      ((∀ p, occAt sl dr g ma p ≠ .record c) ∧ ∃ k, tget ca c none = some k ∧ k.state = .inLibrary)) :
    Placed sl' dr' g' ma' ca := by
  have key : ∀ c p q, occAt sl' dr' g' ma' p = .record c → occAt sl' dr' g' ma' q = .record c → p = at_ → q ≠ at_ → False := by
    intro c p q a b hp hq
    subst hp
    have hb := ho q c hq b
    rcases hat c a with h1 | h1
    · exact hq (h.one c q p hb h1)
    · exact h1.1 q hb
  refine ⟨fun c p q a b => ?_, fun c p a => ?_, fun c m a => h.noMail c m (ho _ c (fun e => hm m e.symm) a)⟩
  · by_cases hp : p = at_ <;> by_cases hq : q = at_
    · rw [hp, hq]
    · exact (key c p q a b hp hq).elim
    · exact (key c q p b a hq hp).elim
    · exact h.one c p q (ho p c hp a) (ho q c hq b)
  · by_cases hp : p = at_
    · subst hp
      rcases hat c a with h1 | h1
      · exact h.inLib c p h1
      · exact h1.2
    · exact h.inLib c p (ho p c hp a)

theorem tget_tset_other {α : Type} (t : List α) (i j : Nat) (x d : α) (h : i ≠ j) : tget (tset t i x) j d = tget t j d := by
  rw [tget_of_tset, if_neg fun e => h e.1]

theorem tget_tset_here {α : Type} (t : List α) (i : Nat) (x d : α) (h : 1 ≤ i) (hl : i ≤ t.length) : tget (tset t i x) i d = x := by
  rw [tget_of_tset, if_pos ⟨rfl, by omega, hl⟩]

theorem mem_upTo {n i : Nat} (h : i ∈ upTo n) : 1 ≤ i ∧ i ≤ n := by
  simp only [upTo, List.mem_map, List.mem_range] at h
  omega

/-- An entry in use is one of the table's. -/
theorem tget_some_range {α : Type} {t : List (Option α)} {i : Nat} {x : α} (h : tget t i none = some x) : 1 ≤ i ∧ i ≤ t.length := by
  by_contra hn
  have h0 : tget t i none = none := by
    unfold tget
    cases i with
    | zero => rfl
    | succ d => exact List.getD_eq_default _ _ (by omega)
  rw [h0] at h
  cases h

/-- An entry of an updated table: the new one, or as it was. -/
theorem tget_tset_or {α : Type} (t : List α) (i : Nat) (x d : α) : tget (tset t i x) i d = x ∨ tget (tset t i x) i d = tget t i d := by
  rw [tget_of_tset]
  split
  · exact .inl rfl
  · exact .inr rfl

theorem Placed.slot {s : State} (h : s.placed) (n : Nat) (e : Slot) (he : ∀ c, e.occ = .record c →
      (s.slot n).occ = .record c ∨ ((∀ p, placeOcc s p ≠ .record c) ∧ cartInState s c .inLibrary = true)) :
    Placed (tset s.ret.slots n e) s.drives s.picker.gripper s.picker.mails s.ret.carts := by
  refine Placed.put h (.slot n) (fun _ => Place.noConfusion) (fun p c hp a => ?_) fun c a => ?_
  · cases p with
    | slot m =>
      have hm : n ≠ m := fun e => hp (by rw [e])
      simpa only [occAt, tget_tset_other _ _ _ _ _ hm] using a
    | drive d => exact a
    | gripper => exact a
    | mail m => exact a
  · rcases tget_tset_or s.ret.slots n e ⟨.empty, true⟩ with h1 | h1
    · simp only [occAt, h1] at a
      rcases he c a with h2 | ⟨h2, h3⟩
      · exact .inl h2
      · exact .inr ⟨fun p => by rw [← placeOcc_eq]; exact h2 p, (cartInState_iff s c _).1 h3⟩
    · simp only [occAt, h1] at a
      exact .inl a

theorem Placed.drive {s : State} (h : s.placed) (d : Nat) (x : Drive)
    (hx : ∀ c, x.occ = .record c → (s.drive d).occ = .record c) :
    Placed s.ret.slots (tset s.drives d x) s.picker.gripper s.picker.mails s.ret.carts := by
  refine h.mono (fun p c a => ?_) fun _ _ _ => id
  cases p with
  | drive e =>
    by_cases he : d = e
    · subst he
      rcases tget_tset_or s.drives d x Drive.initial with h1 | h1
      · simp only [occAt, h1] at a
        exact hx c a
      · simpa only [occAt, h1] using a
    · simpa only [occAt, tget_tset_other _ _ _ _ _ he] using a
  | slot n => exact a
  | gripper => exact a
  | mail m => exact a

/-- A record at no place is set in drive `d`. -/
theorem Placed.putDrive {s : State} (h : s.placed) (d : Nat) (x : Drive)
    (hx : ∀ c, x.occ = .record c → (s.drive d).occ = .record c ∨
      ((∀ p, placeOcc s p ≠ .record c) ∧ cartInState s c .inLibrary = true)) :
    Placed s.ret.slots (tset s.drives d x) s.picker.gripper s.picker.mails s.ret.carts := by
  refine Placed.put h (.drive d) (fun _ => Place.noConfusion) (fun p c hp a => ?_) fun c a => ?_
  · cases p with
    | drive e =>
      have hm : d ≠ e := fun e => hp (by rw [e])
      simpa only [occAt, tget_tset_other _ _ _ _ _ hm] using a
    | slot n => exact a
    | gripper => exact a
    | mail m => exact a
  · rcases tget_tset_or s.drives d x Drive.initial with h1 | h1
    · simp only [occAt, h1] at a
      rcases hx c a with h2 | ⟨h2, h3⟩
      · exact .inl h2
      · exact .inr ⟨fun p => by rw [← placeOcc_eq]; exact h2 p, (cartInState_iff s c _).1 h3⟩
    · simp only [occAt, h1] at a
      exact .inl a

/-- A record at no place is set in the gripper. -/
theorem Placed.putGripper {s : State} (h : s.placed) (o : Occupant)
    (ho : ∀ c, o = .record c → (∀ p, placeOcc s p ≠ .record c) ∧ cartInState s c .inLibrary = true) :
    Placed s.ret.slots s.drives o s.picker.mails s.ret.carts := by
  refine Placed.put h .gripper (fun _ => Place.noConfusion) (fun p c hp a => ?_) fun c a => ?_
  · cases p with
    | gripper => exact absurd rfl hp
    | drive d => exact a
    | slot n => exact a
    | mail m => exact a
  · obtain ⟨h2, h3⟩ := ho c a
    exact .inr ⟨fun p => by rw [← placeOcc_eq]; exact h2 p, (cartInState_iff s c _).1 h3⟩

/-- What a change of the picker's own places leaves: no record comes into the gripper or a mail slot. -/
structure PickerQuiet (p q : Picker) : Prop where
  grip : ∀ c, q.gripper = .record c → p.gripper = .record c
  mails : ∀ m c, (tget q.mails m Mail.initial).occ = .record c → (tget p.mails m Mail.initial).occ = .record c

theorem PickerQuiet.same {p q : Picker} (hg : q.gripper = p.gripper) (hm : q.mails = p.mails) : PickerQuiet p q :=
  ⟨fun _ h => hg ▸ h, fun _ _ h => hm ▸ h⟩

theorem PickerQuiet.grips {p q : Picker} (hg : ∀ c, q.gripper ≠ .record c) (hm : q.mails = p.mails) : PickerQuiet p q :=
  ⟨fun c h => (hg c h).elim, fun _ _ h => hm ▸ h⟩

theorem PickerQuiet.mail {p : Picker} (m : Nat) (e : Mail)
    (he : ∀ c, e.occ = .record c → (tget p.mails m Mail.initial).occ = .record c) : PickerQuiet p { p with mails := tset p.mails m e } := by
  refine ⟨fun _ => id, fun k c h => ?_⟩
  by_cases hk : m = k
  · subst hk
    rcases tget_tset_or p.mails m e Mail.initial with h1 | h1
    · have h : (tget (tset p.mails m e) m Mail.initial).occ = .record c := h
      rw [h1] at h
      exact he c h
    · have h : (tget (tset p.mails m e) m Mail.initial).occ = .record c := h
      rwa [h1] at h
  · have h : (tget (tset p.mails m e) k Mail.initial).occ = .record c := h
    rwa [tget_tset_other _ _ _ _ _ hk] at h

theorem Placed.picker {s : State} (h : s.placed) (q : Picker) (hq : PickerQuiet s.picker q) :
    Placed s.ret.slots s.drives q.gripper q.mails s.ret.carts := by
  refine h.mono (fun p c a => ?_) fun _ _ _ => id
  cases p with
  | drive d => exact a
  | slot n => exact a
  | gripper => exact hq.grip c a
  | mail m => exact hq.mails m c a

theorem Placed.cart {s : State} (h : s.placed) (c : Nat) (k : Cart)
    (hk : k.state = .inLibrary ∨ ∀ p, placeOcc s p ≠ .record c) :
    Placed s.ret.slots s.drives s.picker.gripper s.picker.mails (tset s.ret.carts c (some k)) := by
  refine h.mono (fun _ _ => id) fun d p a e => ?_
  by_cases hd : c = d
  · subst hd
    rcases hk with hk | hk
    · rcases tget_tset_or s.ret.carts c (some k) none with h1 | h1
      · exact ⟨k, h1, hk⟩
      · rw [h1]; exact e
    · exact (hk p ((placeOcc_eq s p).trans a)).elim
  · rw [tget_tset_other _ _ _ _ _ hd]; exact e

/-- A record not in use is at no place. -/
theorem Placed.nowhere {s : State} (h : s.placed) {c : Nat} (hc : s.cart c = none) (p : Place) : placeOcc s p ≠ .record c := fun e => by
  obtain ⟨k, h1, _⟩ := h.inLib c p ((placeOcc_eq s p).symm.trans e)
  rw [show tget s.ret.carts c none = none from hc] at h1
  cases h1

/-- Nor is one that is not IN_LIBRARY. -/
theorem Placed.away {s : State} (h : s.placed) {c : Nat} {k : Cart} (hc : s.cart c = some k) (hk : k.state ≠ .inLibrary) (p : Place) :
    placeOcc s p ≠ .record c := fun e => by
  obtain ⟨k', h1, h2⟩ := h.inLib c p ((placeOcc_eq s p).symm.trans e)
  rw [show tget s.ret.carts c none = some k from hc] at h1
  cases h1
  exact hk h2

/-- A record at no place is taken into use or changed. -/
theorem Placed.newCart {s : State} (h : s.placed) (c : Nat) (k : Option Cart) (hc : ∀ p, placeOcc s p ≠ .record c) :
    Placed s.ret.slots s.drives s.picker.gripper s.picker.mails (tset s.ret.carts c k) := by
  refine h.mono (fun _ _ => id) fun d p a e => ?_
  by_cases hd : c = d
  · subst hd
    exact (hc p ((placeOcc_eq s p).trans a)).elim
  · rw [tget_tset_other _ _ _ _ _ hd]; exact e

/-! ### Labels -/

theorem LabelLaw.cart {s : State} (l : LabelsKept s) (c : Nat) (k k' : Cart) (hk : s.cart c = some k) (hb : k'.label = k.label) :
    LabelLaw (tset s.ret.carts c (some k')) s.ret.labelCounter s.drives := by
  have key : ∀ d x, tget (tset s.ret.carts c (some k')) d none = some x →
      ∃ y, tget s.ret.carts d none = some y ∧ x.label = y.label := by
    intro d x h
    by_cases hd : c = d
    · subst hd
      rcases tget_tset_or s.ret.carts c (some k') none with h1 | h1
      · rw [h1] at h
        cases h
        exact ⟨k, hk, hb⟩
      · rw [h1] at h
        exact ⟨x, h, rfl⟩
    · rw [tget_tset_other _ _ _ _ _ hd] at h
      exact ⟨x, h, rfl⟩
  refine ⟨fun d x h => ?_, fun d e x y h1 h2 h3 => ?_, fun d n h => ⟨(l.claimed d n h).1, fun e x hx => ?_⟩, l.claimedOnce⟩
  · obtain ⟨y, hy, e⟩ := key d x h
    rw [e]; exact l.below d y hy
  · obtain ⟨x', hx, e1⟩ := key d x h1
    obtain ⟨y', hy, e2⟩ := key e y h2
    exact l.once d e x' y' hx hy (by rw [← e1, ← e2, h3])
  · obtain ⟨y, hy, e⟩ := key e x hx
    rw [e]; exact (l.claimed d n h).2 _ y hy

theorem LabelLaw.drive {carts : List (Option Cart)} {n : Nat} {drives : List Drive} (l : LabelLaw carts n drives) (d : Nat) (x : Drive)
    (hx : x.task.newSerial = none ∨ x.task.newSerial = (tget drives d Drive.initial).task.newSerial) :
    LabelLaw carts n (tset drives d x) := by
  have key : ∀ e k, (tget (tset drives d x) e Drive.initial).task.newSerial = some k →
      (tget drives e Drive.initial).task.newSerial = some k := by
    intro e k h
    by_cases he : d = e
    · subst he
      rcases tget_tset_or drives d x Drive.initial with h1 | h1
      · rw [h1] at h
        rcases hx with hx | hx
        · rw [hx] at h; cases h
        · rw [← hx]; exact h
      · rwa [h1] at h
    · rwa [tget_tset_other _ _ _ _ _ he] at h
  exact ⟨l.below, l.once, fun e k h => l.claimed e k (key e k h), fun a b k h1 h2 => l.claimedOnce a b k (key a k h1) (key b k h2)⟩

/-- What a change of a drive leaves: no record comes into it, and it begins no NEW mark. -/
structure Quiet (x y : Drive) : Prop where
  occ : ∀ c, y.occ = .record c → x.occ = .record c
  task : y.task.newSerial = none ∨ y.task.newSerial = x.task.newSerial

theorem Quiet.same {x y : Drive} (ho : y.occ = x.occ) (ht : y.task = x.task) : Quiet x y :=
  ⟨fun _ h => ho ▸ h, .inr (by rw [ht])⟩

theorem Quiet.other {x y : Drive} (ho : y.occ = x.occ) (ht : y.task.newSerial = none) : Quiet x y := ⟨fun _ h => ho ▸ h, .inl ht⟩

theorem Quiet.serial {x y : Drive} (ho : y.occ = x.occ) (ht : y.task.newSerial = x.task.newSerial) : Quiet x y :=
  ⟨fun _ h => ho ▸ h, .inr ht⟩

theorem Quiet.out {x y : Drive} (ho : ∀ c, y.occ ≠ .record c) (ht : y.task = x.task) : Quiet x y :=
  ⟨fun c h => (ho c h).elim, .inr (by rw [ht])⟩

theorem Quiet.gone {x y : Drive} (ho : ∀ c, y.occ ≠ .record c) (ht : y.task.newSerial = none) : Quiet x y :=
  ⟨fun c h => (ho c h).elim, .inl ht⟩

/-- A NEW mark takes the counter's value (R25, R42). -/
theorem LabelLaw.claim {carts : List (Option Cart)} {n : Nat} {drives : List Drive} (l : LabelLaw carts n drives) (d : Nat) (x : Drive)
    (hx : x.task.newSerial = some n) : LabelLaw carts (n + 1) (tset drives d x) := by
  have key : ∀ e k, (tget (tset drives d x) e Drive.initial).task.newSerial = some k →
      (e = d ∧ k = n) ∨ (tget drives e Drive.initial).task.newSerial = some k := by
    intro e k h
    by_cases he : d = e
    · subst he
      rcases tget_tset_or drives d x Drive.initial with h1 | h1
      · rw [h1, hx] at h
        cases h
        exact .inl ⟨rfl, rfl⟩
      · rw [h1] at h
        exact .inr h
    · rw [tget_tset_other _ _ _ _ _ he] at h
      exact .inr h
  refine ⟨fun c k h => (l.below c k h).trans (Nat.lt_succ_self n), l.once, fun e k h => ?_, fun a b k h1 h2 => ?_⟩
  · rcases key e k h with ⟨rfl, rfl⟩ | h
    · exact ⟨Nat.lt_succ_self k, fun c k' h' e' => absurd (l.below c k' h') (by omega)⟩
    · exact ⟨(l.claimed e k h).1.trans (Nat.lt_succ_self n), (l.claimed e k h).2⟩
  · rcases key a k h1 with ⟨ha, hk⟩ | h1
    · rcases key b k h2 with ⟨hb, -⟩ | h2
      · rw [ha, hb]
      · exact absurd (l.claimed b k h2).1 (by omega)
    · rcases key b k h2 with ⟨-, hk⟩ | h2
      · exact absurd (l.claimed a k h1).1 (by omega)
      · exact l.claimedOnce a b k h1 h2

/-- The record of a verified NEW mark takes the label that was claimed for it (R42). -/
theorem LabelLaw.newCart {carts : List (Option Cart)} {n : Nat} {drives : List Drive} (l : LabelLaw carts n drives) (c d : Nat) (k : Cart)
    (x : Drive) (hd : (tget drives d Drive.initial).task.newSerial = some k.label) (hx : x.task.newSerial = none) :
    LabelLaw (tset carts c (some k)) n (tset drives d x) := by
  have hr : 1 ≤ d ∧ d ≤ drives.length := by
    by_contra hn
    have : tget drives d Drive.initial = Drive.initial := by
      unfold tget
      cases d with
      | zero => rfl
      | succ d => exact List.getD_eq_default _ _ (by omega)
    rw [this] at hd
    cases hd
  have kt : ∀ e m, (tget (tset drives d x) e Drive.initial).task.newSerial = some m →
      e ≠ d ∧ (tget drives e Drive.initial).task.newSerial = some m := by
    intro e m h
    by_cases he : d = e
    · subst he
      rw [tget_tset_here _ _ _ _ hr.1 hr.2, hx] at h
      cases h
    · rw [tget_tset_other _ _ _ _ _ he] at h
      exact ⟨fun e' => he e'.symm, h⟩
  have kc : ∀ e y, tget (tset carts c (some k)) e none = some y → (e = c ∧ y = k) ∨ tget carts e none = some y := by
    intro e y h
    by_cases he : c = e
    · subst he
      rcases tget_tset_or carts c (some k) none with h1 | h1
      · rw [h1] at h
        cases h
        exact .inl ⟨rfl, rfl⟩
      · rw [h1] at h
        exact .inr h
    · rw [tget_tset_other _ _ _ _ _ he] at h
      exact .inr h
  have hc := l.claimed d _ hd
  refine ⟨fun e y h => ?_, fun a b y z h1 h2 h3 => ?_, fun e m h => ?_, fun a b m h1 h2 => l.claimedOnce a b m (kt a m h1).2 (kt b m h2).2⟩
  · rcases kc e y h with ⟨-, rfl⟩ | h
    · exact hc.1
    · exact l.below e y h
  · rcases kc a y h1 with ⟨ha, hy⟩ | g1
    · rcases kc b z h2 with ⟨hb, -⟩ | g2
      · rw [ha, hb]
      · exact absurd (by rw [← h3, hy]) (hc.2 b z g2)
    · rcases kc b z h2 with ⟨-, hz⟩ | g2
      · exact absurd (by rw [h3, hz]) (hc.2 a y g1)
      · exact l.once a b y z g1 g2 h3
  · obtain ⟨he, h⟩ := kt e m h
    refine ⟨(l.claimed e m h).1, fun a y h1 h2 => ?_⟩
    rcases kc a y h1 with ⟨rfl, rfl⟩ | h1
    · exact he (l.claimedOnce e d m h (by rw [hd, h2]))
    · exact (l.claimed e m h).2 a y h1 h2

/-! ### Staging -/

/-- Claims that go, or whose blocks are freed, keep the staging law: `f` gives what is left of each. -/
theorem StagingLaw.shrink {l : List Claim} {n : Nat} (h : StagingLaw l n) (f : Claim → Option Claim)
    (hf : ∀ c d, f c = some d → d.id = c.id ∧ d.owner = c.owner ∧ (d.blocks = none → c.blocks = none) ∧ d.live.Sublist c.live) :
    StagingLaw (l.filterMap f) n := by
  have hid : ((l.filterMap f).map Claim.id).Sublist (l.map Claim.id) := by
    clear h
    induction l with
    | nil => exact List.Sublist.refl _
    | cons c cs ih =>
      cases hc : f c with
      | none => rw [List.filterMap_cons_none hc]; exact ih.cons _
      | some d =>
        rw [List.filterMap_cons_some hc]
        simp only [List.map_cons, (hf c d hc).1]
        exact ih.cons_cons _
  have hlive : ((l.filterMap f).flatMap Claim.live).Sublist (l.flatMap Claim.live) := by
    clear h hid
    induction l with
    | nil => exact List.Sublist.refl _
    | cons c cs ih =>
      cases hc : f c with
      | none => rw [List.filterMap_cons_none hc]; exact ih.trans (List.sublist_append_right _ _)
      | some d =>
        rw [List.filterMap_cons_some hc]
        simp only [List.flatMap_cons]
        exact (hf c d hc).2.2.2.append ih
  refine ⟨h.ids.sublist hid, fun c hc => ?_, fun c hc hb => ?_, h.disjoint.sublist hlive, fun b hb => h.range b (hlive.subset hb), ?_⟩
  · obtain ⟨x, hx, e⟩ := List.mem_filterMap.1 hc
    rw [(hf x c e).1]; exact h.fresh x hx
  · obtain ⟨x, hx, e⟩ := List.mem_filterMap.1 hc
    have := hf x c e
    have hw := h.waiting x hx (this.2.2.1 hb)
    have hs := this.2.2.2
    rw [hw] at hs
    exact List.sublist_nil.1 hs
  · refine le_trans ?_ h.filings
    clear hid hlive h
    induction l with
    | nil => exact le_rfl
    | cons c cs ih =>
      cases hc : f c with
      | none =>
        rw [List.filterMap_cons_none hc]
        refine ih.trans ?_
        simp only [List.filter_cons]
        split
        · simp only [List.map_cons, List.sum_cons]; omega
        · exact le_rfl
      | some d =>
        rw [List.filterMap_cons_some hc]
        have e := hf c d hc
        simp only [List.filter_cons, e.2.1]
        split
        · simp only [List.map_cons, List.sum_cons]
          have := e.2.2.2.length_le
          omega
        · exact ih

theorem StagingLaw.filter {l : List Claim} {n : Nat} (h : StagingLaw l n) (p : Claim → Bool) : StagingLaw (l.filter p) n := by
  rw [← List.filterMap_eq_filter]
  refine h.shrink _ fun c d e => ?_
  simp only [Option.guard] at e
  split at e
  · cases e; exact ⟨rfl, rfl, id, List.Sublist.refl _⟩
  · cases e

/-- No claim is left. -/
theorem StagingLaw.filter_nil {l : List Claim} {n : Nat} (h : StagingLaw l n) : StagingLaw [] n := by
  have := h.filter fun _ => false
  simpa using this

theorem StagingLaw.map {l : List Claim} {n : Nat} (h : StagingLaw l n) (f : Claim → Claim)
    (hf : ∀ c, (f c).id = c.id ∧ (f c).owner = c.owner ∧ (f c).blocks = c.blocks ∧ (f c).live = c.live) : StagingLaw (l.map f) n := by
  rw [← List.filterMap_eq_map]
  refine h.shrink _ fun c d e => ?_
  cases e
  have := hf c
  exact ⟨this.1, this.2.1, fun e => this.2.2.1 ▸ e, by simp [this.2.2.2]⟩

theorem StagingLaw.id_ {l : List Claim} {n m : Nat} (h : StagingLaw l n) (hm : n ≤ m) : StagingLaw l m :=
  ⟨h.ids, fun c hc => (h.fresh c hc).trans_le hm, h.waiting, h.disjoint, h.range, h.filings⟩

/-- A read-burst claim is asked and waits (R79). -/
theorem StagingLaw.ask {l : List Claim} {n : Nat} (h : StagingLaw l n) (c : Claim) (hi : c.id = n) (ho : c.owner.isFiling = false)
    (hl : c.live = []) : StagingLaw (l ++ [c]) (n + 1) := by
  refine ⟨?_, fun x hx => ?_, fun x hx hb => ?_, ?_, fun b hb => h.range b ?_, ?_⟩
  · rw [List.map_append, List.nodup_append]
    refine ⟨h.ids, by simp, ?_⟩
    intro a ha b hb
    obtain ⟨x, hx, rfl⟩ := List.mem_map.1 ha
    simp only [List.map_cons, List.map_nil, List.mem_singleton] at hb
    have := h.fresh x hx
    omega
  · rcases List.mem_append.1 hx with hx | hx
    · have := h.fresh x hx; omega
    · rw [List.mem_singleton.1 hx]; omega
  · rcases List.mem_append.1 hx with hx | hx
    · exact h.waiting x hx hb
    · rw [List.mem_singleton.1 hx]; exact hl
  · simpa [hl] using h.disjoint
  · simpa [hl] using hb
  · simpa [List.filter_append, List.filter_cons, ho] using h.filings

theorem freeBlocks_spec (s : State) : (freeBlocks s).Nodup ∧ ∀ b ∈ freeBlocks s, b < Config.stagingBlocks ∧ ∀ c ∈ s.claims, b ∉ c.live := by
  refine ⟨List.nodup_range.filter _, fun b hb => ?_⟩
  unfold freeBlocks at hb
  rw [List.mem_filter, List.mem_range] at hb
  refine ⟨hb.1, fun c hc hm => ?_⟩
  have := hb.2
  simp only [Bool.not_eq_true', List.any_eq_false] at this
  exact this c hc (by simpa using hm)

/-- The best-ranked waiting claim is granted free blocks (R79). -/
theorem StagingLaw.grant {s : State} (h : StagingKept s) (id m : Nat) (hw : ∀ c ∈ s.claims, c.id = id → c.owner.isFiling = false) :
    StagingLaw (s.claims.map fun (x : Claim) =>
      if x.id = id then { x with blocks := some ((freeBlocks s).take m), live := (freeBlocks s).take m } else x) s.nextId := by
  have hs := freeBlocks_spec s
  have htn : ((freeBlocks s).take m).Nodup := hs.1.sublist (List.take_sublist _ _)
  have htm : ∀ b ∈ (freeBlocks s).take m, b < Config.stagingBlocks ∧ ∀ c ∈ s.claims, b ∉ c.live := fun b hb => hs.2 b (List.mem_of_mem_take hb)
  generalize (freeBlocks s).take m = bs at *
  have hids : (s.claims.map fun (x : Claim) => if x.id = id then { x with blocks := some bs, live := bs } else x).map Claim.id =
      s.claims.map Claim.id := by
    rw [List.map_map]
    refine List.map_congr_left fun x _ => ?_
    simp only [Function.comp]
    split <;> rfl
  refine ⟨by rw [hids]; exact h.ids, fun c hc => ?_, fun c hc hb => ?_, ?_, fun b hb => ?_, ?_⟩
  · obtain ⟨x, hx, rfl⟩ := List.mem_map.1 hc
    have := h.fresh x hx
    split <;> exact this
  · obtain ⟨x, hx, rfl⟩ := List.mem_map.1 hc
    split at hb
    · cases hb
    · next hne => rw [if_neg hne]; exact h.waiting x hx hb
  · have hd := h.disjoint
    have hi := h.ids
    generalize s.claims = l at hd hi htm
    clear hids hw h hs
    rw [List.nodup_flatMap] at hd ⊢
    refine ⟨fun c hc => ?_, ?_⟩
    · obtain ⟨x, hx, rfl⟩ := List.mem_map.1 hc
      split
      · exact htn
      · exact hd.1 x hx
    · rw [List.pairwise_map]
      have hp := hd.2
      have hi' : l.Pairwise fun a b => a.id ≠ b.id := by
        have := hi
        rw [List.Nodup, List.pairwise_map] at this
        exact this
      have hmem : l.Pairwise fun a b => a ∈ l ∧ b ∈ l := by
        rw [List.pairwise_iff_forall_sublist]
        intro a b hab
        exact ⟨hab.subset (by simp), hab.subset (by simp)⟩
      refine ((hp.and hi').and hmem).imp ?_
      rintro a b ⟨⟨h1, h2⟩, h3, h4⟩
      by_cases ha : a.id = id <;> by_cases hb : b.id = id
      · exact (h2 (ha.trans hb.symm)).elim
      · simp only [ha, hb, if_true, if_false]
        intro x hx hy
        exact (htm x hx).2 b h4 hy
      · simp only [ha, hb, if_true, if_false]
        intro x hx hy
        exact (htm x hy).2 a h3 hx
      · simp only [ha, hb, if_false]
        exact h1
  · obtain ⟨c, hc, hbc⟩ := List.mem_flatMap.1 hb
    obtain ⟨x, hx, rfl⟩ := List.mem_map.1 hc
    split at hbc
    · exact (htm b hbc).1
    · exact h.range b (List.mem_flatMap.2 ⟨x, hx, hbc⟩)
  · refine le_trans (le_of_eq ?_) h.filings
    clear hids
    congr 1
    have : ∀ l : List Claim, (∀ c ∈ l, c.id = id → c.owner.isFiling = false) →
        ((l.map fun (x : Claim) => if x.id = id then { x with blocks := some bs, live := bs } else x).filter fun c => c.owner.isFiling).map
          (fun c => c.live.length) = (l.filter fun c => c.owner.isFiling).map fun c => c.live.length := by
      intro l
      induction l with
      | nil => intro _; rfl
      | cons c cs ih =>
        intro hl
        have ih := ih fun x hx => hl x (List.mem_cons_of_mem _ hx)
        simp only [List.map_cons, List.filter_cons]
        by_cases hc : c.id = id
        · simp only [hc, if_true, hl c (List.mem_cons_self ..) hc]
          simpa using ih
        · simp only [hc, if_false]
          split
          · simp only [List.map_cons, ih]
          · exact ih
    exact this s.claims hw

/-! ### Withheld-page entries -/

/-- Reservations that go, and a mode that is not set to REBUILD. -/
theorem ReserveLaw.sub {m m' : Mode} {l l' : List (Nat × Word32)} {w : List (Option Committed)} (h : ReserveLaw m l w)
    (hm : m' = .rebuild → m = .rebuild) (hl : l'.Sublist l) : ReserveLaw m' l' w :=
  ⟨fun e => List.sublist_nil.1 (h.rebuild (hm e) ▸ hl), h.once.sublist (hl.map _), fun e he => h.free e (hl.subset he)⟩

end Sys2Proof.Machine
end

