-- ==== Sys2Proof/Laws/Calm.lean ====
section
/-! SUPPORT. `Calm kd s t`: what a rule or an event leaves alone between `s` and `t`, and the bounds and laws it keeps; `kd` says
whether it may fill staging blocks and whether it may charge. One lemma per operation, to be cited in place of unfolding
it. -/

namespace Sys2Proof.Machine

/-- Whether staging may be filled, and whether money may move. -/
structure Kind where
  fills : Bool
  pays : Bool

/-- Fields that no rule and no event of a unit changes. -/
def State.fixed (s : State) :=
  (s.powered, s.pending, s.clock, s.elapsed, s.params, s.stations, s.rx, s.heldOff, s.waiting, s.ret.fees,
    s.ret.dayOpen, s.ret.openedDay, s.ret.lastClose)

/-- The money that a charge moves. -/
def State.money (s : State) := (s.ret.accounts, s.ret.cash, s.ret.counts.total)

/-- The sizes of the tables that are not in `fixed`. -/
def State.sizes (s : State) :=
  (s.ret.slots.length, s.ret.carts.length, s.ret.sides.length, s.drives.length, s.picker.mails.length)

/-- What no rule changes of an order. -/
def Order.key (o : Order) : Nat × Nat × Nat := (o.number, o.payer, o.station)

/-- Orders of `l` are orders of `m`, in their order, each with its number, payer and station. -/
def OrdersOf (l m : List Order) : Prop := (l.map Order.key).Sublist (m.map Order.key)

theorem OrdersOf.refl (l : List Order) : OrdersOf l l := List.Sublist.refl _

theorem OrdersOf.nil (l : List Order) : OrdersOf [] l := List.nil_sublist _

theorem OrdersOf.filter (l : List Order) (p : Order → Bool) : OrdersOf (l.filter p) l := (List.filter_sublist).map _

theorem OrdersOf.map (l : List Order) (f : Order → Order) (hf : ∀ o, (f o).key = o.key) : OrdersOf (l.map f) l := by
  unfold OrdersOf
  rw [List.map_map, show Order.key ∘ f = Order.key from funext hf]

theorem OrdersOf.mem {l m : List Order} (h : OrdersOf l m) {o : Order} (ho : o ∈ l) :
    ∃ o' ∈ m, o.payer = o'.payer ∧ o.station = o'.station := by
  obtain ⟨o', hm, e⟩ := List.mem_map.1 (h.subset (List.mem_map_of_mem ho))
  simp only [Order.key, Prod.mk.injEq] at e
  exact ⟨o', hm, e.2.1.symm, e.2.2.symm⟩

theorem OrdersOf.numbers {l m : List Order} (h : OrdersOf l m) : (l.map Order.number).Sublist (m.map Order.number) := by
  have := List.Sublist.map (fun k : Nat × Nat × Nat => k.1) h
  rwa [List.map_map, List.map_map] at this

/-- Filings of `l` are filings of `m`, in their order; with distinct references no more of them await consent (R133). -/
def FilingsOf (l m : List Filing) : Prop :=
  (l.map Filing.ref).Sublist (m.map Filing.ref) ∧
    ((m.map Filing.ref).Nodup → (l.filter Filing.pendingConsent).length ≤ (m.filter Filing.pendingConsent).length)

theorem FilingsOf.refl (l : List Filing) : FilingsOf l l := ⟨List.Sublist.refl _, fun _ => le_rfl⟩

theorem FilingsOf.nil (l : List Filing) : FilingsOf [] l := ⟨List.nil_sublist _, fun _ => Nat.zero_le _⟩

theorem FilingsOf.filter (l : List Filing) (p : Filing → Bool) : FilingsOf (l.filter p) l :=
  ⟨(List.filter_sublist).map _, fun _ => ((List.filter_sublist).filter _).length_le⟩

theorem FilingsOf.map (l : List Filing) (f : Filing → Filing) (hr : ∀ x, (f x).ref = x.ref)
    (hf : (l.map Filing.ref).Nodup → ∀ x ∈ l, (f x).pendingConsent = true → x.pendingConsent = true) :
    FilingsOf (l.map f) l := by
  refine ⟨by rw [List.map_map, show Filing.ref ∘ f = Filing.ref from funext hr], fun hn => ?_⟩
  have key : ∀ m : List Filing, (∀ x ∈ m, (f x).pendingConsent = true → x.pendingConsent = true) →
      ((m.map f).filter Filing.pendingConsent).length ≤ (m.filter Filing.pendingConsent).length := fun m => by
    induction m with
    | nil => simp
    | cons x xs ih =>
      intro h
      have ih := ih fun y hy => h y (List.mem_cons_of_mem _ hy)
      have hx := h x (List.mem_cons_self ..)
      simp only [List.map_cons, List.filter_cons]
      split
      · next h1 => simp only [hx h1, if_true, List.length_cons]; omega
      · split
        · simp only [List.length_cons]; omega
        · exact ih
  exact key l (hf hn)

theorem FilingsOf.trans {a b c : List Filing} (h : FilingsOf a b) (k : FilingsOf b c) : FilingsOf a c :=
  ⟨h.1.trans k.1, fun hn => (h.2 (hn.sublist k.1)).trans (k.2 hn)⟩

theorem FilingsOf.length {l m : List Filing} (h : FilingsOf l m) : l.length ≤ m.length := by
  simpa using h.1.length_le

structure Calm (kd : Kind) (s t : State) : Prop where
  fixed : t.fixed = s.fixed
  mem : kd.fills = false → t.mem = s.mem
  memWf : Memory.wf s.mem = true → Memory.wf t.mem = true
  money : kd.pays = false → t.money = s.money
  moneySizes : t.ret.accounts.length = s.ret.accounts.length ∧ t.ret.cash.length = s.ret.cash.length
  law : s.ret.accounts.length = Config.accountCount → s.ret.cash.length = Config.stationCount →
    (∀ o ∈ s.orders, o.payerOk) → DayBalanced s → DayBalanced t
  sizes : t.sizes = s.sizes
  kept : Kept s.mode s.ret t.mode t.ret
  ctl : ∃ ns, t.control = s.control ++ ns ∧ ∀ f ∈ ns, f.isNotice = true
  notices : noticeCount t ≤ max (noticeCount s) Config.noticeCapacity
  work : t.work.length ≤ max s.work.length Config.workCapacity
  fetches : t.fetches.length ≤ s.fetches.length
  filings : FilingsOf t.filings s.filings
  queue : t.picker.queue.length ≤ max s.picker.queue.length Config.transferCapacity
  orders : OrdersOf t.orders s.orders
  staged : StagingKept s → StagingKept t
  reserve : ReserveKept s → ReserveKept t
  placed : s.drives.length = 4 → s.placed → t.placed
  labels : s.mode ≠ .rebuild → LabelsKept s → LabelsKept t

theorem Calm.refl (kd : Kind) (s : State) : Calm kd s s :=
  ⟨rfl, fun _ => rfl, id, fun _ => rfl, ⟨rfl, rfl⟩, fun _ _ _ => id, rfl, Kept.refl _ _, ⟨[], by simp, by simp⟩, le_max_left _ _, le_max_left _ _, le_rfl, FilingsOf.refl _,
    le_max_left _ _, OrdersOf.refl _, id, id, fun _ => id, fun _ => id⟩

theorem Calm.payers {kd : Kind} {s t : State} (h : Calm kd s t) (p : ∀ o ∈ s.orders, o.payerOk) : ∀ o ∈ t.orders, o.payerOk :=
  fun o ho => by
    obtain ⟨o', hm, e1, e2⟩ := h.orders.mem ho
    have := p o' hm
    unfold Order.payerOk at this ⊢
    rw [e1, e2]
    exact this

theorem Calm.trans {x : Kind} {a b c : State} (h : Calm x a b) (k : Calm x b c) : Calm x a c where
  fixed := k.fixed.trans h.fixed
  mem := fun e => (k.mem e).trans (h.mem e)
  memWf := fun e => k.memWf (h.memWf e)
  money := fun e => (k.money e).trans (h.money e)
  moneySizes := ⟨k.moneySizes.1.trans h.moneySizes.1, k.moneySizes.2.trans h.moneySizes.2⟩
  law := fun ha hc ho hb =>
    k.law (h.moneySizes.1.trans ha) (h.moneySizes.2.trans hc) (h.payers ho) (h.law ha hc ho hb)
  sizes := k.sizes.trans h.sizes
  kept := h.kept.trans k.kept
  ctl := by
    obtain ⟨n1, e1, p1⟩ := h.ctl
    obtain ⟨n2, e2, p2⟩ := k.ctl
    refine ⟨n1 ++ n2, by rw [e2, e1, List.append_assoc], fun f hf => ?_⟩
    rcases List.mem_append.1 hf with hf | hf
    · exact p1 f hf
    · exact p2 f hf
  notices := by have := h.notices; have := k.notices; omega
  work := by have := h.work; have := k.work; omega
  fetches := k.fetches.trans h.fetches
  filings := k.filings.trans h.filings
  queue := by have := h.queue; have := k.queue; omega
  orders := k.orders.trans h.orders
  staged := fun e => k.staged (h.staged e)
  reserve := fun e => k.reserve (h.reserve e)
  placed := fun e p => k.placed (by
    have := h.sizes
    simp only [State.sizes, Prod.mk.injEq] at this
    rw [this.2.2.2.1]
    exact e) (h.placed e p)
  labels := fun e l => k.labels (h.kept.2 e).1 (h.labels e l)

@[simp] theorem tset_length {α : Type} (t : List α) (i : Nat) (x : α) : (tset t i x).length = t.length := by
  cases i <;> simp [tset]

/-- A fold of calm steps is calm. -/
theorem calm_foldl {α : Type} {kd : Kind} {s0 : State} (f : State → α → State) (hf : ∀ s x, Calm kd s0 s → Calm kd s0 (f s x)) :
    ∀ (l : List α) (s : State), Calm kd s0 s → Calm kd s0 (l.foldl f s)
  | [], _, h => h
  | x :: xs, s, h => calm_foldl f hf xs (f s x) (hf s x h)

theorem notify_calm {kd : Kind} {s0 s : State} (h : Calm kd s0 s) (n : NoticeKind) (a : Option (Word16 × Nat)) (b : List Byte) :
    Calm kd s0 (notify s n a b) := by
  unfold notify
  split
  next hn =>
    refine h.trans ⟨rfl, fun _ => rfl, id, fun _ => rfl, ⟨rfl, rfl⟩, fun _ _ _ => id, rfl, Kept.refl _ _, ⟨[_], rfl, by simp [ControlFrame.isNotice]⟩, ?_, le_max_left _ _, le_rfl, FilingsOf.refl _,
      le_max_left _ _, OrdersOf.refl _, id, id, fun _ => id, fun _ => id⟩
    unfold noticeCount at hn ⊢
    rw [List.filter_append, List.length_append]
    simp only [ControlFrame.isNotice, List.filter_cons, List.filter_nil, if_true, List.length_cons, List.length_nil]
    omega
  next =>
    exact h.trans ⟨rfl, fun _ => rfl, id, fun _ => rfl, ⟨rfl, rfl⟩, fun _ _ _ => id, rfl, Kept.refl _ _, ⟨[], by simp, by simp⟩, le_max_left _ _, le_max_left _ _, le_rfl, FilingsOf.refl _, le_max_left _ _,
      OrdersOf.refl _, id, id, fun _ => id, fun _ => id⟩

/-! ### Record updates and the named operations of Ops -/

/-- The part of the Retained Store that `Calm` keeps. -/
def Retained.kept (r : Retained) :=
  (r.fees, r.accounts, r.cash, r.counts.total, r.dayOpen, r.openedDay, r.lastClose, r.slots.length, r.carts.length,
    r.sides.length)

/-- An update of any fields but those `Calm` keeps. The place law is shown from where the change began. -/
theorem calm_set0 {kd : Kind} {s0 s : State} (h : Calm kd s0 s) (mode : Mode) (ret : Retained) (boot : Boot) (line : Option LineFrame)
    (last dropped : Bool) (work : List Item) (held : List HeldReq) (claims : List Claim) (drives : List Drive)
    (labelFailed : List Nat) (picker : Picker) (bay : Bay) (fetches : List Fetch) (turn : Nat) (filings : List Filing)
    (fileCount : Word32) (fileLine : List Word32) (reserved : List (Nat × Word32)) (orders : List Order)
    (accept : Word32) (port : Port) (nextId : Nat)
    (hr : ret.kept = s.ret.kept)
    (hh : Kept s.mode s.ret mode ret) (hd : drives.length = s.drives.length)
    (hm : picker.mails.length = s.picker.mails.length) (hw : work.length ≤ max s.work.length Config.workCapacity)
    (hf : fetches.length ≤ s.fetches.length) (hi : FilingsOf filings s.filings)
    (hq : picker.queue.length ≤ max s.picker.queue.length Config.transferCapacity) (ho : OrdersOf orders s.orders)
    (hc : StagingKept s → StagingLaw claims nextId) (hv : ReserveKept s → ReserveLaw mode reserved ret.withheld)
    (hp : s0.drives.length = 4 → s0.placed → Placed ret.slots drives picker.gripper picker.mails ret.carts)
    (hl : s.mode ≠ .rebuild → LabelsKept s → LabelLaw ret.carts ret.labelCounter drives) :
    Calm kd s0 { s with
      mode := mode, ret := ret, boot := boot, line := line, lastWasControl := last, dropped := dropped, work := work
      heldReqs := held, claims := claims, drives := drives, labelFailed := labelFailed, picker := picker, bay := bay
      fetches := fetches, fetchTurn := turn, filings := filings, fileCount := fileCount, fileLine := fileLine
      reserved := reserved, orders := orders, acceptCount := accept, port := port, nextId := nextId } := by
  simp only [Retained.kept, Prod.mk.injEq] at hr
  obtain ⟨h1, h2, h3, h4, h5, h6, h7, h8, h9, h10⟩ := hr
  obtain ⟨ns, e1, e2⟩ := h.ctl
  refine ⟨Eq.trans ?_ h.fixed, h.mem, h.memWf, fun e => Eq.trans ?_ (h.money e), ⟨Eq.trans ?_ h.moneySizes.1, Eq.trans ?_ h.moneySizes.2⟩,
    fun a b c e => ?_, Eq.trans ?_ h.sizes, h.kept.trans hh, ⟨ns, e1, e2⟩, h.notices, ?_, hf.trans h.fetches, hi.trans h.filings, ?_,
    ho.trans h.orders, fun e => hc (h.staged e), fun e => hv (h.reserve e), hp, fun e l => hl (h.kept.2 e).1 (h.labels e l)⟩
  · simp only [State.fixed, h1, h5, h6, h7]
  · simp only [State.money, h2, h3, h4]
  · simp only [h2]
  · simp only [h3]
  · have := h.law a b c e
    simpa only [DayBalanced, h2, h3, h4] using this
  · simp only [State.sizes, h8, h9, h10, hd, hm]
  · have := h.work; simp only; omega
  · have := h.queue; simp only; omega

theorem Calm.drives {kd : Kind} {s t : State} (h : Calm kd s t) : t.drives.length = s.drives.length := by
  have := h.sizes
  simp only [State.sizes, Prod.mk.injEq] at this
  exact this.2.2.2.1

/-- An update of any fields but those `Calm` keeps. -/
theorem calm_set {kd : Kind} {s0 s : State} (h : Calm kd s0 s) (mode : Mode) (ret : Retained) (boot : Boot) (line : Option LineFrame)
    (last dropped : Bool) (work : List Item) (held : List HeldReq) (claims : List Claim) (drives : List Drive)
    (labelFailed : List Nat) (picker : Picker) (bay : Bay) (fetches : List Fetch) (turn : Nat) (filings : List Filing)
    (fileCount : Word32) (fileLine : List Word32) (reserved : List (Nat × Word32)) (orders : List Order)
    (accept : Word32) (port : Port) (nextId : Nat)
    (hr : ret.kept = s.ret.kept)
    (hh : Kept s.mode s.ret mode ret) (hd : drives.length = s.drives.length)
    (hm : picker.mails.length = s.picker.mails.length) (hw : work.length ≤ max s.work.length Config.workCapacity)
    (hf : fetches.length ≤ s.fetches.length) (hi : FilingsOf filings s.filings)
    (hq : picker.queue.length ≤ max s.picker.queue.length Config.transferCapacity) (ho : OrdersOf orders s.orders)
    (hc : StagingKept s → StagingLaw claims nextId) (hv : ReserveKept s → ReserveLaw mode reserved ret.withheld)
    (hp : s.drives.length = 4 → s.placed → Placed ret.slots drives picker.gripper picker.mails ret.carts)
    (hl : s.mode ≠ .rebuild → LabelsKept s → LabelLaw ret.carts ret.labelCounter drives) :
    Calm kd s0 { s with
      mode := mode, ret := ret, boot := boot, line := line, lastWasControl := last, dropped := dropped, work := work
      heldReqs := held, claims := claims, drives := drives, labelFailed := labelFailed, picker := picker, bay := bay
      fetches := fetches, fetchTurn := turn, filings := filings, fileCount := fileCount, fileLine := fileLine
      reserved := reserved, orders := orders, acceptCount := accept, port := port, nextId := nextId } :=
  calm_set0 h mode ret boot line last dropped work held claims drives labelFailed picker bay fetches turn filings fileCount fileLine reserved
    orders accept port nextId hr hh hd hm hw hf hi hq ho hc hv (fun e p => hp ((h.drives).trans e) (h.placed e p)) hl

theorem retain_calm {kd : Kind} {s0 s : State} (h : Calm kd s0 s) (f : Retained → Retained) (hf : (f s.ret).kept = s.ret.kept)
    (hh : Kept s.mode s.ret s.mode (f s.ret)) (hv : ReserveKept s → ReserveLaw s.mode s.reserved (f s.ret).withheld)
    (hp : s.drives.length = 4 → s.placed → Placed (f s.ret).slots s.drives s.picker.gripper s.picker.mails (f s.ret).carts)
    (hl : s.mode ≠ .rebuild → LabelsKept s → LabelLaw (f s.ret).carts (f s.ret).labelCounter s.drives) :
    Calm kd s0 (s.retain f) :=
  calm_set h _ _ _ _ _ _ _ _ _ _ _ _ _ _ _ _ _ _ _ _ _ _ _ hf hh rfl rfl (le_max_left _ _) le_rfl (FilingsOf.refl _) (le_max_left _ _)
    (OrdersOf.refl _) id hv hp hl

/-- An occupant is taken from a slot, or one at no place set in it. -/
theorem setSlot_calm {kd : Kind} {s0 s : State} (h : Calm kd s0 s) (n : Nat) (o : Occupant)
    (ho : s0.drives.length = 4 → s0.placed → ∀ c, o = .record c →
      (s.slot n).occ = .record c ∨ ((∀ p, placeOcc s p ≠ .record c) ∧ cartInState s c .inLibrary = true)) :
    Calm kd s0 (s.setSlot n { s.slot n with occ := o }) :=
  calm_set0 h _ _ _ _ _ _ _ _ _ _ _ _ _ _ _ _ _ _ _ _ _ _ _ (by simp [Retained.kept])
    (Kept.same rfl rfl (Retained.disabled_occ s.ret n o) rfl rfl) rfl rfl (le_max_left _ _) le_rfl (FilingsOf.refl _) (le_max_left _ _)
    (OrdersOf.refl _) id id (fun hd p => (h.placed hd p).slot n _ (ho hd p)) fun _ => id

/-- An update of one side that keeps its run and opens nothing. -/
theorem setSide_calm {kd : Kind} {s0 s : State} (h : Calm kd s0 s) (n : Nat) (e : Side)
    (he : Lawful s.ret → (s.cart (sideCart n) = none → e = Side.blank) ∧
      (e.state = .opened → (s.side n).state = .opened) ∧ (e.state = .blank → e = Side.blank) ∧
      (e.first = (s.side n).first ∧ e.last = (s.side n).last ∧ e.count = (s.side n).count) ∧
      ((e.closeReason.isSome = true ↔ e.state = .closed) ∧ (e.closedPending = true → e.state = .closed)) ∧
      (s.side n).writePtr ≤ e.writePtr ∧ (s.side n).spareUsed ≤ e.spareUsed ∧ (s.side n).slotsUsed ≤ e.slotsUsed) :
    Calm kd s0 (s.setSide n e) :=
  retain_calm h _ (by simp [Retained.kept]) (Kept.side n e rfl rfl rfl rfl rfl he) id (fun _ => id) fun _ => id

/-- A record in use takes another state; one that leaves IN_LIBRARY is at no place. -/
theorem setCart_calm {kd : Kind} {s0 s : State} (h : Calm kd s0 s) (c : Nat) (k k' : Cart) (hk : s.cart c = some k)
    (he : CartLaw s.ret → (k'.home = none ↔ k'.state = .withdrawn) ∧ ∀ x, k'.home = some x → k.home = some x ∨
      (s.ret.disabled x = false ∧ ∀ d l, s.ret.cart d = some l → l.home ≠ some x)) (hb : k'.label = k.label)
    (hp : s0.drives.length = 4 → s0.placed → k'.state = .inLibrary ∨ ∀ p, placeOcc s p ≠ .record c) :
    Calm kd s0 (s.setCart c (some k')) :=
  calm_set0 h _ _ _ _ _ _ _ _ _ _ _ _ _ _ _ _ _ _ _ _ _ _ _ (by simp [Retained.kept])
    (Kept.cart c k k' rfl rfl rfl rfl rfl hk he) rfl rfl (le_max_left _ _) le_rfl (FilingsOf.refl _) (le_max_left _ _)
    (OrdersOf.refl _) id id (fun hd p => (h.placed hd p).cart c k' (hp hd p)) fun _ l => l.cart c k k' hk hb

theorem modDrive_calm {kd : Kind} {s0 s : State} (h : Calm kd s0 s) (d : Nat) (f : Drive → Drive)
    (hf : Quiet (s.drive d) (f (s.drive d))) : Calm kd s0 (s.modDrive d f) :=
  calm_set h _ _ _ _ _ _ _ _ _ _ _ _ _ _ _ _ _ _ _ _ _ _ _ rfl (Kept.refl _ _) (by simp) rfl (le_max_left _ _) le_rfl (FilingsOf.refl _)
    (le_max_left _ _) (OrdersOf.refl _) id id (fun _ p => p.drive d _ hf.occ) fun _ l => l.drive d _ hf.task

theorem modPicker_calm {kd : Kind} {s0 s : State} (h : Calm kd s0 s) (f : Picker → Picker)
    (hm : (f s.picker).mails.length = s.picker.mails.length)
    (hq : (f s.picker).queue.length ≤ max s.picker.queue.length Config.transferCapacity)
    (hp : PickerQuiet s.picker (f s.picker)) : Calm kd s0 (s.modPicker f) :=
  calm_set h _ _ _ _ _ _ _ _ _ _ _ _ _ _ _ _ _ _ _ _ _ _ _ rfl (Kept.refl _ _) rfl hm (le_max_left _ _) le_rfl (FilingsOf.refl _) hq
    (OrdersOf.refl _) id id (fun _ p => p.picker _ hp) fun _ => id

theorem setMail_calm {kd : Kind} {s0 s : State} (h : Calm kd s0 s) (m : Nat) (e : Mail)
    (he : ∀ c, e.occ = .record c → (s.mail m).occ = .record c) : Calm kd s0 (s.setMail m e) :=
  modPicker_calm h _ (by simp) (le_max_left _ _) (PickerQuiet.mail m e he)

theorem modBoot_calm {kd : Kind} {s0 s : State} (h : Calm kd s0 s) (f : Boot → Boot) : Calm kd s0 (s.modBoot f) :=
  calm_set h _ _ _ _ _ _ _ _ _ _ _ _ _ _ _ _ _ _ _ _ _ _ _ rfl (Kept.refl _ _) rfl rfl (le_max_left _ _) le_rfl (FilingsOf.refl _)
    (le_max_left _ _) (OrdersOf.refl _) id id (fun _ => id) fun _ => id
theorem modRebuild_calm {kd : Kind} {s0 s : State} (h : Calm kd s0 s) (f : Rebuild → Rebuild) : Calm kd s0 (s.modRebuild f) :=
  modBoot_calm h _
theorem modPort_calm {kd : Kind} {s0 s : State} (h : Calm kd s0 s) (f : Port → Port) : Calm kd s0 (s.modPort f) :=
  calm_set h _ _ _ _ _ _ _ _ _ _ _ _ _ _ _ _ _ _ _ _ _ _ _ rfl (Kept.refl _ _) rfl rfl (le_max_left _ _) le_rfl (FilingsOf.refl _)
    (le_max_left _ _) (OrdersOf.refl _) id id (fun _ => id) fun _ => id
theorem modBay_calm {kd : Kind} {s0 s : State} (h : Calm kd s0 s) (f : Bay → Bay) : Calm kd s0 (s.modBay f) :=
  calm_set h _ _ _ _ _ _ _ _ _ _ _ _ _ _ _ _ _ _ _ _ _ _ _ rfl (Kept.refl _ _) rfl rfl (le_max_left _ _) le_rfl (FilingsOf.refl _)
    (le_max_left _ _) (OrdersOf.refl _) id id (fun _ => id) fun _ => id
theorem issue_calm {kd : Kind} {s0 s : State} (h : Calm kd s0 s) (m : Nat) (c : BayCmd) (w : Why) : Calm kd s0 (issue s m c w) :=
  modBay_calm h fun b => { b with queue := b.queue ++ [⟨m, c, w⟩] }
theorem issueDrive_calm {kd : Kind} {s0 s : State} (h : Calm kd s0 s) (d : Nat) (c : BayCmd) : Calm kd s0 (issueDrive s d c) :=
  issue_calm h _ _ _
theorem dropQueued_calm {kd : Kind} {s0 s : State} (h : Calm kd s0 s) (m : Nat) : Calm kd s0 (dropQueued s m) :=
  modBay_calm h fun b => { b with queue := b.queue.filter fun e => e.module != m }

theorem dropCommands_calm {kd : Kind} {s0 s : State} (h : Calm kd s0 s) (p : BayEntry → Bool) : Calm kd s0 (dropCommands s p) :=
  modBay_calm h fun b => { b with queue := b.queue.filter fun e => !p e }

theorem modItem_calm {kd : Kind} {s0 s : State} (h : Calm kd s0 s) (i : Nat) (f : Item → Item) : Calm kd s0 (s.modItem i f) :=
  calm_set h _ _ _ _ _ _ _ _ _ _ _ _ _ _ _ _ _ _ _ _ _ _ _ rfl (Kept.refl _ _) rfl rfl (by simp) le_rfl (FilingsOf.refl _)
    (le_max_left _ _) (OrdersOf.refl _) id id (fun _ => id) fun _ => id
theorem modFetch_calm {kd : Kind} {s0 s : State} (h : Calm kd s0 s) (i : Nat) (f : Fetch → Fetch) : Calm kd s0 (s.modFetch i f) :=
  calm_set h _ _ _ _ _ _ _ _ _ _ _ _ _ _ _ _ _ _ _ _ _ _ _ rfl (Kept.refl _ _) rfl rfl (le_max_left _ _) (by simp) (FilingsOf.refl _)
    (le_max_left _ _) (OrdersOf.refl _) id id (fun _ => id) fun _ => id
theorem modFiling_calm {kd : Kind} {s0 s : State} (h : Calm kd s0 s) (ref : Word32) (f : Filing → Filing)
    (hf : ∀ x, (f x).ref = x.ref ∧ ((f x).pendingConsent = true → x.pendingConsent = true)) : Calm kd s0 (s.modFiling ref f) :=
  calm_set h _ _ _ _ _ _ _ _ _ _ _ _ _ _ _ _ _ _ _ _ _ _ _ rfl (Kept.refl _ _) rfl rfl (le_max_left _ _) le_rfl
    (FilingsOf.map _ _ (fun x => by split; exacts [(hf x).1, rfl]) fun _ x _ => by split; exacts [(hf x).2, id]) (le_max_left _ _) (OrdersOf.refl _) id id (fun _ => id) fun _ => id
theorem modOrder_calm {kd : Kind} {s0 s : State} (h : Calm kd s0 s) (n : Nat) (f : Order → Order)
    (hf : ∀ o, (f o).key = o.key) : Calm kd s0 (s.modOrder n f) :=
  calm_set h _ _ _ _ _ _ _ _ _ _ _ _ _ _ _ _ _ _ _ _ _ _ _ rfl (Kept.refl _ _) rfl rfl (le_max_left _ _) le_rfl (FilingsOf.refl _)
    (le_max_left _ _) (OrdersOf.map _ _ fun o => by split <;> simp [hf]) id id (fun _ => id) fun _ => id

/-! ### The Staging Store's memory -/

theorem memWfFrom_mono {m : List Host.Cell} : ∀ {lo lo' : Nat}, lo' ≤ lo → memWfFrom lo m = true → memWfFrom lo' m = true := by
  intro lo lo' hl h
  cases m with
  | nil => rfl
  | cons c rest =>
    simp only [memWfFrom, Bool.and_eq_true, decide_eq_true_eq] at h ⊢
    exact ⟨⟨hl.trans h.1.1, h.1.2⟩, h.2⟩

/-- A write keeps the canonical form. -/
theorem memWrite_wfFrom (a : Nat) (b : Byte) : ∀ (m : List Host.Cell) (lo : Nat), lo ≤ a → memWfFrom lo m = true →
    memWfFrom lo (memWrite m a b) = true
  | [], lo, hl, _ => by
    unfold memWrite
    split
    · rfl
    · next hb => simp [memWfFrom, hl, hb]
  | (i, v) :: rest, lo, hl, h => by
    simp only [memWfFrom, Bool.and_eq_true, decide_eq_true_eq] at h
    obtain ⟨⟨h1, h2⟩, h3⟩ := h
    unfold memWrite
    split
    · next ha =>
      split
      · simp [memWfFrom, h1, h2, h3]
      · next hb =>
        simp only [memWfFrom, Bool.and_eq_true, decide_eq_true_eq]
        exact ⟨⟨hl, hb⟩, ⟨ha, h2⟩, h3⟩
    · next ha =>
      split
      · next he =>
        subst he
        split
        · exact memWfFrom_mono (by omega) h3
        · next hb => simp [memWfFrom, hl, hb, h3]
      · next he =>
        simp only [memWfFrom, Bool.and_eq_true, decide_eq_true_eq]
        exact ⟨⟨h1, h2⟩, memWrite_wfFrom a b rest (i + 1) (by omega) h3⟩

theorem memWrite_wf (m : List Host.Cell) (a : Nat) (b : Byte) (h : Memory.wf m = true) : Memory.wf (memWrite m a b) = true :=
  memWrite_wfFrom a b m 0 (Nat.zero_le a) h

theorem memWriteAll_wf : ∀ (bs : List Byte) (m : List Host.Cell) (a : Nat), Memory.wf m = true →
    Memory.wf (memWriteAll m a bs) = true
  | [], _, _, h => h
  | b :: bs, m, a, h => memWriteAll_wf bs (memWrite m a b) (a + 1) (memWrite_wf m a b h)

theorem writeBlock_calm {kd : Kind} {s0 s : State} (h : Calm kd s0 s) (hk : kd.fills = true) (b : Nat) (bytes : List Byte) :
    Calm kd s0 (writeBlock s b bytes) := by
  refine h.trans ⟨rfl, fun e => by simp [hk] at e, memWriteAll_wf _ _ _, fun _ => rfl, ⟨rfl, rfl⟩, fun _ _ _ => id, rfl,
    Kept.refl _ _, ⟨[], by simp [writeBlock], by simp⟩, le_max_left _ _, le_max_left _ _, le_rfl, FilingsOf.refl _, le_max_left _ _,
    OrdersOf.refl _, id, id, fun _ => id, fun _ => id⟩

end Sys2Proof.Machine
end

