-- ==== Sys2Proof/Laws/StagingCalm.lean ====
section
/-! SUPPORT. Each operation of Machine/Staging.lean is calm. -/

namespace Sys2Proof.Machine

/-- An update of the claims alone. -/
theorem claims_calm {kd : Kind} {s0 s : State} (h : Calm kd s0 s) (claims : List Claim) (nextId : Nat)
    (hc : StagingKept s → StagingLaw claims nextId) : Calm kd s0 { s with claims := claims, nextId := nextId } :=
  calm_set h _ _ _ _ _ _ _ _ _ _ _ _ _ _ _ _ _ _ _ _ _ _ _ rfl (Kept.refl _ _) rfl rfl (le_max_left _ _) le_rfl (FilingsOf.refl _)
    (le_max_left _ _) (OrdersOf.refl _) hc id (fun _ => id) fun _ => id

theorem StagingLaw.grantFiling {s : State} (h : StagingKept s) (ref : Word32) (n : Nat)
    (hn : n + heldByFilings s ≤ Config.filingStaging) (bs : List Nat) (hb : bs = (freeBlocks s).take n) :
    StagingLaw (s.claims ++ [⟨s.nextId, .filing ref, n, some bs, bs, [], 0, true⟩]) (s.nextId + 1) := by
  have hs := freeBlocks_spec s
  have htn : bs.Nodup := hb ▸ hs.1.sublist (List.take_sublist _ _)
  have htm : ∀ b ∈ bs, b < Config.stagingBlocks ∧ ∀ c ∈ s.claims, b ∉ c.live := fun b hx => hs.2 b (List.mem_of_mem_take (hb ▸ hx))
  have hlen : bs.length ≤ n := by rw [hb]; exact List.length_take_le _ _
  refine ⟨?_, fun x hx => ?_, fun x hx hw => ?_, ?_, fun b hx => ?_, ?_⟩
  · rw [List.map_append, List.nodup_append]
    refine ⟨h.ids, by simp, fun a ha b hb => ?_⟩
    obtain ⟨x, hx, rfl⟩ := List.mem_map.1 ha
    simp only [List.map_cons, List.map_nil, List.mem_singleton] at hb
    have := h.fresh x hx
    omega
  · rcases List.mem_append.1 hx with hx | hx
    · have := h.fresh x hx; omega
    · rw [List.mem_singleton.1 hx]; exact Nat.lt_succ_self _
  · rcases List.mem_append.1 hx with hx | hx
    · exact h.waiting x hx hw
    · rw [List.mem_singleton.1 hx] at hw; cases hw
  · simp only [List.flatMap_append, List.flatMap_cons, List.flatMap_nil, List.append_nil]
    rw [List.nodup_append]
    refine ⟨h.disjoint, htn, fun a ha b hb e => ?_⟩
    obtain ⟨c, hc, hac⟩ := List.mem_flatMap.1 ha
    exact (htm b hb).2 c hc (e ▸ hac)
  · simp only [List.flatMap_append, List.flatMap_cons, List.flatMap_nil, List.append_nil, List.mem_append] at hx
    rcases hx with hx | hx
    · exact h.range b hx
    · exact (htm b hx).1
  · rw [List.filter_append, List.map_append, List.sum_append]
    show _ + (bs.length + 0) ≤ _
    unfold heldByFilings at hn
    omega

theorem grantFilingClaim_calm {kd : Kind} {s0 s : State} (hc : Calm kd s0 s) (ref : Word32) (n : Nat)
    (hn : n + heldByFilings s ≤ Config.filingStaging) : Calm kd s0 (grantFilingClaim s ref n) :=
  claims_calm hc _ _ fun h => h.grantFiling ref n hn _ rfl

theorem freeFilingClaim_calm {kd : Kind} {s0 s : State} (hc : Calm kd s0 s) (ref : Word32) : Calm kd s0 (freeFilingClaim s ref) :=
  claims_calm hc _ s.nextId fun h => h.filter _

theorem askClaim_calm {kd : Kind} {s0 s : State} (hc : Calm kd s0 s) (item : Nat) (plan : List (Nat × Nat)) (set : Nat) :
    Calm kd s0 (askClaim s item plan set).2 :=
  claims_calm hc _ (s.nextId + 1) fun h => h.ask _ rfl rfl rfl

theorem freeOf_calm {kd : Kind} {s0 s : State} (hc : Calm kd s0 s) (claim : Nat) (bs : List Nat) : Calm kd s0 (freeOf s claim bs) := by
  refine claims_calm hc _ s.nextId fun h => h.shrink _ fun c d e => ?_
  split at e
  · dsimp only at e
    split at e
    · cases e
    · cases e
      exact ⟨rfl, rfl, id, List.filter_sublist⟩
  · cases e
    exact ⟨rfl, rfl, id, List.Sublist.refl _⟩

theorem dropClaim_calm {kd : Kind} {s0 s : State} (hc : Calm kd s0 s) (claim : Nat) : Calm kd s0 (dropClaim s claim) :=
  claims_calm hc _ s.nextId fun h => h.filter _

end Sys2Proof.Machine
end

