-- ==== Sys2Proof/Laws/WorkCalm.lean ====
section
/-! SUPPORT. Each operation of Machine/Work.lean is calm. -/

set_option linter.unusedTactic false
set_option linter.unreachableTactic false
set_option linter.unusedSimpArgs false

namespace Sys2Proof.Machine

theorem Order.unname_keeps (o : Order) (c : Nat) : (o.unname c).key = o.key := by
  unfold Order.unname
  dsimp only
  split <;> rfl

theorem unname_keeps (o : Order) (c : Nat) : (o.unname c).key = o.key :=
  Order.unname_keeps o c

theorem foldl_keeps {α β : Type} (f : State → α → State) (g : State → β) (hf : ∀ s x, g (f s x) = g s) :
    ∀ (l : List α) (s : State), g (l.foldl f s) = g s
  | [], _ => rfl
  | x :: xs, s => by rw [List.foldl_cons, foldl_keeps f g hf xs, hf]

@[simp] theorem dropItemTransfers_work (s : State) (id : Nat) : (dropItemTransfers s id).work = s.work := rfl
@[simp] theorem withdrawClaims_work (s : State) (id : Nat) : (withdrawClaims s id).work = s.work :=
  by unfold withdrawClaims; apply foldl_keeps (g := State.work); intros; rfl

theorem filter_lt_of_find {s : State} {id : Nat} {i : Item} (i' : Item) (hi : s.findItem id = some i) :
    (i' :: s.work.filter fun x => x.id != id).length ≤ s.work.length := by
  have hm := List.mem_of_find?_eq_some hi
  have he := List.find?_some hi
  rw [List.length_cons]
  refine Nat.succ_le_of_lt (List.length_filter_lt_length_iff_exists.2 ⟨i, hm, ?_⟩)
  simpa using he

theorem requestTransfer_calm {kd : Kind} {s0 s : State} (h : Calm kd s0 s) (kind : XferKind) (cart : Option Nat) (src : Place)
    (dst : Option Place) (face : Face) (item : Option Nat) (report : Option RejectReason) (first : Bool) :
    Calm kd s0 (requestTransfer s kind cart src dst face item report first) := by
  unfold requestTransfer freshId
  refine modPicker_calm (calm_set h _ _ _ _ _ _ _ _ _ _ _ _ _ _ _ _ _ _ _ _ _ _ _ rfl (Kept.refl _ _) rfl rfl (le_max_left _ _) le_rfl
    (FilingsOf.refl _) (le_max_left _ _) (OrdersOf.refl _) (fun e => e.id_ (Nat.le_succ _)) id (fun _ => id) fun _ => id) _ ?_ ?_ ?_
  · split <;> rfl
  · split
    next hq =>
      have := hq.1
      simp only [List.length_append, List.length_singleton] at this ⊢
      omega
    next => exact le_max_left _ _
  · split <;> exact PickerQuiet.same rfl rfl

theorem requestHome_calm {kd : Kind} {s0 s : State} (hc : Calm kd s0 s) (occ : Occupant) (src : Place) (report : Option RejectReason) (first : Bool) : Calm kd s0 (requestHome s occ src report first) := by
  unfold requestHome
  try dsimp only []
  repeat' (first
    | with_reducible assumption
    | (first | exact fun h => h | exact fun _ h => h | exact Quiet.same rfl rfl | exact Quiet.other rfl rfl | exact PickerQuiet.same rfl rfl)
    | with_reducible apply requestTransfer_calm
    | (with_reducible apply calm_set; focus (first | with_reducible assumption | split | with_reducible apply requestTransfer_calm))
    | (with_reducible apply calm_foldl; intro s x h)
    | (intro _ _ _; try dsimp only)
    | with_reducible rfl
    | exact Kept.refl _ _
    | exact Kept.same rfl rfl (fun _ => rfl) rfl rfl
    | exact le_max_left _ _
    | exact le_rfl
    | exact OrdersOf.refl _
    | exact OrdersOf.filter _ _
    | exact FilingsOf.refl _
    | exact FilingsOf.filter _ _
    | (intro x; exact ⟨rfl, id⟩)
    | (intro x; simp [Filing.pendingConsent]; done)
    | exact (List.length_filter_le _ _).trans (le_max_left _ _)
    | exact List.length_filter_le _ _
    | (refine OrdersOf.map _ _ fun o => ?_)
    | split
    | (intro o; rfl)
    | (show Order.key _ = Order.key _; rfl)
    | (simp [Retained.kept]; done)
    | (simp_all [Config.transferCapacity, Config.workCapacity]; omega))

theorem dropItemTransfers_calm {kd : Kind} {s0 s : State} (hc : Calm kd s0 s) (item : Nat) : Calm kd s0 (dropItemTransfers s item) := by
  unfold dropItemTransfers
  try dsimp only []
  repeat' (first
    | with_reducible assumption
    | (first | exact fun h => h | exact fun _ h => h | exact Quiet.same rfl rfl | exact Quiet.other rfl rfl | exact PickerQuiet.same rfl rfl)
    | with_reducible apply modPicker_calm
    | (with_reducible apply calm_set; focus (first | with_reducible assumption | split | with_reducible apply modPicker_calm))
    | (with_reducible apply calm_foldl; intro s x h)
    | (intro _ _ _; try dsimp only)
    | with_reducible rfl
    | exact Kept.refl _ _
    | exact Kept.same rfl rfl (fun _ => rfl) rfl rfl
    | exact le_max_left _ _
    | exact le_rfl
    | exact OrdersOf.refl _
    | exact OrdersOf.filter _ _
    | exact FilingsOf.refl _
    | exact FilingsOf.filter _ _
    | (intro x; exact ⟨rfl, id⟩)
    | (intro x; simp [Filing.pendingConsent]; done)
    | exact (List.length_filter_le _ _).trans (le_max_left _ _)
    | exact List.length_filter_le _ _
    | (refine OrdersOf.map _ _ fun o => ?_)
    | split
    | (intro o; rfl)
    | (show Order.key _ = Order.key _; rfl)
    | (simp [Retained.kept]; done)
    | (simp_all [Config.transferCapacity, Config.workCapacity]; omega))

theorem withdrawClaims_calm {kd : Kind} {s0 s : State} (hc : Calm kd s0 s) (item : Nat) : Calm kd s0 (withdrawClaims s item) := by
  unfold withdrawClaims
  try dsimp only []
  repeat' (first
    | with_reducible assumption
    | (first | exact fun h => h | exact fun _ h => h | exact Quiet.same rfl rfl | exact Quiet.other rfl rfl | exact PickerQuiet.same rfl rfl)
    | exact unname_keeps _ _
    | with_reducible apply dropClaim_calm
    | (with_reducible apply calm_set; focus (first | with_reducible assumption | split | with_reducible apply dropClaim_calm))
    | (with_reducible apply calm_foldl; intro s x h)
    | (intro _ _ _; try dsimp only)
    | with_reducible rfl
    | exact Kept.refl _ _
    | exact Kept.same rfl rfl (fun _ => rfl) rfl rfl
    | exact le_max_left _ _
    | exact le_rfl
    | exact OrdersOf.refl _
    | exact OrdersOf.filter _ _
    | exact FilingsOf.refl _
    | exact FilingsOf.filter _ _
    | (intro x; exact ⟨rfl, id⟩)
    | (intro x; simp [Filing.pendingConsent]; done)
    | exact (List.length_filter_le _ _).trans (le_max_left _ _)
    | exact List.length_filter_le _ _
    | (refine OrdersOf.map _ _ fun o => ?_)
    | split
    | (intro o; rfl)
    | (show Order.key _ = Order.key _; rfl)
    | (simp [Retained.kept]; done)
    | (simp_all [Config.transferCapacity, Config.workCapacity]; omega))

theorem freeDrive_calm {kd : Kind} {s0 s : State} (hc : Calm kd s0 s) (d : Option Nat) : Calm kd s0 (freeDrive s d) := by
  unfold freeDrive
  try dsimp only []
  repeat' (first
    | with_reducible assumption
    | (first | exact fun h => h | exact fun _ h => h | exact Quiet.same rfl rfl | exact Quiet.other rfl rfl | exact PickerQuiet.same rfl rfl)
    | with_reducible apply modDrive_calm
    | (with_reducible apply calm_set; focus (first | with_reducible assumption | split | with_reducible apply modDrive_calm))
    | (with_reducible apply calm_foldl; intro s x h)
    | (intro _ _ _; try dsimp only)
    | with_reducible rfl
    | exact Kept.refl _ _
    | exact Kept.same rfl rfl (fun _ => rfl) rfl rfl
    | exact le_max_left _ _
    | exact le_rfl
    | exact OrdersOf.refl _
    | exact OrdersOf.filter _ _
    | exact FilingsOf.refl _
    | exact FilingsOf.filter _ _
    | (intro x; exact ⟨rfl, id⟩)
    | (intro x; simp [Filing.pendingConsent]; done)
    | exact (List.length_filter_le _ _).trans (le_max_left _ _)
    | exact List.length_filter_le _ _
    | (refine OrdersOf.map _ _ fun o => ?_)
    | split
    | (intro o; rfl)
    | (show Order.key _ = Order.key _; rfl)
    | (simp [Retained.kept]; done)
    | (simp_all [Config.transferCapacity, Config.workCapacity]; omega))

theorem removeItem_calm {kd : Kind} {s0 s : State} (hc : Calm kd s0 s) (id : Nat) : Calm kd s0 (removeItem s id) := by
  unfold removeItem
  try dsimp only []
  repeat' (first
    | with_reducible assumption
    | (first | exact fun h => h | exact fun _ h => h | exact Quiet.same rfl rfl | exact Quiet.other rfl rfl | exact PickerQuiet.same rfl rfl)
    | with_reducible apply freeDrive_calm
    | (with_reducible apply calm_set; focus (first | with_reducible assumption | split | with_reducible apply freeDrive_calm))
    | (with_reducible apply calm_foldl; intro s x h)
    | (intro _ _ _; try dsimp only)
    | with_reducible rfl
    | exact Kept.refl _ _
    | exact Kept.same rfl rfl (fun _ => rfl) rfl rfl
    | exact le_max_left _ _
    | exact le_rfl
    | exact OrdersOf.refl _
    | exact OrdersOf.filter _ _
    | exact FilingsOf.refl _
    | exact FilingsOf.filter _ _
    | (intro x; exact ⟨rfl, id⟩)
    | (intro x; simp [Filing.pendingConsent]; done)
    | exact (List.length_filter_le _ _).trans (le_max_left _ _)
    | exact List.length_filter_le _ _
    | (refine OrdersOf.map _ _ fun o => ?_)
    | split
    | (intro o; rfl)
    | (show Order.key _ = Order.key _; rfl)
    | (simp [Retained.kept]; done)
    | (simp_all [Config.transferCapacity, Config.workCapacity]; omega))

theorem endItem_calm {kd : Kind} {s0 s : State} (hc : Calm kd s0 s) (id : Nat) : Calm kd s0 (endItem s id) := by
  unfold endItem
  try dsimp only []
  repeat' (first
    | with_reducible assumption
    | (first | exact fun h => h | exact fun _ h => h | exact Quiet.same rfl rfl | exact Quiet.other rfl rfl | exact PickerQuiet.same rfl rfl)
    | with_reducible apply dropItemTransfers_calm
    | with_reducible apply modItem_calm
    | with_reducible apply removeItem_calm
    | with_reducible apply withdrawClaims_calm
    | (with_reducible apply calm_set; focus (first | with_reducible assumption | split | with_reducible apply dropItemTransfers_calm | with_reducible apply modItem_calm | with_reducible apply removeItem_calm | with_reducible apply withdrawClaims_calm))
    | (with_reducible apply calm_foldl; intro s x h)
    | (intro _ _ _; try dsimp only)
    | with_reducible rfl
    | exact Kept.refl _ _
    | exact Kept.same rfl rfl (fun _ => rfl) rfl rfl
    | exact le_max_left _ _
    | exact le_rfl
    | exact OrdersOf.refl _
    | exact OrdersOf.filter _ _
    | exact FilingsOf.refl _
    | exact FilingsOf.filter _ _
    | (intro x; exact ⟨rfl, id⟩)
    | (intro x; simp [Filing.pendingConsent]; done)
    | exact (List.length_filter_le _ _).trans (le_max_left _ _)
    | exact List.length_filter_le _ _
    | (refine OrdersOf.map _ _ fun o => ?_)
    | split
    | (intro o; rfl)
    | (show Order.key _ = Order.key _; rfl)
    | (simp [Retained.kept]; done)
    | (simp_all [Config.transferCapacity, Config.workCapacity]; omega))

theorem endItemOpt_calm {kd : Kind} {s0 s : State} (hc : Calm kd s0 s) (id : Option Nat) : Calm kd s0 (endItemOpt s id) := by
  unfold endItemOpt
  try dsimp only []
  repeat' (first
    | with_reducible assumption
    | (first | exact fun h => h | exact fun _ h => h | exact Quiet.same rfl rfl | exact Quiet.other rfl rfl | exact PickerQuiet.same rfl rfl)
    | with_reducible apply endItem_calm
    | (with_reducible apply calm_set; focus (first | with_reducible assumption | split | with_reducible apply endItem_calm))
    | (with_reducible apply calm_foldl; intro s x h)
    | (intro _ _ _; try dsimp only)
    | with_reducible rfl
    | exact Kept.refl _ _
    | exact Kept.same rfl rfl (fun _ => rfl) rfl rfl
    | exact le_max_left _ _
    | exact le_rfl
    | exact OrdersOf.refl _
    | exact OrdersOf.filter _ _
    | exact FilingsOf.refl _
    | exact FilingsOf.filter _ _
    | (intro x; exact ⟨rfl, id⟩)
    | (intro x; simp [Filing.pendingConsent]; done)
    | exact (List.length_filter_le _ _).trans (le_max_left _ _)
    | exact List.length_filter_le _ _
    | (refine OrdersOf.map _ _ fun o => ?_)
    | split
    | (intro o; rfl)
    | (show Order.key _ = Order.key _; rfl)
    | (simp [Retained.kept]; done)
    | (simp_all [Config.transferCapacity, Config.workCapacity]; omega))

theorem returnItem_calm {kd : Kind} {s0 s : State} (h : Calm kd s0 s) (n : Nat) : Calm kd s0 (returnItem s n) := by
  unfold returnItem
  split
  next i hi =>
    refine calm_set (dropItemTransfers_calm (withdrawClaims_calm h n) n) _ _ _ _ _ _ _ _ _ _ _ _ _ _ _
      _ _ _ _ _ _ _ _ rfl (Kept.refl _ _) rfl rfl ?_ le_rfl (FilingsOf.refl _) (le_max_left _ _) (OrdersOf.refl _)
      id id (fun _ => id) fun _ => id
    rw [dropItemTransfers_work, withdrawClaims_work]
    exact (filter_lt_of_find _ hi).trans (le_max_left _ _)
  next => exact h

theorem yieldItem_calm {kd : Kind} {s0 s : State} (hc : Calm kd s0 s) (id : Nat) : Calm kd s0 (yieldItem s id) := by
  unfold yieldItem
  try dsimp only []
  repeat' (first
    | with_reducible assumption
    | (first | exact fun h => h | exact fun _ h => h | exact Quiet.same rfl rfl | exact Quiet.other rfl rfl | exact PickerQuiet.same rfl rfl)
    | with_reducible apply modItem_calm
    | with_reducible apply returnItem_calm
    | (with_reducible apply calm_set; focus (first | with_reducible assumption | split | with_reducible apply modItem_calm | with_reducible apply returnItem_calm))
    | (with_reducible apply calm_foldl; intro s x h)
    | (intro _ _ _; try dsimp only)
    | with_reducible rfl
    | exact Kept.refl _ _
    | exact Kept.same rfl rfl (fun _ => rfl) rfl rfl
    | exact le_max_left _ _
    | exact le_rfl
    | exact OrdersOf.refl _
    | exact OrdersOf.filter _ _
    | exact FilingsOf.refl _
    | exact FilingsOf.filter _ _
    | (intro x; exact ⟨rfl, id⟩)
    | (intro x; simp [Filing.pendingConsent]; done)
    | exact (List.length_filter_le _ _).trans (le_max_left _ _)
    | exact List.length_filter_le _ _
    | (refine OrdersOf.map _ _ fun o => ?_)
    | split
    | (intro o; rfl)
    | (show Order.key _ = Order.key _; rfl)
    | (simp [Retained.kept]; done)
    | (simp_all [Config.transferCapacity, Config.workCapacity]; omega))

theorem parkItem_calm {kd : Kind} {s0 s : State} (hc : Calm kd s0 s) (id : Nat) : Calm kd s0 (parkItem s id) := by
  unfold parkItem
  try dsimp only []
  repeat' (first
    | with_reducible assumption
    | (first | exact fun h => h | exact fun _ h => h | exact Quiet.same rfl rfl | exact Quiet.other rfl rfl | exact PickerQuiet.same rfl rfl)
    | with_reducible apply modItem_calm
    | with_reducible apply withdrawClaims_calm
    | (with_reducible apply calm_set; focus (first | with_reducible assumption | split | with_reducible apply modItem_calm | with_reducible apply withdrawClaims_calm))
    | (with_reducible apply calm_foldl; intro s x h)
    | (intro _ _ _; try dsimp only)
    | with_reducible rfl
    | exact Kept.refl _ _
    | exact Kept.same rfl rfl (fun _ => rfl) rfl rfl
    | exact le_max_left _ _
    | exact le_rfl
    | exact OrdersOf.refl _
    | exact OrdersOf.filter _ _
    | exact FilingsOf.refl _
    | exact FilingsOf.filter _ _
    | (intro x; exact ⟨rfl, id⟩)
    | (intro x; simp [Filing.pendingConsent]; done)
    | exact (List.length_filter_le _ _).trans (le_max_left _ _)
    | exact List.length_filter_le _ _
    | (refine OrdersOf.map _ _ fun o => ?_)
    | split
    | (intro o; rfl)
    | (show Order.key _ = Order.key _; rfl)
    | (simp [Retained.kept]; done)
    | (simp_all [Config.transferCapacity, Config.workCapacity]; omega))

/-- With room in the Work List. -/
theorem createItem_calm {kd : Kind} {s0 s : State} (h : Calm kd s0 s) (hw : s.work.length < Config.workCapacity) (tag : Option Word16)
    (station : Option Nat) (cls : WorkClass) (kind : ItemKind) (side doc : Option Nat) (filing : Option Word32)
    (order mail : Option Nat) (state : ItemState) (drive : Option Nat) :
    Calm kd s0 (createItem s tag station cls kind side doc filing order mail state drive).2 := by
  refine calm_set h _ _ _ _ _ _ _ _ _ _ _ _ _ _ _ _ _ _ _ _ _ _ _ rfl (Kept.refl _ _) rfl rfl ?_ le_rfl (FilingsOf.refl _) (le_max_left _ _)
    (OrdersOf.refl _) (fun e => e.id_ (Nat.le_succ _)) id (fun _ => id) fun _ => id
  simp only [List.length_append, List.length_singleton]
  omega

theorem createFileItem_calm {kd : Kind} {s0 s : State} (hc : Calm kd s0 s) (ref : Word32) : Calm kd s0 (createFileItem s ref) := by
  unfold createFileItem
  try dsimp only []
  repeat' (first
    | with_reducible assumption
    | (first | exact fun h => h | exact fun _ h => h | exact Quiet.same rfl rfl | exact Quiet.other rfl rfl | exact PickerQuiet.same rfl rfl)
    | exact And.left ‹_›
    | with_reducible apply createItem_calm
    | with_reducible apply modFiling_calm
    | (with_reducible apply calm_set; focus (first | with_reducible assumption | split | with_reducible apply createItem_calm | with_reducible apply modFiling_calm))
    | (with_reducible apply calm_foldl; intro s x h)
    | (intro _ _ _; try dsimp only)
    | with_reducible rfl
    | exact Kept.refl _ _
    | exact Kept.same rfl rfl (fun _ => rfl) rfl rfl
    | exact le_max_left _ _
    | exact le_rfl
    | exact OrdersOf.refl _
    | exact OrdersOf.filter _ _
    | exact FilingsOf.refl _
    | exact FilingsOf.filter _ _
    | (intro x; exact ⟨rfl, id⟩)
    | (intro x; simp [Filing.pendingConsent]; done)
    | exact (List.length_filter_le _ _).trans (le_max_left _ _)
    | exact List.length_filter_le _ _
    | (refine OrdersOf.map _ _ fun o => ?_)
    | split
    | (intro o; rfl)
    | (show Order.key _ = Order.key _; rfl)
    | (simp [Retained.kept]; done)
    | (simp_all [Config.transferCapacity, Config.workCapacity]; omega))

theorem createInspectItem_calm {kd : Kind} {s0 s : State} (hc : Calm kd s0 s) (mail : Nat) (drive : Option Nat) : Calm kd s0 (createInspectItem s mail drive) := by
  unfold createInspectItem
  try dsimp only []
  repeat' (first
    | with_reducible assumption
    | (first | exact fun h => h | exact fun _ h => h | exact Quiet.same rfl rfl | exact Quiet.other rfl rfl | exact PickerQuiet.same rfl rfl)
    | exact And.left ‹_›
    | with_reducible apply createItem_calm
    | with_reducible apply modItem_calm
    | (with_reducible apply calm_set; focus (first | with_reducible assumption | split | with_reducible apply createItem_calm | with_reducible apply modItem_calm))
    | (with_reducible apply calm_foldl; intro s x h)
    | (intro _ _ _; try dsimp only)
    | with_reducible rfl
    | exact Kept.refl _ _
    | exact Kept.same rfl rfl (fun _ => rfl) rfl rfl
    | exact le_max_left _ _
    | exact le_rfl
    | exact OrdersOf.refl _
    | exact OrdersOf.filter _ _
    | exact FilingsOf.refl _
    | exact FilingsOf.filter _ _
    | (intro x; exact ⟨rfl, id⟩)
    | (intro x; simp [Filing.pendingConsent]; done)
    | exact (List.length_filter_le _ _).trans (le_max_left _ _)
    | exact List.length_filter_le _ _
    | (refine OrdersOf.map _ _ fun o => ?_)
    | split
    | (intro o; rfl)
    | (show Order.key _ = Order.key _; rfl)
    | (simp [Retained.kept]; done)
    | (simp_all [Config.transferCapacity, Config.workCapacity]; omega))

theorem mediaErrorLabel_calm {kd : Kind} {s0 s : State} (hc : Calm kd s0 s) (side : Nat) : Calm kd s0 (mediaErrorLabel s side) := by
  unfold mediaErrorLabel
  try dsimp only []
  repeat' (first
    | with_reducible assumption
    | (first | exact fun h => h | exact fun _ h => h | exact Quiet.same rfl rfl | exact Quiet.other rfl rfl | exact PickerQuiet.same rfl rfl)
    | with_reducible apply notify_calm
    | (with_reducible apply calm_set; focus (first | with_reducible assumption | split | with_reducible apply notify_calm))
    | (with_reducible apply calm_foldl; intro s x h)
    | (intro _ _ _; try dsimp only)
    | with_reducible rfl
    | exact Kept.refl _ _
    | exact Kept.same rfl rfl (fun _ => rfl) rfl rfl
    | exact le_max_left _ _
    | exact le_rfl
    | exact OrdersOf.refl _
    | exact OrdersOf.filter _ _
    | exact FilingsOf.refl _
    | exact FilingsOf.filter _ _
    | (intro x; exact ⟨rfl, id⟩)
    | (intro x; simp [Filing.pendingConsent]; done)
    | exact (List.length_filter_le _ _).trans (le_max_left _ _)
    | exact List.length_filter_le _ _
    | (refine OrdersOf.map _ _ fun o => ?_)
    | split
    | (intro o; rfl)
    | (show Order.key _ = Order.key _; rfl)
    | (simp [Retained.kept]; done)
    | (simp_all [Config.transferCapacity, Config.workCapacity]; omega))

theorem mediaErrorDoc_calm {kd : Kind} {s0 s : State} (hc : Calm kd s0 s) (side doc : Nat) (about : Option (Word16 × Nat)) : Calm kd s0 (mediaErrorDoc s side doc about) := by
  unfold mediaErrorDoc
  try dsimp only []
  repeat' (first
    | with_reducible assumption
    | (first | exact fun h => h | exact fun _ h => h | exact Quiet.same rfl rfl | exact Quiet.other rfl rfl | exact PickerQuiet.same rfl rfl)
    | with_reducible apply notify_calm
    | (with_reducible apply calm_set; focus (first | with_reducible assumption | split | with_reducible apply notify_calm))
    | (with_reducible apply calm_foldl; intro s x h)
    | (intro _ _ _; try dsimp only)
    | with_reducible rfl
    | exact Kept.refl _ _
    | exact Kept.same rfl rfl (fun _ => rfl) rfl rfl
    | exact le_max_left _ _
    | exact le_rfl
    | exact OrdersOf.refl _
    | exact OrdersOf.filter _ _
    | exact FilingsOf.refl _
    | exact FilingsOf.filter _ _
    | (intro x; exact ⟨rfl, id⟩)
    | (intro x; simp [Filing.pendingConsent]; done)
    | exact (List.length_filter_le _ _).trans (le_max_left _ _)
    | exact List.length_filter_le _ _
    | (refine OrdersOf.map _ _ fun o => ?_)
    | split
    | (intro o; rfl)
    | (show Order.key _ = Order.key _; rfl)
    | (simp [Retained.kept]; done)
    | (simp_all [Config.transferCapacity, Config.workCapacity]; omega))

theorem mediaErrorPage_calm {kd : Kind} {s0 s : State} (hc : Calm kd s0 s) (side doc page addr : Nat) (about : Option (Word16 × Nat)) : Calm kd s0 (mediaErrorPage s side doc page addr about) := by
  unfold mediaErrorPage
  try dsimp only []
  repeat' (first
    | with_reducible assumption
    | (first | exact fun h => h | exact fun _ h => h | exact Quiet.same rfl rfl | exact Quiet.other rfl rfl | exact PickerQuiet.same rfl rfl)
    | with_reducible apply notify_calm
    | (with_reducible apply calm_set; focus (first | with_reducible assumption | split | with_reducible apply notify_calm))
    | (with_reducible apply calm_foldl; intro s x h)
    | (intro _ _ _; try dsimp only)
    | with_reducible rfl
    | exact Kept.refl _ _
    | exact Kept.same rfl rfl (fun _ => rfl) rfl rfl
    | exact le_max_left _ _
    | exact le_rfl
    | exact OrdersOf.refl _
    | exact OrdersOf.filter _ _
    | exact FilingsOf.refl _
    | exact FilingsOf.filter _ _
    | (intro x; exact ⟨rfl, id⟩)
    | (intro x; simp [Filing.pendingConsent]; done)
    | exact (List.length_filter_le _ _).trans (le_max_left _ _)
    | exact List.length_filter_le _ _
    | (refine OrdersOf.map _ _ fun o => ?_)
    | split
    | (intro o; rfl)
    | (show Order.key _ = Order.key _; rfl)
    | (simp [Retained.kept]; done)
    | (simp_all [Config.transferCapacity, Config.workCapacity]; omega))

theorem closeSideUpdate_calm {kd : Kind} {s0 s : State} (hc : Calm kd s0 s) (n : Nat) (why : CloseReason) :
    Calm kd s0 (closeSideUpdate s n why) := by
  unfold closeSideUpdate
  split
  · next h =>
    refine setSide_calm hc n _ fun l => ⟨fun x => absurd x (l.assigned (n := n) ?_), nofun, nofun, ⟨rfl, rfl, rfl⟩,
      by simp, le_rfl, le_rfl, le_rfl⟩
    rw [show s.ret.side n = s.side n from rfl, h]; nofun
  · exact hc

theorem sideClosedNotice_calm {kd : Kind} {s0 s : State} (hc : Calm kd s0 s) (n : Nat) : Calm kd s0 (sideClosedNotice s n) := by
  unfold sideClosedNotice
  try dsimp only []
  repeat' (first
    | with_reducible assumption
    | (first | exact fun h => h | exact fun _ h => h | exact Quiet.same rfl rfl | exact Quiet.other rfl rfl | exact PickerQuiet.same rfl rfl)
    | with_reducible apply notify_calm
    | (with_reducible apply calm_set; focus (first | with_reducible assumption | split | with_reducible apply notify_calm))
    | (with_reducible apply calm_foldl; intro s x h)
    | (intro _ _ _; try dsimp only)
    | with_reducible rfl
    | exact Kept.refl _ _
    | exact Kept.same rfl rfl (fun _ => rfl) rfl rfl
    | exact le_max_left _ _
    | exact le_rfl
    | exact OrdersOf.refl _
    | exact OrdersOf.filter _ _
    | exact FilingsOf.refl _
    | exact FilingsOf.filter _ _
    | (intro x; exact ⟨rfl, id⟩)
    | (intro x; simp [Filing.pendingConsent]; done)
    | exact (List.length_filter_le _ _).trans (le_max_left _ _)
    | exact List.length_filter_le _ _
    | (refine OrdersOf.map _ _ fun o => ?_)
    | split
    | (intro o; rfl)
    | (show Order.key _ = Order.key _; rfl)
    | (simp [Retained.kept]; done)
    | (simp_all [Config.transferCapacity, Config.workCapacity]; omega))

theorem closeSideAs_calm {kd : Kind} {s0 s : State} (hc : Calm kd s0 s) (n : Nat) (why : CloseReason) : Calm kd s0 (closeSideAs s n why) := by
  unfold closeSideAs
  try dsimp only []
  repeat' (first
    | with_reducible assumption
    | (first | exact fun h => h | exact fun _ h => h | exact Quiet.same rfl rfl | exact Quiet.other rfl rfl | exact PickerQuiet.same rfl rfl)
    | with_reducible apply closeSideUpdate_calm
    | with_reducible apply sideClosedNotice_calm
    | (with_reducible apply calm_set; focus (first | with_reducible assumption | split | with_reducible apply closeSideUpdate_calm | with_reducible apply sideClosedNotice_calm))
    | (with_reducible apply calm_foldl; intro s x h)
    | (intro _ _ _; try dsimp only)
    | with_reducible rfl
    | exact Kept.refl _ _
    | exact Kept.same rfl rfl (fun _ => rfl) rfl rfl
    | exact le_max_left _ _
    | exact le_rfl
    | exact OrdersOf.refl _
    | exact OrdersOf.filter _ _
    | exact FilingsOf.refl _
    | exact FilingsOf.filter _ _
    | (intro x; exact ⟨rfl, id⟩)
    | (intro x; simp [Filing.pendingConsent]; done)
    | exact (List.length_filter_le _ _).trans (le_max_left _ _)
    | exact List.length_filter_le _ _
    | (refine OrdersOf.map _ _ fun o => ?_)
    | split
    | (intro o; rfl)
    | (show Order.key _ = Order.key _; rfl)
    | (simp [Retained.kept]; done)
    | (simp_all [Config.transferCapacity, Config.workCapacity]; omega))

end Sys2Proof.Machine
end

