-- ==== Sys2Proof/Laws/FetchingCalm.lean ====
section
/-! SUPPORT. Each operation of Machine/Fetching.lean is calm. -/

set_option linter.unusedTactic false
set_option linter.unreachableTactic false
set_option linter.unusedSimpArgs false

namespace Sys2Proof.Machine

theorem calm_fst {α : Type} {kd : Kind} {s0 s : State} {p : State × α} {a : α} (h : Calm kd s0 p.1) (e : p = (s, a)) : Calm kd s0 s := by
  subst e
  exact h

theorem calm_snd {α : Type} {kd : Kind} {s0 s : State} {p : α × State} {a : α} (h : Calm kd s0 p.2) (e : p = (a, s)) : Calm kd s0 s := by
  subst e
  exact h

@[simp] theorem freeFetchPages_fetches (s : State) (f : Fetch) : (freeFetchPages s f).fetches = s.fetches := by
  unfold freeFetchPages
  apply foldl_keeps (g := State.fetches)
  intros
  rfl

theorem fetchLookup_calm {kd : Kind} {s0 s : State} (hc : Calm kd s0 s) (f : Fetch) (d : Nat) : Calm kd s0 (fetchLookup s f d).1 := by
  unfold fetchLookup
  try dsimp only []
  repeat' (first
    | with_reducible assumption
    | (first | exact fun h => h | exact fun _ h => h | exact Quiet.same rfl rfl | exact Quiet.other rfl rfl | exact PickerQuiet.same rfl rfl)
    | with_reducible apply mediaErrorDoc_calm
    | with_reducible apply modFetch_calm
    | (with_reducible apply calm_set; focus (first | with_reducible assumption | split | with_reducible apply mediaErrorDoc_calm | with_reducible apply modFetch_calm))
    | (with_reducible apply calm_foldl; intro s x h)
    | (intro _ _ _; try dsimp only)
    | with_reducible rfl
    | exact Kept.refl _ _
    | exact Kept.same rfl rfl (fun _ => rfl) rfl rfl
    | exact le_max_left _ _
    | exact le_rfl
    | exact OrdersOf.refl _
    | exact OrdersOf.filter _ _
    | exact FilingsOf.refl _
    | exact FilingsOf.filter _ _
    | (intro x; exact ⟨rfl, id⟩)
    | (intro x; simp [Filing.pendingConsent]; done)
    | exact (List.length_filter_le _ _).trans (le_max_left _ _)
    | exact List.length_filter_le _ _
    | (refine OrdersOf.map _ _ fun o => ?_)
    | split
    | (intro o; rfl)
    | (show Order.key _ = Order.key _; rfl)
    | (simp [Retained.kept]; done)
    | (simp_all [Config.transferCapacity, Config.workCapacity]; omega))

theorem askFetch_calm {kd : Kind} {s0 s : State} (hc : Calm kd s0 s) (item : Item) (d : Nat) : Calm kd s0 (askFetch s item d) := by
  unfold askFetch
  try dsimp only []
  repeat' (first
    | with_reducible assumption
    | (first | exact fun h => h | exact fun _ h => h | exact Quiet.same rfl rfl | exact Quiet.other rfl rfl | exact PickerQuiet.same rfl rfl)
    | exact calm_fst (fetchLookup_calm hc _ _) ‹_›
    | with_reducible apply askClaim_calm
    | with_reducible apply endItem_calm
    | with_reducible apply fetchLookup_calm
    | with_reducible apply modFetch_calm
    | with_reducible apply modItem_calm
    | (with_reducible apply calm_set; focus (first | with_reducible assumption | split | with_reducible apply askClaim_calm | with_reducible apply endItem_calm | with_reducible apply fetchLookup_calm | with_reducible apply modFetch_calm | with_reducible apply modItem_calm))
    | (with_reducible apply calm_foldl; intro s x h)
    | (intro _ _ _; try dsimp only)
    | with_reducible rfl
    | exact Kept.refl _ _
    | exact Kept.same rfl rfl (fun _ => rfl) rfl rfl
    | exact le_max_left _ _
    | exact le_rfl
    | exact OrdersOf.refl _
    | exact OrdersOf.filter _ _
    | exact FilingsOf.refl _
    | exact FilingsOf.filter _ _
    | (intro x; exact ⟨rfl, id⟩)
    | (intro x; simp [Filing.pendingConsent]; done)
    | exact (List.length_filter_le _ _).trans (le_max_left _ _)
    | exact List.length_filter_le _ _
    | (refine OrdersOf.map _ _ fun o => ?_)
    | dsimp only [askClaim, freshId]
    | split
    | (intro o; rfl)
    | (show Order.key _ = Order.key _; rfl)
    | (simp [Retained.kept]; done)
    | (simp_all [Config.transferCapacity, Config.workCapacity]; omega))

theorem settleFetchPage_calm {kd : Kind} {s0 s : State} (hc : Calm kd s0 s) (f : Fetch) (c : Claim) (bad : List (Nat × Nat)) (page : Nat) : Calm kd s0 (settleFetchPage s f c bad page) := by
  unfold settleFetchPage
  try dsimp only []
  repeat' (first
    | with_reducible assumption
    | (first | exact fun h => h | exact fun _ h => h | exact Quiet.same rfl rfl | exact Quiet.other rfl rfl | exact PickerQuiet.same rfl rfl)
    | with_reducible apply freeOf_calm
    | with_reducible apply mediaErrorPage_calm
    | with_reducible apply modFetch_calm
    | (with_reducible apply calm_set; focus (first | with_reducible assumption | split | with_reducible apply freeOf_calm | with_reducible apply mediaErrorPage_calm | with_reducible apply modFetch_calm))
    | (with_reducible apply calm_foldl; intro s x h)
    | (intro _ _ _; try dsimp only)
    | with_reducible rfl
    | exact Kept.refl _ _
    | exact Kept.same rfl rfl (fun _ => rfl) rfl rfl
    | exact le_max_left _ _
    | exact le_rfl
    | exact OrdersOf.refl _
    | exact OrdersOf.filter _ _
    | exact FilingsOf.refl _
    | exact FilingsOf.filter _ _
    | (intro x; exact ⟨rfl, id⟩)
    | (intro x; simp [Filing.pendingConsent]; done)
    | exact (List.length_filter_le _ _).trans (le_max_left _ _)
    | exact List.length_filter_le _ _
    | (refine OrdersOf.map _ _ fun o => ?_)
    | split
    | (intro o; rfl)
    | (show Order.key _ = Order.key _; rfl)
    | (simp [Retained.kept]; done)
    | (simp_all [Config.transferCapacity, Config.workCapacity]; omega))

theorem fetchBurstEnd_calm {kd : Kind} {s0 s : State} (hc : Calm kd s0 s) (item : Nat) (b : ReadBurst) : Calm kd s0 (fetchBurstEnd s item b).1 := by
  unfold fetchBurstEnd
  try dsimp only []
  repeat' (first
    | with_reducible assumption
    | (first | exact fun h => h | exact fun _ h => h | exact Quiet.same rfl rfl | exact Quiet.other rfl rfl | exact PickerQuiet.same rfl rfl)
    | with_reducible apply dropClaim_calm
    | with_reducible apply modFetch_calm
    | with_reducible apply settleFetchPage_calm
    | (with_reducible apply calm_set; focus (first | with_reducible assumption | split | with_reducible apply dropClaim_calm | with_reducible apply modFetch_calm | with_reducible apply settleFetchPage_calm))
    | (with_reducible apply calm_foldl; intro s x h)
    | (intro _ _ _; try dsimp only)
    | with_reducible rfl
    | exact Kept.refl _ _
    | exact Kept.same rfl rfl (fun _ => rfl) rfl rfl
    | exact le_max_left _ _
    | exact le_rfl
    | exact OrdersOf.refl _
    | exact OrdersOf.filter _ _
    | exact FilingsOf.refl _
    | exact FilingsOf.filter _ _
    | (intro x; exact ⟨rfl, id⟩)
    | (intro x; simp [Filing.pendingConsent]; done)
    | exact (List.length_filter_le _ _).trans (le_max_left _ _)
    | exact List.length_filter_le _ _
    | (refine OrdersOf.map _ _ fun o => ?_)
    | split
    | (intro o; rfl)
    | (show Order.key _ = Order.key _; rfl)
    | (simp [Retained.kept]; done)
    | (simp_all [Config.transferCapacity, Config.workCapacity]; omega))

theorem fetchBurstFault_calm {kd : Kind} {s0 s : State} (hc : Calm kd s0 s) (item : Nat) (b : ReadBurst) : Calm kd s0 (fetchBurstFault s item b) := by
  unfold fetchBurstFault
  try dsimp only []
  repeat' (first
    | with_reducible assumption
    | (first | exact fun h => h | exact fun _ h => h | exact Quiet.same rfl rfl | exact Quiet.other rfl rfl | exact PickerQuiet.same rfl rfl)
    | with_reducible apply dropClaim_calm
    | with_reducible apply freeOf_calm
    | with_reducible apply modFetch_calm
    | with_reducible apply settleFetchPage_calm
    | (with_reducible apply calm_set; focus (first | with_reducible assumption | split | with_reducible apply dropClaim_calm | with_reducible apply freeOf_calm | with_reducible apply modFetch_calm | with_reducible apply settleFetchPage_calm))
    | (with_reducible apply calm_foldl; intro s x h)
    | (intro _ _ _; try dsimp only)
    | with_reducible rfl
    | exact Kept.refl _ _
    | exact Kept.same rfl rfl (fun _ => rfl) rfl rfl
    | exact le_max_left _ _
    | exact le_rfl
    | exact OrdersOf.refl _
    | exact OrdersOf.filter _ _
    | exact FilingsOf.refl _
    | exact FilingsOf.filter _ _
    | (intro x; exact ⟨rfl, id⟩)
    | (intro x; simp [Filing.pendingConsent]; done)
    | exact (List.length_filter_le _ _).trans (le_max_left _ _)
    | exact List.length_filter_le _ _
    | (refine OrdersOf.map _ _ fun o => ?_)
    | split
    | (intro o; rfl)
    | (show Order.key _ = Order.key _; rfl)
    | (simp [Retained.kept]; done)
    | (simp_all [Config.transferCapacity, Config.workCapacity]; omega))

theorem fetchUnavailable_calm {kd : Kind} {s0 s : State} (hc : Calm kd s0 s) (seq : Nat) : Calm kd s0 (fetchUnavailable s seq) := by
  unfold fetchUnavailable
  try dsimp only []
  repeat' (first
    | with_reducible assumption
    | (first | exact fun h => h | exact fun _ h => h | exact Quiet.same rfl rfl | exact Quiet.other rfl rfl | exact PickerQuiet.same rfl rfl)
    | with_reducible apply endItemOpt_calm
    | with_reducible apply modFetch_calm
    | (with_reducible apply calm_set; focus (first | with_reducible assumption | split | with_reducible apply endItemOpt_calm | with_reducible apply modFetch_calm))
    | (with_reducible apply calm_foldl; intro s x h)
    | (intro _ _ _; try dsimp only)
    | with_reducible rfl
    | exact Kept.refl _ _
    | exact Kept.same rfl rfl (fun _ => rfl) rfl rfl
    | exact le_max_left _ _
    | exact le_rfl
    | exact OrdersOf.refl _
    | exact OrdersOf.filter _ _
    | exact FilingsOf.refl _
    | exact FilingsOf.filter _ _
    | (intro x; exact ⟨rfl, id⟩)
    | (intro x; simp [Filing.pendingConsent]; done)
    | exact (List.length_filter_le _ _).trans (le_max_left _ _)
    | exact List.length_filter_le _ _
    | (refine OrdersOf.map _ _ fun o => ?_)
    | split
    | (intro o; rfl)
    | (show Order.key _ = Order.key _; rfl)
    | (simp [Retained.kept]; done)
    | (simp_all [Config.transferCapacity, Config.workCapacity]; omega))

theorem remaskFetchPage_calm {kd : Kind} {s0 s : State} (hc : Calm kd s0 s) (f : Fetch) (p : FetchPage) : Calm kd s0 (remaskFetchPage s f p) := by
  unfold remaskFetchPage
  try dsimp only []
  repeat' (first
    | with_reducible assumption
    | (first | exact fun h => h | exact fun _ h => h | exact Quiet.same rfl rfl | exact Quiet.other rfl rfl | exact PickerQuiet.same rfl rfl)
    | with_reducible apply freeOf_calm
    | with_reducible apply modFetch_calm
    | (with_reducible apply calm_set; focus (first | with_reducible assumption | split | with_reducible apply freeOf_calm | with_reducible apply modFetch_calm))
    | (with_reducible apply calm_foldl; intro s x h)
    | (intro _ _ _; try dsimp only)
    | with_reducible rfl
    | exact Kept.refl _ _
    | exact Kept.same rfl rfl (fun _ => rfl) rfl rfl
    | exact le_max_left _ _
    | exact le_rfl
    | exact OrdersOf.refl _
    | exact OrdersOf.filter _ _
    | exact FilingsOf.refl _
    | exact FilingsOf.filter _ _
    | (intro x; exact ⟨rfl, id⟩)
    | (intro x; simp [Filing.pendingConsent]; done)
    | exact (List.length_filter_le _ _).trans (le_max_left _ _)
    | exact List.length_filter_le _ _
    | (refine OrdersOf.map _ _ fun o => ?_)
    | split
    | (intro o; rfl)
    | (show Order.key _ = Order.key _; rfl)
    | (simp [Retained.kept]; done)
    | (simp_all [Config.transferCapacity, Config.workCapacity]; omega))

theorem renameWaitingFetch_calm {kd : Kind} {s0 s : State} (hc : Calm kd s0 s) (f : Fetch) (newly : List Nat) : Calm kd s0 (renameWaitingFetch s f newly) := by
  unfold renameWaitingFetch
  try dsimp only []
  repeat' (first
    | with_reducible assumption
    | (first | exact fun h => h | exact fun _ h => h | exact Quiet.same rfl rfl | exact Quiet.other rfl rfl | exact PickerQuiet.same rfl rfl)
    | with_reducible apply modItem_calm
    | with_reducible apply withdrawClaims_calm
    | (with_reducible apply calm_set; focus (first | with_reducible assumption | split | with_reducible apply modItem_calm | with_reducible apply withdrawClaims_calm))
    | (with_reducible apply calm_foldl; intro s x h)
    | (intro _ _ _; try dsimp only)
    | with_reducible rfl
    | exact Kept.refl _ _
    | exact Kept.same rfl rfl (fun _ => rfl) rfl rfl
    | exact le_max_left _ _
    | exact le_rfl
    | exact OrdersOf.refl _
    | exact OrdersOf.filter _ _
    | exact FilingsOf.refl _
    | exact FilingsOf.filter _ _
    | (intro x; exact ⟨rfl, id⟩)
    | (intro x; simp [Filing.pendingConsent]; done)
    | exact (List.length_filter_le _ _).trans (le_max_left _ _)
    | exact List.length_filter_le _ _
    | (refine OrdersOf.map _ _ fun o => ?_)
    | split
    | (intro o; rfl)
    | (show Order.key _ = Order.key _; rfl)
    | (simp [Retained.kept]; done)
    | (simp_all [Config.transferCapacity, Config.workCapacity]; omega))

theorem remaskFetch_calm {kd : Kind} {s0 s : State} (hc : Calm kd s0 s) (newly : List Nat) (seq : Nat) :
    Calm kd s0 (remaskFetch s newly seq) := by
  unfold remaskFetch
  split
  · exact calm_foldl _ (fun _ _ h => remaskFetchPage_calm h _ _) _ _ hc
  · exact hc

theorem remaskFetches_calm {kd : Kind} {s0 s : State} (hc : Calm kd s0 s) (target : Nat) (newly : List Nat) :
    Calm kd s0 (remaskFetches s target newly) :=
  calm_foldl _ (fun _ _ h => remaskFetch_calm h _ _) _ _ (calm_foldl _ (fun _ _ h => renameWaitingFetch_calm h _ _) _ _ hc)

theorem pageFrameDone_calm {kd : Kind} {s0 s : State} (hc : Calm kd s0 s) (p : PageFrame) : Calm kd s0 (pageFrameDone s p) := by
  unfold pageFrameDone
  try dsimp only []
  repeat' (first
    | with_reducible assumption
    | (first | exact fun h => h | exact fun _ h => h | exact Quiet.same rfl rfl | exact Quiet.other rfl rfl | exact PickerQuiet.same rfl rfl)
    | with_reducible apply freeOf_calm
    | with_reducible apply modFetch_calm
    | (with_reducible apply calm_set; focus (first | with_reducible assumption | split | with_reducible apply freeOf_calm | with_reducible apply modFetch_calm))
    | (with_reducible apply calm_foldl; intro s x h)
    | (intro _ _ _; try dsimp only)
    | with_reducible rfl
    | exact Kept.refl _ _
    | exact Kept.same rfl rfl (fun _ => rfl) rfl rfl
    | exact le_max_left _ _
    | exact le_rfl
    | exact OrdersOf.refl _
    | exact OrdersOf.filter _ _
    | exact FilingsOf.refl _
    | exact FilingsOf.filter _ _
    | (intro x; exact ⟨rfl, id⟩)
    | (intro x; simp [Filing.pendingConsent]; done)
    | exact (List.length_filter_le _ _).trans (le_max_left _ _)
    | exact List.length_filter_le _ _
    | (refine OrdersOf.map _ _ fun o => ?_)
    | split
    | (intro o; rfl)
    | (show Order.key _ = Order.key _; rfl)
    | (simp [Retained.kept]; done)
    | (simp_all [Config.transferCapacity, Config.workCapacity]; omega))

theorem fetchDoneRule_calm {kd : Kind} {s0 s t : State} (hc : Calm kd s0 s) (e : (fetchDoneRule s) = some t) : Calm kd s0 t := by
  unfold fetchDoneRule at e
  try dsimp only [] at e
  (repeat' split at e) <;> simp only [Option.map_eq_some_iff, Option.bind_eq_some_iff, Option.some.injEq, reduceCtorEq] at e
  all_goals (first | (subst e) | (obtain ⟨_, _, rfl⟩ := e) | (obtain ⟨_, _, _, _, rfl⟩ := e) | skip)
  all_goals try dsimp only
  all_goals
    repeat' (first
      | with_reducible assumption
      | (first | exact fun h => h | exact fun _ h => h | exact Quiet.same rfl rfl | exact Quiet.other rfl rfl | exact PickerQuiet.same rfl rfl)
      | with_reducible apply notify_calm
      | (with_reducible apply calm_set; focus (first | with_reducible assumption | split | with_reducible apply notify_calm))
      | (with_reducible apply calm_foldl; intro s x h)
      | (intro _ _ _; try dsimp only)
      | with_reducible rfl
      | exact Kept.refl _ _
      | exact Kept.same rfl rfl (fun _ => rfl) rfl rfl
      | exact le_max_left _ _
      | exact le_rfl
      | exact OrdersOf.refl _
      | exact OrdersOf.filter _ _
      | exact FilingsOf.refl _
      | exact FilingsOf.filter _ _
      | (intro x; exact ⟨rfl, id⟩)
      | (intro x; simp [Filing.pendingConsent]; done)
      | exact (List.length_filter_le _ _).trans (le_max_left _ _)
      | exact List.length_filter_le _ _
      | (refine OrdersOf.map _ _ fun o => ?_)
      | split
      | (intro o; rfl)
      | (show Order.key _ = Order.key _; rfl)
      | (simp [Retained.kept]; done)
      | (simp_all [Config.transferCapacity, Config.workCapacity]; omega))

theorem freeFetchPages_calm {kd : Kind} {s0 s : State} (hc : Calm kd s0 s) (f : Fetch) : Calm kd s0 (freeFetchPages s f) := by
  unfold freeFetchPages
  try dsimp only []
  repeat' (first
    | with_reducible assumption
    | (first | exact fun h => h | exact fun _ h => h | exact Quiet.same rfl rfl | exact Quiet.other rfl rfl | exact PickerQuiet.same rfl rfl)
    | with_reducible apply freeOf_calm
    | (with_reducible apply calm_set; focus (first | with_reducible assumption | split | with_reducible apply freeOf_calm))
    | (with_reducible apply calm_foldl; intro s x h)
    | (intro _ _ _; try dsimp only)
    | with_reducible rfl
    | exact Kept.refl _ _
    | exact Kept.same rfl rfl (fun _ => rfl) rfl rfl
    | exact le_max_left _ _
    | exact le_rfl
    | exact OrdersOf.refl _
    | exact OrdersOf.filter _ _
    | exact FilingsOf.refl _
    | exact FilingsOf.filter _ _
    | (intro x; exact ⟨rfl, id⟩)
    | (intro x; simp [Filing.pendingConsent]; done)
    | exact (List.length_filter_le _ _).trans (le_max_left _ _)
    | exact List.length_filter_le _ _
    | (refine OrdersOf.map _ _ fun o => ?_)
    | split
    | (intro o; rfl)
    | (show Order.key _ = Order.key _; rfl)
    | (simp [Retained.kept]; done)
    | (simp_all [Config.transferCapacity, Config.workCapacity]; omega))

theorem cancelFetch_calm {kd : Kind} {s0 s : State} (hc : Calm kd s0 s) (f : Fetch) : Calm kd s0 (cancelFetch s f) := by
  unfold cancelFetch
  try dsimp only []
  repeat' (first
    | with_reducible assumption
    | (first | exact fun h => h | exact fun _ h => h | exact Quiet.same rfl rfl | exact Quiet.other rfl rfl | exact PickerQuiet.same rfl rfl)
    | (rw [freeFetchPages_fetches]; exact List.length_filter_le _ _)
    | with_reducible apply endItemOpt_calm
    | with_reducible apply freeFetchPages_calm
    | (with_reducible apply calm_set; focus (first | with_reducible assumption | split | with_reducible apply endItemOpt_calm | with_reducible apply freeFetchPages_calm))
    | (with_reducible apply calm_foldl; intro s x h)
    | (intro _ _ _; try dsimp only)
    | with_reducible rfl
    | exact Kept.refl _ _
    | exact Kept.same rfl rfl (fun _ => rfl) rfl rfl
    | exact le_max_left _ _
    | exact le_rfl
    | exact OrdersOf.refl _
    | exact OrdersOf.filter _ _
    | exact FilingsOf.refl _
    | exact FilingsOf.filter _ _
    | (intro x; exact ⟨rfl, id⟩)
    | (intro x; simp [Filing.pendingConsent]; done)
    | exact (List.length_filter_le _ _).trans (le_max_left _ _)
    | exact List.length_filter_le _ _
    | (refine OrdersOf.map _ _ fun o => ?_)
    | split
    | (intro o; rfl)
    | (show Order.key _ = Order.key _; rfl)
    | (simp [Retained.kept]; done)
    | (simp_all [Config.transferCapacity, Config.workCapacity]; omega))

end Sys2Proof.Machine
end

