-- ==== Sys2Proof/Laws/CopyingCalm.lean ====
section
/-! SUPPORT. Each operation of Machine/Copying.lean is calm. -/

set_option linter.unusedTactic false
set_option linter.unreachableTactic false
set_option linter.unusedSimpArgs false

namespace Sys2Proof.Machine

theorem countVoided_calm {kd : Kind} {s0 s : State} (h : Calm kd s0 s) : Calm kd s0 (countVoided s) :=
  retain_calm h _ rfl (Kept.same rfl rfl (fun _ => rfl) rfl rfl) id (fun _ => id) fun _ => id
theorem countSpoiled_calm {kd : Kind} {s0 s : State} (h : Calm kd s0 s) : Calm kd s0 (countSpoiled s) :=
  retain_calm h _ rfl (Kept.same rfl rfl (fun _ => rfl) rfl rfl) id (fun _ => id) fun _ => id

theorem dropCopyPages_calm {kd : Kind} {s0 s : State} (hc : Calm kd s0 s) (n : Nat) (p : CopyPage → Bool) : Calm kd s0 (dropCopyPages s n p) := by
  unfold dropCopyPages
  try dsimp only []
  repeat' (first
    | with_reducible assumption
    | (first | exact fun h => h | exact fun _ h => h | exact Quiet.same rfl rfl | exact Quiet.other rfl rfl | exact PickerQuiet.same rfl rfl)
    | with_reducible apply freeOf_calm
    | with_reducible apply modOrder_calm
    | (with_reducible apply calm_set; focus (first | with_reducible assumption | split | with_reducible apply freeOf_calm | with_reducible apply modOrder_calm))
    | (with_reducible apply calm_foldl; intro s x h)
    | (intro _ _ _; try dsimp only)
    | with_reducible rfl
    | exact Kept.refl _ _
    | exact Kept.same rfl rfl (fun _ => rfl) rfl rfl
    | exact le_max_left _ _
    | exact le_rfl
    | exact OrdersOf.refl _
    | exact OrdersOf.filter _ _
    | exact FilingsOf.refl _
    | exact FilingsOf.filter _ _
    | (intro x; exact ⟨rfl, id⟩)
    | (intro x; simp [Filing.pendingConsent]; done)
    | exact (List.length_filter_le _ _).trans (le_max_left _ _)
    | exact List.length_filter_le _ _
    | (refine OrdersOf.map _ _ fun o => ?_)
    | split
    | (intro o; rfl)
    | (show Order.key _ = Order.key _; rfl)
    | (simp [Retained.kept]; done)
    | (simp_all [Config.transferCapacity, Config.workCapacity]; omega))

theorem dropCopyPage_calm {kd : Kind} {s0 s : State} (hc : Calm kd s0 s) (n set page : Nat) : Calm kd s0 (dropCopyPage s n set page) := by
  unfold dropCopyPage
  try dsimp only []
  repeat' (first
    | with_reducible assumption
    | (first | exact fun h => h | exact fun _ h => h | exact Quiet.same rfl rfl | exact Quiet.other rfl rfl | exact PickerQuiet.same rfl rfl)
    | with_reducible apply dropCopyPages_calm
    | (with_reducible apply calm_set; focus (first | with_reducible assumption | split | with_reducible apply dropCopyPages_calm))
    | (with_reducible apply calm_foldl; intro s x h)
    | (intro _ _ _; try dsimp only)
    | with_reducible rfl
    | exact Kept.refl _ _
    | exact Kept.same rfl rfl (fun _ => rfl) rfl rfl
    | exact le_max_left _ _
    | exact le_rfl
    | exact OrdersOf.refl _
    | exact OrdersOf.filter _ _
    | exact FilingsOf.refl _
    | exact FilingsOf.filter _ _
    | (intro x; exact ⟨rfl, id⟩)
    | (intro x; simp [Filing.pendingConsent]; done)
    | exact (List.length_filter_le _ _).trans (le_max_left _ _)
    | exact List.length_filter_le _ _
    | (refine OrdersOf.map _ _ fun o => ?_)
    | split
    | (intro o; rfl)
    | (show Order.key _ = Order.key _; rfl)
    | (simp [Retained.kept]; done)
    | (simp_all [Config.transferCapacity, Config.workCapacity]; omega))

theorem renameWaitingCopy_calm {kd : Kind} {s0 s : State} (hc : Calm kd s0 s) (o : Order) (p : Claim → Bool) : Calm kd s0 (renameWaitingCopy s o p) := by
  unfold renameWaitingCopy
  try dsimp only []
  repeat' (first
    | with_reducible assumption
    | (first | exact fun h => h | exact fun _ h => h | exact Quiet.same rfl rfl | exact Quiet.other rfl rfl | exact PickerQuiet.same rfl rfl)
    | with_reducible apply modItem_calm
    | with_reducible apply withdrawClaims_calm
    | (with_reducible apply calm_set; focus (first | with_reducible assumption | split | with_reducible apply modItem_calm | with_reducible apply withdrawClaims_calm))
    | (with_reducible apply calm_foldl; intro s x h)
    | (intro _ _ _; try dsimp only)
    | with_reducible rfl
    | exact Kept.refl _ _
    | exact Kept.same rfl rfl (fun _ => rfl) rfl rfl
    | exact le_max_left _ _
    | exact le_rfl
    | exact OrdersOf.refl _
    | exact OrdersOf.filter _ _
    | exact FilingsOf.refl _
    | exact FilingsOf.filter _ _
    | (intro x; exact ⟨rfl, id⟩)
    | (intro x; simp [Filing.pendingConsent]; done)
    | exact (List.length_filter_le _ _).trans (le_max_left _ _)
    | exact List.length_filter_le _ _
    | (refine OrdersOf.map _ _ fun o => ?_)
    | split
    | (intro o; rfl)
    | (show Order.key _ = Order.key _; rfl)
    | (simp [Retained.kept]; done)
    | (simp_all [Config.transferCapacity, Config.workCapacity]; omega))

theorem voidSet_calm {kd : Kind} {s0 s : State} (hc : Calm kd s0 s) (n : Nat) : Calm kd s0 (voidSet s n) := by
  unfold voidSet
  try dsimp only []
  repeat' (first
    | with_reducible assumption
    | (first | exact fun h => h | exact fun _ h => h | exact Quiet.same rfl rfl | exact Quiet.other rfl rfl | exact PickerQuiet.same rfl rfl)
    | with_reducible apply countVoided_calm
    | with_reducible apply dropCopyPages_calm
    | with_reducible apply modOrder_calm
    | with_reducible apply renameWaitingCopy_calm
    | (with_reducible apply calm_set; focus (first | with_reducible assumption | split | with_reducible apply countVoided_calm | with_reducible apply dropCopyPages_calm | with_reducible apply modOrder_calm | with_reducible apply renameWaitingCopy_calm))
    | (with_reducible apply calm_foldl; intro s x h)
    | (intro _ _ _; try dsimp only)
    | with_reducible rfl
    | exact Kept.refl _ _
    | exact Kept.same rfl rfl (fun _ => rfl) rfl rfl
    | exact le_max_left _ _
    | exact le_rfl
    | exact OrdersOf.refl _
    | exact OrdersOf.filter _ _
    | exact FilingsOf.refl _
    | exact FilingsOf.filter _ _
    | (intro x; exact ⟨rfl, id⟩)
    | (intro x; simp [Filing.pendingConsent]; done)
    | exact (List.length_filter_le _ _).trans (le_max_left _ _)
    | exact List.length_filter_le _ _
    | (refine OrdersOf.map _ _ fun o => ?_)
    | split
    | (intro o; rfl)
    | (show Order.key _ = Order.key _; rfl)
    | (simp [Retained.kept]; done)
    | (simp_all [Config.transferCapacity, Config.workCapacity]; omega))

theorem orderNotice_calm {kd : Kind} {s0 s : State} (hc : Calm kd s0 s) (o : Order) (kind : NoticeKind) (code : Nat) (more : List Byte) : Calm kd s0 (orderNotice s o kind code more) := by
  unfold orderNotice
  try dsimp only []
  repeat' (first
    | with_reducible assumption
    | (first | exact fun h => h | exact fun _ h => h | exact Quiet.same rfl rfl | exact Quiet.other rfl rfl | exact PickerQuiet.same rfl rfl)
    | with_reducible apply notify_calm
    | (with_reducible apply calm_set; focus (first | with_reducible assumption | split | with_reducible apply notify_calm))
    | (with_reducible apply calm_foldl; intro s x h)
    | (intro _ _ _; try dsimp only)
    | with_reducible rfl
    | exact Kept.refl _ _
    | exact Kept.same rfl rfl (fun _ => rfl) rfl rfl
    | exact le_max_left _ _
    | exact le_rfl
    | exact OrdersOf.refl _
    | exact OrdersOf.filter _ _
    | exact FilingsOf.refl _
    | exact FilingsOf.filter _ _
    | (intro x; exact ⟨rfl, id⟩)
    | (intro x; simp [Filing.pendingConsent]; done)
    | exact (List.length_filter_le _ _).trans (le_max_left _ _)
    | exact List.length_filter_le _ _
    | (refine OrdersOf.map _ _ fun o => ?_)
    | split
    | (intro o; rfl)
    | (show Order.key _ = Order.key _; rfl)
    | (simp [Retained.kept]; done)
    | (simp_all [Config.transferCapacity, Config.workCapacity]; omega))

theorem reportOrder_calm {kd : Kind} {s0 s : State} (hc : Calm kd s0 s) (o : Order) (stop : Nat × Nat) (why : OrderEnd) : Calm kd s0 (reportOrder s o stop why) := by
  unfold reportOrder
  try dsimp only []
  repeat' (first
    | with_reducible assumption
    | (first | exact fun h => h | exact fun _ h => h | exact Quiet.same rfl rfl | exact Quiet.other rfl rfl | exact PickerQuiet.same rfl rfl)
    | with_reducible apply orderNotice_calm
    | (with_reducible apply calm_set; focus (first | with_reducible assumption | split | with_reducible apply orderNotice_calm))
    | (with_reducible apply calm_foldl; intro s x h)
    | (intro _ _ _; try dsimp only)
    | with_reducible rfl
    | exact Kept.refl _ _
    | exact Kept.same rfl rfl (fun _ => rfl) rfl rfl
    | exact le_max_left _ _
    | exact le_rfl
    | exact OrdersOf.refl _
    | exact OrdersOf.filter _ _
    | exact FilingsOf.refl _
    | exact FilingsOf.filter _ _
    | (intro x; exact ⟨rfl, id⟩)
    | (intro x; simp [Filing.pendingConsent]; done)
    | exact (List.length_filter_le _ _).trans (le_max_left _ _)
    | exact List.length_filter_le _ _
    | (refine OrdersOf.map _ _ fun o => ?_)
    | split
    | (intro o; rfl)
    | (show Order.key _ = Order.key _; rfl)
    | (simp [Retained.kept]; done)
    | (simp_all [Config.transferCapacity, Config.workCapacity]; omega))

theorem clearPort_calm {kd : Kind} {s0 s : State} (hc : Calm kd s0 s) (n : Nat) : Calm kd s0 (clearPort s n) := by
  unfold clearPort
  try dsimp only []
  repeat' (first
    | with_reducible assumption
    | (first | exact fun h => h | exact fun _ h => h | exact Quiet.same rfl rfl | exact Quiet.other rfl rfl | exact PickerQuiet.same rfl rfl)
    | with_reducible apply modPort_calm
    | (with_reducible apply calm_set; focus (first | with_reducible assumption | split | with_reducible apply modPort_calm))
    | (with_reducible apply calm_foldl; intro s x h)
    | (intro _ _ _; try dsimp only)
    | with_reducible rfl
    | exact Kept.refl _ _
    | exact Kept.same rfl rfl (fun _ => rfl) rfl rfl
    | exact le_max_left _ _
    | exact le_rfl
    | exact OrdersOf.refl _
    | exact OrdersOf.filter _ _
    | exact FilingsOf.refl _
    | exact FilingsOf.filter _ _
    | (intro x; exact ⟨rfl, id⟩)
    | (intro x; simp [Filing.pendingConsent]; done)
    | exact (List.length_filter_le _ _).trans (le_max_left _ _)
    | exact List.length_filter_le _ _
    | (refine OrdersOf.map _ _ fun o => ?_)
    | split
    | (intro o; rfl)
    | (show Order.key _ = Order.key _; rfl)
    | (simp [Retained.kept]; done)
    | (simp_all [Config.transferCapacity, Config.workCapacity]; omega))

theorem endOrder_calm {kd : Kind} {s0 s : State} (hc : Calm kd s0 s) (n : Nat) (why : OrderEnd) : Calm kd s0 (endOrder s n why) := by
  unfold endOrder
  try dsimp only []
  repeat' (first
    | with_reducible assumption
    | (first | exact fun h => h | exact fun _ h => h | exact Quiet.same rfl rfl | exact Quiet.other rfl rfl | exact PickerQuiet.same rfl rfl)
    | with_reducible apply clearPort_calm
    | with_reducible apply dropCopyPages_calm
    | with_reducible apply endItemOpt_calm
    | with_reducible apply reportOrder_calm
    | with_reducible apply voidSet_calm
    | (with_reducible apply calm_set; focus (first | with_reducible assumption | split | with_reducible apply clearPort_calm | with_reducible apply dropCopyPages_calm | with_reducible apply endItemOpt_calm | with_reducible apply reportOrder_calm | with_reducible apply voidSet_calm))
    | (with_reducible apply calm_foldl; intro s x h)
    | (intro _ _ _; try dsimp only)
    | with_reducible rfl
    | exact Kept.refl _ _
    | exact Kept.same rfl rfl (fun _ => rfl) rfl rfl
    | exact le_max_left _ _
    | exact le_rfl
    | exact OrdersOf.refl _
    | exact OrdersOf.filter _ _
    | exact FilingsOf.refl _
    | exact FilingsOf.filter _ _
    | (intro x; exact ⟨rfl, id⟩)
    | (intro x; simp [Filing.pendingConsent]; done)
    | exact (List.length_filter_le _ _).trans (le_max_left _ _)
    | exact List.length_filter_le _ _
    | (refine OrdersOf.map _ _ fun o => ?_)
    | split
    | (intro o; rfl)
    | (show Order.key _ = Order.key _; rfl)
    | (simp [Retained.kept]; done)
    | (simp_all [Config.transferCapacity, Config.workCapacity]; omega))

theorem haltItem_calm {kd : Kind} {s0 s : State} (hc : Calm kd s0 s) (o : Order) (why : Closing) : Calm kd s0 (haltItem s o why) := by
  unfold haltItem
  try dsimp only []
  repeat' (first
    | with_reducible assumption
    | (first | exact fun h => h | exact fun _ h => h | exact Quiet.same rfl rfl | exact Quiet.other rfl rfl | exact PickerQuiet.same rfl rfl)
    | with_reducible apply endItem_calm
    | with_reducible apply modOrder_calm
    | (with_reducible apply calm_set; focus (first | with_reducible assumption | split | with_reducible apply endItem_calm | with_reducible apply modOrder_calm))
    | (with_reducible apply calm_foldl; intro s x h)
    | (intro _ _ _; try dsimp only)
    | with_reducible rfl
    | exact Kept.refl _ _
    | exact Kept.same rfl rfl (fun _ => rfl) rfl rfl
    | exact le_max_left _ _
    | exact le_rfl
    | exact OrdersOf.refl _
    | exact OrdersOf.filter _ _
    | exact FilingsOf.refl _
    | exact FilingsOf.filter _ _
    | (intro x; exact ⟨rfl, id⟩)
    | (intro x; simp [Filing.pendingConsent]; done)
    | exact (List.length_filter_le _ _).trans (le_max_left _ _)
    | exact List.length_filter_le _ _
    | (refine OrdersOf.map _ _ fun o => ?_)
    | split
    | (intro o; rfl)
    | (show Order.key _ = Order.key _; rfl)
    | (simp [Retained.kept]; done)
    | (simp_all [Config.transferCapacity, Config.workCapacity]; omega))

theorem closeOrder_calm {kd : Kind} {s0 s : State} (hc : Calm kd s0 s) (n : Nat) (why : Closing) (atOnce : OrderEnd) : Calm kd s0 (closeOrder s n why atOnce) := by
  unfold closeOrder
  try dsimp only []
  repeat' (first
    | with_reducible assumption
    | (first | exact fun h => h | exact fun _ h => h | exact Quiet.same rfl rfl | exact Quiet.other rfl rfl | exact PickerQuiet.same rfl rfl)
    | with_reducible apply endOrder_calm
    | with_reducible apply haltItem_calm
    | with_reducible apply modOrder_calm
    | with_reducible apply voidSet_calm
    | (with_reducible apply calm_set; focus (first | with_reducible assumption | split | with_reducible apply endOrder_calm | with_reducible apply haltItem_calm | with_reducible apply modOrder_calm | with_reducible apply voidSet_calm))
    | (with_reducible apply calm_foldl; intro s x h)
    | (intro _ _ _; try dsimp only)
    | with_reducible rfl
    | exact Kept.refl _ _
    | exact Kept.same rfl rfl (fun _ => rfl) rfl rfl
    | exact le_max_left _ _
    | exact le_rfl
    | exact OrdersOf.refl _
    | exact OrdersOf.filter _ _
    | exact FilingsOf.refl _
    | exact FilingsOf.filter _ _
    | (intro x; exact ⟨rfl, id⟩)
    | (intro x; simp [Filing.pendingConsent]; done)
    | exact (List.length_filter_le _ _).trans (le_max_left _ _)
    | exact List.length_filter_le _ _
    | (refine OrdersOf.map _ _ fun o => ?_)
    | split
    | (intro o; rfl)
    | (show Order.key _ = Order.key _; rfl)
    | (simp [Retained.kept]; done)
    | (simp_all [Config.transferCapacity, Config.workCapacity]; omega))

theorem goOn_calm {kd : Kind} {s0 s : State} (hc : Calm kd s0 s) (n : Nat) : Calm kd s0 (goOn s n) := by
  unfold goOn
  try dsimp only []
  repeat' (first
    | with_reducible assumption
    | (first | exact fun h => h | exact fun _ h => h | exact Quiet.same rfl rfl | exact Quiet.other rfl rfl | exact PickerQuiet.same rfl rfl)
    | with_reducible apply endOrder_calm
    | with_reducible apply modOrder_calm
    | (with_reducible apply calm_set; focus (first | with_reducible assumption | split | with_reducible apply endOrder_calm | with_reducible apply modOrder_calm))
    | (with_reducible apply calm_foldl; intro s x h)
    | (intro _ _ _; try dsimp only)
    | with_reducible rfl
    | exact Kept.refl _ _
    | exact Kept.same rfl rfl (fun _ => rfl) rfl rfl
    | exact le_max_left _ _
    | exact le_rfl
    | exact OrdersOf.refl _
    | exact OrdersOf.filter _ _
    | exact FilingsOf.refl _
    | exact FilingsOf.filter _ _
    | (intro x; exact ⟨rfl, id⟩)
    | (intro x; simp [Filing.pendingConsent]; done)
    | exact (List.length_filter_le _ _).trans (le_max_left _ _)
    | exact List.length_filter_le _ _
    | (refine OrdersOf.map _ _ fun o => ?_)
    | split
    | (intro o; rfl)
    | (show Order.key _ = Order.key _; rfl)
    | (simp [Retained.kept]; done)
    | (simp_all [Config.transferCapacity, Config.workCapacity]; omega))

theorem cutOrder_calm {kd : Kind} {s0 s : State} (hc : Calm kd s0 s) (o : Order) (r : DocRecord) : Calm kd s0 (cutOrder s o r) := by
  unfold cutOrder
  try dsimp only []
  repeat' (first
    | with_reducible assumption
    | (first | exact fun h => h | exact fun _ h => h | exact Quiet.same rfl rfl | exact Quiet.other rfl rfl | exact PickerQuiet.same rfl rfl)
    | with_reducible apply modOrder_calm
    | (with_reducible apply calm_set; focus (first | with_reducible assumption | split | with_reducible apply modOrder_calm))
    | (with_reducible apply calm_foldl; intro s x h)
    | (intro _ _ _; try dsimp only)
    | with_reducible rfl
    | exact Kept.refl _ _
    | exact Kept.same rfl rfl (fun _ => rfl) rfl rfl
    | exact le_max_left _ _
    | exact le_rfl
    | exact OrdersOf.refl _
    | exact OrdersOf.filter _ _
    | exact FilingsOf.refl _
    | exact FilingsOf.filter _ _
    | (intro x; exact ⟨rfl, id⟩)
    | (intro x; simp [Filing.pendingConsent]; done)
    | exact (List.length_filter_le _ _).trans (le_max_left _ _)
    | exact List.length_filter_le _ _
    | (refine OrdersOf.map _ _ fun o => ?_)
    | split
    | (intro o; rfl)
    | (show Order.key _ = Order.key _; rfl)
    | (simp [Retained.kept]; done)
    | (simp_all [Config.transferCapacity, Config.workCapacity]; omega))

theorem endCopyItem_calm {kd : Kind} {s0 s : State} (hc : Calm kd s0 s) (item : Nat) : Calm kd s0 (endCopyItem s item) := by
  unfold endCopyItem
  try dsimp only []
  repeat' (first
    | with_reducible assumption
    | (first | exact fun h => h | exact fun _ h => h | exact Quiet.same rfl rfl | exact Quiet.other rfl rfl | exact PickerQuiet.same rfl rfl)
    | with_reducible apply endItem_calm
    | (with_reducible apply calm_set; focus (first | with_reducible assumption | split | with_reducible apply endItem_calm))
    | (with_reducible apply calm_foldl; intro s x h)
    | (intro _ _ _; try dsimp only)
    | with_reducible rfl
    | exact Kept.refl _ _
    | exact Kept.same rfl rfl (fun _ => rfl) rfl rfl
    | exact le_max_left _ _
    | exact le_rfl
    | exact OrdersOf.refl _
    | exact OrdersOf.filter _ _
    | exact FilingsOf.refl _
    | exact FilingsOf.filter _ _
    | (intro x; exact ⟨rfl, id⟩)
    | (intro x; simp [Filing.pendingConsent]; done)
    | exact (List.length_filter_le _ _).trans (le_max_left _ _)
    | exact List.length_filter_le _ _
    | (refine OrdersOf.map _ _ fun o => ?_)
    | split
    | (intro o; rfl)
    | (show Order.key _ = Order.key _; rfl)
    | (simp [Retained.kept]; done)
    | (simp_all [Config.transferCapacity, Config.workCapacity]; omega))

theorem nameCopyBurst_calm {kd : Kind} {s0 s : State} (hc : Calm kd s0 s) (o : Order) (copy : DocCopy) (item : Nat) : Calm kd s0 (nameCopyBurst s o copy item) := by
  unfold nameCopyBurst
  try dsimp only []
  repeat' (first
    | with_reducible assumption
    | (first | exact fun h => h | exact fun _ h => h | exact Quiet.same rfl rfl | exact Quiet.other rfl rfl | exact PickerQuiet.same rfl rfl)
    | with_reducible apply askClaim_calm
    | with_reducible apply endCopyItem_calm
    | with_reducible apply modItem_calm
    | with_reducible apply modOrder_calm
    | (with_reducible apply calm_set; focus (first | with_reducible assumption | split | with_reducible apply askClaim_calm | with_reducible apply endCopyItem_calm | with_reducible apply modItem_calm | with_reducible apply modOrder_calm))
    | (with_reducible apply calm_foldl; intro s x h)
    | (intro _ _ _; try dsimp only)
    | with_reducible rfl
    | exact Kept.refl _ _
    | exact Kept.same rfl rfl (fun _ => rfl) rfl rfl
    | exact le_max_left _ _
    | exact le_rfl
    | exact OrdersOf.refl _
    | exact OrdersOf.filter _ _
    | exact FilingsOf.refl _
    | exact FilingsOf.filter _ _
    | (intro x; exact ⟨rfl, id⟩)
    | (intro x; simp [Filing.pendingConsent]; done)
    | exact (List.length_filter_le _ _).trans (le_max_left _ _)
    | exact List.length_filter_le _ _
    | (refine OrdersOf.map _ _ fun o => ?_)
    | dsimp only [askClaim, freshId]
    | split
    | (intro o; rfl)
    | (show Order.key _ = Order.key _; rfl)
    | (simp [Retained.kept]; done)
    | (simp_all [Config.transferCapacity, Config.workCapacity]; omega))

theorem askCopy_calm {kd : Kind} {s0 s : State} (hc : Calm kd s0 s) (item : Item) (d : Nat) : Calm kd s0 (askCopy s item d) := by
  unfold askCopy
  try dsimp only []
  repeat' (first
    | with_reducible assumption
    | (first | exact fun h => h | exact fun _ h => h | exact Quiet.same rfl rfl | exact Quiet.other rfl rfl | exact PickerQuiet.same rfl rfl)
    | with_reducible apply closeOrder_calm
    | with_reducible apply cutOrder_calm
    | with_reducible apply endItem_calm
    | with_reducible apply endOrder_calm
    | with_reducible apply mediaErrorDoc_calm
    | with_reducible apply nameCopyBurst_calm
    | with_reducible apply parkItem_calm
    | (with_reducible apply calm_set; focus (first | with_reducible assumption | split | with_reducible apply closeOrder_calm | with_reducible apply cutOrder_calm | with_reducible apply endItem_calm | with_reducible apply endOrder_calm | with_reducible apply mediaErrorDoc_calm | with_reducible apply nameCopyBurst_calm | with_reducible apply parkItem_calm))
    | (with_reducible apply calm_foldl; intro s x h)
    | (intro _ _ _; try dsimp only)
    | with_reducible rfl
    | exact Kept.refl _ _
    | exact Kept.same rfl rfl (fun _ => rfl) rfl rfl
    | exact le_max_left _ _
    | exact le_rfl
    | exact OrdersOf.refl _
    | exact OrdersOf.filter _ _
    | exact FilingsOf.refl _
    | exact FilingsOf.filter _ _
    | (intro x; exact ⟨rfl, id⟩)
    | (intro x; simp [Filing.pendingConsent]; done)
    | exact (List.length_filter_le _ _).trans (le_max_left _ _)
    | exact List.length_filter_le _ _
    | (refine OrdersOf.map _ _ fun o => ?_)
    | split
    | (intro o; rfl)
    | (show Order.key _ = Order.key _; rfl)
    | (simp [Retained.kept]; done)
    | (simp_all [Config.transferCapacity, Config.workCapacity]; omega))

theorem settleCopyPage_calm {kd : Kind} {s0 s : State} (hc : Calm kd s0 s) (n : Nat) (c : Claim) (bad : List Nat) (page : Nat) : Calm kd s0 (settleCopyPage s n c bad page) := by
  unfold settleCopyPage
  try dsimp only []
  repeat' (first
    | with_reducible assumption
    | (first | exact fun h => h | exact fun _ h => h | exact Quiet.same rfl rfl | exact Quiet.other rfl rfl | exact PickerQuiet.same rfl rfl)
    | with_reducible apply freeOf_calm
    | with_reducible apply modOrder_calm
    | (with_reducible apply calm_set; focus (first | with_reducible assumption | split | with_reducible apply freeOf_calm | with_reducible apply modOrder_calm))
    | (with_reducible apply calm_foldl; intro s x h)
    | (intro _ _ _; try dsimp only)
    | with_reducible rfl
    | exact Kept.refl _ _
    | exact Kept.same rfl rfl (fun _ => rfl) rfl rfl
    | exact le_max_left _ _
    | exact le_rfl
    | exact OrdersOf.refl _
    | exact OrdersOf.filter _ _
    | exact FilingsOf.refl _
    | exact FilingsOf.filter _ _
    | (intro x; exact ⟨rfl, id⟩)
    | (intro x; simp [Filing.pendingConsent]; done)
    | exact (List.length_filter_le _ _).trans (le_max_left _ _)
    | exact List.length_filter_le _ _
    | (refine OrdersOf.map _ _ fun o => ?_)
    | split
    | (intro o; rfl)
    | (show Order.key _ = Order.key _; rfl)
    | (simp [Retained.kept]; done)
    | (simp_all [Config.transferCapacity, Config.workCapacity]; omega))

theorem copyBurstEnd_calm {kd : Kind} {s0 s : State} (hc : Calm kd s0 s) (item : Nat) (b : ReadBurst) : Calm kd s0 (copyBurstEnd s item b).1 := by
  unfold copyBurstEnd
  try dsimp only []
  repeat' (first
    | with_reducible assumption
    | (first | exact fun h => h | exact fun _ h => h | exact Quiet.same rfl rfl | exact Quiet.other rfl rfl | exact PickerQuiet.same rfl rfl)
    | with_reducible apply closeOrder_calm
    | with_reducible apply dropClaim_calm
    | with_reducible apply mediaErrorPage_calm
    | with_reducible apply settleCopyPage_calm
    | (with_reducible apply calm_set; focus (first | with_reducible assumption | split | with_reducible apply closeOrder_calm | with_reducible apply dropClaim_calm | with_reducible apply mediaErrorPage_calm | with_reducible apply settleCopyPage_calm))
    | (with_reducible apply calm_foldl; intro s x h)
    | (intro _ _ _; try dsimp only)
    | with_reducible rfl
    | exact Kept.refl _ _
    | exact Kept.same rfl rfl (fun _ => rfl) rfl rfl
    | exact le_max_left _ _
    | exact le_rfl
    | exact OrdersOf.refl _
    | exact OrdersOf.filter _ _
    | exact FilingsOf.refl _
    | exact FilingsOf.filter _ _
    | (intro x; exact ⟨rfl, id⟩)
    | (intro x; simp [Filing.pendingConsent]; done)
    | exact (List.length_filter_le _ _).trans (le_max_left _ _)
    | exact List.length_filter_le _ _
    | (refine OrdersOf.map _ _ fun o => ?_)
    | split
    | (intro o; rfl)
    | (show Order.key _ = Order.key _; rfl)
    | (simp [Retained.kept]; done)
    | (simp_all [Config.transferCapacity, Config.workCapacity]; omega))

theorem copyBurstFault_calm {kd : Kind} {s0 s : State} (hc : Calm kd s0 s) (item : Nat) (b : ReadBurst) : Calm kd s0 (copyBurstFault s item b) := by
  unfold copyBurstFault
  try dsimp only []
  repeat' (first
    | with_reducible assumption
    | (first | exact fun h => h | exact fun _ h => h | exact Quiet.same rfl rfl | exact Quiet.other rfl rfl | exact PickerQuiet.same rfl rfl)
    | exact fun o => unname_keeps o _
    | with_reducible apply dropClaim_calm
    | with_reducible apply freeOf_calm
    | with_reducible apply modOrder_calm
    | with_reducible apply settleCopyPage_calm
    | (with_reducible apply calm_set; focus (first | with_reducible assumption | split | with_reducible apply dropClaim_calm | with_reducible apply freeOf_calm | with_reducible apply modOrder_calm | with_reducible apply settleCopyPage_calm))
    | (with_reducible apply calm_foldl; intro s x h)
    | (intro _ _ _; try dsimp only)
    | with_reducible rfl
    | exact Kept.refl _ _
    | exact Kept.same rfl rfl (fun _ => rfl) rfl rfl
    | exact le_max_left _ _
    | exact le_rfl
    | exact OrdersOf.refl _
    | exact OrdersOf.filter _ _
    | exact FilingsOf.refl _
    | exact FilingsOf.filter _ _
    | (intro x; exact ⟨rfl, id⟩)
    | (intro x; simp [Filing.pendingConsent]; done)
    | exact (List.length_filter_le _ _).trans (le_max_left _ _)
    | exact List.length_filter_le _ _
    | (refine OrdersOf.map _ _ fun o => ?_)
    | split
    | (intro o; rfl)
    | (show Order.key _ = Order.key _; rfl)
    | (simp [Retained.kept]; done)
    | (simp_all [Config.transferCapacity, Config.workCapacity]; omega))

theorem grantPort_calm {kd : Kind} {s0 s : State} (hc : Calm kd s0 s) (o : Order) : Calm kd s0 (grantPort s o) := by
  unfold grantPort
  try dsimp only []
  repeat' (first
    | with_reducible assumption
    | (first | exact fun h => h | exact fun _ h => h | exact Quiet.same rfl rfl | exact Quiet.other rfl rfl | exact PickerQuiet.same rfl rfl)
    | with_reducible apply modItem_calm
    | with_reducible apply modOrder_calm
    | with_reducible apply modPort_calm
    | (with_reducible apply calm_set; focus (first | with_reducible assumption | split | with_reducible apply modItem_calm | with_reducible apply modOrder_calm | with_reducible apply modPort_calm))
    | (with_reducible apply calm_foldl; intro s x h)
    | (intro _ _ _; try dsimp only)
    | with_reducible rfl
    | exact Kept.refl _ _
    | exact Kept.same rfl rfl (fun _ => rfl) rfl rfl
    | exact le_max_left _ _
    | exact le_rfl
    | exact OrdersOf.refl _
    | exact OrdersOf.filter _ _
    | exact FilingsOf.refl _
    | exact FilingsOf.filter _ _
    | (intro x; exact ⟨rfl, id⟩)
    | (intro x; simp [Filing.pendingConsent]; done)
    | exact (List.length_filter_le _ _).trans (le_max_left _ _)
    | exact List.length_filter_le _ _
    | (refine OrdersOf.map _ _ fun o => ?_)
    | split
    | (intro o; rfl)
    | (show Order.key _ = Order.key _; rfl)
    | (simp [Retained.kept]; done)
    | (simp_all [Config.transferCapacity, Config.workCapacity]; omega))

theorem portGrantRule_calm {kd : Kind} {s0 s t : State} (hc : Calm kd s0 s) (e : (portGrantRule s) = some t) : Calm kd s0 t := by
  unfold portGrantRule at e
  try dsimp only [] at e
  (repeat' split at e) <;> simp only [Option.map_eq_some_iff, Option.bind_eq_some_iff, Option.some.injEq, reduceCtorEq] at e
  all_goals (first | (subst e) | (obtain ⟨_, _, rfl⟩ := e) | (obtain ⟨_, _, _, _, rfl⟩ := e) | skip)
  all_goals try dsimp only
  all_goals
    repeat' (first
      | with_reducible assumption
      | (first | exact fun h => h | exact fun _ h => h | exact Quiet.same rfl rfl | exact Quiet.other rfl rfl | exact PickerQuiet.same rfl rfl)
      | with_reducible apply grantPort_calm
      | (with_reducible apply calm_set; focus (first | with_reducible assumption | split | with_reducible apply grantPort_calm))
      | (with_reducible apply calm_foldl; intro s x h)
      | (intro _ _ _; try dsimp only)
      | with_reducible rfl
      | exact Kept.refl _ _
      | exact Kept.same rfl rfl (fun _ => rfl) rfl rfl
      | exact le_max_left _ _
      | exact le_rfl
      | exact OrdersOf.refl _
      | exact OrdersOf.filter _ _
      | exact FilingsOf.refl _
      | exact FilingsOf.filter _ _
      | (intro x; exact ⟨rfl, id⟩)
      | (intro x; simp [Filing.pendingConsent]; done)
      | exact (List.length_filter_le _ _).trans (le_max_left _ _)
      | exact List.length_filter_le _ _
      | (refine OrdersOf.map _ _ fun o => ?_)
      | split
      | (intro o; rfl)
      | (show Order.key _ = Order.key _; rfl)
      | (simp [Retained.kept]; done)
      | (simp_all [Config.transferCapacity, Config.workCapacity]; omega))

theorem unparkRule_calm {kd : Kind} {s0 s t : State} (hc : Calm kd s0 s) (e : (unparkRule s) = some t) : Calm kd s0 t := by
  unfold unparkRule at e
  try dsimp only [] at e
  (repeat' split at e) <;> simp only [Option.map_eq_some_iff, Option.bind_eq_some_iff, Option.some.injEq, reduceCtorEq] at e
  all_goals (first | (subst e) | (obtain ⟨_, _, rfl⟩ := e) | (obtain ⟨_, _, _, _, rfl⟩ := e) | skip)
  all_goals try dsimp only
  all_goals
    repeat' (first
      | with_reducible assumption
      | (first | exact fun h => h | exact fun _ h => h | exact Quiet.same rfl rfl | exact Quiet.other rfl rfl | exact PickerQuiet.same rfl rfl)
      | with_reducible apply returnItem_calm
      | (with_reducible apply calm_set; focus (first | with_reducible assumption | split | with_reducible apply returnItem_calm))
      | (with_reducible apply calm_foldl; intro s x h)
      | (intro _ _ _; try dsimp only)
      | with_reducible rfl
      | exact Kept.refl _ _
      | exact Kept.same rfl rfl (fun _ => rfl) rfl rfl
      | exact le_max_left _ _
      | exact le_rfl
      | exact OrdersOf.refl _
      | exact OrdersOf.filter _ _
      | exact FilingsOf.refl _
      | exact FilingsOf.filter _ _
      | (intro x; exact ⟨rfl, id⟩)
      | (intro x; simp [Filing.pendingConsent]; done)
      | exact (List.length_filter_le _ _).trans (le_max_left _ _)
      | exact List.length_filter_le _ _
      | (refine OrdersOf.map _ _ fun o => ?_)
      | split
      | (intro o; rfl)
      | (show Order.key _ = Order.key _; rfl)
      | (simp [Retained.kept]; done)
      | (simp_all [Config.transferCapacity, Config.workCapacity]; omega))

theorem parkRule_calm {kd : Kind} {s0 s t : State} (hc : Calm kd s0 s) (e : (parkRule s) = some t) : Calm kd s0 t := by
  unfold parkRule at e
  try dsimp only [] at e
  (repeat' split at e) <;> simp only [Option.map_eq_some_iff, Option.bind_eq_some_iff, Option.some.injEq, reduceCtorEq] at e
  all_goals (first | (subst e) | (obtain ⟨_, _, rfl⟩ := e) | (obtain ⟨_, _, _, _, rfl⟩ := e) | skip)
  all_goals try dsimp only
  all_goals
    repeat' (first
      | with_reducible assumption
      | (first | exact fun h => h | exact fun _ h => h | exact Quiet.same rfl rfl | exact Quiet.other rfl rfl | exact PickerQuiet.same rfl rfl)
      | with_reducible apply parkItem_calm
      | (with_reducible apply calm_set; focus (first | with_reducible assumption | split | with_reducible apply parkItem_calm))
      | (with_reducible apply calm_foldl; intro s x h)
      | (intro _ _ _; try dsimp only)
      | with_reducible rfl
      | exact Kept.refl _ _
      | exact Kept.same rfl rfl (fun _ => rfl) rfl rfl
      | exact le_max_left _ _
      | exact le_rfl
      | exact OrdersOf.refl _
      | exact OrdersOf.filter _ _
      | exact FilingsOf.refl _
      | exact FilingsOf.filter _ _
      | (intro x; exact ⟨rfl, id⟩)
      | (intro x; simp [Filing.pendingConsent]; done)
      | exact (List.length_filter_le _ _).trans (le_max_left _ _)
      | exact List.length_filter_le _ _
      | (refine OrdersOf.map _ _ fun o => ?_)
      | split
      | (intro o; rfl)
      | (show Order.key _ = Order.key _; rfl)
      | (simp [Retained.kept]; done)
      | (simp_all [Config.transferCapacity, Config.workCapacity]; omega))

theorem remaskQueued_calm {kd : Kind} {s0 s : State} (hc : Calm kd s0 s) (o : Order) (newly : List Nat) : Calm kd s0 (remaskQueued s o newly) := by
  unfold remaskQueued
  try dsimp only []
  repeat' (first
    | with_reducible assumption
    | (first | exact fun h => h | exact fun _ h => h | exact Quiet.same rfl rfl | exact Quiet.other rfl rfl | exact PickerQuiet.same rfl rfl)
    | with_reducible apply endOrder_calm
    | with_reducible apply modOrder_calm
    | (with_reducible apply calm_set; focus (first | with_reducible assumption | split | with_reducible apply endOrder_calm | with_reducible apply modOrder_calm))
    | (with_reducible apply calm_foldl; intro s x h)
    | (intro _ _ _; try dsimp only)
    | with_reducible rfl
    | exact Kept.refl _ _
    | exact Kept.same rfl rfl (fun _ => rfl) rfl rfl
    | exact le_max_left _ _
    | exact le_rfl
    | exact OrdersOf.refl _
    | exact OrdersOf.filter _ _
    | exact FilingsOf.refl _
    | exact FilingsOf.filter _ _
    | (intro x; exact ⟨rfl, id⟩)
    | (intro x; simp [Filing.pendingConsent]; done)
    | exact (List.length_filter_le _ _).trans (le_max_left _ _)
    | exact List.length_filter_le _ _
    | (refine OrdersOf.map _ _ fun o => ?_)
    | split
    | (intro o; rfl)
    | (show Order.key _ = Order.key _; rfl)
    | (simp [Retained.kept]; done)
    | (simp_all [Config.transferCapacity, Config.workCapacity]; omega))

theorem dropNewly_calm {kd : Kind} {s0 s : State} (hc : Calm kd s0 s) (n : Nat) (newly : List Nat) : Calm kd s0 (dropNewly s n newly) := by
  unfold dropNewly
  try dsimp only []
  repeat' (first
    | with_reducible assumption
    | (first | exact fun h => h | exact fun _ h => h | exact Quiet.same rfl rfl | exact Quiet.other rfl rfl | exact PickerQuiet.same rfl rfl)
    | with_reducible apply dropCopyPages_calm
    | (with_reducible apply calm_set; focus (first | with_reducible assumption | split | with_reducible apply dropCopyPages_calm))
    | (with_reducible apply calm_foldl; intro s x h)
    | (intro _ _ _; try dsimp only)
    | with_reducible rfl
    | exact Kept.refl _ _
    | exact Kept.same rfl rfl (fun _ => rfl) rfl rfl
    | exact le_max_left _ _
    | exact le_rfl
    | exact OrdersOf.refl _
    | exact OrdersOf.filter _ _
    | exact FilingsOf.refl _
    | exact FilingsOf.filter _ _
    | (intro x; exact ⟨rfl, id⟩)
    | (intro x; simp [Filing.pendingConsent]; done)
    | exact (List.length_filter_le _ _).trans (le_max_left _ _)
    | exact List.length_filter_le _ _
    | (refine OrdersOf.map _ _ fun o => ?_)
    | split
    | (intro o; rfl)
    | (show Order.key _ = Order.key _; rfl)
    | (simp [Retained.kept]; done)
    | (simp_all [Config.transferCapacity, Config.workCapacity]; omega))

theorem remaskHolder_calm {kd : Kind} {s0 s : State} (hc : Calm kd s0 s) (o : Order) (newly : List Nat) : Calm kd s0 (remaskHolder s o newly) := by
  unfold remaskHolder
  try dsimp only []
  repeat' (first
    | with_reducible assumption
    | (first | exact fun h => h | exact fun _ h => h | exact Quiet.same rfl rfl | exact Quiet.other rfl rfl | exact PickerQuiet.same rfl rfl)
    | with_reducible apply dropNewly_calm
    | with_reducible apply goOn_calm
    | with_reducible apply modOrder_calm
    | with_reducible apply modPort_calm
    | with_reducible apply renameWaitingCopy_calm
    | with_reducible apply voidSet_calm
    | (with_reducible apply calm_set; focus (first | with_reducible assumption | split | with_reducible apply dropNewly_calm | with_reducible apply goOn_calm | with_reducible apply modOrder_calm | with_reducible apply modPort_calm | with_reducible apply renameWaitingCopy_calm | with_reducible apply voidSet_calm))
    | (with_reducible apply calm_foldl; intro s x h)
    | (intro _ _ _; try dsimp only)
    | with_reducible rfl
    | exact Kept.refl _ _
    | exact Kept.same rfl rfl (fun _ => rfl) rfl rfl
    | exact le_max_left _ _
    | exact le_rfl
    | exact OrdersOf.refl _
    | exact OrdersOf.filter _ _
    | exact FilingsOf.refl _
    | exact FilingsOf.filter _ _
    | (intro x; exact ⟨rfl, id⟩)
    | (intro x; simp [Filing.pendingConsent]; done)
    | exact (List.length_filter_le _ _).trans (le_max_left _ _)
    | exact List.length_filter_le _ _
    | (refine OrdersOf.map _ _ fun o => ?_)
    | split
    | (intro o; rfl)
    | (show Order.key _ = Order.key _; rfl)
    | (simp [Retained.kept]; done)
    | (simp_all [Config.transferCapacity, Config.workCapacity]; omega))

theorem remaskOrders_calm {kd : Kind} {s0 s : State} (hc : Calm kd s0 s) (target : Nat) (newly : List Nat) : Calm kd s0 (remaskOrders s target newly) := by
  unfold remaskOrders
  try dsimp only []
  repeat' (first
    | with_reducible assumption
    | (first | exact fun h => h | exact fun _ h => h | exact Quiet.same rfl rfl | exact Quiet.other rfl rfl | exact PickerQuiet.same rfl rfl)
    | with_reducible apply remaskHolder_calm
    | with_reducible apply remaskQueued_calm
    | (with_reducible apply calm_set; focus (first | with_reducible assumption | split | with_reducible apply remaskHolder_calm | with_reducible apply remaskQueued_calm))
    | (with_reducible apply calm_foldl; intro s x h)
    | (intro _ _ _; try dsimp only)
    | with_reducible rfl
    | exact Kept.refl _ _
    | exact Kept.same rfl rfl (fun _ => rfl) rfl rfl
    | exact le_max_left _ _
    | exact le_rfl
    | exact OrdersOf.refl _
    | exact OrdersOf.filter _ _
    | exact FilingsOf.refl _
    | exact FilingsOf.filter _ _
    | (intro x; exact ⟨rfl, id⟩)
    | (intro x; simp [Filing.pendingConsent]; done)
    | exact (List.length_filter_le _ _).trans (le_max_left _ _)
    | exact List.length_filter_le _ _
    | (refine OrdersOf.map _ _ fun o => ?_)
    | split
    | (intro o; rfl)
    | (show Order.key _ = Order.key _; rfl)
    | (simp [Retained.kept]; done)
    | (simp_all [Config.transferCapacity, Config.workCapacity]; omega))

end Sys2Proof.Machine
end

