-- ==== Sys2Proof/Laws/PrintingCalm.lean ====
section
/-! SUPPORT. Each operation of Machine/Printing.lean is calm. -/

set_option linter.unusedTactic false
set_option linter.unreachableTactic false
set_option linter.unusedSimpArgs false

namespace Sys2Proof.Machine

theorem afterSending_keeps (o : Order) (t : ToSend) :
    (o.afterSending t).key = o.key := by
  unfold Order.afterSending
  (repeat' split) <;> rfl

theorem sendThePage_calm {kd : Kind} {s0 s : State} (hc : Calm kd s0 s) (o : Order) (t : ToSend) : Calm kd s0 (sendThePage s o t) := by
  unfold sendThePage
  try dsimp only []
  repeat' (first
    | with_reducible assumption
    | (first | exact fun h => h | exact fun _ h => h | exact Quiet.same rfl rfl | exact Quiet.other rfl rfl | exact PickerQuiet.same rfl rfl)
    | exact fun o => afterSending_keeps o _
    | with_reducible apply modOrder_calm
    | with_reducible apply modPort_calm
    | (with_reducible apply calm_set; focus (first | with_reducible assumption | split | with_reducible apply modOrder_calm | with_reducible apply modPort_calm))
    | (with_reducible apply calm_foldl; intro s x h)
    | (intro _ _ _; try dsimp only)
    | with_reducible rfl
    | exact Kept.refl _ _
    | exact Kept.same rfl rfl (fun _ => rfl) rfl rfl
    | exact le_max_left _ _
    | exact le_rfl
    | exact OrdersOf.refl _
    | exact OrdersOf.filter _ _
    | exact FilingsOf.refl _
    | exact FilingsOf.filter _ _
    | (intro x; exact ⟨rfl, id⟩)
    | (intro x; simp [Filing.pendingConsent]; done)
    | exact (List.length_filter_le _ _).trans (le_max_left _ _)
    | exact List.length_filter_le _ _
    | (refine OrdersOf.map _ _ fun o => ?_)
    | split
    | (intro o; rfl)
    | (show Order.key _ = Order.key _; rfl)
    | (simp [Retained.kept]; done)
    | (simp_all [Config.transferCapacity, Config.workCapacity]; omega))

theorem sendPageOp_calm {kd : Kind} {s0 s : State} (hc : Calm kd s0 s) : Calm kd s0 (sendPageOp s) := by
  unfold sendPageOp
  try dsimp only []
  repeat' (first
    | with_reducible assumption
    | (first | exact fun h => h | exact fun _ h => h | exact Quiet.same rfl rfl | exact Quiet.other rfl rfl | exact PickerQuiet.same rfl rfl)
    | with_reducible apply sendThePage_calm
    | (with_reducible apply calm_set; focus (first | with_reducible assumption | split | with_reducible apply sendThePage_calm))
    | (with_reducible apply calm_foldl; intro s x h)
    | (intro _ _ _; try dsimp only)
    | with_reducible rfl
    | exact Kept.refl _ _
    | exact Kept.same rfl rfl (fun _ => rfl) rfl rfl
    | exact le_max_left _ _
    | exact le_rfl
    | exact OrdersOf.refl _
    | exact OrdersOf.filter _ _
    | exact FilingsOf.refl _
    | exact FilingsOf.filter _ _
    | (intro x; exact ⟨rfl, id⟩)
    | (intro x; simp [Filing.pendingConsent]; done)
    | exact (List.length_filter_le _ _).trans (le_max_left _ _)
    | exact List.length_filter_le _ _
    | (refine OrdersOf.map _ _ fun o => ?_)
    | split
    | (intro o; rfl)
    | (show Order.key _ = Order.key _; rfl)
    | (simp [Retained.kept]; done)
    | (simp_all [Config.transferCapacity, Config.workCapacity]; omega))

theorem pageEndSentOp_calm {kd : Kind} {s0 s : State} (hc : Calm kd s0 s) : Calm kd s0 (pageEndSentOp s) := by
  unfold pageEndSentOp
  try dsimp only []
  repeat' (first
    | with_reducible assumption
    | (first | exact fun h => h | exact fun _ h => h | exact Quiet.same rfl rfl | exact Quiet.other rfl rfl | exact PickerQuiet.same rfl rfl)
    | with_reducible apply modPort_calm
    | (with_reducible apply calm_set; focus (first | with_reducible assumption | split | with_reducible apply modPort_calm))
    | (with_reducible apply calm_foldl; intro s x h)
    | (intro _ _ _; try dsimp only)
    | with_reducible rfl
    | exact Kept.refl _ _
    | exact Kept.same rfl rfl (fun _ => rfl) rfl rfl
    | exact le_max_left _ _
    | exact le_rfl
    | exact OrdersOf.refl _
    | exact OrdersOf.filter _ _
    | exact FilingsOf.refl _
    | exact FilingsOf.filter _ _
    | (intro x; exact ⟨rfl, id⟩)
    | (intro x; simp [Filing.pendingConsent]; done)
    | exact (List.length_filter_le _ _).trans (le_max_left _ _)
    | exact List.length_filter_le _ _
    | (refine OrdersOf.map _ _ fun o => ?_)
    | split
    | (intro o; rfl)
    | (show Order.key _ = Order.key _; rfl)
    | (simp [Retained.kept]; done)
    | (simp_all [Config.transferCapacity, Config.workCapacity]; omega))

theorem pageSettled_calm {kd : Kind} {s0 s : State} (hc : Calm kd s0 s) (h : PageInHand) : Calm kd s0 (pageSettled s h) := by
  unfold pageSettled
  try dsimp only []
  repeat' (first
    | with_reducible assumption
    | (first | exact fun h => h | exact fun _ h => h | exact Quiet.same rfl rfl | exact Quiet.other rfl rfl | exact PickerQuiet.same rfl rfl)
    | with_reducible apply dropCopyPage_calm
    | with_reducible apply endOrder_calm
    | with_reducible apply goOn_calm
    | with_reducible apply modPort_calm
    | (with_reducible apply calm_set; focus (first | with_reducible assumption | split | with_reducible apply dropCopyPage_calm | with_reducible apply endOrder_calm | with_reducible apply goOn_calm | with_reducible apply modPort_calm))
    | (with_reducible apply calm_foldl; intro s x h)
    | (intro _ _ _; try dsimp only)
    | with_reducible rfl
    | exact Kept.refl _ _
    | exact Kept.same rfl rfl (fun _ => rfl) rfl rfl
    | exact le_max_left _ _
    | exact le_rfl
    | exact OrdersOf.refl _
    | exact OrdersOf.filter _ _
    | exact FilingsOf.refl _
    | exact FilingsOf.filter _ _
    | (intro x; exact ⟨rfl, id⟩)
    | (intro x; simp [Filing.pendingConsent]; done)
    | exact (List.length_filter_le _ _).trans (le_max_left _ _)
    | exact List.length_filter_le _ _
    | (refine OrdersOf.map _ _ fun o => ?_)
    | split
    | (intro o; rfl)
    | (show Order.key _ = Order.key _; rfl)
    | (simp [Retained.kept]; done)
    | (simp_all [Config.transferCapacity, Config.workCapacity]; omega))

theorem sum_tset (f : Nat → Nat) : ∀ (l : List Nat) (i : Nat) (m : Nat), 1 ≤ i → i ≤ l.length →
    (tset l i (tget l i 0 + m)).sum = l.sum + m
  | [], i, _, h1, h2 => by simp at h2; omega
  | x :: xs, 1, m, _, _ => by simp [tset, tget]; omega
  | x :: xs, i + 2, m, _, h2 => by
    have := sum_tset f xs (i + 1) m (by omega) (by simpa using h2)
    simp only [tset, tget, List.set_cons_succ, List.sum_cons, List.getD_cons_succ] at this ⊢
    omega

theorem charged_tset : ∀ (l : List Account) (i : Nat) (m : Nat) (g : Account → Account),
    (∀ k, (g k).charged = k.charged + m) → 1 ≤ i → i ≤ l.length →
    ((tset l i (g (tget l i Account.initial))).map Account.charged).sum = (l.map Account.charged).sum + m
  | [], i, _, _, _, h1, h2 => by simp at h2; omega
  | x :: xs, 1, m, g, hg, _, _ => by simp [tset, tget, hg]; omega
  | x :: xs, i + 2, m, g, hg, _, h2 => by
    have := charged_tset xs (i + 1) m g hg (by omega) (by simpa using h2)
    simp only [tset, tget, List.set_cons_succ, List.map_cons, List.sum_cons, List.getD_cons_succ] at this ⊢
    omega

@[simp] theorem charge_total (c : DayCounts) (m : Nat) (w : Charged) : (c.charge m w).total = c.total + m := by
  cases w <;> rfl

/-- A charge to the payer of an order keeps the day-balance law (R169). -/
theorem charge_calm {kd : Kind} {s0 s : State} (hc : Calm kd s0 s) (hp : kd.pays = true) (o : Order) (ho : o ∈ s.orders)
    (m : Nat) (what : Charged) : Calm kd s0 (charge s o.payer o.station m what) := by
  refine hc.trans ⟨?_, fun _ => rfl, id, fun e => by simp [hp] at e, ?_, ?_, ?_, ?_, ⟨[], by simp [charge, State.retain],
    by simp⟩, le_max_left _ _, le_max_left _ _, le_rfl, FilingsOf.refl _, le_max_left _ _, OrdersOf.refl _, id, ?_, ?_, ?_⟩
  · unfold charge State.retain Retained.pay
    cases o.payer <;> rfl
  · unfold charge State.retain Retained.pay
    cases o.payer <;> simp
  · intro ha hk hpay hb
    have hpo := hpay o ho
    unfold DayBalanced at hb ⊢
    unfold charge State.retain Retained.pay
    unfold Order.payerOk at hpo
    cases e : o.payer with
    | zero =>
      rw [e] at hpo
      simp only [charge_total]
      rw [sum_tset id _ _ _ (hpo.2 rfl).1 (by rw [hk]; exact (hpo.2 rfl).2)]
      omega
    | succ a =>
      rw [e] at hpo
      simp only [charge_total]
      rw [charged_tset _ _ m (fun k => { k with balance := k.balance - m, charged := k.charged + m }) (fun _ => rfl)
        (by omega) (by rw [ha]; exact hpo.1)]
      omega
  · unfold charge State.retain Retained.pay
    cases o.payer <;> rfl
  · unfold charge State.retain Retained.pay
    cases o.payer <;> exact Kept.same rfl rfl (fun _ => rfl) rfl rfl
  · unfold charge State.retain Retained.pay
    cases o.payer <;> exact id
  · unfold charge State.retain Retained.pay
    cases o.payer <;> exact fun _ => id
  · unfold charge State.retain Retained.pay
    cases o.payer <;> exact fun _ => id

theorem Order.withHold_keeps (o : Order) (n : Nat) : (o.withHold n).key = o.key := rfl

theorem chargeOrder_calm {kd : Kind} {s0 s : State} (hc : Calm kd s0 s) (hp : kd.pays = true) (o : Order)
    (ho : o ∈ s.orders) (m pages : Nat) (what : Charged) : Calm kd s0 (chargeOrder s o m pages what) :=
  modOrder_calm (charge_calm hc hp o ho m what) _ _ fun _ => rfl

theorem acceptPage_calm {kd : Kind} {s0 s : State} (hc : Calm kd s0 s) (hp : kd.pays = true) (o : Order)
    (ho : o ∈ s.orders) (h : PageInHand) : Calm kd s0 (acceptPage s o h) := by
  unfold acceptPage
  split
  · split
    · split
      · exact hc
      · exact modOrder_calm hc _ _ fun _ => rfl
    · exact chargeOrder_calm hc hp o ho _ _ _
  · exact modOrder_calm (chargeOrder_calm hc hp o ho _ _ _) _ _ fun _ => rfl
  · exact modOrder_calm hc _ _ fun _ => rfl

theorem spoilPage_calm {kd : Kind} {s0 s : State} (hc : Calm kd s0 s) (o : Order) (h : PageInHand) : Calm kd s0 (spoilPage s o h) := by
  unfold spoilPage
  try dsimp only []
  repeat' (first
    | with_reducible assumption
    | (first | exact fun h => h | exact fun _ h => h | exact Quiet.same rfl rfl | exact Quiet.other rfl rfl | exact PickerQuiet.same rfl rfl)
    | with_reducible apply countSpoiled_calm
    | with_reducible apply endOrder_calm
    | with_reducible apply modOrder_calm
    | with_reducible apply modPort_calm
    | with_reducible apply pageSettled_calm
    | (with_reducible apply calm_set; focus (first | with_reducible assumption | split | with_reducible apply countSpoiled_calm | with_reducible apply endOrder_calm | with_reducible apply modOrder_calm | with_reducible apply modPort_calm | with_reducible apply pageSettled_calm))
    | (with_reducible apply calm_foldl; intro s x h)
    | (intro _ _ _; try dsimp only)
    | with_reducible rfl
    | exact Kept.refl _ _
    | exact Kept.same rfl rfl (fun _ => rfl) rfl rfl
    | exact le_max_left _ _
    | exact le_rfl
    | exact OrdersOf.refl _
    | exact OrdersOf.filter _ _
    | exact FilingsOf.refl _
    | exact FilingsOf.filter _ _
    | (intro x; exact ⟨rfl, id⟩)
    | (intro x; simp [Filing.pendingConsent]; done)
    | exact (List.length_filter_le _ _).trans (le_max_left _ _)
    | exact List.length_filter_le _ _
    | (refine OrdersOf.map _ _ fun o => ?_)
    | split
    | (intro o; rfl)
    | (show Order.key _ = Order.key _; rfl)
    | (simp [Retained.kept]; done)
    | (simp_all [Config.transferCapacity, Config.workCapacity]; omega))

theorem printerAnswerOp_calm {kd : Kind} {s0 s : State} (hc : Calm kd s0 s) (hp : kd.pays = true) (seq : Word16)
    (result : Byte) : Calm kd s0 (printerAnswerOp s seq result) := by
  unfold printerAnswerOp
  split
  · exact hc
  · split
    · exact hc
    · next h _ _ o ho =>
      split
      · exact hc
      · split
        · exact pageSettled_calm (acceptPage_calm hc hp o (List.mem_of_find?_eq_some ho) _) _
        · split
          · exact spoilPage_calm hc _ _
          · exact hc

theorem setPrinter_calm {kd : Kind} {s0 s : State} (hc : Calm kd s0 s) (st : PrinterState) (cause : Nat) : Calm kd s0 (setPrinter s st cause) := by
  unfold setPrinter
  try dsimp only []
  repeat' (first
    | with_reducible assumption
    | (first | exact fun h => h | exact fun _ h => h | exact Quiet.same rfl rfl | exact Quiet.other rfl rfl | exact PickerQuiet.same rfl rfl)
    | with_reducible apply modPort_calm
    | with_reducible apply notify_calm
    | (with_reducible apply calm_set; focus (first | with_reducible assumption | split | with_reducible apply modPort_calm | with_reducible apply notify_calm))
    | (with_reducible apply calm_foldl; intro s x h)
    | (intro _ _ _; try dsimp only)
    | with_reducible rfl
    | exact Kept.refl _ _
    | exact Kept.same rfl rfl (fun _ => rfl) rfl rfl
    | exact le_max_left _ _
    | exact le_rfl
    | exact OrdersOf.refl _
    | exact OrdersOf.filter _ _
    | exact FilingsOf.refl _
    | exact FilingsOf.filter _ _
    | (intro x; exact ⟨rfl, id⟩)
    | (intro x; simp [Filing.pendingConsent]; done)
    | exact (List.length_filter_le _ _).trans (le_max_left _ _)
    | exact List.length_filter_le _ _
    | (refine OrdersOf.map _ _ fun o => ?_)
    | split
    | (intro o; rfl)
    | (show Order.key _ = Order.key _; rfl)
    | (simp [Retained.kept]; done)
    | (simp_all [Config.transferCapacity, Config.workCapacity]; omega))

theorem printerFault_calm {kd : Kind} {s0 s : State} (hc : Calm kd s0 s) (cause : Nat) : Calm kd s0 (printerFault s cause) := by
  unfold printerFault
  try dsimp only []
  repeat' (first
    | with_reducible assumption
    | (first | exact fun h => h | exact fun _ h => h | exact Quiet.same rfl rfl | exact Quiet.other rfl rfl | exact PickerQuiet.same rfl rfl)
    | with_reducible apply endOrder_calm
    | with_reducible apply setPrinter_calm
    | (with_reducible apply calm_set; focus (first | with_reducible assumption | split | with_reducible apply endOrder_calm | with_reducible apply setPrinter_calm))
    | (with_reducible apply calm_foldl; intro s x h)
    | (intro _ _ _; try dsimp only)
    | with_reducible rfl
    | exact Kept.refl _ _
    | exact Kept.same rfl rfl (fun _ => rfl) rfl rfl
    | exact le_max_left _ _
    | exact le_rfl
    | exact OrdersOf.refl _
    | exact OrdersOf.filter _ _
    | exact FilingsOf.refl _
    | exact FilingsOf.filter _ _
    | (intro x; exact ⟨rfl, id⟩)
    | (intro x; simp [Filing.pendingConsent]; done)
    | exact (List.length_filter_le _ _).trans (le_max_left _ _)
    | exact List.length_filter_le _ _
    | (refine OrdersOf.map _ _ fun o => ?_)
    | split
    | (intro o; rfl)
    | (show Order.key _ = Order.key _; rfl)
    | (simp [Retained.kept]; done)
    | (simp_all [Config.transferCapacity, Config.workCapacity]; omega))

theorem setLimit_calm {kd : Kind} {s0 s : State} (hc : Calm kd s0 s) (old new : Limit) : Calm kd s0 (setLimit s old new) := by
  unfold setLimit
  try dsimp only []
  repeat' (first
    | with_reducible assumption
    | (first | exact fun h => h | exact fun _ h => h | exact Quiet.same rfl rfl | exact Quiet.other rfl rfl | exact PickerQuiet.same rfl rfl)
    | with_reducible apply modPort_calm
    | (with_reducible apply calm_set; focus (first | with_reducible assumption | split | with_reducible apply modPort_calm))
    | (with_reducible apply calm_foldl; intro s x h)
    | (intro _ _ _; try dsimp only)
    | with_reducible rfl
    | exact Kept.refl _ _
    | exact Kept.same rfl rfl (fun _ => rfl) rfl rfl
    | exact le_max_left _ _
    | exact le_rfl
    | exact OrdersOf.refl _
    | exact OrdersOf.filter _ _
    | exact FilingsOf.refl _
    | exact FilingsOf.filter _ _
    | (intro x; exact ⟨rfl, id⟩)
    | (intro x; simp [Filing.pendingConsent]; done)
    | exact (List.length_filter_le _ _).trans (le_max_left _ _)
    | exact List.length_filter_le _ _
    | (refine OrdersOf.map _ _ fun o => ?_)
    | split
    | (intro o; rfl)
    | (show Order.key _ = Order.key _; rfl)
    | (simp [Retained.kept]; done)
    | (simp_all [Config.transferCapacity, Config.workCapacity]; omega))

theorem setHolderState_calm {kd : Kind} {s0 s : State} (hc : Calm kd s0 s) (f : Order → OrderState) : Calm kd s0 (setHolderState s f) := by
  unfold setHolderState
  try dsimp only []
  repeat' (first
    | with_reducible assumption
    | (first | exact fun h => h | exact fun _ h => h | exact Quiet.same rfl rfl | exact Quiet.other rfl rfl | exact PickerQuiet.same rfl rfl)
    | with_reducible apply modOrder_calm
    | (with_reducible apply calm_set; focus (first | with_reducible assumption | split | with_reducible apply modOrder_calm))
    | (with_reducible apply calm_foldl; intro s x h)
    | (intro _ _ _; try dsimp only)
    | with_reducible rfl
    | exact Kept.refl _ _
    | exact Kept.same rfl rfl (fun _ => rfl) rfl rfl
    | exact le_max_left _ _
    | exact le_rfl
    | exact OrdersOf.refl _
    | exact OrdersOf.filter _ _
    | exact FilingsOf.refl _
    | exact FilingsOf.filter _ _
    | (intro x; exact ⟨rfl, id⟩)
    | (intro x; simp [Filing.pendingConsent]; done)
    | exact (List.length_filter_le _ _).trans (le_max_left _ _)
    | exact List.length_filter_le _ _
    | (refine OrdersOf.map _ _ fun o => ?_)
    | split
    | (intro o; rfl)
    | (show Order.key _ = Order.key _; rfl)
    | (simp [Retained.kept]; done)
    | (simp_all [Config.transferCapacity, Config.workCapacity]; omega))

theorem printerReady_calm {kd : Kind} {s0 s : State} (hc : Calm kd s0 s) : Calm kd s0 (printerReady s) := by
  unfold printerReady
  try dsimp only []
  repeat' (first
    | with_reducible assumption
    | (first | exact fun h => h | exact fun _ h => h | exact Quiet.same rfl rfl | exact Quiet.other rfl rfl | exact PickerQuiet.same rfl rfl)
    | with_reducible apply setHolderState_calm
    | with_reducible apply setLimit_calm
    | with_reducible apply setPrinter_calm
    | (with_reducible apply calm_set; focus (first | with_reducible assumption | split | with_reducible apply setHolderState_calm | with_reducible apply setLimit_calm | with_reducible apply setPrinter_calm))
    | (with_reducible apply calm_foldl; intro s x h)
    | (intro _ _ _; try dsimp only)
    | with_reducible rfl
    | exact Kept.refl _ _
    | exact Kept.same rfl rfl (fun _ => rfl) rfl rfl
    | exact le_max_left _ _
    | exact le_rfl
    | exact OrdersOf.refl _
    | exact OrdersOf.filter _ _
    | exact FilingsOf.refl _
    | exact FilingsOf.filter _ _
    | (intro x; exact ⟨rfl, id⟩)
    | (intro x; simp [Filing.pendingConsent]; done)
    | exact (List.length_filter_le _ _).trans (le_max_left _ _)
    | exact List.length_filter_le _ _
    | (refine OrdersOf.map _ _ fun o => ?_)
    | split
    | (intro o; rfl)
    | (show Order.key _ = Order.key _; rfl)
    | (simp [Retained.kept]; done)
    | (simp_all [Config.transferCapacity, Config.workCapacity]; omega))

theorem printerNotReady_calm {kd : Kind} {s0 s : State} (hc : Calm kd s0 s) : Calm kd s0 (printerNotReady s) := by
  unfold printerNotReady
  try dsimp only []
  repeat' (first
    | with_reducible assumption
    | (first | exact fun h => h | exact fun _ h => h | exact Quiet.same rfl rfl | exact Quiet.other rfl rfl | exact PickerQuiet.same rfl rfl)
    | with_reducible apply setHolderState_calm
    | with_reducible apply setLimit_calm
    | with_reducible apply setPrinter_calm
    | (with_reducible apply calm_set; focus (first | with_reducible assumption | split | with_reducible apply setHolderState_calm | with_reducible apply setLimit_calm | with_reducible apply setPrinter_calm))
    | (with_reducible apply calm_foldl; intro s x h)
    | (intro _ _ _; try dsimp only)
    | with_reducible rfl
    | exact Kept.refl _ _
    | exact Kept.same rfl rfl (fun _ => rfl) rfl rfl
    | exact le_max_left _ _
    | exact le_rfl
    | exact OrdersOf.refl _
    | exact OrdersOf.filter _ _
    | exact FilingsOf.refl _
    | exact FilingsOf.filter _ _
    | (intro x; exact ⟨rfl, id⟩)
    | (intro x; simp [Filing.pendingConsent]; done)
    | exact (List.length_filter_le _ _).trans (le_max_left _ _)
    | exact List.length_filter_le _ _
    | (refine OrdersOf.map _ _ fun o => ?_)
    | split
    | (intro o; rfl)
    | (show Order.key _ = Order.key _; rfl)
    | (simp [Retained.kept]; done)
    | (simp_all [Config.transferCapacity, Config.workCapacity]; omega))

theorem printerStatusOp_calm {kd : Kind} {s0 s : State} (hc : Calm kd s0 s) (st : Byte) : Calm kd s0 (printerStatusOp s st) := by
  unfold printerStatusOp
  try dsimp only []
  repeat' (first
    | with_reducible assumption
    | (first | exact fun h => h | exact fun _ h => h | exact Quiet.same rfl rfl | exact Quiet.other rfl rfl | exact PickerQuiet.same rfl rfl)
    | with_reducible apply printerFault_calm
    | with_reducible apply printerNotReady_calm
    | with_reducible apply printerReady_calm
    | (with_reducible apply calm_set; focus (first | with_reducible assumption | split | with_reducible apply printerFault_calm | with_reducible apply printerNotReady_calm | with_reducible apply printerReady_calm))
    | (with_reducible apply calm_foldl; intro s x h)
    | (intro _ _ _; try dsimp only)
    | with_reducible rfl
    | exact Kept.refl _ _
    | exact Kept.same rfl rfl (fun _ => rfl) rfl rfl
    | exact le_max_left _ _
    | exact le_rfl
    | exact OrdersOf.refl _
    | exact OrdersOf.filter _ _
    | exact FilingsOf.refl _
    | exact FilingsOf.filter _ _
    | (intro x; exact ⟨rfl, id⟩)
    | (intro x; simp [Filing.pendingConsent]; done)
    | exact (List.length_filter_le _ _).trans (le_max_left _ _)
    | exact List.length_filter_le _ _
    | (refine OrdersOf.map _ _ fun o => ?_)
    | split
    | (intro o; rfl)
    | (show Order.key _ = Order.key _; rfl)
    | (simp [Retained.kept]; done)
    | (simp_all [Config.transferCapacity, Config.workCapacity]; omega))

theorem answerTimeoutOp_calm {kd : Kind} {s0 s : State} (hc : Calm kd s0 s) : Calm kd s0 (answerTimeoutOp s) := by
  unfold answerTimeoutOp
  try dsimp only []
  repeat' (first
    | with_reducible assumption
    | (first | exact fun h => h | exact fun _ h => h | exact Quiet.same rfl rfl | exact Quiet.other rfl rfl | exact PickerQuiet.same rfl rfl)
    | with_reducible apply modPort_calm
    | with_reducible apply printerFault_calm
    | (with_reducible apply calm_set; focus (first | with_reducible assumption | split | with_reducible apply modPort_calm | with_reducible apply printerFault_calm))
    | (with_reducible apply calm_foldl; intro s x h)
    | (intro _ _ _; try dsimp only)
    | with_reducible rfl
    | exact Kept.refl _ _
    | exact Kept.same rfl rfl (fun _ => rfl) rfl rfl
    | exact le_max_left _ _
    | exact le_rfl
    | exact OrdersOf.refl _
    | exact OrdersOf.filter _ _
    | exact FilingsOf.refl _
    | exact FilingsOf.filter _ _
    | (intro x; exact ⟨rfl, id⟩)
    | (intro x; simp [Filing.pendingConsent]; done)
    | exact (List.length_filter_le _ _).trans (le_max_left _ _)
    | exact List.length_filter_le _ _
    | (refine OrdersOf.map _ _ fun o => ?_)
    | split
    | (intro o; rfl)
    | (show Order.key _ = Order.key _; rfl)
    | (simp [Retained.kept]; done)
    | (simp_all [Config.transferCapacity, Config.workCapacity]; omega))

end Sys2Proof.Machine
end

