-- ==== Sys2Proof/Laws/FilingCalm.lean ====
section
/-! SUPPORT. Each operation of Machine/Filing.lean is calm. -/

set_option linter.unusedTactic false
set_option linter.unreachableTactic false
set_option linter.unusedSimpArgs false

namespace Sys2Proof.Machine

theorem commitEntry_length (s : State) (f : Filing) (r : Retained) : (commitEntry s f r).length = r.withheld.length := by
  unfold commitEntry
  split <;> simp

theorem takeSpare_calm {kd : Kind} {s0 s t : State} (h : Calm kd s0 s) (ref : Word32) (n : Nat) {p : Nat}
    (e : takeSpare s ref n = some (p, t)) : Calm kd s0 t := by
  unfold takeSpare at e
  dsimp only at e
  split at e
  · cases e
  · split at e
    · cases e
    · next hn =>
      obtain ⟨_, rfl⟩ := Prod.mk.inj (Option.some.inj e)
      refine setSide_calm h n _ fun l => ⟨fun x => absurd x (l.assigned fun y => hn (Or.inr (Or.inr y))), fun y => y,
        fun y => absurd y fun y => hn (Or.inr (Or.inr y)), ⟨rfl, rfl, rfl⟩, l.1.marks n, le_rfl, Nat.le_succ _, le_rfl⟩

theorem clearMarker_calm {kd : Kind} {s0 s : State} (hc : Calm kd s0 s) (ref : Word32) : Calm kd s0 (clearMarker s ref) := by
  unfold clearMarker
  try dsimp only []
  repeat' (first
    | with_reducible assumption
    | (first | exact fun h => h | exact fun _ h => h | exact Quiet.same rfl rfl | exact Quiet.other rfl rfl | exact PickerQuiet.same rfl rfl)
    | with_reducible apply retain_calm
    | (with_reducible apply calm_set; focus (first | with_reducible assumption | split | with_reducible apply retain_calm))
    | (with_reducible apply calm_foldl; intro s x h)
    | (intro _ _ _; try dsimp only)
    | with_reducible rfl
    | exact Kept.refl _ _
    | exact Kept.same rfl rfl (fun _ => rfl) rfl rfl
    | exact le_max_left _ _
    | exact le_rfl
    | exact OrdersOf.refl _
    | exact OrdersOf.filter _ _
    | exact FilingsOf.refl _
    | exact FilingsOf.filter _ _
    | (intro x; exact ⟨rfl, id⟩)
    | (intro x; simp [Filing.pendingConsent]; done)
    | exact (List.length_filter_le _ _).trans (le_max_left _ _)
    | exact List.length_filter_le _ _
    | (refine OrdersOf.map _ _ fun o => ?_)
    | split
    | (intro o; rfl)
    | (show Order.key _ = Order.key _; rfl)
    | (simp [Retained.kept]; done)
    | (simp_all [Config.transferCapacity, Config.workCapacity]; omega))

theorem removeFiling_calm {kd : Kind} {s0 s : State} (hc : Calm kd s0 s) (ref : Word32) : Calm kd s0 (removeFiling s ref) := by
  unfold removeFiling
  try dsimp only []
  repeat' (first
    | with_reducible assumption
    | (first | exact fun h => h | exact fun _ h => h | exact Quiet.same rfl rfl | exact Quiet.other rfl rfl | exact PickerQuiet.same rfl rfl | exact fun h => ReserveLaw.sub h id List.filter_sublist)
    | with_reducible apply clearMarker_calm
    | with_reducible apply endItemOpt_calm
    | with_reducible apply freeFilingClaim_calm
    | (with_reducible apply calm_set; focus (first | with_reducible assumption | split | with_reducible apply clearMarker_calm | with_reducible apply endItemOpt_calm | with_reducible apply freeFilingClaim_calm))
    | (with_reducible apply calm_foldl; intro s x h)
    | (intro _ _ _; try dsimp only)
    | with_reducible rfl
    | exact Kept.refl _ _
    | exact Kept.same rfl rfl (fun _ => rfl) rfl rfl
    | exact le_max_left _ _
    | exact le_rfl
    | exact OrdersOf.refl _
    | exact OrdersOf.filter _ _
    | exact FilingsOf.refl _
    | exact FilingsOf.filter _ _
    | (intro x; exact ⟨rfl, id⟩)
    | (intro x; simp [Filing.pendingConsent]; done)
    | exact (List.length_filter_le _ _).trans (le_max_left _ _)
    | exact List.length_filter_le _ _
    | (refine OrdersOf.map _ _ fun o => ?_)
    | split
    | (intro o; rfl)
    | (show Order.key _ = Order.key _; rfl)
    | (simp [Retained.kept]; done)
    | (simp_all [Config.transferCapacity, Config.workCapacity]; omega))

theorem failFiling_calm {kd : Kind} {s0 s : State} (hc : Calm kd s0 s) (ref : Word32) (why : FailReason) : Calm kd s0 (failFiling s ref why) := by
  unfold failFiling
  try dsimp only []
  repeat' (first
    | with_reducible assumption
    | (first | exact fun h => h | exact fun _ h => h | exact Quiet.same rfl rfl | exact Quiet.other rfl rfl | exact PickerQuiet.same rfl rfl)
    | with_reducible apply notify_calm
    | with_reducible apply removeFiling_calm
    | (with_reducible apply calm_set; focus (first | with_reducible assumption | split | with_reducible apply notify_calm | with_reducible apply removeFiling_calm))
    | (with_reducible apply calm_foldl; intro s x h)
    | (intro _ _ _; try dsimp only)
    | with_reducible rfl
    | exact Kept.refl _ _
    | exact Kept.same rfl rfl (fun _ => rfl) rfl rfl
    | exact le_max_left _ _
    | exact le_rfl
    | exact OrdersOf.refl _
    | exact OrdersOf.filter _ _
    | exact FilingsOf.refl _
    | exact FilingsOf.filter _ _
    | (intro x; exact ⟨rfl, id⟩)
    | (intro x; simp [Filing.pendingConsent]; done)
    | exact (List.length_filter_le _ _).trans (le_max_left _ _)
    | exact List.length_filter_le _ _
    | (refine OrdersOf.map _ _ fun o => ?_)
    | split
    | (intro o; rfl)
    | (show Order.key _ = Order.key _; rfl)
    | (simp [Retained.kept]; done)
    | (simp_all [Config.transferCapacity, Config.workCapacity]; omega))

theorem voidFiling_calm {kd : Kind} {s0 s : State} (hc : Calm kd s0 s) (f : Filing) (why : VoidReason) : Calm kd s0 (voidFiling s f why) := by
  unfold voidFiling
  try dsimp only []
  repeat' (first
    | with_reducible assumption
    | (first | exact fun h => h | exact fun _ h => h | exact Quiet.same rfl rfl | exact Quiet.other rfl rfl | exact PickerQuiet.same rfl rfl)
    | with_reducible apply notify_calm
    | with_reducible apply removeFiling_calm
    | (with_reducible apply calm_set; focus (first | with_reducible assumption | split | with_reducible apply notify_calm | with_reducible apply removeFiling_calm))
    | (with_reducible apply calm_foldl; intro s x h)
    | (intro _ _ _; try dsimp only)
    | with_reducible rfl
    | exact Kept.refl _ _
    | exact Kept.same rfl rfl (fun _ => rfl) rfl rfl
    | exact le_max_left _ _
    | exact le_rfl
    | exact OrdersOf.refl _
    | exact OrdersOf.filter _ _
    | exact FilingsOf.refl _
    | exact FilingsOf.filter _ _
    | (intro x; exact ⟨rfl, id⟩)
    | (intro x; simp [Filing.pendingConsent]; done)
    | exact (List.length_filter_le _ _).trans (le_max_left _ _)
    | exact List.length_filter_le _ _
    | (refine OrdersOf.map _ _ fun o => ?_)
    | split
    | (intro o; rfl)
    | (show Order.key _ = Order.key _; rfl)
    | (simp [Retained.kept]; done)
    | (simp_all [Config.transferCapacity, Config.workCapacity]; omega))

theorem expireDue_calm {kd : Kind} {s0 s : State} (hc : Calm kd s0 s) : Calm kd s0 (expireDue s) := by
  unfold expireDue
  try dsimp only []
  repeat' (first
    | with_reducible assumption
    | (first | exact fun h => h | exact fun _ h => h | exact Quiet.same rfl rfl | exact Quiet.other rfl rfl | exact PickerQuiet.same rfl rfl)
    | with_reducible apply voidFiling_calm
    | (with_reducible apply calm_set; focus (first | with_reducible assumption | split | with_reducible apply voidFiling_calm))
    | (with_reducible apply calm_foldl; intro s x h)
    | (intro _ _ _; try dsimp only)
    | with_reducible rfl
    | exact Kept.refl _ _
    | exact Kept.same rfl rfl (fun _ => rfl) rfl rfl
    | exact le_max_left _ _
    | exact le_rfl
    | exact OrdersOf.refl _
    | exact OrdersOf.filter _ _
    | exact FilingsOf.refl _
    | exact FilingsOf.filter _ _
    | (intro x; exact ⟨rfl, id⟩)
    | (intro x; simp [Filing.pendingConsent]; done)
    | exact (List.length_filter_le _ _).trans (le_max_left _ _)
    | exact List.length_filter_le _ _
    | (refine OrdersOf.map _ _ fun o => ?_)
    | split
    | (intro o; rfl)
    | (show Order.key _ = Order.key _; rfl)
    | (simp [Retained.kept]; done)
    | (simp_all [Config.transferCapacity, Config.workCapacity]; omega))

theorem supersede_calm {kd : Kind} {s0 s : State} (hc : Calm kd s0 s) (st : Nat) : Calm kd s0 (supersede s st) := by
  unfold supersede
  try dsimp only []
  repeat' (first
    | with_reducible assumption
    | (first | exact fun h => h | exact fun _ h => h | exact Quiet.same rfl rfl | exact Quiet.other rfl rfl | exact PickerQuiet.same rfl rfl)
    | with_reducible apply voidFiling_calm
    | (with_reducible apply calm_set; focus (first | with_reducible assumption | split | with_reducible apply voidFiling_calm))
    | (with_reducible apply calm_foldl; intro s x h)
    | (intro _ _ _; try dsimp only)
    | with_reducible rfl
    | exact Kept.refl _ _
    | exact Kept.same rfl rfl (fun _ => rfl) rfl rfl
    | exact le_max_left _ _
    | exact le_rfl
    | exact OrdersOf.refl _
    | exact OrdersOf.filter _ _
    | exact FilingsOf.refl _
    | exact FilingsOf.filter _ _
    | (intro x; exact ⟨rfl, id⟩)
    | (intro x; simp [Filing.pendingConsent]; done)
    | exact (List.length_filter_le _ _).trans (le_max_left _ _)
    | exact List.length_filter_le _ _
    | (refine OrdersOf.map _ _ fun o => ?_)
    | split
    | (intro o; rfl)
    | (show Order.key _ = Order.key _; rfl)
    | (simp [Retained.kept]; done)
    | (simp_all [Config.transferCapacity, Config.workCapacity]; omega))

theorem queueFiling_calm {kd : Kind} {s0 s : State} (hc : Calm kd s0 s) (ref : Word32) : Calm kd s0 (queueFiling s ref) := by
  unfold queueFiling
  try dsimp only []
  repeat' (first
    | with_reducible assumption
    | (first | exact fun h => h | exact fun _ h => h | exact Quiet.same rfl rfl | exact Quiet.other rfl rfl | exact PickerQuiet.same rfl rfl)
    | with_reducible apply createFileItem_calm
    | with_reducible apply modFiling_calm
    | (with_reducible apply calm_set; focus (first | with_reducible assumption | split | with_reducible apply createFileItem_calm | with_reducible apply modFiling_calm))
    | (with_reducible apply calm_foldl; intro s x h)
    | (intro _ _ _; try dsimp only)
    | with_reducible rfl
    | exact Kept.refl _ _
    | exact Kept.same rfl rfl (fun _ => rfl) rfl rfl
    | exact le_max_left _ _
    | exact le_rfl
    | exact OrdersOf.refl _
    | exact OrdersOf.filter _ _
    | exact FilingsOf.refl _
    | exact FilingsOf.filter _ _
    | (intro x; exact ⟨rfl, id⟩)
    | (intro x; simp [Filing.pendingConsent]; done)
    | exact (List.length_filter_le _ _).trans (le_max_left _ _)
    | exact List.length_filter_le _ _
    | (refine OrdersOf.map _ _ fun o => ?_)
    | split
    | (intro o; rfl)
    | (show Order.key _ = Order.key _; rfl)
    | (simp [Retained.kept]; done)
    | (simp_all [Config.transferCapacity, Config.workCapacity]; omega))

theorem awaitConsent_calm {kd : Kind} {s0 s : State} (hc : Calm kd s0 s) (ref : Word32) {f : Filing}
    (hf : s.findFiling ref = some f) (hs : f.state = .receiving) : Calm kd s0 (awaitConsent s ref) := by
  refine calm_set hc _ _ _ _ _ _ _ _ _ _ _ _ _ _ _ _ _ _ _ _ _ _ _ rfl (Kept.refl _ _) rfl rfl (le_max_left _ _) le_rfl
    (FilingsOf.map _ _ (fun x => by split <;> rfl) fun hn x hx => ?_) (le_max_left _ _) (OrdersOf.refl _) id id (fun _ => id) fun _ => id
  split
  · next e =>
    have hr : f.ref = ref := by simpa using List.find?_some hf
    obtain rfl := List.inj_on_of_nodup_map hn hx (List.mem_of_find?_eq_some hf) (e.trans hr.symm)
    simp [Filing.pendingConsent, hs]
  · exact id

theorem setTarget_calm {kd : Kind} {s0 s : State} (hc : Calm kd s0 s) (f : Filing) (n : Option Nat) : Calm kd s0 (setTarget s f n) := by
  unfold setTarget
  try dsimp only []
  repeat' (first
    | with_reducible assumption
    | (first | exact fun h => h | exact fun _ h => h | exact Quiet.same rfl rfl | exact Quiet.other rfl rfl | exact PickerQuiet.same rfl rfl)
    | with_reducible apply modFiling_calm
    | with_reducible apply modItem_calm
    | (with_reducible apply calm_set; focus (first | with_reducible assumption | split | with_reducible apply modFiling_calm | with_reducible apply modItem_calm))
    | (with_reducible apply calm_foldl; intro s x h)
    | (intro _ _ _; try dsimp only)
    | with_reducible rfl
    | exact Kept.refl _ _
    | exact Kept.same rfl rfl (fun _ => rfl) rfl rfl
    | exact le_max_left _ _
    | exact le_rfl
    | exact OrdersOf.refl _
    | exact OrdersOf.filter _ _
    | exact FilingsOf.refl _
    | exact FilingsOf.filter _ _
    | (intro x; exact ⟨rfl, id⟩)
    | (intro x; simp [Filing.pendingConsent]; done)
    | exact (List.length_filter_le _ _).trans (le_max_left _ _)
    | exact List.length_filter_le _ _
    | (refine OrdersOf.map _ _ fun o => ?_)
    | split
    | (intro o; rfl)
    | (show Order.key _ = Order.key _; rfl)
    | (simp [Retained.kept]; done)
    | (simp_all [Config.transferCapacity, Config.workCapacity]; omega))

theorem holdFiling_calm {kd : Kind} {s0 s : State} (hc : Calm kd s0 s) (f : Filing) : Calm kd s0 (holdFiling s f) := by
  unfold holdFiling
  try dsimp only []
  repeat' (first
    | with_reducible assumption
    | (first | exact fun h => h | exact fun _ h => h | exact Quiet.same rfl rfl | exact Quiet.other rfl rfl | exact PickerQuiet.same rfl rfl)
    | with_reducible apply modFiling_calm
    | with_reducible apply notify_calm
    | with_reducible apply setTarget_calm
    | (with_reducible apply calm_set; focus (first | with_reducible assumption | split | with_reducible apply modFiling_calm | with_reducible apply notify_calm | with_reducible apply setTarget_calm))
    | (with_reducible apply calm_foldl; intro s x h)
    | (intro _ _ _; try dsimp only)
    | with_reducible rfl
    | exact Kept.refl _ _
    | exact Kept.same rfl rfl (fun _ => rfl) rfl rfl
    | exact le_max_left _ _
    | exact le_rfl
    | exact OrdersOf.refl _
    | exact OrdersOf.filter _ _
    | exact FilingsOf.refl _
    | exact FilingsOf.filter _ _
    | (intro x; exact ⟨rfl, id⟩)
    | (intro x; simp [Filing.pendingConsent]; done)
    | exact (List.length_filter_le _ _).trans (le_max_left _ _)
    | exact List.length_filter_le _ _
    | (refine OrdersOf.map _ _ fun o => ?_)
    | split
    | (intro o; rfl)
    | (show Order.key _ = Order.key _; rfl)
    | (simp [Retained.kept]; done)
    | (simp_all [Config.transferCapacity, Config.workCapacity]; omega))

theorem chooseBlank_calm {kd : Kind} {s0 s : State} (hc : Calm kd s0 s) (f : Filing) : Calm kd s0 (chooseBlank s f) := by
  unfold chooseBlank
  try dsimp only []
  repeat' (first
    | with_reducible assumption
    | (first | exact fun h => h | exact fun _ h => h | exact Quiet.same rfl rfl | exact Quiet.other rfl rfl | exact PickerQuiet.same rfl rfl)
    | with_reducible apply holdFiling_calm
    | with_reducible apply setTarget_calm
    | (with_reducible apply calm_set; focus (first | with_reducible assumption | split | with_reducible apply holdFiling_calm | with_reducible apply setTarget_calm))
    | (with_reducible apply calm_foldl; intro s x h)
    | (intro _ _ _; try dsimp only)
    | with_reducible rfl
    | exact Kept.refl _ _
    | exact Kept.same rfl rfl (fun _ => rfl) rfl rfl
    | exact le_max_left _ _
    | exact le_rfl
    | exact OrdersOf.refl _
    | exact OrdersOf.filter _ _
    | exact FilingsOf.refl _
    | exact FilingsOf.filter _ _
    | (intro x; exact ⟨rfl, id⟩)
    | (intro x; simp [Filing.pendingConsent]; done)
    | exact (List.length_filter_le _ _).trans (le_max_left _ _)
    | exact List.length_filter_le _ _
    | (refine OrdersOf.map _ _ fun o => ?_)
    | split
    | (intro o; rfl)
    | (show Order.key _ = Order.key _; rfl)
    | (simp [Retained.kept]; done)
    | (simp_all [Config.transferCapacity, Config.workCapacity]; omega))

theorem openSideCheck_calm {kd : Kind} {s0 s : State} (hc : Calm kd s0 s) (f : Filing) : Calm kd s0 (openSideCheck s f) := by
  unfold openSideCheck
  try dsimp only []
  repeat' (first
    | with_reducible assumption
    | (first | exact fun h => h | exact fun _ h => h | exact Quiet.same rfl rfl | exact Quiet.other rfl rfl | exact PickerQuiet.same rfl rfl)
    | with_reducible apply chooseBlank_calm
    | with_reducible apply closeSideAs_calm
    | with_reducible apply setTarget_calm
    | (with_reducible apply calm_set; focus (first | with_reducible assumption | split | with_reducible apply chooseBlank_calm | with_reducible apply closeSideAs_calm | with_reducible apply setTarget_calm))
    | (with_reducible apply calm_foldl; intro s x h)
    | (intro _ _ _; try dsimp only)
    | with_reducible rfl
    | exact Kept.refl _ _
    | exact Kept.same rfl rfl (fun _ => rfl) rfl rfl
    | exact le_max_left _ _
    | exact le_rfl
    | exact OrdersOf.refl _
    | exact OrdersOf.filter _ _
    | exact FilingsOf.refl _
    | exact FilingsOf.filter _ _
    | (intro x; exact ⟨rfl, id⟩)
    | (intro x; simp [Filing.pendingConsent]; done)
    | exact (List.length_filter_le _ _).trans (le_max_left _ _)
    | exact List.length_filter_le _ _
    | (refine OrdersOf.map _ _ fun o => ?_)
    | split
    | (intro o; rfl)
    | (show Order.key _ = Order.key _; rfl)
    | (simp [Retained.kept]; done)
    | (simp_all [Config.transferCapacity, Config.workCapacity]; omega))

theorem fileCheckRule_calm {kd : Kind} {s0 s t : State} (hc : Calm kd s0 s) (e : (fileCheckRule s) = some t) : Calm kd s0 t := by
  unfold fileCheckRule at e
  try dsimp only [] at e
  (repeat' split at e) <;> simp only [Option.map_eq_some_iff, Option.bind_eq_some_iff, Option.some.injEq, reduceCtorEq] at e
  all_goals (first | (subst e) | (obtain ⟨_, _, rfl⟩ := e) | (obtain ⟨_, _, _, _, rfl⟩ := e) | skip)
  all_goals try dsimp only
  all_goals
    repeat' (first
      | with_reducible assumption
      | (first | exact fun h => h | exact fun _ h => h | exact Quiet.same rfl rfl | exact Quiet.other rfl rfl | exact PickerQuiet.same rfl rfl)
      | with_reducible apply openSideCheck_calm
      | (with_reducible apply calm_set; focus (first | with_reducible assumption | split | with_reducible apply openSideCheck_calm))
      | (with_reducible apply calm_foldl; intro s x h)
      | (intro _ _ _; try dsimp only)
      | with_reducible rfl
      | exact Kept.refl _ _
      | exact Kept.same rfl rfl (fun _ => rfl) rfl rfl
      | exact le_max_left _ _
      | exact le_rfl
      | exact OrdersOf.refl _
      | exact OrdersOf.filter _ _
      | exact FilingsOf.refl _
      | exact FilingsOf.filter _ _
      | (intro x; exact ⟨rfl, id⟩)
      | (intro x; simp [Filing.pendingConsent]; done)
      | exact (List.length_filter_le _ _).trans (le_max_left _ _)
      | exact List.length_filter_le _ _
      | (refine OrdersOf.map _ _ fun o => ?_)
      | split
      | (intro o; rfl)
      | (show Order.key _ = Order.key _; rfl)
      | (simp [Retained.kept]; done)
      | (simp_all [Config.transferCapacity, Config.workCapacity]; omega))

theorem heldReleaseRule_calm {kd : Kind} {s0 s t : State} (hc : Calm kd s0 s) (e : (heldReleaseRule s) = some t) : Calm kd s0 t := by
  unfold heldReleaseRule at e
  try dsimp only [] at e
  (repeat' split at e) <;> simp only [Option.map_eq_some_iff, Option.bind_eq_some_iff, Option.some.injEq, reduceCtorEq] at e
  all_goals (first | (subst e) | (obtain ⟨_, _, rfl⟩ := e) | (obtain ⟨_, _, _, _, rfl⟩ := e) | skip)
  all_goals try dsimp only
  all_goals
    repeat' (first
      | with_reducible assumption
      | (first | exact fun h => h | exact fun _ h => h | exact Quiet.same rfl rfl | exact Quiet.other rfl rfl | exact PickerQuiet.same rfl rfl)
      | with_reducible apply modFiling_calm
      | (with_reducible apply calm_set; focus (first | with_reducible assumption | split | with_reducible apply modFiling_calm))
      | (with_reducible apply calm_foldl; intro s x h)
      | (intro _ _ _; try dsimp only)
      | with_reducible rfl
      | exact Kept.refl _ _
      | exact Kept.same rfl rfl (fun _ => rfl) rfl rfl
      | exact le_max_left _ _
      | exact le_rfl
      | exact OrdersOf.refl _
      | exact OrdersOf.filter _ _
      | exact FilingsOf.refl _
      | exact FilingsOf.filter _ _
      | (intro x; exact ⟨rfl, id⟩)
      | (intro x; simp [Filing.pendingConsent]; done)
      | exact (List.length_filter_le _ _).trans (le_max_left _ _)
      | exact List.length_filter_le _ _
      | (refine OrdersOf.map _ _ fun o => ?_)
      | split
      | (intro o; rfl)
      | (show Order.key _ = Order.key _; rfl)
      | (simp [Retained.kept]; done)
      | (simp_all [Config.transferCapacity, Config.workCapacity]; omega))

theorem claimBurst_calm {kd : Kind} {s0 s : State} (hc : Calm kd s0 s) (f : Filing) (n hi : Nat)
    (hn : (s.side n).state = .opened) : Calm kd s0 (claimBurst s f n hi) := by
  unfold claimBurst
  refine modFiling_calm (retain_calm hc _ (by simp [Retained.kept]) (Kept.side n _ rfl rfl rfl rfl rfl fun l => ?_) id (fun _ => id)
    fun _ => id) _ _
    fun x => ⟨rfl, by simp [Filing.pendingConsent]⟩
  have ho : (s.ret.side n).state ≠ .blank := by rw [show s.ret.side n = s.side n from rfl, hn]; nofun
  exact ⟨fun x => absurd x (l.assigned ho), fun y => y, fun y => absurd y ho, ⟨rfl, rfl, rfl⟩, l.1.marks n, Nat.le_add_right _ _,
    le_rfl, le_rfl⟩

theorem addRemap_calm {kd : Kind} {s0 s : State} (hc : Calm kd s0 s) (ref : Word32) (offset spare : Nat) : Calm kd s0 (addRemap s ref offset spare) := by
  unfold addRemap
  try dsimp only []
  repeat' (first
    | with_reducible assumption
    | (first | exact fun h => h | exact fun _ h => h | exact Quiet.same rfl rfl | exact Quiet.other rfl rfl | exact PickerQuiet.same rfl rfl)
    | with_reducible apply modFiling_calm
    | (with_reducible apply calm_set; focus (first | with_reducible assumption | split | with_reducible apply modFiling_calm))
    | (with_reducible apply calm_foldl; intro s x h)
    | (intro _ _ _; try dsimp only)
    | with_reducible rfl
    | exact Kept.refl _ _
    | exact Kept.same rfl rfl (fun _ => rfl) rfl rfl
    | exact le_max_left _ _
    | exact le_rfl
    | exact OrdersOf.refl _
    | exact OrdersOf.filter _ _
    | exact FilingsOf.refl _
    | exact FilingsOf.filter _ _
    | (intro x; exact ⟨rfl, id⟩)
    | (intro x; simp [Filing.pendingConsent]; done)
    | exact (List.length_filter_le _ _).trans (le_max_left _ _)
    | exact List.length_filter_le _ _
    | (refine OrdersOf.map _ _ fun o => ?_)
    | split
    | (intro o; rfl)
    | (show Order.key _ = Order.key _; rfl)
    | (simp [Retained.kept]; done)
    | (simp_all [Config.transferCapacity, Config.workCapacity]; omega))

theorem resetFiling_calm {kd : Kind} {s0 s : State} (hc : Calm kd s0 s) (f : Filing) : Calm kd s0 (resetFiling s f) := by
  unfold resetFiling
  try dsimp only []
  repeat' (first
    | with_reducible assumption
    | (first | exact fun h => h | exact fun _ h => h | exact Quiet.same rfl rfl | exact Quiet.other rfl rfl | exact PickerQuiet.same rfl rfl)
    | with_reducible apply modFiling_calm
    | with_reducible apply setTarget_calm
    | (with_reducible apply calm_set; focus (first | with_reducible assumption | split | with_reducible apply modFiling_calm | with_reducible apply setTarget_calm))
    | (with_reducible apply calm_foldl; intro s x h)
    | (intro _ _ _; try dsimp only)
    | with_reducible rfl
    | exact Kept.refl _ _
    | exact Kept.same rfl rfl (fun _ => rfl) rfl rfl
    | exact le_max_left _ _
    | exact le_rfl
    | exact OrdersOf.refl _
    | exact OrdersOf.filter _ _
    | exact FilingsOf.refl _
    | exact FilingsOf.filter _ _
    | (intro x; exact ⟨rfl, id⟩)
    | (intro x; simp [Filing.pendingConsent]; done)
    | exact (List.length_filter_le _ _).trans (le_max_left _ _)
    | exact List.length_filter_le _ _
    | (refine OrdersOf.map _ _ fun o => ?_)
    | split
    | (intro o; rfl)
    | (show Order.key _ = Order.key _; rfl)
    | (simp [Retained.kept]; done)
    | (simp_all [Config.transferCapacity, Config.workCapacity]; omega))

theorem relocateFiling_calm {kd : Kind} {s0 s : State} (hc : Calm kd s0 s) (ref : Word32) (n : Nat) (why : CloseReason) : Calm kd s0 (relocateFiling s ref n why).1 := by
  unfold relocateFiling
  try dsimp only []
  repeat' (first
    | with_reducible assumption
    | (first | exact fun h => h | exact fun _ h => h | exact Quiet.same rfl rfl | exact Quiet.other rfl rfl | exact PickerQuiet.same rfl rfl)
    | with_reducible apply closeSideAs_calm
    | with_reducible apply failFiling_calm
    | with_reducible apply openSideCheck_calm
    | with_reducible apply resetFiling_calm
    | (with_reducible apply calm_set; focus (first | with_reducible assumption | split | with_reducible apply closeSideAs_calm | with_reducible apply failFiling_calm | with_reducible apply openSideCheck_calm | with_reducible apply resetFiling_calm))
    | (with_reducible apply calm_foldl; intro s x h)
    | (intro _ _ _; try dsimp only)
    | with_reducible rfl
    | exact Kept.refl _ _
    | exact Kept.same rfl rfl (fun _ => rfl) rfl rfl
    | exact le_max_left _ _
    | exact le_rfl
    | exact OrdersOf.refl _
    | exact OrdersOf.filter _ _
    | exact FilingsOf.refl _
    | exact FilingsOf.filter _ _
    | (intro x; exact ⟨rfl, id⟩)
    | (intro x; simp [Filing.pendingConsent]; done)
    | exact (List.length_filter_le _ _).trans (le_max_left _ _)
    | exact List.length_filter_le _ _
    | (refine OrdersOf.map _ _ fun o => ?_)
    | split
    | (intro o; rfl)
    | (show Order.key _ = Order.key _; rfl)
    | (simp [Retained.kept]; done)
    | (simp_all [Config.transferCapacity, Config.workCapacity]; omega))

theorem writeBurstEnd_calm {kd : Kind} {s0 s : State} (hc : Calm kd s0 s) (b : WriteBurst) : Calm kd s0 (writeBurstEnd s b).1 := by
  unfold writeBurstEnd
  try dsimp only []
  repeat' (first
    | with_reducible assumption
    | (first | exact fun h => h | exact fun _ h => h | exact Quiet.same rfl rfl | exact Quiet.other rfl rfl | exact PickerQuiet.same rfl rfl)
    | with_reducible apply modFiling_calm
    | with_reducible apply relocateFiling_calm
    | with_reducible apply removeFiling_calm
    | (with_reducible apply calm_set; focus (first | with_reducible assumption | split | with_reducible apply modFiling_calm | with_reducible apply relocateFiling_calm | with_reducible apply removeFiling_calm))
    | (with_reducible apply calm_foldl; intro s x h)
    | (intro _ _ _; try dsimp only)
    | with_reducible rfl
    | exact Kept.refl _ _
    | exact Kept.same rfl rfl (fun _ => rfl) rfl rfl
    | exact le_max_left _ _
    | exact le_rfl
    | exact OrdersOf.refl _
    | exact OrdersOf.filter _ _
    | exact FilingsOf.refl _
    | exact FilingsOf.filter _ _
    | (intro x; exact ⟨rfl, id⟩)
    | (intro x; simp [Filing.pendingConsent]; done)
    | exact (List.length_filter_le _ _).trans (le_max_left _ _)
    | exact List.length_filter_le _ _
    | (refine OrdersOf.map _ _ fun o => ?_)
    | split
    | (intro o; rfl)
    | (show Order.key _ = Order.key _; rfl)
    | (simp [Retained.kept]; done)
    | (simp_all [Config.transferCapacity, Config.workCapacity]; omega))

theorem writeBurstFault_calm {kd : Kind} {s0 s : State} (hc : Calm kd s0 s) (b : WriteBurst) : Calm kd s0 (writeBurstFault s b) := by
  unfold writeBurstFault
  try dsimp only []
  repeat' (first
    | with_reducible assumption
    | (first | exact fun h => h | exact fun _ h => h | exact Quiet.same rfl rfl | exact Quiet.other rfl rfl | exact PickerQuiet.same rfl rfl)
    | with_reducible apply modFiling_calm
    | with_reducible apply removeFiling_calm
    | (with_reducible apply calm_set; focus (first | with_reducible assumption | split | with_reducible apply modFiling_calm | with_reducible apply removeFiling_calm))
    | (with_reducible apply calm_foldl; intro s x h)
    | (intro _ _ _; try dsimp only)
    | with_reducible rfl
    | exact Kept.refl _ _
    | exact Kept.same rfl rfl (fun _ => rfl) rfl rfl
    | exact le_max_left _ _
    | exact le_rfl
    | exact OrdersOf.refl _
    | exact OrdersOf.filter _ _
    | exact FilingsOf.refl _
    | exact FilingsOf.filter _ _
    | (intro x; exact ⟨rfl, id⟩)
    | (intro x; simp [Filing.pendingConsent]; done)
    | exact (List.length_filter_le _ _).trans (le_max_left _ _)
    | exact List.length_filter_le _ _
    | (refine OrdersOf.map _ _ fun o => ?_)
    | split
    | (intro o; rfl)
    | (show Order.key _ = Order.key _; rfl)
    | (simp [Retained.kept]; done)
    | (simp_all [Config.transferCapacity, Config.workCapacity]; omega))

theorem countSlot_calm {kd : Kind} {s0 s : State} (hc : Calm kd s0 s) (n : Nat) : Calm kd s0 (countSlot s n) := by
  unfold countSlot
  split
  · exact hc
  · next h =>
    exact setSide_calm hc n _ fun l => ⟨fun x => absurd x (l.assigned h), fun y => y, fun y => absurd y h, ⟨rfl, rfl, rfl⟩,
      l.1.marks n, le_rfl, le_rfl, Nat.le_succ _⟩

/-- The entry that a committing rectification had reserved is its alone (R130, R131). -/
theorem commitEntry_reserve {s : State} (h : ReserveKept s) (f : Filing) :
    ReserveLaw s.mode (s.reserved.filter fun x => x.2 != f.ref) (commitEntry s f s.ret) := by
  refine ⟨fun e => ?_, h.once.sublist ((List.filter_sublist).map _), fun e he => ?_⟩
  · rw [h.rebuild e]; rfl
  · obtain ⟨hm, hr⟩ := List.mem_filter.1 he
    have hr : e.2 ≠ f.ref := by simpa using hr
    have hf := h.free e hm
    rw [commitEntry_length]
    refine ⟨hf.1, hf.2.1, ?_⟩
    unfold commitEntry
    split
    · next i r e' hq =>
      have hi : i ≠ e.1 := fun hx => by
        have h1 := List.mem_of_find?_eq_some hq
        have h2 := List.find?_some hq
        have := List.inj_on_of_nodup_map h.once h1 hm hx
        rw [← this] at hr
        simp only [beq_iff_eq] at h2
        exact hr h2
      rw [tget_tset_other _ _ _ _ _ hi]
      exact hf.2.2
    · exact hf.2.2

theorem commitUpdate_calm {kd : Kind} {s0 s : State} (hc : Calm kd s0 s) (f : Filing) (n : Nat)
    (hn : (s.side n).state = .opened) : Calm kd s0 (commitUpdate s f n) := by
  unfold commitUpdate
  exact calm_set hc _ _ _ _ _ _ _ _ _ _ _ _ _ _ _ _ _ _ _ _ _ _ _ (by simp [Retained.kept, State.retain])
    (Kept.commit n rfl rfl rfl rfl (commitEntry_length _ _ _) hn) rfl rfl (le_max_left _ _) le_rfl (FilingsOf.refl _) (le_max_left _ _)
    (OrdersOf.refl _) id (fun h => commitEntry_reserve h f) (fun _ => id) fun _ => id

theorem thresholdTest_calm {kd : Kind} {s0 s : State} (hc : Calm kd s0 s) (n : Nat) : Calm kd s0 (thresholdTest s n) := by
  unfold thresholdTest
  try dsimp only []
  repeat' (first
    | with_reducible assumption
    | (first | exact fun h => h | exact fun _ h => h | exact Quiet.same rfl rfl | exact Quiet.other rfl rfl | exact PickerQuiet.same rfl rfl)
    | with_reducible apply closeSideAs_calm
    | (with_reducible apply calm_set; focus (first | with_reducible assumption | split | with_reducible apply closeSideAs_calm))
    | (with_reducible apply calm_foldl; intro s x h)
    | (intro _ _ _; try dsimp only)
    | with_reducible rfl
    | exact Kept.refl _ _
    | exact Kept.same rfl rfl (fun _ => rfl) rfl rfl
    | exact le_max_left _ _
    | exact le_rfl
    | exact OrdersOf.refl _
    | exact OrdersOf.filter _ _
    | exact FilingsOf.refl _
    | exact FilingsOf.filter _ _
    | (intro x; exact ⟨rfl, id⟩)
    | (intro x; simp [Filing.pendingConsent]; done)
    | exact (List.length_filter_le _ _).trans (le_max_left _ _)
    | exact List.length_filter_le _ _
    | (refine OrdersOf.map _ _ fun o => ?_)
    | split
    | (intro o; rfl)
    | (show Order.key _ = Order.key _; rfl)
    | (simp [Retained.kept]; done)
    | (simp_all [Config.transferCapacity, Config.workCapacity]; omega))

theorem remask_calm {kd : Kind} {s0 s : State} (hc : Calm kd s0 s) (target : Nat) (newly : List Nat) : Calm kd s0 (remask s target newly) := by
  unfold remask
  try dsimp only []
  repeat' (first
    | with_reducible assumption
    | (first | exact fun h => h | exact fun _ h => h | exact Quiet.same rfl rfl | exact Quiet.other rfl rfl | exact PickerQuiet.same rfl rfl)
    | with_reducible apply remaskFetches_calm
    | with_reducible apply remaskOrders_calm
    | (with_reducible apply calm_set; focus (first | with_reducible assumption | split | with_reducible apply remaskFetches_calm | with_reducible apply remaskOrders_calm))
    | (with_reducible apply calm_foldl; intro s x h)
    | (intro _ _ _; try dsimp only)
    | with_reducible rfl
    | exact Kept.refl _ _
    | exact Kept.same rfl rfl (fun _ => rfl) rfl rfl
    | exact le_max_left _ _
    | exact le_rfl
    | exact OrdersOf.refl _
    | exact OrdersOf.filter _ _
    | exact FilingsOf.refl _
    | exact FilingsOf.filter _ _
    | (intro x; exact ⟨rfl, id⟩)
    | (intro x; simp [Filing.pendingConsent]; done)
    | exact (List.length_filter_le _ _).trans (le_max_left _ _)
    | exact List.length_filter_le _ _
    | (refine OrdersOf.map _ _ fun o => ?_)
    | split
    | (intro o; rfl)
    | (show Order.key _ = Order.key _; rfl)
    | (simp [Retained.kept]; done)
    | (simp_all [Config.transferCapacity, Config.workCapacity]; omega))

theorem commitFiling_calm {kd : Kind} {s0 s : State} (hc : Calm kd s0 s) (d : Nat) (b : CommitBurst)
    (hn : (s.side b.side).state = .opened) : Calm kd s0 (commitFiling s d b) := by
  unfold commitFiling
  split
  · exact hc
  · next f _ =>
    have h := modDrive_calm (commitUpdate_calm hc f b.side hn) d (fun x => { x with dir := x.dir ++ [b.doc] }) (Quiet.same rfl rfl)
    dsimp only
    split
    · exact thresholdTest_calm (removeFiling_calm (notify_calm (freeFilingClaim_calm (remask_calm h _ _) _) _ _ _) _) _
    · exact thresholdTest_calm (removeFiling_calm (notify_calm (freeFilingClaim_calm h _) _ _ _) _) _

theorem commitSlotFailed_calm {kd : Kind} {s0 s : State} (hc : Calm kd s0 s) (b : CommitBurst) : Calm kd s0 (commitSlotFailed s b).1 := by
  unfold commitSlotFailed
  try dsimp only []
  repeat' (first
    | with_reducible assumption
    | (first | exact fun h => h | exact fun _ h => h | exact Quiet.same rfl rfl | exact Quiet.other rfl rfl | exact PickerQuiet.same rfl rfl)
    | with_reducible apply countSlot_calm
    | (with_reducible apply calm_set; focus (first | with_reducible assumption | split | with_reducible apply countSlot_calm))
    | (with_reducible apply calm_foldl; intro s x h)
    | (intro _ _ _; try dsimp only)
    | with_reducible rfl
    | exact Kept.refl _ _
    | exact Kept.same rfl rfl (fun _ => rfl) rfl rfl
    | exact le_max_left _ _
    | exact le_rfl
    | exact OrdersOf.refl _
    | exact OrdersOf.filter _ _
    | exact FilingsOf.refl _
    | exact FilingsOf.filter _ _
    | (intro x; exact ⟨rfl, id⟩)
    | (intro x; simp [Filing.pendingConsent]; done)
    | exact (List.length_filter_le _ _).trans (le_max_left _ _)
    | exact List.length_filter_le _ _
    | (refine OrdersOf.map _ _ fun o => ?_)
    | split
    | (intro o; rfl)
    | (show Order.key _ = Order.key _; rfl)
    | (simp [Retained.kept]; done)
    | (simp_all [Config.transferCapacity, Config.workCapacity]; omega))

theorem commitBurstFault_calm {kd : Kind} {s0 s : State} (hc : Calm kd s0 s) (b : CommitBurst) : Calm kd s0 (commitBurstFault s b) := by
  unfold commitBurstFault
  try dsimp only []
  repeat' (first
    | with_reducible assumption
    | (first | exact fun h => h | exact fun _ h => h | exact Quiet.same rfl rfl | exact Quiet.other rfl rfl | exact PickerQuiet.same rfl rfl)
    | with_reducible apply countSlot_calm
    | with_reducible apply modFiling_calm
    | (with_reducible apply calm_set; focus (first | with_reducible assumption | split | with_reducible apply countSlot_calm | with_reducible apply modFiling_calm))
    | (with_reducible apply calm_foldl; intro s x h)
    | (intro _ _ _; try dsimp only)
    | with_reducible rfl
    | exact Kept.refl _ _
    | exact Kept.same rfl rfl (fun _ => rfl) rfl rfl
    | exact le_max_left _ _
    | exact le_rfl
    | exact OrdersOf.refl _
    | exact OrdersOf.filter _ _
    | exact FilingsOf.refl _
    | exact FilingsOf.filter _ _
    | (intro x; exact ⟨rfl, id⟩)
    | (intro x; simp [Filing.pendingConsent]; done)
    | exact (List.length_filter_le _ _).trans (le_max_left _ _)
    | exact List.length_filter_le _ _
    | (refine OrdersOf.map _ _ fun o => ?_)
    | split
    | (intro o; rfl)
    | (show Order.key _ = Order.key _; rfl)
    | (simp [Retained.kept]; done)
    | (simp_all [Config.transferCapacity, Config.workCapacity]; omega))

theorem loseChosen_calm {kd : Kind} {s0 s : State} (hc : Calm kd s0 s) (ref : Word32) : Calm kd s0 (loseChosen s ref) := by
  unfold loseChosen
  try dsimp only []
  repeat' (first
    | with_reducible assumption
    | (first | exact fun h => h | exact fun _ h => h | exact Quiet.same rfl rfl | exact Quiet.other rfl rfl | exact PickerQuiet.same rfl rfl)
    | with_reducible apply setTarget_calm
    | (with_reducible apply calm_set; focus (first | with_reducible assumption | split | with_reducible apply setTarget_calm))
    | (with_reducible apply calm_foldl; intro s x h)
    | (intro _ _ _; try dsimp only)
    | with_reducible rfl
    | exact Kept.refl _ _
    | exact Kept.same rfl rfl (fun _ => rfl) rfl rfl
    | exact le_max_left _ _
    | exact le_rfl
    | exact OrdersOf.refl _
    | exact OrdersOf.filter _ _
    | exact FilingsOf.refl _
    | exact FilingsOf.filter _ _
    | (intro x; exact ⟨rfl, id⟩)
    | (intro x; simp [Filing.pendingConsent]; done)
    | exact (List.length_filter_le _ _).trans (le_max_left _ _)
    | exact List.length_filter_le _ _
    | (refine OrdersOf.map _ _ fun o => ?_)
    | split
    | (intro o; rfl)
    | (show Order.key _ = Order.key _; rfl)
    | (simp [Retained.kept]; done)
    | (simp_all [Config.transferCapacity, Config.workCapacity]; omega))

theorem openSideLost_calm {kd : Kind} {s0 s : State} (hc : Calm kd s0 s) (ref : Word32) : Calm kd s0 (openSideLost s ref) := by
  unfold openSideLost
  try dsimp only []
  repeat' (first
    | with_reducible assumption
    | (first | exact fun h => h | exact fun _ h => h | exact Quiet.same rfl rfl | exact Quiet.other rfl rfl | exact PickerQuiet.same rfl rfl)
    | with_reducible apply failFiling_calm
    | with_reducible apply resetFiling_calm
    | with_reducible apply setTarget_calm
    | (with_reducible apply calm_set; focus (first | with_reducible assumption | split | with_reducible apply failFiling_calm | with_reducible apply resetFiling_calm | with_reducible apply setTarget_calm))
    | (with_reducible apply calm_foldl; intro s x h)
    | (intro _ _ _; try dsimp only)
    | with_reducible rfl
    | exact Kept.refl _ _
    | exact Kept.same rfl rfl (fun _ => rfl) rfl rfl
    | exact le_max_left _ _
    | exact le_rfl
    | exact OrdersOf.refl _
    | exact OrdersOf.filter _ _
    | exact FilingsOf.refl _
    | exact FilingsOf.filter _ _
    | (intro x; exact ⟨rfl, id⟩)
    | (intro x; simp [Filing.pendingConsent]; done)
    | exact (List.length_filter_le _ _).trans (le_max_left _ _)
    | exact List.length_filter_le _ _
    | (refine OrdersOf.map _ _ fun o => ?_)
    | split
    | (intro o; rfl)
    | (show Order.key _ = Order.key _; rfl)
    | (simp [Retained.kept]; done)
    | (simp_all [Config.transferCapacity, Config.workCapacity]; omega))

theorem sideOpened_calm {kd : Kind} {s0 s : State} (hc : Calm kd s0 s) (n : Nat) (l : Label)
    (hb : (s.side n).state = .blank) (ha : s.cart (sideCart n) ≠ none) (ho : ∀ k, (s.side k).state ≠ .opened) :
    Calm kd s0 (sideOpened s n l) :=
  notify_calm (retain_calm hc _ (by simp [Retained.kept]) (Kept.opened n _ rfl rfl rfl rfl rfl hb ha ho) id (fun _ => id)
    fun _ => id) _ _ _

theorem loseTarget_calm {kd : Kind} {s0 s : State} (hc : Calm kd s0 s) (n : Nat) : Calm kd s0 (loseTarget s n) := by
  unfold loseTarget
  split
  · exact setTarget_calm hc _ _
  · exact hc

theorem openMarkFailed_calm {kd : Kind} {s0 s : State} (hc : Calm kd s0 s) (n : Nat) (ha : s.cart (sideCart n) ≠ none)
    (hb : (s.side n).state = .blank) : Calm kd s0 (openMarkFailed s n) := by
  refine loseTarget_calm (mediaErrorLabel_calm (setSide_calm hc n { s.side n with state := .faulty } fun l =>
    ⟨fun x => absurd x ha, nofun, nofun, ⟨rfl, rfl, rfl⟩, ?_, le_rfl, le_rfl, le_rfl⟩) n) n
  rw [show s.side n = s.ret.side n from rfl, l.1.blank n hb]
  simp [Side.blank]

end Sys2Proof.Machine
end

