-- ==== Sys2Proof/Laws/RebuildCalm.lean ====
section
/-! SUPPORT. Each operation of Machine/Rebuild.lean is calm. -/

set_option linter.unusedTactic false
set_option linter.unreachableTactic false
set_option linter.unusedSimpArgs false

namespace Sys2Proof.Machine

theorem sides_foldl_length : ∀ (l : List SideRead) (t : List Side),
    (l.foldl (fun t a => tset t a.side a.entry) t).length = t.length
  | [], _ => rfl
  | a :: l, t => by rw [List.foldl_cons, sides_foldl_length l, tset_length]

theorem modRebuildAt_calm {kd : Kind} {s0 s : State} (hc : Calm kd s0 s) (p : Place) (f : RebuildCart → RebuildCart) : Calm kd s0 (modRebuildAt s p f) := by
  unfold modRebuildAt
  try dsimp only []
  repeat' (first
    | with_reducible assumption
    | (first | exact fun h => h | exact fun _ h => h | exact Quiet.same rfl rfl | exact Quiet.other rfl rfl | exact PickerQuiet.same rfl rfl)
    | with_reducible apply modRebuild_calm
    | (with_reducible apply calm_set; focus (first | with_reducible assumption | split | with_reducible apply modRebuild_calm))
    | (with_reducible apply calm_foldl; intro s x h)
    | (intro _ _ _; try dsimp only)
    | with_reducible rfl
    | exact Kept.refl _ _
    | exact Kept.same rfl rfl (fun _ => rfl) rfl rfl
    | exact le_max_left _ _
    | exact le_rfl
    | exact OrdersOf.refl _
    | exact OrdersOf.filter _ _
    | exact FilingsOf.refl _
    | exact FilingsOf.filter _ _
    | (intro x; exact ⟨rfl, id⟩)
    | (intro x; simp [Filing.pendingConsent]; done)
    | exact (List.length_filter_le _ _).trans (le_max_left _ _)
    | exact List.length_filter_le _ _
    | (refine OrdersOf.map _ _ fun o => ?_)
    | split
    | (intro o; rfl)
    | (show Order.key _ = Order.key _; rfl)
    | (simp [Retained.kept]; done)
    | (simp_all [Config.transferCapacity, Config.workCapacity]; omega))

theorem rebuildReject_calm {kd : Kind} {s0 s : State} (hc : Calm kd s0 s) (p : Place) (why : RejectReason) : Calm kd s0 (rebuildReject s p why) := by
  unfold rebuildReject
  try dsimp only []
  repeat' (first
    | with_reducible assumption
    | (first | exact fun h => h | exact fun _ h => h | exact Quiet.same rfl rfl | exact Quiet.other rfl rfl | exact PickerQuiet.same rfl rfl)
    | with_reducible apply modDrive_calm
    | with_reducible apply modRebuild_calm
    | with_reducible apply modRebuildAt_calm
    | with_reducible apply requestTransfer_calm
    | (with_reducible apply calm_set; focus (first | with_reducible assumption | split | with_reducible apply modDrive_calm | with_reducible apply modRebuild_calm | with_reducible apply modRebuildAt_calm | with_reducible apply requestTransfer_calm))
    | (with_reducible apply calm_foldl; intro s x h)
    | (intro _ _ _; try dsimp only)
    | with_reducible rfl
    | exact Kept.refl _ _
    | exact Kept.same rfl rfl (fun _ => rfl) rfl rfl
    | exact le_max_left _ _
    | exact le_rfl
    | exact OrdersOf.refl _
    | exact OrdersOf.filter _ _
    | exact FilingsOf.refl _
    | exact FilingsOf.filter _ _
    | (intro x; exact ⟨rfl, id⟩)
    | (intro x; simp [Filing.pendingConsent]; done)
    | exact (List.length_filter_le _ _).trans (le_max_left _ _)
    | exact List.length_filter_le _ _
    | (refine OrdersOf.map _ _ fun o => ?_)
    | split
    | (intro o; rfl)
    | (show Order.key _ = Order.key _; rfl)
    | (simp [Retained.kept]; done)
    | (simp_all [Config.transferCapacity, Config.workCapacity]; omega))

theorem rebuildRead_calm {kd : Kind} {s0 s : State} (hc : Calm kd s0 s) (d : Nat) (k : RebuildCart) : Calm kd s0 (rebuildRead s d k) := by
  unfold rebuildRead
  try dsimp only []
  repeat' (first
    | with_reducible assumption
    | (first | exact fun h => h | exact fun _ h => h | exact Quiet.same rfl rfl | exact Quiet.other rfl rfl | exact PickerQuiet.same rfl rfl)
    | with_reducible apply modRebuildAt_calm
    | with_reducible apply rebuildReject_calm
    | with_reducible apply requestTransfer_calm
    | (with_reducible apply calm_set; focus (first | with_reducible assumption | split | with_reducible apply modRebuildAt_calm | with_reducible apply rebuildReject_calm | with_reducible apply requestTransfer_calm))
    | (with_reducible apply calm_foldl; intro s x h)
    | (intro _ _ _; try dsimp only)
    | with_reducible rfl
    | exact Kept.refl _ _
    | exact Kept.same rfl rfl (fun _ => rfl) rfl rfl
    | exact le_max_left _ _
    | exact le_rfl
    | exact OrdersOf.refl _
    | exact OrdersOf.filter _ _
    | exact FilingsOf.refl _
    | exact FilingsOf.filter _ _
    | (intro x; exact ⟨rfl, id⟩)
    | (intro x; simp [Filing.pendingConsent]; done)
    | exact (List.length_filter_le _ _).trans (le_max_left _ _)
    | exact List.length_filter_le _ _
    | (refine OrdersOf.map _ _ fun o => ?_)
    | split
    | (intro o; rfl)
    | (show Order.key _ = Order.key _; rfl)
    | (simp [Retained.kept]; done)
    | (simp_all [Config.transferCapacity, Config.workCapacity]; omega))

theorem rebuilding_mode {s : State} (h : rebuilding s = true) : s.mode = .rebuild := by
  simp only [rebuilding, Bool.and_eq_true, beq_iff_eq] at h
  exact h.1.1

theorem rebuildIdentify_calm {kd : Kind} {s0 s : State} (hc : Calm kd s0 s) (k : RebuildCart) (hm : s.mode = .rebuild) :
    Calm kd s0 (rebuildIdentify s k) := by
  unfold rebuildIdentify
  split
  · exact rebuildReject_calm hc _ _
  · split
    · exact rebuildReject_calm hc _ _
    · split
      · exact rebuildReject_calm hc _ _
      · next c hfree =>
        have hno : s.cart c = none := by
          have := List.find?_some hfree
          simp only [Bool.and_eq_true, Option.isNone_iff_eq_none] at this
          exact this.1
        refine modRebuildAt_calm (retain_calm hc (fun r =>
          { r with carts := tset r.carts c _, slots := tset r.slots k.rest { s.slot k.rest with occ := .record c } })
          (by simp [Retained.kept]) ?_ id (fun _ p => ?_) fun h => absurd hm h) _ _
        · rw [hm]
          exact Kept.rebuild id
        · have hw := p.nowhere hno
          refine Placed.slot (s := s.setCart c _) (p.newCart c _ hw) k.rest _ fun d e => .inr ?_
          cases e
          refine ⟨hw, ?_⟩
          have hr : 1 ≤ c ∧ c ≤ s.ret.carts.length := mem_upTo (List.mem_of_find?_eq_some hfree)
          rw [cartInState_iff]
          exact ⟨_, tget_tset_here _ _ _ _ hr.1 hr.2, rfl⟩

theorem rebuildIdentifyRule_calm {kd : Kind} {s0 s t : State} (hc : Calm kd s0 s) (e : rebuildIdentifyRule s = some t) :
    Calm kd s0 t := by
  unfold rebuildIdentifyRule at e
  split at e
  · next h =>
    obtain ⟨k, _, rfl⟩ := Option.map_eq_some_iff.1 e
    exact rebuildIdentify_calm hc k (rebuilding_mode h)
  · cases e

theorem rebuildFaceDone_calm {kd : Kind} {s0 s : State} (hc : Calm kd s0 s) (d : Nat) (got : List (Nat × SlotRead)) : Calm kd s0 (rebuildFaceDone s d got) := by
  unfold rebuildFaceDone
  try dsimp only []
  repeat' (first
    | with_reducible assumption
    | (first | exact fun h => h | exact fun _ h => h | exact Quiet.same rfl rfl | exact Quiet.other rfl rfl | exact PickerQuiet.same rfl rfl)
    | with_reducible apply modRebuildAt_calm
    | with_reducible apply rebuildRead_calm
    | with_reducible apply rebuildReject_calm
    | with_reducible apply requestTransfer_calm
    | (with_reducible apply calm_set; focus (first | with_reducible assumption | split | with_reducible apply modRebuildAt_calm | with_reducible apply rebuildRead_calm | with_reducible apply rebuildReject_calm | with_reducible apply requestTransfer_calm))
    | (with_reducible apply calm_foldl; intro s x h)
    | (intro _ _ _; try dsimp only)
    | with_reducible rfl
    | exact Kept.refl _ _
    | exact Kept.same rfl rfl (fun _ => rfl) rfl rfl
    | exact le_max_left _ _
    | exact le_rfl
    | exact OrdersOf.refl _
    | exact OrdersOf.filter _ _
    | exact FilingsOf.refl _
    | exact FilingsOf.filter _ _
    | (intro x; exact ⟨rfl, id⟩)
    | (intro x; simp [Filing.pendingConsent]; done)
    | exact (List.length_filter_le _ _).trans (le_max_left _ _)
    | exact List.length_filter_le _ _
    | (refine OrdersOf.map _ _ fun o => ?_)
    | split
    | (intro o; rfl)
    | (show Order.key _ = Order.key _; rfl)
    | (simp [Retained.kept]; done)
    | (simp_all [Config.transferCapacity, Config.workCapacity]; omega))

theorem rebuildMoved_calm {kd : Kind} {s0 s : State} (hc : Calm kd s0 s) (src dst : Place) : Calm kd s0 (rebuildMoved s src dst) := by
  unfold rebuildMoved
  try dsimp only []
  repeat' (first
    | with_reducible assumption
    | (first | exact fun h => h | exact fun _ h => h | exact Quiet.same rfl rfl | exact Quiet.other rfl rfl | exact PickerQuiet.same rfl rfl)
    | with_reducible apply modRebuildAt_calm
    | (with_reducible apply calm_set; focus (first | with_reducible assumption | split | with_reducible apply modRebuildAt_calm))
    | (with_reducible apply calm_foldl; intro s x h)
    | (intro _ _ _; try dsimp only)
    | with_reducible rfl
    | exact Kept.refl _ _
    | exact Kept.same rfl rfl (fun _ => rfl) rfl rfl
    | exact le_max_left _ _
    | exact le_rfl
    | exact OrdersOf.refl _
    | exact OrdersOf.filter _ _
    | exact FilingsOf.refl _
    | exact FilingsOf.filter _ _
    | (intro x; exact ⟨rfl, id⟩)
    | (intro x; simp [Filing.pendingConsent]; done)
    | exact (List.length_filter_le _ _).trans (le_max_left _ _)
    | exact List.length_filter_le _ _
    | (refine OrdersOf.map _ _ fun o => ?_)
    | split
    | (intro o; rfl)
    | (show Order.key _ = Order.key _; rfl)
    | (simp [Retained.kept]; done)
    | (simp_all [Config.transferCapacity, Config.workCapacity]; omega))

theorem rebuildTables_calm {kd : Kind} {s0 s : State} (hc : Calm kd s0 s) (hm : s.mode = .rebuild) :
    Calm kd s0 (rebuildTables s) := by
  unfold rebuildTables
  refine retain_calm hc _ ?_ ?_ (fun h => ?_) (fun _ => id) fun h => absurd hm h
  · simp [Retained.kept, sides_foldl_length]
  · rw [hm]
    exact Kept.rebuild fun _ => by simp [withheldFrom]
  · have := h.rebuild hm
    exact ⟨fun _ => this, h.once, fun e he => by rw [this] at he; cases he⟩

theorem rebuildNotice_calm {kd : Kind} {s0 s : State} (hc : Calm kd s0 s) (outcome : Nat) : Calm kd s0 (rebuildNotice s outcome) := by
  unfold rebuildNotice
  try dsimp only []
  repeat' (first
    | with_reducible assumption
    | (first | exact fun h => h | exact fun _ h => h | exact Quiet.same rfl rfl | exact Quiet.other rfl rfl | exact PickerQuiet.same rfl rfl)
    | with_reducible apply notify_calm
    | (with_reducible apply calm_set; focus (first | with_reducible assumption | split | with_reducible apply notify_calm))
    | (with_reducible apply calm_foldl; intro s x h)
    | (intro _ _ _; try dsimp only)
    | with_reducible rfl
    | exact Kept.refl _ _
    | exact Kept.same rfl rfl (fun _ => rfl) rfl rfl
    | exact le_max_left _ _
    | exact le_rfl
    | exact OrdersOf.refl _
    | exact OrdersOf.filter _ _
    | exact FilingsOf.refl _
    | exact FilingsOf.filter _ _
    | (intro x; exact ⟨rfl, id⟩)
    | (intro x; simp [Filing.pendingConsent]; done)
    | exact (List.length_filter_le _ _).trans (le_max_left _ _)
    | exact List.length_filter_le _ _
    | (refine OrdersOf.map _ _ fun o => ?_)
    | split
    | (intro o; rfl)
    | (show Order.key _ = Order.key _; rfl)
    | (simp [Retained.kept]; done)
    | (simp_all [Config.transferCapacity, Config.workCapacity]; omega))

theorem rebuildHalt_calm {kd : Kind} {s0 s : State} (hc : Calm kd s0 s) : Calm kd s0 (rebuildHalt s) := by
  unfold rebuildHalt
  try dsimp only []
  repeat' (first
    | with_reducible assumption
    | (first | exact fun h => h | exact fun _ h => h | exact Quiet.same rfl rfl | exact Quiet.other rfl rfl | exact PickerQuiet.same rfl rfl)
    | with_reducible apply modRebuild_calm
    | with_reducible apply rebuildNotice_calm
    | (with_reducible apply calm_set; focus (first | with_reducible assumption | split | with_reducible apply modRebuild_calm | with_reducible apply rebuildNotice_calm))
    | (with_reducible apply calm_foldl; intro s x h)
    | (intro _ _ _; try dsimp only)
    | with_reducible rfl
    | exact Kept.refl _ _
    | exact Kept.same rfl rfl (fun _ => rfl) rfl rfl
    | exact le_max_left _ _
    | exact le_rfl
    | exact OrdersOf.refl _
    | exact OrdersOf.filter _ _
    | exact FilingsOf.refl _
    | exact FilingsOf.filter _ _
    | (intro x; exact ⟨rfl, id⟩)
    | (intro x; simp [Filing.pendingConsent]; done)
    | exact (List.length_filter_le _ _).trans (le_max_left _ _)
    | exact List.length_filter_le _ _
    | (refine OrdersOf.map _ _ fun o => ?_)
    | split
    | (intro o; rfl)
    | (show Order.key _ = Order.key _; rfl)
    | (simp [Retained.kept]; done)
    | (simp_all [Config.transferCapacity, Config.workCapacity]; omega))

theorem rebuildEndRule_calm {kd : Kind} {s0 s t : State} (hc : Calm kd s0 s) (e : rebuildEndRule s = some t) : Calm kd s0 t := by
  unfold rebuildEndRule at e
  split at e
  · next h =>
    obtain rfl := Option.some.inj e
    have ht : Calm kd s0 (rebuildTables s) := rebuildTables_calm hc (rebuilding_mode (Bool.and_eq_true_iff.1 h).1)
    exact rebuildNotice_calm (calm_set ht .run _ _ _ _ _ _ _ _ _ _ _ _ _ _ _ _ _ _ _ _ _ _ rfl (Kept.mode _ Mode.noConfusion) rfl rfl (le_max_left _ _) le_rfl (FilingsOf.refl _)
      (le_max_left _ _) (OrdersOf.refl _) id (fun h => h.sub (fun e => by cases e) (List.Sublist.refl _)) (fun _ => id)
      fun h => absurd (rebuilding_mode (Bool.and_eq_true_iff.1 ‹_›).1) h) _
  · cases e

theorem rebuildMountRule_calm {kd : Kind} {s0 s t : State} (hc : Calm kd s0 s) (e : (rebuildMountRule s) = some t) : Calm kd s0 t := by
  unfold rebuildMountRule at e
  try dsimp only [] at e
  (repeat' split at e) <;> simp only [Option.map_eq_some_iff, Option.bind_eq_some_iff, Option.some.injEq, reduceCtorEq] at e
  all_goals (first | (subst e) | (obtain ⟨_, _, rfl⟩ := e) | (obtain ⟨_, _, _, _, rfl⟩ := e) | skip)
  all_goals try dsimp only
  all_goals
    repeat' (first
      | with_reducible assumption
      | (first | exact fun h => h | exact fun _ h => h | exact Quiet.same rfl rfl | exact Quiet.other rfl rfl | exact PickerQuiet.same rfl rfl)
      | with_reducible apply modRebuildAt_calm
      | with_reducible apply requestTransfer_calm
      | (with_reducible apply calm_set; focus (first | with_reducible assumption | split | with_reducible apply modRebuildAt_calm | with_reducible apply requestTransfer_calm))
      | (with_reducible apply calm_foldl; intro s x h)
      | (intro _ _ _; try dsimp only)
      | with_reducible rfl
      | exact Kept.refl _ _
      | exact Kept.same rfl rfl (fun _ => rfl) rfl rfl
      | exact le_max_left _ _
      | exact le_rfl
      | exact OrdersOf.refl _
      | exact OrdersOf.filter _ _
      | exact FilingsOf.refl _
      | exact FilingsOf.filter _ _
      | (intro x; exact ⟨rfl, id⟩)
      | (intro x; simp [Filing.pendingConsent]; done)
      | exact (List.length_filter_le _ _).trans (le_max_left _ _)
      | exact List.length_filter_le _ _
      | (refine OrdersOf.map _ _ fun o => ?_)
      | split
      | (intro o; rfl)
      | (show Order.key _ = Order.key _; rfl)
      | (simp [Retained.kept]; done)
      | (simp_all [Config.transferCapacity, Config.workCapacity]; omega))

theorem rebuildStarvedRule_calm {kd : Kind} {s0 s t : State} (hc : Calm kd s0 s) (e : (rebuildStarvedRule s) = some t) : Calm kd s0 t := by
  unfold rebuildStarvedRule at e
  try dsimp only [] at e
  (repeat' split at e) <;> simp only [Option.map_eq_some_iff, Option.bind_eq_some_iff, Option.some.injEq, reduceCtorEq] at e
  all_goals (first | (subst e) | (obtain ⟨_, _, rfl⟩ := e) | (obtain ⟨_, _, _, _, rfl⟩ := e) | skip)
  all_goals try dsimp only
  all_goals
    repeat' (first
      | with_reducible assumption
      | (first | exact fun h => h | exact fun _ h => h | exact Quiet.same rfl rfl | exact Quiet.other rfl rfl | exact PickerQuiet.same rfl rfl)
      | with_reducible apply rebuildHalt_calm
      | (with_reducible apply calm_set; focus (first | with_reducible assumption | split | with_reducible apply rebuildHalt_calm))
      | (with_reducible apply calm_foldl; intro s x h)
      | (intro _ _ _; try dsimp only)
      | with_reducible rfl
      | exact Kept.refl _ _
      | exact Kept.same rfl rfl (fun _ => rfl) rfl rfl
      | exact le_max_left _ _
      | exact le_rfl
      | exact OrdersOf.refl _
      | exact OrdersOf.filter _ _
      | exact FilingsOf.refl _
      | exact FilingsOf.filter _ _
      | (intro x; exact ⟨rfl, id⟩)
      | (intro x; simp [Filing.pendingConsent]; done)
      | exact (List.length_filter_le _ _).trans (le_max_left _ _)
      | exact List.length_filter_le _ _
      | (refine OrdersOf.map _ _ fun o => ?_)
      | split
      | (intro o; rfl)
      | (show Order.key _ = Order.key _; rfl)
      | (simp [Retained.kept]; done)
      | (simp_all [Config.transferCapacity, Config.workCapacity]; omega))

end Sys2Proof.Machine
end

