-- ==== Sys2Proof/Laws/DrivesCalm.lean ====
section
/-! SUPPORT. Each operation of Machine/Drives.lean is calm. -/

set_option linter.unusedTactic false
set_option linter.unreachableTactic false
set_option linter.unusedSimpArgs false

namespace Sys2Proof.Machine

theorem deliver_calm {kd : Kind} {s0 : State} (hk : kd.fills = true) (cs : List ReadCell) :
    ∀ (bs : List BlockIn) (s : State), Calm kd s0 s → Calm kd s0 (deliver s cs bs) := by
  induction cs with
  | nil => intro bs s h; cases bs <;> exact h
  | cons c cs ih =>
    intro bs s h
    cases bs with
    | nil => exact h
    | cons b bs => exact ih bs _ (writeBlock_calm h hk c.block (filling b))

/-- A change of a drive that leaves its task. -/
theorem modDrive_task (s : State) (d : Nat) (f : Drive → Drive) (hf : (f (s.drive d)).task = (s.drive d).task) :
    ((s.modDrive d f).drive d).task = (s.drive d).task := by
  rcases tget_tset_or s.drives d (f (s.drive d)) Drive.initial with h | h
  · exact (congrArg Drive.task h).trans hf
  · exact congrArg Drive.task h

/-- A command of a task other than a NEW mark, or of the NEW mark under way. -/
theorem driveOp_calm {kd : Kind} {s0 s : State} (hc : Calm kd s0 s) (d : Nat) (task : Task) (cmd : BayCmd)
    (ht : task.newSerial = none ∨ task.newSerial = (s.drive d).task.newSerial) : Calm kd s0 (driveOp s d task cmd) :=
  issueDrive_calm (modDrive_calm hc d _ ⟨fun _ => id, ht⟩) _ _

theorem beginSpinDown_calm {kd : Kind} {s0 s : State} (hc : Calm kd s0 s) (d : Nat) : Calm kd s0 (beginSpinDown s d) := by
  unfold beginSpinDown
  try dsimp only []
  repeat' (first
    | with_reducible assumption
    | (first | exact fun h => h | exact fun _ h => h | exact Quiet.same rfl rfl | exact Quiet.other rfl rfl | exact PickerQuiet.same rfl rfl)
    | with_reducible apply issueDrive_calm
    | with_reducible apply modDrive_calm
    | (with_reducible apply calm_set; focus (first | with_reducible assumption | split | with_reducible apply issueDrive_calm | with_reducible apply modDrive_calm))
    | (with_reducible apply calm_foldl; intro s x h)
    | (intro _ _ _; try dsimp only)
    | with_reducible rfl
    | exact Kept.refl _ _
    | exact Kept.same rfl rfl (fun _ => rfl) rfl rfl
    | exact le_max_left _ _
    | exact le_rfl
    | exact OrdersOf.refl _
    | exact OrdersOf.filter _ _
    | exact FilingsOf.refl _
    | exact FilingsOf.filter _ _
    | (intro x; exact ⟨rfl, id⟩)
    | (intro x; simp [Filing.pendingConsent]; done)
    | exact (List.length_filter_le _ _).trans (le_max_left _ _)
    | exact List.length_filter_le _ _
    | (refine OrdersOf.map _ _ fun o => ?_)
    | split
    | (intro o; rfl)
    | (show Order.key _ = Order.key _; rfl)
    | (simp [Retained.kept]; done)
    | (simp_all [Config.transferCapacity, Config.workCapacity]; omega))

theorem beginEject_calm {kd : Kind} {s0 s : State} (hc : Calm kd s0 s) (d : Nat) (why : EjectWhy) : Calm kd s0 (beginEject s d why) := by
  unfold beginEject
  try dsimp only []
  repeat' (first
    | with_reducible assumption
    | (first | exact .inl rfl | exact fun h => h | exact fun _ h => h | exact Quiet.same rfl rfl | exact Quiet.other rfl rfl | exact PickerQuiet.same rfl rfl)
    | with_reducible apply driveOp_calm
    | (with_reducible apply calm_set; focus (first | with_reducible assumption | split | with_reducible apply driveOp_calm))
    | (with_reducible apply calm_foldl; intro s x h)
    | (intro _ _ _; try dsimp only)
    | with_reducible rfl
    | exact Kept.refl _ _
    | exact Kept.same rfl rfl (fun _ => rfl) rfl rfl
    | exact le_max_left _ _
    | exact le_rfl
    | exact OrdersOf.refl _
    | exact OrdersOf.filter _ _
    | exact FilingsOf.refl _
    | exact FilingsOf.filter _ _
    | (intro x; exact ⟨rfl, id⟩)
    | (intro x; simp [Filing.pendingConsent]; done)
    | exact (List.length_filter_le _ _).trans (le_max_left _ _)
    | exact List.length_filter_le _ _
    | (refine OrdersOf.map _ _ fun o => ?_)
    | split
    | (intro o; rfl)
    | (show Order.key _ = Order.key _; rfl)
    | (simp [Retained.kept]; done)
    | (simp_all [Config.transferCapacity, Config.workCapacity]; omega))

theorem beginRemount_calm {kd : Kind} {s0 s : State} (hc : Calm kd s0 s) (d : Nat) : Calm kd s0 (beginRemount s d) := by
  unfold beginRemount
  try dsimp only []
  repeat' (first
    | with_reducible assumption
    | (first | exact fun h => h | exact fun _ h => h | exact Quiet.same rfl rfl | exact Quiet.other rfl rfl | exact PickerQuiet.same rfl rfl)
    | with_reducible apply issueDrive_calm
    | with_reducible apply modDrive_calm
    | (with_reducible apply calm_set; focus (first | with_reducible assumption | split | with_reducible apply issueDrive_calm | with_reducible apply modDrive_calm))
    | (with_reducible apply calm_foldl; intro s x h)
    | (intro _ _ _; try dsimp only)
    | with_reducible rfl
    | exact Kept.refl _ _
    | exact Kept.same rfl rfl (fun _ => rfl) rfl rfl
    | exact le_max_left _ _
    | exact le_rfl
    | exact OrdersOf.refl _
    | exact OrdersOf.filter _ _
    | exact FilingsOf.refl _
    | exact FilingsOf.filter _ _
    | (intro x; exact ⟨rfl, id⟩)
    | (intro x; simp [Filing.pendingConsent]; done)
    | exact (List.length_filter_le _ _).trans (le_max_left _ _)
    | exact List.length_filter_le _ _
    | (refine OrdersOf.map _ _ fun o => ?_)
    | split
    | (intro o; rfl)
    | (show Order.key _ = Order.key _; rfl)
    | (simp [Retained.kept]; done)
    | (simp_all [Config.transferCapacity, Config.workCapacity]; omega))

theorem beginMount_calm {kd : Kind} {s0 s : State} (hc : Calm kd s0 s) (d : Nat) : Calm kd s0 (beginMount s d) := by
  unfold beginMount
  try dsimp only []
  repeat' (first
    | with_reducible assumption
    | (first | exact fun h => h | exact fun _ h => h | exact Quiet.same rfl rfl | exact Quiet.other rfl rfl | exact PickerQuiet.same rfl rfl)
    | with_reducible apply issueDrive_calm
    | with_reducible apply modDrive_calm
    | (with_reducible apply calm_set; focus (first | with_reducible assumption | split | with_reducible apply issueDrive_calm | with_reducible apply modDrive_calm))
    | (with_reducible apply calm_foldl; intro s x h)
    | (intro _ _ _; try dsimp only)
    | with_reducible rfl
    | exact Kept.refl _ _
    | exact Kept.same rfl rfl (fun _ => rfl) rfl rfl
    | exact le_max_left _ _
    | exact le_rfl
    | exact OrdersOf.refl _
    | exact OrdersOf.filter _ _
    | exact FilingsOf.refl _
    | exact FilingsOf.filter _ _
    | (intro x; exact ⟨rfl, id⟩)
    | (intro x; simp [Filing.pendingConsent]; done)
    | exact (List.length_filter_le _ _).trans (le_max_left _ _)
    | exact List.length_filter_le _ _
    | (refine OrdersOf.map _ _ fun o => ?_)
    | split
    | (intro o; rfl)
    | (show Order.key _ = Order.key _; rfl)
    | (simp [Retained.kept]; done)
    | (simp_all [Config.transferCapacity, Config.workCapacity]; omega))

theorem beginLabelWrite_calm {kd : Kind} {s0 s : State} (hc : Calm kd s0 s) (d : Nat) (job : LabelJob) (l : Label)
    (hj : ∀ c, job ≠ .new c) : Calm kd s0 (beginLabelWrite s d job l) := by
  have ht : (Task.writeLabel job l .erase).newSerial = none := by
    cases job with
    | new c => exact absurd rfl (hj c)
    | _ => rfl
  unfold beginLabelWrite
  refine driveOp_calm ?_ _ _ _ (.inl ht)
  split
  · refine modDrive_calm hc _ _ ?_
    split
    · exact Quiet.same rfl rfl
    · exact Quiet.same rfl rfl
  all_goals exact hc

/-- A change of a drive in which a record at no place comes into it. -/
theorem putDrive_calm {kd : Kind} {s0 s : State} (h : Calm kd s0 s) (d : Nat) (f : Drive → Drive)
    (ho : s0.drives.length = 4 → s0.placed → ∀ c, (f (s.drive d)).occ = .record c → (s.drive d).occ = .record c ∨
      ((∀ p, placeOcc s p ≠ .record c) ∧ cartInState s c .inLibrary = true))
    (ht : (f (s.drive d)).task.newSerial = none ∨ (f (s.drive d)).task.newSerial = (s.drive d).task.newSerial) :
    Calm kd s0 (s.modDrive d f) :=
  calm_set0 h _ _ _ _ _ _ _ _ _ _ _ _ _ _ _ _ _ _ _ _ _ _ _ rfl (Kept.refl _ _) (by simp) rfl (le_max_left _ _) le_rfl (FilingsOf.refl _)
    (le_max_left _ _) (OrdersOf.refl _) id id (fun hd p => (h.placed hd p).putDrive d _ (ho hd p)) fun _ l => l.drive d _ ht

theorem cartridgeIn_calm {kd : Kind} {s0 s : State} (hc : Calm kd s0 s) (d : Nat) (occ : Occupant) (face : Face) (mail : Option Nat)
    (ho : s0.drives.length = 4 → s0.placed → ∀ c, occ = .record c → (s.drive d).occ = .record c ∨
      ((∀ p, placeOcc s p ≠ .record c) ∧ cartInState s c .inLibrary = true)) : Calm kd s0 (cartridgeIn s d occ face mail) := by
  unfold cartridgeIn
  dsimp only
  split
  · exact beginMount_calm (putDrive_calm hc d _ ho (.inr rfl)) _
  · exact putDrive_calm hc d _ ho (.inr rfl)

theorem cartridgeOut_calm {kd : Kind} {s0 s : State} (hc : Calm kd s0 s) (d : Nat) : Calm kd s0 (cartridgeOut s d) := by
  refine modDrive_calm hc d _ ?_
  dsimp only
  split
  all_goals exact Quiet.out (fun _ => Occupant.noConfusion) rfl

theorem enterReady_calm {kd : Kind} {s0 s : State} (hc : Calm kd s0 s) (d : Nat) : Calm kd s0 (enterReady s d) := by
  unfold enterReady
  try dsimp only []
  repeat' (first
    | with_reducible assumption
    | (first | exact fun h => h | exact fun _ h => h | exact Quiet.same rfl rfl | exact Quiet.other rfl rfl | exact PickerQuiet.same rfl rfl)
    | with_reducible apply modDrive_calm
    | (with_reducible apply calm_set; focus (first | with_reducible assumption | split | with_reducible apply modDrive_calm))
    | (with_reducible apply calm_foldl; intro s x h)
    | (intro _ _ _; try dsimp only)
    | with_reducible rfl
    | exact Kept.refl _ _
    | exact Kept.same rfl rfl (fun _ => rfl) rfl rfl
    | exact le_max_left _ _
    | exact le_rfl
    | exact OrdersOf.refl _
    | exact OrdersOf.filter _ _
    | exact FilingsOf.refl _
    | exact FilingsOf.filter _ _
    | (intro x; exact ⟨rfl, id⟩)
    | (intro x; simp [Filing.pendingConsent]; done)
    | exact (List.length_filter_le _ _).trans (le_max_left _ _)
    | exact List.length_filter_le _ _
    | (refine OrdersOf.map _ _ fun o => ?_)
    | split
    | (intro o; rfl)
    | (show Order.key _ = Order.key _; rfl)
    | (simp [Retained.kept]; done)
    | (simp_all [Config.transferCapacity, Config.workCapacity]; omega))

theorem directoryDone_calm {kd : Kind} {s0 s : State} (hc : Calm kd s0 s) (d : Nat) (got : List (Nat × SlotRead)) : Calm kd s0 (directoryDone s d got) := by
  unfold directoryDone
  try dsimp only []
  repeat' (first
    | with_reducible assumption
    | (first | exact fun h => h | exact fun _ h => h | exact Quiet.same rfl rfl | exact Quiet.other rfl rfl | exact PickerQuiet.same rfl rfl)
    | with_reducible apply enterReady_calm
    | with_reducible apply modDrive_calm
    | with_reducible apply rebuildFaceDone_calm
    | (with_reducible apply calm_set; focus (first | with_reducible assumption | split | with_reducible apply enterReady_calm | with_reducible apply modDrive_calm | with_reducible apply rebuildFaceDone_calm))
    | (with_reducible apply calm_foldl; intro s x h)
    | (intro _ _ _; try dsimp only)
    | with_reducible rfl
    | exact Kept.refl _ _
    | exact Kept.same rfl rfl (fun _ => rfl) rfl rfl
    | exact le_max_left _ _
    | exact le_rfl
    | exact OrdersOf.refl _
    | exact OrdersOf.filter _ _
    | exact FilingsOf.refl _
    | exact FilingsOf.filter _ _
    | (intro x; exact ⟨rfl, id⟩)
    | (intro x; simp [Filing.pendingConsent]; done)
    | exact (List.length_filter_le _ _).trans (le_max_left _ _)
    | exact List.length_filter_le _ _
    | (refine OrdersOf.map _ _ fun o => ?_)
    | split
    | (intro o; rfl)
    | (show Order.key _ = Order.key _; rfl)
    | (simp [Retained.kept]; done)
    | (simp_all [Config.transferCapacity, Config.workCapacity]; omega))

theorem readDirectory_calm {kd : Kind} {s0 s : State} (hc : Calm kd s0 s) (d next last : Nat) (got : List (Nat × SlotRead)) : Calm kd s0 (readDirectory s d next last got) := by
  unfold readDirectory
  try dsimp only []
  repeat' (first
    | with_reducible assumption
    | (first | exact .inl rfl | exact fun h => h | exact fun _ h => h | exact Quiet.same rfl rfl | exact Quiet.other rfl rfl | exact PickerQuiet.same rfl rfl)
    | with_reducible apply directoryDone_calm
    | with_reducible apply driveOp_calm
    | (with_reducible apply calm_set; focus (first | with_reducible assumption | split | with_reducible apply directoryDone_calm | with_reducible apply driveOp_calm))
    | (with_reducible apply calm_foldl; intro s x h)
    | (intro _ _ _; try dsimp only)
    | with_reducible rfl
    | exact Kept.refl _ _
    | exact Kept.same rfl rfl (fun _ => rfl) rfl rfl
    | exact le_max_left _ _
    | exact le_rfl
    | exact OrdersOf.refl _
    | exact OrdersOf.filter _ _
    | exact FilingsOf.refl _
    | exact FilingsOf.filter _ _
    | (intro x; exact ⟨rfl, id⟩)
    | (intro x; simp [Filing.pendingConsent]; done)
    | exact (List.length_filter_le _ _).trans (le_max_left _ _)
    | exact List.length_filter_le _ _
    | (refine OrdersOf.map _ _ fun o => ?_)
    | split
    | (intro o; rfl)
    | (show Order.key _ = Order.key _; rfl)
    | (simp [Retained.kept]; done)
    | (simp_all [Config.transferCapacity, Config.workCapacity]; omega))

theorem afterMark_calm {kd : Kind} {s0 s : State} (hc : Calm kd s0 s) (d : Nat) : Calm kd s0 (afterMark s d) := by
  unfold afterMark
  try dsimp only []
  repeat' (first
    | with_reducible assumption
    | (first | exact fun h => h | exact fun _ h => h | exact Quiet.same rfl rfl | exact Quiet.other rfl rfl | exact PickerQuiet.same rfl rfl)
    | with_reducible apply enterReady_calm
    | with_reducible apply readDirectory_calm
    | (with_reducible apply calm_set; focus (first | with_reducible assumption | split | with_reducible apply enterReady_calm | with_reducible apply readDirectory_calm))
    | (with_reducible apply calm_foldl; intro s x h)
    | (intro _ _ _; try dsimp only)
    | with_reducible rfl
    | exact Kept.refl _ _
    | exact Kept.same rfl rfl (fun _ => rfl) rfl rfl
    | exact le_max_left _ _
    | exact le_rfl
    | exact OrdersOf.refl _
    | exact OrdersOf.filter _ _
    | exact FilingsOf.refl _
    | exact FilingsOf.filter _ _
    | (intro x; exact ⟨rfl, id⟩)
    | (intro x; simp [Filing.pendingConsent]; done)
    | exact (List.length_filter_le _ _).trans (le_max_left _ _)
    | exact List.length_filter_le _ _
    | (refine OrdersOf.map _ _ fun o => ?_)
    | split
    | (intro o; rfl)
    | (show Order.key _ = Order.key _; rfl)
    | (simp [Retained.kept]; done)
    | (simp_all [Config.transferCapacity, Config.workCapacity]; omega))

theorem labelPassed_calm {kd : Kind} {s0 s : State} (hc : Calm kd s0 s) (d : Nat) : Calm kd s0 (labelPassed s d) := by
  unfold labelPassed
  try dsimp only []
  repeat' (first
    | with_reducible assumption
    | (first | exact fun _ => LabelJob.noConfusion | exact fun h => h | exact fun _ h => h | exact Quiet.same rfl rfl | exact Quiet.other rfl rfl | exact PickerQuiet.same rfl rfl)
    | with_reducible apply afterMark_calm
    | with_reducible apply beginLabelWrite_calm
    | (with_reducible apply calm_set; focus (first | with_reducible assumption | split | with_reducible apply afterMark_calm | with_reducible apply beginLabelWrite_calm))
    | (with_reducible apply calm_foldl; intro s x h)
    | (intro _ _ _; try dsimp only)
    | with_reducible rfl
    | exact Kept.refl _ _
    | exact Kept.same rfl rfl (fun _ => rfl) rfl rfl
    | exact le_max_left _ _
    | exact le_rfl
    | exact OrdersOf.refl _
    | exact OrdersOf.filter _ _
    | exact FilingsOf.refl _
    | exact FilingsOf.filter _ _
    | (intro x; exact ⟨rfl, id⟩)
    | (intro x; simp [Filing.pendingConsent]; done)
    | exact (List.length_filter_le _ _).trans (le_max_left _ _)
    | exact List.length_filter_le _ _
    | (refine OrdersOf.map _ _ fun o => ?_)
    | split
    | (intro o; rfl)
    | (show Order.key _ = Order.key _; rfl)
    | (simp [Retained.kept]; done)
    | (simp_all [Config.transferCapacity, Config.workCapacity]; omega))

theorem importRejected_calm {kd : Kind} {s0 s : State} (hc : Calm kd s0 s) (mail label : Option Nat) (why : RejectReason) : Calm kd s0 (importRejected s mail label why) := by
  unfold importRejected
  try dsimp only []
  repeat' (first
    | with_reducible assumption
    | (first | exact fun h => h | exact fun _ h => h | exact Quiet.same rfl rfl | exact Quiet.other rfl rfl | exact PickerQuiet.same rfl rfl)
    | with_reducible apply notify_calm
    | (with_reducible apply calm_set; focus (first | with_reducible assumption | split | with_reducible apply notify_calm))
    | (with_reducible apply calm_foldl; intro s x h)
    | (intro _ _ _; try dsimp only)
    | with_reducible rfl
    | exact Kept.refl _ _
    | exact Kept.same rfl rfl (fun _ => rfl) rfl rfl
    | exact le_max_left _ _
    | exact le_rfl
    | exact OrdersOf.refl _
    | exact OrdersOf.filter _ _
    | exact FilingsOf.refl _
    | exact FilingsOf.filter _ _
    | (intro x; exact ⟨rfl, id⟩)
    | (intro x; simp [Filing.pendingConsent]; done)
    | exact (List.length_filter_le _ _).trans (le_max_left _ _)
    | exact List.length_filter_le _ _
    | (refine OrdersOf.map _ _ fun o => ?_)
    | split
    | (intro o; rfl)
    | (show Order.key _ = Order.key _; rfl)
    | (simp [Retained.kept]; done)
    | (simp_all [Config.transferCapacity, Config.workCapacity]; omega))

theorem endInspect_calm {kd : Kind} {s0 s : State} (hc : Calm kd s0 s) (d : Nat) : Calm kd s0 (endInspect s d) := by
  unfold endInspect
  try dsimp only []
  repeat' (first
    | with_reducible assumption
    | (first | exact fun h => h | exact fun _ h => h | exact Quiet.same rfl rfl | exact Quiet.other rfl rfl | exact PickerQuiet.same rfl rfl)
    | with_reducible apply endItemOpt_calm
    | (with_reducible apply calm_set; focus (first | with_reducible assumption | split | with_reducible apply endItemOpt_calm))
    | (with_reducible apply calm_foldl; intro s x h)
    | (intro _ _ _; try dsimp only)
    | with_reducible rfl
    | exact Kept.refl _ _
    | exact Kept.same rfl rfl (fun _ => rfl) rfl rfl
    | exact le_max_left _ _
    | exact le_rfl
    | exact OrdersOf.refl _
    | exact OrdersOf.filter _ _
    | exact FilingsOf.refl _
    | exact FilingsOf.filter _ _
    | (intro x; exact ⟨rfl, id⟩)
    | (intro x; simp [Filing.pendingConsent]; done)
    | exact (List.length_filter_le _ _).trans (le_max_left _ _)
    | exact List.length_filter_le _ _
    | (refine OrdersOf.map _ _ fun o => ?_)
    | split
    | (intro o; rfl)
    | (show Order.key _ = Order.key _; rfl)
    | (simp [Retained.kept]; done)
    | (simp_all [Config.transferCapacity, Config.workCapacity]; omega))

theorem rejectFinding_calm {kd : Kind} {s0 s : State} (hc : Calm kd s0 s) (d : Nat) (label : Option Nat) (why : RejectReason) : Calm kd s0 (rejectFinding s d label why) := by
  unfold rejectFinding
  try dsimp only []
  repeat' (first
    | with_reducible assumption
    | (first | exact fun h => h | exact fun _ h => h | exact Quiet.same rfl rfl | exact Quiet.other rfl rfl | exact PickerQuiet.same rfl rfl)
    | with_reducible apply beginSpinDown_calm
    | with_reducible apply endInspect_calm
    | with_reducible apply importRejected_calm
    | with_reducible apply modDrive_calm
    | with_reducible apply requestTransfer_calm
    | (with_reducible apply calm_set; focus (first | with_reducible assumption | split | with_reducible apply beginSpinDown_calm | with_reducible apply endInspect_calm | with_reducible apply importRejected_calm | with_reducible apply modDrive_calm | with_reducible apply requestTransfer_calm))
    | (with_reducible apply calm_foldl; intro s x h)
    | (intro _ _ _; try dsimp only)
    | with_reducible rfl
    | exact Kept.refl _ _
    | exact Kept.same rfl rfl (fun _ => rfl) rfl rfl
    | exact le_max_left _ _
    | exact le_rfl
    | exact OrdersOf.refl _
    | exact OrdersOf.filter _ _
    | exact FilingsOf.refl _
    | exact FilingsOf.filter _ _
    | (intro x; exact ⟨rfl, id⟩)
    | (intro x; simp [Filing.pendingConsent]; done)
    | exact (List.length_filter_le _ _).trans (le_max_left _ _)
    | exact List.length_filter_le _ _
    | (refine OrdersOf.map _ _ fun o => ?_)
    | split
    | (intro o; rfl)
    | (show Order.key _ = Order.key _; rfl)
    | (simp [Retained.kept]; done)
    | (simp_all [Config.transferCapacity, Config.workCapacity]; omega))

theorem acceptFinding_calm {kd : Kind} {s0 s : State} (d c l home finding : Nat)
    (h : Calm kd s0 (s.modDrive d fun x => { x with occ := .record c, found := true, task := .idle })) :
    Calm kd s0 (acceptFinding s d c l home finding) := notify_calm (endInspect_calm h _) _ _ _

/-- A record that is away from the library comes back into drive `d` (R41). -/
theorem backIn_calm {kd : Kind} {s0 s : State} (hc : Calm kd s0 s) (d c : Nat) (k k' : Cart) (x : Drive) (hk : s.cart c = some k)
    (hs : k.state ≠ .inLibrary) (hs' : k'.state = .inLibrary) (hb : k'.label = k.label) (hx : x.occ = .record c)
    (ht : x.task.newSerial = none) (he : CartLaw s.ret → (k'.home = none ↔ k'.state = .withdrawn) ∧ ∀ x, k'.home = some x →
      k.home = some x ∨ (s.ret.disabled x = false ∧ ∀ d l, s.ret.cart d = some l → l.home ≠ some x)) :
    Calm kd s0 ((s.setCart c (some k')).modDrive d fun _ => x) := by
  have hr : tget (tset s.ret.carts c (some k')) c none = some k' :=
    tget_tset_here _ _ _ _ (tget_some_range hk).1 (tget_some_range hk).2
  refine calm_set hc _ _ _ _ _ _ _ _ _ _ _ _ _ _ _ _ _ _ _ _ _ _ _ (by simp [Retained.kept, State.setCart, State.retain])
    (Kept.cart c k k' rfl rfl rfl rfl rfl hk he) (by simp [State.setCart, State.retain]) rfl (le_max_left _ _) le_rfl (FilingsOf.refl _) (le_max_left _ _)
    (OrdersOf.refl _) id id (fun _ p => ?_) fun _ l => ?_
  · have hn := p.away hk hs
    have p1 : (s.setCart c (some k')).placed := p.newCart c (some k') hn
    refine p1.putDrive d x fun e h => ?_
    rw [hx] at h
    cases h
    exact .inr ⟨hn, (cartInState_iff _ _ _).2 ⟨k', hr, hs'⟩⟩
  · exact (l.cart c k k' hk hb).drive d x (.inl ht)

theorem recordBack_calm {kd : Kind} {s0 s : State} (hc : Calm kd s0 s) (d c : Nat) (k : Cart) (home finding : Nat)
    (hk : s.cart c = some k) (hs : k.state ≠ .inLibrary) (hh : CartLaw s.ret → k.home = some home ∨
      (s.ret.disabled home = false ∧ ∀ d l, s.ret.cart d = some l → l.home ≠ some home)) :
    Calm kd s0 (recordBack s d c k home finding) := by
  have hb := backIn_calm hc d c k { k with state := .inLibrary, home := some home }
    { s.drive d with occ := .record c, found := true, task := .idle } hk hs rfl rfl rfl rfl fun l => ⟨by simp, fun h x => ?_⟩
  · exact labelPassed_calm (acceptFinding_calm _ _ _ _ _ hb) _
  obtain rfl := Option.some.inj x
  exact hh l

theorem labelNew_calm {kd : Kind} {s0 s : State} (hc : Calm kd s0 s) (d : Nat) : Calm kd s0 (labelNew s d) := by
  unfold labelNew
  split
  · exact rejectFinding_calm hc _ _ _
  · exact rejectFinding_calm hc _ _ _
  · next c _ _ _ =>
    dsimp only
    split
    · exact rejectFinding_calm hc _ _ _
    · have h : Calm kd s0 ((s.retain fun r => { r with labelCounter := s.ret.labelCounter + 1 }).modDrive d fun _ =>
          { s.drive d with task := .writeLabel (.new c) ⟨s.ret.labelCounter, .a, .new, 0, 0, none, none, 0⟩ .erase, op := none
                           chan := [] }) :=
        calm_set hc _ _ _ _ _ _ _ _ _ _ _ _ _ _ _ _ _ _ _ _ _ _ _ (by simp [Retained.kept, State.retain])
          (Kept.same rfl rfl (fun _ => rfl) rfl rfl) (by simp [State.retain]) rfl (le_max_left _ _) le_rfl (FilingsOf.refl _)
          (le_max_left _ _) (OrdersOf.refl _) id id (fun _ p => p.drive d _ fun _ => id) fun _ l => l.claim d _ rfl
      exact issueDrive_calm h _ _

theorem importFinding_calm {kd : Kind} {s0 s : State} (hc : Calm kd s0 s) (d : Nat) (r : LabelRead) : Calm kd s0 (importFinding s d r) := by
  unfold importFinding
  split
  · exact labelNew_calm hc _
  · exact rejectFinding_calm hc _ _ _
  · split
    · exact rejectFinding_calm hc _ _ _
    · split
      · exact rejectFinding_calm hc _ _ _
      · next k hk =>
        split
        · exact rejectFinding_calm hc _ _ _
        · split
          · exact rejectFinding_calm hc _ _ _
          · next hs =>
            refine recordBack_calm hc _ _ _ _ _ hk (by simp [hs]) fun l => Or.inl ?_
            cases hh : k.home with
            | some h => rfl
            | none => rw [(l.home _ k hk).1 hh] at hs; cases hs
          · next hs =>
            split
            · next hf => exact recordBack_calm hc _ _ _ _ _ hk (by simp [hs]) fun _ => Or.inr (lowestFreeSlot_free hf)
            · exact rejectFinding_calm hc _ _ _

theorem findOrWait_calm {kd : Kind} {s0 s : State} (hc : Calm kd s0 s) (d : Nat) (r : LabelRead) : Calm kd s0 (findOrWait s d r) := by
  unfold findOrWait
  try dsimp only []
  repeat' (first
    | with_reducible assumption
    | (first | exact fun h => h | exact fun _ h => h | exact Quiet.same rfl rfl | exact Quiet.other rfl rfl | exact PickerQuiet.same rfl rfl)
    | with_reducible apply importFinding_calm
    | with_reducible apply modDrive_calm
    | (with_reducible apply calm_set; focus (first | with_reducible assumption | split | with_reducible apply importFinding_calm | with_reducible apply modDrive_calm))
    | (with_reducible apply calm_foldl; intro s x h)
    | (intro _ _ _; try dsimp only)
    | with_reducible rfl
    | exact Kept.refl _ _
    | exact Kept.same rfl rfl (fun _ => rfl) rfl rfl
    | exact le_max_left _ _
    | exact le_rfl
    | exact OrdersOf.refl _
    | exact OrdersOf.filter _ _
    | exact FilingsOf.refl _
    | exact FilingsOf.filter _ _
    | (intro x; exact ⟨rfl, id⟩)
    | (intro x; simp [Filing.pendingConsent]; done)
    | exact (List.length_filter_le _ _).trans (le_max_left _ _)
    | exact List.length_filter_le _ _
    | (refine OrdersOf.map _ _ fun o => ?_)
    | split
    | (intro o; rfl)
    | (show Order.key _ = Order.key _; rfl)
    | (simp [Retained.kept]; done)
    | (simp_all [Config.transferCapacity, Config.workCapacity]; omega))

theorem findingRule_calm {kd : Kind} {s0 s t : State} (hc : Calm kd s0 s) (e : (findingRule s) = some t) : Calm kd s0 t := by
  unfold findingRule at e
  split at e
  · simp at e
  · obtain ⟨d, -, h⟩ := List.exists_of_findSome?_eq_some e
    split at h
    · cases h
      exact importFinding_calm hc _ _
    · simp at h

theorem recordFree_iff {s : State} {c : Nat} : recordFree s c = true ↔ (1 ≤ c ∧ c ≤ s.ret.carts.length) ∧ s.cart c = none := by
  simp [recordFree, and_assoc]

theorem newVerified_calm {kd : Kind} {s0 s : State} (hc : Calm kd s0 s) (d c : Nat) (l : Label)
    (hj : (s.drive d).task.newSerial = some l.serial) : Calm kd s0 (newVerified s d c l) := by
  unfold newVerified
  split
  · next h hf hn =>
    obtain ⟨hr, hn⟩ := recordFree_iff.1 hn
    refine enterReady_calm (modDrive_calm (acceptFinding_calm _ _ _ _ _ ?_) _ _ (Quiet.same rfl rfl)) _
    refine calm_set hc _ _ _ _ _ _ _ _ _ _ _ _ _ _ _ _ _ _ _ _ _ _ _ (by simp [Retained.kept, State.retain])
      (Kept.newCart c _ h rfl (by intro v n; exact v.blanked hn n) rfl rfl rfl hn rfl CartState.noConfusion (lowestFreeSlot_free hf))
      (by simp [State.retain]) rfl (le_max_left _ _) le_rfl (FilingsOf.refl _) (le_max_left _ _) (OrdersOf.refl _) id id
      (fun _ p => ?_) fun _ lw => lw.newCart c d ⟨l.serial, .inLibrary, some h⟩ _ hj rfl
    have hw := p.nowhere hn
    have p1 : (s.setCart c (some ⟨l.serial, .inLibrary, some h⟩)).placed := p.newCart c _ hw
    refine p1.putDrive d _ fun e he => ?_
    cases he
    exact .inr ⟨hw, (cartInState_iff _ _ _).2 ⟨_, tget_tset_here _ _ _ _ hr.1 hr.2, rfl⟩⟩
  · exact rejectFinding_calm hc _ _ _

theorem labelFail_calm {kd : Kind} {s0 s : State} (hc : Calm kd s0 s) (d n : Nat) : Calm kd s0 (labelFail s d n) := by
  unfold labelFail
  try dsimp only []
  repeat' (first
    | with_reducible assumption
    | (first | exact fun h => h | exact fun _ h => h | exact Quiet.same rfl rfl | exact Quiet.other rfl rfl | exact PickerQuiet.same rfl rfl)
    | with_reducible apply beginSpinDown_calm
    | with_reducible apply endLabelFailedWork_calm
    | with_reducible apply mediaErrorLabel_calm
    | with_reducible apply modDrive_calm
    | with_reducible apply requestHome_calm
    | (with_reducible apply calm_set; focus (first | with_reducible assumption | split | with_reducible apply beginSpinDown_calm | with_reducible apply endLabelFailedWork_calm | with_reducible apply mediaErrorLabel_calm | with_reducible apply modDrive_calm | with_reducible apply requestHome_calm))
    | (with_reducible apply calm_foldl; intro s x h)
    | (intro _ _ _; try dsimp only)
    | with_reducible rfl
    | exact Kept.refl _ _
    | exact Kept.same rfl rfl (fun _ => rfl) rfl rfl
    | exact le_max_left _ _
    | exact le_rfl
    | exact OrdersOf.refl _
    | exact OrdersOf.filter _ _
    | exact FilingsOf.refl _
    | exact FilingsOf.filter _ _
    | (intro x; exact ⟨rfl, id⟩)
    | (intro x; simp [Filing.pendingConsent]; done)
    | exact (List.length_filter_le _ _).trans (le_max_left _ _)
    | exact List.length_filter_le _ _
    | (refine OrdersOf.map _ _ fun o => ?_)
    | split
    | (intro o; rfl)
    | (show Order.key _ = Order.key _; rfl)
    | (simp [Retained.kept]; done)
    | (simp_all [Config.transferCapacity, Config.workCapacity]; omega))

theorem rebuildLabel_calm {kd : Kind} {s0 s : State} (hc : Calm kd s0 s) (d : Nat) (r : LabelRead) : Calm kd s0 (rebuildLabel s d r) := by
  unfold rebuildLabel
  try dsimp only []
  repeat' (first
    | with_reducible assumption
    | (first | exact fun h => h | exact fun _ h => h | exact Quiet.same rfl rfl | exact Quiet.other rfl rfl | exact PickerQuiet.same rfl rfl)
    | with_reducible apply modDrive_calm
    | with_reducible apply readDirectory_calm
    | (with_reducible apply calm_set; focus (first | with_reducible assumption | split | with_reducible apply modDrive_calm | with_reducible apply readDirectory_calm))
    | (with_reducible apply calm_foldl; intro s x h)
    | (intro _ _ _; try dsimp only)
    | with_reducible rfl
    | exact Kept.refl _ _
    | exact Kept.same rfl rfl (fun _ => rfl) rfl rfl
    | exact le_max_left _ _
    | exact le_rfl
    | exact OrdersOf.refl _
    | exact OrdersOf.filter _ _
    | exact FilingsOf.refl _
    | exact FilingsOf.filter _ _
    | (intro x; exact ⟨rfl, id⟩)
    | (intro x; simp [Filing.pendingConsent]; done)
    | exact (List.length_filter_le _ _).trans (le_max_left _ _)
    | exact List.length_filter_le _ _
    | (refine OrdersOf.map _ _ fun o => ?_)
    | split
    | (intro o; rfl)
    | (show Order.key _ = Order.key _; rfl)
    | (simp [Retained.kept]; done)
    | (simp_all [Config.transferCapacity, Config.workCapacity]; omega))

theorem labelRead_calm {kd : Kind} {s0 s : State} (hc : Calm kd s0 s) (d : Nat) (r : LabelRead) : Calm kd s0 (labelRead s d r) := by
  unfold labelRead
  try dsimp only []
  repeat' (first
    | with_reducible assumption
    | (first | exact fun h => h | exact fun _ h => h | exact Quiet.same rfl rfl | exact Quiet.other rfl rfl | exact PickerQuiet.same rfl rfl)
    | with_reducible apply enterReady_calm
    | with_reducible apply findOrWait_calm
    | with_reducible apply labelFail_calm
    | with_reducible apply labelPassed_calm
    | with_reducible apply modDrive_calm
    | with_reducible apply rebuildLabel_calm
    | (with_reducible apply calm_set; focus (first | with_reducible assumption | split | with_reducible apply enterReady_calm | with_reducible apply findOrWait_calm | with_reducible apply labelFail_calm | with_reducible apply labelPassed_calm | with_reducible apply modDrive_calm | with_reducible apply rebuildLabel_calm))
    | (with_reducible apply calm_foldl; intro s x h)
    | (intro _ _ _; try dsimp only)
    | with_reducible rfl
    | exact Kept.refl _ _
    | exact Kept.same rfl rfl (fun _ => rfl) rfl rfl
    | exact le_max_left _ _
    | exact le_rfl
    | exact OrdersOf.refl _
    | exact OrdersOf.filter _ _
    | exact FilingsOf.refl _
    | exact FilingsOf.filter _ _
    | (intro x; exact ⟨rfl, id⟩)
    | (intro x; simp [Filing.pendingConsent]; done)
    | exact (List.length_filter_le _ _).trans (le_max_left _ _)
    | exact List.length_filter_le _ _
    | (refine OrdersOf.map _ _ fun o => ?_)
    | split
    | (intro o; rfl)
    | (show Order.key _ = Order.key _; rfl)
    | (simp [Retained.kept]; done)
    | (simp_all [Config.transferCapacity, Config.workCapacity]; omega))

theorem afterLabelWrite_calm {kd : Kind} {s0 s : State} (hc : Calm kd s0 s) (d : Nat) : Calm kd s0 (afterLabelWrite s d) := by
  unfold afterLabelWrite
  try dsimp only []
  repeat' (first
    | with_reducible assumption
    | (first | exact fun h => h | exact fun _ h => h | exact Quiet.same rfl rfl | exact Quiet.other rfl rfl | exact PickerQuiet.same rfl rfl)
    | with_reducible apply afterMark_calm
    | with_reducible apply modDrive_calm
    | (with_reducible apply calm_set; focus (first | with_reducible assumption | split | with_reducible apply afterMark_calm | with_reducible apply modDrive_calm))
    | (with_reducible apply calm_foldl; intro s x h)
    | (intro _ _ _; try dsimp only)
    | with_reducible rfl
    | exact Kept.refl _ _
    | exact Kept.same rfl rfl (fun _ => rfl) rfl rfl
    | exact le_max_left _ _
    | exact le_rfl
    | exact OrdersOf.refl _
    | exact OrdersOf.filter _ _
    | exact FilingsOf.refl _
    | exact FilingsOf.filter _ _
    | (intro x; exact ⟨rfl, id⟩)
    | (intro x; simp [Filing.pendingConsent]; done)
    | exact (List.length_filter_le _ _).trans (le_max_left _ _)
    | exact List.length_filter_le _ _
    | (refine OrdersOf.map _ _ fun o => ?_)
    | split
    | (intro o; rfl)
    | (show Order.key _ = Order.key _; rfl)
    | (simp [Retained.kept]; done)
    | (simp_all [Config.transferCapacity, Config.workCapacity]; omega))

theorem labelWritten_calm {kd : Kind} {s0 s : State} (hc : Calm kd s0 s) (d : Nat) (job : LabelJob) (l : Label) (ok : Bool)
    (hj : ∀ c, job = .new c → (s.drive d).task.newSerial = some l.serial) : Calm kd s0 (labelWritten s d job l ok) := by
  unfold labelWritten
  generalize hu : (if ok = true then s.modDrive d fun x => { x with label := some (.good l) } else s) = u
  replace hj : ∀ c, job = .new c → (u.drive d).task.newSerial = some l.serial := fun c e => by
    rw [← hj c e, ← hu]
    split
    · rw [modDrive_task s d (fun x => { x with label := some (.good l) }) rfl]
    · rfl
  have hc : Calm kd s0 u := by
    subst hu
    split
    · exact modDrive_calm hc _ _ (Quiet.same rfl rfl)
    · exact hc
  clear hu
  dsimp only
  split
  · split
    · exact newVerified_calm hc _ _ _ (hj _ rfl)
    · exact rejectFinding_calm hc _ _ _
  · next n =>
    have hm := modDrive_calm hc d (fun x => { x with markTried := true }) (Quiet.same rfl rfl)
    have hv : Calm kd s0 (if ((u.modDrive d fun x => { x with markTried := true }).side n).closedPending = false then
        u.modDrive d fun x => { x with markTried := true }
      else if ok = true then (u.modDrive d fun x => { x with markTried := true }).setSide n
        { (u.modDrive d fun x => { x with markTried := true }).side n with closedPending := false }
      else mediaErrorLabel (u.modDrive d fun x => { x with markTried := true }) n) := by
      split
      · exact hm
      · next hp =>
        split
        · refine setSide_calm hm _ _ fun l => ?_
          have ho : ((u.modDrive d fun x => { x with markTried := true }).ret.side n).state ≠ .blank := fun x => by
            refine hp ?_
            rw [show (u.modDrive d fun x => { x with markTried := true }).side n = _ from l.1.blank n x]
            rfl
          exact ⟨fun x => absurd x (l.assigned ho), fun y => y, fun y => absurd y ho, ⟨rfl, rfl, rfl⟩, ⟨(l.1.marks n).1, nofun⟩, le_rfl, le_rfl, le_rfl⟩
        · exact mediaErrorLabel_calm hm _
    split
    · exact beginLabelWrite_calm hv _ _ _ fun _ => LabelJob.noConfusion
    · exact afterLabelWrite_calm hv _
  · exact afterLabelWrite_calm hc _
  · next n =>
    split
    · exact afterLabelWrite_calm hc _
    · next hx =>
      simp only [not_or, ne_eq, not_not, Bool.not_eq_false, Bool.not_eq_true] at hx
      have ha : u.cart (sideCart n) ≠ none := fun e => by simp [sideAssigned, e] at hx
      split
      · exact afterLabelWrite_calm (sideOpened_calm hc n l hx.1 ha (anyOpened_false hx.2.2)) _
      · have h := afterLabelWrite_calm (openMarkFailed_calm hc n ha hx.1) d
        split
        · exact recheckChosen_calm h _
        · exact h

theorem sendRead_calm {kd : Kind} {s0 s : State} (hc : Calm kd s0 s) (d : Nat) (b : ReadBurst) : Calm kd s0 (sendRead s d b) := by
  unfold sendRead
  try dsimp only []
  repeat' (first
    | with_reducible assumption
    | (first | exact .inl rfl | exact fun h => h | exact fun _ h => h | exact Quiet.same rfl rfl | exact Quiet.other rfl rfl | exact PickerQuiet.same rfl rfl)
    | with_reducible apply driveOp_calm
    | (with_reducible apply calm_set; focus (first | with_reducible assumption | split | with_reducible apply driveOp_calm))
    | (with_reducible apply calm_foldl; intro s x h)
    | (intro _ _ _; try dsimp only)
    | with_reducible rfl
    | exact Kept.refl _ _
    | exact Kept.same rfl rfl (fun _ => rfl) rfl rfl
    | exact le_max_left _ _
    | exact le_rfl
    | exact OrdersOf.refl _
    | exact OrdersOf.filter _ _
    | exact FilingsOf.refl _
    | exact FilingsOf.filter _ _
    | (intro x; exact ⟨rfl, id⟩)
    | (intro x; simp [Filing.pendingConsent]; done)
    | exact (List.length_filter_le _ _).trans (le_max_left _ _)
    | exact List.length_filter_le _ _
    | (refine OrdersOf.map _ _ fun o => ?_)
    | split
    | (intro o; rfl)
    | (show Order.key _ = Order.key _; rfl)
    | (simp [Retained.kept]; done)
    | (simp_all [Config.transferCapacity, Config.workCapacity]; omega))

theorem takeSent_calm {kd : Kind} {s0 s : State} (hc : Calm kd s0 s) (b : ReadBurst) (st : DriveStatus) (hk : kd.fills = true) :
    Calm kd s0 (takeSent s b st).1 := deliver_calm hk _ _ _ hc

theorem readTaken_calm {kd : Kind} {s0 s : State} (hc : Calm kd s0 s) (d : Nat) (b : ReadBurst) (st : DriveStatus) (hk : kd.fills = true) : Calm kd s0 (readTaken s d b st) := by
  unfold readTaken
  try dsimp only []
  repeat' (first
    | with_reducible assumption
    | (first | exact fun h => h | exact fun _ h => h | exact Quiet.same rfl rfl | exact Quiet.other rfl rfl | exact PickerQuiet.same rfl rfl)
    | exact hk
    | with_reducible apply takeSent_calm
    | with_reducible apply endBurst_calm
    | with_reducible apply readBurstEnd_calm
    | with_reducible apply sendRead_calm
    | (with_reducible apply calm_set; focus (first | with_reducible assumption | split | with_reducible apply takeSent_calm | with_reducible apply endBurst_calm | with_reducible apply readBurstEnd_calm | with_reducible apply sendRead_calm))
    | (with_reducible apply calm_foldl; intro s x h)
    | (intro _ _ _; try dsimp only)
    | with_reducible rfl
    | exact Kept.refl _ _
    | exact Kept.same rfl rfl (fun _ => rfl) rfl rfl
    | exact le_max_left _ _
    | exact le_rfl
    | exact OrdersOf.refl _
    | exact OrdersOf.filter _ _
    | exact FilingsOf.refl _
    | exact FilingsOf.filter _ _
    | (intro x; exact ⟨rfl, id⟩)
    | (intro x; simp [Filing.pendingConsent]; done)
    | exact (List.length_filter_le _ _).trans (le_max_left _ _)
    | exact List.length_filter_le _ _
    | (refine OrdersOf.map _ _ fun o => ?_)
    | split
    | (intro o; rfl)
    | (show Order.key _ = Order.key _; rfl)
    | (simp [Retained.kept]; done)
    | (simp_all [Config.transferCapacity, Config.workCapacity]; omega))

theorem verifyOn_calm {kd : Kind} {s0 s : State} (hc : Calm kd s0 s) (d : Nat) (b : WriteBurst) : Calm kd s0 (verifyOn s d b) := by
  unfold verifyOn
  try dsimp only []
  repeat' (first
    | with_reducible assumption
    | (first | exact .inl rfl | exact fun h => h | exact fun _ h => h | exact Quiet.same rfl rfl | exact Quiet.other rfl rfl | exact PickerQuiet.same rfl rfl)
    | with_reducible apply driveOp_calm
    | with_reducible apply endBurst_calm
    | with_reducible apply writeBurstEnd_calm
    | (with_reducible apply calm_set; focus (first | with_reducible assumption | split | with_reducible apply driveOp_calm | with_reducible apply endBurst_calm | with_reducible apply writeBurstEnd_calm))
    | (with_reducible apply calm_foldl; intro s x h)
    | (intro _ _ _; try dsimp only)
    | with_reducible rfl
    | exact Kept.refl _ _
    | exact Kept.same rfl rfl (fun _ => rfl) rfl rfl
    | exact le_max_left _ _
    | exact le_rfl
    | exact OrdersOf.refl _
    | exact OrdersOf.filter _ _
    | exact FilingsOf.refl _
    | exact FilingsOf.filter _ _
    | (intro x; exact ⟨rfl, id⟩)
    | (intro x; simp [Filing.pendingConsent]; done)
    | exact (List.length_filter_le _ _).trans (le_max_left _ _)
    | exact List.length_filter_le _ _
    | (refine OrdersOf.map _ _ fun o => ?_)
    | split
    | (intro o; rfl)
    | (show Order.key _ = Order.key _; rfl)
    | (simp [Retained.kept]; done)
    | (simp_all [Config.transferCapacity, Config.workCapacity]; omega))

theorem remapOffset_calm {kd : Kind} {s0 s : State} (hc : Calm kd s0 s) (d : Nat) (b : WriteBurst) (offset : Nat) : Calm kd s0 (remapOffset s d b offset) := by
  unfold remapOffset
  try dsimp only []
  repeat' (first
    | with_reducible assumption
    | (first | exact .inl rfl | exact fun h => h | exact fun _ h => h | exact Quiet.same rfl rfl | exact Quiet.other rfl rfl | exact PickerQuiet.same rfl rfl)
    | exact takeSpare_calm hc _ _ ‹_›
    | with_reducible apply driveOp_calm
    | with_reducible apply verifyOn_calm
    | (with_reducible apply calm_set; focus (first | with_reducible assumption | split | with_reducible apply driveOp_calm | with_reducible apply verifyOn_calm))
    | (with_reducible apply calm_foldl; intro s x h)
    | (intro _ _ _; try dsimp only)
    | with_reducible rfl
    | exact Kept.refl _ _
    | exact Kept.same rfl rfl (fun _ => rfl) rfl rfl
    | exact le_max_left _ _
    | exact le_rfl
    | exact OrdersOf.refl _
    | exact OrdersOf.filter _ _
    | exact FilingsOf.refl _
    | exact FilingsOf.filter _ _
    | (intro x; exact ⟨rfl, id⟩)
    | (intro x; simp [Filing.pendingConsent]; done)
    | exact (List.length_filter_le _ _).trans (le_max_left _ _)
    | exact List.length_filter_le _ _
    | (refine OrdersOf.map _ _ fun o => ?_)
    | split
    | (intro o; rfl)
    | (show Order.key _ = Order.key _; rfl)
    | (simp [Retained.kept]; done)
    | (simp_all [Config.transferCapacity, Config.workCapacity]; omega))

theorem spareTaken_calm {kd : Kind} {s0 s : State} (hc : Calm kd s0 s) (d : Nat) (b : WriteBurst) (offset k : Nat) (p : Pass) (r : OpResult) : Calm kd s0 (spareTaken s d b offset k p r) := by
  unfold spareTaken
  try dsimp only []
  repeat' (first
    | with_reducible assumption
    | (first | exact .inl rfl | exact fun h => h | exact fun _ h => h | exact Quiet.same rfl rfl | exact Quiet.other rfl rfl | exact PickerQuiet.same rfl rfl)
    | with_reducible apply addRemap_calm
    | with_reducible apply driveOp_calm
    | with_reducible apply remapOffset_calm
    | with_reducible apply verifyOn_calm
    | (with_reducible apply calm_set; focus (first | with_reducible assumption | split | with_reducible apply addRemap_calm | with_reducible apply driveOp_calm | with_reducible apply remapOffset_calm | with_reducible apply verifyOn_calm))
    | (with_reducible apply calm_foldl; intro s x h)
    | (intro _ _ _; try dsimp only)
    | with_reducible rfl
    | exact Kept.refl _ _
    | exact Kept.same rfl rfl (fun _ => rfl) rfl rfl
    | exact le_max_left _ _
    | exact le_rfl
    | exact OrdersOf.refl _
    | exact OrdersOf.filter _ _
    | exact FilingsOf.refl _
    | exact FilingsOf.filter _ _
    | (intro x; exact ⟨rfl, id⟩)
    | (intro x; simp [Filing.pendingConsent]; done)
    | exact (List.length_filter_le _ _).trans (le_max_left _ _)
    | exact List.length_filter_le _ _
    | (refine OrdersOf.map _ _ fun o => ?_)
    | split
    | (intro o; rfl)
    | (show Order.key _ = Order.key _; rfl)
    | (simp [Retained.kept]; done)
    | (simp_all [Config.transferCapacity, Config.workCapacity]; omega))

theorem writeTaken_calm {kd : Kind} {s0 s : State} (hc : Calm kd s0 s) (d : Nat) (b : WriteBurst) (r : OpResult) : Calm kd s0 (writeTaken s d b r) := by
  unfold writeTaken
  try dsimp only []
  repeat' (first
    | with_reducible assumption
    | (first | exact .inl rfl | exact fun h => h | exact fun _ h => h | exact Quiet.same rfl rfl | exact Quiet.other rfl rfl | exact PickerQuiet.same rfl rfl)
    | with_reducible apply driveOp_calm
    | with_reducible apply remapOffset_calm
    | with_reducible apply spareTaken_calm
    | with_reducible apply verifyOn_calm
    | (with_reducible apply calm_set; focus (first | with_reducible assumption | split | with_reducible apply driveOp_calm | with_reducible apply remapOffset_calm | with_reducible apply spareTaken_calm | with_reducible apply verifyOn_calm))
    | (with_reducible apply calm_foldl; intro s x h)
    | (intro _ _ _; try dsimp only)
    | with_reducible rfl
    | exact Kept.refl _ _
    | exact Kept.same rfl rfl (fun _ => rfl) rfl rfl
    | exact le_max_left _ _
    | exact le_rfl
    | exact OrdersOf.refl _
    | exact OrdersOf.filter _ _
    | exact FilingsOf.refl _
    | exact FilingsOf.filter _ _
    | (intro x; exact ⟨rfl, id⟩)
    | (intro x; simp [Filing.pendingConsent]; done)
    | exact (List.length_filter_le _ _).trans (le_max_left _ _)
    | exact List.length_filter_le _ _
    | (refine OrdersOf.map _ _ fun o => ?_)
    | split
    | (intro o; rfl)
    | (show Order.key _ = Order.key _; rfl)
    | (simp [Retained.kept]; done)
    | (simp_all [Config.transferCapacity, Config.workCapacity]; omega))

theorem sendCommit_calm {kd : Kind} {s0 s : State} (hc : Calm kd s0 s) (d : Nat) (b : CommitBurst) : Calm kd s0 (sendCommit s d b) := by
  unfold sendCommit
  try dsimp only []
  repeat' (first
    | with_reducible assumption
    | (first | exact .inl rfl | exact fun h => h | exact fun _ h => h | exact Quiet.same rfl rfl | exact Quiet.other rfl rfl | exact PickerQuiet.same rfl rfl)
    | with_reducible apply driveOp_calm
    | (with_reducible apply calm_set; focus (first | with_reducible assumption | split | with_reducible apply driveOp_calm))
    | (with_reducible apply calm_foldl; intro s x h)
    | (intro _ _ _; try dsimp only)
    | with_reducible rfl
    | exact Kept.refl _ _
    | exact Kept.same rfl rfl (fun _ => rfl) rfl rfl
    | exact le_max_left _ _
    | exact le_rfl
    | exact OrdersOf.refl _
    | exact OrdersOf.filter _ _
    | exact FilingsOf.refl _
    | exact FilingsOf.filter _ _
    | (intro x; exact ⟨rfl, id⟩)
    | (intro x; simp [Filing.pendingConsent]; done)
    | exact (List.length_filter_le _ _).trans (le_max_left _ _)
    | exact List.length_filter_le _ _
    | (refine OrdersOf.map _ _ fun o => ?_)
    | split
    | (intro o; rfl)
    | (show Order.key _ = Order.key _; rfl)
    | (simp [Retained.kept]; done)
    | (simp_all [Config.transferCapacity, Config.workCapacity]; omega))

theorem commitTaken_calm {kd : Kind} {s0 s : State} (hc : Calm kd s0 s) (d : Nat) (b : CommitBurst) (r : OpResult) : Calm kd s0 (commitTaken s d b r) := by
  unfold commitTaken
  try dsimp only []
  repeat' (first
    | with_reducible assumption
    | (first | exact fun h => h | exact fun _ h => h | exact Quiet.same rfl rfl | exact Quiet.other rfl rfl | exact PickerQuiet.same rfl rfl)
    | exact calm_fst (commitSlotFailed_calm hc _) ‹_›
    | with_reducible apply commitFiling_calm
    | with_reducible apply commitSlotFailed_calm
    | with_reducible apply endBurst_calm
    | with_reducible apply relocateFiling_calm
    | with_reducible apply sendCommit_calm
    | (with_reducible apply calm_set; focus (first | with_reducible assumption | split | with_reducible apply commitFiling_calm | with_reducible apply commitSlotFailed_calm | with_reducible apply endBurst_calm | with_reducible apply relocateFiling_calm | with_reducible apply sendCommit_calm))
    | (with_reducible apply calm_foldl; intro s x h)
    | (intro _ _ _; try dsimp only)
    | with_reducible rfl
    | exact Kept.refl _ _
    | exact Kept.same rfl rfl (fun _ => rfl) rfl rfl
    | exact le_max_left _ _
    | exact le_rfl
    | exact OrdersOf.refl _
    | exact OrdersOf.filter _ _
    | exact FilingsOf.refl _
    | exact FilingsOf.filter _ _
    | (intro x; exact ⟨rfl, id⟩)
    | (intro x; simp [Filing.pendingConsent]; done)
    | exact (List.length_filter_le _ _).trans (le_max_left _ _)
    | exact List.length_filter_le _ _
    | (refine OrdersOf.map _ _ fun o => ?_)
    | split
    | (intro o; rfl)
    | (show Order.key _ = Order.key _; rfl)
    | (simp [Retained.kept]; done)
    | (simp_all [Config.transferCapacity, Config.workCapacity]; omega))

theorem driveFaultNotice_calm {kd : Kind} {s0 s : State} (hc : Calm kd s0 s) (d : Nat) : Calm kd s0 (driveFaultNotice s d) := by
  unfold driveFaultNotice
  try dsimp only []
  repeat' (first
    | with_reducible assumption
    | (first | exact fun h => h | exact fun _ h => h | exact Quiet.same rfl rfl | exact Quiet.other rfl rfl | exact PickerQuiet.same rfl rfl)
    | with_reducible apply notify_calm
    | (with_reducible apply calm_set; focus (first | with_reducible assumption | split | with_reducible apply notify_calm))
    | (with_reducible apply calm_foldl; intro s x h)
    | (intro _ _ _; try dsimp only)
    | with_reducible rfl
    | exact Kept.refl _ _
    | exact Kept.same rfl rfl (fun _ => rfl) rfl rfl
    | exact le_max_left _ _
    | exact le_rfl
    | exact OrdersOf.refl _
    | exact OrdersOf.filter _ _
    | exact FilingsOf.refl _
    | exact FilingsOf.filter _ _
    | (intro x; exact ⟨rfl, id⟩)
    | (intro x; simp [Filing.pendingConsent]; done)
    | exact (List.length_filter_le _ _).trans (le_max_left _ _)
    | exact List.length_filter_le _ _
    | (refine OrdersOf.map _ _ fun o => ?_)
    | split
    | (intro o; rfl)
    | (show Order.key _ = Order.key _; rfl)
    | (simp [Retained.kept]; done)
    | (simp_all [Config.transferCapacity, Config.workCapacity]; omega))

theorem faultBurst_calm {kd : Kind} {s0 s : State} (hc : Calm kd s0 s) (t : Task) : Calm kd s0 (faultBurst s t) := by
  unfold faultBurst
  try dsimp only []
  repeat' (first
    | with_reducible assumption
    | (first | exact fun h => h | exact fun _ h => h | exact Quiet.same rfl rfl | exact Quiet.other rfl rfl | exact PickerQuiet.same rfl rfl)
    | with_reducible apply commitBurstFault_calm
    | with_reducible apply dropClaim_calm
    | with_reducible apply readBurstFault_calm
    | with_reducible apply writeBurstFault_calm
    | (with_reducible apply calm_set; focus (first | with_reducible assumption | split | with_reducible apply commitBurstFault_calm | with_reducible apply dropClaim_calm | with_reducible apply readBurstFault_calm | with_reducible apply writeBurstFault_calm))
    | (with_reducible apply calm_foldl; intro s x h)
    | (intro _ _ _; try dsimp only)
    | with_reducible rfl
    | exact Kept.refl _ _
    | exact Kept.same rfl rfl (fun _ => rfl) rfl rfl
    | exact le_max_left _ _
    | exact le_rfl
    | exact OrdersOf.refl _
    | exact OrdersOf.filter _ _
    | exact FilingsOf.refl _
    | exact FilingsOf.filter _ _
    | (intro x; exact ⟨rfl, id⟩)
    | (intro x; simp [Filing.pendingConsent]; done)
    | exact (List.length_filter_le _ _).trans (le_max_left _ _)
    | exact List.length_filter_le _ _
    | (refine OrdersOf.map _ _ fun o => ?_)
    | split
    | (intro o; rfl)
    | (show Order.key _ = Order.key _; rfl)
    | (simp [Retained.kept]; done)
    | (simp_all [Config.transferCapacity, Config.workCapacity]; omega))

theorem loseOpening_calm {kd : Kind} {s0 s : State} (hc : Calm kd s0 s) (d : Nat) : Calm kd s0 (loseOpening s d) := by
  unfold loseOpening
  dsimp only
  split
  · split
    · exact loseTarget_calm hc _
    · exact hc
  · exact hc

theorem faultHolder_calm {kd : Kind} {s0 s : State} (hc : Calm kd s0 s) (d : Nat) : Calm kd s0 (faultHolder s d) := by
  unfold faultHolder
  try dsimp only []
  repeat' (first
    | with_reducible assumption
    | (first | exact fun h => h | exact fun _ h => h | exact Quiet.same rfl rfl | exact Quiet.other rfl rfl | exact PickerQuiet.same rfl rfl)
    | with_reducible apply loseOpening_calm
    | with_reducible apply endItem_calm
    | with_reducible apply finishItem_calm
    | with_reducible apply loseChosen_calm
    | with_reducible apply returnItem_calm
    | (with_reducible apply calm_set; focus (first | with_reducible assumption | split | with_reducible apply endItem_calm | with_reducible apply finishItem_calm | with_reducible apply loseChosen_calm | with_reducible apply returnItem_calm))
    | (with_reducible apply calm_foldl; intro s x h)
    | (intro _ _ _; try dsimp only)
    | with_reducible rfl
    | exact Kept.refl _ _
    | exact Kept.same rfl rfl (fun _ => rfl) rfl rfl
    | exact le_max_left _ _
    | exact le_rfl
    | exact OrdersOf.refl _
    | exact OrdersOf.filter _ _
    | exact FilingsOf.refl _
    | exact FilingsOf.filter _ _
    | (intro x; exact ⟨rfl, id⟩)
    | (intro x; simp [Filing.pendingConsent]; done)
    | exact (List.length_filter_le _ _).trans (le_max_left _ _)
    | exact List.length_filter_le _ _
    | (refine OrdersOf.map _ _ fun o => ?_)
    | split
    | (intro o; rfl)
    | (show Order.key _ = Order.key _; rfl)
    | (simp [Retained.kept]; done)
    | (simp_all [Config.transferCapacity, Config.workCapacity]; omega))

theorem faultInspect_calm {kd : Kind} {s0 s : State} (hc : Calm kd s0 s) (d : Nat) : Calm kd s0 (faultInspect s d) := by
  unfold faultInspect
  try dsimp only []
  repeat' (first
    | with_reducible assumption
    | (first | exact fun h => h | exact fun _ h => h | exact Quiet.same rfl rfl | exact Quiet.other rfl rfl | exact PickerQuiet.same rfl rfl)
    | with_reducible apply endItemOpt_calm
    | (with_reducible apply calm_set; focus (first | with_reducible assumption | split | with_reducible apply endItemOpt_calm))
    | (with_reducible apply calm_foldl; intro s x h)
    | (intro _ _ _; try dsimp only)
    | with_reducible rfl
    | exact Kept.refl _ _
    | exact Kept.same rfl rfl (fun _ => rfl) rfl rfl
    | exact le_max_left _ _
    | exact le_rfl
    | exact OrdersOf.refl _
    | exact OrdersOf.filter _ _
    | exact FilingsOf.refl _
    | exact FilingsOf.filter _ _
    | (intro x; exact ⟨rfl, id⟩)
    | (intro x; simp [Filing.pendingConsent]; done)
    | exact (List.length_filter_le _ _).trans (le_max_left _ _)
    | exact List.length_filter_le _ _
    | (refine OrdersOf.map _ _ fun o => ?_)
    | split
    | (intro o; rfl)
    | (show Order.key _ = Order.key _; rfl)
    | (simp [Retained.kept]; done)
    | (simp_all [Config.transferCapacity, Config.workCapacity]; omega))

theorem faultImport_calm {kd : Kind} {s0 s : State} (hc : Calm kd s0 s) (d : Nat) : Calm kd s0 (faultImport s d) := by
  unfold faultImport
  try dsimp only []
  repeat' (first
    | with_reducible assumption
    | (first | exact fun h => h | exact fun _ h => h | exact Quiet.same rfl rfl | exact Quiet.other rfl rfl | exact PickerQuiet.same rfl rfl)
    | with_reducible apply importRejected_calm
    | with_reducible apply modDrive_calm
    | (with_reducible apply calm_set; focus (first | with_reducible assumption | split | with_reducible apply importRejected_calm | with_reducible apply modDrive_calm))
    | (with_reducible apply calm_foldl; intro s x h)
    | (intro _ _ _; try dsimp only)
    | with_reducible rfl
    | exact Kept.refl _ _
    | exact Kept.same rfl rfl (fun _ => rfl) rfl rfl
    | exact le_max_left _ _
    | exact le_rfl
    | exact OrdersOf.refl _
    | exact OrdersOf.filter _ _
    | exact FilingsOf.refl _
    | exact FilingsOf.filter _ _
    | (intro x; exact ⟨rfl, id⟩)
    | (intro x; simp [Filing.pendingConsent]; done)
    | exact (List.length_filter_le _ _).trans (le_max_left _ _)
    | exact List.length_filter_le _ _
    | (refine OrdersOf.map _ _ fun o => ?_)
    | split
    | (intro o; rfl)
    | (show Order.key _ = Order.key _; rfl)
    | (simp [Retained.kept]; done)
    | (simp_all [Config.transferCapacity, Config.workCapacity]; omega))

theorem dropMountsInto_calm {kd : Kind} {s0 s : State} (hc : Calm kd s0 s) (d : Nat) : Calm kd s0 (dropMountsInto s d) := by
  unfold dropMountsInto
  try dsimp only []
  repeat' (first
    | with_reducible assumption
    | (first | exact fun h => h | exact fun _ h => h | exact Quiet.same rfl rfl | exact Quiet.other rfl rfl | exact PickerQuiet.same rfl rfl)
    | with_reducible apply modPicker_calm
    | with_reducible apply modRebuildAt_calm
    | (with_reducible apply calm_set; focus (first | with_reducible assumption | split | with_reducible apply modPicker_calm | with_reducible apply modRebuildAt_calm))
    | (with_reducible apply calm_foldl; intro s x h)
    | (intro _ _ _; try dsimp only)
    | with_reducible rfl
    | exact Kept.refl _ _
    | exact Kept.same rfl rfl (fun _ => rfl) rfl rfl
    | exact le_max_left _ _
    | exact le_rfl
    | exact OrdersOf.refl _
    | exact OrdersOf.filter _ _
    | exact FilingsOf.refl _
    | exact FilingsOf.filter _ _
    | (intro x; exact ⟨rfl, id⟩)
    | (intro x; simp [Filing.pendingConsent]; done)
    | exact (List.length_filter_le _ _).trans (le_max_left _ _)
    | exact List.length_filter_le _ _
    | (refine OrdersOf.map _ _ fun o => ?_)
    | split
    | (intro o; rfl)
    | (show Order.key _ = Order.key _; rfl)
    | (simp [Retained.kept]; done)
    | (simp_all [Config.transferCapacity, Config.workCapacity]; omega))

theorem driveFault_calm {kd : Kind} {s0 s : State} (hc : Calm kd s0 s) (d : Nat) (why : DriveFault) : Calm kd s0 (driveFault s d why) := by
  unfold driveFault
  try dsimp only []
  repeat' (first
    | with_reducible assumption
    | (first | exact fun h => h | exact fun _ h => h | exact Quiet.same rfl rfl | exact Quiet.other rfl rfl | exact PickerQuiet.same rfl rfl)
    | with_reducible apply beginEject_calm
    | with_reducible apply driveFaultNotice_calm
    | with_reducible apply dropMountsInto_calm
    | with_reducible apply dropQueued_calm
    | with_reducible apply faultBurst_calm
    | with_reducible apply faultHolder_calm
    | with_reducible apply faultImport_calm
    | with_reducible apply faultInspect_calm
    | with_reducible apply modDrive_calm
    | (with_reducible apply calm_set; focus (first | with_reducible assumption | split | with_reducible apply beginEject_calm | with_reducible apply driveFaultNotice_calm | with_reducible apply dropMountsInto_calm | with_reducible apply dropQueued_calm | with_reducible apply faultBurst_calm | with_reducible apply faultHolder_calm | with_reducible apply faultImport_calm | with_reducible apply faultInspect_calm | with_reducible apply modDrive_calm))
    | (with_reducible apply calm_foldl; intro s x h)
    | (intro _ _ _; try dsimp only)
    | with_reducible rfl
    | exact Kept.refl _ _
    | exact Kept.same rfl rfl (fun _ => rfl) rfl rfl
    | exact le_max_left _ _
    | exact le_rfl
    | exact OrdersOf.refl _
    | exact OrdersOf.filter _ _
    | exact FilingsOf.refl _
    | exact FilingsOf.filter _ _
    | (intro x; exact ⟨rfl, id⟩)
    | (intro x; simp [Filing.pendingConsent]; done)
    | exact (List.length_filter_le _ _).trans (le_max_left _ _)
    | exact List.length_filter_le _ _
    | (refine OrdersOf.map _ _ fun o => ?_)
    | split
    | (intro o; rfl)
    | (show Order.key _ = Order.key _; rfl)
    | (simp [Retained.kept]; done)
    | (simp_all [Config.transferCapacity, Config.workCapacity]; omega))

theorem faultStuck_calm {kd : Kind} {s0 s : State} (hc : Calm kd s0 s) (d : Nat) : Calm kd s0 (faultStuck s d) := by
  unfold faultStuck
  try dsimp only []
  repeat' (first
    | with_reducible assumption
    | (first | exact fun h => h | exact fun _ h => h | exact Quiet.same rfl rfl | exact Quiet.other rfl rfl | exact PickerQuiet.same rfl rfl)
    | with_reducible apply driveFaultNotice_calm
    | with_reducible apply endCartWork_calm
    | with_reducible apply modDrive_calm
    | with_reducible apply rebuildHalt_calm
    | (with_reducible apply calm_set; focus (first | with_reducible assumption | split | with_reducible apply driveFaultNotice_calm | with_reducible apply endCartWork_calm | with_reducible apply modDrive_calm | with_reducible apply rebuildHalt_calm))
    | (with_reducible apply calm_foldl; intro s x h)
    | (intro _ _ _; try dsimp only)
    | with_reducible rfl
    | exact Kept.refl _ _
    | exact Kept.same rfl rfl (fun _ => rfl) rfl rfl
    | exact le_max_left _ _
    | exact le_rfl
    | exact OrdersOf.refl _
    | exact OrdersOf.filter _ _
    | exact FilingsOf.refl _
    | exact FilingsOf.filter _ _
    | (intro x; exact ⟨rfl, id⟩)
    | (intro x; simp [Filing.pendingConsent]; done)
    | exact (List.length_filter_le _ _).trans (le_max_left _ _)
    | exact List.length_filter_le _ _
    | (refine OrdersOf.map _ _ fun o => ?_)
    | split
    | (intro o; rfl)
    | (show Order.key _ = Order.key _; rfl)
    | (simp [Retained.kept]; done)
    | (simp_all [Config.transferCapacity, Config.workCapacity]; omega))

theorem serviceFault_calm {kd : Kind} {s0 s : State} (hc : Calm kd s0 s) (d : Nat) (why : DriveFault) : Calm kd s0 (serviceFault s d why) := by
  unfold serviceFault
  try dsimp only []
  repeat' (first
    | with_reducible assumption
    | (first | exact fun h => h | exact fun _ h => h | exact Quiet.same rfl rfl | exact Quiet.other rfl rfl | exact PickerQuiet.same rfl rfl)
    | with_reducible apply driveFaultNotice_calm
    | with_reducible apply dropQueued_calm
    | with_reducible apply modDrive_calm
    | (with_reducible apply calm_set; focus (first | with_reducible assumption | split | with_reducible apply driveFaultNotice_calm | with_reducible apply dropQueued_calm | with_reducible apply modDrive_calm))
    | (with_reducible apply calm_foldl; intro s x h)
    | (intro _ _ _; try dsimp only)
    | with_reducible rfl
    | exact Kept.refl _ _
    | exact Kept.same rfl rfl (fun _ => rfl) rfl rfl
    | exact le_max_left _ _
    | exact le_rfl
    | exact OrdersOf.refl _
    | exact OrdersOf.filter _ _
    | exact FilingsOf.refl _
    | exact FilingsOf.filter _ _
    | (intro x; exact ⟨rfl, id⟩)
    | (intro x; simp [Filing.pendingConsent]; done)
    | exact (List.length_filter_le _ _).trans (le_max_left _ _)
    | exact List.length_filter_le _ _
    | (refine OrdersOf.map _ _ fun o => ?_)
    | split
    | (intro o; rfl)
    | (show Order.key _ = Order.key _; rfl)
    | (simp [Retained.kept]; done)
    | (simp_all [Config.transferCapacity, Config.workCapacity]; omega))

theorem ejectDone_calm {kd : Kind} {s0 s : State} (hc : Calm kd s0 s) (d : Nat) (why : EjectWhy) : Calm kd s0 (ejectDone s d why) := by
  unfold ejectDone
  try dsimp only []
  repeat' (first
    | with_reducible assumption
    | (first | exact fun h => h | exact fun _ h => h | exact Quiet.same rfl rfl | exact Quiet.other rfl rfl | exact PickerQuiet.same rfl rfl)
    | with_reducible apply driveFaultNotice_calm
    | with_reducible apply modDrive_calm
    | with_reducible apply requestHome_calm
    | (with_reducible apply calm_set; focus (first | with_reducible assumption | split | with_reducible apply driveFaultNotice_calm | with_reducible apply modDrive_calm | with_reducible apply requestHome_calm))
    | (with_reducible apply calm_foldl; intro s x h)
    | (intro _ _ _; try dsimp only)
    | with_reducible rfl
    | exact Kept.refl _ _
    | exact Kept.same rfl rfl (fun _ => rfl) rfl rfl
    | exact le_max_left _ _
    | exact le_rfl
    | exact OrdersOf.refl _
    | exact OrdersOf.filter _ _
    | exact FilingsOf.refl _
    | exact FilingsOf.filter _ _
    | (intro x; exact ⟨rfl, id⟩)
    | (intro x; simp [Filing.pendingConsent]; done)
    | exact (List.length_filter_le _ _).trans (le_max_left _ _)
    | exact List.length_filter_le _ _
    | (refine OrdersOf.map _ _ fun o => ?_)
    | split
    | (intro o; rfl)
    | (show Order.key _ = Order.key _; rfl)
    | (simp [Retained.kept]; done)
    | (simp_all [Config.transferCapacity, Config.workCapacity]; omega))

theorem ejectFailed_calm {kd : Kind} {s0 s : State} (hc : Calm kd s0 s) (d : Nat) (why : EjectWhy) (reason : DriveFault) : Calm kd s0 (ejectFailed s d why reason) := by
  unfold ejectFailed
  try dsimp only []
  repeat' (first
    | with_reducible assumption
    | (first | exact fun h => h | exact fun _ h => h | exact Quiet.same rfl rfl | exact Quiet.other rfl rfl | exact PickerQuiet.same rfl rfl)
    | with_reducible apply driveFault_calm
    | with_reducible apply faultStuck_calm
    | with_reducible apply serviceFault_calm
    | (with_reducible apply calm_set; focus (first | with_reducible assumption | split | with_reducible apply driveFault_calm | with_reducible apply faultStuck_calm | with_reducible apply serviceFault_calm))
    | (with_reducible apply calm_foldl; intro s x h)
    | (intro _ _ _; try dsimp only)
    | with_reducible rfl
    | exact Kept.refl _ _
    | exact Kept.same rfl rfl (fun _ => rfl) rfl rfl
    | exact le_max_left _ _
    | exact le_rfl
    | exact OrdersOf.refl _
    | exact OrdersOf.filter _ _
    | exact FilingsOf.refl _
    | exact FilingsOf.filter _ _
    | (intro x; exact ⟨rfl, id⟩)
    | (intro x; simp [Filing.pendingConsent]; done)
    | exact (List.length_filter_le _ _).trans (le_max_left _ _)
    | exact List.length_filter_le _ _
    | (refine OrdersOf.map _ _ fun o => ?_)
    | split
    | (intro o; rfl)
    | (show Order.key _ = Order.key _; rfl)
    | (simp [Retained.kept]; done)
    | (simp_all [Config.transferCapacity, Config.workCapacity]; omega))

theorem newSerial_pass (job : LabelJob) (l : Label) (p q : Pass) :
    (Task.writeLabel job l p).newSerial = (Task.writeLabel job l q).newSerial := by cases job <;> rfl

theorem opEnded_calm {kd : Kind} {s0 s : State} (hc : Calm kd s0 s) (d : Nat) (k : DriveOpKind) (st : DriveStatus) (hk : kd.fills = true) : Calm kd s0 (opEnded s d k st) := by
  have ht := modDrive_task s d (fun y => { y with op := none, chan := [] }) rfl
  unfold opEnded
  try dsimp only []
  repeat' (first
    | with_reducible assumption
    | (first | exact .inl rfl | exact fun _ => LabelJob.noConfusion | exact .inr ((newSerial_pass _ _ _ _).trans (congrArg Task.newSerial (ht.trans (by assumption : _ = Task.writeLabel _ _ _))).symm) | (intro c e; rw [ht]; simp_all [Task.newSerial]; done) | exact fun h => h | exact fun _ h => h | exact Quiet.same rfl rfl | exact Quiet.other rfl rfl | exact PickerQuiet.same rfl rfl)
    | exact hk
    | with_reducible apply commitTaken_calm
    | with_reducible apply directoryDone_calm
    | with_reducible apply driveFault_calm
    | with_reducible apply driveOp_calm
    | with_reducible apply ejectDone_calm
    | with_reducible apply ejectFailed_calm
    | with_reducible apply labelRead_calm
    | with_reducible apply labelWritten_calm
    | with_reducible apply modDrive_calm
    | with_reducible apply readDirectory_calm
    | with_reducible apply readTaken_calm
    | with_reducible apply writeTaken_calm
    | (with_reducible apply calm_set; focus (first | with_reducible assumption | split | with_reducible apply commitTaken_calm | with_reducible apply directoryDone_calm | with_reducible apply driveFault_calm | with_reducible apply driveOp_calm | with_reducible apply ejectDone_calm | with_reducible apply ejectFailed_calm | with_reducible apply labelRead_calm | with_reducible apply labelWritten_calm | with_reducible apply modDrive_calm | with_reducible apply readDirectory_calm | with_reducible apply readTaken_calm | with_reducible apply writeTaken_calm))
    | (with_reducible apply calm_foldl; intro s x h)
    | (intro _ _ _; try dsimp only)
    | with_reducible rfl
    | exact Kept.refl _ _
    | exact Kept.same rfl rfl (fun _ => rfl) rfl rfl
    | exact le_max_left _ _
    | exact le_rfl
    | exact OrdersOf.refl _
    | exact OrdersOf.filter _ _
    | exact FilingsOf.refl _
    | exact FilingsOf.filter _ _
    | (intro x; exact ⟨rfl, id⟩)
    | (intro x; simp [Filing.pendingConsent]; done)
    | exact (List.length_filter_le _ _).trans (le_max_left _ _)
    | exact List.length_filter_le _ _
    | (refine OrdersOf.map _ _ fun o => ?_)
    | split
    | (intro o; rfl)
    | (show Order.key _ = Order.key _; rfl)
    | (simp [Retained.kept]; done)
    | (simp_all [Config.transferCapacity, Config.workCapacity]; omega))

theorem serviceStatus_calm {kd : Kind} {s0 s : State} (hc : Calm kd s0 s) (d : Nat) (st : DriveStatus) : Calm kd s0 (serviceStatus s d st) := by
  unfold serviceStatus
  split
  · exact modDrive_calm (cartridgeOut_calm hc d) _ _ (Quiet.other rfl rfl)
  · split
    · exact modDrive_calm hc _ _ (Quiet.same rfl rfl)
    · refine beginEject_calm (modDrive_calm hc _ _ ⟨fun c h => ?_, .inr rfl⟩) _ _
      dsimp only at h
      split at h
      · cases h
      · exact h

theorem inventoryStatus_calm {kd : Kind} {s0 s : State} (hc : Calm kd s0 s) (d : Nat) (st : DriveStatus) : Calm kd s0 (inventoryStatus s d st) := by
  unfold inventoryStatus
  try dsimp only []
  repeat' (first
    | with_reducible assumption
    | (first | exact Quiet.out (fun _ => Occupant.noConfusion) rfl | exact fun h => h | exact fun _ h => h | exact Quiet.same rfl rfl | exact Quiet.other rfl rfl | exact PickerQuiet.same rfl rfl)
    | with_reducible apply beginSpinDown_calm
    | with_reducible apply driveFault_calm
    | with_reducible apply modBoot_calm
    | with_reducible apply modDrive_calm
    | (with_reducible apply calm_set; focus (first | with_reducible assumption | split | with_reducible apply beginSpinDown_calm | with_reducible apply driveFault_calm | with_reducible apply modBoot_calm | with_reducible apply modDrive_calm))
    | (with_reducible apply calm_foldl; intro s x h)
    | (intro _ _ _; try dsimp only)
    | with_reducible rfl
    | exact Kept.refl _ _
    | exact Kept.same rfl rfl (fun _ => rfl) rfl rfl
    | exact le_max_left _ _
    | exact le_rfl
    | exact OrdersOf.refl _
    | exact OrdersOf.filter _ _
    | exact FilingsOf.refl _
    | exact FilingsOf.filter _ _
    | (intro x; exact ⟨rfl, id⟩)
    | (intro x; simp [Filing.pendingConsent]; done)
    | exact (List.length_filter_le _ _).trans (le_max_left _ _)
    | exact List.length_filter_le _ _
    | (refine OrdersOf.map _ _ fun o => ?_)
    | split
    | (intro o; rfl)
    | (show Order.key _ = Order.key _; rfl)
    | (simp [Retained.kept]; done)
    | (simp_all [Config.transferCapacity, Config.workCapacity]; omega))

theorem takeProgress_calm {kd : Kind} {s0 s : State} (hc : Calm kd s0 s) (d : Nat) (k : DriveOpKind) (st : DriveStatus) (hk : kd.fills = true) : Calm kd s0 (takeProgress s d k st) := by
  unfold takeProgress
  try dsimp only []
  repeat' (first
    | with_reducible assumption
    | (first | exact fun h => h | exact fun _ h => h | exact Quiet.same rfl rfl | exact Quiet.other rfl rfl | exact PickerQuiet.same rfl rfl)
    | exact hk
    | with_reducible apply addRemap_calm
    | with_reducible apply modDrive_calm
    | with_reducible apply takeSent_calm
    | (with_reducible apply calm_set; focus (first | with_reducible assumption | split | with_reducible apply addRemap_calm | with_reducible apply modDrive_calm | with_reducible apply takeSent_calm))
    | (with_reducible apply calm_foldl; intro s x h)
    | (intro _ _ _; try dsimp only)
    | with_reducible rfl
    | exact Kept.refl _ _
    | exact Kept.same rfl rfl (fun _ => rfl) rfl rfl
    | exact le_max_left _ _
    | exact le_rfl
    | exact OrdersOf.refl _
    | exact OrdersOf.filter _ _
    | exact FilingsOf.refl _
    | exact FilingsOf.filter _ _
    | (intro x; exact ⟨rfl, id⟩)
    | (intro x; simp [Filing.pendingConsent]; done)
    | exact (List.length_filter_le _ _).trans (le_max_left _ _)
    | exact List.length_filter_le _ _
    | (refine OrdersOf.map _ _ fun o => ?_)
    | split
    | (intro o; rfl)
    | (show Order.key _ = Order.key _; rfl)
    | (simp [Retained.kept]; done)
    | (simp_all [Config.transferCapacity, Config.workCapacity]; omega))

theorem takeCompletion_calm {kd : Kind} {s0 s : State} (hc : Calm kd s0 s) (d : Nat) (st : DriveStatus) (hk : kd.fills = true) : Calm kd s0 (takeCompletion s d st) := by
  unfold takeCompletion
  try dsimp only []
  repeat' (first
    | with_reducible assumption
    | (first | exact fun h => h | exact fun _ h => h | exact Quiet.same rfl rfl | exact Quiet.other rfl rfl | exact PickerQuiet.same rfl rfl)
    | exact hk
    | with_reducible apply opEnded_calm
    | with_reducible apply takeProgress_calm
    | (with_reducible apply calm_set; focus (first | with_reducible assumption | split | with_reducible apply opEnded_calm | with_reducible apply takeProgress_calm))
    | (with_reducible apply calm_foldl; intro s x h)
    | (intro _ _ _; try dsimp only)
    | with_reducible rfl
    | exact Kept.refl _ _
    | exact Kept.same rfl rfl (fun _ => rfl) rfl rfl
    | exact le_max_left _ _
    | exact le_rfl
    | exact OrdersOf.refl _
    | exact OrdersOf.filter _ _
    | exact FilingsOf.refl _
    | exact FilingsOf.filter _ _
    | (intro x; exact ⟨rfl, id⟩)
    | (intro x; simp [Filing.pendingConsent]; done)
    | exact (List.length_filter_le _ _).trans (le_max_left _ _)
    | exact List.length_filter_le _ _
    | (refine OrdersOf.map _ _ fun o => ?_)
    | split
    | (intro o; rfl)
    | (show Order.key _ = Order.key _; rfl)
    | (simp [Retained.kept]; done)
    | (simp_all [Config.transferCapacity, Config.workCapacity]; omega))

theorem moduleFault_calm {kd : Kind} {s0 s : State} (hc : Calm kd s0 s) (d : Nat) (st : DriveStatus) (hk : kd.fills = true) : Calm kd s0 (moduleFault s d st) := by
  unfold moduleFault
  try dsimp only []
  repeat' (first
    | with_reducible assumption
    | (first | exact fun h => h | exact fun _ h => h | exact Quiet.same rfl rfl | exact Quiet.other rfl rfl | exact PickerQuiet.same rfl rfl)
    | exact hk
    | with_reducible apply takeProgress_calm
    | with_reducible apply driveFault_calm
    | (with_reducible apply calm_set; focus (first | with_reducible assumption | split | with_reducible apply takeProgress_calm | with_reducible apply driveFault_calm))
    | (with_reducible apply calm_foldl; intro s x h)
    | (intro _ _ _; try dsimp only)
    | with_reducible rfl
    | exact Kept.refl _ _
    | exact Kept.same rfl rfl (fun _ => rfl) rfl rfl
    | exact le_max_left _ _
    | exact le_rfl
    | exact OrdersOf.refl _
    | exact OrdersOf.filter _ _
    | exact FilingsOf.refl _
    | exact FilingsOf.filter _ _
    | (intro x; exact ⟨rfl, id⟩)
    | (intro x; simp [Filing.pendingConsent]; done)
    | exact (List.length_filter_le _ _).trans (le_max_left _ _)
    | exact List.length_filter_le _ _
    | (refine OrdersOf.map _ _ fun o => ?_)
    | split
    | (intro o; rfl)
    | (show Order.key _ = Order.key _; rfl)
    | (simp [Retained.kept]; done)
    | (simp_all [Config.transferCapacity, Config.workCapacity]; omega))

theorem driveStatusOp_calm {kd : Kind} {s0 s : State} (hc : Calm kd s0 s) (d : Nat) (st : DriveStatus) (why : Why) (hk : kd.fills = true) : Calm kd s0 (driveStatusOp s d st why) := by
  unfold driveStatusOp
  try dsimp only []
  repeat' (first
    | with_reducible assumption
    | (first | exact fun h => h | exact fun _ h => h | exact Quiet.same rfl rfl | exact Quiet.other rfl rfl | exact PickerQuiet.same rfl rfl)
    | exact hk
    | with_reducible apply inventoryStatus_calm
    | with_reducible apply issue_calm
    | with_reducible apply moduleFault_calm
    | with_reducible apply serviceStatus_calm
    | with_reducible apply takeCompletion_calm
    | (with_reducible apply calm_set; focus (first | with_reducible assumption | split | with_reducible apply inventoryStatus_calm | with_reducible apply issue_calm | with_reducible apply moduleFault_calm | with_reducible apply serviceStatus_calm | with_reducible apply takeCompletion_calm))
    | (with_reducible apply calm_foldl; intro s x h)
    | (intro _ _ _; try dsimp only)
    | with_reducible rfl
    | exact Kept.refl _ _
    | exact Kept.same rfl rfl (fun _ => rfl) rfl rfl
    | exact le_max_left _ _
    | exact le_rfl
    | exact OrdersOf.refl _
    | exact OrdersOf.filter _ _
    | exact FilingsOf.refl _
    | exact FilingsOf.filter _ _
    | (intro x; exact ⟨rfl, id⟩)
    | (intro x; simp [Filing.pendingConsent]; done)
    | exact (List.length_filter_le _ _).trans (le_max_left _ _)
    | exact List.length_filter_le _ _
    | (refine OrdersOf.map _ _ fun o => ?_)
    | split
    | (intro o; rfl)
    | (show Order.key _ = Order.key _; rfl)
    | (simp [Retained.kept]; done)
    | (simp_all [Config.transferCapacity, Config.workCapacity]; omega))

theorem driveCommandTaken_calm {kd : Kind} {s0 s : State} (hc : Calm kd s0 s) (d : Nat) (cmd : BayCmd) : Calm kd s0 (driveCommandTaken s d cmd) := by
  unfold driveCommandTaken
  try dsimp only []
  repeat' (first
    | with_reducible assumption
    | (first | exact fun h => h | exact fun _ h => h | exact Quiet.same rfl rfl | exact Quiet.other rfl rfl | exact PickerQuiet.same rfl rfl)
    | with_reducible apply modDrive_calm
    | (with_reducible apply calm_set; focus (first | with_reducible assumption | split | with_reducible apply modDrive_calm))
    | (with_reducible apply calm_foldl; intro s x h)
    | (intro _ _ _; try dsimp only)
    | with_reducible rfl
    | exact Kept.refl _ _
    | exact Kept.same rfl rfl (fun _ => rfl) rfl rfl
    | exact le_max_left _ _
    | exact le_rfl
    | exact OrdersOf.refl _
    | exact OrdersOf.filter _ _
    | exact FilingsOf.refl _
    | exact FilingsOf.filter _ _
    | (intro x; exact ⟨rfl, id⟩)
    | (intro x; simp [Filing.pendingConsent]; done)
    | exact (List.length_filter_le _ _).trans (le_max_left _ _)
    | exact List.length_filter_le _ _
    | (refine OrdersOf.map _ _ fun o => ?_)
    | split
    | (intro o; rfl)
    | (show Order.key _ = Order.key _; rfl)
    | (simp [Retained.kept]; done)
    | (simp_all [Config.transferCapacity, Config.workCapacity]; omega))

theorem driveCommandFailed_calm {kd : Kind} {s0 s : State} (hc : Calm kd s0 s) (d : Nat) (e : BayEntry) : Calm kd s0 (driveCommandFailed s d e) := by
  unfold driveCommandFailed
  try dsimp only []
  repeat' (first
    | with_reducible assumption
    | (first | exact fun h => h | exact fun _ h => h | exact Quiet.same rfl rfl | exact Quiet.other rfl rfl | exact PickerQuiet.same rfl rfl)
    | with_reducible apply driveFault_calm
    | with_reducible apply driveFaultNotice_calm
    | with_reducible apply ejectFailed_calm
    | with_reducible apply modDrive_calm
    | with_reducible apply serviceFault_calm
    | (with_reducible apply calm_set; focus (first | with_reducible assumption | split | with_reducible apply driveFault_calm | with_reducible apply driveFaultNotice_calm | with_reducible apply ejectFailed_calm | with_reducible apply modDrive_calm | with_reducible apply serviceFault_calm))
    | (with_reducible apply calm_foldl; intro s x h)
    | (intro _ _ _; try dsimp only)
    | with_reducible rfl
    | exact Kept.refl _ _
    | exact Kept.same rfl rfl (fun _ => rfl) rfl rfl
    | exact le_max_left _ _
    | exact le_rfl
    | exact OrdersOf.refl _
    | exact OrdersOf.filter _ _
    | exact FilingsOf.refl _
    | exact FilingsOf.filter _ _
    | (intro x; exact ⟨rfl, id⟩)
    | (intro x; simp [Filing.pendingConsent]; done)
    | exact (List.length_filter_le _ _).trans (le_max_left _ _)
    | exact List.length_filter_le _ _
    | (refine OrdersOf.map _ _ fun o => ?_)
    | split
    | (intro o; rfl)
    | (show Order.key _ = Order.key _; rfl)
    | (simp [Retained.kept]; done)
    | (simp_all [Config.transferCapacity, Config.workCapacity]; omega))

theorem spinUpTimeoutOp_calm {kd : Kind} {s0 s : State} (hc : Calm kd s0 s) (d : Nat) : Calm kd s0 (spinUpTimeoutOp s d) := by
  unfold spinUpTimeoutOp
  try dsimp only []
  repeat' (first
    | with_reducible assumption
    | (first | exact fun h => h | exact fun _ h => h | exact Quiet.same rfl rfl | exact Quiet.other rfl rfl | exact PickerQuiet.same rfl rfl)
    | with_reducible apply driveFault_calm
    | (with_reducible apply calm_set; focus (first | with_reducible assumption | split | with_reducible apply driveFault_calm))
    | (with_reducible apply calm_foldl; intro s x h)
    | (intro _ _ _; try dsimp only)
    | with_reducible rfl
    | exact Kept.refl _ _
    | exact Kept.same rfl rfl (fun _ => rfl) rfl rfl
    | exact le_max_left _ _
    | exact le_rfl
    | exact OrdersOf.refl _
    | exact OrdersOf.filter _ _
    | exact FilingsOf.refl _
    | exact FilingsOf.filter _ _
    | (intro x; exact ⟨rfl, id⟩)
    | (intro x; simp [Filing.pendingConsent]; done)
    | exact (List.length_filter_le _ _).trans (le_max_left _ _)
    | exact List.length_filter_le _ _
    | (refine OrdersOf.map _ _ fun o => ?_)
    | split
    | (intro o; rfl)
    | (show Order.key _ = Order.key _; rfl)
    | (simp [Retained.kept]; done)
    | (simp_all [Config.transferCapacity, Config.workCapacity]; omega))

theorem spinDownNow_calm {kd : Kind} {s0 s : State} (hc : Calm kd s0 s) (d : Nat) : Calm kd s0 (spinDownNow s d) := by
  unfold spinDownNow
  try dsimp only []
  repeat' (first
    | with_reducible assumption
    | (first | exact fun h => h | exact fun _ h => h | exact Quiet.same rfl rfl | exact Quiet.other rfl rfl | exact PickerQuiet.same rfl rfl)
    | with_reducible apply beginSpinDown_calm
    | with_reducible apply modDrive_calm
    | (with_reducible apply calm_set; focus (first | with_reducible assumption | split | with_reducible apply beginSpinDown_calm | with_reducible apply modDrive_calm))
    | (with_reducible apply calm_foldl; intro s x h)
    | (intro _ _ _; try dsimp only)
    | with_reducible rfl
    | exact Kept.refl _ _
    | exact Kept.same rfl rfl (fun _ => rfl) rfl rfl
    | exact le_max_left _ _
    | exact le_rfl
    | exact OrdersOf.refl _
    | exact OrdersOf.filter _ _
    | exact FilingsOf.refl _
    | exact FilingsOf.filter _ _
    | (intro x; exact ⟨rfl, id⟩)
    | (intro x; simp [Filing.pendingConsent]; done)
    | exact (List.length_filter_le _ _).trans (le_max_left _ _)
    | exact List.length_filter_le _ _
    | (refine OrdersOf.map _ _ fun o => ?_)
    | split
    | (intro o; rfl)
    | (show Order.key _ = Order.key _; rfl)
    | (simp [Retained.kept]; done)
    | (simp_all [Config.transferCapacity, Config.workCapacity]; omega))

theorem idleTimeoutOp_calm {kd : Kind} {s0 s : State} (hc : Calm kd s0 s) (d : Nat) : Calm kd s0 (idleTimeoutOp s d) := by
  unfold idleTimeoutOp
  try dsimp only []
  repeat' (first
    | with_reducible assumption
    | (first | exact fun h => h | exact fun _ h => h | exact Quiet.same rfl rfl | exact Quiet.other rfl rfl | exact PickerQuiet.same rfl rfl)
    | with_reducible apply spinDownNow_calm
    | (with_reducible apply calm_set; focus (first | with_reducible assumption | split | with_reducible apply spinDownNow_calm))
    | (with_reducible apply calm_foldl; intro s x h)
    | (intro _ _ _; try dsimp only)
    | with_reducible rfl
    | exact Kept.refl _ _
    | exact Kept.same rfl rfl (fun _ => rfl) rfl rfl
    | exact le_max_left _ _
    | exact le_rfl
    | exact OrdersOf.refl _
    | exact OrdersOf.filter _ _
    | exact FilingsOf.refl _
    | exact FilingsOf.filter _ _
    | (intro x; exact ⟨rfl, id⟩)
    | (intro x; simp [Filing.pendingConsent]; done)
    | exact (List.length_filter_le _ _).trans (le_max_left _ _)
    | exact List.length_filter_le _ _
    | (refine OrdersOf.map _ _ fun o => ?_)
    | split
    | (intro o; rfl)
    | (show Order.key _ = Order.key _; rfl)
    | (simp [Retained.kept]; done)
    | (simp_all [Config.transferCapacity, Config.workCapacity]; omega))

theorem returnAssigned_calm {kd : Kind} {s0 s : State} (hc : Calm kd s0 s) (d : Nat) : Calm kd s0 (returnAssigned s d) := by
  unfold returnAssigned
  try dsimp only []
  repeat' (first
    | with_reducible assumption
    | (first | exact fun h => h | exact fun _ h => h | exact Quiet.same rfl rfl | exact Quiet.other rfl rfl | exact PickerQuiet.same rfl rfl)
    | with_reducible apply modItem_calm
    | with_reducible apply returnItem_calm
    | (with_reducible apply calm_set; focus (first | with_reducible assumption | split | with_reducible apply modItem_calm | with_reducible apply returnItem_calm))
    | (with_reducible apply calm_foldl; intro s x h)
    | (intro _ _ _; try dsimp only)
    | with_reducible rfl
    | exact Kept.refl _ _
    | exact Kept.same rfl rfl (fun _ => rfl) rfl rfl
    | exact le_max_left _ _
    | exact le_rfl
    | exact OrdersOf.refl _
    | exact OrdersOf.filter _ _
    | exact FilingsOf.refl _
    | exact FilingsOf.filter _ _
    | (intro x; exact ⟨rfl, id⟩)
    | (intro x; simp [Filing.pendingConsent]; done)
    | exact (List.length_filter_le _ _).trans (le_max_left _ _)
    | exact List.length_filter_le _ _
    | (refine OrdersOf.map _ _ fun o => ?_)
    | split
    | (intro o; rfl)
    | (show Order.key _ = Order.key _; rfl)
    | (simp [Retained.kept]; done)
    | (simp_all [Config.transferCapacity, Config.workCapacity]; omega))

theorem closedMarkRule_calm {kd : Kind} {s0 s t : State} (hc : Calm kd s0 s) (e : (closedMarkRule s) = some t) : Calm kd s0 t := by
  unfold closedMarkRule at e
  try dsimp only [] at e
  (repeat' split at e) <;> simp only [Option.map_eq_some_iff, Option.bind_eq_some_iff, Option.some.injEq, reduceCtorEq] at e
  all_goals (first | (subst e) | (obtain ⟨_, _, rfl⟩ := e) | (obtain ⟨_, _, _, _, rfl⟩ := e) | skip)
  all_goals try dsimp only
  all_goals
    repeat' (first
      | with_reducible assumption
      | (first | exact fun _ => LabelJob.noConfusion | exact fun h => h | exact fun _ h => h | exact Quiet.same rfl rfl | exact Quiet.other rfl rfl | exact PickerQuiet.same rfl rfl)
      | with_reducible apply beginLabelWrite_calm
      | (with_reducible apply calm_set; focus (first | with_reducible assumption | split | with_reducible apply beginLabelWrite_calm))
      | (with_reducible apply calm_foldl; intro s x h)
      | (intro _ _ _; try dsimp only)
      | with_reducible rfl
      | exact Kept.refl _ _
      | exact Kept.same rfl rfl (fun _ => rfl) rfl rfl
      | exact le_max_left _ _
      | exact le_rfl
      | exact OrdersOf.refl _
      | exact OrdersOf.filter _ _
      | exact FilingsOf.refl _
      | exact FilingsOf.filter _ _
      | (intro x; exact ⟨rfl, id⟩)
      | (intro x; simp [Filing.pendingConsent]; done)
      | exact (List.length_filter_le _ _).trans (le_max_left _ _)
      | exact List.length_filter_le _ _
      | (refine OrdersOf.map _ _ fun o => ?_)
      | split
      | (intro o; rfl)
      | (show Order.key _ = Order.key _; rfl)
      | (simp [Retained.kept]; done)
      | (simp_all [Config.transferCapacity, Config.workCapacity]; omega))

theorem spinDownRule_calm {kd : Kind} {s0 s t : State} (hc : Calm kd s0 s) (e : (spinDownRule s) = some t) : Calm kd s0 t := by
  unfold spinDownRule at e
  try dsimp only [] at e
  (repeat' split at e) <;> simp only [Option.map_eq_some_iff, Option.bind_eq_some_iff, Option.some.injEq, reduceCtorEq] at e
  all_goals (first | (subst e) | (obtain ⟨_, _, rfl⟩ := e) | (obtain ⟨_, _, _, _, rfl⟩ := e) | skip)
  all_goals try dsimp only
  all_goals
    repeat' (first
      | with_reducible assumption
      | (first | exact fun h => h | exact fun _ h => h | exact Quiet.same rfl rfl | exact Quiet.other rfl rfl | exact PickerQuiet.same rfl rfl)
      | with_reducible apply beginSpinDown_calm
      | (with_reducible apply calm_set; focus (first | with_reducible assumption | split | with_reducible apply beginSpinDown_calm))
      | (with_reducible apply calm_foldl; intro s x h)
      | (intro _ _ _; try dsimp only)
      | with_reducible rfl
      | exact Kept.refl _ _
      | exact Kept.same rfl rfl (fun _ => rfl) rfl rfl
      | exact le_max_left _ _
      | exact le_rfl
      | exact OrdersOf.refl _
      | exact OrdersOf.filter _ _
      | exact FilingsOf.refl _
      | exact FilingsOf.filter _ _
      | (intro x; exact ⟨rfl, id⟩)
      | (intro x; simp [Filing.pendingConsent]; done)
      | exact (List.length_filter_le _ _).trans (le_max_left _ _)
      | exact List.length_filter_le _ _
      | (refine OrdersOf.map _ _ fun o => ?_)
      | split
      | (intro o; rfl)
      | (show Order.key _ = Order.key _; rfl)
      | (simp [Retained.kept]; done)
      | (simp_all [Config.transferCapacity, Config.workCapacity]; omega))

theorem leavingRule_calm {kd : Kind} {s0 s t : State} (hc : Calm kd s0 s) (e : (leavingRule s) = some t) : Calm kd s0 t := by
  unfold leavingRule at e
  try dsimp only [] at e
  (repeat' split at e) <;> simp only [Option.map_eq_some_iff, Option.bind_eq_some_iff, Option.some.injEq, reduceCtorEq] at e
  all_goals (first | (subst e) | (obtain ⟨_, _, rfl⟩ := e) | (obtain ⟨_, _, _, _, rfl⟩ := e) | skip)
  all_goals try dsimp only
  all_goals
    repeat' (first
      | with_reducible assumption
      | (first | exact fun h => h | exact fun _ h => h | exact Quiet.same rfl rfl | exact Quiet.other rfl rfl | exact PickerQuiet.same rfl rfl)
      | with_reducible apply requestHome_calm
      | (with_reducible apply calm_set; focus (first | with_reducible assumption | split | with_reducible apply requestHome_calm))
      | (with_reducible apply calm_foldl; intro s x h)
      | (intro _ _ _; try dsimp only)
      | with_reducible rfl
      | exact Kept.refl _ _
      | exact Kept.same rfl rfl (fun _ => rfl) rfl rfl
      | exact le_max_left _ _
      | exact le_rfl
      | exact OrdersOf.refl _
      | exact OrdersOf.filter _ _
      | exact FilingsOf.refl _
      | exact FilingsOf.filter _ _
      | (intro x; exact ⟨rfl, id⟩)
      | (intro x; simp [Filing.pendingConsent]; done)
      | exact (List.length_filter_le _ _).trans (le_max_left _ _)
      | exact List.length_filter_le _ _
      | (refine OrdersOf.map _ _ fun o => ?_)
      | split
      | (intro o; rfl)
      | (show Order.key _ = Order.key _; rfl)
      | (simp [Retained.kept]; done)
      | (simp_all [Config.transferCapacity, Config.workCapacity]; omega))

theorem releaseRule_calm {kd : Kind} {s0 s t : State} (hc : Calm kd s0 s) (e : (releaseRule s) = some t) : Calm kd s0 t := by
  unfold releaseRule at e
  try dsimp only [] at e
  (repeat' split at e) <;> simp only [Option.map_eq_some_iff, Option.bind_eq_some_iff, Option.some.injEq, reduceCtorEq] at e
  all_goals (first | (subst e) | (obtain ⟨_, _, rfl⟩ := e) | (obtain ⟨_, _, _, _, rfl⟩ := e) | skip)
  all_goals try dsimp only
  all_goals
    repeat' (first
      | with_reducible assumption
      | (first | exact fun h => h | exact fun _ h => h | exact Quiet.same rfl rfl | exact Quiet.other rfl rfl | exact PickerQuiet.same rfl rfl)
      | with_reducible apply beginEject_calm
      | with_reducible apply beginSpinDown_calm
      | (with_reducible apply calm_set; focus (first | with_reducible assumption | split | with_reducible apply beginEject_calm | with_reducible apply beginSpinDown_calm))
      | (with_reducible apply calm_foldl; intro s x h)
      | (intro _ _ _; try dsimp only)
      | with_reducible rfl
      | exact Kept.refl _ _
      | exact Kept.same rfl rfl (fun _ => rfl) rfl rfl
      | exact le_max_left _ _
      | exact le_rfl
      | exact OrdersOf.refl _
      | exact OrdersOf.filter _ _
      | exact FilingsOf.refl _
      | exact FilingsOf.filter _ _
      | (intro x; exact ⟨rfl, id⟩)
      | (intro x; simp [Filing.pendingConsent]; done)
      | exact (List.length_filter_le _ _).trans (le_max_left _ _)
      | exact List.length_filter_le _ _
      | (refine OrdersOf.map _ _ fun o => ?_)
      | split
      | (intro o; rfl)
      | (show Order.key _ = Order.key _; rfl)
      | (simp [Retained.kept]; done)
      | (simp_all [Config.transferCapacity, Config.workCapacity]; omega))

theorem rebuildDriveRule_calm {kd : Kind} {s0 s t : State} (hc : Calm kd s0 s) (e : (rebuildDriveRule s) = some t) : Calm kd s0 t := by
  unfold rebuildDriveRule at e
  try dsimp only [] at e
  (repeat' split at e) <;> simp only [Option.map_eq_some_iff, Option.bind_eq_some_iff, Option.some.injEq, reduceCtorEq] at e
  all_goals (first | (subst e) | (obtain ⟨_, _, rfl⟩ := e) | (obtain ⟨_, _, _, _, rfl⟩ := e) | skip)
  all_goals try dsimp only
  all_goals
    repeat' (first
      | with_reducible assumption
      | (first | exact fun h => h | exact fun _ h => h | exact Quiet.same rfl rfl | exact Quiet.other rfl rfl | exact PickerQuiet.same rfl rfl)
      | with_reducible apply beginMount_calm
      | with_reducible apply beginRemount_calm
      | with_reducible apply modDrive_calm
      | with_reducible apply modRebuildAt_calm
      | (with_reducible apply calm_set; focus (first | with_reducible assumption | split | with_reducible apply beginMount_calm | with_reducible apply beginRemount_calm | with_reducible apply modDrive_calm | with_reducible apply modRebuildAt_calm))
      | (with_reducible apply calm_foldl; intro s x h)
      | (intro _ _ _; try dsimp only)
      | with_reducible rfl
      | exact Kept.refl _ _
      | exact Kept.same rfl rfl (fun _ => rfl) rfl rfl
      | exact le_max_left _ _
      | exact le_rfl
      | exact OrdersOf.refl _
      | exact OrdersOf.filter _ _
      | exact FilingsOf.refl _
      | exact FilingsOf.filter _ _
      | (intro x; exact ⟨rfl, id⟩)
      | (intro x; simp [Filing.pendingConsent]; done)
      | exact (List.length_filter_le _ _).trans (le_max_left _ _)
      | exact List.length_filter_le _ _
      | (refine OrdersOf.map _ _ fun o => ?_)
      | split
      | (intro o; rfl)
      | (show Order.key _ = Order.key _; rfl)
      | (simp [Retained.kept]; done)
      | (simp_all [Config.transferCapacity, Config.workCapacity]; omega))

end Sys2Proof.Machine
end

