-- ==== Sys2Proof/Laws/Reconciled.lean ====
section
/-! SUPPORT. Reconciliation (R48): where it finds records, and that its findings keep the place law (R27) and the labels (R24). -/

namespace Sys2Proof.Machine

theorem of_mem_numbered {α : Type} {t : List α} {i : Nat} {x : α} (h : (i, x) ∈ numbered t) (d : α) :
    i ≠ 0 ∧ i ≤ t.length ∧ tget t i d = x := by
  simp only [numbered, upTo] at h
  obtain ⟨n, hn, e⟩ := List.mem_iff_getElem.1 h
  simp only [List.length_zip, List.length_map, List.length_range, Nat.min_self] at hn
  simp only [List.getElem_zip, List.getElem_map, List.getElem_range, Prod.mk.injEq] at e
  obtain ⟨rfl, rfl⟩ := e
  refine ⟨by omega, by omega, ?_⟩
  simp [tget, hn]

/-- A record in use that is not WITHDRAWN: one that reconciliation may find. -/
def findable (s : State) (c : Nat) : Prop := ∃ k, s.cart c = some k ∧ k.state ≠ .withdrawn

theorem not_withdrawn {s : State} {c : Nat} {k : Cart} (hk : s.cart c = some k) (h : cartInState s c .withdrawn = false) : k.state ≠ .withdrawn := by
  unfold cartInState at h
  rw [hk] at h
  simpa using h

theorem recordNamed_spec {s : State} {found : List Nat} {l c : Nat} (h : recordNamed s found l = some c) : c ∉ found ∧ findable s c := by
  unfold recordNamed at h
  split at h
  · next c' hr =>
    split at h
    · cases h
    · next hx =>
      cases h
      simp only [Bool.or_eq_true, not_or, Bool.not_eq_true, List.contains_eq_mem, decide_eq_false_iff_not] at hx
      obtain ⟨⟨c', o⟩, hf, rfl⟩ := Option.map_eq_some_iff.1 hr
      have hm := of_mem_numbered (List.mem_of_find?_eq_some hf) none
      cases o with
      | none => simpa using List.find?_some hf
      | some k => exact ⟨hx.2, k, hm.2.2, not_withdrawn hm.2.2 hx.1⟩
  · cases h

/-- No record is found in two drives, and each may be found (R48). -/
theorem foundInDrives_spec (s : State) : ((foundInDrives s).map Prod.snd).Nodup ∧ ∀ e ∈ foundInDrives s, findable s e.2 := by
  unfold foundInDrives
  have key : ∀ (l : List (Nat × Option (Nat × Face))) (acc : List (Nat × Nat)),
      ((acc.map Prod.snd).Nodup ∧ ∀ e ∈ acc, findable s e.2) →
      (((l.foldl (fun acc e => match e.2 with
        | some (l, _) =>
          (match recordNamed s (acc.map Prod.snd) l with
           | some c => acc ++ [(e.1, c)]
           | none => acc)
        | none => acc) acc).map Prod.snd).Nodup ∧ ∀ e ∈ (l.foldl (fun acc e => match e.2 with
        | some (l, _) =>
          (match recordNamed s (acc.map Prod.snd) l with
           | some c => acc ++ [(e.1, c)]
           | none => acc)
        | none => acc) acc), findable s e.2) := by
    intro l
    induction l with
    | nil => exact fun _ => id
    | cons x xs ih =>
      intro acc h
      simp only [List.foldl_cons]
      apply ih
      split
      · split
        · next c hr =>
          have hs := recordNamed_spec hr
          refine ⟨?_, fun e he => ?_⟩
          · rw [List.map_append, List.nodup_append]
            refine ⟨h.1, by simp, fun a ha b hb => ?_⟩
            simp only [List.map_cons, List.map_nil, List.mem_singleton] at hb
            exact fun e => hs.1 (by rw [← hb, ← e]; exact ha)
          · rcases List.mem_append.1 he with he | he
            · exact h.2 e he
            · rw [List.mem_singleton.1 he]; exact hs.2
        · exact h
      · exact h
  exact key _ [] ⟨by simp, by simp⟩

/-- A slot in which a record is found is its home (R48). -/
theorem slotFinding_spec {s : State} {inD seen : List Nat} {n c : Nat} (h : slotFinding s inD seen n = .record c) :
    c ∉ inD ∧ findable s c ∧ ∃ k, s.cart c = some k ∧ k.home = some n := by
  unfold slotFinding at h
  split at h
  · cases h
  · split at h
    · next c' hh =>
      split at h
      · cases h
      · next hx =>
        cases h
        simp only [Bool.or_eq_true, not_or, Bool.not_eq_true, List.contains_eq_mem, decide_eq_false_iff_not] at hx
        obtain ⟨⟨c', o⟩, hf, rfl⟩ := Option.map_eq_some_iff.1 hh
        have hm := of_mem_numbered (List.mem_of_find?_eq_some hf) none
        cases o with
        | none => simpa using List.find?_some hf
        | some k => exact ⟨hx.2, ⟨k, hm.2.2, not_withdrawn hm.2.2 hx.1⟩, k, hm.2.2, by simpa using List.find?_some hf⟩
    · cases h

/-- What drive `d` holds is the record found there (R48). -/
theorem setDrives_occ {s : State} {l : List (Nat × Nat)} (hs : s.drives.length = 4) {d c : Nat}
    (h : (tget (setDrives s l).drives d Drive.initial).occ = .record c) : (d, c) ∈ l := by
  have key : ∀ (u : List Drive) (e : Nat) (o : Occupant),
      (tget (tset u e { tget u e Drive.initial with occ := match l.find? fun x => x.1 == e with
        | some x => .record x.2
        | none => if (tget u e Drive.initial).occ = .empty then .empty else .unrecorded }) d Drive.initial).occ = .record c →
      (d, c) ∈ l ∨ (d ≠ e ∧ (tget u d Drive.initial).occ = .record c) := by
    intro u e _ h
    by_cases he : e = d
    · subst he
      refine .inl ?_
      rw [tget_of_tset] at h
      split at h
      · dsimp only at h
        split at h
        · next x hx =>
          cases h
          have := List.find?_some hx
          have hm := List.mem_of_find?_eq_some hx
          simp only [beq_iff_eq] at this
          rwa [← this]
        · split at h <;> cases h
      · next hx =>
        rw [tget_outside _ _ _ (by omega)] at h
        cases h
    · rw [tget_tset_other _ _ _ _ _ he] at h
      exact .inr ⟨fun e' => he e'.symm, h⟩
  rcases key _ 4 .empty h with h | ⟨h4, h⟩
  · exact h
  rcases key _ 3 .empty h with h | ⟨h3, h⟩
  · exact h
  rcases key _ 2 .empty h with h | ⟨h2, h⟩
  · exact h
  rcases key _ 1 .empty h with h | ⟨h1, h⟩
  · exact h
  rw [tget_outside _ _ _ (by omega)] at h
  cases h

/-- The records after reconciliation. -/
theorem reconcileUpdate_cart (s u : State) (hu : u.ret = s.ret) (inD : List Nat) (occs : List Occupant) {c : Nat} {k' : Cart}
    (h : tget (reconcileUpdate u inD occs).ret.carts c none = some k') : ∃ k, s.cart c = some k ∧ k'.label = k.label := by
  simp only [reconcileUpdate, State.retain, tget_map_numbered, hu] at h
  split at h
  · rw [Option.map_eq_some_iff] at h
    obtain ⟨k, hk, rfl⟩ := h
    refine ⟨k, hk, ?_⟩
    split
    · rfl
    · split <;> rfl
  · cases h

/-- A record found is IN_LIBRARY (R48). -/
theorem reconcileUpdate_found {s u : State} (hu : u.ret = s.ret) {inD : List Nat} {occs : List Occupant} {c : Nat} (hf : findable s c)
    (hc : c ∈ inD ∨ Occupant.record c ∈ occs) :
    ∃ k, tget (reconcileUpdate u inD occs).ret.carts c none = some k ∧ k.state = .inLibrary := by
  obtain ⟨k, hk, hw⟩ := hf
  have hr := tget_some_range hk
  refine ⟨{ k with state := .inLibrary }, ?_, rfl⟩
  simp only [reconcileUpdate, State.retain, tget_map_numbered, hu]
  rw [if_pos ⟨by omega, hr.2⟩]
  have hk : tget s.ret.carts c none = some k := hk
  rw [hk, Option.map_some]
  congr 1
  split
  · next hx => exact absurd hx hw
  · rw [if_pos]
    simp only [List.contains_eq_mem, decide_eq_true_eq, List.mem_append, List.mem_filterMap]
    rcases hc with hc | hc
    · exact .inl hc
    · exact .inr ⟨_, hc, rfl⟩

theorem tget_slots_zip (sl : List Slot) (occs : List Occupant) (hl : occs.length = sl.length) (n : Nat) :
    (tget ((sl.zip occs).map fun (e : Slot × Occupant) => { e.1 with occ := e.2 }) n ⟨.empty, true⟩).occ = tget occs n .empty := by
  cases n with
  | zero => rfl
  | succ n =>
    simp only [tget, List.getD_eq_getElem?_getD, List.getElem?_map]
    by_cases h : n < sl.length
    · rw [List.getElem?_eq_getElem (by simpa [hl] using h), List.getElem?_eq_getElem (by omega)]
      simp
    · rw [List.getElem?_eq_none (by simpa [hl] using h), List.getElem?_eq_none (by omega)]
      rfl

theorem tget_upTo_map {α : Type} (f : Nat → α) (m n : Nat) (d : α) : tget ((upTo m).map f) n d = if n ≠ 0 ∧ n ≤ m then f n else d := by
  cases n with
  | zero => rfl
  | succ n =>
    simp only [tget, List.getD_eq_getElem?_getD, upTo]
    by_cases h : n < m
    · rw [List.getElem?_eq_getElem (by simpa using h), if_pos ⟨by omega, by omega⟩]
      simp
    · rw [List.getElem?_eq_none (by simpa using h), if_neg (by omega)]
      rfl

/-- Reconciliation's findings keep the place law (R27, R48). -/
theorem reconcile_placed {s u : State} (hd : s.drives.length = 4) (hp : s.placed) (hg : ∀ c, s.picker.gripper ≠ .record c)
    (hu : u = setDrives s (foundInDrives s)) (seen : List Nat) :
    Placed (reconcileUpdate u ((foundInDrives s).map Prod.snd)
        ((upTo s.ret.slots.length).map (slotFinding s ((foundInDrives s).map Prod.snd) seen))).ret.slots
      (setDrives s (foundInDrives s)).drives s.picker.gripper s.picker.mails
      (reconcileUpdate u ((foundInDrives s).map Prod.snd)
        ((upTo s.ret.slots.length).map (slotFinding s ((foundInDrives s).map Prod.snd) seen))).ret.carts := by
  have hur : u.ret = s.ret := by rw [hu]; rfl
  obtain ⟨hnd, hfd⟩ := foundInDrives_spec s
  generalize foundInDrives s = l at *
  have hslot : ∀ n, (tget (reconcileUpdate u (l.map Prod.snd)
      ((upTo s.ret.slots.length).map (slotFinding s (l.map Prod.snd) seen))).ret.slots n ⟨.empty, true⟩).occ =
      if n ≠ 0 ∧ n ≤ s.ret.slots.length then slotFinding s (l.map Prod.snd) seen n else .empty := fun n => by
    rw [← tget_upTo_map (slotFinding s (l.map Prod.snd) seen) s.ret.slots.length n .empty]
    simp only [reconcileUpdate, State.retain, hur]
    exact tget_slots_zip _ _ (by simp [upTo]) n
  have hs : ∀ n c, (tget (reconcileUpdate u (l.map Prod.snd)
      ((upTo s.ret.slots.length).map (slotFinding s (l.map Prod.snd) seen))).ret.slots n ⟨.empty, true⟩).occ = .record c →
      slotFinding s (l.map Prod.snd) seen n = .record c ∧ n ∈ upTo s.ret.slots.length := fun n c h => by
    rw [hslot] at h
    split at h
    · next hn => exact ⟨h, by simp only [upTo, List.mem_map, List.mem_range]; exact ⟨n - 1, by omega, by omega⟩⟩
    · cases h
  have hdr : ∀ d c, (tget (setDrives s l).drives d Drive.initial).occ = .record c → (d, c) ∈ l := fun d c h => setDrives_occ hd h
  have hcross : ∀ n d c, slotFinding s (l.map Prod.snd) seen n = .record c → (d, c) ∈ l → False := fun n d c h1 h2 =>
    (slotFinding_spec h1).1 (List.mem_map.2 ⟨(d, c), h2, rfl⟩)
  refine ⟨fun c p q a b => ?_, fun c p a => ?_, hp.noMail⟩
  · cases p with
    | gripper => exact (hg c a).elim
    | mail m => exact (hp.noMail c m a).elim
    | slot n =>
      have ha := (hs n c a).1
      cases q with
      | gripper => exact (hg c b).elim
      | mail m => exact (hp.noMail c m b).elim
      | slot m =>
        have hb := (hs m c b).1
        obtain ⟨-, -, k, hk, h1⟩ := slotFinding_spec ha
        obtain ⟨-, -, k', hk', h2⟩ := slotFinding_spec hb
        rw [hk] at hk'
        cases hk'
        rw [h1] at h2
        cases h2
        rfl
      | drive d => exact (hcross n d c ha (hdr d c b)).elim
    | drive d =>
      have ha := hdr d c a
      cases q with
      | gripper => exact (hg c b).elim
      | mail m => exact (hp.noMail c m b).elim
      | slot m => exact (hcross m d c (hs m c b).1 ha).elim
      | drive e =>
        have := List.inj_on_of_nodup_map hnd ha (hdr e c b) rfl
        cases this
        rfl
  · cases p with
    | gripper => exact (hg c a).elim
    | mail m => exact (hp.noMail c m a).elim
    | slot n =>
      obtain ⟨ha, hn⟩ := hs n c a
      exact reconcileUpdate_found hur (slotFinding_spec ha).2.1 (.inr (List.mem_map.2 ⟨n, hn, ha⟩))
    | drive d =>
      have ha := hdr d c a
      exact reconcileUpdate_found hur (hfd _ ha) (.inl (List.mem_map.2 ⟨(d, c), ha, rfl⟩))

/-- And the labels as they were (R24, R25). -/
theorem reconcile_labels {s u : State} (h : LabelsKept s) (l : List (Nat × Nat)) (hu : u = setDrives s l) (inD : List Nat)
    (occs : List Occupant) : LabelLaw (reconcileUpdate u inD occs).ret.carts s.ret.labelCounter (setDrives s l).drives := by
  have hur : u.ret = s.ret := by rw [hu]; rfl
  have hq : ∀ (v : State) (d : Nat) (o : Drive → Occupant), LabelLaw s.ret.carts s.ret.labelCounter v.drives →
      LabelLaw s.ret.carts s.ret.labelCounter (v.modDrive d fun x => { x with occ := o x }).drives := fun v d o h =>
    h.drive d _ (.inr rfl)
  have hd : LabelLaw s.ret.carts s.ret.labelCounter (setDrives s l).drives := by
    unfold setDrives
    generalize drives4 = ds
    have key : ∀ v : State, LabelLaw s.ret.carts s.ret.labelCounter v.drives → LabelLaw s.ret.carts s.ret.labelCounter
        (ds.foldl (fun s d => s.modDrive d fun x =>
          { x with occ := match l.find? fun e => e.1 == d with
              | some e => .record e.2
              | none => if x.occ = .empty then .empty else .unrecorded }) v).drives := by
      induction ds with
      | nil => exact fun _ => id
      | cons d ds ih => exact fun v hv => ih _ (hq v d _ hv)
    exact key s h
  refine ⟨fun c k hk => ?_, fun c d k k' h1 h2 e => ?_, fun d n hn => ⟨(hd.claimed d n hn).1, fun c k hk => ?_⟩, hd.claimedOnce⟩
  · obtain ⟨x, hx, e⟩ := reconcileUpdate_cart s u hur inD occs hk
    rw [e]
    exact h.below c x hx
  · obtain ⟨x, hx, e1⟩ := reconcileUpdate_cart s u hur inD occs h1
    obtain ⟨y, hy, e2⟩ := reconcileUpdate_cart s u hur inD occs h2
    exact h.once c d x y hx hy (by rw [← e1, ← e2, e])
  · obtain ⟨x, hx, e⟩ := reconcileUpdate_cart s u hur inD occs hk
    rw [e]
    exact (hd.claimed d n hn).2 c x hx

end Sys2Proof.Machine
end

