-- ==== Sys2Proof/Laws/PickerUnitCalm.lean ====
section
/-! SUPPORT. Each operation of Machine/PickerUnit.lean is calm. -/

set_option linter.unusedTactic false
set_option linter.unreachableTactic false
set_option linter.unusedSimpArgs false

namespace Sys2Proof.Machine

@[simp] theorem numbered_length {α : Type} (l : List α) : (numbered l).length = l.length := by
  simp [numbered, upTo]

theorem wakeFromRest_calm {kd : Kind} {s0 s : State} (h : Calm kd s0 s) : Calm kd s0 (wakeFromRest s) := by
  unfold wakeFromRest
  split
  · exact calm_set h _ _ _ _ _ _ _ _ _ _ _ _ _ _ _ _ _ _ _ _ _ _ _ rfl (Kept.mode _ nofun) rfl rfl (le_max_left _ _) le_rfl (FilingsOf.refl _)
      (le_max_left _ _) (OrdersOf.refl _) id (fun r => r.sub nofun (List.Sublist.refl _)) (fun _ => id) fun _ => id
  · exact h

theorem modMail_calm {kd : Kind} {s0 s : State} (hc : Calm kd s0 s) (m : Nat) (f : Mail → Mail)
    (hf : ∀ c, (f (s.mail m)).occ = .record c → (s.mail m).occ = .record c) : Calm kd s0 (modMail s m f) := by
  have h := setMail_calm hc m (f (s.mail m)) hf
  unfold modMail
  dsimp only
  split
  · exact h
  · exact notify_calm h _ _ _

theorem dropArm_calm {kd : Kind} {s0 s : State} (hc : Calm kd s0 s) : Calm kd s0 (dropArm s) := by
  unfold dropArm
  try dsimp only []
  repeat' (first
    | with_reducible assumption
    | (first | exact fun _ => Occupant.noConfusion | exact fun h => h | exact fun _ h => h | exact Quiet.same rfl rfl | exact Quiet.other rfl rfl | exact PickerQuiet.same rfl rfl)
    | with_reducible apply modPicker_calm
    | (with_reducible apply calm_set; focus (first | with_reducible assumption | split | with_reducible apply modPicker_calm))
    | (with_reducible apply calm_foldl; intro s x h)
    | (intro _ _ _; try dsimp only)
    | with_reducible rfl
    | exact Kept.refl _ _
    | exact Kept.same rfl rfl (fun _ => rfl) rfl rfl
    | exact le_max_left _ _
    | exact le_rfl
    | exact OrdersOf.refl _
    | exact OrdersOf.filter _ _
    | exact FilingsOf.refl _
    | exact FilingsOf.filter _ _
    | (intro x; exact ⟨rfl, id⟩)
    | (intro x; simp [Filing.pendingConsent]; done)
    | exact (List.length_filter_le _ _).trans (le_max_left _ _)
    | exact List.length_filter_le _ _
    | (refine OrdersOf.map _ _ fun o => ?_)
    | split
    | (intro o; rfl)
    | (show Order.key _ = Order.key _; rfl)
    | (simp [Retained.kept]; done)
    | (simp_all [Config.transferCapacity, Config.workCapacity]; omega))

theorem dropXfer_calm {kd : Kind} {s0 s : State} (hc : Calm kd s0 s) (id : Nat) : Calm kd s0 (dropXfer s id) := by
  unfold dropXfer
  try dsimp only []
  repeat' (first
    | with_reducible assumption
    | (first | exact fun _ => Occupant.noConfusion | exact fun h => h | exact fun _ h => h | exact Quiet.same rfl rfl | exact Quiet.other rfl rfl | exact PickerQuiet.same rfl rfl)
    | with_reducible apply modPicker_calm
    | (with_reducible apply calm_set; focus (first | with_reducible assumption | split | with_reducible apply modPicker_calm))
    | (with_reducible apply calm_foldl; intro s x h)
    | (intro _ _ _; try dsimp only)
    | with_reducible rfl
    | exact Kept.refl _ _
    | exact Kept.same rfl rfl (fun _ => rfl) rfl rfl
    | exact le_max_left _ _
    | exact le_rfl
    | exact OrdersOf.refl _
    | exact OrdersOf.filter _ _
    | exact FilingsOf.refl _
    | exact FilingsOf.filter _ _
    | (intro x; exact ⟨rfl, id⟩)
    | (intro x; simp [Filing.pendingConsent]; done)
    | exact (List.length_filter_le _ _).trans (le_max_left _ _)
    | exact List.length_filter_le _ _
    | (refine OrdersOf.map _ _ fun o => ?_)
    | split
    | (intro o; rfl)
    | (show Order.key _ = Order.key _; rfl)
    | (simp [Retained.kept]; done)
    | (simp_all [Config.transferCapacity, Config.workCapacity]; omega))

theorem enterLoadedIn_calm {kd : Kind} {s0 s : State} (hc : Calm kd s0 s) (m : Nat) : Calm kd s0 (enterLoadedIn s m) := by
  unfold enterLoadedIn
  try dsimp only []
  repeat' (first
    | with_reducible assumption
    | (first | exact fun _ => Occupant.noConfusion | exact fun h => h | exact fun _ h => h | exact Quiet.same rfl rfl | exact Quiet.other rfl rfl | exact PickerQuiet.same rfl rfl)
    | with_reducible apply modMail_calm
    | with_reducible apply modPicker_calm
    | with_reducible apply wakeFromRest_calm
    | (with_reducible apply calm_set; focus (first | with_reducible assumption | split | with_reducible apply modMail_calm | with_reducible apply modPicker_calm | with_reducible apply wakeFromRest_calm))
    | (with_reducible apply calm_foldl; intro s x h)
    | (intro _ _ _; try dsimp only)
    | with_reducible rfl
    | exact Kept.refl _ _
    | exact Kept.same rfl rfl (fun _ => rfl) rfl rfl
    | exact le_max_left _ _
    | exact le_rfl
    | exact OrdersOf.refl _
    | exact OrdersOf.filter _ _
    | exact FilingsOf.refl _
    | exact FilingsOf.filter _ _
    | (intro x; exact ⟨rfl, id⟩)
    | (intro x; simp [Filing.pendingConsent]; done)
    | exact (List.length_filter_le _ _).trans (le_max_left _ _)
    | exact List.length_filter_le _ _
    | (refine OrdersOf.map _ _ fun o => ?_)
    | split
    | (intro o; rfl)
    | (show Order.key _ = Order.key _; rfl)
    | (simp [Retained.kept]; done)
    | (simp_all [Config.transferCapacity, Config.workCapacity]; omega))

theorem endImportAtDoor_calm {kd : Kind} {s0 s : State} (hc : Calm kd s0 s) (m : Nat) : Calm kd s0 (endImportAtDoor s m) := by
  unfold endImportAtDoor
  try dsimp only []
  repeat' (first
    | with_reducible assumption
    | (first | exact fun _ => Occupant.noConfusion | exact fun h => h | exact fun _ h => h | exact Quiet.same rfl rfl | exact Quiet.other rfl rfl | exact PickerQuiet.same rfl rfl)
    | with_reducible apply dropArm_calm
    | with_reducible apply dropXfer_calm
    | with_reducible apply endItemOpt_calm
    | with_reducible apply importRejected_calm
    | with_reducible apply modPicker_calm
    | (with_reducible apply calm_set; focus (first | with_reducible assumption | split | with_reducible apply dropArm_calm | with_reducible apply dropXfer_calm | with_reducible apply endItemOpt_calm | with_reducible apply importRejected_calm | with_reducible apply modPicker_calm))
    | (with_reducible apply calm_foldl; intro s x h)
    | (intro _ _ _; try dsimp only)
    | with_reducible rfl
    | exact Kept.refl _ _
    | exact Kept.same rfl rfl (fun _ => rfl) rfl rfl
    | exact le_max_left _ _
    | exact le_rfl
    | exact OrdersOf.refl _
    | exact OrdersOf.filter _ _
    | exact FilingsOf.refl _
    | exact FilingsOf.filter _ _
    | (intro x; exact ⟨rfl, id⟩)
    | (intro x; simp [Filing.pendingConsent]; done)
    | exact (List.length_filter_le _ _).trans (le_max_left _ _)
    | exact List.length_filter_le _ _
    | (refine OrdersOf.map _ _ fun o => ?_)
    | split
    | (intro o; rfl)
    | (show Order.key _ = Order.key _; rfl)
    | (simp [Retained.kept]; done)
    | (simp_all [Config.transferCapacity, Config.workCapacity]; omega))

theorem doorFault_calm {kd : Kind} {s0 s : State} (hc : Calm kd s0 s) (m : Nat) : Calm kd s0 (doorFault s m) := by
  unfold doorFault
  try dsimp only []
  repeat' (first
    | with_reducible assumption
    | (first | exact fun _ => Occupant.noConfusion | exact fun h => h | exact fun _ h => h | exact Quiet.same rfl rfl | exact Quiet.other rfl rfl | exact PickerQuiet.same rfl rfl)
    | with_reducible apply dropArm_calm
    | with_reducible apply endImportAtDoor_calm
    | with_reducible apply modMail_calm
    | (with_reducible apply calm_set; focus (first | with_reducible assumption | split | with_reducible apply dropArm_calm | with_reducible apply endImportAtDoor_calm | with_reducible apply modMail_calm))
    | (with_reducible apply calm_foldl; intro s x h)
    | (intro _ _ _; try dsimp only)
    | with_reducible rfl
    | exact Kept.refl _ _
    | exact Kept.same rfl rfl (fun _ => rfl) rfl rfl
    | exact le_max_left _ _
    | exact le_rfl
    | exact OrdersOf.refl _
    | exact OrdersOf.filter _ _
    | exact FilingsOf.refl _
    | exact FilingsOf.filter _ _
    | (intro x; exact ⟨rfl, id⟩)
    | (intro x; simp [Filing.pendingConsent]; done)
    | exact (List.length_filter_le _ _).trans (le_max_left _ _)
    | exact List.length_filter_le _ _
    | (refine OrdersOf.map _ _ fun o => ?_)
    | split
    | (intro o; rfl)
    | (show Order.key _ = Order.key _; rfl)
    | (simp [Retained.kept]; done)
    | (simp_all [Config.transferCapacity, Config.workCapacity]; omega))

theorem doorOpened_calm {kd : Kind} {s0 s : State} (hc : Calm kd s0 s) (m : Nat) : Calm kd s0 (doorOpened s m) := by
  unfold doorOpened
  exact modMail_calm (modBay_calm hc fun b => { b with queue := b.queue.filter fun e =>
    !(e.module == doorAddr m && (e.cmd == .lock || e.cmd == .unlock)) }) _ _ fun _ h => h

theorem doorReport_calm {kd : Kind} {s0 s : State} (hc : Calm kd s0 s) (m : Nat) (st : DoorStatus) : Calm kd s0 (doorReport s m st) := by
  unfold doorReport
  try dsimp only []
  repeat' (first
    | with_reducible assumption
    | (first | exact fun _ => Occupant.noConfusion | exact fun h => h | exact fun _ h => h | exact Quiet.same rfl rfl | exact Quiet.other rfl rfl | exact PickerQuiet.same rfl rfl)
    | with_reducible apply doorFault_calm
    | with_reducible apply dropArm_calm
    | with_reducible apply enterLoadedIn_calm
    | with_reducible apply doorOpened_calm
    | with_reducible apply modMail_calm
    | (with_reducible apply calm_set; focus (first | with_reducible assumption | split | with_reducible apply doorFault_calm | with_reducible apply dropArm_calm | with_reducible apply enterLoadedIn_calm | with_reducible apply doorOpened_calm | with_reducible apply modMail_calm))
    | (with_reducible apply calm_foldl; intro s x h)
    | (intro _ _ _; try dsimp only)
    | with_reducible rfl
    | exact Kept.refl _ _
    | exact Kept.same rfl rfl (fun _ => rfl) rfl rfl
    | exact le_max_left _ _
    | exact le_rfl
    | exact OrdersOf.refl _
    | exact OrdersOf.filter _ _
    | exact FilingsOf.refl _
    | exact FilingsOf.filter _ _
    | (intro x; exact ⟨rfl, id⟩)
    | (intro x; simp [Filing.pendingConsent]; done)
    | exact (List.length_filter_le _ _).trans (le_max_left _ _)
    | exact List.length_filter_le _ _
    | (refine OrdersOf.map _ _ fun o => ?_)
    | split
    | (intro o; rfl)
    | (show Order.key _ = Order.key _; rfl)
    | (simp [Retained.kept]; done)
    | (simp_all [Config.transferCapacity, Config.workCapacity]; omega))

theorem doorSet_calm {kd : Kind} {s0 s : State} (hc : Calm kd s0 s) (m : Nat) (st : DoorStatus) : Calm kd s0 (doorSet s m st) := by
  unfold doorSet
  try dsimp only []
  repeat' (first
    | with_reducible assumption
    | (first | exact fun _ => Occupant.noConfusion | exact fun h => h | exact fun _ h => h | exact Quiet.same rfl rfl | exact Quiet.other rfl rfl | exact PickerQuiet.same rfl rfl)
    | with_reducible apply endImportAtDoor_calm
    | with_reducible apply enterLoadedIn_calm
    | with_reducible apply doorOpened_calm
    | with_reducible apply modMail_calm
    | (with_reducible apply calm_set; focus (first | with_reducible assumption | split | with_reducible apply endImportAtDoor_calm | with_reducible apply enterLoadedIn_calm | with_reducible apply doorOpened_calm | with_reducible apply modMail_calm))
    | (with_reducible apply calm_foldl; intro s x h)
    | (intro _ _ _; try dsimp only)
    | with_reducible rfl
    | exact Kept.refl _ _
    | exact Kept.same rfl rfl (fun _ => rfl) rfl rfl
    | exact le_max_left _ _
    | exact le_rfl
    | exact OrdersOf.refl _
    | exact OrdersOf.filter _ _
    | exact FilingsOf.refl _
    | exact FilingsOf.filter _ _
    | (intro x; exact ⟨rfl, id⟩)
    | (intro x; simp [Filing.pendingConsent]; done)
    | exact (List.length_filter_le _ _).trans (le_max_left _ _)
    | exact List.length_filter_le _ _
    | (refine OrdersOf.map _ _ fun o => ?_)
    | split
    | (intro o; rfl)
    | (show Order.key _ = Order.key _; rfl)
    | (simp [Retained.kept]; done)
    | (simp_all [Config.transferCapacity, Config.workCapacity]; omega))

theorem grantRule_calm {kd : Kind} {s0 s t : State} (hc : Calm kd s0 s) (e : (grantRule s) = some t) : Calm kd s0 t := by
  unfold grantRule at e
  try dsimp only [] at e
  (repeat' split at e) <;> simp only [Option.map_eq_some_iff, Option.bind_eq_some_iff, Option.some.injEq, reduceCtorEq] at e
  all_goals (first | (subst e) | (obtain ⟨_, _, rfl⟩ := e) | (obtain ⟨_, _, _, _, rfl⟩ := e) | skip)
  all_goals try dsimp only
  all_goals
    repeat' (first
      | with_reducible assumption
      | (first | exact fun _ => Occupant.noConfusion | exact fun h => h | exact fun _ h => h | exact Quiet.same rfl rfl | exact Quiet.other rfl rfl | exact PickerQuiet.same rfl rfl)
      | with_reducible apply modPicker_calm
      | (with_reducible apply calm_set; focus (first | with_reducible assumption | split | with_reducible apply modPicker_calm))
      | (with_reducible apply calm_foldl; intro s x h)
      | (intro _ _ _; try dsimp only)
      | with_reducible rfl
      | exact Kept.refl _ _
      | exact Kept.same rfl rfl (fun _ => rfl) rfl rfl
      | exact le_max_left _ _
      | exact le_rfl
      | exact OrdersOf.refl _
      | exact OrdersOf.filter _ _
      | exact FilingsOf.refl _
      | exact FilingsOf.filter _ _
      | (intro x; exact ⟨rfl, id⟩)
      | (intro x; simp [Filing.pendingConsent]; done)
      | exact (List.length_filter_le _ _).trans (le_max_left _ _)
      | exact List.length_filter_le _ _
      | (refine OrdersOf.map _ _ fun o => ?_)
      | split
      | (intro o; rfl)
      | (show Order.key _ = Order.key _; rfl)
      | (simp [Retained.kept]; done)
      | (simp_all [Config.transferCapacity, Config.workCapacity]; omega))

theorem sendRule_calm {kd : Kind} {s0 s t : State} (hc : Calm kd s0 s) (e : (sendRule s) = some t) : Calm kd s0 t := by
  unfold sendRule at e
  try dsimp only [] at e
  (repeat' split at e) <;> simp only [Option.map_eq_some_iff, Option.bind_eq_some_iff, Option.some.injEq, reduceCtorEq] at e
  all_goals (first | (subst e) | (obtain ⟨_, _, rfl⟩ := e) | (obtain ⟨_, _, _, _, rfl⟩ := e) | skip)
  all_goals try dsimp only
  all_goals
    repeat' (first
      | with_reducible assumption
      | (first | exact fun _ => Occupant.noConfusion | exact fun h => h | exact fun _ h => h | exact Quiet.same rfl rfl | exact Quiet.other rfl rfl | exact PickerQuiet.same rfl rfl)
      | with_reducible apply issue_calm
      | with_reducible apply modPicker_calm
      | (with_reducible apply calm_set; focus (first | with_reducible assumption | split | with_reducible apply issue_calm | with_reducible apply modPicker_calm))
      | (with_reducible apply calm_foldl; intro s x h)
      | (intro _ _ _; try dsimp only)
      | with_reducible rfl
      | exact Kept.refl _ _
      | exact Kept.same rfl rfl (fun _ => rfl) rfl rfl
      | exact le_max_left _ _
      | exact le_rfl
      | exact OrdersOf.refl _
      | exact OrdersOf.filter _ _
      | exact FilingsOf.refl _
      | exact FilingsOf.filter _ _
      | (intro x; exact ⟨rfl, id⟩)
      | (intro x; simp [Filing.pendingConsent]; done)
      | exact (List.length_filter_le _ _).trans (le_max_left _ _)
      | exact List.length_filter_le _ _
      | (refine OrdersOf.map _ _ fun o => ?_)
      | split
      | (intro o; rfl)
      | (show Order.key _ = Order.key _; rfl)
      | (simp [Retained.kept]; done)
      | (simp_all [Config.transferCapacity, Config.workCapacity]; omega))

theorem doorRule_calm {kd : Kind} {s0 s t : State} (hc : Calm kd s0 s) (e : (doorRule s) = some t) : Calm kd s0 t := by
  unfold doorRule at e
  try dsimp only [] at e
  (repeat' split at e) <;> simp only [Option.map_eq_some_iff, Option.bind_eq_some_iff, Option.some.injEq, reduceCtorEq] at e
  all_goals (first | (subst e) | (obtain ⟨_, _, rfl⟩ := e) | (obtain ⟨_, _, _, _, rfl⟩ := e) | skip)
  all_goals try dsimp only
  all_goals
    repeat' (first
      | with_reducible assumption
      | (first | exact fun _ => Occupant.noConfusion | exact fun h => h | exact fun _ h => h | exact Quiet.same rfl rfl | exact Quiet.other rfl rfl | exact PickerQuiet.same rfl rfl)
      | with_reducible apply issue_calm
      | with_reducible apply setMail_calm
      | (with_reducible apply calm_set; focus (first | with_reducible assumption | split | with_reducible apply issue_calm | with_reducible apply setMail_calm))
      | (with_reducible apply calm_foldl; intro s x h)
      | (intro _ _ _; try dsimp only)
      | with_reducible rfl
      | exact Kept.refl _ _
      | exact Kept.same rfl rfl (fun _ => rfl) rfl rfl
      | exact le_max_left _ _
      | exact le_rfl
      | exact OrdersOf.refl _
      | exact OrdersOf.filter _ _
      | exact FilingsOf.refl _
      | exact FilingsOf.filter _ _
      | (intro x; exact ⟨rfl, id⟩)
      | (intro x; simp [Filing.pendingConsent]; done)
      | exact (List.length_filter_le _ _).trans (le_max_left _ _)
      | exact List.length_filter_le _ _
      | (refine OrdersOf.map _ _ fun o => ?_)
      | split
      | (intro o; rfl)
      | (show Order.key _ = Order.key _; rfl)
      | (simp [Retained.kept]; done)
      | (simp_all [Config.transferCapacity, Config.workCapacity]; omega))

theorem admitRule_calm {kd : Kind} {s0 s t : State} (hc : Calm kd s0 s) (e : (admitRule s) = some t) : Calm kd s0 t := by
  unfold admitRule at e
  try dsimp only [] at e
  (repeat' split at e) <;> simp only [Option.map_eq_some_iff, Option.bind_eq_some_iff, Option.some.injEq, reduceCtorEq] at e
  all_goals (first | (subst e) | (obtain ⟨_, _, rfl⟩ := e) | (obtain ⟨_, _, _, _, rfl⟩ := e) | skip)
  all_goals try dsimp only
  all_goals
    repeat' (first
      | with_reducible assumption
      | (first | exact fun _ => Occupant.noConfusion | exact fun h => h | exact fun _ h => h | exact Quiet.same rfl rfl | exact Quiet.other rfl rfl | exact PickerQuiet.same rfl rfl)
      | (simp only [List.length_append, List.length_singleton]; omega)
      | with_reducible apply modPicker_calm
      | (with_reducible apply calm_set; focus (first | with_reducible assumption | split | with_reducible apply modPicker_calm))
      | (with_reducible apply calm_foldl; intro s x h)
      | (intro _ _ _; try dsimp only)
      | with_reducible rfl
      | exact Kept.refl _ _
      | exact Kept.same rfl rfl (fun _ => rfl) rfl rfl
      | exact le_max_left _ _
      | exact le_rfl
      | exact OrdersOf.refl _
      | exact OrdersOf.filter _ _
      | exact FilingsOf.refl _
      | exact FilingsOf.filter _ _
      | (intro x; exact ⟨rfl, id⟩)
      | (intro x; simp [Filing.pendingConsent]; done)
      | exact (List.length_filter_le _ _).trans (le_max_left _ _)
      | exact List.length_filter_le _ _
      | (refine OrdersOf.map _ _ fun o => ?_)
      | split
      | (intro o; rfl)
      | (show Order.key _ = Order.key _; rfl)
      | (simp [Retained.kept]; done)
      | (simp_all [Config.transferCapacity, Config.workCapacity]; omega))

theorem parkPickerRule_calm {kd : Kind} {s0 s t : State} (hc : Calm kd s0 s) (e : (parkPickerRule s) = some t) : Calm kd s0 t := by
  unfold parkPickerRule at e
  try dsimp only [] at e
  (repeat' split at e) <;> simp only [Option.map_eq_some_iff, Option.bind_eq_some_iff, Option.some.injEq, reduceCtorEq] at e
  all_goals (first | (subst e) | (obtain ⟨_, _, rfl⟩ := e) | (obtain ⟨_, _, _, _, rfl⟩ := e) | skip)
  all_goals try dsimp only
  all_goals
    repeat' (first
      | with_reducible assumption
      | (first | exact fun _ => Occupant.noConfusion | exact fun h => h | exact fun _ h => h | exact Quiet.same rfl rfl | exact Quiet.other rfl rfl | exact PickerQuiet.same rfl rfl)
      | with_reducible apply issue_calm
      | with_reducible apply modPicker_calm
      | (with_reducible apply calm_set; focus (first | with_reducible assumption | split | with_reducible apply issue_calm | with_reducible apply modPicker_calm))
      | (with_reducible apply calm_foldl; intro s x h)
      | (intro _ _ _; try dsimp only)
      | with_reducible rfl
      | exact Kept.refl _ _
      | exact Kept.same rfl rfl (fun _ => rfl) rfl rfl
      | exact le_max_left _ _
      | exact le_rfl
      | exact OrdersOf.refl _
      | exact OrdersOf.filter _ _
      | exact FilingsOf.refl _
      | exact FilingsOf.filter _ _
      | (intro x; exact ⟨rfl, id⟩)
      | (intro x; simp [Filing.pendingConsent]; done)
      | exact (List.length_filter_le _ _).trans (le_max_left _ _)
      | exact List.length_filter_le _ _
      | (refine OrdersOf.map _ _ fun o => ?_)
      | split
      | (intro o; rfl)
      | (show Order.key _ = Order.key _; rfl)
      | (simp [Retained.kept]; done)
      | (simp_all [Config.transferCapacity, Config.workCapacity]; omega))

theorem dropFrom_calm {kd : Kind} {s0 s : State} (hc : Calm kd s0 s) (p : Place) : Calm kd s0 (dropFrom s p) :=
  modPicker_calm hc (fun q => { q with
    queue := q.queue.filter fun t => !(t.src == p && t.kind != .exportPut)
    deferred := q.deferred.filter fun t => !(t.src == p && t.kind != .exportPut) })
    rfl ((List.length_filter_le _ _).trans (le_max_left _ _)) (PickerQuiet.same rfl rfl)

theorem vacate_calm {kd : Kind} {s0 s : State} (hc : Calm kd s0 s) (p : Place) : Calm kd s0 (vacate s p) := by
  have h := dropFrom_calm hc p
  unfold vacate
  dsimp only
  split
  · exact setSlot_calm h _ _ fun _ _ _ => Occupant.noConfusion
  · exact cartridgeOut_calm h _
  · exact modPicker_calm h _ rfl (le_max_left _ _) (PickerQuiet.grips (fun _ => Occupant.noConfusion) rfl)
  · exact modMail_calm h _ _ fun _ => Occupant.noConfusion

/-! ### A place is vacated and another occupied (R27) -/

theorem placeOcc_modMail (s : State) (m : Nat) (f : Mail → Mail) (p : Place) : placeOcc (modMail s m f) p = placeOcc (s.setMail m (f (s.mail m))) p := by
  unfold modMail
  dsimp only
  split
  · rfl
  · unfold notify
    split <;> cases p <;> rfl

theorem ret_modMail (s : State) (m : Nat) (f : Mail → Mail) : (modMail s m f).ret = s.ret := by
  unfold modMail
  dsimp only
  split
  · rfl
  · unfold notify
    split <;> rfl

/-- An entry set in a table: as set, or the default where the table has no such entry. -/
theorem tget_tset_new {α : Type} (t : List α) (i : Nat) (x d : α) : tget (tset t i x) i d = x ∨ tget (tset t i x) i d = d := by
  rw [tget_of_tset]
  split
  · exact .inl rfl
  · next h => exact .inr (tget_outside _ _ _ (by omega))

/-- After a place is vacated, a record is where it was, and not there. -/
theorem placeOcc_vacate (s : State) (src p : Place) (c : Nat) (h : placeOcc (vacate s src) p = .record c) :
    p ≠ src ∧ placeOcc s p = .record c := by
  cases src with
  | slot n =>
    cases p with
    | slot m =>
      by_cases hm : n = m
      · subst hm
        have h : (tget (tset s.ret.slots n { s.slot n with occ := .empty }) n ⟨.empty, true⟩).occ = .record c := h
        rcases tget_tset_new s.ret.slots n { s.slot n with occ := .empty } ⟨.empty, true⟩ with e | e <;> rw [e] at h <;> cases h
      · have h : (tget (tset s.ret.slots n { s.slot n with occ := .empty }) m ⟨.empty, true⟩).occ = .record c := h
        rw [tget_tset_other _ _ _ _ _ hm] at h
        exact ⟨fun e => hm (by cases e; rfl), h⟩
    | drive d => exact ⟨Place.noConfusion, h⟩
    | gripper => exact ⟨Place.noConfusion, h⟩
    | mail m => exact ⟨Place.noConfusion, h⟩
  | drive n =>
    cases p with
    | drive m =>
      have hx : ∀ x : Drive, x.occ = .empty → (tget (tset s.drives n x) m Drive.initial).occ = .record c →
          Place.drive m ≠ .drive n ∧ placeOcc s (.drive m) = .record c := by
        intro x hx h
        by_cases hm : n = m
        · subst hm
          rcases tget_tset_new s.drives n x Drive.initial with e | e <;> rw [e] at h
          · rw [hx] at h; cases h
          · cases h
        · rw [tget_tset_other _ _ _ _ _ hm] at h
          exact ⟨fun e => hm (by cases e; rfl), h⟩
      refine hx _ ?_ h
      dsimp only
      split <;> rfl
    | slot d => exact ⟨Place.noConfusion, h⟩
    | gripper => exact ⟨Place.noConfusion, h⟩
    | mail m => exact ⟨Place.noConfusion, h⟩
  | gripper =>
    cases p with
    | gripper => cases h
    | drive d => exact ⟨Place.noConfusion, h⟩
    | slot d => exact ⟨Place.noConfusion, h⟩
    | mail m => exact ⟨Place.noConfusion, h⟩
  | mail n =>
    have h : placeOcc (modMail (dropFrom s (.mail n)) n fun x => { x with state := .empty, occ := .empty }) p = .record c := h
    rw [placeOcc_modMail] at h
    cases p with
    | mail m =>
      by_cases hm : n = m
      · subst hm
        have h : (tget (tset s.picker.mails n { s.mail n with state := .empty, occ := .empty }) n Mail.initial).occ = .record c := h
        rcases tget_tset_new s.picker.mails n { s.mail n with state := .empty, occ := .empty } Mail.initial with e | e <;>
          rw [e] at h <;> cases h
      · have h : (tget (tset s.picker.mails n { s.mail n with state := .empty, occ := .empty }) m Mail.initial).occ = .record c := h
        rw [tget_tset_other _ _ _ _ _ hm] at h
        exact ⟨fun e => hm (by cases e; rfl), h⟩
    | drive d => exact ⟨Place.noConfusion, h⟩
    | slot d => exact ⟨Place.noConfusion, h⟩
    | gripper => exact ⟨Place.noConfusion, h⟩

theorem carts_vacate (s : State) (p : Place) : (vacate s p).ret.carts = s.ret.carts := by
  cases p with
  | mail m =>
    show (modMail (dropFrom s (.mail m)) m fun x => { x with state := .empty, occ := .empty }).ret.carts = s.ret.carts
    rw [ret_modMail]
    rfl
  | slot n => rfl
  | drive n => rfl
  | gripper => rfl

/-- A record with no place is at none (R26). -/
theorem placeOf_none {s : State} (hd : s.drives.length = 4) (hp : s.placed) {c : Nat} (h : placeOf s c = none) (p : Place) :
    placeOcc s p ≠ .record c := by
  unfold placeOf at h
  split at h
  · cases h
  · next hdr =>
    split at h
    · cases h
    · next hg =>
      split at h
      · cases h
      · simp only [Option.map_eq_none_iff] at h
        intro e
        cases p with
        | gripper => exact hg e
        | mail m => exact hp.noMail c m e
        | drive d =>
          have hin : d ∈ drives4 := by
            by_contra hn
            have : tget s.drives d Drive.initial = Drive.initial := tget_outside _ _ _ (by
              simp only [drives4, List.mem_cons, List.not_mem_nil, or_false] at hn
              omega)
            have e : (tget s.drives d Drive.initial).occ = .record c := e
            rw [this] at e
            cases e
          have he : ((s.drive d).occ == Occupant.record c) = true := by rw [show (s.drive d).occ = .record c from e]; exact beq_self_eq_true _
          exact List.find?_eq_none.1 hdr d hin he
        | slot n =>
          have e : (tget s.ret.slots n ⟨.empty, true⟩).occ = .record c := e
          have hm := mem_numbered s.ret.slots n _ ⟨.empty, true⟩ rfl fun hx => by rw [hx] at e; cases e
          have hx := List.find?_eq_none.1 (Option.map_eq_none_iff.1 h) _ hm
          exact hx (by rw [e]; exact beq_self_eq_true _)

/-- What a transfer carries is at no place once its source is vacated (R27). -/
theorem carried_vacated {s : State} (hd : s.drives.length = 4) (hp : s.placed) (t : Transfer) (src : Place) (c : Nat)
    (h : carried s t src = .record c) : (∀ p, placeOcc (vacate s src) p ≠ .record c) ∧ cartInState (vacate s src) c .inLibrary = true := by
  have hc : ∀ d, cartInState (vacate s src) d .inLibrary = cartInState s d .inLibrary := fun d => by
    unfold cartInState State.cart
    rw [carts_vacate]
  rw [hc]
  have hone : placeOcc s src = .record c → (∀ p, placeOcc (vacate s src) p ≠ .record c) ∧ cartInState s c .inLibrary = true := fun e => by
    refine ⟨fun p hq => ?_, ((placeLaw_iff s).2 hp).inLibrary c src e⟩
    obtain ⟨h1, h2⟩ := placeOcc_vacate s src p c hq
    exact h1 (((placeLaw_iff s).2 hp).one c p src h2 e)
  unfold carried at h
  split at h
  · split at h
    · next hx =>
      cases h
      exact ⟨fun p hq => placeOf_none hd hp hx.1 p (placeOcc_vacate s src p c hq).2, hx.2⟩
    · cases h
  · cases h
  · exact hone h

/-- A record at no place is set in the gripper. -/
theorem setGripper_calm {kd : Kind} {s0 s : State} (h : Calm kd s0 s) (f : Picker → Picker) {o : Occupant}
    (hm : (f s.picker).mails = s.picker.mails) (hq : (f s.picker).queue = s.picker.queue) (hg : (f s.picker).gripper = o)
    (ho : s0.drives.length = 4 → s0.placed → ∀ c, o = .record c →
      (∀ p, placeOcc s p ≠ .record c) ∧ cartInState s c .inLibrary = true) : Calm kd s0 (s.modPicker f) :=
  calm_set0 h _ _ _ _ _ _ _ _ _ _ _ _ _ _ _ _ _ _ _ _ _ _ _ rfl (Kept.refl _ _) rfl (by rw [hm]) (le_max_left _ _) le_rfl
    (FilingsOf.refl _) (by rw [hq]; exact le_max_left _ _) (OrdersOf.refl _) id id
    (fun a b => by rw [hm, hg]; exact (h.placed a b).putGripper o (ho a b)) fun _ => id

theorem occupy_calm {kd : Kind} {s0 s : State} (hc : Calm kd s0 s) (p : Place) (occ : Occupant) (face : Face) (mail : Option Nat)
    (ho : s0.drives.length = 4 → s0.placed → ∀ c, occ = .record c →
      (∀ p, placeOcc s p ≠ .record c) ∧ cartInState s c .inLibrary = true) : Calm kd s0 (occupy s p occ face mail) := by
  unfold occupy
  split
  · exact setSlot_calm hc _ _ fun a b c e => .inr (ho a b c e)
  · exact cartridgeIn_calm hc _ _ _ _ fun a b c e => .inr (ho a b c e)
  · exact setGripper_calm hc _ rfl rfl rfl ho
  · exact modMail_calm hc _ _ fun _ => Occupant.noConfusion

theorem dropCartXfers_calm {kd : Kind} {s0 s : State} (hc : Calm kd s0 s) (c : Nat) : Calm kd s0 (dropCartXfers s c) :=
  modPicker_calm hc _ rfl ((List.length_filter_le _ _).trans (le_max_left _ _)) (PickerQuiet.same rfl rfl)

theorem exportDone_calm {kd : Kind} {s0 s : State} (hc : Calm kd s0 s) (c m : Nat)
    (hn : s0.drives.length = 4 → s0.placed → ∀ p, placeOcc s p ≠ .record c) : Calm kd s0 (exportDone s c m) := by
  unfold exportDone
  split
  · exact hc
  · next k hk =>
    have h := setCart_calm hc c k { k with state := .withdrawn, home := none } hk (fun _ => ⟨by simp, nofun⟩) rfl
      fun a b => .inr (hn a b)
    exact notify_calm (calm_set (dropCartXfers_calm h c) _ _ _ _ _ _ _ _ _ _ _ _ _ _ _ _ _ _ _ _ _ _ _
      rfl (Kept.refl _ _) rfl rfl (le_max_left _ _) le_rfl (FilingsOf.refl _) (le_max_left _ _) (OrdersOf.refl _)
      id id (fun _ => id) fun _ => id) _ _ _

theorem endTaken_calm {kd : Kind} {s0 s : State} (hc : Calm kd s0 s) (t : Transfer) (src : Place) : Calm kd s0 (endTaken s t src) := by
  unfold endTaken
  try dsimp only []
  repeat' (first
    | with_reducible assumption
    | (first | exact fun _ => Occupant.noConfusion | exact fun h => h | exact fun _ h => h | exact Quiet.same rfl rfl | exact Quiet.other rfl rfl | exact PickerQuiet.same rfl rfl)
    | with_reducible apply endItemOpt_calm
    | (with_reducible apply calm_set; focus (first | with_reducible assumption | split | with_reducible apply endItemOpt_calm))
    | (with_reducible apply calm_foldl; intro s x h)
    | (intro _ _ _; try dsimp only)
    | with_reducible rfl
    | exact Kept.refl _ _
    | exact Kept.same rfl rfl (fun _ => rfl) rfl rfl
    | exact le_max_left _ _
    | exact le_rfl
    | exact OrdersOf.refl _
    | exact OrdersOf.filter _ _
    | exact FilingsOf.refl _
    | exact FilingsOf.filter _ _
    | (intro x; exact ⟨rfl, id⟩)
    | (intro x; simp [Filing.pendingConsent]; done)
    | exact (List.length_filter_le _ _).trans (le_max_left _ _)
    | exact List.length_filter_le _ _
    | (refine OrdersOf.map _ _ fun o => ?_)
    | split
    | (intro o; rfl)
    | (show Order.key _ = Order.key _; rfl)
    | (simp [Retained.kept]; done)
    | (simp_all [Config.transferCapacity, Config.workCapacity]; omega))

theorem followTake_calm {kd : Kind} {s0 s : State} (hc : Calm kd s0 s) (src : Place) (d : Nat) : Calm kd s0 (followTake s src d) := by
  unfold followTake
  split
  · split
    · exact modItem_calm (returnItem_calm hc _) _ _
    · exact hc
  · exact hc

theorem takeArrived_calm {kd : Kind} {s0 s : State} (hc : Calm kd s0 s) (t : Transfer) (src : Place) (d : Nat) : Calm kd s0 (takeArrived s t src d) := by
  unfold takeArrived
  try dsimp only []
  repeat' (first
    | with_reducible assumption
    | (first | exact fun _ => Occupant.noConfusion | exact fun h => h | exact fun _ h => h | exact Quiet.same rfl rfl | exact Quiet.other rfl rfl | exact PickerQuiet.same rfl rfl)
    | with_reducible apply endTaken_calm
    | with_reducible apply followTake_calm
    | with_reducible apply importRejected_calm
    | with_reducible apply modDrive_calm
    | (with_reducible apply calm_set; focus (first | with_reducible assumption | split | with_reducible apply endTaken_calm | with_reducible apply importRejected_calm | with_reducible apply modDrive_calm))
    | (with_reducible apply calm_foldl; intro s x h)
    | (intro _ _ _; try dsimp only)
    | with_reducible rfl
    | exact Kept.refl _ _
    | exact Kept.same rfl rfl (fun _ => rfl) rfl rfl
    | exact le_max_left _ _
    | exact le_rfl
    | exact OrdersOf.refl _
    | exact OrdersOf.filter _ _
    | exact FilingsOf.refl _
    | exact FilingsOf.filter _ _
    | (intro x; exact ⟨rfl, id⟩)
    | (intro x; simp [Filing.pendingConsent]; done)
    | exact (List.length_filter_le _ _).trans (le_max_left _ _)
    | exact List.length_filter_le _ _
    | (refine OrdersOf.map _ _ fun o => ?_)
    | split
    | (intro o; rfl)
    | (show Order.key _ = Order.key _; rfl)
    | (simp [Retained.kept]; done)
    | (simp_all [Config.transferCapacity, Config.workCapacity]; omega))

theorem placeOcc_rebuildMoved (s : State) (src dst p : Place) : placeOcc (rebuildMoved s src dst) p = placeOcc s p := by
  cases p <;> rfl

theorem placeOcc_occupy_mail (s : State) (m : Nat) (occ : Occupant) (face : Face) (mail : Option Nat) (p : Place) (c : Nat)
    (h : placeOcc (occupy s (.mail m) occ face mail) p = .record c) : placeOcc s p = .record c := by
  have h : placeOcc (modMail s m fun x => { x with state := .loadedOut, occ := .unrecorded }) p = .record c := h
  rw [placeOcc_modMail] at h
  cases p with
  | mail n =>
    by_cases hm : m = n
    · subst hm
      have h : (tget (tset s.picker.mails m { s.mail m with state := .loadedOut, occ := .unrecorded }) m Mail.initial).occ = .record c := h
      rcases tget_tset_new s.picker.mails m { s.mail m with state := .loadedOut, occ := .unrecorded } Mail.initial with e | e <;>
        rw [e] at h <;> cases h
    · have h : (tget (tset s.picker.mails m { s.mail m with state := .loadedOut, occ := .unrecorded }) n Mail.initial).occ = .record c := h
      rw [tget_tset_other _ _ _ _ _ hm] at h
      exact h
  | drive d => exact h
  | slot d => exact h
  | gripper => exact h

theorem completeXfer_calm {kd : Kind} {s0 s : State} (hc : Calm kd s0 s) (t : Transfer) (src dst : Place) : Calm kd s0 (completeXfer s t src dst) := by
  have h1 := dropXfer_calm hc t.id
  have hn : s0.drives.length = 4 → s0.placed → ∀ c, carried s t src = .record c →
      (∀ p, placeOcc (vacate (dropXfer s t.id) src) p ≠ .record c) ∧
        cartInState (vacate (dropXfer s t.id) src) c .inLibrary = true :=
    fun a b c e => carried_vacated (h1.drives.trans a) (h1.placed a b) t src c e
  have h2 := rebuildMoved_calm (occupy_calm (vacate_calm h1 src) dst (carried s t src) t.face (mailOf s src) hn) src dst
  unfold completeXfer
  dsimp only
  split
  · next c m hk ho =>
    refine exportDone_calm h2 _ _ fun a b p e => ?_
    rw [placeOcc_rebuildMoved] at e
    exact (hn a b c ho).1 p (placeOcc_occupy_mail _ _ _ _ _ _ _ e)
  · split
    · exact importRejected_calm h2 _ _ _
    · exact h2
  · exact takeArrived_calm h2 _ _ _
  · exact h2

theorem armDone_calm {kd : Kind} {s0 s : State} (hc : Calm kd s0 s) : Calm kd s0 (armDone s) := by
  unfold armDone
  try dsimp only []
  repeat' (first
    | with_reducible assumption
    | (first | exact fun _ => Occupant.noConfusion | exact fun h => h | exact fun _ h => h | exact Quiet.same rfl rfl | exact Quiet.other rfl rfl | exact PickerQuiet.same rfl rfl)
    | with_reducible apply completeXfer_calm
    | with_reducible apply modPicker_calm
    | (with_reducible apply calm_set; focus (first | with_reducible assumption | split | with_reducible apply completeXfer_calm | with_reducible apply modPicker_calm))
    | (with_reducible apply calm_foldl; intro s x h)
    | (intro _ _ _; try dsimp only)
    | with_reducible rfl
    | exact Kept.refl _ _
    | exact Kept.same rfl rfl (fun _ => rfl) rfl rfl
    | exact le_max_left _ _
    | exact le_rfl
    | exact OrdersOf.refl _
    | exact OrdersOf.filter _ _
    | exact FilingsOf.refl _
    | exact FilingsOf.filter _ _
    | (intro x; exact ⟨rfl, id⟩)
    | (intro x; simp [Filing.pendingConsent]; done)
    | exact (List.length_filter_le _ _).trans (le_max_left _ _)
    | exact List.length_filter_le _ _
    | (refine OrdersOf.map _ _ fun o => ?_)
    | split
    | (intro o; rfl)
    | (show Order.key _ = Order.key _; rfl)
    | (simp [Retained.kept]; done)
    | (simp_all [Config.transferCapacity, Config.workCapacity]; omega))

theorem reportPickerFault_calm {kd : Kind} {s0 s : State} (hc : Calm kd s0 s) (t : Option Transfer) (place : Option Place) : Calm kd s0 (reportPickerFault s t place) := by
  unfold reportPickerFault
  try dsimp only []
  repeat' (first
    | with_reducible assumption
    | (first | exact fun _ => Occupant.noConfusion | exact fun h => h | exact fun _ h => h | exact Quiet.same rfl rfl | exact Quiet.other rfl rfl | exact PickerQuiet.same rfl rfl)
    | with_reducible apply issue_calm
    | with_reducible apply modPicker_calm
    | with_reducible apply modRebuild_calm
    | with_reducible apply notify_calm
    | with_reducible apply rebuildHalt_calm
    | (with_reducible apply calm_set; focus (first | with_reducible assumption | split | with_reducible apply issue_calm | with_reducible apply modPicker_calm | with_reducible apply modRebuild_calm | with_reducible apply notify_calm | with_reducible apply rebuildHalt_calm))
    | (with_reducible apply calm_foldl; intro s x h)
    | (intro _ _ _; try dsimp only)
    | with_reducible rfl
    | exact Kept.refl _ _
    | exact Kept.same rfl rfl (fun _ => rfl) rfl rfl
    | exact le_max_left _ _
    | exact le_rfl
    | exact OrdersOf.refl _
    | exact OrdersOf.filter _ _
    | exact FilingsOf.refl _
    | exact FilingsOf.filter _ _
    | (intro x; exact ⟨rfl, id⟩)
    | (intro x; simp [Filing.pendingConsent]; done)
    | exact (List.length_filter_le _ _).trans (le_max_left _ _)
    | exact List.length_filter_le _ _
    | (refine OrdersOf.map _ _ fun o => ?_)
    | split
    | (intro o; rfl)
    | (show Order.key _ = Order.key _; rfl)
    | (simp [Retained.kept]; done)
    | (simp_all [Config.transferCapacity, Config.workCapacity]; omega))

theorem dropTaken_calm {kd : Kind} {s0 s : State} (hc : Calm kd s0 s) (t : Transfer) (src : Place) : Calm kd s0 (dropTaken s t src) := by
  unfold dropTaken
  try dsimp only []
  repeat' (first
    | with_reducible assumption
    | (first | exact fun _ => Occupant.noConfusion | exact fun h => h | exact fun _ h => h | exact Quiet.same rfl rfl | exact Quiet.other rfl rfl | exact PickerQuiet.same rfl rfl)
    | with_reducible apply endTaken_calm
    | with_reducible apply returnItem_calm
    | (with_reducible apply calm_set; focus (first | with_reducible assumption | split | with_reducible apply endTaken_calm | with_reducible apply returnItem_calm))
    | (with_reducible apply calm_foldl; intro s x h)
    | (intro _ _ _; try dsimp only)
    | with_reducible rfl
    | exact Kept.refl _ _
    | exact Kept.same rfl rfl (fun _ => rfl) rfl rfl
    | exact le_max_left _ _
    | exact le_rfl
    | exact OrdersOf.refl _
    | exact OrdersOf.filter _ _
    | exact FilingsOf.refl _
    | exact FilingsOf.filter _ _
    | (intro x; exact ⟨rfl, id⟩)
    | (intro x; simp [Filing.pendingConsent]; done)
    | exact (List.length_filter_le _ _).trans (le_max_left _ _)
    | exact List.length_filter_le _ _
    | (refine OrdersOf.map _ _ fun o => ?_)
    | split
    | (intro o; rfl)
    | (show Order.key _ = Order.key _; rfl)
    | (simp [Retained.kept]; done)
    | (simp_all [Config.transferCapacity, Config.workCapacity]; omega))

theorem intoGripper_calm {kd : Kind} {s0 s : State} (hc : Calm kd s0 s) (t : Transfer) (faceB : Bool) : Calm kd s0 (intoGripper s t faceB) := by
  have h1 := dropXfer_calm hc t.id
  unfold intoGripper
  dsimp only
  exact dropTaken_calm (rebuildMoved_calm (setGripper_calm (vacate_calm h1 _) _ rfl rfl rfl fun a b c e =>
    carried_vacated (h1.drives.trans a) (h1.placed a b) t _ c e) _ _) _ _

theorem stayAtSource_calm {kd : Kind} {s0 s : State} (hc : Calm kd s0 s) (t : Transfer) : Calm kd s0 (stayAtSource s t) := by
  unfold stayAtSource
  try dsimp only []
  repeat' (first
    | with_reducible assumption
    | (first | exact fun _ => Occupant.noConfusion | exact fun h => h | exact fun _ h => h | exact Quiet.same rfl rfl | exact Quiet.other rfl rfl | exact PickerQuiet.same rfl rfl)
    | with_reducible apply endImportAtDoor_calm
    | (with_reducible apply calm_set; focus (first | with_reducible assumption | split | with_reducible apply endImportAtDoor_calm))
    | (with_reducible apply calm_foldl; intro s x h)
    | (intro _ _ _; try dsimp only)
    | with_reducible rfl
    | exact Kept.refl _ _
    | exact Kept.same rfl rfl (fun _ => rfl) rfl rfl
    | exact le_max_left _ _
    | exact le_rfl
    | exact OrdersOf.refl _
    | exact OrdersOf.filter _ _
    | exact FilingsOf.refl _
    | exact FilingsOf.filter _ _
    | (intro x; exact ⟨rfl, id⟩)
    | (intro x; simp [Filing.pendingConsent]; done)
    | exact (List.length_filter_le _ _).trans (le_max_left _ _)
    | exact List.length_filter_le _ _
    | (refine OrdersOf.map _ _ fun o => ?_)
    | split
    | (intro o; rfl)
    | (show Order.key _ = Order.key _; rfl)
    | (simp [Retained.kept]; done)
    | (simp_all [Config.transferCapacity, Config.workCapacity]; omega))

theorem brokenAnswered_calm {kd : Kind} {s0 s : State} (hc : Calm kd s0 s) (st : Option PickerStatus) : Calm kd s0 (brokenAnswered s st) := by
  unfold brokenAnswered
  try dsimp only []
  repeat' (first
    | with_reducible assumption
    | (first | exact fun _ => Occupant.noConfusion | exact fun h => h | exact fun _ h => h | exact Quiet.same rfl rfl | exact Quiet.other rfl rfl | exact PickerQuiet.same rfl rfl)
    | with_reducible apply intoGripper_calm
    | with_reducible apply modPicker_calm
    | with_reducible apply reportPickerFault_calm
    | with_reducible apply stayAtSource_calm
    | (with_reducible apply calm_set; focus (first | with_reducible assumption | split | with_reducible apply intoGripper_calm | with_reducible apply modPicker_calm | with_reducible apply reportPickerFault_calm | with_reducible apply stayAtSource_calm))
    | (with_reducible apply calm_foldl; intro s x h)
    | (intro _ _ _; try dsimp only)
    | with_reducible rfl
    | exact Kept.refl _ _
    | exact Kept.same rfl rfl (fun _ => rfl) rfl rfl
    | exact le_max_left _ _
    | exact le_rfl
    | exact OrdersOf.refl _
    | exact OrdersOf.filter _ _
    | exact FilingsOf.refl _
    | exact FilingsOf.filter _ _
    | (intro x; exact ⟨rfl, id⟩)
    | (intro x; simp [Filing.pendingConsent]; done)
    | exact (List.length_filter_le _ _).trans (le_max_left _ _)
    | exact List.length_filter_le _ _
    | (refine OrdersOf.map _ _ fun o => ?_)
    | split
    | (intro o; rfl)
    | (show Order.key _ = Order.key _; rfl)
    | (simp [Retained.kept]; done)
    | (simp_all [Config.transferCapacity, Config.workCapacity]; omega))

theorem pickerFault_calm {kd : Kind} {s0 s : State} (hc : Calm kd s0 s) (why : PickerFaultReason) : Calm kd s0 (pickerFault s why) := by
  unfold pickerFault
  try dsimp only []
  repeat' (first
    | with_reducible assumption
    | (first | exact fun _ => Occupant.noConfusion | exact fun h => h | exact fun _ h => h | exact Quiet.same rfl rfl | exact Quiet.other rfl rfl | exact PickerQuiet.same rfl rfl)
    | with_reducible apply dropArm_calm
    | with_reducible apply dropQueued_calm
    | with_reducible apply issue_calm
    | with_reducible apply modPicker_calm
    | with_reducible apply reportPickerFault_calm
    | (with_reducible apply calm_set; focus (first | with_reducible assumption | split | with_reducible apply dropArm_calm | with_reducible apply dropQueued_calm | with_reducible apply issue_calm | with_reducible apply modPicker_calm | with_reducible apply reportPickerFault_calm))
    | (with_reducible apply calm_foldl; intro s x h)
    | (intro _ _ _; try dsimp only)
    | with_reducible rfl
    | exact Kept.refl _ _
    | exact Kept.same rfl rfl (fun _ => rfl) rfl rfl
    | exact le_max_left _ _
    | exact le_rfl
    | exact OrdersOf.refl _
    | exact OrdersOf.filter _ _
    | exact FilingsOf.refl _
    | exact FilingsOf.filter _ _
    | (intro x; exact ⟨rfl, id⟩)
    | (intro x; simp [Filing.pendingConsent]; done)
    | exact (List.length_filter_le _ _).trans (le_max_left _ _)
    | exact List.length_filter_le _ _
    | (refine OrdersOf.map _ _ fun o => ?_)
    | split
    | (intro o; rfl)
    | (show Order.key _ = Order.key _; rfl)
    | (simp [Retained.kept]; done)
    | (simp_all [Config.transferCapacity, Config.workCapacity]; omega))

theorem transferTimeoutOp_calm {kd : Kind} {s0 s : State} (hc : Calm kd s0 s) : Calm kd s0 (transferTimeoutOp s) := by
  unfold transferTimeoutOp
  try dsimp only []
  repeat' (first
    | with_reducible assumption
    | (first | exact fun _ => Occupant.noConfusion | exact fun h => h | exact fun _ h => h | exact Quiet.same rfl rfl | exact Quiet.other rfl rfl | exact PickerQuiet.same rfl rfl)
    | with_reducible apply pickerFault_calm
    | (with_reducible apply calm_set; focus (first | with_reducible assumption | split | with_reducible apply pickerFault_calm))
    | (with_reducible apply calm_foldl; intro s x h)
    | (intro _ _ _; try dsimp only)
    | with_reducible rfl
    | exact Kept.refl _ _
    | exact Kept.same rfl rfl (fun _ => rfl) rfl rfl
    | exact le_max_left _ _
    | exact le_rfl
    | exact OrdersOf.refl _
    | exact OrdersOf.filter _ _
    | exact FilingsOf.refl _
    | exact FilingsOf.filter _ _
    | (intro x; exact ⟨rfl, id⟩)
    | (intro x; simp [Filing.pendingConsent]; done)
    | exact (List.length_filter_le _ _).trans (le_max_left _ _)
    | exact List.length_filter_le _ _
    | (refine OrdersOf.map _ _ fun o => ?_)
    | split
    | (intro o; rfl)
    | (show Order.key _ = Order.key _; rfl)
    | (simp [Retained.kept]; done)
    | (simp_all [Config.transferCapacity, Config.workCapacity]; omega))

theorem startReset_calm {kd : Kind} {s0 s : State} (hc : Calm kd s0 s) : Calm kd s0 (startReset s) := by
  unfold startReset
  try dsimp only []
  repeat' (first
    | with_reducible assumption
    | (first | exact fun _ => Occupant.noConfusion | exact fun h => h | exact fun _ h => h | exact Quiet.same rfl rfl | exact Quiet.other rfl rfl | exact PickerQuiet.same rfl rfl)
    | with_reducible apply issue_calm
    | with_reducible apply modPicker_calm
    | (with_reducible apply calm_set; focus (first | with_reducible assumption | split | with_reducible apply issue_calm | with_reducible apply modPicker_calm))
    | (with_reducible apply calm_foldl; intro s x h)
    | (intro _ _ _; try dsimp only)
    | with_reducible rfl
    | exact Kept.refl _ _
    | exact Kept.same rfl rfl (fun _ => rfl) rfl rfl
    | exact le_max_left _ _
    | exact le_rfl
    | exact OrdersOf.refl _
    | exact OrdersOf.filter _ _
    | exact FilingsOf.refl _
    | exact FilingsOf.filter _ _
    | (intro x; exact ⟨rfl, id⟩)
    | (intro x; simp [Filing.pendingConsent]; done)
    | exact (List.length_filter_le _ _).trans (le_max_left _ _)
    | exact List.length_filter_le _ _
    | (refine OrdersOf.map _ _ fun o => ?_)
    | split
    | (intro o; rfl)
    | (show Order.key _ = Order.key _; rfl)
    | (simp [Retained.kept]; done)
    | (simp_all [Config.transferCapacity, Config.workCapacity]; omega))

theorem lostCart_calm {kd : Kind} {s0 s : State} (hc : Calm kd s0 s) (occ : Occupant)
    (hn : s0.drives.length = 4 → s0.placed → ∀ c, occ = .record c → ∀ p, placeOcc s p ≠ .record c) : Calm kd s0 (lostCart s occ) := by
  unfold lostCart
  split
  · next c =>
    split
    · next k hk =>
      refine endCartWork_calm (notify_calm (dropCartXfers_calm ?_ _) _ _ _) _
      split
      · next hs =>
        exact setCart_calm hc c k _ hk (fun l => ⟨by simp [l.home c k hk, hs], fun x hx => Or.inl hx⟩) rfl
          fun a b => .inr (hn a b c rfl)
      · exact hc
    · exact hc
  all_goals exact hc

theorem loseAt_calm {kd : Kind} {s0 s : State} (hc : Calm kd s0 s) (p : Place) (occ : Occupant)
    (hn : s0.drives.length = 4 → s0.placed → ∀ c, occ = .record c → ∀ q, placeOcc (vacate s p) q ≠ .record c) :
    Calm kd s0 (loseAt s p occ) := modRebuildAt_calm (lostCart_calm (vacate_calm hc _) _ hn) _ _

theorem settleBroken_calm {kd : Kind} {s0 s : State} (hc : Calm kd s0 s) (b : Broken) (seen : List Nat) : Calm kd s0 (settleBroken s b seen) := by
  have h := modPicker_calm hc (fun p => { p with broken := none }) rfl (le_max_left _ _) (PickerQuiet.same rfl rfl)
  unfold settleBroken
  generalize (s.modPicker fun p => { p with broken := none }) = u at h
  generalize hat : (if b.held = some true then Place.gripper else b.xfer.src) = at_
  dsimp only
  split
  · exact completeXfer_calm h _ _ _
  · split
    · split
      · exact h
      · exact intoGripper_calm h _ _
    · split
      · split
        · exact rebuildMoved_calm (occupy_calm (vacate_calm h _) _ _ _ _ fun x y c e =>
            carried_vacated (h.drives.trans x) (h.placed x y) _ _ c e) _ _
        · exact h
      · have h2 : Calm kd s0 (if b.held = some true then u else dropTaken (dropXfer u b.xfer.id) b.xfer b.xfer.src) := by
          split
          · exact h
          · exact dropTaken_calm (dropXfer_calm h _) _ _
        exact loseAt_calm h2 _ _ fun x y c e => (carried_vacated (h2.drives.trans x) (h2.placed x y) _ _ c e).1

theorem clearGripper_calm {kd : Kind} {s0 s : State} (hc : Calm kd s0 s) : Calm kd s0 (clearGripper s) := by
  unfold clearGripper
  try dsimp only []
  repeat' (first
    | with_reducible assumption
    | (first | exact fun _ => Occupant.noConfusion | exact fun h => h | exact fun _ h => h | exact Quiet.same rfl rfl | exact Quiet.other rfl rfl | exact PickerQuiet.same rfl rfl)
    | with_reducible apply modRebuildAt_calm
    | with_reducible apply requestHome_calm
    | with_reducible apply requestTransfer_calm
    | (with_reducible apply calm_set; focus (first | with_reducible assumption | split | with_reducible apply modRebuildAt_calm | with_reducible apply requestHome_calm | with_reducible apply requestTransfer_calm))
    | (with_reducible apply calm_foldl; intro s x h)
    | (intro _ _ _; try dsimp only)
    | with_reducible rfl
    | exact Kept.refl _ _
    | exact Kept.same rfl rfl (fun _ => rfl) rfl rfl
    | exact le_max_left _ _
    | exact le_rfl
    | exact OrdersOf.refl _
    | exact OrdersOf.filter _ _
    | exact FilingsOf.refl _
    | exact FilingsOf.filter _ _
    | (intro x; exact ⟨rfl, id⟩)
    | (intro x; simp [Filing.pendingConsent]; done)
    | exact (List.length_filter_le _ _).trans (le_max_left _ _)
    | exact List.length_filter_le _ _
    | (refine OrdersOf.map _ _ fun o => ?_)
    | split
    | (intro o; rfl)
    | (show Order.key _ = Order.key _; rfl)
    | (simp [Retained.kept]; done)
    | (simp_all [Config.transferCapacity, Config.workCapacity]; omega))

theorem settleGripper_calm {kd : Kind} {s0 s : State} (hc : Calm kd s0 s) (seen : List Nat) : Calm kd s0 (settleGripper s seen) := by
  unfold settleGripper
  split
  · split
    · exact modPicker_calm hc _ rfl (le_max_left _ _) (PickerQuiet.grips (fun _ => Occupant.noConfusion) rfl)
    · exact hc
  · refine loseAt_calm hc _ _ fun a b c e q hq => ?_
    obtain ⟨h1, h2⟩ := placeOcc_vacate s .gripper q c hq
    exact h1 (((placeLaw_iff s).2 (hc.placed a b)).one c q .gripper h2 e)

theorem resetDone_calm {kd : Kind} {s0 s : State} (hc : Calm kd s0 s) (seen : List Nat) : Calm kd s0 (resetDone s seen) := by
  unfold resetDone
  try dsimp only []
  repeat' (first
    | with_reducible assumption
    | (first | exact fun _ => Occupant.noConfusion | exact fun h => h | exact fun _ h => h | exact Quiet.same rfl rfl | exact Quiet.other rfl rfl | exact PickerQuiet.same rfl rfl)
    | with_reducible apply clearGripper_calm
    | with_reducible apply issue_calm
    | with_reducible apply modBoot_calm
    | with_reducible apply modPicker_calm
    | with_reducible apply settleBroken_calm
    | with_reducible apply settleGripper_calm
    | (with_reducible apply calm_set; focus (first | with_reducible assumption | split | with_reducible apply clearGripper_calm | with_reducible apply issue_calm | with_reducible apply modBoot_calm | with_reducible apply modPicker_calm | with_reducible apply settleBroken_calm | with_reducible apply settleGripper_calm))
    | (with_reducible apply calm_foldl; intro s x h)
    | (intro _ _ _; try dsimp only)
    | with_reducible rfl
    | exact Kept.refl _ _
    | exact Kept.same rfl rfl (fun _ => rfl) rfl rfl
    | exact le_max_left _ _
    | exact le_rfl
    | exact OrdersOf.refl _
    | exact OrdersOf.filter _ _
    | exact FilingsOf.refl _
    | exact FilingsOf.filter _ _
    | (intro x; exact ⟨rfl, id⟩)
    | (intro x; simp [Filing.pendingConsent]; done)
    | exact (List.length_filter_le _ _).trans (le_max_left _ _)
    | exact List.length_filter_le _ _
    | (refine OrdersOf.map _ _ fun o => ?_)
    | split
    | (intro o; rfl)
    | (show Order.key _ = Order.key _; rfl)
    | (simp [Retained.kept]; done)
    | (simp_all [Config.transferCapacity, Config.workCapacity]; omega))

theorem resetScanNext_calm {kd : Kind} {s0 s : State} (hc : Calm kd s0 s) (left : List (Nat × Nat)) (seen : List Nat) : Calm kd s0 (resetScanNext s left seen) := by
  unfold resetScanNext
  try dsimp only []
  repeat' (first
    | with_reducible assumption
    | (first | exact fun _ => Occupant.noConfusion | exact fun h => h | exact fun _ h => h | exact Quiet.same rfl rfl | exact Quiet.other rfl rfl | exact PickerQuiet.same rfl rfl)
    | with_reducible apply issue_calm
    | with_reducible apply modPicker_calm
    | with_reducible apply resetDone_calm
    | (with_reducible apply calm_set; focus (first | with_reducible assumption | split | with_reducible apply issue_calm | with_reducible apply modPicker_calm | with_reducible apply resetDone_calm))
    | (with_reducible apply calm_foldl; intro s x h)
    | (intro _ _ _; try dsimp only)
    | with_reducible rfl
    | exact Kept.refl _ _
    | exact Kept.same rfl rfl (fun _ => rfl) rfl rfl
    | exact le_max_left _ _
    | exact le_rfl
    | exact OrdersOf.refl _
    | exact OrdersOf.filter _ _
    | exact FilingsOf.refl _
    | exact FilingsOf.filter _ _
    | (intro x; exact ⟨rfl, id⟩)
    | (intro x; simp [Filing.pendingConsent]; done)
    | exact (List.length_filter_le _ _).trans (le_max_left _ _)
    | exact List.length_filter_le _ _
    | (refine OrdersOf.map _ _ fun o => ?_)
    | split
    | (intro o; rfl)
    | (show Order.key _ = Order.key _; rfl)
    | (simp [Retained.kept]; done)
    | (simp_all [Config.transferCapacity, Config.workCapacity]; omega))

theorem reconcileUpdate_kept {m : Mode} {s u : State} (hu : u.ret = s.ret) (inDrives : List Nat) (occs : List Occupant)
    (hl : occs.length = s.ret.slots.length) : Kept m s.ret m (reconcileUpdate u inDrives occs).ret := by
  unfold reconcileUpdate State.retain
  rw [hu]
  refine Kept.carts rfl rfl rfl (Retained.disabled_zip _ _ hl) fun c => ?_
  simp only [Retained.cart, tget_map_numbered]
  cases e : tget s.ret.carts c none with
  | none => simp
  | some k =>
    have hin : c ≠ 0 ∧ c ≤ s.ret.carts.length := by
      by_contra hx
      rw [tget_outside _ _ _ (by omega)] at e
      cases e
    simp only [hin, ne_eq, not_false_eq_true, and_self, if_true, Option.map_some]
    refine ⟨_, rfl, ?_⟩
    split
    · exact ⟨rfl, Iff.rfl⟩
    · next hw => split <;> exact ⟨rfl, by simpa using hw⟩

theorem missingNotices_calm {kd : Kind} {s0 new : State} (hc : Calm kd s0 new) (old : State) : Calm kd s0 (missingNotices old new) := by
  unfold missingNotices
  try dsimp only []
  repeat' (first
    | with_reducible assumption
    | (first | exact fun _ => Occupant.noConfusion | exact fun h => h | exact fun _ h => h | exact Quiet.same rfl rfl | exact Quiet.other rfl rfl | exact PickerQuiet.same rfl rfl)
    | with_reducible apply notify_calm
    | (with_reducible apply calm_set; focus (first | with_reducible assumption | split | with_reducible apply notify_calm))
    | (with_reducible apply calm_foldl; intro s x h)
    | (intro _ _ _; try dsimp only)
    | with_reducible rfl
    | exact Kept.refl _ _
    | exact Kept.same rfl rfl (fun _ => rfl) rfl rfl
    | exact le_max_left _ _
    | exact le_rfl
    | exact OrdersOf.refl _
    | exact OrdersOf.filter _ _
    | exact FilingsOf.refl _
    | exact FilingsOf.filter _ _
    | (intro x; exact ⟨rfl, id⟩)
    | (intro x; simp [Filing.pendingConsent]; done)
    | exact (List.length_filter_le _ _).trans (le_max_left _ _)
    | exact List.length_filter_le _ _
    | (refine OrdersOf.map _ _ fun o => ?_)
    | split
    | (intro o; rfl)
    | (show Order.key _ = Order.key _; rfl)
    | (simp [Retained.kept]; done)
    | (simp_all [Config.transferCapacity, Config.workCapacity]; omega))

theorem rejectFound_calm {kd : Kind} {s0 s : State} (hc : Calm kd s0 s) : Calm kd s0 (rejectFound s) := by
  unfold rejectFound
  try dsimp only []
  repeat' (first
    | with_reducible assumption
    | (first | exact fun _ => Occupant.noConfusion | exact fun h => h | exact fun _ h => h | exact Quiet.same rfl rfl | exact Quiet.other rfl rfl | exact PickerQuiet.same rfl rfl)
    | with_reducible apply requestTransfer_calm
    | (with_reducible apply calm_set; focus (first | with_reducible assumption | split | with_reducible apply requestTransfer_calm))
    | (with_reducible apply calm_foldl; intro s x h)
    | (intro _ _ _; try dsimp only)
    | with_reducible rfl
    | exact Kept.refl _ _
    | exact Kept.same rfl rfl (fun _ => rfl) rfl rfl
    | exact le_max_left _ _
    | exact le_rfl
    | exact OrdersOf.refl _
    | exact OrdersOf.filter _ _
    | exact FilingsOf.refl _
    | exact FilingsOf.filter _ _
    | (intro x; exact ⟨rfl, id⟩)
    | (intro x; simp [Filing.pendingConsent]; done)
    | exact (List.length_filter_le _ _).trans (le_max_left _ _)
    | exact List.length_filter_le _ _
    | (refine OrdersOf.map _ _ fun o => ?_)
    | split
    | (intro o; rfl)
    | (show Order.key _ = Order.key _; rfl)
    | (simp [Retained.kept]; done)
    | (simp_all [Config.transferCapacity, Config.workCapacity]; omega))

theorem setDrives_eq (s : State) (l : List (Nat × Nat)) : ∃ D, setDrives s l = { s with drives := D } := by
  unfold setDrives
  generalize drives4 = ds
  have key : ∀ v : State, (∃ D, v = { s with drives := D }) → ∃ D, ds.foldl (fun s d => s.modDrive d fun x =>
      { x with occ := match l.find? fun e => e.1 == d with
          | some e => .record e.2
          | none => if x.occ = .empty then .empty else .unrecorded }) v = { s with drives := D } := by
    induction ds with
    | nil => exact fun _ => id
    | cons d ds ih =>
      rintro v ⟨D, rfl⟩
      exact ih _ ⟨_, rfl⟩
  exact key s ⟨s.drives, rfl⟩

/-- A change of the drives and of the Retained Store at once. -/
theorem drivesRet_calm {kd : Kind} {s0 s : State} (h : Calm kd s0 s) (ds : List Drive) (r : Retained) (hr : r.kept = s.ret.kept)
    (hk : Kept s.mode s.ret s.mode r) (hd : ds.length = s.drives.length) (hw : r.withheld = s.ret.withheld)
    (hp : s.drives.length = 4 → s.placed → Placed r.slots ds s.picker.gripper s.picker.mails r.carts)
    (hl : LabelsKept s → LabelLaw r.carts r.labelCounter ds) : Calm kd s0 { s with drives := ds, ret := r } :=
  calm_set h _ _ _ _ _ _ _ _ _ _ _ _ _ _ _ _ _ _ _ _ _ _ _ hr hk hd rfl (le_max_left _ _) le_rfl (FilingsOf.refl _)
    (le_max_left _ _) (OrdersOf.refl _) id (fun v => by rw [hw]; exact v) hp fun _ => hl

theorem reconcile_calm {kd : Kind} {s0 s : State} (h : Calm kd s0 s) (hg : ∀ c, s.picker.gripper ≠ .record c) :
    Calm kd s0 (reconcile s) := by
  have hl : ((upTo s.ret.slots.length).map (slotFinding s ((foundInDrives s).map Prod.snd) s.boot.seen)).length = s.ret.slots.length := by
    simp [upTo]
  have e : ∀ l inD occs, reconcileUpdate (setDrives s l) inD occs =
      { s with drives := (setDrives s l).drives, ret := (reconcileUpdate (setDrives s l) inD occs).ret } := fun l inD occs => by
    obtain ⟨D, hD⟩ := setDrives_eq s l
    rw [hD]
    rfl
  have k0 : ∀ l, (setDrives s l).ret = s.ret := fun l => by
    obtain ⟨D, hD⟩ := setDrives_eq s l
    rw [hD]
  have k4 : ∀ l inD occs, (reconcileUpdate (setDrives s l) inD occs).ret.withheld = s.ret.withheld := fun l inD occs => by
    obtain ⟨D, hD⟩ := setDrives_eq s l
    rw [hD]
    rfl
  have k1 : ∀ l inD occs, occs.length = s.ret.slots.length → (reconcileUpdate (setDrives s l) inD occs).ret.kept = s.ret.kept :=
    fun l inD occs hl => by simp [Retained.kept, reconcileUpdate, State.retain, hl, setDrives, drives4, State.modDrive]
  have k2 : ∀ l, (setDrives s l).drives.length = s.drives.length := fun l => by simp [setDrives, drives4, State.modDrive]
  have k3 : ∀ l inD occs, (reconcileUpdate (setDrives s l) inD occs).ret.labelCounter = s.ret.labelCounter := fun l inD occs => by
    obtain ⟨D, hD⟩ := setDrives_eq s l
    rw [hD]
    rfl
  have hu := drivesRet_calm h _ _ (k1 (foundInDrives s) ((foundInDrives s).map Prod.snd) _ hl) (reconcileUpdate_kept (k0 _) _ _ hl)
    (k2 (foundInDrives s)) (k4 _ _ _) (fun a p => reconcile_placed a p hg rfl s.boot.seen)
    fun p => by rw [k3]; exact reconcile_labels p _ rfl _ _
  rw [← e] at hu
  exact rejectFound_calm (modBoot_calm (modPicker_calm (missingNotices_calm hu _) _ rfl (le_max_left _ _) (PickerQuiet.same rfl rfl)) _)

theorem rebuildList_calm {kd : Kind} {s0 s : State} (hc : Calm kd s0 s) (hm : s.mode = .rebuild) : Calm kd s0 (rebuildList s) := by
  unfold rebuildList
  refine modRebuild_calm (retain_calm hc _ ?_ ?_ id (fun _ h => ?_) fun h => absurd hm h) _
  · simp [Retained.kept]
  · rw [hm]
    exact Kept.rebuild id
  · refine h.mono (fun p c e => ?_) fun _ _ _ => id
    cases p with
    | slot n =>
      simp only [occAt, tget_map_numbered] at e
      split at e
      · dsimp only at e
        split at e <;> cases e
      · cases e
    | drive d => exact e
    | gripper => exact e
    | mail m => exact e

theorem inventoryDone_calm {kd : Kind} {s0 s : State} (hc : Calm kd s0 s) : Calm kd s0 (inventoryDone s) := by
  have key : ∀ u, Calm kd s0 u → (∀ c, u.picker.gripper ≠ .record c) →
      Calm kd s0 (if u.mode = .rebuild then rebuildList u else reconcile u) := fun u h hg => by
    split
    · next hm => exact rebuildList_calm h hm
    · exact reconcile_calm h hg
  have hg : ∀ c, (if s.boot.scanOk && s.boot.seen.contains 125 then Occupant.unrecorded else .empty) ≠ .record c := fun c => by
    split <;> exact Occupant.noConfusion
  exact key _ (modPicker_calm hc _ rfl (le_max_left _ _) (PickerQuiet.grips hg rfl)) hg

theorem invDoors_calm {kd : Kind} {s0 s : State} (hc : Calm kd s0 s) : Calm kd s0 (invDoors s) := by
  unfold invDoors
  try dsimp only []
  repeat' (first
    | with_reducible assumption
    | (first | exact fun _ => Occupant.noConfusion | exact fun h => h | exact fun _ h => h | exact Quiet.same rfl rfl | exact Quiet.other rfl rfl | exact PickerQuiet.same rfl rfl)
    | with_reducible apply issue_calm
    | with_reducible apply modPicker_calm
    | (with_reducible apply calm_set; focus (first | with_reducible assumption | split | with_reducible apply issue_calm | with_reducible apply modPicker_calm))
    | (with_reducible apply calm_foldl; intro s x h)
    | (intro _ _ _; try dsimp only)
    | with_reducible rfl
    | exact Kept.refl _ _
    | exact Kept.same rfl rfl (fun _ => rfl) rfl rfl
    | exact le_max_left _ _
    | exact le_rfl
    | exact OrdersOf.refl _
    | exact OrdersOf.filter _ _
    | exact FilingsOf.refl _
    | exact FilingsOf.filter _ _
    | (intro x; exact ⟨rfl, id⟩)
    | (intro x; simp [Filing.pendingConsent]; done)
    | exact (List.length_filter_le _ _).trans (le_max_left _ _)
    | exact List.length_filter_le _ _
    | (refine OrdersOf.map _ _ fun o => ?_)
    | split
    | (intro o; rfl)
    | (show Order.key _ = Order.key _; rfl)
    | (simp [Retained.kept]; done)
    | (simp_all [Config.transferCapacity, Config.workCapacity]; omega))

theorem invDrives_calm {kd : Kind} {s0 s : State} (hc : Calm kd s0 s) : Calm kd s0 (invDrives s) := by
  unfold invDrives
  try dsimp only []
  repeat' (first
    | with_reducible assumption
    | (first | exact fun _ => Occupant.noConfusion | exact fun h => h | exact fun _ h => h | exact Quiet.same rfl rfl | exact Quiet.other rfl rfl | exact PickerQuiet.same rfl rfl)
    | with_reducible apply issue_calm
    | with_reducible apply modPicker_calm
    | (with_reducible apply calm_set; focus (first | with_reducible assumption | split | with_reducible apply issue_calm | with_reducible apply modPicker_calm))
    | (with_reducible apply calm_foldl; intro s x h)
    | (intro _ _ _; try dsimp only)
    | with_reducible rfl
    | exact Kept.refl _ _
    | exact Kept.same rfl rfl (fun _ => rfl) rfl rfl
    | exact le_max_left _ _
    | exact le_rfl
    | exact OrdersOf.refl _
    | exact OrdersOf.filter _ _
    | exact FilingsOf.refl _
    | exact FilingsOf.filter _ _
    | (intro x; exact ⟨rfl, id⟩)
    | (intro x; simp [Filing.pendingConsent]; done)
    | exact (List.length_filter_le _ _).trans (le_max_left _ _)
    | exact List.length_filter_le _ _
    | (refine OrdersOf.map _ _ fun o => ?_)
    | split
    | (intro o; rfl)
    | (show Order.key _ = Order.key _; rfl)
    | (simp [Retained.kept]; done)
    | (simp_all [Config.transferCapacity, Config.workCapacity]; omega))

theorem invDriveDone_calm {kd : Kind} {s0 s : State} (hc : Calm kd s0 s) (d : Nat) : Calm kd s0 (invDriveDone s d) := by
  unfold invDriveDone
  try dsimp only []
  repeat' (first
    | with_reducible assumption
    | (first | exact fun _ => Occupant.noConfusion | exact fun h => h | exact fun _ h => h | exact Quiet.same rfl rfl | exact Quiet.other rfl rfl | exact PickerQuiet.same rfl rfl)
    | with_reducible apply invDoors_calm
    | with_reducible apply modPicker_calm
    | (with_reducible apply calm_set; focus (first | with_reducible assumption | split | with_reducible apply invDoors_calm | with_reducible apply modPicker_calm))
    | (with_reducible apply calm_foldl; intro s x h)
    | (intro _ _ _; try dsimp only)
    | with_reducible rfl
    | exact Kept.refl _ _
    | exact Kept.same rfl rfl (fun _ => rfl) rfl rfl
    | exact le_max_left _ _
    | exact le_rfl
    | exact OrdersOf.refl _
    | exact OrdersOf.filter _ _
    | exact FilingsOf.refl _
    | exact FilingsOf.filter _ _
    | (intro x; exact ⟨rfl, id⟩)
    | (intro x; simp [Filing.pendingConsent]; done)
    | exact (List.length_filter_le _ _).trans (le_max_left _ _)
    | exact List.length_filter_le _ _
    | (refine OrdersOf.map _ _ fun o => ?_)
    | split
    | (intro o; rfl)
    | (show Order.key _ = Order.key _; rfl)
    | (simp [Retained.kept]; done)
    | (simp_all [Config.transferCapacity, Config.workCapacity]; omega))

theorem invDoorDone_calm {kd : Kind} {s0 s : State} (hc : Calm kd s0 s) (m : Nat) : Calm kd s0 (invDoorDone s m) := by
  unfold invDoorDone
  try dsimp only []
  repeat' (first
    | with_reducible assumption
    | (first | exact fun _ => Occupant.noConfusion | exact fun h => h | exact fun _ h => h | exact Quiet.same rfl rfl | exact Quiet.other rfl rfl | exact PickerQuiet.same rfl rfl)
    | with_reducible apply inventoryDone_calm
    | with_reducible apply modPicker_calm
    | (with_reducible apply calm_set; focus (first | with_reducible assumption | split | with_reducible apply inventoryDone_calm | with_reducible apply modPicker_calm))
    | (with_reducible apply calm_foldl; intro s x h)
    | (intro _ _ _; try dsimp only)
    | with_reducible rfl
    | exact Kept.refl _ _
    | exact Kept.same rfl rfl (fun _ => rfl) rfl rfl
    | exact le_max_left _ _
    | exact le_rfl
    | exact OrdersOf.refl _
    | exact OrdersOf.filter _ _
    | exact FilingsOf.refl _
    | exact FilingsOf.filter _ _
    | (intro x; exact ⟨rfl, id⟩)
    | (intro x; simp [Filing.pendingConsent]; done)
    | exact (List.length_filter_le _ _).trans (le_max_left _ _)
    | exact List.length_filter_le _ _
    | (refine OrdersOf.map _ _ fun o => ?_)
    | split
    | (intro o; rfl)
    | (show Order.key _ = Order.key _; rfl)
    | (simp [Retained.kept]; done)
    | (simp_all [Config.transferCapacity, Config.workCapacity]; omega))

theorem scanFailed_calm {kd : Kind} {s0 s : State} (hc : Calm kd s0 s) (why : PickerFaultReason) : Calm kd s0 (scanFailed s why) := by
  unfold scanFailed
  try dsimp only []
  repeat' (first
    | with_reducible assumption
    | (first | exact fun _ => Occupant.noConfusion | exact fun h => h | exact fun _ h => h | exact Quiet.same rfl rfl | exact Quiet.other rfl rfl | exact PickerQuiet.same rfl rfl)
    | with_reducible apply dropQueued_calm
    | with_reducible apply invDrives_calm
    | with_reducible apply modBoot_calm
    | with_reducible apply modPicker_calm
    | with_reducible apply reportPickerFault_calm
    | (with_reducible apply calm_set; focus (first | with_reducible assumption | split | with_reducible apply dropQueued_calm | with_reducible apply invDrives_calm | with_reducible apply modBoot_calm | with_reducible apply modPicker_calm | with_reducible apply reportPickerFault_calm))
    | (with_reducible apply calm_foldl; intro s x h)
    | (intro _ _ _; try dsimp only)
    | with_reducible rfl
    | exact Kept.refl _ _
    | exact Kept.same rfl rfl (fun _ => rfl) rfl rfl
    | exact le_max_left _ _
    | exact le_rfl
    | exact OrdersOf.refl _
    | exact OrdersOf.filter _ _
    | exact FilingsOf.refl _
    | exact FilingsOf.filter _ _
    | (intro x; exact ⟨rfl, id⟩)
    | (intro x; simp [Filing.pendingConsent]; done)
    | exact (List.length_filter_le _ _).trans (le_max_left _ _)
    | exact List.length_filter_le _ _
    | (refine OrdersOf.map _ _ fun o => ?_)
    | split
    | (intro o; rfl)
    | (show Order.key _ = Order.key _; rfl)
    | (simp [Retained.kept]; done)
    | (simp_all [Config.transferCapacity, Config.workCapacity]; omega))

theorem invScanNext_calm {kd : Kind} {s0 s : State} (hc : Calm kd s0 s) (left : List (Nat × Nat)) : Calm kd s0 (invScanNext s left) := by
  unfold invScanNext
  try dsimp only []
  repeat' (first
    | with_reducible assumption
    | (first | exact fun _ => Occupant.noConfusion | exact fun h => h | exact fun _ h => h | exact Quiet.same rfl rfl | exact Quiet.other rfl rfl | exact PickerQuiet.same rfl rfl)
    | with_reducible apply invDrives_calm
    | with_reducible apply issue_calm
    | with_reducible apply modPicker_calm
    | (with_reducible apply calm_set; focus (first | with_reducible assumption | split | with_reducible apply invDrives_calm | with_reducible apply issue_calm | with_reducible apply modPicker_calm))
    | (with_reducible apply calm_foldl; intro s x h)
    | (intro _ _ _; try dsimp only)
    | with_reducible rfl
    | exact Kept.refl _ _
    | exact Kept.same rfl rfl (fun _ => rfl) rfl rfl
    | exact le_max_left _ _
    | exact le_rfl
    | exact OrdersOf.refl _
    | exact OrdersOf.filter _ _
    | exact FilingsOf.refl _
    | exact FilingsOf.filter _ _
    | (intro x; exact ⟨rfl, id⟩)
    | (intro x; simp [Filing.pendingConsent]; done)
    | exact (List.length_filter_le _ _).trans (le_max_left _ _)
    | exact List.length_filter_le _ _
    | (refine OrdersOf.map _ _ fun o => ?_)
    | split
    | (intro o; rfl)
    | (show Order.key _ = Order.key _; rfl)
    | (simp [Retained.kept]; done)
    | (simp_all [Config.transferCapacity, Config.workCapacity]; omega))

theorem routineStatus_calm {kd : Kind} {s0 s : State} (hc : Calm kd s0 s) (st : PickerStatus) : Calm kd s0 (routineStatus s st) := by
  unfold routineStatus
  try dsimp only []
  repeat' (first
    | with_reducible assumption
    | (first | exact fun _ => Occupant.noConfusion | exact fun h => h | exact fun _ h => h | exact Quiet.same rfl rfl | exact Quiet.other rfl rfl | exact PickerQuiet.same rfl rfl)
    | with_reducible apply invScanNext_calm
    | with_reducible apply modBoot_calm
    | with_reducible apply modPicker_calm
    | with_reducible apply resetScanNext_calm
    | (with_reducible apply calm_set; focus (first | with_reducible assumption | split | with_reducible apply invScanNext_calm | with_reducible apply modBoot_calm | with_reducible apply modPicker_calm | with_reducible apply resetScanNext_calm))
    | (with_reducible apply calm_foldl; intro s x h)
    | (intro _ _ _; try dsimp only)
    | with_reducible rfl
    | exact Kept.refl _ _
    | exact Kept.same rfl rfl (fun _ => rfl) rfl rfl
    | exact le_max_left _ _
    | exact le_rfl
    | exact OrdersOf.refl _
    | exact OrdersOf.filter _ _
    | exact FilingsOf.refl _
    | exact FilingsOf.filter _ _
    | (intro x; exact ⟨rfl, id⟩)
    | (intro x; simp [Filing.pendingConsent]; done)
    | exact (List.length_filter_le _ _).trans (le_max_left _ _)
    | exact List.length_filter_le _ _
    | (refine OrdersOf.map _ _ fun o => ?_)
    | split
    | (intro o; rfl)
    | (show Order.key _ = Order.key _; rfl)
    | (simp [Retained.kept]; done)
    | (simp_all [Config.transferCapacity, Config.workCapacity]; omega))

theorem phaseStatus_calm {kd : Kind} {s0 s : State} (hc : Calm kd s0 s) (st : PickerStatus) : Calm kd s0 (phaseStatus s st) := by
  unfold phaseStatus
  try dsimp only []
  repeat' (first
    | with_reducible assumption
    | (first | exact fun _ => Occupant.noConfusion | exact fun h => h | exact fun _ h => h | exact Quiet.same rfl rfl | exact Quiet.other rfl rfl | exact PickerQuiet.same rfl rfl)
    | with_reducible apply armDone_calm
    | with_reducible apply modPicker_calm
    | (with_reducible apply calm_set; focus (first | with_reducible assumption | split | with_reducible apply armDone_calm | with_reducible apply modPicker_calm))
    | (with_reducible apply calm_foldl; intro s x h)
    | (intro _ _ _; try dsimp only)
    | with_reducible rfl
    | exact Kept.refl _ _
    | exact Kept.same rfl rfl (fun _ => rfl) rfl rfl
    | exact le_max_left _ _
    | exact le_rfl
    | exact OrdersOf.refl _
    | exact OrdersOf.filter _ _
    | exact FilingsOf.refl _
    | exact FilingsOf.filter _ _
    | (intro x; exact ⟨rfl, id⟩)
    | (intro x; simp [Filing.pendingConsent]; done)
    | exact (List.length_filter_le _ _).trans (le_max_left _ _)
    | exact List.length_filter_le _ _
    | (refine OrdersOf.map _ _ fun o => ?_)
    | split
    | (intro o; rfl)
    | (show Order.key _ = Order.key _; rfl)
    | (simp [Retained.kept]; done)
    | (simp_all [Config.transferCapacity, Config.workCapacity]; omega))

theorem pickerStatusOp_calm {kd : Kind} {s0 s : State} (hc : Calm kd s0 s) (st : PickerStatus) (why : Why) : Calm kd s0 (pickerStatusOp s st why) := by
  unfold pickerStatusOp
  try dsimp only []
  repeat' (first
    | with_reducible assumption
    | (first | exact fun _ => Occupant.noConfusion | exact fun h => h | exact fun _ h => h | exact Quiet.same rfl rfl | exact Quiet.other rfl rfl | exact PickerQuiet.same rfl rfl)
    | with_reducible apply brokenAnswered_calm
    | with_reducible apply modPicker_calm
    | with_reducible apply phaseStatus_calm
    | with_reducible apply pickerFault_calm
    | with_reducible apply routineStatus_calm
    | with_reducible apply scanFailed_calm
    | (with_reducible apply calm_set; focus (first | with_reducible assumption | split | with_reducible apply brokenAnswered_calm | with_reducible apply modPicker_calm | with_reducible apply phaseStatus_calm | with_reducible apply pickerFault_calm | with_reducible apply routineStatus_calm | with_reducible apply scanFailed_calm))
    | (with_reducible apply calm_foldl; intro s x h)
    | (intro _ _ _; try dsimp only)
    | with_reducible rfl
    | exact Kept.refl _ _
    | exact Kept.same rfl rfl (fun _ => rfl) rfl rfl
    | exact le_max_left _ _
    | exact le_rfl
    | exact OrdersOf.refl _
    | exact OrdersOf.filter _ _
    | exact FilingsOf.refl _
    | exact FilingsOf.filter _ _
    | (intro x; exact ⟨rfl, id⟩)
    | (intro x; simp [Filing.pendingConsent]; done)
    | exact (List.length_filter_le _ _).trans (le_max_left _ _)
    | exact List.length_filter_le _ _
    | (refine OrdersOf.map _ _ fun o => ?_)
    | split
    | (intro o; rfl)
    | (show Order.key _ = Order.key _; rfl)
    | (simp [Retained.kept]; done)
    | (simp_all [Config.transferCapacity, Config.workCapacity]; omega))

theorem pickerCommandTaken_calm {kd : Kind} {s0 s : State} (hc : Calm kd s0 s) (cmd : BayCmd) : Calm kd s0 (pickerCommandTaken s cmd) := by
  unfold pickerCommandTaken
  try dsimp only []
  repeat' (first
    | with_reducible assumption
    | (first | exact fun _ => Occupant.noConfusion | exact fun h => h | exact fun _ h => h | exact Quiet.same rfl rfl | exact Quiet.other rfl rfl | exact PickerQuiet.same rfl rfl)
    | with_reducible apply modPicker_calm
    | (with_reducible apply calm_set; focus (first | with_reducible assumption | split | with_reducible apply modPicker_calm))
    | (with_reducible apply calm_foldl; intro s x h)
    | (intro _ _ _; try dsimp only)
    | with_reducible rfl
    | exact Kept.refl _ _
    | exact Kept.same rfl rfl (fun _ => rfl) rfl rfl
    | exact le_max_left _ _
    | exact le_rfl
    | exact OrdersOf.refl _
    | exact OrdersOf.filter _ _
    | exact FilingsOf.refl _
    | exact FilingsOf.filter _ _
    | (intro x; exact ⟨rfl, id⟩)
    | (intro x; simp [Filing.pendingConsent]; done)
    | exact (List.length_filter_le _ _).trans (le_max_left _ _)
    | exact List.length_filter_le _ _
    | (refine OrdersOf.map _ _ fun o => ?_)
    | split
    | (intro o; rfl)
    | (show Order.key _ = Order.key _; rfl)
    | (simp [Retained.kept]; done)
    | (simp_all [Config.transferCapacity, Config.workCapacity]; omega))

theorem pickerCommandFailed_calm {kd : Kind} {s0 s : State} (hc : Calm kd s0 s) (e : BayEntry) : Calm kd s0 (pickerCommandFailed s e) := by
  unfold pickerCommandFailed
  try dsimp only []
  repeat' (first
    | with_reducible assumption
    | (first | exact fun _ => Occupant.noConfusion | exact fun h => h | exact fun _ h => h | exact Quiet.same rfl rfl | exact Quiet.other rfl rfl | exact PickerQuiet.same rfl rfl)
    | with_reducible apply brokenAnswered_calm
    | with_reducible apply dropQueued_calm
    | with_reducible apply modPicker_calm
    | with_reducible apply pickerFault_calm
    | with_reducible apply reportPickerFault_calm
    | with_reducible apply scanFailed_calm
    | (with_reducible apply calm_set; focus (first | with_reducible assumption | split | with_reducible apply brokenAnswered_calm | with_reducible apply dropQueued_calm | with_reducible apply modPicker_calm | with_reducible apply pickerFault_calm | with_reducible apply reportPickerFault_calm | with_reducible apply scanFailed_calm))
    | (with_reducible apply calm_foldl; intro s x h)
    | (intro _ _ _; try dsimp only)
    | with_reducible rfl
    | exact Kept.refl _ _
    | exact Kept.same rfl rfl (fun _ => rfl) rfl rfl
    | exact le_max_left _ _
    | exact le_rfl
    | exact OrdersOf.refl _
    | exact OrdersOf.filter _ _
    | exact FilingsOf.refl _
    | exact FilingsOf.filter _ _
    | (intro x; exact ⟨rfl, id⟩)
    | (intro x; simp [Filing.pendingConsent]; done)
    | exact (List.length_filter_le _ _).trans (le_max_left _ _)
    | exact List.length_filter_le _ _
    | (refine OrdersOf.map _ _ fun o => ?_)
    | split
    | (intro o; rfl)
    | (show Order.key _ = Order.key _; rfl)
    | (simp [Retained.kept]; done)
    | (simp_all [Config.transferCapacity, Config.workCapacity]; omega))

theorem doorStatusOp_calm {kd : Kind} {s0 s : State} (hc : Calm kd s0 s) (m : Nat) (st : DoorStatus) (why : Why) : Calm kd s0 (doorStatusOp s m st why) := by
  unfold doorStatusOp
  try dsimp only []
  repeat' (first
    | with_reducible assumption
    | (first | exact fun _ => Occupant.noConfusion | exact fun h => h | exact fun _ h => h | exact Quiet.same rfl rfl | exact Quiet.other rfl rfl | exact PickerQuiet.same rfl rfl)
    | with_reducible apply doorReport_calm
    | with_reducible apply doorSet_calm
    | with_reducible apply invDoorDone_calm
    | (with_reducible apply calm_set; focus (first | with_reducible assumption | split | with_reducible apply doorReport_calm | with_reducible apply doorSet_calm | with_reducible apply invDoorDone_calm))
    | (with_reducible apply calm_foldl; intro s x h)
    | (intro _ _ _; try dsimp only)
    | with_reducible rfl
    | exact Kept.refl _ _
    | exact Kept.same rfl rfl (fun _ => rfl) rfl rfl
    | exact le_max_left _ _
    | exact le_rfl
    | exact OrdersOf.refl _
    | exact OrdersOf.filter _ _
    | exact FilingsOf.refl _
    | exact FilingsOf.filter _ _
    | (intro x; exact ⟨rfl, id⟩)
    | (intro x; simp [Filing.pendingConsent]; done)
    | exact (List.length_filter_le _ _).trans (le_max_left _ _)
    | exact List.length_filter_le _ _
    | (refine OrdersOf.map _ _ fun o => ?_)
    | split
    | (intro o; rfl)
    | (show Order.key _ = Order.key _; rfl)
    | (simp [Retained.kept]; done)
    | (simp_all [Config.transferCapacity, Config.workCapacity]; omega))

theorem doorCommandTaken_calm {kd : Kind} {s0 s : State} (hc : Calm kd s0 s) (m : Nat) (cmd : BayCmd) : Calm kd s0 (doorCommandTaken s m cmd) := by
  unfold doorCommandTaken
  try dsimp only []
  repeat' (first
    | with_reducible assumption
    | (first | exact fun _ => Occupant.noConfusion | exact fun h => h | exact fun _ h => h | exact Quiet.same rfl rfl | exact Quiet.other rfl rfl | exact PickerQuiet.same rfl rfl)
    | with_reducible apply modMail_calm
    | (with_reducible apply calm_set; focus (first | with_reducible assumption | split | with_reducible apply modMail_calm))
    | (with_reducible apply calm_foldl; intro s x h)
    | (intro _ _ _; try dsimp only)
    | with_reducible rfl
    | exact Kept.refl _ _
    | exact Kept.same rfl rfl (fun _ => rfl) rfl rfl
    | exact le_max_left _ _
    | exact le_rfl
    | exact OrdersOf.refl _
    | exact OrdersOf.filter _ _
    | exact FilingsOf.refl _
    | exact FilingsOf.filter _ _
    | (intro x; exact ⟨rfl, id⟩)
    | (intro x; simp [Filing.pendingConsent]; done)
    | exact (List.length_filter_le _ _).trans (le_max_left _ _)
    | exact List.length_filter_le _ _
    | (refine OrdersOf.map _ _ fun o => ?_)
    | split
    | (intro o; rfl)
    | (show Order.key _ = Order.key _; rfl)
    | (simp [Retained.kept]; done)
    | (simp_all [Config.transferCapacity, Config.workCapacity]; omega))

theorem doorCommandFailed_calm {kd : Kind} {s0 s : State} (hc : Calm kd s0 s) (m : Nat) (e : BayEntry) : Calm kd s0 (doorCommandFailed s m e) := by
  unfold doorCommandFailed
  try dsimp only []
  repeat' (first
    | with_reducible assumption
    | (first | exact fun _ => Occupant.noConfusion | exact fun h => h | exact fun _ h => h | exact Quiet.same rfl rfl | exact Quiet.other rfl rfl | exact PickerQuiet.same rfl rfl)
    | with_reducible apply doorFault_calm
    | with_reducible apply dropQueued_calm
    | with_reducible apply invDoorDone_calm
    | (with_reducible apply calm_set; focus (first | with_reducible assumption | split | with_reducible apply doorFault_calm | with_reducible apply dropQueued_calm | with_reducible apply invDoorDone_calm))
    | (with_reducible apply calm_foldl; intro s x h)
    | (intro _ _ _; try dsimp only)
    | with_reducible rfl
    | exact Kept.refl _ _
    | exact Kept.same rfl rfl (fun _ => rfl) rfl rfl
    | exact le_max_left _ _
    | exact le_rfl
    | exact OrdersOf.refl _
    | exact OrdersOf.filter _ _
    | exact FilingsOf.refl _
    | exact FilingsOf.filter _ _
    | (intro x; exact ⟨rfl, id⟩)
    | (intro x; simp [Filing.pendingConsent]; done)
    | exact (List.length_filter_le _ _).trans (le_max_left _ _)
    | exact List.length_filter_le _ _
    | (refine OrdersOf.map _ _ fun o => ?_)
    | split
    | (intro o; rfl)
    | (show Order.key _ = Order.key _; rfl)
    | (simp [Retained.kept]; done)
    | (simp_all [Config.transferCapacity, Config.workCapacity]; omega))

theorem homeRule_calm {kd : Kind} {s0 s t : State} (hc : Calm kd s0 s) (e : (homeRule s) = some t) : Calm kd s0 t := by
  unfold homeRule at e
  try dsimp only [] at e
  (repeat' split at e) <;> simp only [Option.map_eq_some_iff, Option.bind_eq_some_iff, Option.some.injEq, reduceCtorEq] at e
  all_goals (first | (subst e) | (obtain ⟨_, _, rfl⟩ := e) | (obtain ⟨_, _, _, _, rfl⟩ := e) | skip)
  all_goals try dsimp only
  all_goals
    repeat' (first
      | with_reducible assumption
      | (first | exact fun _ => Occupant.noConfusion | exact fun h => h | exact fun _ h => h | exact Quiet.same rfl rfl | exact Quiet.other rfl rfl | exact PickerQuiet.same rfl rfl)
      | with_reducible apply rebuildReject_calm
      | with_reducible apply requestHome_calm
      | with_reducible apply requestTransfer_calm
      | (with_reducible apply calm_set; focus (first | with_reducible assumption | split | with_reducible apply rebuildReject_calm | with_reducible apply requestHome_calm | with_reducible apply requestTransfer_calm))
      | (with_reducible apply calm_foldl; intro s x h)
      | (intro _ _ _; try dsimp only)
      | with_reducible rfl
      | exact Kept.refl _ _
      | exact Kept.same rfl rfl (fun _ => rfl) rfl rfl
      | exact le_max_left _ _
      | exact le_rfl
      | exact OrdersOf.refl _
      | exact OrdersOf.filter _ _
      | exact FilingsOf.refl _
      | exact FilingsOf.filter _ _
      | (intro x; exact ⟨rfl, id⟩)
      | (intro x; simp [Filing.pendingConsent]; done)
      | exact (List.length_filter_le _ _).trans (le_max_left _ _)
      | exact List.length_filter_le _ _
      | (refine OrdersOf.map _ _ fun o => ?_)
      | split
      | (intro o; rfl)
      | (show Order.key _ = Order.key _; rfl)
      | (simp [Retained.kept]; done)
      | (simp_all [Config.transferCapacity, Config.workCapacity]; omega))

theorem exportAgainRule_calm {kd : Kind} {s0 s t : State} (hc : Calm kd s0 s) (e : (exportAgainRule s) = some t) : Calm kd s0 t := by
  unfold exportAgainRule at e
  try dsimp only [] at e
  (repeat' split at e) <;> simp only [Option.map_eq_some_iff, Option.bind_eq_some_iff, Option.some.injEq, reduceCtorEq] at e
  all_goals (first | (subst e) | (obtain ⟨_, _, rfl⟩ := e) | (obtain ⟨_, _, _, _, rfl⟩ := e) | skip)
  all_goals try dsimp only
  all_goals
    repeat' (first
      | with_reducible assumption
      | (first | exact fun _ => Occupant.noConfusion | exact fun h => h | exact fun _ h => h | exact Quiet.same rfl rfl | exact Quiet.other rfl rfl | exact PickerQuiet.same rfl rfl)
      | with_reducible apply requestTransfer_calm
      | (with_reducible apply calm_set; focus (first | with_reducible assumption | split | with_reducible apply requestTransfer_calm))
      | (with_reducible apply calm_foldl; intro s x h)
      | (intro _ _ _; try dsimp only)
      | with_reducible rfl
      | exact Kept.refl _ _
      | exact Kept.same rfl rfl (fun _ => rfl) rfl rfl
      | exact le_max_left _ _
      | exact le_rfl
      | exact OrdersOf.refl _
      | exact OrdersOf.filter _ _
      | exact FilingsOf.refl _
      | exact FilingsOf.filter _ _
      | (intro x; exact ⟨rfl, id⟩)
      | (intro x; simp [Filing.pendingConsent]; done)
      | exact (List.length_filter_le _ _).trans (le_max_left _ _)
      | exact List.length_filter_le _ _
      | (refine OrdersOf.map _ _ fun o => ?_)
      | split
      | (intro o; rfl)
      | (show Order.key _ = Order.key _; rfl)
      | (simp [Retained.kept]; done)
      | (simp_all [Config.transferCapacity, Config.workCapacity]; omega))

end Sys2Proof.Machine
end

