-- ==== Sys2Proof/Laws/ScheduleCalm.lean ====
section
/-! SUPPORT. Each operation of Machine/Schedule.lean is calm. -/

set_option linter.unusedTactic false
set_option linter.unreachableTactic false
set_option linter.unusedSimpArgs false

namespace Sys2Proof.Machine

theorem heldRule_calm {kd : Kind} {s0 s t : State} (hc : Calm kd s0 s) (e : (heldRule s) = some t) : Calm kd s0 t := by
  unfold heldRule at e
  try dsimp only [] at e
  (repeat' split at e) <;> simp only [Option.map_eq_some_iff, Option.bind_eq_some_iff, Option.some.injEq, reduceCtorEq] at e
  all_goals (first | (subst e) | (obtain ⟨_, _, rfl⟩ := e) | (obtain ⟨_, _, _, _, rfl⟩ := e) | skip)
  all_goals try dsimp only
  all_goals
    repeat' (first
      | with_reducible assumption
      | (first | exact fun h => h | exact fun _ h => h | exact Quiet.same rfl rfl | exact Quiet.other rfl rfl | exact PickerQuiet.same rfl rfl)
      | with_reducible apply createFileItem_calm
      | with_reducible apply createInspectItem_calm
      | (with_reducible apply calm_set; focus (first | with_reducible assumption | split | with_reducible apply createFileItem_calm | with_reducible apply createInspectItem_calm))
      | (with_reducible apply calm_foldl; intro s x h)
      | (intro _ _ _; try dsimp only)
      | with_reducible rfl
      | exact Kept.refl _ _
      | exact Kept.same rfl rfl (fun _ => rfl) rfl rfl
      | exact le_max_left _ _
      | exact le_rfl
      | exact OrdersOf.refl _
      | exact OrdersOf.filter _ _
      | exact FilingsOf.refl _
      | exact FilingsOf.filter _ _
      | (intro x; exact ⟨rfl, id⟩)
      | (intro x; simp [Filing.pendingConsent]; done)
      | exact (List.length_filter_le _ _).trans (le_max_left _ _)
      | exact List.length_filter_le _ _
      | (refine OrdersOf.map _ _ fun o => ?_)
      | split
      | (intro o; rfl)
      | (show Order.key _ = Order.key _; rfl)
      | (simp [Retained.kept]; done)
      | (simp_all [Config.transferCapacity, Config.workCapacity]; omega))

theorem inspectRule_calm {kd : Kind} {s0 s t : State} (hc : Calm kd s0 s) (e : (inspectRule s) = some t) : Calm kd s0 t := by
  unfold inspectRule at e
  try dsimp only [] at e
  (repeat' split at e) <;> simp only [Option.map_eq_some_iff, Option.bind_eq_some_iff, Option.some.injEq, reduceCtorEq] at e
  all_goals (first | (subst e) | (obtain ⟨_, _, rfl⟩ := e) | (obtain ⟨_, _, _, _, rfl⟩ := e) | skip)
  all_goals try dsimp only
  all_goals
    repeat' (first
      | with_reducible assumption
      | (first | exact fun h => h | exact fun _ h => h | exact Quiet.same rfl rfl | exact Quiet.other rfl rfl | exact PickerQuiet.same rfl rfl)
      | with_reducible apply createInspectItem_calm
      | with_reducible apply modPicker_calm
      | (with_reducible apply calm_set; focus (first | with_reducible assumption | split | with_reducible apply createInspectItem_calm | with_reducible apply modPicker_calm))
      | (with_reducible apply calm_foldl; intro s x h)
      | (intro _ _ _; try dsimp only)
      | with_reducible rfl
      | exact Kept.refl _ _
      | exact Kept.same rfl rfl (fun _ => rfl) rfl rfl
      | exact le_max_left _ _
      | exact le_rfl
      | exact OrdersOf.refl _
      | exact OrdersOf.filter _ _
      | exact FilingsOf.refl _
      | exact FilingsOf.filter _ _
      | (intro x; exact ⟨rfl, id⟩)
      | (intro x; simp [Filing.pendingConsent]; done)
      | exact (List.length_filter_le _ _).trans (le_max_left _ _)
      | exact List.length_filter_le _ _
      | (refine OrdersOf.map _ _ fun o => ?_)
      | split
      | (intro o; rfl)
      | (show Order.key _ = Order.key _; rfl)
      | (simp [Retained.kept]; done)
      | (simp_all [Config.transferCapacity, Config.workCapacity]; omega))

theorem chainRule_calm {kd : Kind} {s0 s t : State} (hc : Calm kd s0 s) (e : (chainRule s) = some t) : Calm kd s0 t := by
  unfold chainRule at e
  try dsimp only [] at e
  (repeat' split at e) <;> simp only [Option.map_eq_some_iff, Option.bind_eq_some_iff, Option.some.injEq, reduceCtorEq] at e
  all_goals (first | (subst e) | (obtain ⟨_, _, rfl⟩ := e) | (obtain ⟨_, _, _, _, rfl⟩ := e) | skip)
  all_goals try dsimp only
  all_goals
    repeat' (first
      | with_reducible assumption
      | (first | exact fun h => h | exact fun _ h => h | exact Quiet.same rfl rfl | exact Quiet.other rfl rfl | exact PickerQuiet.same rfl rfl)
      | with_reducible apply giveDrive_calm
      | with_reducible apply modDrive_calm
      | (with_reducible apply calm_set; focus (first | with_reducible assumption | split | with_reducible apply giveDrive_calm | with_reducible apply modDrive_calm))
      | (with_reducible apply calm_foldl; intro s x h)
      | (intro _ _ _; try dsimp only)
      | with_reducible rfl
      | exact Kept.refl _ _
      | exact Kept.same rfl rfl (fun _ => rfl) rfl rfl
      | exact le_max_left _ _
      | exact le_rfl
      | exact OrdersOf.refl _
      | exact OrdersOf.filter _ _
      | exact FilingsOf.refl _
      | exact FilingsOf.filter _ _
      | (intro x; exact ⟨rfl, id⟩)
      | (intro x; simp [Filing.pendingConsent]; done)
      | exact (List.length_filter_le _ _).trans (le_max_left _ _)
      | exact List.length_filter_le _ _
      | (refine OrdersOf.map _ _ fun o => ?_)
      | split
      | (intro o; rfl)
      | (show Order.key _ = Order.key _; rfl)
      | (simp [Retained.kept]; done)
      | (simp_all [Config.transferCapacity, Config.workCapacity]; omega))

theorem assignRule_calm {kd : Kind} {s0 s t : State} (hc : Calm kd s0 s) (e : (assignRule s) = some t) : Calm kd s0 t := by
  unfold assignRule at e
  try dsimp only [] at e
  (repeat' split at e) <;> simp only [Option.map_eq_some_iff, Option.bind_eq_some_iff, Option.some.injEq, reduceCtorEq] at e
  all_goals (first | (subst e) | (obtain ⟨_, _, rfl⟩ := e) | (obtain ⟨_, _, _, _, rfl⟩ := e) | skip)
  all_goals try dsimp only
  all_goals
    repeat' (first
      | with_reducible assumption
      | (first | exact fun h => h | exact fun _ h => h | exact Quiet.same rfl rfl | exact Quiet.other rfl rfl | exact PickerQuiet.same rfl rfl)
      | with_reducible apply giveDrive_calm
      | (with_reducible apply calm_set; focus (first | with_reducible assumption | split | with_reducible apply giveDrive_calm))
      | (with_reducible apply calm_foldl; intro s x h)
      | (intro _ _ _; try dsimp only)
      | with_reducible rfl
      | exact Kept.refl _ _
      | exact Kept.same rfl rfl (fun _ => rfl) rfl rfl
      | exact le_max_left _ _
      | exact le_rfl
      | exact OrdersOf.refl _
      | exact OrdersOf.filter _ _
      | exact FilingsOf.refl _
      | exact FilingsOf.filter _ _
      | (intro x; exact ⟨rfl, id⟩)
      | (intro x; simp [Filing.pendingConsent]; done)
      | exact (List.length_filter_le _ _).trans (le_max_left _ _)
      | exact List.length_filter_le _ _
      | (refine OrdersOf.map _ _ fun o => ?_)
      | split
      | (intro o; rfl)
      | (show Order.key _ = Order.key _; rfl)
      | (simp [Retained.kept]; done)
      | (simp_all [Config.transferCapacity, Config.workCapacity]; omega))

theorem abandonRemount_calm {kd : Kind} {s0 s : State} (hc : Calm kd s0 s) (d : Nat) : Calm kd s0 (abandonRemount s d) := by
  unfold abandonRemount
  try dsimp only []
  repeat' (first
    | with_reducible assumption
    | (first | exact fun h => h | exact fun _ h => h | exact Quiet.same rfl rfl | exact Quiet.other rfl rfl | exact PickerQuiet.same rfl rfl)
    | with_reducible apply undoMount_calm
    | (with_reducible apply calm_set; focus (first | with_reducible assumption | split | with_reducible apply undoMount_calm))
    | (with_reducible apply calm_foldl; intro s x h)
    | (intro _ _ _; try dsimp only)
    | with_reducible rfl
    | exact Kept.refl _ _
    | exact Kept.same rfl rfl (fun _ => rfl) rfl rfl
    | exact le_max_left _ _
    | exact le_rfl
    | exact OrdersOf.refl _
    | exact OrdersOf.filter _ _
    | exact FilingsOf.refl _
    | exact FilingsOf.filter _ _
    | (intro x; exact ⟨rfl, id⟩)
    | (intro x; simp [Filing.pendingConsent]; done)
    | exact (List.length_filter_le _ _).trans (le_max_left _ _)
    | exact List.length_filter_le _ _
    | (refine OrdersOf.map _ _ fun o => ?_)
    | split
    | (intro o; rfl)
    | (show Order.key _ = Order.key _; rfl)
    | (simp [Retained.kept]; done)
    | (simp_all [Config.transferCapacity, Config.workCapacity]; omega))

theorem findSome_calm {kd : Kind} {s0 t : State} {f : Nat → Option State} {l : List Nat}
    (hf : ∀ d t, f d = some t → Calm kd s0 t) (e : l.findSome? f = some t) : Calm kd s0 t := by
  obtain ⟨d, _, hd⟩ := List.exists_of_findSome?_eq_some e
  exact hf d t hd

theorem preemptOn_calm {kd : Kind} {s0 s t : State} (h : Calm kd s0 s) (d : Nat) (e : preemptOn s d = some t) :
    Calm kd s0 t := by
  unfold preemptOn at e
  obtain ⟨i, _, e⟩ := Option.bind_eq_some_iff.1 e
  split at e
  · obtain ⟨u, _, rfl⟩ := Option.map_eq_some_iff.1 e
    exact giveDrive_calm (yieldItem_calm (abandonRemount_calm h d) _) _ _
  · cases e

theorem preemptRule_calm {kd : Kind} {s0 s t : State} (h : Calm kd s0 s) (e : preemptRule s = some t) : Calm kd s0 t :=
  findSome_calm (fun d _ => preemptOn_calm h d) e

theorem askDismount_calm {kd : Kind} {s0 s t : State} (hc : Calm kd s0 s) (i : Item) (d : Nat) (e : (askDismount s i d) = some t) : Calm kd s0 t := by
  unfold askDismount at e
  try dsimp only [] at e
  (repeat' split at e) <;> simp only [Option.map_eq_some_iff, Option.bind_eq_some_iff, Option.some.injEq, reduceCtorEq] at e
  all_goals (first | (subst e) | (obtain ⟨_, _, rfl⟩ := e) | (obtain ⟨_, _, _, _, rfl⟩ := e) | skip)
  all_goals try dsimp only
  all_goals
    repeat' (first
      | with_reducible assumption
      | (first | exact fun h => h | exact fun _ h => h | exact Quiet.same rfl rfl | exact Quiet.other rfl rfl | exact PickerQuiet.same rfl rfl)
      | with_reducible apply requestTransfer_calm
      | (with_reducible apply calm_set; focus (first | with_reducible assumption | split | with_reducible apply requestTransfer_calm))
      | (with_reducible apply calm_foldl; intro s x h)
      | (intro _ _ _; try dsimp only)
      | with_reducible rfl
      | exact Kept.refl _ _
      | exact Kept.same rfl rfl (fun _ => rfl) rfl rfl
      | exact le_max_left _ _
      | exact le_rfl
      | exact OrdersOf.refl _
      | exact OrdersOf.filter _ _
      | exact FilingsOf.refl _
      | exact FilingsOf.filter _ _
      | (intro x; exact ⟨rfl, id⟩)
      | (intro x; simp [Filing.pendingConsent]; done)
      | exact (List.length_filter_le _ _).trans (le_max_left _ _)
      | exact List.length_filter_le _ _
      | (refine OrdersOf.map _ _ fun o => ?_)
      | split
      | (intro o; rfl)
      | (show Order.key _ = Order.key _; rfl)
      | (simp [Retained.kept]; done)
      | (simp_all [Config.transferCapacity, Config.workCapacity]; omega))

theorem askMount_calm {kd : Kind} {s0 s t : State} (hc : Calm kd s0 s) (i : Item) (d : Nat) (e : (askMount s i d) = some t) : Calm kd s0 t := by
  unfold askMount at e
  try dsimp only [] at e
  (repeat' split at e) <;> simp only [Option.map_eq_some_iff, Option.bind_eq_some_iff, Option.some.injEq, reduceCtorEq] at e
  all_goals (first | (subst e) | (obtain ⟨_, _, rfl⟩ := e) | (obtain ⟨_, _, _, _, rfl⟩ := e) | skip)
  all_goals try dsimp only
  all_goals
    repeat' (first
      | with_reducible assumption
      | (first | exact fun h => h | exact fun _ h => h | exact Quiet.same rfl rfl | exact Quiet.other rfl rfl | exact PickerQuiet.same rfl rfl)
      | with_reducible apply requestTransfer_calm
      | (with_reducible apply calm_set; focus (first | with_reducible assumption | split | with_reducible apply requestTransfer_calm))
      | (with_reducible apply calm_foldl; intro s x h)
      | (intro _ _ _; try dsimp only)
      | with_reducible rfl
      | exact Kept.refl _ _
      | exact Kept.same rfl rfl (fun _ => rfl) rfl rfl
      | exact le_max_left _ _
      | exact le_rfl
      | exact OrdersOf.refl _
      | exact OrdersOf.filter _ _
      | exact FilingsOf.refl _
      | exact FilingsOf.filter _ _
      | (intro x; exact ⟨rfl, id⟩)
      | (intro x; simp [Filing.pendingConsent]; done)
      | exact (List.length_filter_le _ _).trans (le_max_left _ _)
      | exact List.length_filter_le _ _
      | (refine OrdersOf.map _ _ fun o => ?_)
      | split
      | (intro o; rfl)
      | (show Order.key _ = Order.key _; rfl)
      | (simp [Retained.kept]; done)
      | (simp_all [Config.transferCapacity, Config.workCapacity]; omega))

theorem faceStep_calm {kd : Kind} {s0 s t : State} (h : Calm kd s0 s) (i : Item) (d : Nat) (e : faceStep s i d = some t) :
    Calm kd s0 t := by
  unfold faceStep at e
  dsimp only at e
  split at e
  · split at e
    · obtain rfl := Option.some.inj e
      split
      · exact beginRemount_calm h _
      · exact beginMount_calm h _
    · cases e
  · split at e
    · split at e
      · cases e
      · exact askMount_calm h _ _ e
    · split at e
      · cases e
      · split at e
        · exact askDismount_calm h _ _ e
        · cases e

theorem faceOn_calm {kd : Kind} {s0 s t : State} (h : Calm kd s0 s) (d : Nat) (e : faceOn s d = some t) : Calm kd s0 t := by
  unfold faceOn at e
  obtain ⟨i, _, e⟩ := Option.bind_eq_some_iff.1 e
  split at e
  · exact faceStep_calm h _ _ e
  · cases e

theorem faceRule_calm {kd : Kind} {s0 s t : State} (h : Calm kd s0 s) (e : faceRule s = some t) : Calm kd s0 t :=
  findSome_calm (fun d _ => faceOn_calm h d) e

theorem startWrite_calm {kd : Kind} {s0 s : State} (hc : Calm kd s0 s) (i : Item) (f : Filing) (n d hi : Nat)
    (hn : (s.side n).state = .opened) : Calm kd s0 (startWrite s i f n d hi) := by
  unfold startWrite
  try dsimp only []
  repeat' (first
    | with_reducible assumption
    | (first | exact .inl rfl | exact fun h => h | exact fun _ h => h | exact Quiet.same rfl rfl | exact Quiet.other rfl rfl | exact PickerQuiet.same rfl rfl)
    | with_reducible apply claimBurst_calm
    | with_reducible apply driveOp_calm
    | with_reducible apply modDrive_calm
    | with_reducible apply modItem_calm
    | (with_reducible apply calm_set; focus (first | with_reducible assumption | split | with_reducible apply claimBurst_calm | with_reducible apply driveOp_calm | with_reducible apply modDrive_calm | with_reducible apply modItem_calm))
    | (with_reducible apply calm_foldl; intro s x h)
    | (intro _ _ _; try dsimp only)
    | with_reducible rfl
    | exact Kept.refl _ _
    | exact Kept.same rfl rfl (fun _ => rfl) rfl rfl
    | exact le_max_left _ _
    | exact le_rfl
    | exact OrdersOf.refl _
    | exact OrdersOf.filter _ _
    | exact FilingsOf.refl _
    | exact FilingsOf.filter _ _
    | (intro x; exact ⟨rfl, id⟩)
    | (intro x; simp [Filing.pendingConsent]; done)
    | exact (List.length_filter_le _ _).trans (le_max_left _ _)
    | exact List.length_filter_le _ _
    | (refine OrdersOf.map _ _ fun o => ?_)
    | split
    | (intro o; rfl)
    | (show Order.key _ = Order.key _; rfl)
    | (simp [Retained.kept]; done)
    | (simp_all [Config.transferCapacity, Config.workCapacity]; omega))

theorem startCommit_calm {kd : Kind} {s0 s : State} (hc : Calm kd s0 s) (i : Item) (f : Filing) (n d : Nat) : Calm kd s0 (startCommit s i f n d) := by
  unfold startCommit
  try dsimp only []
  repeat' (first
    | with_reducible assumption
    | (first | exact .inl rfl | exact fun h => h | exact fun _ h => h | exact Quiet.same rfl rfl | exact Quiet.other rfl rfl | exact PickerQuiet.same rfl rfl)
    | with_reducible apply decide__calm
    | with_reducible apply modDrive_calm
    | with_reducible apply modFiling_calm
    | with_reducible apply modItem_calm
    | with_reducible apply relocateFiling_calm
    | with_reducible apply sendCommit_calm
    | (with_reducible apply calm_set; focus (first | with_reducible assumption | split | with_reducible apply decide__calm | with_reducible apply modDrive_calm | with_reducible apply modFiling_calm | with_reducible apply modItem_calm | with_reducible apply relocateFiling_calm | with_reducible apply sendCommit_calm))
    | (with_reducible apply calm_foldl; intro s x h)
    | (intro _ _ _; try dsimp only)
    | with_reducible rfl
    | exact Kept.refl _ _
    | exact Kept.same rfl rfl (fun _ => rfl) rfl rfl
    | exact le_max_left _ _
    | exact le_rfl
    | exact OrdersOf.refl _
    | exact OrdersOf.filter _ _
    | exact FilingsOf.refl _
    | exact FilingsOf.filter _ _
    | (intro x; exact ⟨rfl, id⟩)
    | (intro x; simp [Filing.pendingConsent]; done)
    | exact (List.length_filter_le _ _).trans (le_max_left _ _)
    | exact List.length_filter_le _ _
    | (refine OrdersOf.map _ _ fun o => ?_)
    | split
    | (intro o; rfl)
    | (show Order.key _ = Order.key _; rfl)
    | (simp [Retained.kept]; done)
    | (simp_all [Config.transferCapacity, Config.workCapacity]; omega))

theorem askFile_calm {kd : Kind} {s0 s : State} (hc : Calm kd s0 s) (i : Item) (d : Nat) : Calm kd s0 (askFile s i d) := by
  unfold askFile
  split
  · split
    · exact beginLabelWrite_calm hc _ _ _ fun _ => LabelJob.noConfusion
    · split
      · exact recheckOn_calm hc _ _ _
      · next hn =>
        split
        · exact startWrite_calm hc _ _ _ _ _ (not_not.1 hn)
        · exact startCommit_calm hc _ _ _ _
  · exact endItem_calm hc _

theorem askBurst_calm {kd : Kind} {s0 s : State} (hc : Calm kd s0 s) (i : Item) (d : Nat) : Calm kd s0 (askBurst s i d) := by
  unfold askBurst
  try dsimp only []
  repeat' (first
    | with_reducible assumption
    | (first | exact fun h => h | exact fun _ h => h | exact Quiet.same rfl rfl | exact Quiet.other rfl rfl | exact PickerQuiet.same rfl rfl)
    | with_reducible apply askCopy_calm
    | with_reducible apply askFetch_calm
    | with_reducible apply askFile_calm
    | (with_reducible apply calm_set; focus (first | with_reducible assumption | split | with_reducible apply askCopy_calm | with_reducible apply askFetch_calm | with_reducible apply askFile_calm))
    | (with_reducible apply calm_foldl; intro s x h)
    | (intro _ _ _; try dsimp only)
    | with_reducible rfl
    | exact Kept.refl _ _
    | exact Kept.same rfl rfl (fun _ => rfl) rfl rfl
    | exact le_max_left _ _
    | exact le_rfl
    | exact OrdersOf.refl _
    | exact OrdersOf.filter _ _
    | exact FilingsOf.refl _
    | exact FilingsOf.filter _ _
    | (intro x; exact ⟨rfl, id⟩)
    | (intro x; simp [Filing.pendingConsent]; done)
    | exact (List.length_filter_le _ _).trans (le_max_left _ _)
    | exact List.length_filter_le _ _
    | (refine OrdersOf.map _ _ fun o => ?_)
    | split
    | (intro o; rfl)
    | (show Order.key _ = Order.key _; rfl)
    | (simp [Retained.kept]; done)
    | (simp_all [Config.transferCapacity, Config.workCapacity]; omega))

theorem startRead_calm {kd : Kind} {s0 s : State} (hc : Calm kd s0 s) (i : Item) (d : Nat) (c : Claim) : Calm kd s0 (startRead s i d c) := by
  unfold startRead
  try dsimp only []
  repeat' (first
    | with_reducible assumption
    | (first | exact fun v => v.map _ fun c => by split <;> exact ⟨rfl, rfl, rfl, rfl⟩ | exact fun h => h | exact fun _ h => h | exact Quiet.same rfl rfl | exact Quiet.other rfl rfl | exact PickerQuiet.same rfl rfl)
    | with_reducible apply endBurst_calm
    | with_reducible apply modDrive_calm
    | with_reducible apply modItem_calm
    | with_reducible apply readBurstEnd_calm
    | with_reducible apply sendRead_calm
    | (with_reducible apply calm_set; focus (first | with_reducible assumption | split | with_reducible apply endBurst_calm | with_reducible apply modDrive_calm | with_reducible apply modItem_calm | with_reducible apply readBurstEnd_calm | with_reducible apply sendRead_calm))
    | (with_reducible apply calm_foldl; intro s x h)
    | (intro _ _ _; try dsimp only)
    | with_reducible rfl
    | exact Kept.refl _ _
    | exact Kept.same rfl rfl (fun _ => rfl) rfl rfl
    | exact le_max_left _ _
    | exact le_rfl
    | exact OrdersOf.refl _
    | exact OrdersOf.filter _ _
    | exact FilingsOf.refl _
    | exact FilingsOf.filter _ _
    | (intro x; exact ⟨rfl, id⟩)
    | (intro x; simp [Filing.pendingConsent]; done)
    | exact (List.length_filter_le _ _).trans (le_max_left _ _)
    | exact List.length_filter_le _ _
    | (refine OrdersOf.map _ _ fun o => ?_)
    | split
    | (intro o; rfl)
    | (show Order.key _ = Order.key _; rfl)
    | (simp [Retained.kept]; done)
    | (simp_all [Config.transferCapacity, Config.workCapacity]; omega))

theorem burstOn_calm {kd : Kind} {s0 s t : State} (h : Calm kd s0 s) (d : Nat) (e : burstOn s d = some t) : Calm kd s0 t := by
  unfold burstOn at e
  obtain ⟨i, _, e⟩ := Option.bind_eq_some_iff.1 e
  split at e
  · obtain rfl := Option.some.inj e
    split
    · split
      · exact parkItem_calm h _
      · exact startRead_calm h _ _ _
    · exact askBurst_calm h _ _
  · cases e

theorem burstRule_calm {kd : Kind} {s0 s t : State} (h : Calm kd s0 s) (e : burstRule s = some t) : Calm kd s0 t :=
  findSome_calm (fun d _ => burstOn_calm h d) e

theorem firstWaiting_spec {s : State} {c : Claim} (h : firstWaiting s = some c) : c ∈ s.claims ∧ c.owner.isFiling = false := by
  obtain ⟨i, -, hf⟩ := List.exists_of_findSome?_eq_some h
  have hm := List.mem_of_find?_eq_some hf
  have hx := List.find?_some hf
  simp only [Bool.and_eq_true, beq_iff_eq] at hx
  exact ⟨hm, by rw [hx.1]; rfl⟩

theorem claimRule_calm {kd : Kind} {s0 s t : State} (hc : Calm kd s0 s) (e : claimRule s = some t) : Calm kd s0 t := by
  unfold claimRule at e
  split at e
  · cases e
  · next c hw =>
    obtain ⟨hm, ho⟩ := firstWaiting_spec hw
    split at e
    · cases e
    · obtain rfl := Option.some.inj e
      have h := calm_set hc s.mode s.ret s.boot s.line s.lastWasControl s.dropped s.work s.heldReqs
        (s.claims.map fun (x : Claim) => if x.id = c.id then { x with blocks := some ((freeBlocks s).take c.size), live := (freeBlocks s).take c.size } else x)
        s.drives s.labelFailed s.picker s.bay s.fetches s.fetchTurn s.filings s.fileCount s.fileLine s.reserved s.orders s.acceptCount
        s.port s.nextId rfl (Kept.refl _ _) rfl rfl (le_max_left _ _) le_rfl (FilingsOf.refl _) (le_max_left _ _) (OrdersOf.refl _)
        (fun v => v.grant c.id c.size fun x hx he => by rw [List.inj_on_of_nodup_map v.ids hx hm he]; exact ho) id (fun _ => id) fun _ => id
      split
      · exact modItem_calm h _ _
      · exact h

end Sys2Proof.Machine
end

