-- ==== Sys2Proof/Laws/HostLink.lean ====
section
/-! SUPPORT. What a frame that arrives comes to: the request's kind byte, the checks of R191 on an admitted request, the reply's
place. Cited in place of unfolding the Host Link Unit. -/

namespace Sys2Proof.Machine

/-- An event on a powered board. -/
theorem whenPowered_eq {s : State} {f : State → State} (hp : s.powered = true) : whenPowered s f = f s := by
  simp [whenPowered, hp]

/-- A kind byte names its kind (R200). -/
theorem reqKindOf_byte (k : ReqKind) : reqKindOf k.byte = some k := by cases k <;> decide

/-- Every request frame of a known kind goes the same way. -/
theorem exec_request {c : Instr} {k : ReqKind} {h : Hdr} {b : List Byte} (hc : requestOf c = some (k, h, b)) (s : State) :
    exec c s = .next (arriveKind s k h b) := by
  cases c <;> simp only [requestOf, Option.some.injEq, Prod.mk.injEq, reduceCtorEq] at hc <;> obtain ⟨rfl, rfl, rfl⟩ := hc <;>
    rfl

theorem gate_admitted {s : State} {k : ReqKind} {h : Hdr} {b : List Byte} (ha : Admitted s k h b) :
    gate s k h b = none := by
  obtain ⟨_, hm, hst, hsup, hl⟩ := ha
  unfold gate
  by_cases hk : k = .status
  · subst hk
    simp [hl, lengthOk, Nat.not_lt.mpr hst, ReqKind.maintenanceClass]
  · obtain ⟨h1, h2⟩ := hm hk
    by_cases hc : k ∈ ReqKind.maintenanceClass <;> simp [h1, h2, hl, lengthOk, Nat.not_lt.mpr hst, hc, hsup]

/-- With a Reply Queue place free and the receiver hunting, a good frame is taken at once (R192). -/
theorem arriveFrame_taken {s : State} (kind : Byte) (h : Hdr) (body : List Byte) (ha : LinkTakes s) :
    arriveFrame s kind h body = takeRequest s kind h body := by
  obtain ⟨hp, hw, hx, hr⟩ := ha
  simp [arriveFrame, arrive, takeArrival, hp, hw, hx, Nat.not_le.mpr hr]

theorem arriveKind_taken {s : State} (k : ReqKind) (h : Hdr) (body : List Byte) (ha : LinkTakes s) :
    arriveKind s k h body = takeKnown s k h body := by
  rw [arriveKind, arriveFrame_taken _ _ _ ha, takeRequest, reqKindOf_byte]

/-- An admitted request reaches its owner, and the reply joins the control order. -/
theorem arriveKind_admitted {s : State} {k : ReqKind} {h : Hdr} {b : List Byte} (ha : Admitted s k h b) :
    arriveKind s k h b =
      (if k.simple then pumpLine else settle) (putReply (dispatch k s h.tag h.station.toNat b) k.byte h) := by
  rw [arriveKind_taken _ _ _ ha.1]
  simp only [takeKnown, gate_admitted ha]
  by_cases hs : k.simple <;> simp [hs]

theorem arriveKind_settles {s : State} {k : ReqKind} {h : Hdr} {b : List Byte} (ha : Admitted s k h b) (hs : k.simple = false) :
    arriveKind s k h b = settle (putReply (dispatch k s h.tag h.station.toNat b) k.byte h) := by
  rw [arriveKind_admitted ha, hs]
  rfl

theorem arriveKind_pumps {s : State} {k : ReqKind} {h : Hdr} {b : List Byte} (ha : Admitted s k h b) (hs : k.simple = true) :
    arriveKind s k h b = pumpLine (putReply (dispatch k s h.tag h.station.toNat b) k.byte h) := by
  rw [arriveKind_admitted ha, hs]
  rfl

/-- A request that fails a check of R191 is refused with it and changes nothing else. -/
theorem arriveKind_gated {s : State} {k : ReqKind} {h : Hdr} {b : List Byte} {code : RefCode} {fields : List Byte}
    (ha : LinkTakes s) (hg : gate s k h b = some (code, fields)) :
    arriveKind s k h b = pumpLine (refusedAs s h k code fields) := by
  rw [arriveKind_taken _ _ _ ha]
  simp only [takeKnown, hg]
  rfl

/-! ### The four answers of an owner, as the state they leave -/

theorem putReply_refuse (s : State) (k : ReqKind) (h : Hdr) (c : RefCode) (f : List Byte) :
    putReply (refuse s c f) k.byte h = refusedAs s h k c f := rfl
theorem putReply_done (s t : State) (k : ReqKind) (h : Hdr) (f : List Byte) :
    putReply (done s t f) k.byte h = replied s t h k .done f := rfl
theorem putReply_accepted (s t : State) (k : ReqKind) (h : Hdr) (f : List Byte) :
    putReply (accepted s t f) k.byte h = replied s t h k .accepted f := rfl
theorem putReply_refuseAfter (s t : State) (k : ReqKind) (h : Hdr) (c : RefCode) (f : List Byte) :
    putReply (refuseAfter s t c f) k.byte h = replied s t h k (.refused c) f := rfl

end Sys2Proof.Machine
end

