-- ==== Sys2Proof/Laws/Layout.lean ====
section
/-! SUPPORT. Numbers, fields and the check value: what is written by `be` is read by `numAt`, at every offset, and a byte's
step of the CRC taken bit by bit. -/

namespace Sys2Proof.Machine

/-! ### Numbers -/

@[simp] theorem be_length (k n) : (be k n).length = k := by simp [be]

theorem beNat_append (a b : List Byte) : beNat (a ++ b) = beNat a * 256 ^ b.length + beNat b := by
  unfold beNat
  rw [List.foldl_append]
  have : ∀ (l : List Byte) (x : Nat), l.foldl (fun acc b => acc * 256 + b.toNat) x = x * 256 ^ l.length + l.foldl (fun acc b => acc * 256 + b.toNat) 0 := by
    intro l
    induction l with
    | nil => intro x; simp
    | cons c l ih =>
      intro x
      simp only [List.foldl_cons, List.length_cons]
      rw [ih, ih (0 * 256 + c.toNat)]
      ring
  exact this _ _

theorem be_succ (k n : Nat) : be (k + 1) n = be k (n / 256) ++ [BitVec.ofNat 8 n] := by
  unfold be
  rw [List.range_succ, List.map_append]
  congr 1
  · apply List.map_congr_left
    intro i hi
    have : i < k := List.mem_range.1 hi
    rw [Nat.div_div_eq_div_mul]
    congr 2
    rw [← Nat.pow_succ']
    congr 1; omega
  · simp

/-- The number written is the number read. -/
theorem beNat_be : ∀ (k n : Nat), n < 256 ^ k → beNat (be k n) = n
  | 0, n, h => by simp at h; subst h; rfl
  | k + 1, n, h => by
    rw [be_succ, beNat_append, beNat_be k (n / 256) (by rw [Nat.div_lt_iff_lt_mul (by decide)]; rwa [Nat.pow_succ] at h)]
    simp [beNat]
    omega

theorem beNat_lt (l : List Byte) : beNat l < 256 ^ l.length := by
  have : ∀ (l : List Byte) (a : Nat), l.foldl (fun acc b => acc * 256 + b.toNat) a < (a + 1) * 256 ^ l.length := by
    intro l
    induction l with
    | nil => intro a; simp
    | cons b l ih =>
      intro a
      have := ih (a * 256 + b.toNat)
      have hb := b.isLt
      simp only [List.foldl_cons, List.length_cons]
      calc _ < _ := this
        _ ≤ _ := by
          rw [Nat.pow_succ]
          have : a * 256 + b.toNat + 1 ≤ (a + 1) * 256 := by omega
          calc _ ≤ (a+1) * 256 * 256 ^ l.length := Nat.mul_le_mul_right _ this
            _ = _ := by ring
  have := this l 0
  simp only [Nat.zero_add, Nat.one_mul] at this
  exact this

/-- A field of `k` bytes lies below 256 to the `k`. -/
theorem numAt_lt (b : List Byte) (o k : Nat) : numAt b o k < 256 ^ k := by
  have := beNat_lt (sliceOf b o k)
  have h2 : (sliceOf b o k).length ≤ k := by simp [sliceOf]
  exact lt_of_lt_of_le this (Nat.pow_le_pow_right (by decide) h2)

/-! ### Fields -/

theorem slice_at {a b c : List Byte} {o l : Nat} (ho : a.length = o) (hl : b.length = l) : sliceOf (a ++ (b ++ c)) o l = b := by
  subst ho hl; simp [sliceOf]

/-- A field stands at its offset. -/
theorem numAt_be {a c : List Byte} {k n o : Nat} (ho : a.length = o) (hn : n < 256 ^ k) : numAt (a ++ (be k n ++ c)) o k = n := by
  rw [numAt, slice_at ho (be_length k n), beNat_be k n hn]

theorem sliceOf_append_right (a c : List Byte) (o l n : Nat) (h : a.length = n) (ho : n ≤ o) : sliceOf (a ++ c) o l = sliceOf c (o - n) l := by
  subst h; unfold sliceOf
  rw [List.drop_append, List.drop_eq_nil_of_le ho, List.nil_append]

theorem numAt_skip (a c : List Byte) (o l n : Nat) (h : a.length = n) (ho : n ≤ o) : numAt (a ++ c) o l = numAt c (o - n) l := by
  unfold numAt; rw [sliceOf_append_right a c o l n h ho]

theorem numAt_be_first (c : List Byte) (k n : Nat) (hn : n < 256 ^ k) : numAt (be k n ++ c) 0 k = n := numAt_be (a := []) rfl hn

theorem numAt_be_whole (k n : Nat) (hn : n < 256 ^ k) : numAt (be k n) 0 k = n := by have := numAt_be_first [] k n hn; simpa using this

theorem numAt_skip_be (k n : Nat) (c : List Byte) (o l : Nat) (h : k ≤ o) : numAt (be k n ++ c) o l = numAt c (o - k) l := numAt_skip _ _ _ _ _ (be_length _ _) h

theorem numAt_skip_flag (b : Bool) (c : List Byte) (o l : Nat) (h : 1 ≤ o) : numAt (flag b ++ c) o l = numAt c (o - 1) l := numAt_skip _ _ _ _ _ rfl h

theorem numAt_flag (b : Bool) (c : List Byte) : numAt (flag b ++ c) 0 1 = if b then 1 else 0 := by cases b <;> rfl

theorem numAt_flag_whole (b : Bool) : numAt (flag b) 0 1 = if b then 1 else 0 := by cases b <;> rfl

theorem word32_toNat_lt (r : Word32) : r.toNat < 256 ^ 4 := by have := r.isLt; omega

theorem word16_toNat_lt (r : Word16) : r.toNat < 256 ^ 2 := by have := r.isLt; omega

/-! ### Lists of numbers -/

theorem pairBytes_length (l) : (pairBytes l).length = 2 * l.length := by
  induction l with
  | nil => rfl
  | cons x xs ih => simp [pairBytes] at ih ⊢; omega

theorem flatBe_length (k) (l : List Nat) : (l.flatMap (be k ·)).length = k * l.length := by
  induction l with
  | nil => rfl
  | cons x xs ih => simp [be_length, ih]; ring

theorem remapBytes_length (l : List (Nat × Nat)) : (l.flatMap fun e => be 2 e.1 ++ be 2 e.2).length = 4 * l.length := by
  induction l with
  | nil => rfl
  | cons x xs ih => simp [be_length, ih]; ring

/-- Page pairs read back. -/
theorem pairsAt_read (a c : List Byte) (l : List (Nat × Nat)) (o : Nat) (h : a.length = o) (hl : ∀ r ∈ l, r.1 < 256 ∧ r.2 < 256) :
    pairsAt (a ++ (pairBytes l ++ c)) o l.length = l := by
  unfold pairsAt
  apply List.ext_getElem
  · simp
  intro i h1 h2
  simp only [List.getElem_map, List.getElem_range]
  induction l generalizing a o i with
  | nil => simp at h2
  | cons x xs ih =>
    have e : a ++ (pairBytes (x :: xs) ++ c) = (a ++ (be 1 x.1 ++ be 1 x.2)) ++ (pairBytes xs ++ c) := by
      simp [pairBytes]
    rw [e]
    cases i with
    | zero =>
      obtain ⟨b1, b2⟩ := hl x (List.mem_cons_self ..)
      have e1 : (a ++ (be 1 x.1 ++ be 1 x.2)) ++ (pairBytes xs ++ c) = a ++ (be 1 x.1 ++ (be 1 x.2 ++ (pairBytes xs ++ c))) := by simp
      have e2 : (a ++ (be 1 x.1 ++ be 1 x.2)) ++ (pairBytes xs ++ c) = (a ++ be 1 x.1) ++ (be 1 x.2 ++ (pairBytes xs ++ c)) := by simp
      refine Prod.ext ?_ ?_
      · simp only [List.getElem_cons_zero]; rw [e1]; exact numAt_be (by simpa using h) (by omega)
      · simp only [List.getElem_cons_zero]; rw [e2]; exact numAt_be (by simp [be_length]; omega) (by omega)
    | succ i =>
      have := ih (a ++ (be 1 x.1 ++ be 1 x.2)) (o + 2) (by simp [be_length]; omega) (fun r hr => hl r (List.mem_cons_of_mem _ hr)) i (by simpa using h2) (by simpa using h2)
      simp only [List.getElem_cons_succ]
      rw [← this]
      simp only [show o + 2 * (i + 1) = o + 2 + 2 * i by ring]

/-- A list of numbers of `k` bytes reads back. -/
theorem flatBe_read (a c : List Byte) (k : Nat) (l : List Nat) (o : Nat) (h : a.length = o) (hl : ∀ r ∈ l, r < 256 ^ k) :
    ((List.range l.length).map fun i => numAt (a ++ (l.flatMap (be k ·) ++ c)) (o + k * i) k) = l := by
  apply List.ext_getElem
  · simp
  intro i h1 h2
  simp only [List.getElem_map, List.getElem_range]
  induction l generalizing a o i with
  | nil => simp at h2
  | cons x xs ih =>
    have e : a ++ ((x :: xs).flatMap (be k ·) ++ c) = (a ++ be k x) ++ (xs.flatMap (be k ·) ++ c) := by
      simp
    cases i with
    | zero =>
      simp only [List.getElem_cons_zero, List.flatMap_cons, List.append_assoc, Nat.mul_zero, Nat.add_zero]
      exact numAt_be h (hl x (List.mem_cons_self ..))
    | succ i =>
      rw [e]
      have := ih (a ++ be k x) (o + k) (by simp [be_length]; omega) (fun r hr => hl r (List.mem_cons_of_mem _ hr)) i (by simpa using h2) (by simpa using h2)
      simp only [List.getElem_cons_succ]
      rw [← this]
      simp only [show o + k * (i + 1) = o + k + k * i by ring]

theorem padTo_len (n : Nat) (bs : List Byte) (h : bs.length ≤ n) : (padTo n bs).length = n := by
  simp only [padTo, List.length_append, List.length_replicate]; omega

/-! ### The check value -/

/-- A bit's step on a register with `y` added: the register's own step, the polynomial by both top bits, and `y` shifted. -/
theorem crcBit_xor (x y : BitVec 16) :
    crcBit (x ^^^ y) = ((x <<< 1) ^^^ (if x.getLsbD 15 != y.getLsbD 15 then 0x1021#16 else 0#16)) ^^^ (y <<< 1) := by
  unfold crcBit
  have e : (x ^^^ y).getMsbD 0 = (x.getLsbD 15 != y.getLsbD 15) := by
    simp [BitVec.getMsbD_eq_getLsbD]
  have s : (x ^^^ y) <<< 1 = (x <<< 1) ^^^ (y <<< 1) := BitVec.shiftLeft_xor_distrib ..
  rw [e, s]
  split
  · rw [BitVec.xor_assoc, BitVec.xor_assoc, BitVec.xor_comm (y <<< 1)]
  · simp

/-- One byte's step of the CRC is eight steps of a 16-bit register, the byte's bits taken most significant first (R199). -/
theorem crcByte_bits (c : BitVec 16) (b : Byte) : crcByte c b = (List.range 8).foldl
    (fun (c : BitVec 16) (i : Nat) => (c <<< 1) ^^^ (if c.getLsbD 15 != b.getLsbD (7 - i) then 0x1021#16 else 0#16)) c := by
  simp only [crcByte, List.range_succ, List.range_zero, List.nil_append, List.cons_append, List.foldl_cons, List.foldl_nil,
    crcBit_xor]
  simp only [BitVec.getLsbD_shiftLeft, BitVec.getLsbD_setWidth, ← BitVec.shiftLeft_add]
  have z : (BitVec.zeroExtend 16 b) <<< 16 = 0#16 := by
    apply BitVec.eq_of_getLsbD_eq
    intro i hi
    simp
  simp

end Sys2Proof.Machine
end

