-- ==== Sys2Proof/Laws/Memory.lean ====
section
/-! SUPPORT. The Staging Store's memory: a byte written reads back, every other byte is as it was, and so for whole blocks.
(That each write keeps the canonical form stands in Calm.lean: `memWrite_wf`, `memWriteAll_wf`, `writeBlock_calm`.) -/

namespace Sys2Proof.Machine

/-- Below its lowest address a canonical memory reads as unlisted. -/
theorem memRead_below {m : List Host.Cell} : ∀ {lo a : Nat}, memWfFrom lo m = true → a < lo → memRead m a = stagingUnlisted := by
  induction m with
  | nil => intro lo a _ _; rfl
  | cons c rest ih =>
    obtain ⟨k, v⟩ := c
    intro lo a h ha
    simp only [memWfFrom, Bool.and_eq_true, decide_eq_true_eq] at h
    obtain ⟨⟨h1, _⟩, _⟩ := h
    simp only [memRead]
    rw [if_neg (by omega), if_pos (by omega)]

theorem memRead_memWrite {m : List Host.Cell} : ∀ {lo : Nat}, memWfFrom lo m = true → ∀ (a c : Nat) (b : Byte),
    memRead (memWrite m a b) c = if c = a then b else memRead m c := by
  induction m with
  | nil =>
    intro lo _ a c b
    simp only [memWrite]
    by_cases hb : b = stagingUnlisted
    · subst hb; simp [memRead]
    · simp only [if_neg hb, memRead, ite_self]
  | cons e rest ih =>
    obtain ⟨k, v⟩ := e
    intro lo h a c b
    simp only [memWfFrom, Bool.and_eq_true, decide_eq_true_eq] at h
    obtain ⟨⟨h1, h2⟩, h3⟩ := h
    have hlow : ∀ x, x ≤ k → memRead rest x = stagingUnlisted := fun x hx => memRead_below h3 (by omega)
    simp only [memWrite]
    by_cases hak : a < k
    · rw [if_pos hak]
      by_cases hb : b = stagingUnlisted
      · rw [if_pos hb]
        by_cases hc : c = a
        · subst hc; rw [if_pos rfl, hb]; simp only [memRead]; rw [if_neg (by omega), if_pos hak]
        · rw [if_neg hc]
      · rw [if_neg hb]
        by_cases hc : c = a
        · simp [memRead, hc]
        · rw [if_neg hc]
          simp only [memRead]
          rw [if_neg hc]
          by_cases hca : c < a
          · rw [if_pos hca, if_neg (by omega), if_pos (by omega)]
          · rw [if_neg hca]
    · rw [if_neg hak]
      by_cases hae : a = k
      · rw [if_pos hae]
        by_cases hb : b = stagingUnlisted
        · rw [if_pos hb]
          by_cases hc : c = a
          · rw [if_pos hc, hb]; exact hlow c (by omega)
          · rw [if_neg hc]
            simp only [memRead]
            rw [if_neg (by omega)]
            by_cases hck : c < k
            · rw [if_pos hck]; exact hlow c (by omega)
            · rw [if_neg hck]
        · rw [if_neg hb]
          simp only [memRead]
          by_cases hc : c = a
          · simp [hc]
          · subst hae
            rw [if_neg hc, if_neg hc, if_neg hc]
      · rw [if_neg hae]
        simp only [memRead]
        by_cases hck : c = k
        · rw [if_pos hck, if_neg (by omega), if_pos hck]
        · rw [if_neg hck, if_neg hck]
          by_cases hc : c < k
          · rw [if_pos hc, if_neg (by omega), if_pos hc]
          · rw [if_neg hc, if_neg hc]; exact ih h3 a c b

theorem memRead_memWriteAll : ∀ (bs : List Byte) (m : List Host.Cell) (a c : Nat), Memory.wf m = true →
    memRead (memWriteAll m a bs) c = if h : a ≤ c ∧ c < a + bs.length then bs[c - a]'(by omega) else memRead m c
  | [], m, a, c, _ => by simp [memWriteAll]
  | b :: bs, m, a, c, hw => by
    simp only [memWriteAll]
    rw [memRead_memWriteAll bs _ _ c (memWrite_wf m a b hw), memRead_memWrite hw]
    by_cases hc : c = a
    · subst hc
      simp
    · by_cases hr : a + 1 ≤ c ∧ c < a + 1 + bs.length
      · have h2 : a ≤ c ∧ c < a + (b :: bs).length := by simp; omega
        obtain ⟨i, hi⟩ : ∃ i, c = a + 1 + i := ⟨c - (a + 1), by omega⟩
        subst hi
        rw [dif_pos hr, dif_pos h2]
        simp only [show a + 1 + i - a = i + 1 by omega, show a + 1 + i - (a + 1) = i by omega, List.getElem_cons_succ]
      · have h2 : ¬(a ≤ c ∧ c < a + (b :: bs).length) := by simp; omega
        rw [dif_neg hr, dif_neg h2, if_neg hc]

/-- A byte outside block `b` reads as before. -/
theorem memRead_writeBlock_outside (s : State) (b c : Nat) (bytes : List Byte) (hw : Memory.wf s.mem = true)
    (hc : c < Config.blockBytes * b ∨ Config.blockBytes * b + Config.blockBytes ≤ c) :
    memRead (writeBlock s b bytes).mem c = memRead s.mem c := by
  unfold writeBlock
  rw [memRead_memWriteAll _ _ _ _ hw, dif_neg]
  have : (bytes.take Config.blockBytes).length ≤ Config.blockBytes := by simp
  omega

end Sys2Proof.Machine
end

