-- ==== Sys2Proof/Laws/PerInstr.lean ====
section
/-! SUPPORT. Facts about every command as syntax, one lemma per command. -/

namespace Sys2Proof.Laws.RequestFrames

open Sys2Proof.Machine

/-- A request frame has a kind byte that names its kind (R200), and in a well-formed one the body has at most 1,100 bytes
(R190). -/
abbrev Statement (i : Instr) : Prop :=
  ∀ (k : ReqKind) (h : Hdr) (b : List Byte), requestOf i = some (k, h, b) →
    reqKindOf k.byte = some k ∧ (i.wf = true → b.length ≤ 1100)

theorem of_body {i : Instr} {k : ReqKind} {h : Hdr} {b : List Byte} (e : requestOf i = some (k, h, b)) (w : i.wf = bodyOk b) :
    Statement i := by
  intro k' h' b' e'
  rw [e] at e'
  cases e'
  exact ⟨reqKindOf_byte k, fun hw => by rw [w] at hw; exact of_decide_eq_true hw⟩

theorem of_none {i : Instr} (e : requestOf i = none) : Statement i := fun _ _ _ e' => by
  rw [e] at e'
  cases e'

theorem powerOn (storeGood : Bool) : Statement (.powerOn storeGood) := of_none rfl
theorem clockSecond : Statement .clockSecond := of_none rfl
theorem consentDeadline (ref : Word32) : Statement (.consentDeadline ref) := of_none rfl
theorem status (h : Hdr) (body : List Byte) : Statement (.status h body) := of_body rfl rfl
theorem stationQuery (h : Hdr) (body : List Byte) : Statement (.stationQuery h body) := of_body rfl rfl
theorem paramsQuery (h : Hdr) (body : List Byte) : Statement (.paramsQuery h body) := of_body rfl rfl
theorem locate (h : Hdr) (body : List Byte) : Statement (.locate h body) := of_body rfl rfl
theorem sideQuery (h : Hdr) (body : List Byte) : Statement (.sideQuery h body) := of_body rfl rfl
theorem cartridgeQuery (h : Hdr) (body : List Byte) : Statement (.cartridgeQuery h body) := of_body rfl rfl
theorem slotQuery (h : Hdr) (body : List Byte) : Statement (.slotQuery h body) := of_body rfl rfl
theorem workQuery (h : Hdr) (body : List Byte) : Statement (.workQuery h body) := of_body rfl rfl
theorem filingQuery (h : Hdr) (body : List Byte) : Statement (.filingQuery h body) := of_body rfl rfl
theorem withheldQuery (h : Hdr) (body : List Byte) : Statement (.withheldQuery h body) := of_body rfl rfl
theorem copyQuery (h : Hdr) (body : List Byte) : Statement (.copyQuery h body) := of_body rfl rfl
theorem feeQuery (h : Hdr) (body : List Byte) : Statement (.feeQuery h body) := of_body rfl rfl
theorem accountQuery (h : Hdr) (body : List Byte) : Statement (.accountQuery h body) := of_body rfl rfl
theorem fetch (h : Hdr) (body : List Byte) : Statement (.fetch h body) := of_body rfl rfl
theorem copyOrder (h : Hdr) (body : List Byte) : Statement (.copyOrder h body) := of_body rfl rfl
theorem setParams (h : Hdr) (body : List Byte) : Statement (.setParams h body) := of_body rfl rfl
theorem stationSet (h : Hdr) (body : List Byte) : Statement (.stationSet h body) := of_body rfl rfl
theorem setClock (h : Hdr) (body : List Byte) : Statement (.setClock h body) := of_body rfl rfl
theorem feeSet (h : Hdr) (body : List Byte) : Statement (.feeSet h body) := of_body rfl rfl
theorem accountOpen (h : Hdr) (body : List Byte) : Statement (.accountOpen h body) := of_body rfl rfl
theorem accountLimit (h : Hdr) (body : List Byte) : Statement (.accountLimit h body) := of_body rfl rfl
theorem accountDeposit (h : Hdr) (body : List Byte) : Statement (.accountDeposit h body) := of_body rfl rfl
theorem accountWithdraw (h : Hdr) (body : List Byte) : Statement (.accountWithdraw h body) := of_body rfl rfl
theorem accountSuspend (h : Hdr) (body : List Byte) : Statement (.accountSuspend h body) := of_body rfl rfl
theorem accountResume (h : Hdr) (body : List Byte) : Statement (.accountResume h body) := of_body rfl rfl
theorem accountClose (h : Hdr) (body : List Byte) : Statement (.accountClose h body) := of_body rfl rfl
theorem tallyQuery (h : Hdr) (body : List Byte) : Statement (.tallyQuery h body) := of_body rfl rfl
theorem dayOpen (h : Hdr) (body : List Byte) : Statement (.dayOpen h body) := of_body rfl rfl
theorem dayClose (h : Hdr) (body : List Byte) : Statement (.dayClose h body) := of_body rfl rfl
theorem driveServiceOut (h : Hdr) (body : List Byte) : Statement (.driveServiceOut h body) := of_body rfl rfl
theorem driveServiceIn (h : Hdr) (body : List Byte) : Statement (.driveServiceIn h body) := of_body rfl rfl
theorem pickerReset (h : Hdr) (body : List Byte) : Statement (.pickerReset h body) := of_body rfl rfl
theorem slotDisable (h : Hdr) (body : List Byte) : Statement (.slotDisable h body) := of_body rfl rfl
theorem slotEnable (h : Hdr) (body : List Byte) : Statement (.slotEnable h body) := of_body rfl rfl
theorem exportCart (h : Hdr) (body : List Byte) : Statement (.exportCart h body) := of_body rfl rfl
theorem forget (h : Hdr) (body : List Byte) : Statement (.forget h body) := of_body rfl rfl
theorem closeSide (h : Hdr) (body : List Byte) : Statement (.closeSide h body) := of_body rfl rfl
theorem markFaulty (h : Hdr) (body : List Byte) : Statement (.markFaulty h body) := of_body rfl rfl
theorem rest (h : Hdr) (body : List Byte) : Statement (.rest h body) := of_body rfl rfl
theorem night (h : Hdr) (body : List Byte) : Statement (.night h body) := of_body rfl rfl
theorem wake (h : Hdr) (body : List Byte) : Statement (.wake h body) := of_body rfl rfl
theorem restart (h : Hdr) (body : List Byte) : Statement (.restart h body) := of_body rfl rfl
theorem fileBegin (h : Hdr) (body : List Byte) : Statement (.fileBegin h body) := of_body rfl rfl
theorem fileData (h : Hdr) (body : List Byte) : Statement (.fileData h body) := of_body rfl rfl
theorem fileEnd (h : Hdr) (body : List Byte) : Statement (.fileEnd h body) := of_body rfl rfl
theorem fileCancel (h : Hdr) (body : List Byte) : Statement (.fileCancel h body) := of_body rfl rfl
theorem consent (h : Hdr) (body : List Byte) : Statement (.consent h body) := of_body rfl rfl
theorem cancel (h : Hdr) (body : List Byte) : Statement (.cancel h body) := of_body rfl rfl
theorem unknownKindFrame (kind : Byte) (h : Hdr) (body : List Byte) : Statement (.unknownKindFrame kind h body) := of_none rfl
theorem badFrame (bytes : List Byte) : Statement (.badFrame bytes) := of_none rfl
theorem interbyteGap (next : Byte) : Statement (.interbyteGap next) := of_none rfl
theorem hostHoldOff (hold : Bool) : Statement (.hostHoldOff hold) := of_none rfl
theorem frameSent : Statement .frameSent := of_none rfl
theorem pageFrameSent : Statement .pageFrameSent := of_none rfl
theorem baySend (attention : Bool) : Statement (.baySend attention) := of_none rfl
theorem bayByteNak : Statement .bayByteNak := of_none rfl
theorem bayHoldTimeout : Statement .bayHoldTimeout := of_none rfl
theorem bayCommandTaken : Statement .bayCommandTaken := of_none rfl
theorem attentionPass : Statement .attentionPass := of_none rfl
theorem pickerStatusTaken (st : PickerStatus) : Statement (.pickerStatusTaken st) := of_none rfl
theorem driveStatusTaken (drive : Nat) (st : DriveStatus) : Statement (.driveStatusTaken drive st) := of_none rfl
theorem doorStatusTaken (mail : Nat) (st : DoorStatus) : Statement (.doorStatusTaken mail st) := of_none rfl
theorem transferTimeout : Statement .transferTimeout := of_none rfl
theorem spinUpTimeout (drive : Nat) : Statement (.spinUpTimeout drive) := of_none rfl
theorem idleTimeout (drive : Nat) : Statement (.idleTimeout drive) := of_none rfl
theorem answerTimeout : Statement .answerTimeout := of_none rfl
theorem sendPage : Statement .sendPage := of_none rfl
theorem pageEndSent : Statement .pageEndSent := of_none rfl
theorem printerAnswer (seq : Word16) (result : Byte) : Statement (.printerAnswer seq result) := of_none rfl
theorem printerStatus (state : Byte) : Statement (.printerStatus state) := of_none rfl
theorem printerFrameBad (bytes : List Byte) : Statement (.printerFrameBad bytes) := of_none rfl
theorem powerLoss : Statement .powerLoss := of_none rfl

end Sys2Proof.Laws.RequestFrames
end

