-- ==== Sys2Proof/Laws/SettleCalm.lean ====
section
/-! SUPPORT. The rules, the settle loop and the outgoing line are calm: what `settle` leaves alone, proved once. -/

namespace Sys2Proof.Machine

theorem lineControl_calm {kd : Kind} {s0 s : State} (hc : Calm kd s0 s) : Calm kd s0 (lineControl s) :=
  calm_set hc _ _ _ _ _ _ _ _ _ _ _ _ _ _ _ _ _ _ _ _ _ _ _ rfl (Kept.refl _ _) rfl rfl (le_max_left _ _) le_rfl (FilingsOf.refl _)
    (le_max_left _ _) (OrdersOf.refl _) id id (fun _ => id) fun _ => id

theorem linePage_calm {kd : Kind} {s0 s : State} (hc : Calm kd s0 s) (p : PageFrame) : Calm kd s0 (linePage s p) :=
  calm_set hc _ _ _ _ _ _ _ _ _ _ _ _ _ _ _ _ _ _ _ _ _ _ _ rfl (Kept.refl _ _) rfl rfl (le_max_left _ _) le_rfl (FilingsOf.refl _)
    (le_max_left _ _) (OrdersOf.refl _) id id (fun _ => id) fun _ => id

theorem pumpLine_calm {kd : Kind} {s0 s : State} (hc : Calm kd s0 s) : Calm kd s0 (pumpLine s) := by
  unfold pumpLine
  split
  · exact hc
  · split
    · exact linePage_calm hc _
    · split
      · exact linePage_calm hc _
      · exact lineControl_calm hc
    · exact lineControl_calm hc
    · exact hc

/-- A rule that is calm wherever it applies. -/
def CalmRule (kd : Kind) (r : State → Option State) : Prop :=
  ∀ s0 s t, Calm kd s0 s → r s = some t → Calm kd s0 t

theorem workRules_calm (kd : Kind) : ∀ r ∈ workRules, CalmRule kd r := by
  intro r hr s0 s t hc e
  simp only [workRules, List.mem_cons, List.not_mem_nil, or_false] at hr
  rcases hr with rfl | rfl | rfl | rfl | rfl | rfl | rfl | rfl
  · exact inventoryLostRule_calm hc e
  · exact heldRule_calm hc e
  · exact inspectRule_calm hc e
  · exact heldReleaseRule_calm hc e
  · exact fileCheckRule_calm hc e
  · exact portGrantRule_calm hc e
  · exact parkRule_calm hc e
  · exact unparkRule_calm hc e

theorem driveRules_calm (kd : Kind) : ∀ r ∈ driveRules, CalmRule kd r := by
  intro r hr s0 s t hc e
  simp only [driveRules, List.mem_cons, List.not_mem_nil, or_false] at hr
  rcases hr with rfl | rfl | rfl | rfl | rfl | rfl | rfl | rfl | rfl | rfl | rfl | rfl
  · exact findingRule_calm hc e
  · exact closedMarkRule_calm hc e
  · exact spinDownRule_calm hc e
  · exact leavingRule_calm hc e
  · exact releaseRule_calm hc e
  · exact homeRule_calm hc e
  · exact rebuildDriveRule_calm hc e
  · exact rebuildIdentifyRule_calm hc e
  · exact rebuildMountRule_calm hc e
  · exact rebuildStarvedRule_calm hc e
  · exact rebuildEndRule_calm hc e
  · exact exportAgainRule_calm hc e

theorem scheduleRules_calm (kd : Kind) : ∀ r ∈ scheduleRules, CalmRule kd r := by
  intro r hr s0 s t hc e
  simp only [scheduleRules, List.mem_cons, List.not_mem_nil, or_false] at hr
  rcases hr with rfl | rfl | rfl | rfl | rfl | rfl
  · exact claimRule_calm hc e
  · exact chainRule_calm hc e
  · exact assignRule_calm hc e
  · exact preemptRule_calm hc e
  · exact faceRule_calm hc e
  · exact burstRule_calm hc e

theorem pickerRules_calm (kd : Kind) : ∀ r ∈ pickerRules, CalmRule kd r := by
  intro r hr s0 s t hc e
  simp only [pickerRules, List.mem_cons, List.not_mem_nil, or_false] at hr
  rcases hr with rfl | rfl | rfl | rfl | rfl | rfl | rfl
  · exact admitRule_calm hc e
  · exact grantRule_calm hc e
  · exact sendRule_calm hc e
  · exact doorRule_calm hc e
  · exact parkPickerRule_calm hc e
  · exact fetchDoneRule_calm hc e
  · exact startEndRule_calm hc e

theorem rules_calm (kd : Kind) : ∀ r ∈ rules, CalmRule kd r := by
  intro r hr
  unfold rules at hr
  rcases List.mem_append.1 hr with hr | hr
  · rcases List.mem_append.1 hr with hr | hr
    · rcases List.mem_append.1 hr with hr | hr
      · exact workRules_calm kd r hr
      · exact driveRules_calm kd r hr
    · exact scheduleRules_calm kd r hr
  · exact pickerRules_calm kd r hr

theorem applyFirst_calm {kd : Kind} {s0 s t : State} (hc : Calm kd s0 s) : ∀ rs : List (State → Option State),
    (∀ r ∈ rs, CalmRule kd r) → applyFirst rs s = some t → Calm kd s0 t
  | [], _, e => by simp [applyFirst] at e
  | r :: rs, hr, e => by
    unfold applyFirst at e
    split at e
    · next u hu =>
      cases e
      exact hr r (List.mem_cons_self ..) s0 s _ hc hu
    · exact applyFirst_calm hc rs (fun x hx => hr x (List.mem_cons_of_mem _ hx)) e

theorem settleLoop_calm {kd : Kind} {s0 : State} : ∀ (n : Nat) (s : State), Calm kd s0 s → Calm kd s0 (settleLoop n s)
  | 0, _, hc => hc
  | n + 1, s, hc => by
    unfold settleLoop
    split
    · next t ht => exact settleLoop_calm n t (applyFirst_calm hc rules (rules_calm kd) ht)
    · exact hc

theorem settle_calm {kd : Kind} {s0 s : State} (hc : Calm kd s0 s) : Calm kd s0 (settle s) :=
  pumpLine_calm (settleLoop_calm _ _ hc)

end Sys2Proof.Machine
end

