-- ==== Sys2Proof/Laws/State.lean ====
section
/-! SUPPORT. One lemma per field per update: what a named update of State leaves of each field. All are true by rfl; with them
no proof unfolds a record update. -/

namespace Sys2Proof.Machine

/-! ### Tables numbered from 1 -/

theorem tget_tset {α : Type} (t : List α) (i j : Nat) (x d : α) :
    tget (tset t i x) j d = if i = j ∧ 1 ≤ i ∧ i ≤ t.length then x else tget t j d := by
  cases i with
  | zero => simp [tset]
  | succ i =>
    cases j with
    | zero => simp [tget]
    | succ j =>
      simp only [tget, tset, List.getD_eq_getElem?_getD, List.getElem?_set]
      by_cases h : i = j
      · subst h
        by_cases hl : i < t.length
        · simp [hl, Nat.succ_le_of_lt hl]
        · simp [hl]
      · simp [h]

@[simp] theorem tget_tset_self {α : Type} (t : List α) (i : Nat) (x d : α) (h : 1 ≤ i) (hl : i ≤ t.length) :
    tget (tset t i x) i d = x := by simp [tget_tset, h, hl]

@[simp] theorem tget_tset_ne {α : Type} (t : List α) (i j : Nat) (x d : α) (h : i ≠ j) :
    tget (tset t i x) j d = tget t j d := by simp [tget_tset, h]

/-! ### withQueue -/

@[simp] theorem State.withQueue_powered (s : State) (q : List Instr) : (s.withQueue q).powered = s.powered := rfl
@[simp] theorem State.withQueue_ret (s : State) (q : List Instr) : (s.withQueue q).ret = s.ret := rfl
@[simp] theorem State.withQueue_mode (s : State) (q : List Instr) : (s.withQueue q).mode = s.mode := rfl
@[simp] theorem State.withQueue_clock (s : State) (q : List Instr) : (s.withQueue q).clock = s.clock := rfl
@[simp] theorem State.withQueue_elapsed (s : State) (q : List Instr) : (s.withQueue q).elapsed = s.elapsed := rfl
@[simp] theorem State.withQueue_boot (s : State) (q : List Instr) : (s.withQueue q).boot = s.boot := rfl
@[simp] theorem State.withQueue_rx (s : State) (q : List Instr) : (s.withQueue q).rx = s.rx := rfl
@[simp] theorem State.withQueue_stations (s : State) (q : List Instr) : (s.withQueue q).stations = s.stations := rfl
@[simp] theorem State.withQueue_control (s : State) (q : List Instr) : (s.withQueue q).control = s.control := rfl
@[simp] theorem State.withQueue_line (s : State) (q : List Instr) : (s.withQueue q).line = s.line := rfl
@[simp] theorem State.withQueue_lastWasControl (s : State) (q : List Instr) :
    (s.withQueue q).lastWasControl = s.lastWasControl := rfl
@[simp] theorem State.withQueue_heldOff (s : State) (q : List Instr) : (s.withQueue q).heldOff = s.heldOff := rfl
@[simp] theorem State.withQueue_waiting (s : State) (q : List Instr) : (s.withQueue q).waiting = s.waiting := rfl
@[simp] theorem State.withQueue_dropped (s : State) (q : List Instr) : (s.withQueue q).dropped = s.dropped := rfl
@[simp] theorem State.withQueue_params (s : State) (q : List Instr) : (s.withQueue q).params = s.params := rfl
@[simp] theorem State.withQueue_work (s : State) (q : List Instr) : (s.withQueue q).work = s.work := rfl
@[simp] theorem State.withQueue_heldReqs (s : State) (q : List Instr) : (s.withQueue q).heldReqs = s.heldReqs := rfl
@[simp] theorem State.withQueue_mem (s : State) (q : List Instr) : (s.withQueue q).mem = s.mem := rfl
@[simp] theorem State.withQueue_claims (s : State) (q : List Instr) : (s.withQueue q).claims = s.claims := rfl
@[simp] theorem State.withQueue_drives (s : State) (q : List Instr) : (s.withQueue q).drives = s.drives := rfl
@[simp] theorem State.withQueue_labelFailed (s : State) (q : List Instr) : (s.withQueue q).labelFailed = s.labelFailed := rfl
@[simp] theorem State.withQueue_picker (s : State) (q : List Instr) : (s.withQueue q).picker = s.picker := rfl
@[simp] theorem State.withQueue_bay (s : State) (q : List Instr) : (s.withQueue q).bay = s.bay := rfl
@[simp] theorem State.withQueue_fetches (s : State) (q : List Instr) : (s.withQueue q).fetches = s.fetches := rfl
@[simp] theorem State.withQueue_fetchTurn (s : State) (q : List Instr) : (s.withQueue q).fetchTurn = s.fetchTurn := rfl
@[simp] theorem State.withQueue_filings (s : State) (q : List Instr) : (s.withQueue q).filings = s.filings := rfl
@[simp] theorem State.withQueue_fileCount (s : State) (q : List Instr) : (s.withQueue q).fileCount = s.fileCount := rfl
@[simp] theorem State.withQueue_fileLine (s : State) (q : List Instr) : (s.withQueue q).fileLine = s.fileLine := rfl
@[simp] theorem State.withQueue_reserved (s : State) (q : List Instr) : (s.withQueue q).reserved = s.reserved := rfl
@[simp] theorem State.withQueue_orders (s : State) (q : List Instr) : (s.withQueue q).orders = s.orders := rfl
@[simp] theorem State.withQueue_acceptCount (s : State) (q : List Instr) : (s.withQueue q).acceptCount = s.acceptCount := rfl
@[simp] theorem State.withQueue_port (s : State) (q : List Instr) : (s.withQueue q).port = s.port := rfl
@[simp] theorem State.withQueue_nextId (s : State) (q : List Instr) : (s.withQueue q).nextId = s.nextId := rfl
@[simp] theorem State.withQueue_pending (s : State) (q : List Instr) : (s.withQueue q).pending = q := rfl
@[simp] theorem State.withQueue_side (s : State) (q : List Instr) (k : Nat) : (s.withQueue q).side k = s.side k := rfl
@[simp] theorem State.withQueue_cart (s : State) (q : List Instr) (k : Nat) : (s.withQueue q).cart k = s.cart k := rfl
@[simp] theorem State.withQueue_slot (s : State) (q : List Instr) (k : Nat) : (s.withQueue q).slot k = s.slot k := rfl
@[simp] theorem State.withQueue_account (s : State) (q : List Instr) (k : Nat) : (s.withQueue q).account k = s.account k := rfl
@[simp] theorem State.withQueue_drive (s : State) (q : List Instr) (k : Nat) : (s.withQueue q).drive k = s.drive k := rfl
@[simp] theorem State.withQueue_mail (s : State) (q : List Instr) (k : Nat) : (s.withQueue q).mail k = s.mail k := rfl

/-! ### retain -/

@[simp] theorem State.retain_powered (s : State) (f : Retained → Retained) : (s.retain f).powered = s.powered := rfl
@[simp] theorem State.retain_ret (s : State) (f : Retained → Retained) : (s.retain f).ret = f s.ret := rfl
@[simp] theorem State.retain_mode (s : State) (f : Retained → Retained) : (s.retain f).mode = s.mode := rfl
@[simp] theorem State.retain_clock (s : State) (f : Retained → Retained) : (s.retain f).clock = s.clock := rfl
@[simp] theorem State.retain_elapsed (s : State) (f : Retained → Retained) : (s.retain f).elapsed = s.elapsed := rfl
@[simp] theorem State.retain_boot (s : State) (f : Retained → Retained) : (s.retain f).boot = s.boot := rfl
@[simp] theorem State.retain_rx (s : State) (f : Retained → Retained) : (s.retain f).rx = s.rx := rfl
@[simp] theorem State.retain_stations (s : State) (f : Retained → Retained) : (s.retain f).stations = s.stations := rfl
@[simp] theorem State.retain_control (s : State) (f : Retained → Retained) : (s.retain f).control = s.control := rfl
@[simp] theorem State.retain_line (s : State) (f : Retained → Retained) : (s.retain f).line = s.line := rfl
@[simp] theorem State.retain_lastWasControl (s : State) (f : Retained → Retained) :
    (s.retain f).lastWasControl = s.lastWasControl := rfl
@[simp] theorem State.retain_heldOff (s : State) (f : Retained → Retained) : (s.retain f).heldOff = s.heldOff := rfl
@[simp] theorem State.retain_waiting (s : State) (f : Retained → Retained) : (s.retain f).waiting = s.waiting := rfl
@[simp] theorem State.retain_dropped (s : State) (f : Retained → Retained) : (s.retain f).dropped = s.dropped := rfl
@[simp] theorem State.retain_params (s : State) (f : Retained → Retained) : (s.retain f).params = s.params := rfl
@[simp] theorem State.retain_work (s : State) (f : Retained → Retained) : (s.retain f).work = s.work := rfl
@[simp] theorem State.retain_heldReqs (s : State) (f : Retained → Retained) : (s.retain f).heldReqs = s.heldReqs := rfl
@[simp] theorem State.retain_mem (s : State) (f : Retained → Retained) : (s.retain f).mem = s.mem := rfl
@[simp] theorem State.retain_claims (s : State) (f : Retained → Retained) : (s.retain f).claims = s.claims := rfl
@[simp] theorem State.retain_drives (s : State) (f : Retained → Retained) : (s.retain f).drives = s.drives := rfl
@[simp] theorem State.retain_labelFailed (s : State) (f : Retained → Retained) : (s.retain f).labelFailed = s.labelFailed := rfl
@[simp] theorem State.retain_picker (s : State) (f : Retained → Retained) : (s.retain f).picker = s.picker := rfl
@[simp] theorem State.retain_bay (s : State) (f : Retained → Retained) : (s.retain f).bay = s.bay := rfl
@[simp] theorem State.retain_fetches (s : State) (f : Retained → Retained) : (s.retain f).fetches = s.fetches := rfl
@[simp] theorem State.retain_fetchTurn (s : State) (f : Retained → Retained) : (s.retain f).fetchTurn = s.fetchTurn := rfl
@[simp] theorem State.retain_filings (s : State) (f : Retained → Retained) : (s.retain f).filings = s.filings := rfl
@[simp] theorem State.retain_fileCount (s : State) (f : Retained → Retained) : (s.retain f).fileCount = s.fileCount := rfl
@[simp] theorem State.retain_fileLine (s : State) (f : Retained → Retained) : (s.retain f).fileLine = s.fileLine := rfl
@[simp] theorem State.retain_reserved (s : State) (f : Retained → Retained) : (s.retain f).reserved = s.reserved := rfl
@[simp] theorem State.retain_orders (s : State) (f : Retained → Retained) : (s.retain f).orders = s.orders := rfl
@[simp] theorem State.retain_acceptCount (s : State) (f : Retained → Retained) : (s.retain f).acceptCount = s.acceptCount := rfl
@[simp] theorem State.retain_port (s : State) (f : Retained → Retained) : (s.retain f).port = s.port := rfl
@[simp] theorem State.retain_nextId (s : State) (f : Retained → Retained) : (s.retain f).nextId = s.nextId := rfl
@[simp] theorem State.retain_pending (s : State) (f : Retained → Retained) : (s.retain f).pending = s.pending := rfl

/-! ### setSide -/

@[simp] theorem State.setSide_powered (s : State) (n : Nat) (e : Side) : (s.setSide n e).powered = s.powered := rfl
@[simp] theorem State.setSide_ret (s : State) (n : Nat) (e : Side) :
    (s.setSide n e).ret = { s.ret with sides := tset s.ret.sides n e } := rfl
@[simp] theorem State.setSide_mode (s : State) (n : Nat) (e : Side) : (s.setSide n e).mode = s.mode := rfl
@[simp] theorem State.setSide_clock (s : State) (n : Nat) (e : Side) : (s.setSide n e).clock = s.clock := rfl
@[simp] theorem State.setSide_elapsed (s : State) (n : Nat) (e : Side) : (s.setSide n e).elapsed = s.elapsed := rfl
@[simp] theorem State.setSide_boot (s : State) (n : Nat) (e : Side) : (s.setSide n e).boot = s.boot := rfl
@[simp] theorem State.setSide_rx (s : State) (n : Nat) (e : Side) : (s.setSide n e).rx = s.rx := rfl
@[simp] theorem State.setSide_stations (s : State) (n : Nat) (e : Side) : (s.setSide n e).stations = s.stations := rfl
@[simp] theorem State.setSide_control (s : State) (n : Nat) (e : Side) : (s.setSide n e).control = s.control := rfl
@[simp] theorem State.setSide_line (s : State) (n : Nat) (e : Side) : (s.setSide n e).line = s.line := rfl
@[simp] theorem State.setSide_lastWasControl (s : State) (n : Nat) (e : Side) :
    (s.setSide n e).lastWasControl = s.lastWasControl := rfl
@[simp] theorem State.setSide_heldOff (s : State) (n : Nat) (e : Side) : (s.setSide n e).heldOff = s.heldOff := rfl
@[simp] theorem State.setSide_waiting (s : State) (n : Nat) (e : Side) : (s.setSide n e).waiting = s.waiting := rfl
@[simp] theorem State.setSide_dropped (s : State) (n : Nat) (e : Side) : (s.setSide n e).dropped = s.dropped := rfl
@[simp] theorem State.setSide_params (s : State) (n : Nat) (e : Side) : (s.setSide n e).params = s.params := rfl
@[simp] theorem State.setSide_work (s : State) (n : Nat) (e : Side) : (s.setSide n e).work = s.work := rfl
@[simp] theorem State.setSide_heldReqs (s : State) (n : Nat) (e : Side) : (s.setSide n e).heldReqs = s.heldReqs := rfl
@[simp] theorem State.setSide_mem (s : State) (n : Nat) (e : Side) : (s.setSide n e).mem = s.mem := rfl
@[simp] theorem State.setSide_claims (s : State) (n : Nat) (e : Side) : (s.setSide n e).claims = s.claims := rfl
@[simp] theorem State.setSide_drives (s : State) (n : Nat) (e : Side) : (s.setSide n e).drives = s.drives := rfl
@[simp] theorem State.setSide_labelFailed (s : State) (n : Nat) (e : Side) : (s.setSide n e).labelFailed = s.labelFailed := rfl
@[simp] theorem State.setSide_picker (s : State) (n : Nat) (e : Side) : (s.setSide n e).picker = s.picker := rfl
@[simp] theorem State.setSide_bay (s : State) (n : Nat) (e : Side) : (s.setSide n e).bay = s.bay := rfl
@[simp] theorem State.setSide_fetches (s : State) (n : Nat) (e : Side) : (s.setSide n e).fetches = s.fetches := rfl
@[simp] theorem State.setSide_fetchTurn (s : State) (n : Nat) (e : Side) : (s.setSide n e).fetchTurn = s.fetchTurn := rfl
@[simp] theorem State.setSide_filings (s : State) (n : Nat) (e : Side) : (s.setSide n e).filings = s.filings := rfl
@[simp] theorem State.setSide_fileCount (s : State) (n : Nat) (e : Side) : (s.setSide n e).fileCount = s.fileCount := rfl
@[simp] theorem State.setSide_fileLine (s : State) (n : Nat) (e : Side) : (s.setSide n e).fileLine = s.fileLine := rfl
@[simp] theorem State.setSide_reserved (s : State) (n : Nat) (e : Side) : (s.setSide n e).reserved = s.reserved := rfl
@[simp] theorem State.setSide_orders (s : State) (n : Nat) (e : Side) : (s.setSide n e).orders = s.orders := rfl
@[simp] theorem State.setSide_acceptCount (s : State) (n : Nat) (e : Side) : (s.setSide n e).acceptCount = s.acceptCount := rfl
@[simp] theorem State.setSide_port (s : State) (n : Nat) (e : Side) : (s.setSide n e).port = s.port := rfl
@[simp] theorem State.setSide_nextId (s : State) (n : Nat) (e : Side) : (s.setSide n e).nextId = s.nextId := rfl
@[simp] theorem State.setSide_pending (s : State) (n : Nat) (e : Side) : (s.setSide n e).pending = s.pending := rfl
@[simp] theorem State.setSide_cart (s : State) (n : Nat) (e : Side) (k : Nat) : (s.setSide n e).cart k = s.cart k := rfl
@[simp] theorem State.setSide_slot (s : State) (n : Nat) (e : Side) (k : Nat) : (s.setSide n e).slot k = s.slot k := rfl
@[simp] theorem State.setSide_account (s : State) (n : Nat) (e : Side) (k : Nat) : (s.setSide n e).account k = s.account k := rfl
@[simp] theorem State.setSide_drive (s : State) (n : Nat) (e : Side) (k : Nat) : (s.setSide n e).drive k = s.drive k := rfl
@[simp] theorem State.setSide_mail (s : State) (n : Nat) (e : Side) (k : Nat) : (s.setSide n e).mail k = s.mail k := rfl

/-! ### setCart -/

@[simp] theorem State.setCart_powered (s : State) (n : Nat) (e : Option Cart) : (s.setCart n e).powered = s.powered := rfl
@[simp] theorem State.setCart_ret (s : State) (n : Nat) (e : Option Cart) :
    (s.setCart n e).ret = { s.ret with carts := tset s.ret.carts n e } := rfl
@[simp] theorem State.setCart_mode (s : State) (n : Nat) (e : Option Cart) : (s.setCart n e).mode = s.mode := rfl
@[simp] theorem State.setCart_clock (s : State) (n : Nat) (e : Option Cart) : (s.setCart n e).clock = s.clock := rfl
@[simp] theorem State.setCart_elapsed (s : State) (n : Nat) (e : Option Cart) : (s.setCart n e).elapsed = s.elapsed := rfl
@[simp] theorem State.setCart_boot (s : State) (n : Nat) (e : Option Cart) : (s.setCart n e).boot = s.boot := rfl
@[simp] theorem State.setCart_rx (s : State) (n : Nat) (e : Option Cart) : (s.setCart n e).rx = s.rx := rfl
@[simp] theorem State.setCart_stations (s : State) (n : Nat) (e : Option Cart) : (s.setCart n e).stations = s.stations := rfl
@[simp] theorem State.setCart_control (s : State) (n : Nat) (e : Option Cart) : (s.setCart n e).control = s.control := rfl
@[simp] theorem State.setCart_line (s : State) (n : Nat) (e : Option Cart) : (s.setCart n e).line = s.line := rfl
@[simp] theorem State.setCart_lastWasControl (s : State) (n : Nat) (e : Option Cart) :
    (s.setCart n e).lastWasControl = s.lastWasControl := rfl
@[simp] theorem State.setCart_heldOff (s : State) (n : Nat) (e : Option Cart) : (s.setCart n e).heldOff = s.heldOff := rfl
@[simp] theorem State.setCart_waiting (s : State) (n : Nat) (e : Option Cart) : (s.setCart n e).waiting = s.waiting := rfl
@[simp] theorem State.setCart_dropped (s : State) (n : Nat) (e : Option Cart) : (s.setCart n e).dropped = s.dropped := rfl
@[simp] theorem State.setCart_params (s : State) (n : Nat) (e : Option Cart) : (s.setCart n e).params = s.params := rfl
@[simp] theorem State.setCart_work (s : State) (n : Nat) (e : Option Cart) : (s.setCart n e).work = s.work := rfl
@[simp] theorem State.setCart_heldReqs (s : State) (n : Nat) (e : Option Cart) : (s.setCart n e).heldReqs = s.heldReqs := rfl
@[simp] theorem State.setCart_mem (s : State) (n : Nat) (e : Option Cart) : (s.setCart n e).mem = s.mem := rfl
@[simp] theorem State.setCart_claims (s : State) (n : Nat) (e : Option Cart) : (s.setCart n e).claims = s.claims := rfl
@[simp] theorem State.setCart_drives (s : State) (n : Nat) (e : Option Cart) : (s.setCart n e).drives = s.drives := rfl
@[simp] theorem State.setCart_labelFailed (s : State) (n : Nat) (e : Option Cart) :
    (s.setCart n e).labelFailed = s.labelFailed := rfl
@[simp] theorem State.setCart_picker (s : State) (n : Nat) (e : Option Cart) : (s.setCart n e).picker = s.picker := rfl
@[simp] theorem State.setCart_bay (s : State) (n : Nat) (e : Option Cart) : (s.setCart n e).bay = s.bay := rfl
@[simp] theorem State.setCart_fetches (s : State) (n : Nat) (e : Option Cart) : (s.setCart n e).fetches = s.fetches := rfl
@[simp] theorem State.setCart_fetchTurn (s : State) (n : Nat) (e : Option Cart) : (s.setCart n e).fetchTurn = s.fetchTurn := rfl
@[simp] theorem State.setCart_filings (s : State) (n : Nat) (e : Option Cart) : (s.setCart n e).filings = s.filings := rfl
@[simp] theorem State.setCart_fileCount (s : State) (n : Nat) (e : Option Cart) : (s.setCart n e).fileCount = s.fileCount := rfl
@[simp] theorem State.setCart_fileLine (s : State) (n : Nat) (e : Option Cart) : (s.setCart n e).fileLine = s.fileLine := rfl
@[simp] theorem State.setCart_reserved (s : State) (n : Nat) (e : Option Cart) : (s.setCart n e).reserved = s.reserved := rfl
@[simp] theorem State.setCart_orders (s : State) (n : Nat) (e : Option Cart) : (s.setCart n e).orders = s.orders := rfl
@[simp] theorem State.setCart_acceptCount (s : State) (n : Nat) (e : Option Cart) :
    (s.setCart n e).acceptCount = s.acceptCount := rfl
@[simp] theorem State.setCart_port (s : State) (n : Nat) (e : Option Cart) : (s.setCart n e).port = s.port := rfl
@[simp] theorem State.setCart_nextId (s : State) (n : Nat) (e : Option Cart) : (s.setCart n e).nextId = s.nextId := rfl
@[simp] theorem State.setCart_pending (s : State) (n : Nat) (e : Option Cart) : (s.setCart n e).pending = s.pending := rfl
@[simp] theorem State.setCart_side (s : State) (n : Nat) (e : Option Cart) (k : Nat) : (s.setCart n e).side k = s.side k := rfl
@[simp] theorem State.setCart_slot (s : State) (n : Nat) (e : Option Cart) (k : Nat) : (s.setCart n e).slot k = s.slot k := rfl
@[simp] theorem State.setCart_account (s : State) (n : Nat) (e : Option Cart) (k : Nat) : (s.setCart n e).account k = s.account k := rfl
@[simp] theorem State.setCart_drive (s : State) (n : Nat) (e : Option Cart) (k : Nat) : (s.setCart n e).drive k = s.drive k := rfl
@[simp] theorem State.setCart_mail (s : State) (n : Nat) (e : Option Cart) (k : Nat) : (s.setCart n e).mail k = s.mail k := rfl

/-! ### setSlot -/

@[simp] theorem State.setSlot_powered (s : State) (n : Nat) (e : Slot) : (s.setSlot n e).powered = s.powered := rfl
@[simp] theorem State.setSlot_ret (s : State) (n : Nat) (e : Slot) :
    (s.setSlot n e).ret = { s.ret with slots := tset s.ret.slots n e } := rfl
@[simp] theorem State.setSlot_mode (s : State) (n : Nat) (e : Slot) : (s.setSlot n e).mode = s.mode := rfl
@[simp] theorem State.setSlot_clock (s : State) (n : Nat) (e : Slot) : (s.setSlot n e).clock = s.clock := rfl
@[simp] theorem State.setSlot_elapsed (s : State) (n : Nat) (e : Slot) : (s.setSlot n e).elapsed = s.elapsed := rfl
@[simp] theorem State.setSlot_boot (s : State) (n : Nat) (e : Slot) : (s.setSlot n e).boot = s.boot := rfl
@[simp] theorem State.setSlot_rx (s : State) (n : Nat) (e : Slot) : (s.setSlot n e).rx = s.rx := rfl
@[simp] theorem State.setSlot_stations (s : State) (n : Nat) (e : Slot) : (s.setSlot n e).stations = s.stations := rfl
@[simp] theorem State.setSlot_control (s : State) (n : Nat) (e : Slot) : (s.setSlot n e).control = s.control := rfl
@[simp] theorem State.setSlot_line (s : State) (n : Nat) (e : Slot) : (s.setSlot n e).line = s.line := rfl
@[simp] theorem State.setSlot_lastWasControl (s : State) (n : Nat) (e : Slot) :
    (s.setSlot n e).lastWasControl = s.lastWasControl := rfl
@[simp] theorem State.setSlot_heldOff (s : State) (n : Nat) (e : Slot) : (s.setSlot n e).heldOff = s.heldOff := rfl
@[simp] theorem State.setSlot_waiting (s : State) (n : Nat) (e : Slot) : (s.setSlot n e).waiting = s.waiting := rfl
@[simp] theorem State.setSlot_dropped (s : State) (n : Nat) (e : Slot) : (s.setSlot n e).dropped = s.dropped := rfl
@[simp] theorem State.setSlot_params (s : State) (n : Nat) (e : Slot) : (s.setSlot n e).params = s.params := rfl
@[simp] theorem State.setSlot_work (s : State) (n : Nat) (e : Slot) : (s.setSlot n e).work = s.work := rfl
@[simp] theorem State.setSlot_heldReqs (s : State) (n : Nat) (e : Slot) : (s.setSlot n e).heldReqs = s.heldReqs := rfl
@[simp] theorem State.setSlot_mem (s : State) (n : Nat) (e : Slot) : (s.setSlot n e).mem = s.mem := rfl
@[simp] theorem State.setSlot_claims (s : State) (n : Nat) (e : Slot) : (s.setSlot n e).claims = s.claims := rfl
@[simp] theorem State.setSlot_drives (s : State) (n : Nat) (e : Slot) : (s.setSlot n e).drives = s.drives := rfl
@[simp] theorem State.setSlot_labelFailed (s : State) (n : Nat) (e : Slot) : (s.setSlot n e).labelFailed = s.labelFailed := rfl
@[simp] theorem State.setSlot_picker (s : State) (n : Nat) (e : Slot) : (s.setSlot n e).picker = s.picker := rfl
@[simp] theorem State.setSlot_bay (s : State) (n : Nat) (e : Slot) : (s.setSlot n e).bay = s.bay := rfl
@[simp] theorem State.setSlot_fetches (s : State) (n : Nat) (e : Slot) : (s.setSlot n e).fetches = s.fetches := rfl
@[simp] theorem State.setSlot_fetchTurn (s : State) (n : Nat) (e : Slot) : (s.setSlot n e).fetchTurn = s.fetchTurn := rfl
@[simp] theorem State.setSlot_filings (s : State) (n : Nat) (e : Slot) : (s.setSlot n e).filings = s.filings := rfl
@[simp] theorem State.setSlot_fileCount (s : State) (n : Nat) (e : Slot) : (s.setSlot n e).fileCount = s.fileCount := rfl
@[simp] theorem State.setSlot_fileLine (s : State) (n : Nat) (e : Slot) : (s.setSlot n e).fileLine = s.fileLine := rfl
@[simp] theorem State.setSlot_reserved (s : State) (n : Nat) (e : Slot) : (s.setSlot n e).reserved = s.reserved := rfl
@[simp] theorem State.setSlot_orders (s : State) (n : Nat) (e : Slot) : (s.setSlot n e).orders = s.orders := rfl
@[simp] theorem State.setSlot_acceptCount (s : State) (n : Nat) (e : Slot) : (s.setSlot n e).acceptCount = s.acceptCount := rfl
@[simp] theorem State.setSlot_port (s : State) (n : Nat) (e : Slot) : (s.setSlot n e).port = s.port := rfl
@[simp] theorem State.setSlot_nextId (s : State) (n : Nat) (e : Slot) : (s.setSlot n e).nextId = s.nextId := rfl
@[simp] theorem State.setSlot_pending (s : State) (n : Nat) (e : Slot) : (s.setSlot n e).pending = s.pending := rfl
@[simp] theorem State.setSlot_side (s : State) (n : Nat) (e : Slot) (k : Nat) : (s.setSlot n e).side k = s.side k := rfl
@[simp] theorem State.setSlot_cart (s : State) (n : Nat) (e : Slot) (k : Nat) : (s.setSlot n e).cart k = s.cart k := rfl
@[simp] theorem State.setSlot_account (s : State) (n : Nat) (e : Slot) (k : Nat) : (s.setSlot n e).account k = s.account k := rfl
@[simp] theorem State.setSlot_drive (s : State) (n : Nat) (e : Slot) (k : Nat) : (s.setSlot n e).drive k = s.drive k := rfl
@[simp] theorem State.setSlot_mail (s : State) (n : Nat) (e : Slot) (k : Nat) : (s.setSlot n e).mail k = s.mail k := rfl

/-! ### setAccount -/

@[simp] theorem State.setAccount_powered (s : State) (n : Nat) (e : Account) : (s.setAccount n e).powered = s.powered := rfl
@[simp] theorem State.setAccount_ret (s : State) (n : Nat) (e : Account) :
    (s.setAccount n e).ret = { s.ret with accounts := tset s.ret.accounts n e } := rfl
@[simp] theorem State.setAccount_mode (s : State) (n : Nat) (e : Account) : (s.setAccount n e).mode = s.mode := rfl
@[simp] theorem State.setAccount_clock (s : State) (n : Nat) (e : Account) : (s.setAccount n e).clock = s.clock := rfl
@[simp] theorem State.setAccount_elapsed (s : State) (n : Nat) (e : Account) : (s.setAccount n e).elapsed = s.elapsed := rfl
@[simp] theorem State.setAccount_boot (s : State) (n : Nat) (e : Account) : (s.setAccount n e).boot = s.boot := rfl
@[simp] theorem State.setAccount_rx (s : State) (n : Nat) (e : Account) : (s.setAccount n e).rx = s.rx := rfl
@[simp] theorem State.setAccount_stations (s : State) (n : Nat) (e : Account) : (s.setAccount n e).stations = s.stations := rfl
@[simp] theorem State.setAccount_control (s : State) (n : Nat) (e : Account) : (s.setAccount n e).control = s.control := rfl
@[simp] theorem State.setAccount_line (s : State) (n : Nat) (e : Account) : (s.setAccount n e).line = s.line := rfl
@[simp] theorem State.setAccount_lastWasControl (s : State) (n : Nat) (e : Account) :
    (s.setAccount n e).lastWasControl = s.lastWasControl := rfl
@[simp] theorem State.setAccount_heldOff (s : State) (n : Nat) (e : Account) : (s.setAccount n e).heldOff = s.heldOff := rfl
@[simp] theorem State.setAccount_waiting (s : State) (n : Nat) (e : Account) : (s.setAccount n e).waiting = s.waiting := rfl
@[simp] theorem State.setAccount_dropped (s : State) (n : Nat) (e : Account) : (s.setAccount n e).dropped = s.dropped := rfl
@[simp] theorem State.setAccount_params (s : State) (n : Nat) (e : Account) : (s.setAccount n e).params = s.params := rfl
@[simp] theorem State.setAccount_work (s : State) (n : Nat) (e : Account) : (s.setAccount n e).work = s.work := rfl
@[simp] theorem State.setAccount_heldReqs (s : State) (n : Nat) (e : Account) : (s.setAccount n e).heldReqs = s.heldReqs := rfl
@[simp] theorem State.setAccount_mem (s : State) (n : Nat) (e : Account) : (s.setAccount n e).mem = s.mem := rfl
@[simp] theorem State.setAccount_claims (s : State) (n : Nat) (e : Account) : (s.setAccount n e).claims = s.claims := rfl
@[simp] theorem State.setAccount_drives (s : State) (n : Nat) (e : Account) : (s.setAccount n e).drives = s.drives := rfl
@[simp] theorem State.setAccount_labelFailed (s : State) (n : Nat) (e : Account) :
    (s.setAccount n e).labelFailed = s.labelFailed := rfl
@[simp] theorem State.setAccount_picker (s : State) (n : Nat) (e : Account) : (s.setAccount n e).picker = s.picker := rfl
@[simp] theorem State.setAccount_bay (s : State) (n : Nat) (e : Account) : (s.setAccount n e).bay = s.bay := rfl
@[simp] theorem State.setAccount_fetches (s : State) (n : Nat) (e : Account) : (s.setAccount n e).fetches = s.fetches := rfl
@[simp] theorem State.setAccount_fetchTurn (s : State) (n : Nat) (e : Account) :
    (s.setAccount n e).fetchTurn = s.fetchTurn := rfl
@[simp] theorem State.setAccount_filings (s : State) (n : Nat) (e : Account) : (s.setAccount n e).filings = s.filings := rfl
@[simp] theorem State.setAccount_fileCount (s : State) (n : Nat) (e : Account) :
    (s.setAccount n e).fileCount = s.fileCount := rfl
@[simp] theorem State.setAccount_fileLine (s : State) (n : Nat) (e : Account) : (s.setAccount n e).fileLine = s.fileLine := rfl
@[simp] theorem State.setAccount_reserved (s : State) (n : Nat) (e : Account) : (s.setAccount n e).reserved = s.reserved := rfl
@[simp] theorem State.setAccount_orders (s : State) (n : Nat) (e : Account) : (s.setAccount n e).orders = s.orders := rfl
@[simp] theorem State.setAccount_acceptCount (s : State) (n : Nat) (e : Account) :
    (s.setAccount n e).acceptCount = s.acceptCount := rfl
@[simp] theorem State.setAccount_port (s : State) (n : Nat) (e : Account) : (s.setAccount n e).port = s.port := rfl
@[simp] theorem State.setAccount_nextId (s : State) (n : Nat) (e : Account) : (s.setAccount n e).nextId = s.nextId := rfl
@[simp] theorem State.setAccount_pending (s : State) (n : Nat) (e : Account) : (s.setAccount n e).pending = s.pending := rfl
@[simp] theorem State.setAccount_side (s : State) (n : Nat) (e : Account) (k : Nat) : (s.setAccount n e).side k = s.side k := rfl
@[simp] theorem State.setAccount_cart (s : State) (n : Nat) (e : Account) (k : Nat) : (s.setAccount n e).cart k = s.cart k := rfl
@[simp] theorem State.setAccount_slot (s : State) (n : Nat) (e : Account) (k : Nat) : (s.setAccount n e).slot k = s.slot k := rfl
@[simp] theorem State.setAccount_drive (s : State) (n : Nat) (e : Account) (k : Nat) : (s.setAccount n e).drive k = s.drive k := rfl
@[simp] theorem State.setAccount_mail (s : State) (n : Nat) (e : Account) (k : Nat) : (s.setAccount n e).mail k = s.mail k := rfl

/-! ### modDrive -/

@[simp] theorem State.modDrive_powered (s : State) (d : Nat) (f : Drive → Drive) : (s.modDrive d f).powered = s.powered := rfl
@[simp] theorem State.modDrive_ret (s : State) (d : Nat) (f : Drive → Drive) : (s.modDrive d f).ret = s.ret := rfl
@[simp] theorem State.modDrive_mode (s : State) (d : Nat) (f : Drive → Drive) : (s.modDrive d f).mode = s.mode := rfl
@[simp] theorem State.modDrive_clock (s : State) (d : Nat) (f : Drive → Drive) : (s.modDrive d f).clock = s.clock := rfl
@[simp] theorem State.modDrive_elapsed (s : State) (d : Nat) (f : Drive → Drive) : (s.modDrive d f).elapsed = s.elapsed := rfl
@[simp] theorem State.modDrive_boot (s : State) (d : Nat) (f : Drive → Drive) : (s.modDrive d f).boot = s.boot := rfl
@[simp] theorem State.modDrive_rx (s : State) (d : Nat) (f : Drive → Drive) : (s.modDrive d f).rx = s.rx := rfl
@[simp] theorem State.modDrive_stations (s : State) (d : Nat) (f : Drive → Drive) :
    (s.modDrive d f).stations = s.stations := rfl
@[simp] theorem State.modDrive_control (s : State) (d : Nat) (f : Drive → Drive) : (s.modDrive d f).control = s.control := rfl
@[simp] theorem State.modDrive_line (s : State) (d : Nat) (f : Drive → Drive) : (s.modDrive d f).line = s.line := rfl
@[simp] theorem State.modDrive_lastWasControl (s : State) (d : Nat) (f : Drive → Drive) :
    (s.modDrive d f).lastWasControl = s.lastWasControl := rfl
@[simp] theorem State.modDrive_heldOff (s : State) (d : Nat) (f : Drive → Drive) : (s.modDrive d f).heldOff = s.heldOff := rfl
@[simp] theorem State.modDrive_waiting (s : State) (d : Nat) (f : Drive → Drive) : (s.modDrive d f).waiting = s.waiting := rfl
@[simp] theorem State.modDrive_dropped (s : State) (d : Nat) (f : Drive → Drive) : (s.modDrive d f).dropped = s.dropped := rfl
@[simp] theorem State.modDrive_params (s : State) (d : Nat) (f : Drive → Drive) : (s.modDrive d f).params = s.params := rfl
@[simp] theorem State.modDrive_work (s : State) (d : Nat) (f : Drive → Drive) : (s.modDrive d f).work = s.work := rfl
@[simp] theorem State.modDrive_heldReqs (s : State) (d : Nat) (f : Drive → Drive) :
    (s.modDrive d f).heldReqs = s.heldReqs := rfl
@[simp] theorem State.modDrive_mem (s : State) (d : Nat) (f : Drive → Drive) : (s.modDrive d f).mem = s.mem := rfl
@[simp] theorem State.modDrive_claims (s : State) (d : Nat) (f : Drive → Drive) : (s.modDrive d f).claims = s.claims := rfl
@[simp] theorem State.modDrive_drives (s : State) (d : Nat) (f : Drive → Drive) :
    (s.modDrive d f).drives = tset s.drives d (f (s.drive d)) := rfl
@[simp] theorem State.modDrive_labelFailed (s : State) (d : Nat) (f : Drive → Drive) :
    (s.modDrive d f).labelFailed = s.labelFailed := rfl
@[simp] theorem State.modDrive_picker (s : State) (d : Nat) (f : Drive → Drive) : (s.modDrive d f).picker = s.picker := rfl
@[simp] theorem State.modDrive_bay (s : State) (d : Nat) (f : Drive → Drive) : (s.modDrive d f).bay = s.bay := rfl
@[simp] theorem State.modDrive_fetches (s : State) (d : Nat) (f : Drive → Drive) : (s.modDrive d f).fetches = s.fetches := rfl
@[simp] theorem State.modDrive_fetchTurn (s : State) (d : Nat) (f : Drive → Drive) :
    (s.modDrive d f).fetchTurn = s.fetchTurn := rfl
@[simp] theorem State.modDrive_filings (s : State) (d : Nat) (f : Drive → Drive) : (s.modDrive d f).filings = s.filings := rfl
@[simp] theorem State.modDrive_fileCount (s : State) (d : Nat) (f : Drive → Drive) :
    (s.modDrive d f).fileCount = s.fileCount := rfl
@[simp] theorem State.modDrive_fileLine (s : State) (d : Nat) (f : Drive → Drive) :
    (s.modDrive d f).fileLine = s.fileLine := rfl
@[simp] theorem State.modDrive_reserved (s : State) (d : Nat) (f : Drive → Drive) :
    (s.modDrive d f).reserved = s.reserved := rfl
@[simp] theorem State.modDrive_orders (s : State) (d : Nat) (f : Drive → Drive) : (s.modDrive d f).orders = s.orders := rfl
@[simp] theorem State.modDrive_acceptCount (s : State) (d : Nat) (f : Drive → Drive) :
    (s.modDrive d f).acceptCount = s.acceptCount := rfl
@[simp] theorem State.modDrive_port (s : State) (d : Nat) (f : Drive → Drive) : (s.modDrive d f).port = s.port := rfl
@[simp] theorem State.modDrive_nextId (s : State) (d : Nat) (f : Drive → Drive) : (s.modDrive d f).nextId = s.nextId := rfl
@[simp] theorem State.modDrive_pending (s : State) (d : Nat) (f : Drive → Drive) : (s.modDrive d f).pending = s.pending := rfl
@[simp] theorem State.modDrive_side (s : State) (d : Nat) (f : Drive → Drive) (k : Nat) : (s.modDrive d f).side k = s.side k := rfl
@[simp] theorem State.modDrive_cart (s : State) (d : Nat) (f : Drive → Drive) (k : Nat) : (s.modDrive d f).cart k = s.cart k := rfl
@[simp] theorem State.modDrive_slot (s : State) (d : Nat) (f : Drive → Drive) (k : Nat) : (s.modDrive d f).slot k = s.slot k := rfl
@[simp] theorem State.modDrive_account (s : State) (d : Nat) (f : Drive → Drive) (k : Nat) : (s.modDrive d f).account k = s.account k := rfl
@[simp] theorem State.modDrive_mail (s : State) (d : Nat) (f : Drive → Drive) (k : Nat) : (s.modDrive d f).mail k = s.mail k := rfl

/-! ### modPicker -/

@[simp] theorem State.modPicker_powered (s : State) (f : Picker → Picker) : (s.modPicker f).powered = s.powered := rfl
@[simp] theorem State.modPicker_ret (s : State) (f : Picker → Picker) : (s.modPicker f).ret = s.ret := rfl
@[simp] theorem State.modPicker_mode (s : State) (f : Picker → Picker) : (s.modPicker f).mode = s.mode := rfl
@[simp] theorem State.modPicker_clock (s : State) (f : Picker → Picker) : (s.modPicker f).clock = s.clock := rfl
@[simp] theorem State.modPicker_elapsed (s : State) (f : Picker → Picker) : (s.modPicker f).elapsed = s.elapsed := rfl
@[simp] theorem State.modPicker_boot (s : State) (f : Picker → Picker) : (s.modPicker f).boot = s.boot := rfl
@[simp] theorem State.modPicker_rx (s : State) (f : Picker → Picker) : (s.modPicker f).rx = s.rx := rfl
@[simp] theorem State.modPicker_stations (s : State) (f : Picker → Picker) : (s.modPicker f).stations = s.stations := rfl
@[simp] theorem State.modPicker_control (s : State) (f : Picker → Picker) : (s.modPicker f).control = s.control := rfl
@[simp] theorem State.modPicker_line (s : State) (f : Picker → Picker) : (s.modPicker f).line = s.line := rfl
@[simp] theorem State.modPicker_lastWasControl (s : State) (f : Picker → Picker) :
    (s.modPicker f).lastWasControl = s.lastWasControl := rfl
@[simp] theorem State.modPicker_heldOff (s : State) (f : Picker → Picker) : (s.modPicker f).heldOff = s.heldOff := rfl
@[simp] theorem State.modPicker_waiting (s : State) (f : Picker → Picker) : (s.modPicker f).waiting = s.waiting := rfl
@[simp] theorem State.modPicker_dropped (s : State) (f : Picker → Picker) : (s.modPicker f).dropped = s.dropped := rfl
@[simp] theorem State.modPicker_params (s : State) (f : Picker → Picker) : (s.modPicker f).params = s.params := rfl
@[simp] theorem State.modPicker_work (s : State) (f : Picker → Picker) : (s.modPicker f).work = s.work := rfl
@[simp] theorem State.modPicker_heldReqs (s : State) (f : Picker → Picker) : (s.modPicker f).heldReqs = s.heldReqs := rfl
@[simp] theorem State.modPicker_mem (s : State) (f : Picker → Picker) : (s.modPicker f).mem = s.mem := rfl
@[simp] theorem State.modPicker_claims (s : State) (f : Picker → Picker) : (s.modPicker f).claims = s.claims := rfl
@[simp] theorem State.modPicker_drives (s : State) (f : Picker → Picker) : (s.modPicker f).drives = s.drives := rfl
@[simp] theorem State.modPicker_labelFailed (s : State) (f : Picker → Picker) :
    (s.modPicker f).labelFailed = s.labelFailed := rfl
@[simp] theorem State.modPicker_picker (s : State) (f : Picker → Picker) : (s.modPicker f).picker = f s.picker := rfl
@[simp] theorem State.modPicker_bay (s : State) (f : Picker → Picker) : (s.modPicker f).bay = s.bay := rfl
@[simp] theorem State.modPicker_fetches (s : State) (f : Picker → Picker) : (s.modPicker f).fetches = s.fetches := rfl
@[simp] theorem State.modPicker_fetchTurn (s : State) (f : Picker → Picker) : (s.modPicker f).fetchTurn = s.fetchTurn := rfl
@[simp] theorem State.modPicker_filings (s : State) (f : Picker → Picker) : (s.modPicker f).filings = s.filings := rfl
@[simp] theorem State.modPicker_fileCount (s : State) (f : Picker → Picker) : (s.modPicker f).fileCount = s.fileCount := rfl
@[simp] theorem State.modPicker_fileLine (s : State) (f : Picker → Picker) : (s.modPicker f).fileLine = s.fileLine := rfl
@[simp] theorem State.modPicker_reserved (s : State) (f : Picker → Picker) : (s.modPicker f).reserved = s.reserved := rfl
@[simp] theorem State.modPicker_orders (s : State) (f : Picker → Picker) : (s.modPicker f).orders = s.orders := rfl
@[simp] theorem State.modPicker_acceptCount (s : State) (f : Picker → Picker) :
    (s.modPicker f).acceptCount = s.acceptCount := rfl
@[simp] theorem State.modPicker_port (s : State) (f : Picker → Picker) : (s.modPicker f).port = s.port := rfl
@[simp] theorem State.modPicker_nextId (s : State) (f : Picker → Picker) : (s.modPicker f).nextId = s.nextId := rfl
@[simp] theorem State.modPicker_pending (s : State) (f : Picker → Picker) : (s.modPicker f).pending = s.pending := rfl
@[simp] theorem State.modPicker_side (s : State) (f : Picker → Picker) (k : Nat) : (s.modPicker f).side k = s.side k := rfl
@[simp] theorem State.modPicker_cart (s : State) (f : Picker → Picker) (k : Nat) : (s.modPicker f).cart k = s.cart k := rfl
@[simp] theorem State.modPicker_slot (s : State) (f : Picker → Picker) (k : Nat) : (s.modPicker f).slot k = s.slot k := rfl
@[simp] theorem State.modPicker_account (s : State) (f : Picker → Picker) (k : Nat) : (s.modPicker f).account k = s.account k := rfl
@[simp] theorem State.modPicker_drive (s : State) (f : Picker → Picker) (k : Nat) : (s.modPicker f).drive k = s.drive k := rfl

/-! ### setMail -/

@[simp] theorem State.setMail_powered (s : State) (n : Nat) (e : Mail) : (s.setMail n e).powered = s.powered := rfl
@[simp] theorem State.setMail_ret (s : State) (n : Nat) (e : Mail) : (s.setMail n e).ret = s.ret := rfl
@[simp] theorem State.setMail_mode (s : State) (n : Nat) (e : Mail) : (s.setMail n e).mode = s.mode := rfl
@[simp] theorem State.setMail_clock (s : State) (n : Nat) (e : Mail) : (s.setMail n e).clock = s.clock := rfl
@[simp] theorem State.setMail_elapsed (s : State) (n : Nat) (e : Mail) : (s.setMail n e).elapsed = s.elapsed := rfl
@[simp] theorem State.setMail_boot (s : State) (n : Nat) (e : Mail) : (s.setMail n e).boot = s.boot := rfl
@[simp] theorem State.setMail_rx (s : State) (n : Nat) (e : Mail) : (s.setMail n e).rx = s.rx := rfl
@[simp] theorem State.setMail_stations (s : State) (n : Nat) (e : Mail) : (s.setMail n e).stations = s.stations := rfl
@[simp] theorem State.setMail_control (s : State) (n : Nat) (e : Mail) : (s.setMail n e).control = s.control := rfl
@[simp] theorem State.setMail_line (s : State) (n : Nat) (e : Mail) : (s.setMail n e).line = s.line := rfl
@[simp] theorem State.setMail_lastWasControl (s : State) (n : Nat) (e : Mail) :
    (s.setMail n e).lastWasControl = s.lastWasControl := rfl
@[simp] theorem State.setMail_heldOff (s : State) (n : Nat) (e : Mail) : (s.setMail n e).heldOff = s.heldOff := rfl
@[simp] theorem State.setMail_waiting (s : State) (n : Nat) (e : Mail) : (s.setMail n e).waiting = s.waiting := rfl
@[simp] theorem State.setMail_dropped (s : State) (n : Nat) (e : Mail) : (s.setMail n e).dropped = s.dropped := rfl
@[simp] theorem State.setMail_params (s : State) (n : Nat) (e : Mail) : (s.setMail n e).params = s.params := rfl
@[simp] theorem State.setMail_work (s : State) (n : Nat) (e : Mail) : (s.setMail n e).work = s.work := rfl
@[simp] theorem State.setMail_heldReqs (s : State) (n : Nat) (e : Mail) : (s.setMail n e).heldReqs = s.heldReqs := rfl
@[simp] theorem State.setMail_mem (s : State) (n : Nat) (e : Mail) : (s.setMail n e).mem = s.mem := rfl
@[simp] theorem State.setMail_claims (s : State) (n : Nat) (e : Mail) : (s.setMail n e).claims = s.claims := rfl
@[simp] theorem State.setMail_drives (s : State) (n : Nat) (e : Mail) : (s.setMail n e).drives = s.drives := rfl
@[simp] theorem State.setMail_labelFailed (s : State) (n : Nat) (e : Mail) : (s.setMail n e).labelFailed = s.labelFailed := rfl
@[simp] theorem State.setMail_picker (s : State) (n : Nat) (e : Mail) :
    (s.setMail n e).picker = { s.picker with mails := tset s.picker.mails n e } := rfl
@[simp] theorem State.setMail_bay (s : State) (n : Nat) (e : Mail) : (s.setMail n e).bay = s.bay := rfl
@[simp] theorem State.setMail_fetches (s : State) (n : Nat) (e : Mail) : (s.setMail n e).fetches = s.fetches := rfl
@[simp] theorem State.setMail_fetchTurn (s : State) (n : Nat) (e : Mail) : (s.setMail n e).fetchTurn = s.fetchTurn := rfl
@[simp] theorem State.setMail_filings (s : State) (n : Nat) (e : Mail) : (s.setMail n e).filings = s.filings := rfl
@[simp] theorem State.setMail_fileCount (s : State) (n : Nat) (e : Mail) : (s.setMail n e).fileCount = s.fileCount := rfl
@[simp] theorem State.setMail_fileLine (s : State) (n : Nat) (e : Mail) : (s.setMail n e).fileLine = s.fileLine := rfl
@[simp] theorem State.setMail_reserved (s : State) (n : Nat) (e : Mail) : (s.setMail n e).reserved = s.reserved := rfl
@[simp] theorem State.setMail_orders (s : State) (n : Nat) (e : Mail) : (s.setMail n e).orders = s.orders := rfl
@[simp] theorem State.setMail_acceptCount (s : State) (n : Nat) (e : Mail) : (s.setMail n e).acceptCount = s.acceptCount := rfl
@[simp] theorem State.setMail_port (s : State) (n : Nat) (e : Mail) : (s.setMail n e).port = s.port := rfl
@[simp] theorem State.setMail_nextId (s : State) (n : Nat) (e : Mail) : (s.setMail n e).nextId = s.nextId := rfl
@[simp] theorem State.setMail_pending (s : State) (n : Nat) (e : Mail) : (s.setMail n e).pending = s.pending := rfl
@[simp] theorem State.setMail_side (s : State) (n : Nat) (e : Mail) (k : Nat) : (s.setMail n e).side k = s.side k := rfl
@[simp] theorem State.setMail_cart (s : State) (n : Nat) (e : Mail) (k : Nat) : (s.setMail n e).cart k = s.cart k := rfl
@[simp] theorem State.setMail_slot (s : State) (n : Nat) (e : Mail) (k : Nat) : (s.setMail n e).slot k = s.slot k := rfl
@[simp] theorem State.setMail_account (s : State) (n : Nat) (e : Mail) (k : Nat) : (s.setMail n e).account k = s.account k := rfl
@[simp] theorem State.setMail_drive (s : State) (n : Nat) (e : Mail) (k : Nat) : (s.setMail n e).drive k = s.drive k := rfl

/-! ### modBoot -/

@[simp] theorem State.modBoot_powered (s : State) (f : Boot → Boot) : (s.modBoot f).powered = s.powered := rfl
@[simp] theorem State.modBoot_ret (s : State) (f : Boot → Boot) : (s.modBoot f).ret = s.ret := rfl
@[simp] theorem State.modBoot_mode (s : State) (f : Boot → Boot) : (s.modBoot f).mode = s.mode := rfl
@[simp] theorem State.modBoot_clock (s : State) (f : Boot → Boot) : (s.modBoot f).clock = s.clock := rfl
@[simp] theorem State.modBoot_elapsed (s : State) (f : Boot → Boot) : (s.modBoot f).elapsed = s.elapsed := rfl
@[simp] theorem State.modBoot_boot (s : State) (f : Boot → Boot) : (s.modBoot f).boot = f s.boot := rfl
@[simp] theorem State.modBoot_rx (s : State) (f : Boot → Boot) : (s.modBoot f).rx = s.rx := rfl
@[simp] theorem State.modBoot_stations (s : State) (f : Boot → Boot) : (s.modBoot f).stations = s.stations := rfl
@[simp] theorem State.modBoot_control (s : State) (f : Boot → Boot) : (s.modBoot f).control = s.control := rfl
@[simp] theorem State.modBoot_line (s : State) (f : Boot → Boot) : (s.modBoot f).line = s.line := rfl
@[simp] theorem State.modBoot_lastWasControl (s : State) (f : Boot → Boot) :
    (s.modBoot f).lastWasControl = s.lastWasControl := rfl
@[simp] theorem State.modBoot_heldOff (s : State) (f : Boot → Boot) : (s.modBoot f).heldOff = s.heldOff := rfl
@[simp] theorem State.modBoot_waiting (s : State) (f : Boot → Boot) : (s.modBoot f).waiting = s.waiting := rfl
@[simp] theorem State.modBoot_dropped (s : State) (f : Boot → Boot) : (s.modBoot f).dropped = s.dropped := rfl
@[simp] theorem State.modBoot_params (s : State) (f : Boot → Boot) : (s.modBoot f).params = s.params := rfl
@[simp] theorem State.modBoot_work (s : State) (f : Boot → Boot) : (s.modBoot f).work = s.work := rfl
@[simp] theorem State.modBoot_heldReqs (s : State) (f : Boot → Boot) : (s.modBoot f).heldReqs = s.heldReqs := rfl
@[simp] theorem State.modBoot_mem (s : State) (f : Boot → Boot) : (s.modBoot f).mem = s.mem := rfl
@[simp] theorem State.modBoot_claims (s : State) (f : Boot → Boot) : (s.modBoot f).claims = s.claims := rfl
@[simp] theorem State.modBoot_drives (s : State) (f : Boot → Boot) : (s.modBoot f).drives = s.drives := rfl
@[simp] theorem State.modBoot_labelFailed (s : State) (f : Boot → Boot) : (s.modBoot f).labelFailed = s.labelFailed := rfl
@[simp] theorem State.modBoot_picker (s : State) (f : Boot → Boot) : (s.modBoot f).picker = s.picker := rfl
@[simp] theorem State.modBoot_bay (s : State) (f : Boot → Boot) : (s.modBoot f).bay = s.bay := rfl
@[simp] theorem State.modBoot_fetches (s : State) (f : Boot → Boot) : (s.modBoot f).fetches = s.fetches := rfl
@[simp] theorem State.modBoot_fetchTurn (s : State) (f : Boot → Boot) : (s.modBoot f).fetchTurn = s.fetchTurn := rfl
@[simp] theorem State.modBoot_filings (s : State) (f : Boot → Boot) : (s.modBoot f).filings = s.filings := rfl
@[simp] theorem State.modBoot_fileCount (s : State) (f : Boot → Boot) : (s.modBoot f).fileCount = s.fileCount := rfl
@[simp] theorem State.modBoot_fileLine (s : State) (f : Boot → Boot) : (s.modBoot f).fileLine = s.fileLine := rfl
@[simp] theorem State.modBoot_reserved (s : State) (f : Boot → Boot) : (s.modBoot f).reserved = s.reserved := rfl
@[simp] theorem State.modBoot_orders (s : State) (f : Boot → Boot) : (s.modBoot f).orders = s.orders := rfl
@[simp] theorem State.modBoot_acceptCount (s : State) (f : Boot → Boot) : (s.modBoot f).acceptCount = s.acceptCount := rfl
@[simp] theorem State.modBoot_port (s : State) (f : Boot → Boot) : (s.modBoot f).port = s.port := rfl
@[simp] theorem State.modBoot_nextId (s : State) (f : Boot → Boot) : (s.modBoot f).nextId = s.nextId := rfl
@[simp] theorem State.modBoot_pending (s : State) (f : Boot → Boot) : (s.modBoot f).pending = s.pending := rfl
@[simp] theorem State.modBoot_side (s : State) (f : Boot → Boot) (k : Nat) : (s.modBoot f).side k = s.side k := rfl
@[simp] theorem State.modBoot_cart (s : State) (f : Boot → Boot) (k : Nat) : (s.modBoot f).cart k = s.cart k := rfl
@[simp] theorem State.modBoot_slot (s : State) (f : Boot → Boot) (k : Nat) : (s.modBoot f).slot k = s.slot k := rfl
@[simp] theorem State.modBoot_account (s : State) (f : Boot → Boot) (k : Nat) : (s.modBoot f).account k = s.account k := rfl
@[simp] theorem State.modBoot_drive (s : State) (f : Boot → Boot) (k : Nat) : (s.modBoot f).drive k = s.drive k := rfl
@[simp] theorem State.modBoot_mail (s : State) (f : Boot → Boot) (k : Nat) : (s.modBoot f).mail k = s.mail k := rfl

/-! ### modRebuild -/

@[simp] theorem State.modRebuild_powered (s : State) (f : Rebuild → Rebuild) : (s.modRebuild f).powered = s.powered := rfl
@[simp] theorem State.modRebuild_ret (s : State) (f : Rebuild → Rebuild) : (s.modRebuild f).ret = s.ret := rfl
@[simp] theorem State.modRebuild_mode (s : State) (f : Rebuild → Rebuild) : (s.modRebuild f).mode = s.mode := rfl
@[simp] theorem State.modRebuild_clock (s : State) (f : Rebuild → Rebuild) : (s.modRebuild f).clock = s.clock := rfl
@[simp] theorem State.modRebuild_elapsed (s : State) (f : Rebuild → Rebuild) : (s.modRebuild f).elapsed = s.elapsed := rfl
@[simp] theorem State.modRebuild_boot (s : State) (f : Rebuild → Rebuild) :
    (s.modRebuild f).boot = { s.boot with rebuild := f s.boot.rebuild } := rfl
@[simp] theorem State.modRebuild_rx (s : State) (f : Rebuild → Rebuild) : (s.modRebuild f).rx = s.rx := rfl
@[simp] theorem State.modRebuild_stations (s : State) (f : Rebuild → Rebuild) : (s.modRebuild f).stations = s.stations := rfl
@[simp] theorem State.modRebuild_control (s : State) (f : Rebuild → Rebuild) : (s.modRebuild f).control = s.control := rfl
@[simp] theorem State.modRebuild_line (s : State) (f : Rebuild → Rebuild) : (s.modRebuild f).line = s.line := rfl
@[simp] theorem State.modRebuild_lastWasControl (s : State) (f : Rebuild → Rebuild) :
    (s.modRebuild f).lastWasControl = s.lastWasControl := rfl
@[simp] theorem State.modRebuild_heldOff (s : State) (f : Rebuild → Rebuild) : (s.modRebuild f).heldOff = s.heldOff := rfl
@[simp] theorem State.modRebuild_waiting (s : State) (f : Rebuild → Rebuild) : (s.modRebuild f).waiting = s.waiting := rfl
@[simp] theorem State.modRebuild_dropped (s : State) (f : Rebuild → Rebuild) : (s.modRebuild f).dropped = s.dropped := rfl
@[simp] theorem State.modRebuild_params (s : State) (f : Rebuild → Rebuild) : (s.modRebuild f).params = s.params := rfl
@[simp] theorem State.modRebuild_work (s : State) (f : Rebuild → Rebuild) : (s.modRebuild f).work = s.work := rfl
@[simp] theorem State.modRebuild_heldReqs (s : State) (f : Rebuild → Rebuild) : (s.modRebuild f).heldReqs = s.heldReqs := rfl
@[simp] theorem State.modRebuild_mem (s : State) (f : Rebuild → Rebuild) : (s.modRebuild f).mem = s.mem := rfl
@[simp] theorem State.modRebuild_claims (s : State) (f : Rebuild → Rebuild) : (s.modRebuild f).claims = s.claims := rfl
@[simp] theorem State.modRebuild_drives (s : State) (f : Rebuild → Rebuild) : (s.modRebuild f).drives = s.drives := rfl
@[simp] theorem State.modRebuild_labelFailed (s : State) (f : Rebuild → Rebuild) :
    (s.modRebuild f).labelFailed = s.labelFailed := rfl
@[simp] theorem State.modRebuild_picker (s : State) (f : Rebuild → Rebuild) : (s.modRebuild f).picker = s.picker := rfl
@[simp] theorem State.modRebuild_bay (s : State) (f : Rebuild → Rebuild) : (s.modRebuild f).bay = s.bay := rfl
@[simp] theorem State.modRebuild_fetches (s : State) (f : Rebuild → Rebuild) : (s.modRebuild f).fetches = s.fetches := rfl
@[simp] theorem State.modRebuild_fetchTurn (s : State) (f : Rebuild → Rebuild) : (s.modRebuild f).fetchTurn = s.fetchTurn := rfl
@[simp] theorem State.modRebuild_filings (s : State) (f : Rebuild → Rebuild) : (s.modRebuild f).filings = s.filings := rfl
@[simp] theorem State.modRebuild_fileCount (s : State) (f : Rebuild → Rebuild) : (s.modRebuild f).fileCount = s.fileCount := rfl
@[simp] theorem State.modRebuild_fileLine (s : State) (f : Rebuild → Rebuild) : (s.modRebuild f).fileLine = s.fileLine := rfl
@[simp] theorem State.modRebuild_reserved (s : State) (f : Rebuild → Rebuild) : (s.modRebuild f).reserved = s.reserved := rfl
@[simp] theorem State.modRebuild_orders (s : State) (f : Rebuild → Rebuild) : (s.modRebuild f).orders = s.orders := rfl
@[simp] theorem State.modRebuild_acceptCount (s : State) (f : Rebuild → Rebuild) :
    (s.modRebuild f).acceptCount = s.acceptCount := rfl
@[simp] theorem State.modRebuild_port (s : State) (f : Rebuild → Rebuild) : (s.modRebuild f).port = s.port := rfl
@[simp] theorem State.modRebuild_nextId (s : State) (f : Rebuild → Rebuild) : (s.modRebuild f).nextId = s.nextId := rfl
@[simp] theorem State.modRebuild_pending (s : State) (f : Rebuild → Rebuild) : (s.modRebuild f).pending = s.pending := rfl
@[simp] theorem State.modRebuild_side (s : State) (f : Rebuild → Rebuild) (k : Nat) : (s.modRebuild f).side k = s.side k := rfl
@[simp] theorem State.modRebuild_cart (s : State) (f : Rebuild → Rebuild) (k : Nat) : (s.modRebuild f).cart k = s.cart k := rfl
@[simp] theorem State.modRebuild_slot (s : State) (f : Rebuild → Rebuild) (k : Nat) : (s.modRebuild f).slot k = s.slot k := rfl
@[simp] theorem State.modRebuild_account (s : State) (f : Rebuild → Rebuild) (k : Nat) : (s.modRebuild f).account k = s.account k := rfl
@[simp] theorem State.modRebuild_drive (s : State) (f : Rebuild → Rebuild) (k : Nat) : (s.modRebuild f).drive k = s.drive k := rfl
@[simp] theorem State.modRebuild_mail (s : State) (f : Rebuild → Rebuild) (k : Nat) : (s.modRebuild f).mail k = s.mail k := rfl

/-! ### modPort -/

@[simp] theorem State.modPort_powered (s : State) (f : Port → Port) : (s.modPort f).powered = s.powered := rfl
@[simp] theorem State.modPort_ret (s : State) (f : Port → Port) : (s.modPort f).ret = s.ret := rfl
@[simp] theorem State.modPort_mode (s : State) (f : Port → Port) : (s.modPort f).mode = s.mode := rfl
@[simp] theorem State.modPort_clock (s : State) (f : Port → Port) : (s.modPort f).clock = s.clock := rfl
@[simp] theorem State.modPort_elapsed (s : State) (f : Port → Port) : (s.modPort f).elapsed = s.elapsed := rfl
@[simp] theorem State.modPort_boot (s : State) (f : Port → Port) : (s.modPort f).boot = s.boot := rfl
@[simp] theorem State.modPort_rx (s : State) (f : Port → Port) : (s.modPort f).rx = s.rx := rfl
@[simp] theorem State.modPort_stations (s : State) (f : Port → Port) : (s.modPort f).stations = s.stations := rfl
@[simp] theorem State.modPort_control (s : State) (f : Port → Port) : (s.modPort f).control = s.control := rfl
@[simp] theorem State.modPort_line (s : State) (f : Port → Port) : (s.modPort f).line = s.line := rfl
@[simp] theorem State.modPort_lastWasControl (s : State) (f : Port → Port) :
    (s.modPort f).lastWasControl = s.lastWasControl := rfl
@[simp] theorem State.modPort_heldOff (s : State) (f : Port → Port) : (s.modPort f).heldOff = s.heldOff := rfl
@[simp] theorem State.modPort_waiting (s : State) (f : Port → Port) : (s.modPort f).waiting = s.waiting := rfl
@[simp] theorem State.modPort_dropped (s : State) (f : Port → Port) : (s.modPort f).dropped = s.dropped := rfl
@[simp] theorem State.modPort_params (s : State) (f : Port → Port) : (s.modPort f).params = s.params := rfl
@[simp] theorem State.modPort_work (s : State) (f : Port → Port) : (s.modPort f).work = s.work := rfl
@[simp] theorem State.modPort_heldReqs (s : State) (f : Port → Port) : (s.modPort f).heldReqs = s.heldReqs := rfl
@[simp] theorem State.modPort_mem (s : State) (f : Port → Port) : (s.modPort f).mem = s.mem := rfl
@[simp] theorem State.modPort_claims (s : State) (f : Port → Port) : (s.modPort f).claims = s.claims := rfl
@[simp] theorem State.modPort_drives (s : State) (f : Port → Port) : (s.modPort f).drives = s.drives := rfl
@[simp] theorem State.modPort_labelFailed (s : State) (f : Port → Port) : (s.modPort f).labelFailed = s.labelFailed := rfl
@[simp] theorem State.modPort_picker (s : State) (f : Port → Port) : (s.modPort f).picker = s.picker := rfl
@[simp] theorem State.modPort_bay (s : State) (f : Port → Port) : (s.modPort f).bay = s.bay := rfl
@[simp] theorem State.modPort_fetches (s : State) (f : Port → Port) : (s.modPort f).fetches = s.fetches := rfl
@[simp] theorem State.modPort_fetchTurn (s : State) (f : Port → Port) : (s.modPort f).fetchTurn = s.fetchTurn := rfl
@[simp] theorem State.modPort_filings (s : State) (f : Port → Port) : (s.modPort f).filings = s.filings := rfl
@[simp] theorem State.modPort_fileCount (s : State) (f : Port → Port) : (s.modPort f).fileCount = s.fileCount := rfl
@[simp] theorem State.modPort_fileLine (s : State) (f : Port → Port) : (s.modPort f).fileLine = s.fileLine := rfl
@[simp] theorem State.modPort_reserved (s : State) (f : Port → Port) : (s.modPort f).reserved = s.reserved := rfl
@[simp] theorem State.modPort_orders (s : State) (f : Port → Port) : (s.modPort f).orders = s.orders := rfl
@[simp] theorem State.modPort_acceptCount (s : State) (f : Port → Port) : (s.modPort f).acceptCount = s.acceptCount := rfl
@[simp] theorem State.modPort_port (s : State) (f : Port → Port) : (s.modPort f).port = f s.port := rfl
@[simp] theorem State.modPort_nextId (s : State) (f : Port → Port) : (s.modPort f).nextId = s.nextId := rfl
@[simp] theorem State.modPort_pending (s : State) (f : Port → Port) : (s.modPort f).pending = s.pending := rfl
@[simp] theorem State.modPort_side (s : State) (f : Port → Port) (k : Nat) : (s.modPort f).side k = s.side k := rfl
@[simp] theorem State.modPort_cart (s : State) (f : Port → Port) (k : Nat) : (s.modPort f).cart k = s.cart k := rfl
@[simp] theorem State.modPort_slot (s : State) (f : Port → Port) (k : Nat) : (s.modPort f).slot k = s.slot k := rfl
@[simp] theorem State.modPort_account (s : State) (f : Port → Port) (k : Nat) : (s.modPort f).account k = s.account k := rfl
@[simp] theorem State.modPort_drive (s : State) (f : Port → Port) (k : Nat) : (s.modPort f).drive k = s.drive k := rfl
@[simp] theorem State.modPort_mail (s : State) (f : Port → Port) (k : Nat) : (s.modPort f).mail k = s.mail k := rfl

/-! ### modItem -/

@[simp] theorem State.modItem_powered (s : State) (n : Nat) (f : Item → Item) : (s.modItem n f).powered = s.powered := rfl
@[simp] theorem State.modItem_ret (s : State) (n : Nat) (f : Item → Item) : (s.modItem n f).ret = s.ret := rfl
@[simp] theorem State.modItem_mode (s : State) (n : Nat) (f : Item → Item) : (s.modItem n f).mode = s.mode := rfl
@[simp] theorem State.modItem_clock (s : State) (n : Nat) (f : Item → Item) : (s.modItem n f).clock = s.clock := rfl
@[simp] theorem State.modItem_elapsed (s : State) (n : Nat) (f : Item → Item) : (s.modItem n f).elapsed = s.elapsed := rfl
@[simp] theorem State.modItem_boot (s : State) (n : Nat) (f : Item → Item) : (s.modItem n f).boot = s.boot := rfl
@[simp] theorem State.modItem_rx (s : State) (n : Nat) (f : Item → Item) : (s.modItem n f).rx = s.rx := rfl
@[simp] theorem State.modItem_stations (s : State) (n : Nat) (f : Item → Item) : (s.modItem n f).stations = s.stations := rfl
@[simp] theorem State.modItem_control (s : State) (n : Nat) (f : Item → Item) : (s.modItem n f).control = s.control := rfl
@[simp] theorem State.modItem_line (s : State) (n : Nat) (f : Item → Item) : (s.modItem n f).line = s.line := rfl
@[simp] theorem State.modItem_lastWasControl (s : State) (n : Nat) (f : Item → Item) :
    (s.modItem n f).lastWasControl = s.lastWasControl := rfl
@[simp] theorem State.modItem_heldOff (s : State) (n : Nat) (f : Item → Item) : (s.modItem n f).heldOff = s.heldOff := rfl
@[simp] theorem State.modItem_waiting (s : State) (n : Nat) (f : Item → Item) : (s.modItem n f).waiting = s.waiting := rfl
@[simp] theorem State.modItem_dropped (s : State) (n : Nat) (f : Item → Item) : (s.modItem n f).dropped = s.dropped := rfl
@[simp] theorem State.modItem_params (s : State) (n : Nat) (f : Item → Item) : (s.modItem n f).params = s.params := rfl
@[simp] theorem State.modItem_work (s : State) (n : Nat) (f : Item → Item) :
    (s.modItem n f).work = s.work.map fun i => if i.id = n then f i else i := rfl
@[simp] theorem State.modItem_heldReqs (s : State) (n : Nat) (f : Item → Item) : (s.modItem n f).heldReqs = s.heldReqs := rfl
@[simp] theorem State.modItem_mem (s : State) (n : Nat) (f : Item → Item) : (s.modItem n f).mem = s.mem := rfl
@[simp] theorem State.modItem_claims (s : State) (n : Nat) (f : Item → Item) : (s.modItem n f).claims = s.claims := rfl
@[simp] theorem State.modItem_drives (s : State) (n : Nat) (f : Item → Item) : (s.modItem n f).drives = s.drives := rfl
@[simp] theorem State.modItem_labelFailed (s : State) (n : Nat) (f : Item → Item) :
    (s.modItem n f).labelFailed = s.labelFailed := rfl
@[simp] theorem State.modItem_picker (s : State) (n : Nat) (f : Item → Item) : (s.modItem n f).picker = s.picker := rfl
@[simp] theorem State.modItem_bay (s : State) (n : Nat) (f : Item → Item) : (s.modItem n f).bay = s.bay := rfl
@[simp] theorem State.modItem_fetches (s : State) (n : Nat) (f : Item → Item) : (s.modItem n f).fetches = s.fetches := rfl
@[simp] theorem State.modItem_fetchTurn (s : State) (n : Nat) (f : Item → Item) : (s.modItem n f).fetchTurn = s.fetchTurn := rfl
@[simp] theorem State.modItem_filings (s : State) (n : Nat) (f : Item → Item) : (s.modItem n f).filings = s.filings := rfl
@[simp] theorem State.modItem_fileCount (s : State) (n : Nat) (f : Item → Item) : (s.modItem n f).fileCount = s.fileCount := rfl
@[simp] theorem State.modItem_fileLine (s : State) (n : Nat) (f : Item → Item) : (s.modItem n f).fileLine = s.fileLine := rfl
@[simp] theorem State.modItem_reserved (s : State) (n : Nat) (f : Item → Item) : (s.modItem n f).reserved = s.reserved := rfl
@[simp] theorem State.modItem_orders (s : State) (n : Nat) (f : Item → Item) : (s.modItem n f).orders = s.orders := rfl
@[simp] theorem State.modItem_acceptCount (s : State) (n : Nat) (f : Item → Item) :
    (s.modItem n f).acceptCount = s.acceptCount := rfl
@[simp] theorem State.modItem_port (s : State) (n : Nat) (f : Item → Item) : (s.modItem n f).port = s.port := rfl
@[simp] theorem State.modItem_nextId (s : State) (n : Nat) (f : Item → Item) : (s.modItem n f).nextId = s.nextId := rfl
@[simp] theorem State.modItem_pending (s : State) (n : Nat) (f : Item → Item) : (s.modItem n f).pending = s.pending := rfl
@[simp] theorem State.modItem_side (s : State) (n : Nat) (f : Item → Item) (k : Nat) : (s.modItem n f).side k = s.side k := rfl
@[simp] theorem State.modItem_cart (s : State) (n : Nat) (f : Item → Item) (k : Nat) : (s.modItem n f).cart k = s.cart k := rfl
@[simp] theorem State.modItem_slot (s : State) (n : Nat) (f : Item → Item) (k : Nat) : (s.modItem n f).slot k = s.slot k := rfl
@[simp] theorem State.modItem_account (s : State) (n : Nat) (f : Item → Item) (k : Nat) : (s.modItem n f).account k = s.account k := rfl
@[simp] theorem State.modItem_drive (s : State) (n : Nat) (f : Item → Item) (k : Nat) : (s.modItem n f).drive k = s.drive k := rfl
@[simp] theorem State.modItem_mail (s : State) (n : Nat) (f : Item → Item) (k : Nat) : (s.modItem n f).mail k = s.mail k := rfl

/-! ### modFetch -/

@[simp] theorem State.modFetch_powered (s : State) (n : Nat) (f : Fetch → Fetch) : (s.modFetch n f).powered = s.powered := rfl
@[simp] theorem State.modFetch_ret (s : State) (n : Nat) (f : Fetch → Fetch) : (s.modFetch n f).ret = s.ret := rfl
@[simp] theorem State.modFetch_mode (s : State) (n : Nat) (f : Fetch → Fetch) : (s.modFetch n f).mode = s.mode := rfl
@[simp] theorem State.modFetch_clock (s : State) (n : Nat) (f : Fetch → Fetch) : (s.modFetch n f).clock = s.clock := rfl
@[simp] theorem State.modFetch_elapsed (s : State) (n : Nat) (f : Fetch → Fetch) : (s.modFetch n f).elapsed = s.elapsed := rfl
@[simp] theorem State.modFetch_boot (s : State) (n : Nat) (f : Fetch → Fetch) : (s.modFetch n f).boot = s.boot := rfl
@[simp] theorem State.modFetch_rx (s : State) (n : Nat) (f : Fetch → Fetch) : (s.modFetch n f).rx = s.rx := rfl
@[simp] theorem State.modFetch_stations (s : State) (n : Nat) (f : Fetch → Fetch) :
    (s.modFetch n f).stations = s.stations := rfl
@[simp] theorem State.modFetch_control (s : State) (n : Nat) (f : Fetch → Fetch) : (s.modFetch n f).control = s.control := rfl
@[simp] theorem State.modFetch_line (s : State) (n : Nat) (f : Fetch → Fetch) : (s.modFetch n f).line = s.line := rfl
@[simp] theorem State.modFetch_lastWasControl (s : State) (n : Nat) (f : Fetch → Fetch) :
    (s.modFetch n f).lastWasControl = s.lastWasControl := rfl
@[simp] theorem State.modFetch_heldOff (s : State) (n : Nat) (f : Fetch → Fetch) : (s.modFetch n f).heldOff = s.heldOff := rfl
@[simp] theorem State.modFetch_waiting (s : State) (n : Nat) (f : Fetch → Fetch) : (s.modFetch n f).waiting = s.waiting := rfl
@[simp] theorem State.modFetch_dropped (s : State) (n : Nat) (f : Fetch → Fetch) : (s.modFetch n f).dropped = s.dropped := rfl
@[simp] theorem State.modFetch_params (s : State) (n : Nat) (f : Fetch → Fetch) : (s.modFetch n f).params = s.params := rfl
@[simp] theorem State.modFetch_work (s : State) (n : Nat) (f : Fetch → Fetch) : (s.modFetch n f).work = s.work := rfl
@[simp] theorem State.modFetch_heldReqs (s : State) (n : Nat) (f : Fetch → Fetch) :
    (s.modFetch n f).heldReqs = s.heldReqs := rfl
@[simp] theorem State.modFetch_mem (s : State) (n : Nat) (f : Fetch → Fetch) : (s.modFetch n f).mem = s.mem := rfl
@[simp] theorem State.modFetch_claims (s : State) (n : Nat) (f : Fetch → Fetch) : (s.modFetch n f).claims = s.claims := rfl
@[simp] theorem State.modFetch_drives (s : State) (n : Nat) (f : Fetch → Fetch) : (s.modFetch n f).drives = s.drives := rfl
@[simp] theorem State.modFetch_labelFailed (s : State) (n : Nat) (f : Fetch → Fetch) :
    (s.modFetch n f).labelFailed = s.labelFailed := rfl
@[simp] theorem State.modFetch_picker (s : State) (n : Nat) (f : Fetch → Fetch) : (s.modFetch n f).picker = s.picker := rfl
@[simp] theorem State.modFetch_bay (s : State) (n : Nat) (f : Fetch → Fetch) : (s.modFetch n f).bay = s.bay := rfl
@[simp] theorem State.modFetch_fetches (s : State) (n : Nat) (f : Fetch → Fetch) :
    (s.modFetch n f).fetches = s.fetches.map fun r => if r.seq = n then f r else r := rfl
@[simp] theorem State.modFetch_fetchTurn (s : State) (n : Nat) (f : Fetch → Fetch) :
    (s.modFetch n f).fetchTurn = s.fetchTurn := rfl
@[simp] theorem State.modFetch_filings (s : State) (n : Nat) (f : Fetch → Fetch) : (s.modFetch n f).filings = s.filings := rfl
@[simp] theorem State.modFetch_fileCount (s : State) (n : Nat) (f : Fetch → Fetch) :
    (s.modFetch n f).fileCount = s.fileCount := rfl
@[simp] theorem State.modFetch_fileLine (s : State) (n : Nat) (f : Fetch → Fetch) :
    (s.modFetch n f).fileLine = s.fileLine := rfl
@[simp] theorem State.modFetch_reserved (s : State) (n : Nat) (f : Fetch → Fetch) :
    (s.modFetch n f).reserved = s.reserved := rfl
@[simp] theorem State.modFetch_orders (s : State) (n : Nat) (f : Fetch → Fetch) : (s.modFetch n f).orders = s.orders := rfl
@[simp] theorem State.modFetch_acceptCount (s : State) (n : Nat) (f : Fetch → Fetch) :
    (s.modFetch n f).acceptCount = s.acceptCount := rfl
@[simp] theorem State.modFetch_port (s : State) (n : Nat) (f : Fetch → Fetch) : (s.modFetch n f).port = s.port := rfl
@[simp] theorem State.modFetch_nextId (s : State) (n : Nat) (f : Fetch → Fetch) : (s.modFetch n f).nextId = s.nextId := rfl
@[simp] theorem State.modFetch_pending (s : State) (n : Nat) (f : Fetch → Fetch) : (s.modFetch n f).pending = s.pending := rfl
@[simp] theorem State.modFetch_side (s : State) (n : Nat) (f : Fetch → Fetch) (k : Nat) : (s.modFetch n f).side k = s.side k := rfl
@[simp] theorem State.modFetch_cart (s : State) (n : Nat) (f : Fetch → Fetch) (k : Nat) : (s.modFetch n f).cart k = s.cart k := rfl
@[simp] theorem State.modFetch_slot (s : State) (n : Nat) (f : Fetch → Fetch) (k : Nat) : (s.modFetch n f).slot k = s.slot k := rfl
@[simp] theorem State.modFetch_account (s : State) (n : Nat) (f : Fetch → Fetch) (k : Nat) : (s.modFetch n f).account k = s.account k := rfl
@[simp] theorem State.modFetch_drive (s : State) (n : Nat) (f : Fetch → Fetch) (k : Nat) : (s.modFetch n f).drive k = s.drive k := rfl
@[simp] theorem State.modFetch_mail (s : State) (n : Nat) (f : Fetch → Fetch) (k : Nat) : (s.modFetch n f).mail k = s.mail k := rfl

/-! ### modFiling -/

@[simp] theorem State.modFiling_powered (s : State) (n : Word32) (f : Filing → Filing) :
    (s.modFiling n f).powered = s.powered := rfl
@[simp] theorem State.modFiling_ret (s : State) (n : Word32) (f : Filing → Filing) : (s.modFiling n f).ret = s.ret := rfl
@[simp] theorem State.modFiling_mode (s : State) (n : Word32) (f : Filing → Filing) : (s.modFiling n f).mode = s.mode := rfl
@[simp] theorem State.modFiling_clock (s : State) (n : Word32) (f : Filing → Filing) : (s.modFiling n f).clock = s.clock := rfl
@[simp] theorem State.modFiling_elapsed (s : State) (n : Word32) (f : Filing → Filing) :
    (s.modFiling n f).elapsed = s.elapsed := rfl
@[simp] theorem State.modFiling_boot (s : State) (n : Word32) (f : Filing → Filing) : (s.modFiling n f).boot = s.boot := rfl
@[simp] theorem State.modFiling_rx (s : State) (n : Word32) (f : Filing → Filing) : (s.modFiling n f).rx = s.rx := rfl
@[simp] theorem State.modFiling_stations (s : State) (n : Word32) (f : Filing → Filing) :
    (s.modFiling n f).stations = s.stations := rfl
@[simp] theorem State.modFiling_control (s : State) (n : Word32) (f : Filing → Filing) :
    (s.modFiling n f).control = s.control := rfl
@[simp] theorem State.modFiling_line (s : State) (n : Word32) (f : Filing → Filing) : (s.modFiling n f).line = s.line := rfl
@[simp] theorem State.modFiling_lastWasControl (s : State) (n : Word32) (f : Filing → Filing) :
    (s.modFiling n f).lastWasControl = s.lastWasControl := rfl
@[simp] theorem State.modFiling_heldOff (s : State) (n : Word32) (f : Filing → Filing) :
    (s.modFiling n f).heldOff = s.heldOff := rfl
@[simp] theorem State.modFiling_waiting (s : State) (n : Word32) (f : Filing → Filing) :
    (s.modFiling n f).waiting = s.waiting := rfl
@[simp] theorem State.modFiling_dropped (s : State) (n : Word32) (f : Filing → Filing) :
    (s.modFiling n f).dropped = s.dropped := rfl
@[simp] theorem State.modFiling_params (s : State) (n : Word32) (f : Filing → Filing) :
    (s.modFiling n f).params = s.params := rfl
@[simp] theorem State.modFiling_work (s : State) (n : Word32) (f : Filing → Filing) : (s.modFiling n f).work = s.work := rfl
@[simp] theorem State.modFiling_heldReqs (s : State) (n : Word32) (f : Filing → Filing) :
    (s.modFiling n f).heldReqs = s.heldReqs := rfl
@[simp] theorem State.modFiling_mem (s : State) (n : Word32) (f : Filing → Filing) : (s.modFiling n f).mem = s.mem := rfl
@[simp] theorem State.modFiling_claims (s : State) (n : Word32) (f : Filing → Filing) :
    (s.modFiling n f).claims = s.claims := rfl
@[simp] theorem State.modFiling_drives (s : State) (n : Word32) (f : Filing → Filing) :
    (s.modFiling n f).drives = s.drives := rfl
@[simp] theorem State.modFiling_labelFailed (s : State) (n : Word32) (f : Filing → Filing) :
    (s.modFiling n f).labelFailed = s.labelFailed := rfl
@[simp] theorem State.modFiling_picker (s : State) (n : Word32) (f : Filing → Filing) :
    (s.modFiling n f).picker = s.picker := rfl
@[simp] theorem State.modFiling_bay (s : State) (n : Word32) (f : Filing → Filing) : (s.modFiling n f).bay = s.bay := rfl
@[simp] theorem State.modFiling_fetches (s : State) (n : Word32) (f : Filing → Filing) :
    (s.modFiling n f).fetches = s.fetches := rfl
@[simp] theorem State.modFiling_fetchTurn (s : State) (n : Word32) (f : Filing → Filing) :
    (s.modFiling n f).fetchTurn = s.fetchTurn := rfl
@[simp] theorem State.modFiling_filings (s : State) (n : Word32) (f : Filing → Filing) :
    (s.modFiling n f).filings = s.filings.map fun x => if x.ref = n then f x else x := rfl
@[simp] theorem State.modFiling_fileCount (s : State) (n : Word32) (f : Filing → Filing) :
    (s.modFiling n f).fileCount = s.fileCount := rfl
@[simp] theorem State.modFiling_fileLine (s : State) (n : Word32) (f : Filing → Filing) :
    (s.modFiling n f).fileLine = s.fileLine := rfl
@[simp] theorem State.modFiling_reserved (s : State) (n : Word32) (f : Filing → Filing) :
    (s.modFiling n f).reserved = s.reserved := rfl
@[simp] theorem State.modFiling_orders (s : State) (n : Word32) (f : Filing → Filing) :
    (s.modFiling n f).orders = s.orders := rfl
@[simp] theorem State.modFiling_acceptCount (s : State) (n : Word32) (f : Filing → Filing) :
    (s.modFiling n f).acceptCount = s.acceptCount := rfl
@[simp] theorem State.modFiling_port (s : State) (n : Word32) (f : Filing → Filing) : (s.modFiling n f).port = s.port := rfl
@[simp] theorem State.modFiling_nextId (s : State) (n : Word32) (f : Filing → Filing) :
    (s.modFiling n f).nextId = s.nextId := rfl
@[simp] theorem State.modFiling_pending (s : State) (n : Word32) (f : Filing → Filing) :
    (s.modFiling n f).pending = s.pending := rfl
@[simp] theorem State.modFiling_side (s : State) (n : Word32) (f : Filing → Filing) (k : Nat) : (s.modFiling n f).side k = s.side k := rfl
@[simp] theorem State.modFiling_cart (s : State) (n : Word32) (f : Filing → Filing) (k : Nat) : (s.modFiling n f).cart k = s.cart k := rfl
@[simp] theorem State.modFiling_slot (s : State) (n : Word32) (f : Filing → Filing) (k : Nat) : (s.modFiling n f).slot k = s.slot k := rfl
@[simp] theorem State.modFiling_account (s : State) (n : Word32) (f : Filing → Filing) (k : Nat) : (s.modFiling n f).account k = s.account k := rfl
@[simp] theorem State.modFiling_drive (s : State) (n : Word32) (f : Filing → Filing) (k : Nat) : (s.modFiling n f).drive k = s.drive k := rfl
@[simp] theorem State.modFiling_mail (s : State) (n : Word32) (f : Filing → Filing) (k : Nat) : (s.modFiling n f).mail k = s.mail k := rfl

/-! ### modOrder -/

@[simp] theorem State.modOrder_powered (s : State) (n : Nat) (f : Order → Order) : (s.modOrder n f).powered = s.powered := rfl
@[simp] theorem State.modOrder_ret (s : State) (n : Nat) (f : Order → Order) : (s.modOrder n f).ret = s.ret := rfl
@[simp] theorem State.modOrder_mode (s : State) (n : Nat) (f : Order → Order) : (s.modOrder n f).mode = s.mode := rfl
@[simp] theorem State.modOrder_clock (s : State) (n : Nat) (f : Order → Order) : (s.modOrder n f).clock = s.clock := rfl
@[simp] theorem State.modOrder_elapsed (s : State) (n : Nat) (f : Order → Order) : (s.modOrder n f).elapsed = s.elapsed := rfl
@[simp] theorem State.modOrder_boot (s : State) (n : Nat) (f : Order → Order) : (s.modOrder n f).boot = s.boot := rfl
@[simp] theorem State.modOrder_rx (s : State) (n : Nat) (f : Order → Order) : (s.modOrder n f).rx = s.rx := rfl
@[simp] theorem State.modOrder_stations (s : State) (n : Nat) (f : Order → Order) :
    (s.modOrder n f).stations = s.stations := rfl
@[simp] theorem State.modOrder_control (s : State) (n : Nat) (f : Order → Order) : (s.modOrder n f).control = s.control := rfl
@[simp] theorem State.modOrder_line (s : State) (n : Nat) (f : Order → Order) : (s.modOrder n f).line = s.line := rfl
@[simp] theorem State.modOrder_lastWasControl (s : State) (n : Nat) (f : Order → Order) :
    (s.modOrder n f).lastWasControl = s.lastWasControl := rfl
@[simp] theorem State.modOrder_heldOff (s : State) (n : Nat) (f : Order → Order) : (s.modOrder n f).heldOff = s.heldOff := rfl
@[simp] theorem State.modOrder_waiting (s : State) (n : Nat) (f : Order → Order) : (s.modOrder n f).waiting = s.waiting := rfl
@[simp] theorem State.modOrder_dropped (s : State) (n : Nat) (f : Order → Order) : (s.modOrder n f).dropped = s.dropped := rfl
@[simp] theorem State.modOrder_params (s : State) (n : Nat) (f : Order → Order) : (s.modOrder n f).params = s.params := rfl
@[simp] theorem State.modOrder_work (s : State) (n : Nat) (f : Order → Order) : (s.modOrder n f).work = s.work := rfl
@[simp] theorem State.modOrder_heldReqs (s : State) (n : Nat) (f : Order → Order) :
    (s.modOrder n f).heldReqs = s.heldReqs := rfl
@[simp] theorem State.modOrder_mem (s : State) (n : Nat) (f : Order → Order) : (s.modOrder n f).mem = s.mem := rfl
@[simp] theorem State.modOrder_claims (s : State) (n : Nat) (f : Order → Order) : (s.modOrder n f).claims = s.claims := rfl
@[simp] theorem State.modOrder_drives (s : State) (n : Nat) (f : Order → Order) : (s.modOrder n f).drives = s.drives := rfl
@[simp] theorem State.modOrder_labelFailed (s : State) (n : Nat) (f : Order → Order) :
    (s.modOrder n f).labelFailed = s.labelFailed := rfl
@[simp] theorem State.modOrder_picker (s : State) (n : Nat) (f : Order → Order) : (s.modOrder n f).picker = s.picker := rfl
@[simp] theorem State.modOrder_bay (s : State) (n : Nat) (f : Order → Order) : (s.modOrder n f).bay = s.bay := rfl
@[simp] theorem State.modOrder_fetches (s : State) (n : Nat) (f : Order → Order) : (s.modOrder n f).fetches = s.fetches := rfl
@[simp] theorem State.modOrder_fetchTurn (s : State) (n : Nat) (f : Order → Order) :
    (s.modOrder n f).fetchTurn = s.fetchTurn := rfl
@[simp] theorem State.modOrder_filings (s : State) (n : Nat) (f : Order → Order) : (s.modOrder n f).filings = s.filings := rfl
@[simp] theorem State.modOrder_fileCount (s : State) (n : Nat) (f : Order → Order) :
    (s.modOrder n f).fileCount = s.fileCount := rfl
@[simp] theorem State.modOrder_fileLine (s : State) (n : Nat) (f : Order → Order) :
    (s.modOrder n f).fileLine = s.fileLine := rfl
@[simp] theorem State.modOrder_reserved (s : State) (n : Nat) (f : Order → Order) :
    (s.modOrder n f).reserved = s.reserved := rfl
@[simp] theorem State.modOrder_orders (s : State) (n : Nat) (f : Order → Order) :
    (s.modOrder n f).orders = s.orders.map fun o => if o.number = n then f o else o := rfl
@[simp] theorem State.modOrder_acceptCount (s : State) (n : Nat) (f : Order → Order) :
    (s.modOrder n f).acceptCount = s.acceptCount := rfl
@[simp] theorem State.modOrder_port (s : State) (n : Nat) (f : Order → Order) : (s.modOrder n f).port = s.port := rfl
@[simp] theorem State.modOrder_nextId (s : State) (n : Nat) (f : Order → Order) : (s.modOrder n f).nextId = s.nextId := rfl
@[simp] theorem State.modOrder_pending (s : State) (n : Nat) (f : Order → Order) : (s.modOrder n f).pending = s.pending := rfl
@[simp] theorem State.modOrder_side (s : State) (n : Nat) (f : Order → Order) (k : Nat) : (s.modOrder n f).side k = s.side k := rfl
@[simp] theorem State.modOrder_cart (s : State) (n : Nat) (f : Order → Order) (k : Nat) : (s.modOrder n f).cart k = s.cart k := rfl
@[simp] theorem State.modOrder_slot (s : State) (n : Nat) (f : Order → Order) (k : Nat) : (s.modOrder n f).slot k = s.slot k := rfl
@[simp] theorem State.modOrder_account (s : State) (n : Nat) (f : Order → Order) (k : Nat) : (s.modOrder n f).account k = s.account k := rfl
@[simp] theorem State.modOrder_drive (s : State) (n : Nat) (f : Order → Order) (k : Nat) : (s.modOrder n f).drive k = s.drive k := rfl
@[simp] theorem State.modOrder_mail (s : State) (n : Nat) (f : Order → Order) (k : Nat) : (s.modOrder n f).mail k = s.mail k := rfl

/-! ### issue -/

@[simp] theorem issue_powered (s : State) (m : Nat) (c : BayCmd) (w : Why) : (issue s m c w).powered = s.powered := rfl
@[simp] theorem issue_ret (s : State) (m : Nat) (c : BayCmd) (w : Why) : (issue s m c w).ret = s.ret := rfl
@[simp] theorem issue_mode (s : State) (m : Nat) (c : BayCmd) (w : Why) : (issue s m c w).mode = s.mode := rfl
@[simp] theorem issue_clock (s : State) (m : Nat) (c : BayCmd) (w : Why) : (issue s m c w).clock = s.clock := rfl
@[simp] theorem issue_elapsed (s : State) (m : Nat) (c : BayCmd) (w : Why) : (issue s m c w).elapsed = s.elapsed := rfl
@[simp] theorem issue_boot (s : State) (m : Nat) (c : BayCmd) (w : Why) : (issue s m c w).boot = s.boot := rfl
@[simp] theorem issue_rx (s : State) (m : Nat) (c : BayCmd) (w : Why) : (issue s m c w).rx = s.rx := rfl
@[simp] theorem issue_stations (s : State) (m : Nat) (c : BayCmd) (w : Why) : (issue s m c w).stations = s.stations := rfl
@[simp] theorem issue_control (s : State) (m : Nat) (c : BayCmd) (w : Why) : (issue s m c w).control = s.control := rfl
@[simp] theorem issue_line (s : State) (m : Nat) (c : BayCmd) (w : Why) : (issue s m c w).line = s.line := rfl
@[simp] theorem issue_lastWasControl (s : State) (m : Nat) (c : BayCmd) (w : Why) :
    (issue s m c w).lastWasControl = s.lastWasControl := rfl
@[simp] theorem issue_heldOff (s : State) (m : Nat) (c : BayCmd) (w : Why) : (issue s m c w).heldOff = s.heldOff := rfl
@[simp] theorem issue_waiting (s : State) (m : Nat) (c : BayCmd) (w : Why) : (issue s m c w).waiting = s.waiting := rfl
@[simp] theorem issue_dropped (s : State) (m : Nat) (c : BayCmd) (w : Why) : (issue s m c w).dropped = s.dropped := rfl
@[simp] theorem issue_params (s : State) (m : Nat) (c : BayCmd) (w : Why) : (issue s m c w).params = s.params := rfl
@[simp] theorem issue_work (s : State) (m : Nat) (c : BayCmd) (w : Why) : (issue s m c w).work = s.work := rfl
@[simp] theorem issue_heldReqs (s : State) (m : Nat) (c : BayCmd) (w : Why) : (issue s m c w).heldReqs = s.heldReqs := rfl
@[simp] theorem issue_mem (s : State) (m : Nat) (c : BayCmd) (w : Why) : (issue s m c w).mem = s.mem := rfl
@[simp] theorem issue_claims (s : State) (m : Nat) (c : BayCmd) (w : Why) : (issue s m c w).claims = s.claims := rfl
@[simp] theorem issue_drives (s : State) (m : Nat) (c : BayCmd) (w : Why) : (issue s m c w).drives = s.drives := rfl
@[simp] theorem issue_labelFailed (s : State) (m : Nat) (c : BayCmd) (w : Why) :
    (issue s m c w).labelFailed = s.labelFailed := rfl
@[simp] theorem issue_picker (s : State) (m : Nat) (c : BayCmd) (w : Why) : (issue s m c w).picker = s.picker := rfl
@[simp] theorem issue_bay (s : State) (m : Nat) (c : BayCmd) (w : Why) :
    (issue s m c w).bay = { s.bay with queue := s.bay.queue ++ [⟨m, c, w⟩] } := rfl
@[simp] theorem issue_fetches (s : State) (m : Nat) (c : BayCmd) (w : Why) : (issue s m c w).fetches = s.fetches := rfl
@[simp] theorem issue_fetchTurn (s : State) (m : Nat) (c : BayCmd) (w : Why) : (issue s m c w).fetchTurn = s.fetchTurn := rfl
@[simp] theorem issue_filings (s : State) (m : Nat) (c : BayCmd) (w : Why) : (issue s m c w).filings = s.filings := rfl
@[simp] theorem issue_fileCount (s : State) (m : Nat) (c : BayCmd) (w : Why) : (issue s m c w).fileCount = s.fileCount := rfl
@[simp] theorem issue_fileLine (s : State) (m : Nat) (c : BayCmd) (w : Why) : (issue s m c w).fileLine = s.fileLine := rfl
@[simp] theorem issue_reserved (s : State) (m : Nat) (c : BayCmd) (w : Why) : (issue s m c w).reserved = s.reserved := rfl
@[simp] theorem issue_orders (s : State) (m : Nat) (c : BayCmd) (w : Why) : (issue s m c w).orders = s.orders := rfl
@[simp] theorem issue_acceptCount (s : State) (m : Nat) (c : BayCmd) (w : Why) :
    (issue s m c w).acceptCount = s.acceptCount := rfl
@[simp] theorem issue_port (s : State) (m : Nat) (c : BayCmd) (w : Why) : (issue s m c w).port = s.port := rfl
@[simp] theorem issue_nextId (s : State) (m : Nat) (c : BayCmd) (w : Why) : (issue s m c w).nextId = s.nextId := rfl
@[simp] theorem issue_pending (s : State) (m : Nat) (c : BayCmd) (w : Why) : (issue s m c w).pending = s.pending := rfl
@[simp] theorem issue_side (s : State) (m : Nat) (c : BayCmd) (w : Why) (k : Nat) : (issue s m c w).side k = s.side k := rfl
@[simp] theorem issue_cart (s : State) (m : Nat) (c : BayCmd) (w : Why) (k : Nat) : (issue s m c w).cart k = s.cart k := rfl
@[simp] theorem issue_slot (s : State) (m : Nat) (c : BayCmd) (w : Why) (k : Nat) : (issue s m c w).slot k = s.slot k := rfl
@[simp] theorem issue_account (s : State) (m : Nat) (c : BayCmd) (w : Why) (k : Nat) : (issue s m c w).account k = s.account k := rfl
@[simp] theorem issue_drive (s : State) (m : Nat) (c : BayCmd) (w : Why) (k : Nat) : (issue s m c w).drive k = s.drive k := rfl
@[simp] theorem issue_mail (s : State) (m : Nat) (c : BayCmd) (w : Why) (k : Nat) : (issue s m c w).mail k = s.mail k := rfl

/-! ### dropQueued -/

@[simp] theorem dropQueued_powered (s : State) (m : Nat) : (dropQueued s m).powered = s.powered := rfl
@[simp] theorem dropQueued_ret (s : State) (m : Nat) : (dropQueued s m).ret = s.ret := rfl
@[simp] theorem dropQueued_mode (s : State) (m : Nat) : (dropQueued s m).mode = s.mode := rfl
@[simp] theorem dropQueued_clock (s : State) (m : Nat) : (dropQueued s m).clock = s.clock := rfl
@[simp] theorem dropQueued_elapsed (s : State) (m : Nat) : (dropQueued s m).elapsed = s.elapsed := rfl
@[simp] theorem dropQueued_boot (s : State) (m : Nat) : (dropQueued s m).boot = s.boot := rfl
@[simp] theorem dropQueued_rx (s : State) (m : Nat) : (dropQueued s m).rx = s.rx := rfl
@[simp] theorem dropQueued_stations (s : State) (m : Nat) : (dropQueued s m).stations = s.stations := rfl
@[simp] theorem dropQueued_control (s : State) (m : Nat) : (dropQueued s m).control = s.control := rfl
@[simp] theorem dropQueued_line (s : State) (m : Nat) : (dropQueued s m).line = s.line := rfl
@[simp] theorem dropQueued_lastWasControl (s : State) (m : Nat) : (dropQueued s m).lastWasControl = s.lastWasControl := rfl
@[simp] theorem dropQueued_heldOff (s : State) (m : Nat) : (dropQueued s m).heldOff = s.heldOff := rfl
@[simp] theorem dropQueued_waiting (s : State) (m : Nat) : (dropQueued s m).waiting = s.waiting := rfl
@[simp] theorem dropQueued_dropped (s : State) (m : Nat) : (dropQueued s m).dropped = s.dropped := rfl
@[simp] theorem dropQueued_params (s : State) (m : Nat) : (dropQueued s m).params = s.params := rfl
@[simp] theorem dropQueued_work (s : State) (m : Nat) : (dropQueued s m).work = s.work := rfl
@[simp] theorem dropQueued_heldReqs (s : State) (m : Nat) : (dropQueued s m).heldReqs = s.heldReqs := rfl
@[simp] theorem dropQueued_mem (s : State) (m : Nat) : (dropQueued s m).mem = s.mem := rfl
@[simp] theorem dropQueued_claims (s : State) (m : Nat) : (dropQueued s m).claims = s.claims := rfl
@[simp] theorem dropQueued_drives (s : State) (m : Nat) : (dropQueued s m).drives = s.drives := rfl
@[simp] theorem dropQueued_labelFailed (s : State) (m : Nat) : (dropQueued s m).labelFailed = s.labelFailed := rfl
@[simp] theorem dropQueued_picker (s : State) (m : Nat) : (dropQueued s m).picker = s.picker := rfl
@[simp] theorem dropQueued_bay (s : State) (m : Nat) :
    (dropQueued s m).bay = { s.bay with queue := s.bay.queue.filter fun e => e.module != m } := rfl
@[simp] theorem dropQueued_fetches (s : State) (m : Nat) : (dropQueued s m).fetches = s.fetches := rfl
@[simp] theorem dropQueued_fetchTurn (s : State) (m : Nat) : (dropQueued s m).fetchTurn = s.fetchTurn := rfl
@[simp] theorem dropQueued_filings (s : State) (m : Nat) : (dropQueued s m).filings = s.filings := rfl
@[simp] theorem dropQueued_fileCount (s : State) (m : Nat) : (dropQueued s m).fileCount = s.fileCount := rfl
@[simp] theorem dropQueued_fileLine (s : State) (m : Nat) : (dropQueued s m).fileLine = s.fileLine := rfl
@[simp] theorem dropQueued_reserved (s : State) (m : Nat) : (dropQueued s m).reserved = s.reserved := rfl
@[simp] theorem dropQueued_orders (s : State) (m : Nat) : (dropQueued s m).orders = s.orders := rfl
@[simp] theorem dropQueued_acceptCount (s : State) (m : Nat) : (dropQueued s m).acceptCount = s.acceptCount := rfl
@[simp] theorem dropQueued_port (s : State) (m : Nat) : (dropQueued s m).port = s.port := rfl
@[simp] theorem dropQueued_nextId (s : State) (m : Nat) : (dropQueued s m).nextId = s.nextId := rfl
@[simp] theorem dropQueued_pending (s : State) (m : Nat) : (dropQueued s m).pending = s.pending := rfl
@[simp] theorem dropQueued_side (s : State) (m : Nat) (k : Nat) : (dropQueued s m).side k = s.side k := rfl
@[simp] theorem dropQueued_cart (s : State) (m : Nat) (k : Nat) : (dropQueued s m).cart k = s.cart k := rfl
@[simp] theorem dropQueued_slot (s : State) (m : Nat) (k : Nat) : (dropQueued s m).slot k = s.slot k := rfl
@[simp] theorem dropQueued_account (s : State) (m : Nat) (k : Nat) : (dropQueued s m).account k = s.account k := rfl
@[simp] theorem dropQueued_drive (s : State) (m : Nat) (k : Nat) : (dropQueued s m).drive k = s.drive k := rfl
@[simp] theorem dropQueued_mail (s : State) (m : Nat) (k : Nat) : (dropQueued s m).mail k = s.mail k := rfl

/-! ### writeBlock -/

@[simp] theorem writeBlock_powered (s : State) (b : Nat) (l : List Byte) : (writeBlock s b l).powered = s.powered := rfl
@[simp] theorem writeBlock_ret (s : State) (b : Nat) (l : List Byte) : (writeBlock s b l).ret = s.ret := rfl
@[simp] theorem writeBlock_mode (s : State) (b : Nat) (l : List Byte) : (writeBlock s b l).mode = s.mode := rfl
@[simp] theorem writeBlock_clock (s : State) (b : Nat) (l : List Byte) : (writeBlock s b l).clock = s.clock := rfl
@[simp] theorem writeBlock_elapsed (s : State) (b : Nat) (l : List Byte) : (writeBlock s b l).elapsed = s.elapsed := rfl
@[simp] theorem writeBlock_boot (s : State) (b : Nat) (l : List Byte) : (writeBlock s b l).boot = s.boot := rfl
@[simp] theorem writeBlock_rx (s : State) (b : Nat) (l : List Byte) : (writeBlock s b l).rx = s.rx := rfl
@[simp] theorem writeBlock_stations (s : State) (b : Nat) (l : List Byte) : (writeBlock s b l).stations = s.stations := rfl
@[simp] theorem writeBlock_control (s : State) (b : Nat) (l : List Byte) : (writeBlock s b l).control = s.control := rfl
@[simp] theorem writeBlock_line (s : State) (b : Nat) (l : List Byte) : (writeBlock s b l).line = s.line := rfl
@[simp] theorem writeBlock_lastWasControl (s : State) (b : Nat) (l : List Byte) :
    (writeBlock s b l).lastWasControl = s.lastWasControl := rfl
@[simp] theorem writeBlock_heldOff (s : State) (b : Nat) (l : List Byte) : (writeBlock s b l).heldOff = s.heldOff := rfl
@[simp] theorem writeBlock_waiting (s : State) (b : Nat) (l : List Byte) : (writeBlock s b l).waiting = s.waiting := rfl
@[simp] theorem writeBlock_dropped (s : State) (b : Nat) (l : List Byte) : (writeBlock s b l).dropped = s.dropped := rfl
@[simp] theorem writeBlock_params (s : State) (b : Nat) (l : List Byte) : (writeBlock s b l).params = s.params := rfl
@[simp] theorem writeBlock_work (s : State) (b : Nat) (l : List Byte) : (writeBlock s b l).work = s.work := rfl
@[simp] theorem writeBlock_heldReqs (s : State) (b : Nat) (l : List Byte) : (writeBlock s b l).heldReqs = s.heldReqs := rfl
@[simp] theorem writeBlock_mem (s : State) (b : Nat) (l : List Byte) :
    (writeBlock s b l).mem = memWriteAll s.mem (Config.blockBytes * b) (l.take Config.blockBytes) := rfl
@[simp] theorem writeBlock_claims (s : State) (b : Nat) (l : List Byte) : (writeBlock s b l).claims = s.claims := rfl
@[simp] theorem writeBlock_drives (s : State) (b : Nat) (l : List Byte) : (writeBlock s b l).drives = s.drives := rfl
@[simp] theorem writeBlock_labelFailed (s : State) (b : Nat) (l : List Byte) :
    (writeBlock s b l).labelFailed = s.labelFailed := rfl
@[simp] theorem writeBlock_picker (s : State) (b : Nat) (l : List Byte) : (writeBlock s b l).picker = s.picker := rfl
@[simp] theorem writeBlock_bay (s : State) (b : Nat) (l : List Byte) : (writeBlock s b l).bay = s.bay := rfl
@[simp] theorem writeBlock_fetches (s : State) (b : Nat) (l : List Byte) : (writeBlock s b l).fetches = s.fetches := rfl
@[simp] theorem writeBlock_fetchTurn (s : State) (b : Nat) (l : List Byte) : (writeBlock s b l).fetchTurn = s.fetchTurn := rfl
@[simp] theorem writeBlock_filings (s : State) (b : Nat) (l : List Byte) : (writeBlock s b l).filings = s.filings := rfl
@[simp] theorem writeBlock_fileCount (s : State) (b : Nat) (l : List Byte) : (writeBlock s b l).fileCount = s.fileCount := rfl
@[simp] theorem writeBlock_fileLine (s : State) (b : Nat) (l : List Byte) : (writeBlock s b l).fileLine = s.fileLine := rfl
@[simp] theorem writeBlock_reserved (s : State) (b : Nat) (l : List Byte) : (writeBlock s b l).reserved = s.reserved := rfl
@[simp] theorem writeBlock_orders (s : State) (b : Nat) (l : List Byte) : (writeBlock s b l).orders = s.orders := rfl
@[simp] theorem writeBlock_acceptCount (s : State) (b : Nat) (l : List Byte) :
    (writeBlock s b l).acceptCount = s.acceptCount := rfl
@[simp] theorem writeBlock_port (s : State) (b : Nat) (l : List Byte) : (writeBlock s b l).port = s.port := rfl
@[simp] theorem writeBlock_nextId (s : State) (b : Nat) (l : List Byte) : (writeBlock s b l).nextId = s.nextId := rfl
@[simp] theorem writeBlock_pending (s : State) (b : Nat) (l : List Byte) : (writeBlock s b l).pending = s.pending := rfl
@[simp] theorem writeBlock_side (s : State) (b : Nat) (l : List Byte) (k : Nat) : (writeBlock s b l).side k = s.side k := rfl
@[simp] theorem writeBlock_cart (s : State) (b : Nat) (l : List Byte) (k : Nat) : (writeBlock s b l).cart k = s.cart k := rfl
@[simp] theorem writeBlock_slot (s : State) (b : Nat) (l : List Byte) (k : Nat) : (writeBlock s b l).slot k = s.slot k := rfl
@[simp] theorem writeBlock_account (s : State) (b : Nat) (l : List Byte) (k : Nat) : (writeBlock s b l).account k = s.account k := rfl
@[simp] theorem writeBlock_drive (s : State) (b : Nat) (l : List Byte) (k : Nat) : (writeBlock s b l).drive k = s.drive k := rfl
@[simp] theorem writeBlock_mail (s : State) (b : Nat) (l : List Byte) (k : Nat) : (writeBlock s b l).mail k = s.mail k := rfl

/-! ### The updated entry read back -/

theorem State.side_setSide (s : State) (n k : Nat) (e : Side) :
    (s.setSide n e).side k = if n = k ∧ 1 ≤ n ∧ n ≤ s.ret.sides.length then e else s.side k := tget_tset _ _ _ _ _
theorem State.cart_setCart (s : State) (n k : Nat) (e : Option Cart) :
    (s.setCart n e).cart k = if n = k ∧ 1 ≤ n ∧ n ≤ s.ret.carts.length then e else s.cart k := tget_tset _ _ _ _ _
theorem State.slot_setSlot (s : State) (n k : Nat) (e : Slot) :
    (s.setSlot n e).slot k = if n = k ∧ 1 ≤ n ∧ n ≤ s.ret.slots.length then e else s.slot k := tget_tset _ _ _ _ _
theorem State.account_setAccount (s : State) (n k : Nat) (e : Account) :
    (s.setAccount n e).account k = if n = k ∧ 1 ≤ n ∧ n ≤ s.ret.accounts.length then e else s.account k :=
  tget_tset _ _ _ _ _
theorem State.drive_modDrive (s : State) (n k : Nat) (f : Drive → Drive) :
    (s.modDrive n f).drive k = if n = k ∧ 1 ≤ n ∧ n ≤ s.drives.length then f (s.drive n) else s.drive k :=
  tget_tset _ _ _ _ _
theorem State.mail_setMail (s : State) (n k : Nat) (e : Mail) :
    (s.setMail n e).mail k = if n = k ∧ 1 ≤ n ∧ n ≤ s.picker.mails.length then e else s.mail k := tget_tset _ _ _ _ _

end Sys2Proof.Machine
end

