-- ==== Sys2Proof/Tests/Slice0.lean ====
section
/-! SUPPORT. Tests: the well-formedness smoke, frames and check values, one or two steps of the commands on small states, and
for each statement with hypotheses a state and operands that meet them. -/

set_option Elab.async false

namespace Sys2Proof.Tests

open Sys2Proof Sys2Proof.Machine

/-! ### Small states -/

/-- A request header of station 0, and of station 1. -/
def at0 : Hdr := ⟨7, 0⟩
def at1 : Hdr := ⟨7, 1⟩

/-- The board running, nothing in it. -/
def up : State := { State.reset with mode := .run }

def upClock : State := { up with clock := some ⟨1, 0⟩ }

/-- Record 1, label 9, IN_LIBRARY in slot 3, its side 1 CLOSED with documents 1 to 5, side 2 BLANK. -/
def lib : State :=
  let s := ((up.setCart 1 (some ⟨9, .inLibrary, some 3⟩)).setSlot 3 ⟨.record 1, false⟩).setSide 1
    ⟨.closed, some 1, some 5, 5, 50, 0, 5, some .host, some 1, true⟩
  { s.retain fun r => { r with nextDoc := 6, dayOpen := true, openedDay := some 1 } with clock := some ⟨1, 100⟩ }

/-- The same with record 1 in another state. -/
def libCart (st : CartState) : State := lib.setCart 1 (some ⟨9, st, some 3⟩)

/-- Account 64 as given, on a running board. -/
def acct (k : Account) : State := up.setAccount 64 k

def copyReq (payer : Nat) : CopyReq := ⟨3, 1, 1, payer, [(1, 2)]⟩

/-- Order 1 of station 1 on document 3, PLAIN, pages 1 and 2. -/
def order (payer hold : Nat) : Order := newOrder 1 0 7 1 (copyReq payer) 1 10 0 [1, 2] hold 0

def withOrder (o : Order) (s : State) : State := { s with orders := [o] }

/-- A page of order 1 in hand. -/
def inHand (kind : PortPage) (attempt : Nat) (sent : Bool) (limit : Limit) : PageInHand :=
  ⟨4, kind, 1, 1, 1, attempt, limit, sent, false⟩

/-- The port held by the order, a page of it in hand. -/
def printing (o : Order) (h : PageInHand) (st : PrinterState) : State :=
  { lib with orders := [o], port := ⟨some 1, 5, some h, [], st⟩ }

def fileReq (kind count : Nat) (code : Word16) (target : Nat) : FileBeginReq :=
  ⟨77, kind, 1, count, code, target, if kind = 2 then [(1, 1)] else [], [0]⟩

def fileBody (kind count target : Nat) : List Byte :=
  be 4 77 ++ be 1 kind ++ be 1 1 ++ be 2 count ++ be 2 5 ++ be 4 target ++
    (if kind = 2 then be 1 1 ++ be 1 1 ++ be 1 1 else be 1 0) ++ be 2 0

/-- A filing of station 0. -/
def filing (kind : Nat) (st : FilingState) (received : Nat) : Filing :=
  { newFiling 7 0 (fileReq kind 2 5 3) with state := st, received := received }

def withFiling (f : Filing) (s : State) : State :=
  { s with filings := [f], claims := [⟨0, .filing 77, 2, some [0, 1], [0, 1], [], 0, true⟩], nextId := 1 }

/-- A fetch record of document 3, pages 1 to 2. -/
def fetchRec : Fetch := newFetch 0 7 1 true ⟨3, 1, 2, 0⟩ 1 1

/-- Drive 4 as given. -/
def driveAs (f : Drive → Drive) : State := lib.modDrive 4 f

/-- A command on the bus. -/
def onBus (e : BayEntry) (tries : Nat) (s : State) : State := { s with bay := ⟨[], some (e, tries), [], false⟩ }

def aTransfer : Transfer := ⟨3, .mount, some 1, .slot 3, some (.drive 1), .a, none, none, false⟩

/-- The picker carrying out a MOUNT. -/
def carrying : State :=
  { lib with picker := { lib.picker with
      state := .fetching, routine := .none, queue := [aTransfer], arm := some ⟨3, none, true, true⟩ } }

/-- The library with the printer READY. -/
def ready : State := { lib with port := { lib.port with printer := .ready } }

/-- The library with the inventory over. -/
def calm : State := { lib with picker := { lib.picker with routine := .none } }

/-- Side 2 OPEN, filled to document 6. -/
def opened : State := (calm.setSide 2 { Side.blank with
  state := .opened, first := some 6, last := some 6, count := 1, slotsUsed := 1, openedDay := some 1 }).retain fun r =>
    { r with nextDoc := 7 }

/-- STATUS of a module on the bus. -/
def asking (a : Nat) (why : Why) (s : State) : State := onBus ⟨a, .status, why⟩ 0 s
abbrev Asked (s : State) (a : Nat) (why : Why) : Prop := s.powered = true ∧ s.bay.bus = some (⟨a, .status, why⟩, 0)

/-- Drive 4 with record 1's face in it, an operation of a task under way, and a status of that operation. -/
def busy (f : Face) (task : Task) (k : DriveOpKind) (s : State) : State :=
  asking 5 .pass (s.modDrive 4 fun d => { d with state := .active, occ := .record 1, face := some f, task := task, op := some k })
def stat (k : DriveOpKind) (r : OpResult) (bs : List BlockIn) : DriveStatus := ⟨true, true, false, none, some k, r, false, bs⟩
abbrev Ends (s : State) (d : Nat) (st : DriveStatus) (k : DriveOpKind) : Prop :=
  Asked s (d + 1) .pass ∧ 1 ≤ d ∧ d ≤ 4 ∧ st.moduleFault = false ∧ (s.drive d).op = some k ∧ st.op = some k ∧ st.result ≠ .running

/-- A picker status of a phase. -/
def pick (ph : PickPhase) (scan : Option (List Nat)) : PickerStatus := ⟨ph, true, false, scan, false⟩

/-- An item of drive 4. -/
def itemOn4 (k : ItemKind) (side : Nat) (st : ItemState) : Item :=
  ⟨1, some 7, some 1, .view, k, some side, some 3, some 77, some 1, none, 0, 3, st, some 4, false, none⟩

/-- A request that the checks of R191 let through, from station 0. -/
abbrev Adm (s : State) (k : ReqKind) (b : List Byte) : Prop := decide (Admitted s k at0 b) = true

/-- The same from station 1. -/
abbrev Adm1 (s : State) (k : ReqKind) (b : List Byte) : Prop := decide (Admitted s k at1 b) = true

/-! ### Well-formedness: each check refuses an ill-formed command -/

theorem test_wf_body : (Instr.status at0 []).wf = true ∧ (Instr.status at0 (List.replicate 1101 0)).wf = false := by
  decide +kernel
theorem test_wf_unknown_kind : (Instr.unknownKindFrame 0x80 at0 []).wf = true ∧
    (Instr.unknownKindFrame 0x01 at0 []).wf = false ∧
    (Instr.unknownKindFrame 0x80 at0 (List.replicate 1101 0)).wf = false := by decide +kernel
theorem test_wf_bad_frame : (Instr.badFrame [0x5A, 0xFF, 0xFF]).wf = true ∧
    (Instr.badFrame (frameBytes 1 7 0 [])).wf = false := by decide +kernel
theorem test_wf_scan : (Instr.pickerStatusTaken ⟨.done, false, false, some [1, 127], false⟩).wf = true ∧
    (Instr.pickerStatusTaken ⟨.done, false, false, some [0], false⟩).wf = false ∧
    (Instr.pickerStatusTaken ⟨.done, false, false, some [128], false⟩).wf = false := by decide +kernel
def driveStatus (label : Option (Nat × Face)) (r : OpResult) (bs : List BlockIn) : DriveStatus :=
  ⟨true, true, false, label, some .read, r, false, bs⟩
theorem test_wf_drive : (Instr.driveStatusTaken 4 (driveStatus (some (1, .a)) .complete [.erased (List.replicate 1024 255)])).wf = true ∧
    (Instr.driveStatusTaken 5 (driveStatus none .complete [])).wf = false ∧
    (Instr.driveStatusTaken 1 (driveStatus none .complete [.data [0]])).wf = false ∧
    (Instr.driveStatusTaken 1 (driveStatus none .complete [.erased []])).wf = false ∧
    (Instr.driveStatusTaken 1 (driveStatus none (.failedBlock 283049) [])).wf = false ∧
    (Instr.driveStatusTaken 1 (driveStatus (some (0, .a)) .complete [])).wf = false ∧
    (Instr.driveStatusTaken 1 (driveStatus (some (1000000, .a)) .complete [])).wf = false := by decide +kernel
theorem test_wf_timer_drives : (Instr.spinUpTimeout 1).wf = true ∧ (Instr.spinUpTimeout 0).wf = false ∧
    (Instr.idleTimeout 5).wf = false := by decide +kernel
theorem test_wf_door : (Instr.doorStatusTaken 2 ⟨true, false, false, false⟩).wf = true ∧
    (Instr.doorStatusTaken 3 ⟨true, false, false, false⟩).wf = false := by decide +kernel
theorem test_wf_answer : (Instr.printerAnswer 0 2).wf = true ∧ (Instr.printerAnswer 0 3).wf = false := by decide +kernel
theorem test_wf_printer_status : (Instr.printerStatus 3).wf = true ∧ (Instr.printerStatus 0).wf = false ∧
    (Instr.printerStatus 4).wf = false := by decide +kernel
theorem test_wf_printer_frame : (Instr.printerFrameBad [0]).wf = true ∧
    (Instr.printerFrameBad (PortFrame.bytes ⟨0x12, [1]⟩)).wf = false := by decide +kernel

/-! ### Check value and frames -/

/-- The state after a command; every command answers a next state. -/
def after (c : Instr) (s : State) : State :=
  match exec c s with
  | .next t => t
  | .fault _ => s
  | .refused _ => s

theorem test_crc : crc16 [0x31, 0x32, 0x33, 0x34, 0x35, 0x36, 0x37, 0x38, 0x39] = 0x29B1#16 := by decide +kernel
theorem test_status_frame : hear lib (frameBytes 0x01 7 0 []) = after (.status at0 []) lib ∧
    (frameBytes 0x01 7 0 []).take 7 = [0x5A, 0, 0, 0x01, 0, 7, 0] := by decide +kernel
theorem test_check_broken : (hear lib [0x5A, 0, 0, 0x01, 0, 7, 0, 0, 0]).control = [.linkReject .check] := by decide +kernel
theorem test_length_bad : (after (.badFrame [0, 0x5A, 0x04, 0x4D]) lib).control = [.linkReject .length] ∧
    (after (.badFrame [0x5A, 0x04, 0x4D]) lib).rx = [] := by decide +kernel
theorem test_gap : (after (.interbyteGap 0x5A) (after (.badFrame [0x5A, 0]) lib)).control = [.linkReject .gap] ∧
    (after (.interbyteGap 0x5A) (after (.badFrame [0x5A, 0]) lib)).rx = [0x5A] ∧
    (after (.interbyteGap 0x00) lib).control = [] := by decide +kernel
theorem test_kind_bytes : ReqKind.byte .status = 0x01 ∧ ReqKind.byte .copyOrder = 0x0F ∧ ReqKind.byte .setParams = 0x10 ∧
    ReqKind.byte .restart = 0x29 ∧ ReqKind.byte .fileBegin = 0x30 ∧ ReqKind.byte .cancel = 0x35 := by decide

/-! ### One or two steps of a command -/

/-- The outcome byte and the refusal code of the last reply placed. -/
def answered (s : State) : Option (Nat × Nat) :=
  match s.control.getLast? with
  | some (.reply r) => some (r.outcome.code, r.outcome.refusalCode)
  | _ => none

theorem test_idle : step State.reset = .next State.reset := rfl
theorem test_queue : (step (up.withQueue [.hostHoldOff true, .frameSent])) =
    .next { up with heldOff := true, pending := [.frameSent] } := rfl
theorem test_status : answered (after (.status at0 []) State.reset) = some (2, 0) := by decide +kernel
theorem test_rebuilding : answered (after (.locate at0 (be 4 3)) State.reset) = some (3, 20) := by decide +kernel
theorem test_locate : (after (.locate at0 (be 4 3)) lib).control =
    [.reply ⟨7, 0, ReqKind.locate.byte, .done, [1, 0, 1, 1, 0, 0, 0, 9, 1, 3, 0]⟩] := by decide +kernel
theorem test_set_clock : (after (.setClock at0 (be 2 12 ++ be 4 86399)) up).clock = some ⟨12, 86399⟩ := by decide +kernel
theorem test_clock_day : (after .clockSecond (after (.setClock at0 (be 2 12 ++ be 4 86399)) up)).clock = some ⟨13, 0⟩ := by
  decide +kernel
theorem test_station_set : (after (.stationSet at0 [3, 2]) up).stations.take 4 = [.pub, .pub, .supervisor, .pub] := by
  decide +kernel
theorem test_not_permitted : answered (after (.setClock at1 (be 2 12 ++ be 4 0)) up) = some (3, 3) := by decide +kernel
theorem test_params : (after (.setParams at0 ([16] ++ be 2 64 ++ [7, 32, 6] ++ be 2 30 ++ be 2 1800)) up).params =
    ⟨16, 64, 7, 32, [.file, .copy, .view], 30, 1800⟩ := by decide +kernel
theorem test_params_refused : (after (.setParams at0 ([16] ++ be 2 64 ++ [8, 32, 6] ++ be 2 30 ++ be 2 1800)) up).params =
    Params.default := by decide +kernel
theorem test_deposit : (after (.accountDeposit at0 ([64] ++ be 4 500)) (acct ⟨.active, -200, 300, 0⟩)).account 64 =
    ⟨.active, 300, 300, 0⟩ := by decide +kernel
theorem test_withdraw_refused : answered (after (.accountWithdraw at0 ([64] ++ be 4 500)) (acct ⟨.active, 499, 300, 0⟩)) =
    some (3, 17) := by decide +kernel
theorem test_fees : (after (.feeSet at0 (be 4 5 ++ be 4 6 ++ be 4 50000)) up).ret.fees = ⟨5, 6, 50000⟩ := by decide +kernel
theorem test_day_close : (after (.dayClose at0 []) lib).ret.dayOpen = false ∧
    answered (after (.dayClose at0 []) lib) = some (2, 0) := by decide +kernel
theorem test_rest_then_fetch : (after (.rest at0 []) up).mode = .rest ∧
    (after (.fetch at0 (be 4 3 ++ [1, 2, 0])) { lib with mode := .rest }).mode = .run := by decide +kernel
theorem test_fetch : (after (.fetch at0 (be 4 3 ++ [1, 2, 1])) lib).work.map (fun i => (i.cls, i.kind, i.side)) =
    [(.urgent, .fetch, some 1)] ∧ (after (.fetch at0 (be 4 3 ++ [1, 2, 1])) lib).fetches.length = 1 := by decide +kernel
theorem test_copy_grants_port : (after (.copyOrder at1 (be 4 3 ++ [1, 1, 0, 1, 1, 2])) ready).port.holder = some 1 := by
  decide +kernel
theorem test_file_begin : (after (.fileBegin at0 (fileBody 1 2 0)) lib).filings.map Filing.state = [.receiving] ∧
    (after (.fileBegin at0 (fileBody 1 2 0)) lib).claims.map Claim.size = [2] := by decide +kernel
theorem test_file_data : (after (.fileData at0 (be 4 77 ++ be 2 1 ++ List.replicate 1023 0 ++ [9]))
    (withFiling (filing 1 .receiving 1) lib)).mem = [(2047, 9)] := by decide +kernel
theorem test_file_end : (after (.fileEnd at0 (be 4 77)) (withFiling (filing 1 .receiving 2) lib)).filings.map Filing.state =
    [.queued] := by decide +kernel
theorem test_consent_code : (after (.consent ⟨7, 0⟩ (be 4 77 ++ be 2 6))
    (withFiling { filing 2 .awaitingConsent 2 with station := 1 } lib)).filings = [] := by decide +kernel
theorem test_plain_page_charged : (after (.printerAnswer 4 1) (printing (order 64 20) (inHand .data 1 true .running) .ready)).ret.counts.total =
    10 := by decide +kernel
theorem test_spoiled : (after (.printerAnswer 4 2) (printing (order 64 20) (inHand .data 1 true .running) .ready)).orders.map Order.retry =
    [some 1] := by decide +kernel
theorem test_answer_timeout : (after .answerTimeout (printing (order 64 20) (inHand .data 1 true .running) .ready)).port.printer =
    .fault := by decide +kernel
theorem test_third_try : (after .bayByteNak (onBus ⟨5, .spinDown, .plain⟩ 2 lib)).drives.map Drive.state =
    [.empty, .empty, .empty, .faulted] := by decide +kernel
theorem test_second_try : (after .bayByteNak (onBus ⟨5, .spinDown, .plain⟩ 1 lib)).bay.bus =
    some (⟨5, .spinDown, .plain⟩, 2) := by decide +kernel
theorem test_power : (after .powerLoss lib).powered = false ∧ (after .powerLoss lib).ret = lib.ret ∧
    (after (.powerOn true) { lib with ret := { lib.ret with rebuildFlag := false } }).mode = .start ∧
    (after (.powerOn false) lib).mode = .rebuild := by decide +kernel

/-! ### The statements' hypotheses are met -/

/-- A full Reply Queue; a full Notice Queue. -/
def full : State := { up with control := List.replicate 8 (.linkReject .gap) }
def fullNotices : State := { up with control := List.replicate 32 (.notice ⟨.door, none, []⟩) }

/-- A fetch record whose page 1 is STAGED in two blocks, UNREADABLE or WITHHELD, and its frame on the line. -/
def sending (o : PageOutcome) : State :=
  { lib with fetches := [{ fetchRec with state := .reading, pages := [⟨1, o, 2, [0, 1]⟩] }] }
def pageFrame (m : PageMarker) (chunk : Nat) (b : Option Nat) : PageFrame := ⟨0, 7, 1, 1, chunk, 2, m, [], 2, b⟩
def onLine (o : PageOutcome) (p : PageFrame) : State := { sending o with line := some (.page p) }

theorem test_witness_invariants : let s := lib.withQueue [.hostHoldOff false]
    Memory.wf s.mem = true ∧ noticeCount s ≤ 32 ∧ replyCount s ≤ 8 ∧ TablesSized s ∧ WithinCapacity s ∧
      s.params.inRange ∧ (∀ c ∈ s.clock, c.inRange) ∧ MoneyKept s := by decide +kernel
theorem test_witness_invariants_step : step (lib.withQueue [.hostHoldOff false]) = .next (pumpLine lib) := rfl

theorem lib_side (n : Nat) : lib.ret.side n = if n = 1 then lib.ret.side 1 else Side.blank := by
  have blank : ∀ m, tget State.reset.ret.sides m Side.blank = Side.blank := by
    intro m
    cases m with
    | zero => rfl
    | succ k =>
      show (List.replicate 320 Side.blank).getD k Side.blank = Side.blank
      rw [List.getD_eq_getElem?_getD, List.getElem?_replicate]; split <;> rfl
  by_cases h : n = 1
  · rw [h]; rfl
  · rw [if_neg h]
    show tget (tset State.reset.ret.sides 1 _) n Side.blank = Side.blank
    rw [tget_tset_ne _ _ _ _ _ (Ne.symm h)]
    exact blank n

theorem lib_cart (c : Nat) : lib.ret.cart c = if c = 1 then some ⟨9, .inLibrary, some 3⟩ else none := by
  by_cases h : c = 1
  · rw [h]; rfl
  · rw [if_neg h]
    show tget (tset State.reset.ret.carts 1 _) c none = none
    rw [tget_tset_ne _ _ _ _ _ (Ne.symm h)]
    cases c with
    | zero => rfl
    | succ k =>
      show (List.replicate 160 (none : Option Cart)).getD k none = none
      rw [List.getD_eq_getElem?_getD, List.getElem?_replicate]; split <;> rfl

theorem lib_side_state (n : Nat) : (lib.ret.side n).state = if n = 1 then .closed else .blank := by
  rw [lib_side]; split <;> rfl

theorem test_witness_volume_law : VolumeLaw lib.ret where
  next := by decide
  oneOpen := by intro n m h; rw [lib_side_state] at h; split at h <;> cases h
  blank := by
    intro n h; rw [lib_side_state] at h; rw [lib_side]; split at h
    · cases h
    · next hn => rw [if_neg hn]
  unassigned := by
    intro n h; rw [lib_cart] at h; rw [lib_side]
    by_cases hn : n = 1
    · subst hn; cases h
    · rw [if_neg hn]
  runs := by
    intro n; rw [lib_side]; split
    · exact Or.inr ⟨1, 5, rfl, rfl, by decide, by decide, by decide, by decide⟩
    · exact Or.inl ⟨rfl, rfl, rfl⟩
  disjoint := by
    rintro n m d ⟨a, z, h1, _⟩ ⟨b, y, h2, _⟩
    rw [lib_side] at h1 h2
    by_cases hn : n = 1
    · by_cases hm : m = 1
      · rw [hn, hm]
      · rw [if_neg hm] at h2; cases h2
    · rw [if_neg hn] at h1; cases h1
  openLast := by intro n z h; rw [lib_side_state] at h; split at h <;> cases h
  marks := by intro n; rw [lib_side]; split <;> decide

/-- The library is lawful and not in REBUILD, and no FORGET can be taken in its next step. -/
theorem test_witness_lawful : Lawful lib.ret ∧ lib.mode ≠ .rebuild ∧ (lib.withQueue [.hostHoldOff false]).rx = [] := by
  refine ⟨⟨test_witness_volume_law, ⟨?_, ?_, ?_⟩⟩, by decide, rfl⟩
  · intro c k h; rw [lib_cart] at h; split at h
    · cases h; decide
    · cases h
  · intro c d k l x h1 h2 _ _
    rw [lib_cart] at h1 h2
    split at h1
    · split at h2
      · next a b => rw [a, b]
      · cases h2
    · cases h1
  · intro c k x h1 h2
    rw [lib_cart] at h1
    split at h1
    · cases h1; cases h2; rfl
    · cases h1

theorem test_witness_place_law : PlaceLaw lib := by
  have dr : ∀ d, (lib.drive d).occ = .empty := by
    intro d
    cases d with
    | zero => rfl
    | succ k =>
      show ((List.replicate 4 Drive.initial).getD k Drive.initial).occ = .empty
      rw [List.getD_eq_getElem?_getD, List.getElem?_replicate]; split <;> rfl
  have ml : ∀ m, (lib.mail m).occ = .empty := by
    intro m
    match m with
    | 0 | 1 | 2 => rfl
    | k + 3 => rfl
  have sl : ∀ n, (lib.slot n).occ = if n = 3 then .record 1 else .empty := by
    intro n
    by_cases h : n = 3
    · rw [h]; rfl
    · rw [if_neg h]
      show (tget (tset State.reset.ret.slots 3 _) n _).occ = .empty
      rw [tget_tset_ne _ _ _ _ _ (Ne.symm h)]
      cases n with
      | zero => rfl
      | succ k =>
        show ((List.replicate 120 (⟨.empty, false⟩ : Slot)).getD k ⟨.empty, true⟩).occ = .empty
        rw [List.getD_eq_getElem?_getD, List.getElem?_replicate]; split <;> rfl
  have at3 : ∀ c p, placeOcc lib p = .record c → c = 1 ∧ p = .slot 3 := by
    intro c p h
    cases p with
    | slot n =>
      have e : (lib.slot n).occ = .record c := h
      rw [sl] at e
      split at e
      · next hn => cases e; exact ⟨rfl, by rw [hn]⟩
      · cases e
    | drive d => have e : (lib.drive d).occ = .record c := h; rw [dr] at e; cases e
    | gripper => cases h
    | mail m => have e : (lib.mail m).occ = .record c := h; rw [ml] at e; cases e
  refine ⟨fun c p q h1 h2 => ?_, fun c p h => ?_, fun c m h => ?_⟩
  · rw [(at3 c p h1).2, (at3 c q h2).2]
  · rw [(at3 c p h).1]; rfl
  · cases (at3 c _ h).2

theorem test_witness_labels : LabelsKept (lib.retain fun r => { r with labelCounter := 10 }) := by
  have dr : ∀ d, (tget lib.drives d Drive.initial).task = .idle := by
    intro d
    cases d with
    | zero => rfl
    | succ k =>
      show ((List.replicate 4 Drive.initial).getD k Drive.initial).task = .idle
      rw [List.getD_eq_getElem?_getD, List.getElem?_replicate]; split <;> rfl
  refine ⟨fun c k h => ?_, fun c d k l h1 h2 _ => ?_, fun d n h => ?_, fun d e n h _ => ?_⟩
  · have h : lib.ret.cart c = some k := h
    rw [lib_cart] at h; split at h <;> cases h; decide
  · have h1 : lib.ret.cart c = some k := h1
    have h2 : lib.ret.cart d = some l := h2
    rw [lib_cart] at h1 h2
    split at h1 <;> [skip; cases h1]
    split at h2 <;> [skip; cases h2]
    next a b => rw [a, b]
  · have h : (tget lib.drives d Drive.initial).task.newSerial = some n := h
    rw [dr] at h; cases h
  · have h : (tget lib.drives d Drive.initial).task.newSerial = some n := h
    rw [dr] at h; cases h

theorem test_witness_reserve :
    let s : State := { lib with reserved := [(256, 77)] }
    TablesSized s ∧ ReserveKept s :=
  ⟨by decide +kernel, by decide +kernel, by decide +kernel, by decide +kernel⟩
theorem test_witness_no_forget : (∀ h b, lib.waiting ≠ some (.request ReqKind.forget.byte h b)) ∧
    (∀ c, (lib.withQueue [.hostHoldOff false]).pending.head? = some c → (∀ h b, c ≠ .forget h b) ∧ (∀ bytes, c ≠ .badFrame bytes) ∧
      ∀ h b, c ≠ .unknownKindFrame ReqKind.forget.byte h b) ∧
    ∀ g, (lib.withQueue [.hostHoldOff false]).pending.head? ≠ some (.powerOn g) := by
  refine ⟨fun h b e => (by cases e), fun c e => ?_, fun g e => (by cases e)⟩
  cases e
  exact ⟨fun h b e => (by cases e), fun bs e => (by cases e), fun h b e => (by cases e)⟩

theorem test_witness_funds :
    (let s := withOrder (order 64 20) (acct ⟨.active, 15, 5, 0⟩)
     FundsLaw s ∧ LinkTakes s ∧ requestOf (.accountLimit at0 []) = some (.accountLimit, at0, []) ∧
       ReqKind.accountLimit.simple = true ∧ (s.orders.map Order.number).Nodup ∧ order 64 20 ∈ s.orders ∧ 20 ≤ (order 64 20).hold) ∧
    (let s := acct ⟨.active, 15, 5, 0⟩; FundsLaw s ∧ ((20 : Nat) : Int) ≤ availableFunds s (copyReq 64).payer) := by decide +kernel

theorem test_witness_charge : 1 ≤ 64 ∧ (charge (acct ⟨.active, 0, 5, 0⟩) 64 1 5 .page).account 64 = ⟨.active, -5, 5, 5⟩ := by
  decide +kernel

theorem test_witness_unpowered : let s : State := { lib with powered := false }
    s.powered = false ∧ Instr.clockSecond ≠ .powerOn true ∧ Instr.clockSecond ≠ .powerOn false := by decide +kernel

theorem test_witness_crc : let b0 := frameBytes 1 7 0 []; numAt b0 1 2 = 0 ∧ b0.length = 9 + 0 := by decide +kernel
theorem test_witness_crc_longest : let b1 : List Byte := 0x5A :: be 2 1100 ++ List.replicate 1106 0
    numAt b1 1 2 = 1100 ∧ b1.length = 9 + 1100 :=
  ⟨by decide +kernel, by simp only [List.length_append, List.length_cons, List.length_replicate, be, List.length_map,
    List.length_range]⟩

theorem test_witness_frame : (List.replicate 1100 (0 : Byte)).length ≤ 1100 := by rw [List.length_replicate]
theorem test_witness_frame_heard : LinkTakes lib ∧ 8 < (frameBytes 1 7 0 []).length := by decide +kernel

theorem test_witness_bodies : 4294967295 < 4294967296 ∧ 255 < 256 ∧ 65535 < 65536 ∧
    (List.replicate 255 (255, 255)).length < 256 ∧ (∀ r ∈ List.replicate 255 (255, 255), r.1 < 256 ∧ r.2 < 256) ∧
    (∀ o ∈ List.replicate 255 65535, o < 65536) := by decide +kernel

theorem test_witness_label : let l : Label := ⟨4294967295, .b, .closed, 4294967295, 65535, some .host, some 4294967295, 65535⟩
    l.serial < 4294967296 ∧ l.firstToBe < 4294967296 ∧ l.openedDay < 65536 ∧ (∀ n ∈ l.last, n < 4294967296) ∧
      l.count < 65536 := by decide +kernel

theorem test_witness_record :
    DocRecord.valid ⟨4294967295, 65535, 86399, 32, 0xFFFFFFFF, 4, [0, 1024, 2048, 3072], 275904, 4096, [(0, 0), (4095, 2047)],
      some (4294967294, [(1, 200)])⟩ = true ∧
    DocRecord.valid ⟨1, 1, 0, 0, 0, 1, [0], 0, 1, [], none⟩ = true := by decide +kernel

theorem test_witness_staging : Memory.wf [(5, 1)] = true ∧ (List.replicate 1024 (9 : Byte)).length = 1024 ∧ 1 ≠ 0 := by
  decide +kernel

theorem test_witness_request_checks :
    (requestOf (.locate at0 []) = some (.locate, at0, []) ∧ requestOf (.status at0 [1]) = some (.status, at0, [1])) ∧
    (LinkTakes { lib with mode := .start } ∧ LinkTakes State.reset ∧ State.reset.mode = .rebuild ∧ LinkTakes lib) ∧
    (lib.mode ≠ .start ∧ lib.mode ≠ .rebuild) ∧ 32 < (Hdr.mk 7 33).station.toNat ∧
    ((Hdr.mk 7 32).station.toNat ≤ 32 ∧ ReqKind.setClock ∈ ReqKind.maintenanceClass ∧ isSupervisor lib 32 = false) ∧
    (isSupervisor lib 0 = true ∧ ([] : List Byte).length ≠ layoutLength .setClock []) ∧
    ([1] : List Byte).length ≠ layoutLength .status [1] := by decide +kernel

theorem test_witness_unknown_kind : LinkTakes lib ∧ reqKindOf 0x00 = none ∧ reqKindOf 0x2A = none ∧ reqKindOf 0x36 = none ∧
    reqKindOf 0x80 = none := by decide +kernel

theorem test_witness_bad_frame : LinkTakes lib ∧ 1100 < (0x04 : Byte).toNat * 256 + (0x4D : Byte).toNat ∧
    (let checked : List Byte := [1, 0, 7, 0]; 4 ≤ checked.length ∧ checked.length ≤ 1104 ∧ 0 < 65536 ∧ 0 ≠ (crc16 checked).toNat) ∧
    (0x5A : Byte) ∉ [0x00, 0x5B] := by decide +kernel
theorem test_witness_bad_frame_step : exec (.badFrame [0x5A]) lib = .next { lib with rx := [0x5A] } := rfl

theorem test_witness_gap : ∀ rx ∈ [([] : List Byte), [0x5A, 0]],
    (let s : State := { lib with rx := rx }; s.powered = true ∧ s.waiting = none ∧ s.rx = rx ∧ replyCount s < 8) ∧
    (let s : State := { full with rx := rx }; s.powered = true ∧ s.waiting = none ∧ s.rx = rx ∧ 8 ≤ replyCount s) := by
  decide +kernel

theorem test_witness_frame_in_hand : let s : State := { lib with rx := [0x5A] }
    requestOf (.status at0 []) = some (.status, at0, []) ∧ s.powered = true ∧ s.rx ≠ [] := by decide +kernel

theorem test_witness_full_reply_queue :
    (full.powered = true ∧ full.waiting = none ∧ full.rx = [] ∧ Config.replyCapacity ≤ replyCount full) ∧
    (let s : State := { full with line := some .control }; s.waiting = none ∧ s.line = some .control) ∧
    (let s : State := { full with line := some .control, waiting := some (.bad .gap) }
     s.waiting.isSome = true ∧ s.line = some .control ∧ replyCount { s with control := s.control.tail } < 8) := by
  decide +kernel

theorem test_witness_line :
    (lib.heldOff = false ∧ lib.line = none ∧ nextPageFrame lib = none ∧ lib.control = []) ∧
    (nextPageFrame full = none ∧ full.control ≠ []) ∧
    (let s := sending .unreadable; (nextPageFrame s).isSome = true ∧ s.control = []) ∧
    (let s : State := { sending .unreadable with control := [.linkReject .gap] }
     (nextPageFrame s).isSome = true ∧ s.control ≠ [] ∧ s.lastWasControl = false ∧
       (nextPageFrame { s with lastWasControl := true }).isSome = true) ∧
    ({ lib with heldOff := true } : State).heldOff = true := by decide +kernel

theorem test_witness_notice : noticeCount { up with control := List.replicate 31 (.notice ⟨.door, none, []⟩) } < 32 ∧
    32 ≤ noticeCount fullNotices := by decide +kernel

theorem test_witness_page_sent :
    (let p := pageFrame .data 1 (some 0); let s := onLine .staged p
     s.powered = true ∧ s.line = some (.page p) ∧ ((s.findFetch p.fetch).bind fun f => f.pages.find? fun q => q.page == p.page) =
       some ⟨1, .staged, 2, [0, 1]⟩ ∧ p.chunk < p.chunks) ∧
    (let p := pageFrame .data 2 (some 1); p.chunks ≤ p.chunk) ∧
    (let p := pageFrame .withheld 1 none; let s := onLine .withheld p
     ((s.findFetch p.fetch).bind fun f => f.pages.find? fun q => q.page == p.page).map FetchPage.outcome = some .withheld) ∧
    (let p := pageFrame .unreadable 1 none; let s := onLine .unreadable p
     ((s.findFetch p.fetch).bind fun f => f.pages.find? fun q => q.page == p.page).map FetchPage.outcome = some .unreadable) := by
  decide +kernel

theorem test_witness_queries : Adm State.reset .status [] ∧ Adm lib .stationQuery [] ∧ Adm lib .paramsQuery [] ∧
    Adm lib .slotQuery [] ∧ Adm lib .workQuery [] ∧ Adm lib .filingQuery [] ∧ Adm lib .copyQuery [] ∧ Adm lib .feeQuery [] ∧
    Adm lib .tallyQuery [] ∧ (Adm lib .locate (be 4 5) ∧ rangeLookup lib 5 = some 1) ∧
    (Adm lib .locate (be 4 6) ∧ rangeLookup lib 6 = none) := by decide +kernel

theorem test_witness_spans :
    (Adm lib .sideQuery (be 2 305 ++ [16]) ∧ 305 + 16 ≤ 321) ∧ (Adm lib .sideQuery (be 2 306 ++ [16]) ∧ 321 < 306 + 16) ∧
    (Adm lib .sideQuery (be 2 0 ++ [1]) ∧ Adm lib .sideQuery (be 2 1 ++ [17])) ∧
    (Adm lib .cartridgeQuery [145, 16] ∧ 145 + 16 ≤ 161) ∧ (Adm lib .cartridgeQuery [160, 2] ∧ 161 < 160 + 2) ∧
    (Adm lib .accountQuery [49, 16] ∧ 49 + 16 ≤ 65) ∧ (Adm lib .accountQuery [64, 2] ∧ 65 < 64 + 2) ∧
    Adm lib .withheldQuery (be 4 3) ∧ Adm lib .withheldQuery (be 4 0) := by decide +kernel

theorem test_witness_reports : lib.cart (sideCart 3) = none ∧ lib.cart (sideCart 2) = some ⟨9, .inLibrary, some 3⟩ ∧
    lib.ret.lastClose = none ∧ (closeDay lib).ret.lastClose = some (dayReport lib) := by decide +kernel

theorem test_witness_range_lookup : lib.ret.nextDoc ≤ 6 ∧ rangeLookup lib 5 = some 1 ∧
    (1 ≤ 1 ∧ 5 < lib.ret.nextDoc ∧ 1 ≤ lib.ret.sides.length ∧ sideAssigned lib 1 = true ∧ (lib.side 1).first = some 1 ∧
      (lib.side 1).last = some 5) := by decide +kernel

theorem test_witness_station_set : (Adm lib .stationSet [32, 3] ∧ numAt [32, 3] 1 1 = StationKind.code .scanning) ∧
    (Adm lib .stationSet [33, 1] ∧ 32 < numAt [33, 1] 0 1) ∧ (Adm lib .stationSet [1, 4] ∧ 3 < numAt [1, 4] 1 1) := by
  decide +kernel

theorem test_witness_set_params :
    (let b : List Byte := [1] ++ be 2 1024 ++ [0, 1, 1] ++ be 2 3600 ++ be 2 60
     Adm lib .setParams b ∧ (parseParams b).badField = 0) ∧
    (let b : List Byte := [1] ++ be 2 1025 ++ [0, 1, 1] ++ be 2 3600 ++ be 2 60
     Adm lib .setParams b ∧ (parseParams b).badField = 2) ∧
    (∀ d ∈ [1, 2, 3, 4], (lib.drive d).state ≠ .ready) := by decide +kernel

theorem test_witness_set_clock :
    (let b := be 2 1 ++ be 4 86399; Adm lib .setClock b ∧ 1 ≤ numAt b 0 2 ∧ numAt b 2 4 < 86400) ∧
    (let b := be 2 1 ++ be 4 86400; Adm lib .setClock b ∧ 86400 ≤ numAt b 2 4) ∧
    (let b := be 2 0 ++ be 4 0; Adm lib .setClock b ∧ numAt b 0 2 = 0) ∧ (∀ f ∈ lib.filings, f.due ⟨1, 0⟩ = false) := by
  decide +kernel

theorem test_witness_fee_set :
    (let b := be 4 50000 ++ be 4 0 ++ be 4 50000; Adm lib .feeSet b ∧ numAt b 0 4 ≤ 50000 ∧ numAt b 8 4 ≤ 50000) ∧
    (∀ b ∈ [be 4 50001 ++ be 4 0 ++ be 4 0, be 4 0 ++ be 4 50001 ++ be 4 0, be 4 0 ++ be 4 0 ++ be 4 50001], Adm lib .feeSet b ∧
      (50000 < numAt b 0 4 ∨ 50000 < numAt b 4 4 ∨ 50000 < numAt b 8 4)) := by decide +kernel

theorem test_witness_account_state :
    (let s := acct ⟨.inactive, 0, 0, 0⟩; let b := [64] ++ be 4 9999999; Adm s .accountOpen b ∧ numAt b 0 1 = 64 ∧
      numAt b 1 4 = 9999999 ∧ (s.account 64).state = .inactive) ∧
    (let s := acct ⟨.active, 0, 0, 0⟩; Adm s .accountOpen ([64] ++ be 4 0) ∧ (s.account 64).state ≠ .inactive) ∧
    Adm up .accountOpen ([64] ++ be 4 10000000) ∧ (Adm up .accountOpen ([65] ++ be 4 0) ∧ 64 < numAt ([65] ++ be 4 0) 0 1) ∧
    (Adm (acct ⟨.active, 0, 0, 0⟩) .accountSuspend [64] ∧ Adm (acct ⟨.suspended, 0, 0, 0⟩) .accountResume [64] ∧
      Adm up .accountSuspend [1] ∧ Adm up .accountResume [1] ∧ (up.account 1).state = .inactive ∧
      Adm up .accountSuspend [0] ∧ Adm up .accountResume [65]) ∧
    (let s := acct ⟨.active, 0, 5, 0⟩; Adm s .accountClose [64] ∧ openOrders s 64 = 0 ∧ holdsOf s 64 = 0 ∧
      (s.account 64).balance = 0) ∧
    (let s := acct ⟨.active, -1, 5, 0⟩; Adm s .accountClose [64] ∧ openOrders s 64 = 0 ∧ (s.account 64).balance ≠ 0) ∧
    (let s := withOrder (order 64 20) (acct ⟨.active, 20, 5, 0⟩); Adm s .accountClose [64] ∧ openOrders s 64 ≠ 0) ∧
    (let s := acct ⟨.suspended, 0, 5, 0⟩; Adm s .accountClose [64] ∧ (s.account 64).state ≠ .active) ∧
    Adm up .accountClose [0] := by decide +kernel

theorem test_witness_account_limit :
    Adm up .accountLimit ([0] ++ be 4 0) ∧ Adm (acct ⟨.active, 0, 0, 0⟩) .accountLimit ([64] ++ be 4 10000000) ∧
    Adm (acct ⟨.inactive, 0, 0, 0⟩) .accountLimit ([64] ++ be 4 5) ∧
    (let s := acct ⟨.active, -6, 9, 0⟩; Adm s .accountLimit ([64] ++ be 4 5) ∧ (s.account 64).balance < -5) ∧
    (let s := withOrder (order 64 20) (acct ⟨.suspended, 14, 9, 0⟩); Adm s .accountLimit ([64] ++ be 4 5) ∧
      (-5 : Int) ≤ (s.account 64).balance ∧ (s.account 64).balance + 5 < holdsOf s 64) ∧
    (let s := withOrder (order 64 20) (acct ⟨.suspended, 15, 5, 0⟩); Adm s .accountLimit ([64] ++ be 4 5) ∧
      (holdsOf s 64 : Int) ≤ (s.account 64).balance + 5 ∧ (s.account 64).limit ≤ 5) := by decide +kernel

theorem test_witness_account_money :
    (let s := acct ⟨.suspended, 0, 0, 0⟩; Adm s .accountDeposit ([64] ++ be 4 99999999) ∧
      (s.account 64).balance + (99999999 : Nat) ≤ 99999999) ∧
    (let s := acct ⟨.active, 1, 0, 0⟩; Adm s .accountDeposit ([64] ++ be 4 99999999) ∧
      99999999 < (s.account 64).balance + (99999999 : Nat)) ∧
    (Adm up .accountDeposit ([64] ++ be 4 0) ∧ Adm up .accountDeposit ([64] ++ be 4 100000000) ∧
      Adm up .accountDeposit ([65] ++ be 4 1) ∧ Adm up .accountDeposit ([64] ++ be 4 1)) ∧
    (let s := withOrder (order 64 20) (acct ⟨.active, 30, 5, 0⟩); Adm s .accountWithdraw ([64] ++ be 4 10) ∧
      ((10 : Nat) : Int) ≤ (s.account 64).balance - holdsOf s 64) ∧
    (let s := withOrder (order 64 20) (acct ⟨.active, 29, 5, 0⟩); Adm s .accountWithdraw ([64] ++ be 4 10) ∧
      (s.account 64).balance - holdsOf s 64 < (10 : Nat)) ∧
    (Adm up .accountWithdraw ([64] ++ be 4 0) ∧ Adm up .accountWithdraw ([0] ++ be 4 1) ∧
      Adm up .accountWithdraw ([64] ++ be 4 1)) := by decide +kernel

theorem test_witness_day : (Adm { up with mode := .night } .dayOpen [] ∧ Adm lib .dayOpen [] ∧ lib.ret.dayOpen = true ∧
      Adm up .dayOpen [] ∧ up.ret.dayOpen = false) ∧
    (Adm up .dayClose [] ∧ Adm (withOrder (order 64 20) lib) .dayClose [] ∧ Adm lib .dayClose [] ∧ lib.orders = []) := by
  decide +kernel

theorem test_witness_slots :
    (Adm up .slotDisable [0] ∧ Adm up .slotDisable [121] ∧ Adm up .slotEnable [0] ∧ Adm up .slotEnable [120]) ∧
    (Adm lib .slotDisable [120] ∧ (lib.slot 120).occ = .empty ∧ homeOf lib 120 = none) ∧
    (Adm lib .slotDisable [3] ∧ (lib.slot 3).occ ≠ .empty) ∧
    (let s := lib.setSlot 3 ⟨.empty, false⟩; Adm s .slotDisable [3] ∧ (s.slot 3).occ = .empty ∧ (s.slot 3).disabled = false ∧
      homeOf s 3 ≠ none) := by decide +kernel

theorem test_witness_picker_reset : (Adm carrying .pickerReset [] ∧ carrying.picker.arm ≠ none) ∧
    (Adm lib .pickerReset [] ∧ lib.picker.arm = none) := by decide +kernel

theorem test_witness_forget : (Adm lib .forget (be 4 8) ∧ recordOfLabel lib 8 = none) ∧
    (Adm lib .forget (be 4 9) ∧ recordOfLabel lib 9 = some 1 ∧ cartInState lib 1 .withdrawn = false) ∧
    (let s := libCart .withdrawn; cartInState s 1 .withdrawn = true ∧ (s.side 1).count ≠ 0) ∧
    (let s := (libCart .withdrawn).setSide 1 Side.blank; Adm s .forget (be 4 9) ∧ recordOfLabel s 9 = some 1 ∧
      cartInState s 1 .withdrawn = true ∧ (s.side 1).count = 0 ∧ (s.side 2).count = 0) := by decide +kernel

theorem test_witness_export : (Adm { lib with mode := .night } .exportCart (be 4 9) ∧ Adm lib .exportCart (be 4 8) ∧
      recordOfLabel lib 8 = none) ∧
    (cartInState (libCart .missing) 1 .inLibrary = false ∧ recordOfLabel (libCart .missing) 9 = some 1) ∧
    (let s := lib.modDrive 4 fun d => { d with state := .faulted, occ := .record 1 }; Adm s .exportCart (be 4 9) ∧
      cartInState s 1 .inLibrary = true ∧ stuck s 1 = true) ∧
    (let s := lib.setSide 2 { lib.side 2 with state := .opened }; stuck s 1 = false ∧ exportBusy s 1 = true) ∧
    (Adm lib .exportCart (be 4 9) ∧ recordOfLabel lib 9 = some 1 ∧ cartInState lib 1 .inLibrary = true ∧ stuck lib 1 = false ∧
      exportBusy lib 1 = false) := by decide +kernel

theorem test_witness_close_side : (Adm lib .closeSide (be 2 0) ∧ Adm lib .closeSide (be 2 321)) ∧
    (Adm lib .closeSide (be 2 320) ∧ (lib.side 320).state ≠ .opened) ∧
    (let s := lib.setSide 2 { lib.side 2 with state := .opened }; Adm s .closeSide (be 2 2) ∧ (s.side 2).state = .opened ∧
      (∀ f ∈ s.filings, f.state ≠ .writing ∧ f.state ≠ .committing)) ∧
    (let s := withFiling (filing 1 .writing 2) (lib.setSide 2 { lib.side 2 with state := .opened }); Adm s .closeSide (be 2 2) ∧
      (∃ f ∈ s.filings, f.state = .writing ∨ f.state = .committing)) := by decide +kernel

theorem test_witness_mark_faulty : (Adm lib .markFaulty (be 2 0) ∧ Adm lib .markFaulty (be 2 3) ∧ sideAssigned lib 3 = false) ∧
    (let s := lib.setSide 2 { lib.side 2 with state := .opened }; Adm s .markFaulty (be 2 2) ∧ sideAssigned s 2 = true) ∧
    (let s := lib.setSide 2 { lib.side 2 with state := .faulty }; Adm s .markFaulty (be 2 2) ∧ (s.side 2).state = .faulty) ∧
    (Adm lib .markFaulty (be 2 2) ∧ (lib.side 2).state = .blank ∧ (lib.side 1).state = .closed ∧
      (∀ i ∈ lib.work, i.side ≠ some 2) ∧ (∀ d ∈ lib.drives, d.task = .idle)) := by decide +kernel

theorem test_witness_drive_service :
    (Adm lib .driveService [0, 1] ∧ Adm lib .driveService [5, 1] ∧ Adm lib .driveService [5, 2]) ∧
    (Adm lib .driveService [4, 1] ∧ (lib.drive 4).service = .inService ∧ (lib.drive 4).state = .empty ∧ holderOf lib 4 = none) ∧
    (∀ sv ∈ [Service.leaving, Service.out], let s := driveAs fun d => { d with service := sv }
      Adm s .driveService [4, 1] ∧ (s.drive 4).service ≠ .inService) ∧
    (∀ o ∈ [Occupant.empty, Occupant.record 1], let s := driveAs fun d => { d with state := .faulted, occ := o }
      Adm s .driveService [4, 1] ∧ (s.drive 4).state = .faulted ∧ (s.drive 4).occ = o) ∧
    (∀ st ∈ [DriveState.ready, .active, .spinningUp, .spinningDown, .stopped], let s := driveAs fun d => { d with state := st }
      Adm s .driveService [4, 1] ∧ (s.drive 4).service = .inService ∧ (s.drive 4).state = st) ∧
    (let s := driveAs fun d => { d with service := .leaving, state := .ready }; Adm s .driveService [4, 2] ∧
      (s.drive 4).service = .leaving) ∧
    (let s := driveAs fun d => { d with service := .out, state := .outOfService }; Adm s .driveService [4, 2] ∧
      (s.drive 4).state = .outOfService ∧ (s.drive 4).service ≠ .leaving) ∧
    (Adm lib .driveService [4, 2] ∧ (lib.drive 4).state ≠ .outOfService ∧ (lib.drive 4).state ≠ .faulted) := by decide +kernel

theorem test_witness_modes :
    (Adm { up with mode := .night } .rest [] ∧ Adm { up with mode := .rest } .rest [] ∧ Adm up .rest [] ∧ restBlocked up = 0) ∧
    (let s := withFiling (filing 1 .receiving 0) up; Adm s .rest [] ∧ restBlocked s = 2 ∧ nightBlocked s = 2) ∧
    (Adm { up with mode := .night } .night [] ∧ Adm lib .night [] ∧ nightBlocked lib = 6 ∧ Adm up .night [] ∧
      nightBlocked up = 0) ∧ Adm { up with mode := .night } .wake [] ∧ Adm lib .restart [] := by decide +kernel

theorem test_witness_mode_conditions :
    (let s : State := { up with work := [itemOn4 .fetch 1 .assigned] }; s.work ≠ []) ∧
    (let s := withFiling (filing 1 .receiving 0) up; s.work = [] ∧ s.filings ≠ []) ∧
    (∀ x ∈ [DriveState.active, .spinningUp], let s := up.modDrive 4 fun d => { d with state := x }
      s.work = [] ∧ s.filings = [] ∧ ∃ d ∈ s.drives, d.state = .active ∨ d.state = .spinningUp) ∧
    (∀ q ∈ [([aTransfer], ([] : List Transfer)), ([], [aTransfer])],
      let s : State := { up with picker := { up.picker with queue := q.1, deferred := q.2 } }
      s.work = [] ∧ s.filings = [] ∧ (¬∃ d ∈ s.drives, d.state = .active ∨ d.state = .spinningUp) ∧
        (s.picker.queue ≠ [] ∨ s.picker.deferred ≠ [])) ∧
    (let s : State := { up with picker := { up.picker with state := .faulted } }
     s.work = [] ∧ s.filings = [] ∧ (¬∃ d ∈ s.drives, d.state = .active ∨ d.state = .spinningUp) ∧ s.picker.queue = [] ∧
       s.picker.deferred = [] ∧ s.picker.state ≠ .idle ∧ s.picker.state ≠ .parked) ∧
    (restBlocked lib = 0 ∧ lib.ret.dayOpen = true) ∧
    (let s := ((lib.modDrive 1 fun d => { d with state := .ready, occ := .record 1 }).modDrive 2 fun d =>
        { d with state := .ready, occ := .unrecorded }).modDrive 3 fun d => { d with state := .faulted, occ := .unrecorded }
     s.picker.queue = [] ∧ s.picker.deferred = [] ∧ (s.drive 1).occ = .record 1 ∧ (s.cart 1).bind Cart.home = some 3 ∧
       (s.drive 2).occ = .unrecorded ∧ (s.drive 2).state = .ready ∧ (s.drive 3).state = .faulted ∧ (s.drive 4).occ = .empty) := by
  decide +kernel

theorem test_witness_power : ({ lib with ret := { lib.ret with rebuildFlag := false } } : State).ret.written = true ∧
    lib.ret.rebuildFlag = true ∧ lib.powered = true := by decide +kernel

theorem test_witness_clock : up.clock = none ∧ (∀ r ∈ [(⟨1, 86398⟩ : Clock), ⟨65534, 86399⟩, ⟨65535, 86399⟩],
    ({ lib with clock := some r } : State).powered = true ∧ ({ lib with clock := some r } : State).clock = some r) ∧
    86398 + 1 < 86400 ∧ 65534 < 65535 := by decide +kernel

theorem test_witness_restart : let s := busy .a (.readBurst ⟨1, 2, [⟨1, 1051, 0⟩], 0, [], []⟩) .read { carrying with
      work := [itemOn4 .fetch 1 .active], bay := ⟨[⟨5, .read 1051 1, .plain⟩], none, [], false⟩ }
    Adm s .restart [] ∧ (s.drive 4).task.isBurst = true ∧ s.picker.arm.map Arm.xfer = some aTransfer.id := by decide +kernel

theorem test_witness_consent_deadline :
    let r := fun n => (⟨3, [(1, 1)], 5, some ⟨1, n⟩⟩ : RectInfo)
    let f := fun n => { filing 2 .awaitingConsent 2 with rect := some (r n) }
    (∀ n ∈ [100, 101], let s := withFiling (f n) lib; s.powered = true ∧ s.clock = some ⟨1, 100⟩ ∧ s.findFiling 77 = some (f n) ∧
      (f n).state = .awaitingConsent ∧ (r n).deadline = some ⟨1, n⟩) ∧ lib.findFiling 78 = none ∧ up.clock = none := by
  decide +kernel

theorem test_witness_fetch :
    (let b := be 4 5 ++ [1, 200, 1]; let q := parseFetch b; Adm lib .fetch b ∧ lib.mode ≠ .night ∧ 1 ≤ q.first ∧ q.first ≤ q.last ∧
      q.last ≤ 200 ∧ q.urgent ≤ 1 ∧ tagInUse lib 7 0 = false ∧ rangeLookup lib q.doc = some 1 ∧
        cartInState lib 1 .withdrawn = false ∧
      unavailableCode lib 1 = 0 ∧ lib.work.length < 48 ∧ lib.heldReqs = [] ∧ lib.fetches.length < 48) ∧
    (Adm { lib with mode := .night } .fetch (be 4 5 ++ [1, 1, 0]) ∧ Adm lib .fetch (be 4 5 ++ [1, 201, 0]) ∧
      (Adm lib .fetch (be 4 5 ++ [1, 200, 2]) ∧ ¬(parseFetch (be 4 5 ++ [1, 200, 2])).urgent ≤ 1) ∧
      tagInUse { lib with fetches := [{ fetchRec with station := 0 }] } 7 0 = true) ∧
    (Adm lib .fetch (be 4 6 ++ [1, 1, 0]) ∧ rangeLookup lib 6 = none) ∧
    (Adm (libCart .withdrawn) .fetch (be 4 5 ++ [1, 1, 0]) ∧ rangeLookup (libCart .withdrawn) 5 = some 1 ∧
      cartInState (libCart .withdrawn) 1 .withdrawn = true) ∧
    (Adm (libCart .missing) .fetch (be 4 5 ++ [1, 1, 0]) ∧ unavailableCode (libCart .missing) 1 = 1) ∧
    (let s : State := { lib with heldReqs := [.file 77] }; Adm s .fetch (be 4 5 ++ [1, 1, 0]) ∧ unavailableCode s 1 = 0 ∧
      s.heldReqs ≠ []) := by decide +kernel

theorem test_witness_copy_order :
    (let b := be 4 5 ++ [2, 9, 0, 1, 1, 200]; let q := parseCopy b; let s := lib; Adm1 s .copyOrder b ∧ s.mode ≠ .night ∧
      q.fieldsOk = true ∧ tagInUse s 7 1 = false ∧ s.ret.dayOpen = true ∧ rangeLookup s q.doc = some 1 ∧
      cartInState s 1 .withdrawn = false ∧ unavailableCode s 1 = 0 ∧ withheldSet s q.doc = [] ∧ freeOrder s = some 1 ∧
      s.work.length < 48 ∧ s.heldReqs = [] ∧ q.payer = 0 ∧ at1.station.toNat ≠ 0) ∧
    (let s := lib.setAccount 64 ⟨.active, 0, 100, 0⟩; Adm s .copyOrder (be 4 5 ++ [1, 1, 64, 1, 1, 2]) ∧
      (s.account 64).state = .active ∧ ((0 : Nat) : Int) ≤ availableFunds s 64) ∧
    (Adm { lib with mode := .night } .copyOrder (be 4 5 ++ [1, 1, 0, 1, 1, 2]) ∧
      (parseCopy (be 4 5 ++ [3, 1, 0, 1, 1, 2])).fieldsOk = false ∧ Adm upClock .copyOrder (be 4 5 ++ [1, 1, 0, 1, 1, 2]) ∧
      upClock.ret.dayOpen = false ∧ rangeLookup lib 6 = none) ∧
    (cartInState (libCart .withdrawn) 1 .withdrawn = true ∧ unavailableCode (libCart .missing) 1 ≠ 0 ∧
      (lib.account 64).state ≠ .active) ∧
    (let s := (lib.setAccount 64 ⟨.active, 0, 0, 0⟩).retain fun r =>
        { r with fees := ⟨1, 1, 1⟩, withheld := tset r.withheld 1 (some ⟨4, [(1, 2)], 5⟩) }
     availableFunds s 64 < (1 * (2 * s.ret.fees.plain + 0) : Nat) ∧ withheldSet s 4 = [1, 2]) ∧
    (let s : State := { lib with orders := (upTo 16).map fun n => { order 0 0 with number := n } }; freeOrder s = none) ∧
    ({ lib with heldReqs := [.file 77] } : State).heldReqs ≠ [] ∧ at0.station.toNat = 0 := by decide +kernel

theorem test_witness_cancel :
    (Adm1 lib .cancel ([2] ++ be 2 7) ∧ at1.station.toNat ≠ 2 ∧ isSupervisor lib 1 = false) ∧
    (let s := sending .unread; Adm1 s .cancel ([1] ++ be 2 7) ∧
      (s.fetches.find? fun f => f.tag == 7 && f.station == 1).isSome = true) ∧
    (Adm lib .cancel ([1] ++ be 2 7) ∧ lib.fetches = [] ∧ lib.orders = []) ∧
    (let s := withOrder { order 64 20 with closing := some .media } lib; Adm s .cancel ([1] ++ be 2 7) ∧
      (s.orders.find? fun o => o.tag == 7 && o.station == 1).isSome = true) ∧
    (let s := printing (order 64 20) (inHand .data 1 true .running) .ready; Adm s .cancel ([1] ++ be 2 7) ∧ inHandOf s 1 ≠ none) ∧
    (let s := withOrder (order 64 20) lib; Adm s .cancel ([1] ++ be 2 7) ∧ inHandOf s 1 = none) := by decide +kernel

theorem test_witness_file_begin :
    (∀ k ∈ [1, 2], let b := fileBody k 1024 3; let q := parseFileBegin b; Adm lib .fileBegin b ∧ lib.mode ≠ .night ∧
      lib.clock ≠ none ∧
      fullRights lib 0 = true ∧ q.fieldsOk = true ∧ lib.findFiling q.ref = none ∧ q.kind = k ∧
      (rangeLookup lib q.target).isSome = true ∧ tableRoom lib (k == 2) = true ∧ filingClaimFits lib q.count = true ∧
      (let v := supersede { lib with mode := .run } 0; v.findFiling 77 = none ∧ tableRoom v true = true ∧
        filingClaimFits v q.count = true)) ∧
    (Adm { lib with mode := .night } .fileBegin (fileBody 1 1 0) ∧ Adm up .fileBegin (fileBody 1 1 0) ∧ up.clock = none) ∧
    (Adm1 lib .fileBegin (fileBody 1 1 0) ∧ fullRights lib 1 = false) ∧
    ((parseFileBegin (fileBody 1 1025 0)).fieldsOk = false ∧ Adm lib .fileBegin (fileBody 1 1025 0)) ∧
    (Adm lib .fileBegin (fileBody 2 1 6) ∧ (parseFileBegin (fileBody 2 1 6)).fieldsOk = true ∧ rangeLookup lib 6 = none) ∧
    (let s : State := { lib with filings := List.replicate 6 { filing 1 .queued 2 with ref := 78 } }
     Adm s .fileBegin (fileBody 1 1 0) ∧ tableRoom s false = false ∧ s.findFiling 77 = none) ∧
    (let s : State := { lib with claims := [⟨0, .item 0, 8192, none, [], [], 0, false⟩] }
     Adm s .fileBegin (fileBody 1 1 0) ∧ tableRoom s false = true ∧ filingClaimFits s 1 = false) := by decide +kernel

theorem test_witness_file_data :
    let b := fun (q : Nat) => be 4 77 ++ be 2 q ++ List.replicate 1024 (0 : Byte)
    let s := withFiling (filing 1 .receiving 1) lib
    (Adm s .fileData (b 1) ∧ s.mode ≠ .night ∧ s.findFiling 77 = some (filing 1 .receiving 1) ∧ (filing 1 .receiving 1).count = 2 ∧
      (filingBlocks s 77)[1]? = some 1) ∧ Adm { s with mode := .night } .fileData (b 1) ∧
    (Adm lib .fileData (b 0) ∧ lib.findFiling 77 = none) ∧ (Adm1 s .fileData (b 1) ∧ at1.station.toNat ≠ 0) ∧
    (let t := withFiling (filing 1 .queued 2) lib; Adm t .fileData (b 1)) ∧ Adm s .fileData (b 2) ∧ Adm s .fileData (b 0) := by
  decide +kernel

theorem test_witness_file_end :
    (∀ k ∈ [1, 2], let s := withFiling (filing k .receiving 2) lib; Adm s .fileEnd (be 4 77) ∧
      s.findFiling 77 = some (filing k .receiving 2) ∧ (filing k .receiving 2).count ≤ (filing k .receiving 2).received ∧
      ((filing k .receiving 2).rect = none ↔ k = 1)) ∧
    (let s := withFiling (filing 1 .receiving 1) lib; Adm s .fileEnd (be 4 77) ∧ 1 < 2) ∧
    (Adm lib .fileEnd (be 4 77) ∧ Adm { lib with mode := .night } .fileEnd (be 4 77)) ∧
    (let s := withFiling (filing 1 .held 2) lib; Adm s .fileEnd (be 4 77) ∧ Adm1 s .fileEnd (be 4 77)) := by
  decide +kernel

theorem test_witness_queued : (withFiling (filing 1 .receiving 2) lib).findFiling 77 = some (filing 1 .receiving 2) ∧
    lib.work.length < 48 ∧ lib.heldReqs = [] ∧ ({ lib with heldReqs := [.file 78] } : State).heldReqs ≠ [] := by decide +kernel

theorem test_witness_consent :
    let f := { filing 2 .awaitingConsent 2 with station := 1 }
    let s := withFiling f lib
    (Adm s .consent (be 4 77 ++ be 2 5) ∧ s.findFiling 77 = some f ∧ isSupervisor s 0 = true ∧
      f.rect = some ⟨3, [(1, 1)], 5, none⟩) ∧
    Adm s .consent (be 4 77 ++ be 2 6) ∧ Adm { s with mode := .night } .consent (be 4 77 ++ be 2 5) ∧
    Adm lib .consent (be 4 77 ++ be 2 5) ∧ Adm (withFiling (filing 1 .queued 2) lib) .consent (be 4 77 ++ be 2 5) ∧
    Adm1 s .consent (be 4 77 ++ be 2 5) ∧
    (let g := { filing 2 .receiving 2 with station := 1 }; Adm (withFiling g lib) .consent (be 4 77 ++ be 2 5)) := by
  decide +kernel

theorem test_witness_file_cancel :
    (Adm lib .fileCancel (be 4 77) ∧ lib.findFiling 77 = none) ∧
    (let s := withFiling (filing 1 .queued 2) lib; Adm1 s .fileCancel (be 4 77) ∧ isSupervisor s 1 = false ∧
      Adm s .fileCancel (be 4 77) ∧ writingNow s (filing 1 .queued 2) = false) ∧
    Adm (withFiling (filing 1 .committing 2) lib) .fileCancel (be 4 77) ∧
    (let f := { filing 1 .writing 2 with cancelPending := true }; Adm (withFiling f lib) .fileCancel (be 4 77)) := by
  decide +kernel

theorem test_witness_bay_send : let q : List BayEntry := [⟨2, .load, .plain⟩]
    (let s : State := { calm with bay := ⟨q, none, [], false⟩
     }; s.bay.bus = none ∧ s.bay.queue = q ∧ s.bay.passFailed = false ∧ inventoryOn s = false) ∧
    (let s : State := { calm with bay := ⟨q, none, [], true⟩ }; s.bay.passFailed = true ∧ s.bay.bus = none) ∧
    (let s : State := { lib with bay := ⟨q, none, [], false⟩ }; inventoryOn s = true ∧ s.bay.queue ≠ []) ∧
    (onBus ⟨1, .status, .pass⟩ 0 lib).bay.bus ≠ none ∧ (onBus ⟨1, .status, .pass⟩ 0 lib).bay.queue = [] ∧
    (let s : State := { calm with bay := ⟨[], none, [3, 4], false⟩ }; s.bay.passLeft = [3, 4] ∧ calm.bay.passLeft = []) := by
  decide +kernel

theorem test_witness_tries : calm.bay.bus = none ∧
    (∀ n ∈ [1, 2], (onBus ⟨5, .spinDown, .plain⟩ n calm).bay.bus = some (⟨5, .spinDown, .plain⟩, n)) ∧ (calm.drive 4).task = .idle ∧
    (∀ w ∈ [Why.plain, .pass], (onBus ⟨7, .status, w⟩ 2 calm).bay.bus = some (⟨7, .status, w⟩, 2) ∧
      (onBus ⟨1, .status, w⟩ 2 calm).bay.bus = some (⟨1, .status, w⟩, 2)) ∧
    (calm.mail 2).faulty = false ∧ calm.picker.routine = .none := by decide +kernel

theorem test_witness_command_taken : (∀ d ∈ [1, 2, 3, 4], (onBus ⟨d + 1, .spinUp, .plain⟩ 0 lib).bay.bus =
      some (⟨d + 1, .spinUp, .plain⟩, 0)) ∧
    (onBus ⟨1, .transfer (.slot 3) (.drive 1) false, .plain⟩ 0 carrying).picker.arm = some ⟨3, none, true, true⟩ ∧
    (onBus ⟨1, .park, .plain⟩ 0 lib).bay.bus = some (⟨1, .park, .plain⟩, 0) ∧
    (onBus ⟨1, .scan 1 120, .plain⟩ 0 lib).bay.bus = some (⟨1, .scan 1 120, .plain⟩, 0) ∧
    (onBus ⟨6, .lock, .plain⟩ 0 lib).bay.bus = some (⟨6, .lock, .plain⟩, 0) ∧
    (onBus ⟨7, .unlock, .plain⟩ 0 lib).bay.bus = some (⟨7, .unlock, .plain⟩, 0) := by decide +kernel

theorem test_witness_picker_status :
    (let s := asking 1 .pass carrying; Asked s 1 .pass ∧ s.picker.routine = .none ∧ s.picker.state ≠ .faulted ∧
      s.picker.arm = some ⟨3, none, true, true⟩ ∧ armXfer s = some aTransfer ∧ (pick .done none).moduleFault = false) ∧
    (let s := asking 1 .pass { calm with picker := { calm.picker with state := .faulted } }; Asked s 1 .pass ∧
      s.picker.state = .faulted ∧ s.picker.routine = .none) ∧
    (let s := asking 1 .pass { calm with picker := { calm.picker with state := .idle, parkAsked := true } }; Asked s 1 .pass ∧
      (∀ a ∈ s.picker.arm, a.taken = false) ∧ s.picker.parkAsked = true ∧ s.picker.state = .idle ∧
      (∀ e ∈ s.bay.queue, e.module ≠ 1 ∨ e.cmd ≠ .park)) ∧
    (let s := asking 1 .pass calm; Asked s 1 .pass ∧ s.picker.parkAsked = false ∧ s.picker.arm = none) := by decide +kernel

theorem test_witness_picker_routines : ∀ r ∈ [Routine.invPark, .invScan [(1, 120), (125, 127)], .invScan [(125, 127)], .resetPark,
      .resetScan [(125, 125), (3, 3)] [], .resetScan [(3, 3)] [1]], ∀ b ∈ [none, some (Broken.mk aTransfer none true (some true))],
    let s := asking 1 .pass { lib with picker := { lib.picker with routine := r, broken := b } }
    Asked s 1 .pass ∧ (pick .parked (some [3])).moduleFault = false ∧ (∀ e ∈ s.bay.queue, e.module ≠ 1) ∧ s.picker.routine = r ∧
      s.picker.broken = b := by decide +kernel

/-- A transfer from each kind of place, broken off. -/
def brokenFrom (k : XferKind) (src : Place) (m : Bool) : State × Broken :=
  let b : Broken := ⟨{ aTransfer with kind := k, src := src }, none, m, none⟩
  (asking 1 .broken { carrying with picker := { carrying.picker with
    state := .faulted, arm := none, broken := some b, gripper := if src = .gripper then .record 1 else .empty } }, b)

theorem test_witness_picker_fault : ∀ m ∈ [true, false], ∀ h ∈ [true, false], ∀ e ∈ [(XferKind.mount, Place.slot 3), (.mount, .gripper),
      (.dismount, .drive 4), (.importTake, .mail 2)],
    let s := (brokenFrom e.1 e.2 m).1; let b := (brokenFrom e.1 e.2 m).2
    Asked s 1 .broken ∧ s.picker.broken = some b ∧ b.held = none ∧ b.moved = m ∧
      ({ pick .carrying none with holding := h }).holding = h ∧
      xferSource s b.xfer = e.2 ∧ (e.2 ≠ .mail 2 → b.xfer.kind ≠ .importTake) ∧ s.mode ≠ .rebuild ∧ noticeCount s < 31 ∧
      (e.2 = .slot 3 ∨ e.2 = .gripper → placeOcc s e.2 ≠ .empty) := by decide +kernel

theorem test_witness_transfers : TablesSized lib ∧ (lib.drive 4).state = .empty ∧ (lib.drive 4).service = .inService ∧
    ((driveAs fun d => { d with state := .stopped, occ := .record 1 }).drive 4).state = .stopped ∧
    (∀ k ∈ [XferKind.mount, .importTake, .dismount, .ret, .exportPut, .reject], ({ aTransfer with kind := k } : Transfer).kind = k) ∧
    (lib.slot 3).occ = .record 1 ∧ lib.cart 1 = some ⟨9, .inLibrary, some 3⟩ ∧ noticeCount lib < 31 := by decide +kernel

theorem test_witness_carried : placeOcc lib (.slot 3) ≠ .empty ∧ placeOcc lib (.drive 4) = .empty ∧
    ({ aTransfer with cart := none } : Transfer).cart = none ∧ aTransfer.cart = some 1 ∧
    (let s := lib.setSlot 3 ⟨.empty, false⟩; placeOcc s (.drive 4) = .empty ∧ placeOf s 1 = none ∧
      cartInState s 1 .inLibrary = true) ∧
    (let s := (libCart .missing).setSlot 3 ⟨.empty, false⟩; placeOf s 1 = none ∧ cartInState s 1 .inLibrary = false) ∧
    placeOf lib 1 ≠ none := by decide +kernel

/-- An IMPORT_TAKE from mail slot 2 that holds the arm, its TRANSFER not sent. -/
def taking (s : State) : State :=
  { s with picker := { s.picker with
      queue := [⟨3, .importTake, none, .mail 2, some (.drive 1), .a, none, none, false⟩], arm := some ⟨3, none, false, false⟩ } }

theorem test_witness_door_status : ∀ st ∈ [MailState.empty, .loadedOut, .doorOpen, .loadedIn], ∀ l ∈ [true, false], ∀ f ∈ [true, false],
    let s := asking 7 .pass (calm.setMail 2 ⟨st, l, f, .empty, l⟩)
    Asked s (2 + 5) .pass ∧ (s.mail 2).faulty = f ∧ (s.mail 2).state = st ∧ (s.mail 2).locked = l ∧ armUses s 2 = false ∧
      takeGranted s 2 = false ∧ armUses (taking s) 2 = true ∧ armSent (taking s) = false ∧ takeGranted (taking s) 2 = true := by
  decide +kernel

theorem test_witness_mail_slots : calm.picker.mails.length = 2 ∧ ({ calm with mode := .rest } : State).mode = .rest ∧
    (∀ f ∈ [true, false], let s := calm.setMail 2 ⟨.loadedIn, false, f, .unrecorded, false⟩
      (s.mail 2).faulty = f ∧ (s.mail 2).state = .loadedIn ∧ takeGranted s 2 = false ∧ noticeCount s < 31) ∧
    (calm.mail 2).state ≠ (⟨.doorOpen, false, false, .empty, false⟩ : Mail).state := by decide +kernel

theorem test_witness_drive_status : let s := busy .a .spinUp .spinUp calm
    (Asked s 5 .pass ∧ (s.drive 4).state ≠ .faulted ∧ (s.drive 4).state ≠ .outOfService ∧ (s.drive 4).op = some .spinUp ∧
      (stat .spinUp .running []).op = some .spinUp ∧ (stat .load .complete []).op ≠ some .spinUp) ∧
    (let u := asking 5 .pass (driveAs fun d => { d with state := .faulted }); Asked u 5 .pass ∧ (u.drive 4).state = .faulted ∧
      (u.drive 4).op = none) := by decide +kernel

theorem test_witness_drive_operations : ∀ e ∈ [(Task.spinUp, DriveOpKind.load), (.spinUp, .spinUp), (.spinDown, .spinDown),
      (.eject .release, .eject), (.eject .fault, .eject), (.readLabel none, .read), (.readDir 1 5 [], .read)],
    ∀ r ∈ [OpResult.complete, .failed, .failedBlock 4, .failedBlock 5], let s := busy .a e.1 e.2 calm
    Ends s 4 (stat e.2 r []) e.2 ∧ (s.drive 4).task = e.1 ∧ (s.drive 4).side = some 1 ∧ s.mode ≠ .rebuild ∧ 1 ≤ 5 := by
  decide +kernel

/-- The label of record 1's face A, CLOSED, and its block. -/
def aLabel : Label := ⟨9, .a, .closed, 1, 1, some .host, some 5, 5⟩

theorem test_witness_label_read : readLabelBlock (.data aLabel.bytes) = .good aLabel := by
  have hl : aLabel.content.length = 1022 := by decide +kernel
  have key : ∀ k : BitVec 16, k = crc16 aLabel.content →
      readLabelBlock (.data (aLabel.content ++ be 2 k.toNat)) = .good aLabel := by
    intro k hk
    have h1 : (aLabel.content ++ be 2 k.toNat).length = 1024 := by rw [List.length_append, hl, be_length]
    have h2 : numAt (aLabel.content ++ be 2 k.toNat) 1022 2 = (crc16 ((aLabel.content ++ be 2 k.toNat).take 1022)).toNat := by
      have := numAt_be (c := []) hl (show k.toNat < 256 ^ 2 from k.isLt)
      rw [List.append_nil] at this
      rw [List.take_left' hl, ← hk, this]
    unfold readLabelBlock
    dsimp only
    rw [if_pos ⟨h1, rfl, h2⟩]
    rfl
  exact key _ rfl
theorem test_witness_label_checked :
    (let s := busy .a (.readLabel none) .read calm; Ends s 4 (stat .read .complete [.data aLabel.bytes]) .read ∧
      (s.side 1).state = .closed ∧ (s.side 1).closedPending = true ∧ s.cart (sideCart 1) = some ⟨9, .inLibrary, some 3⟩ ∧
      aLabel.serial = 9 ∧ aLabel.face = sideFace 1 ∧ aLabel.mark ≠ .new) ∧
    (let s := calm.setSide 1 { calm.side 1 with closedPending := false }; (s.side 1).closedPending = false ∧
      1 ≤ (s.side 1).slotsUsed ∧ (s.drive 4).dirLoaded = false) ∧
    (let s := { busy .b (.readLabel none) .read calm with work := [itemOn4 .file 2 .assigned] }
     let t := s.modDrive 4 fun d => { d with state := .spinningUp }
     (t.side 2).state = .blank ∧ (t.drive 4).state = .spinningUp ∧ (t.drive 4).side = some 2 ∧
       holderOf t 4 = some (itemOn4 .file 2 .assigned) ∧ anyOpened t = false) ∧
    (let s := (busy .a (.readLabel none) .read calm).modDrive 4 fun d => { d with occ := .unrecorded }
     (s.drive 4).side = none ∧ newUnderWay s = false ∧
       newUnderWay (s.modDrive 1 fun d => { d with task := .writeLabel (.new 2) aLabel .erase }) = true) := by decide +kernel

theorem test_witness_label_failed : calm.drives.length = 4 ∧
    ((driveAs fun d => { d with occ := .record 1 }).drive 4).occ = .record 1 ∧
    noticeCount calm < 32 := by decide +kernel

/-- A read burst of drive 4 with two cells to read and one run more. -/
def cells : List ReadCell := [⟨1, 1051, 8⟩, ⟨1, 1052, 9⟩]
def aRead : ReadBurst := ⟨1, 2, cells, 0, [⟨2, 1060, 10⟩], []⟩

theorem test_witness_read_burst : let s := busy .a (.readBurst aRead) .read calm
    (∀ r ∈ [OpResult.complete, .short 1, .failedBlock 1052, .failed], Ends s 4 (stat .read r []) .read) ∧
    (s.drive 4).task = .readBurst aRead ∧ aRead.run = [⟨1, 1051, 8⟩] ++ ⟨1, 1052, 9⟩ :: [] ∧
      aRead.run.drop 0 = ⟨1, 1051, 8⟩ :: [⟨1, 1052, 9⟩] ∧
    (Asked s 5 .pass ∧ (s.drive 4).op = some .read ∧ (stat .read .running []).result = .running) ∧
    runLength 1051 (aRead.run ++ aRead.rest) = 2 := by decide +kernel

/-- A fetch whose page 1 is IN_BURST of claim 2. -/
def bursting : State :=
  { calm with
    fetches := [{ fetchRec with state := .reading, pages := [⟨1, .inBurst, 2, []⟩, ⟨2, .unread, 0, []⟩] }]
    claims := [⟨2, .item 1, 2, some [8, 9], [8, 9], [(1, 1051), (1, 1052)], 0, true⟩] }

theorem test_witness_staging_law : StagingKept { bursting with nextId := 3 } :=
  ⟨by decide +kernel, by decide +kernel, by decide +kernel, by decide +kernel, by decide +kernel, by decide +kernel⟩

theorem test_witness_fetch_burst : let s := bursting
    ((s.fetches.find? fun f => f.item == some 1).map Fetch.seq) = some 0 ∧ (s.findClaim 2).isSome = true ∧
      (s.findFetch 0).isSome = true ∧ (s.fetches.map Fetch.seq).Nodup ∧ (∀ f ∈ s.fetches, (f.pages.map FetchPage.page).Nodup) ∧
      (∀ f ∈ s.fetches, ∀ p ∈ f.pages, p.claim = 2 → p.outcome = .inBurst → ∀ c ∈ s.claims, p.page ∈ c.pageList) ∧
      ((fetchBurstEnd s 1 aRead).1.findFetch 0).isSome = true ∧ ((fetchBurstFault s 1 aRead).findFetch 0).isSome = true := by
  decide +kernel

/-- A write burst of filing 77 on side 2. -/
def aWrite (p : Pass) (sp : Option (Nat × Nat × Pass)) : WriteBurst := ⟨1, 77, 2, 50, 0, 2, p, 0, sp, none⟩
def writing (b : WriteBurst) (k : DriveOpKind) (f : Filing) : State := busy .b (.writeBurst b) k (withFiling f opened)

theorem test_witness_write_passes : ∀ e ∈ [(Pass.erase, DriveOpKind.erase), (.write, .write), (.verify, .verify)],
    ∀ r ∈ [OpResult.complete, .failedBlock (Config.dataBase + 50 + 1)], ∀ n ∈ [0, 32],
    let f := { filing 1 .writing 2 with remaps := (List.range n).map fun i => (i, i) }
    let s := writing (aWrite e.1 none) e.2 f
    Ends s 4 (stat e.2 r []) e.2 ∧ (s.drive 4).task = .writeBurst (aWrite e.1 none) ∧ s.findFiling 77 = some f ∧
      (n = 0 → f.remaps.length < 32) ∧ (n = 32 → 32 ≤ f.remaps.length) ∧ (s.side 2).spareUsed < 2048 ∧ (s.side 2).state ≠ .blank ∧
      1 + 1 = (aWrite e.1 none).hi ∧ 0 + 1 < (aWrite e.1 none).hi := by decide +kernel

theorem test_witness_spare : ∀ e ∈ [(Pass.erase, DriveOpKind.erase), (.write, .write), (.verify, .verify)],
    let b := aWrite .verify (some (1, 0, e.1)); let s := writing b e.2 (filing 1 .writing 2)
    Ends s 4 (stat e.2 .complete []) e.2 ∧ (s.drive 4).task = .writeBurst b ∧ b.spare = some (1, 0, e.1) := by decide +kernel

theorem test_witness_write_end : ∀ c ∈ [true, false], ∀ l ∈ [true, false],
    let f := { filing 1 .writing 2 with cancelPending := c, relocated := l }
    (withFiling f opened).findFiling 77 = some f ∧ ((withFiling f opened).side 2).state = .opened ∧
      ({ aWrite .verify none with relocate := some 1 } : WriteBurst).relocate = some 1 ∧ (aWrite .verify none).relocate = none := by
  decide +kernel

theorem test_witness_mark_passes : ∀ e ∈ [(Pass.erase, DriveOpKind.erase), (.write, .write), (.verify, .verify)],
    let s := busy .a (.writeLabel (.closing 1) aLabel e.1) e.2 calm
    Ends s 4 (stat e.2 .complete []) e.2 ∧ (s.drive 4).task = .writeLabel (.closing 1) aLabel e.1 ∧
      (s.side 1).closedPending = true ∧
      ((s.setSide 1 { s.side 1 with closedPending := false }).side 1).closedPending = false := by decide +kernel

theorem test_witness_marks : TablesSized calm ∧
    ((calm.side 2).state = .blank ∧ sideAssigned calm 2 = true ∧ anyOpened calm = false ∧ noticeCount calm < 32) ∧
    (let s := driveAs fun d => { d with state := .ready }; (s.side 1).closedPending = true ∧ (s.drive 4).state = .ready) ∧
    (let s := driveAs fun d => { d with fromMail := some 2 }; s.cart 160 = none ∧ lowestFreeSlot s = some 1 ∧
      (s.drive 4).fromMail ≠ none) ∧
    (let s := driveAs fun d => { d with label := some (.good aLabel) }; (s.drive 4).label = some (.good aLabel) ∧
      s.cart (sideCart 1) = some ⟨9, .inLibrary, some 3⟩ ∧ s.clock = some ⟨1, 100⟩) := by decide +kernel

/-- The filing that had side 2 of the library opened, without an item, with one that waits, with one on drive 4. -/
def openingFor (item : Option Item) (s : State) : State :=
  withFiling { filing 1 .queued 2 with target := some 2, item := item.map Item.id } { s with work := item.toList }

theorem test_witness_failed_opening :
    (∀ i ∈ [none, some { itemOn4 .file 2 .waiting with drive := none }, some (itemOn4 .file 2 .assigned)], let s := openingFor i calm
      TablesSized s ∧ (s.side 2).state = .blank ∧ sideAssigned s 2 = true ∧ anyOpened s = false ∧
        (s.filings.map Filing.ref).Nodup ∧
        (s.filings.find? fun x => x.target == some 2) = some { filing 1 .queued 2 with target := some 2, item := i.map Item.id } ∧
        (({ filing 1 .queued 2 with target := some 2, item := i.map Item.id } : Filing).item.bind s.findItem) = i) ∧
    (itemOn4 .file 2 .assigned).drive = some 4 ∧
    ((upTo calm.ret.sides.length).find? fun m => m != 2 && blankUsable calm m) = none ∧
    (let s := (calm.setCart 2 (some ⟨10, .inLibrary, some 4⟩)).setSlot 4 ⟨.record 2, false⟩
     ((upTo s.ret.sides.length).find? fun m => m != 2 && blankUsable s m) = some 3) := by decide +kernel

/-- A commit burst of filing 77 on side 2, in its slot 2. -/
def aRecord : DocRecord := ⟨7, 1, 100, 1, 77, 1, [0], 50, 2, [], none⟩
def aCommit (p : Pass) : CommitBurst := ⟨1, 77, 2, aRecord, 2, p⟩
def committing (p : Pass) (k : DriveOpKind) (s : State) : State :=
  busy .b (.commitBurst (aCommit p)) k (withFiling (filing 1 .committing 2) s)

theorem test_witness_commit_passes : ∀ e ∈ [(Pass.erase, DriveOpKind.erase), (.write, .write), (.verify, .verify)],
    (∀ r ∈ [OpResult.complete, .failed], let s := committing e.1 e.2 opened
      Ends s 4 (stat e.2 r []) e.2 ∧ (s.drive 4).task = .commitBurst (aCommit e.1) ∧ (s.side 2).state = .opened ∧ TablesSized s ∧
        (s.side 2).slotsUsed + 1 < 1000) ∧
    (let s := committing e.1 e.2 (opened.setSide 2 { opened.side 2 with slotsUsed := 999 }); 1000 ≤ (s.side 2).slotsUsed + 1) := by
  decide +kernel

theorem test_witness_commit : ∀ k ∈ [1, 2], let f := filing k .committing 2
    let s := { withFiling f opened with reserved := [(256, 77)] }
    TablesSized s ∧ s.findFiling 77 = some f ∧ (k = 1 → f.rect = none) ∧ (k = 2 → f.rect = some ⟨3, [(1, 1)], 5, none⟩) ∧
      (s.reserved.find? fun x => x.2 == f.ref) = some (256, f.ref) ∧
      ((pagesOf [(1, 1)]).filter fun p => !(withheldSet s 3).contains p) ≠ [] ∧
      (let u := s.retain fun r => { r with withheld := tset r.withheld 1 (some ⟨3, [(1, 1)], 5⟩) }
       ((pagesOf [(1, 1)]).filter fun p => !(withheldSet u 3).contains p) = []) := by decide +kernel

theorem test_witness_thresholds : ∀ e ∈ [(Config.dataBlocks - 63, 1, 0), (Config.dataBlocks - 64, 1000, 0), (Config.dataBlocks - 64, 999, 2033),
      (Config.dataBlocks - 64, 999, 2032)],
    let s := opened.setSide 2 { opened.side 2 with writePtr := e.1, slotsUsed := e.2.1, spareUsed := e.2.2 }
    (s.side 2).state = .opened ∧ (freeData (s.side 2) = if e.2.1 = 1 then 63 else 64) ∧ slotsLeft (s.side 2) = 1000 - e.2.1 ∧
      sparesLeft (s.side 2) = 2048 - e.2.2 := by decide +kernel

/-- Document 3 in READING by a PUBLIC record: a page STAGED, one in a running burst, one in a claim that waits or is granted, one
unread. -/
def maskedFetch : Fetch :=
  { fetchRec with
    full := false, item := some 1, state := .reading, nextRead := 3
    pages := [⟨1, .staged, 1, [7]⟩, ⟨2, .inBurst, 2, []⟩, ⟨3, .inBurst, 3, []⟩, ⟨4, .unread, 0, []⟩] }
def masking (granted : Bool) (f : Fetch) : State :=
  { calm with
    work := [itemOn4 .fetch 1 (if granted then .assigned else .waitingStaging)]
    nextId := 4
    fetches := [f, { fetchRec with seq := 9, tag := 8, item := none }]
    claims := [⟨1, .item 1, 1, some [7], [7], [(1, 1050)], 0, true⟩, ⟨2, .item 1, 1, some [8], [8], [(2, 1051)], 0, true⟩,
      ⟨3, .item 1, 1, if granted then some [9] else none, if granted then [9] else [], [(3, 1052)], 0, false⟩] }

theorem test_witness_masked_fetches : ∀ g ∈ [true, false], let s := masking g maskedFetch
    (s.fetches.map Fetch.seq).Nodup ∧ (maskedFetch.pages.map FetchPage.page).Nodup ∧ Masked 3 maskedFetch ∧
      (∀ p ∈ maskedFetch.pages, maskedFetch.sendPage ≤ p.page ∧ p.outcome ≠ .withheld ∧ p.outcome ≠ .unreadable) ∧
      (∃ c ∈ s.claims, c.id = 3 ∧ c.begun = false ∧ maskedFetch.item.map ClaimOwner.item = some c.owner ∧
        ∃ p ∈ c.pageList, p ∈ [3, 4]) ∧
      (∃ c ∈ s.claims, c.id = 2 ∧ c.begun = true) ∧ (∀ c ∈ s.claims, c.begun = false → ∀ p ∈ c.pageList, p ∉ [1, 2]) := by
  decide +kernel

theorem test_witness_masking_claims : ∀ g ∈ [true, false], let s := masking g maskedFetch
    StagingKept s ∧ (∃ c ∈ s.claims, c.id = 3 ∧ Withdrawn s 3 [3] c) ∧ ∀ f ∈ s.fetches, ¬Masked 5 f := by
  intro g hg
  have hg : g = true ∨ g = false := by cases g <;> simp
  rcases hg with rfl | rfl
  all_goals
    refine ⟨⟨by decide +kernel, by decide +kernel, by decide +kernel, by decide +kernel, by decide +kernel, by decide +kernel⟩,
      ⟨_, by decide +kernel, rfl, rfl, maskedFetch, List.mem_cons_self, by decide +kernel, rfl,
        ⟨_, List.mem_cons_of_mem _ (List.mem_cons_of_mem _ List.mem_cons_self), rfl, rfl, 3, by decide +kernel, by decide +kernel⟩⟩,
      by decide +kernel⟩

theorem test_witness_masked_queue : let s : State := { lib with orders := [order 64 20, { order 64 20 with number := 2, doc := 5 }] }
    (s.orders.map Order.number).Nodup ∧ (order 64 20).doc = 3 ∧ s.port.holder ≠ some 1 ∧
      ((order 64 20).selection.filter fun p => !([2] : List Nat).contains p) ≠ [] ∧
      ((order 64 20).selection.filter fun p => !([1, 2] : List Nat).contains p) = [] ∧
      (let u := withOrder (order 64 20) calm; u.orders = [order 64 20] ∧ u.port.holder ≠ some 1) := by decide +kernel

/-- The holder of the port: PLAIN, CERTIFIED, its set in progress, with its STAMP page out, owing a VOID page. -/
def holders : List Order :=
  let o := { order 64 20 with state := .active }
  [o, { o with setStarted := true, toSend := [2] }, { o with setStarted := true, toSend := [2], retry := some 1 },
    { o with cert := true }, { o with cert := true, setStarted := true, toSend := [2] },
    { o with cert := true, setStarted := true, stampRetry := true }, { o with cert := true, setStarted := true, voidOwed := true }]

theorem test_witness_masked_holder : ∀ o ∈ holders,
    ∀ h ∈ [none, some (inHand .data 1 true .running), some (inHand .stamp 1 true .running)],
    let s : State := { withOrder o lib with port := ⟨some 1, 5, h, [], .ready⟩ }
    (s.orders.map Order.number).Nodup ∧ s.findOrder o.number = some o ∧ (s.orders.filter fun x => x.doc == 3) = [o] ∧
      s.port.holder = some o.number ∧ s.port.inHand = h ∧ (∀ x ∈ h, x.order = o.number) ∧ (∃ p ∈ o.selection, p ∈ [2]) ∧
      ¬∃ p ∈ o.selection, p ∈ [5] := by decide +kernel

/-- What is left of the holder when pages 1 and 2, or page 2, have gone from it, and a page of it is not in hand. -/
theorem test_witness_masked_holder_goes_on :
    let o := { order 64 20 with state := .active }
    (let p : Order := { o with selection := [1], setStarted := true, toSend := [1] }; p.plainSetOver = false ∧ p.finished = false) ∧
    (let p : Order := { o with selection := [] }; p.plainSetOver = false ∧ p.finished = true) ∧
    (let p : Order := { o with selection := [1], sets := 2, setStarted := true, toSend := [] }
     p.plainSetOver = true ∧ p.nextSet.finished = false) ∧
    (let p : Order := { o with selection := [1], setStarted := true, toSend := [] }
     p.plainSetOver = true ∧ p.nextSet.finished = true) := by decide +kernel

theorem test_witness_limits : (carrying.picker.arm = some ⟨3, none, true, true⟩ ∧ armXfer carrying = some aTransfer ∧
      carrying.picker.state ≠ .faulted ∧ lib.picker.arm = none) ∧
    ((driveAs fun d => { d with spinLimit := true }).drive 4).spinLimit = true ∧ (lib.drive 4).spinLimit = false ∧
    (let s := driveAs fun d => { d with state := .ready, idleOn := true }
     (s.drive 4).state = .ready ∧ (s.drive 4).idleOn = true ∧ (s.drive 4).task = .idle ∧ markDue s 4 = none) ∧
    (let s := driveAs fun d => { d with state := .ready, idleOn := true, occ := .record 1, face := some .a }
     markDue s 4 = some 1) ∧ (lib.drive 4).idleOn = false := by decide +kernel

theorem test_witness_drive_fault : lib.drives.length = 4 ∧ (lib.drive 4).state = .empty ∧ (lib.drive 4).occ = .empty ∧
    ((driveAs fun d => { d with state := .outOfService }).drive 4).state = .outOfService ∧ noticeCount lib < 32 ∧
    (∀ x ∈ [true, false], let s := driveAs fun d => { d with state := .ready, occ := .record 1, ejected := x }
     (s.drive 4).occ = .record 1 ∧ (s.drive 4).ejected = x ∧ ({ s with mode := .rebuild } : State).mode = .rebuild) ∧
    (∀ p ∈ [Pass.erase, .verify], ∀ c ∈ [true, false], let f := { filing 1 .writing 2 with cancelPending := c }
      (withFiling f opened).findFiling (aWrite p none).ref = some f ∧ f.cancelPending = c ∧ (aWrite p none).pass = p) ∧
    (opened.side (aCommit .verify).side).state ≠ .blank := by decide +kernel

theorem test_witness_send_page :
    let s : State := { lib with
      orders := [{ order 64 20 with state := .active, pages := [⟨1, 1, .staged, 0, [0, 1]⟩] }], port := ⟨some 1, 5, none, [], .ready⟩ }
    (s.port.holder = some 1 ∧ s.port.inHand = none ∧ ((s.findOrder 1).map Order.state) = some .active ∧
      ((s.findOrder 1).bind Order.closing) = none ∧ ((s.findOrder 1).bind Order.nextToSend) = some ⟨.data, 1, 1, [0, 1]⟩) ∧
    lib.port.holder = none := by decide +kernel

theorem test_witness_page_end : ∀ p ∈ [PrinterState.ready, .notReady],
    let s := printing (order 64 20) (inHand .data 1 false .stopped) p
    s.powered = true ∧ s.port.inHand = some (inHand .data 1 false .stopped) ∧ s.port.printer = p := by decide +kernel

theorem test_witness_printer_answer : lib.port.inHand = none ∧
    (∀ k ∈ [PortPage.data, .stamp, .void], ∀ c ∈ [true, false], ∀ v ∈ [true, false], ∀ a ∈ [1, 2], ∀ cl ∈ [none, some Closing.media],
      let o := { order 64 20 with cert := c, voidOwed := v, closing := cl }
      let s := printing o (inHand k a true .running) .ready
      s.powered = true ∧ s.port.inHand = some (inHand k a true .running) ∧ s.findOrder (inHand k a true .running).order = some o ∧
        (inHand k a true .running).seq = 4 ∧ (inHand k a true .running).attempt = a ∧ o.closing = cl ∧ o.voidOwed = v) ∧
    ({ inHand .data 1 true .running with noRetry := true } : PageInHand).noRetry = true ∧
    (inHand .data 1 true .running).noRetry = false := by decide +kernel

theorem test_witness_settled : let h := inHand .data 1 true .running
    (let o := { order 64 20 with setStarted := true, toSend := [2] }; let s := printing o h .ready
     s.findOrder 1 = some o ∧ s.port.inHand = some h ∧ o.closing = none ∧ o.plainSetOver = false ∧ o.finished = false) ∧
    (let o := { order 64 20 with curSet := 2 }; let s := printing o h .ready
     s.findOrder 1 = some o ∧ o.plainSetOver = false ∧ o.finished = true) ∧
    (let o := { order 64 20 with setStarted := true, sets := 2 }; let s := printing o h .ready
     s.findOrder 1 = some o ∧ o.plainSetOver = true ∧ o.nextSet.finished = false) ∧
    (let o := { order 64 20 with setStarted := true }; let s := printing o h .ready
     s.findOrder 1 = some o ∧ o.plainSetOver = true ∧ o.nextSet.finished = true) ∧
    ({ order 64 20 with closing := some .media } : Order).closing = some .media := by decide +kernel

theorem test_witness_printer_status : (ready.port.printer ≠ .fault ∧ ready.port.holder = none) ∧
    ∀ p ∈ [PrinterState.ready, .notReady, .fault],
    let s := printing (order 64 20) (inHand .data 1 true .running) p
    s.powered = true ∧ s.port.printer = p ∧ s.port.holder = some 1 ∧ s.findOrder 1 = some (order 64 20) := by decide +kernel

theorem test_witness_answer_timeout : let s := printing (order 64 20) (inHand .data 1 true .running) .ready
    s.port.inHand = some (inHand .data 1 true .running) ∧ (inHand .data 1 true .running).limit = .running ∧
      (inHand .data 1 true .stopped).limit ≠ .running := by decide +kernel

theorem test_witness_ended_order :
    (let o := { order 64 20 with item := some 1, cert := true, setStarted := true }; let s := withOrder o calm
     s.findOrder 1 = some o ∧ o.item = some 1 ∧ o.inProgress = true ∧
       (∀ i ∈ ({ s with work := [itemOn4 .copy 1 .assigned] } : State).work, i.id = 1 → i.state ≠ .active)) ∧
    (let o := { order 64 20 with item := none, pages := [⟨1, 1, .staged, 2, [8]⟩] }; let s := withOrder o bursting
     s.findOrder 1 = some o ∧ o.inProgress = false ∧ o.item = none ∧ noticeCount s < 32 ∧
       (∃ q ∈ o.pages, q.outcome = .staged ∧ ∃ c ∈ (endOrder s 1 .done).claims, c.id = q.claim ∧ c.blocks ≠ none)) := by
  decide +kernel

end Sys2Proof.Tests
end

section
/-! PROOFS. What statuses come to: the rules of a notice, of a mail slot's change and of an item's end, and the status of a module
on the bus, from which the statements on the picker's and the doors' statuses are settled. -/

namespace Sys2Proof.Machine

/-! ### A notice (R197) -/

@[simp] theorem notify_ret (s : State) (k : NoticeKind) (a : Option (Word16 × Nat)) (b : List Byte) :
    (notify s k a b).ret = s.ret := by unfold notify; split <;> rfl
@[simp] theorem notify_mode (s : State) (k : NoticeKind) (a : Option (Word16 × Nat)) (b : List Byte) :
    (notify s k a b).mode = s.mode := by unfold notify; split <;> rfl
@[simp] theorem notify_drives (s : State) (k : NoticeKind) (a : Option (Word16 × Nat)) (b : List Byte) :
    (notify s k a b).drives = s.drives := by unfold notify; split <;> rfl
@[simp] theorem notify_picker (s : State) (k : NoticeKind) (a : Option (Word16 × Nat)) (b : List Byte) :
    (notify s k a b).picker = s.picker := by unfold notify; split <;> rfl

/-- With room in the Notice Queue the notice is placed. -/
theorem mem_control_notify {s : State} (h : noticeCount s < 32) (k : NoticeKind) (a : Option (Word16 × Nat)) (b : List Byte) :
    (.notice ⟨k, a, b⟩ : ControlFrame) ∈ (notify s k a b).control := by
  unfold notify
  rw [if_pos h]
  simp

theorem noticeCount_notify_le (s : State) (k : NoticeKind) (a : Option (Word16 × Nat)) (b : List Byte) :
    noticeCount (notify s k a b) ≤ noticeCount s + 1 := by
  unfold notify
  split
  · simp only [noticeCount, List.filter_append, List.length_append]
    exact Nat.add_le_add_left (List.length_filter_le _ _) _
  · exact Nat.le_succ _

/-! ### A mail slot's change (R30) -/

theorem modMail_picker (s : State) (m : Nat) (f : Mail → Mail) :
    (modMail s m f).picker = { s.picker with mails := tset s.picker.mails m (f (s.mail m)) } := by
  unfold modMail
  dsimp only
  split
  · rfl
  · exact notify_picker ..

@[simp] theorem modMail_mode (s : State) (m : Nat) (f : Mail → Mail) : (modMail s m f).mode = s.mode := by
  unfold modMail
  dsimp only
  split
  · rfl
  · exact notify_mode ..

theorem noticeCount_modMail_le (s : State) (m : Nat) (f : Mail → Mail) : noticeCount (modMail s m f) ≤ noticeCount s + 1 := by
  unfold modMail
  dsimp only
  split
  · exact Nat.le_succ _
  · exact noticeCount_notify_le (s.setMail m (f (s.mail m))) ..

/-- The changed slot read back. -/
theorem mail_modMail {s : State} {m : Nat} (h1 : 1 ≤ m) (hl : m ≤ s.picker.mails.length) (f : Mail → Mail) :
    (modMail s m f).mail m = f (s.mail m) := by
  unfold State.mail
  rw [modMail_picker]
  exact tget_tset_self _ _ _ _ h1 hl

@[simp] theorem armUses_modMail (s : State) (m k : Nat) (f : Mail → Mail) : armUses (modMail s m f) k = armUses s k := by
  simp only [armUses, armXfer, modMail_picker]

@[simp] theorem armSent_modMail (s : State) (m : Nat) (f : Mail → Mail) : armSent (modMail s m f) = armSent s := by
  simp only [armSent, modMail_picker]

@[simp] theorem takeGranted_modMail (s : State) (m k : Nat) (f : Mail → Mail) :
    takeGranted (modMail s m f) k = takeGranted s k := by
  simp only [takeGranted, armXfer, modMail_picker]

/-! ### The end of an item (R73, R75) -/

/-- What ending an item, or sending it back to wait, leaves alone. Only its own transfers leave the queue. -/
structure WorkOnly (s t : State) : Prop where
  ret : t.ret = s.ret
  mode : t.mode = s.mode
  control : t.control = s.control
  mails : t.picker.mails = s.picker.mails
  gripper : t.picker.gripper = s.picker.gripper
  gripFaceB : t.picker.gripFaceB = s.picker.gripFaceB
  fault : t.picker.fault = s.picker.fault
  queue : t.picker.queue ⊆ s.picker.queue
  face : ∀ d, (t.drive d).face = (s.drive d).face

namespace WorkOnly

theorem refl (s : State) : WorkOnly s s := ⟨rfl, rfl, rfl, rfl, rfl, rfl, rfl, List.Subset.refl _, fun _ => rfl⟩

theorem trans {a b c : State} (h : WorkOnly a b) (k : WorkOnly b c) : WorkOnly a c :=
  ⟨k.ret.trans h.ret, k.mode.trans h.mode, k.control.trans h.control, k.mails.trans h.mails, k.gripper.trans h.gripper,
    k.gripFaceB.trans h.gripFaceB, k.fault.trans h.fault, List.Subset.trans k.queue h.queue,
    fun d => (k.face d).trans (h.face d)⟩

theorem noticeCount {s t : State} (h : WorkOnly s t) : noticeCount t = noticeCount s := by
  unfold Machine.noticeCount
  rw [h.control]

theorem mail {s t : State} (h : WorkOnly s t) (m : Nat) : t.mail m = s.mail m := by
  unfold State.mail
  rw [h.mails]

theorem foldl {α : Type} (f : State → α → State) (hf : ∀ s x, WorkOnly s (f s x)) :
    ∀ (l : List α) (s : State), WorkOnly s (l.foldl f s)
  | [], s => refl s
  | x :: xs, s => (hf s x).trans (foldl f hf xs (f s x))

/-- The Work List, the held requests and what belongs to items are no part of what is left alone. -/
theorem setWork (s : State) (work : List Item) (held : List HeldReq) (claims : List Claim) (fetches : List Fetch)
    (orders : List Order) :
    WorkOnly s { s with work := work, heldReqs := held, claims := claims, fetches := fetches, orders := orders } :=
  ⟨rfl, rfl, rfl, rfl, rfl, rfl, rfl, List.Subset.refl _, fun _ => rfl⟩

theorem dropArm (s : State) : WorkOnly s (dropArm s) :=
  ⟨rfl, rfl, rfl, rfl, rfl, rfl, rfl, List.Subset.refl _, fun _ => rfl⟩

theorem dropXfer (s : State) (id : Nat) : WorkOnly s (dropXfer s id) :=
  ⟨rfl, rfl, rfl, rfl, rfl, rfl, rfl, List.filter_subset_self _, fun _ => rfl⟩

theorem dropItemTransfers (s : State) (id : Nat) : WorkOnly s (dropItemTransfers s id) :=
  ⟨rfl, rfl, rfl, rfl, rfl, rfl, rfl, List.filter_subset_self _, fun _ => rfl⟩

theorem withdrawClaims (s : State) (id : Nat) : WorkOnly s (withdrawClaims s id) :=
  foldl _ (fun s _ => setWork s s.work s.heldReqs _ _ _) _ s

theorem freeDrive (s : State) (d : Option Nat) : WorkOnly s (freeDrive s d) := by
  cases d with
  | none => exact refl s
  | some d =>
    refine ⟨rfl, rfl, rfl, rfl, rfl, rfl, rfl, List.Subset.refl _, fun k => ?_⟩
    rw [show Machine.freeDrive s (some d) = s.modDrive d fun x => { x with chainAsk := true } from rfl, State.drive_modDrive]
    split
    · next h => rw [h.1]
    · rfl

theorem removeItem (s : State) (id : Nat) : WorkOnly s (removeItem s id) := by
  unfold Machine.removeItem
  split
  · exact (setWork s _ s.heldReqs s.claims s.fetches s.orders).trans (freeDrive _ _)
  · exact refl s

theorem endItem (s : State) (id : Nat) : WorkOnly s (endItem s id) := by
  unfold Machine.endItem
  split
  · split
    · exact setWork s _ s.heldReqs s.claims s.fetches s.orders
    · exact ((withdrawClaims s id).trans (dropItemTransfers _ id)).trans (removeItem _ id)
  · exact refl s

theorem endItemOpt (s : State) (id : Option Nat) : WorkOnly s (endItemOpt s id) := by
  cases id with
  | none => exact refl s
  | some id => exact endItem s id

theorem returnItem (s : State) (id : Nat) : WorkOnly s (returnItem s id) := by
  unfold Machine.returnItem
  split
  · exact ((withdrawClaims s id).trans (dropItemTransfers _ id)).trans (setWork _ _ _ _ _ _)
  · exact refl s

theorem endTaken (s : State) (t : Transfer) (src : Place) : WorkOnly s (endTaken s t src) := by
  have hitem := endItemOpt s t.item
  unfold Machine.endTaken
  cases src with
  | mail m =>
    have hmail := hitem.trans (endItemOpt _ (inspectInMail (Machine.endItemOpt s t.item) m))
    dsimp only
    split
    · exact hmail.trans (endItemOpt _ _)
    · exact hmail
  | slot _ | drive _ | gripper =>
    dsimp only
    split
    · exact hitem.trans (endItemOpt _ _)
    · exact hitem

theorem dropTaken (s : State) (t : Transfer) (src : Place) : WorkOnly s (dropTaken s t src) := by
  unfold Machine.dropTaken
  split
  · split
    · exact returnItem s _
    · exact refl s
  · exact endTaken s t src
  · exact refl s

end WorkOnly

end Sys2Proof.Machine
end

section
/-! PROOFS. A door's status (R30, R31, R40). -/

namespace Sys2Proof.Machine

/-! ### The status of a module on the bus -/

theorem statusTaken_of_asked {s : State} {a : Nat} {w : Why} (h : StatusAsked s a w) (op : State → Why → State) :
    statusTaken s a op = afterCommand (op (freeBus s) w) ⟨a, .status, w⟩ := by
  obtain ⟨_, n, hbus⟩ := h
  have hon : statusOnBus s a = some ⟨a, .status, w⟩ := by
    unfold statusOnBus
    rw [hbus]
    exact if_pos ⟨rfl, rfl⟩
  unfold statusTaken
  rw [hon]

theorem exec_doorStatusTaken {s : State} {m : Nat} (hm : m = 1 ∨ m = 2) (h : StatusAsked s (m + 5) .pass) (st : DoorStatus) :
    exec (.doorStatusTaken m st) s = .next (settle (passNext (doorReport (freeBus s) m st))) := by
  have hrun : exec (.doorStatusTaken m st) s = .next (whenPowered s fun s => settle (doorTakenOp s m st)) := rfl
  rw [hrun, whenPowered, if_pos h.1, doorTakenOp, if_pos hm, show doorAddr m = m + 5 from rfl, statusTaken_of_asked h]
  rfl

/-! ### A door's report -/

section
variable {s : State} {m : Nat} {st : DoorStatus}

theorem doorReport_of_faulty (hf : (s.mail m).faulty = true) : doorReport s m st = s := if_pos hf

/-- A slot read open goes DOOR_OPEN: faulty where it was locked, and a TRANSFER not yet sent gives the arm up. -/
theorem doorReport_of_open (hf : (s.mail m).faulty = false) (ho : st.isOpen = true) (hx : (s.mail m).state ≠ .loadedIn) :
    doorReport s m st = if (s.mail m).locked then doorFault (doorOpened s m) m
      else if armUses s m && !armSent s then dropArm (doorOpened s m) else doorOpened s m := by
  have huses : armUses (doorOpened s m) m = armUses s m := armUses_modMail _ m m _
  have hsent : armSent (doorOpened s m) = armSent s := armSent_modMail _ m _
  unfold doorReport
  simp only [hf, ho, hx, huses, hsent, Bool.false_eq_true, if_false, if_true]

theorem doorReport_of_open_loadedIn (hf : (s.mail m).faulty = false) (ho : st.isOpen = true) (hx : (s.mail m).state = .loadedIn) :
    doorReport s m st = doorFault s m := by
  unfold doorReport
  simp only [hf, ho, hx, Bool.false_eq_true, if_false, if_true]

theorem doorReport_of_closed (hf : (s.mail m).faulty = false) (hc : st.isOpen = false)
    (hx : (s.mail m).state = .empty ∨ (s.mail m).state = .loadedOut) : doorReport s m st = s := by
  unfold doorReport
  rcases hx with hx | hx <;> simp only [hf, hc, hx, Bool.false_eq_true, if_false]

theorem doorReport_of_closed_doorOpen (hf : (s.mail m).faulty = false) (hc : st.isOpen = false)
    (hx : (s.mail m).state = .doorOpen) :
    doorReport s m st = if st.loaded then enterLoadedIn s m
      else modMail s m fun y => { y with state := .empty, occ := .empty } := by
  unfold doorReport
  cases hl : st.loaded <;> simp only [hf, hc, hx, Bool.false_eq_true, if_false, if_true]

theorem doorReport_of_closed_loadedIn (hf : (s.mail m).faulty = false) (hc : st.isOpen = false)
    (hx : (s.mail m).state = .loadedIn) :
    doorReport s m st = if st.loaded || takeGranted s m then s else doorFault s m := by
  unfold doorReport
  cases hl : st.loaded <;> simp only [hf, hc, hx, Bool.false_eq_true, if_false, if_true, Bool.true_or, Bool.false_or]

end

theorem doorStatusByState : DoorStatusByState := by
  intro s m st hm hasked x u goes opened
  have hgoes : ∀ t, doorReport u m st = t → goes t := fun t e => e ▸ exec_doorStatusTaken hm hasked st
  refine ⟨fun hf => hgoes _ (doorReport_of_faulty hf), fun hf => ⟨fun hx => ?_, fun hx hc => ?_, fun hx => ?_⟩⟩
  case refine_1 =>
    have hopen : st.isOpen = true → doorReport u m st = if x.locked then doorFault opened m
        else if armUses s m && !armSent s then dropArm opened else opened := fun ho =>
      doorReport_of_open hf ho fun e => by rcases hx with h | h <;> cases h.symm.trans e
    refine ⟨fun ho hl ha => hgoes _ ?_, fun ho hl ha hs => hgoes _ ?_, fun ho hl => hgoes _ ?_, fun hc => hgoes _ ?_⟩
    · rw [hopen ho, hl, ha]
      rfl
    · rw [hopen ho, hl, ha, hs]
      rfl
    · rw [hopen ho, hl]
      rfl
    · exact doorReport_of_closed hf hc hx
  case refine_2 =>
    have hclosed := doorReport_of_closed_doorOpen (s := u) (st := st) hf hc hx
    exact ⟨fun hl => hgoes _ (hclosed.trans (if_pos hl)), fun hl => hgoes _ (hclosed.trans (if_neg (by simp [hl])))⟩
  case refine_3 =>
    have hclosed := fun hc => doorReport_of_closed_loadedIn (s := u) (st := st) hf hc hx
    refine ⟨fun ho => hgoes _ (doorReport_of_open_loadedIn hf ho hx), fun hc hl ht => hgoes _ ?_, fun hc hl ht => hgoes _ ?_,
      fun hc hl => hgoes _ ?_⟩
    · exact (hclosed hc).trans (if_neg (by rw [hl, show takeGranted u m = false from ht]; decide))
    · exact (hclosed hc).trans (if_pos (by rw [show takeGranted u m = true from ht, Bool.or_true]))
    · exact (hclosed hc).trans (if_pos (by rw [hl, Bool.true_or]))

theorem doorChangesAreReported : DoorChangesAreReported := by
  intro s m f x y
  refine ⟨fun ⟨hstate, hlocked, hfaulty⟩ => if_pos ?_, fun hchange => if_neg fun hsame => ?_⟩
  · exact Prod.ext hstate (Prod.ext hlocked hfaulty)
  · simp only [Prod.mk.injEq] at hsame
    obtain ⟨hstate, hlocked, hfaulty⟩ := hsame
    rcases hchange with h | h | h
    exacts [h hstate, h hlocked, h hfaulty]

/-! ### A slot that becomes LOADED_IN, and a door that becomes faulty -/

@[simp] theorem wakeFromRest_picker (s : State) : (wakeFromRest s).picker = s.picker := by
  unfold wakeFromRest
  split <;> rfl

theorem wakeFromRest_mode_of_rest {s : State} (h : s.mode = .rest) : (wakeFromRest s).mode = .run := by
  rw [wakeFromRest, if_pos h]

theorem doorFault_of_faulty {s : State} {m : Nat} (h : (s.mail m).faulty = true) : doorFault s m = s := if_pos h

/-- An import that ends at its door leaves no INSPECT asked for its slot, and is reported last of all. -/
theorem endImportAtDoor_eq (s : State) (m : Nat) : ∃ t, WorkOnly s t ∧ m ∉ t.picker.inspectWanted ∧
    endImportAtDoor s m = importRejected t (some m) none .door := by
  unfold endImportAtDoor
  dsimp only
  refine ⟨_, ?_, ?_, rfl⟩
  · refine (WorkOnly.trans ?_ (WorkOnly.endItemOpt _ _)).trans
      ⟨rfl, rfl, rfl, rfl, rfl, rfl, rfl, List.Subset.refl _, fun _ => rfl⟩
    split
    · split
      · exact (WorkOnly.dropXfer s _).trans (WorkOnly.dropArm _)
      · exact WorkOnly.refl s
    · exact WorkOnly.refl s
  · simp

/-- A door that becomes faulty: its flag is set, a grant not sent may go back to waiting, and a LOADED_IN slot's import ends unless
its IMPORT_TAKE is under way. -/
theorem doorFault_eq {s : State} {m : Nat} (h1 : 1 ≤ m) (hl : m ≤ s.picker.mails.length) (hf : (s.mail m).faulty = false) :
    ∃ t, WorkOnly (modMail s m fun x => { x with faulty := true }) t ∧
      (doorFault s m = t ∨ doorFault s m = endImportAtDoor t m) ∧
      ((s.mail m).state = .loadedIn → takeGranted s m = false → doorFault s m = endImportAtDoor t m) := by
  have hdrop : ∀ (b : Bool) (u : State), WorkOnly u (if b then dropArm u else u) := fun b u => by
    cases b
    exacts [WorkOnly.refl u, WorkOnly.dropArm u]
  unfold doorFault
  rw [hf]
  simp only [Bool.false_eq_true, if_false, takeGranted_modMail, armSent_modMail, armUses_modMail]
  have ht := hdrop (armUses s m && !armSent s && !takeGranted s m) (modMail s m fun x => { x with faulty := true })
  refine ⟨_, ht, (ite_eq_or_eq _ _ _).symm, fun hin hgranted => if_pos ⟨?_, by rw [hgranted, Bool.false_and]⟩⟩
  rw [ht.mail, mail_modMail h1 hl]
  exact hin

theorem mail_endImportAtDoor (s : State) (m k : Nat) : (endImportAtDoor s m).mail k = s.mail k := by
  obtain ⟨t, ht, -, e⟩ := endImportAtDoor_eq s m
  rw [e, importRejected, ← ht.mail]
  unfold State.mail
  rw [notify_picker]

theorem faulty_doorFault {s : State} {m : Nat} (h1 : 1 ≤ m) (hl : m ≤ s.picker.mails.length) (hf : (s.mail m).faulty = false) :
    ((doorFault s m).mail m).faulty = true := by
  obtain ⟨t, ht, hcases, -⟩ := doorFault_eq h1 hl hf
  have hm : (doorFault s m).mail m = t.mail m := by
    rcases hcases with e | e <;> rw [e]
    exact mail_endImportAtDoor t m m
  rw [hm, ht.mail, mail_modMail h1 hl]

theorem mailSlotsLoadedAndFaulty : MailSlotsLoadedAndFaulty := by
  intro s m hm hlen
  have h1 : 1 ≤ m := by omega
  have hl : m ≤ s.picker.mails.length := by omega
  refine ⟨?_, faulty_doorFault h1 hl, doorFault_of_faulty, fun hf hin hgranted hroom => ?_⟩
  · have hmail : (enterLoadedIn s m).mail m = { s.mail m with state := .loadedIn, occ := .unrecorded } := by
      have hw : (wakeFromRest s).mail m = s.mail m := by unfold State.mail; rw [wakeFromRest_picker]
      rw [← hw]
      exact mail_modMail h1 (by rwa [wakeFromRest_picker]) _
    refine ⟨by rw [hmail], by rw [hmail], ?_, fun hrest => ?_⟩
    · simp only [enterLoadedIn, State.modPicker_picker, modMail_picker, wakeFromRest_picker]
    · simp only [enterLoadedIn, State.modPicker_mode, modMail_mode, wakeFromRest_mode_of_rest hrest]
  · obtain ⟨t, ht, -, hends⟩ := doorFault_eq h1 hl hf
    obtain ⟨u, hu, hasked, he⟩ := endImportAtDoor_eq t m
    have hcount : noticeCount u < 32 := by
      have := noticeCount_modMail_le s m fun x => { x with faulty := true }
      rw [hu.noticeCount, ht.noticeCount]
      omega
    rw [hends hin hgranted, he]
    exact ⟨mem_control_notify hcount _ _ _, by rwa [importRejected, notify_picker]⟩

/-- Settles O49: the report of a change, the door's report by the slot's state, and what LOADED_IN and a faulty door come to. -/
theorem doorStatusSetsTheMailSlot : Obligations.DoorStatusSetsTheMailSlot :=
  ⟨doorChangesAreReported, doorStatusByState, mailSlotsLoadedAndFaulty⟩

end Sys2Proof.Machine
end

section
/-! PROOFS. The picker's status: the phases of a transfer (R32, R35), and the steps of the inventory and of PICKER_RESET (R39, R47). -/

namespace Sys2Proof.Machine

theorem exec_pickerStatusTaken {s : State} {w : Why} (h : StatusAsked s 1 w) (st : PickerStatus) :
    exec (.pickerStatusTaken st) s = .next (settle (afterCommand (pickerStatusOp (freeBus s) st w) ⟨1, .status, w⟩)) := by
  have hrun : exec (.pickerStatusTaken st) s = .next (whenPowered s fun s => settle (pickerTakenOp s st)) := rfl
  rw [hrun, whenPowered, if_pos h.1, pickerTakenOp, statusTaken_of_asked h]

/-! ### What a status in a pass comes to -/

section
variable {s : State} {st : PickerStatus}

theorem modPicker_eq_self {f : Picker → Picker} (h : f s.picker = s.picker) : s.modPicker f = s := by
  rw [State.modPicker, h]

theorem pickerStatusOp_of_moduleFault (hr : s.picker.routine = .none) (hm : st.moduleFault = true) (hf : s.picker.state ≠ .faulted) :
    pickerStatusOp s st .pass = pickerFault s .hardware := by
  unfold pickerStatusOp
  rw [if_neg (by decide), if_pos ⟨hm, hf⟩, hr, if_neg (by decide)]
  refine congrArg (pickerFault · .hardware) (modPicker_eq_self ?_)
  rw [hr]
  dsimp only
  rw [← hr]

theorem pickerStatusOp_of_faulted (hr : s.picker.routine = .none) (hf : s.picker.state = .faulted) :
    pickerStatusOp s st .pass = s := by
  unfold pickerStatusOp
  rw [if_neg (by decide), if_neg fun h => h.2 hf, if_neg fun h => h hr, if_pos hf]

theorem pickerStatusOp_of_idle_routine (hr : s.picker.routine = .none) (hm : st.moduleFault = false) (hf : s.picker.state ≠ .faulted) :
    pickerStatusOp s st .pass = phaseStatus s st := by
  unfold pickerStatusOp
  rw [if_neg (by decide), if_neg fun h => by simp [hm] at h, if_neg fun h => h hr, if_neg hf]

theorem pickerStatusOp_of_routine (hr : s.picker.routine ≠ .none) (hm : st.moduleFault = false) :
    pickerStatusOp s st .pass = routineStatus s st := by
  unfold pickerStatusOp
  rw [if_neg (by decide), if_neg fun h => by simp [hm] at h, if_pos hr]

/-! ### The transfer that holds the arm, and PARK -/

/-- Each phase sets the picker's state, done completes the transfer, and the phases of no transfer change nothing. -/
theorem phaseStatus_of_taken {a : Arm} (ha : s.picker.arm = some a) (ht : a.taken = true) :
    (st.phase = .taking → phaseStatus s st = s.modPicker fun p => { p with state := .fetching }) ∧
    (st.phase = .carrying → phaseStatus s st = s.modPicker fun p => { p with state := .carrying }) ∧
    (st.phase = .flipping → phaseStatus s st = s.modPicker fun p => { p with state := .flipping }) ∧
    (st.phase = .placing → phaseStatus s st = s.modPicker fun p => { p with state := .placing }) ∧
    (st.phase = .parked ∨ st.phase = .idle → phaseStatus s st = s) ∧
    (st.phase = .done → phaseStatus s st = armDone s) := by
  unfold phaseStatus
  dsimp only
  rw [if_pos (by rw [ha]; exact ht)]
  refine ⟨fun hp => ?_, fun hp => ?_, fun hp => ?_, fun hp => ?_, fun hp => ?_, fun hp => ?_⟩
  case refine_5 => rcases hp with hp | hp <;> rw [hp]
  all_goals rw [hp]

theorem armDone_eq {a : Arm} {t : Transfer} (ha : s.picker.arm = some a) (ht : armXfer s = some t) :
    armDone s = completeXfer (s.modPicker fun p => { p with arm := none, state := .idle }) t (xferSource s t) (armDest a t) := by
  unfold armDone
  rw [ha, ht]

theorem phaseStatus_of_park (ha : s.picker.arm.any Arm.taken = false) (hp : s.picker.parkAsked = true) (hs : st.phase = .parked)
    (hi : s.picker.state = .idle) (hc : pickerCmdOut s BayCmd.isPark = false) :
    phaseStatus s st = s.modPicker fun p => { p with parkAsked := false, state := .parked } := by
  unfold phaseStatus
  rw [ha, if_neg (by decide), if_pos ⟨hp, hs, hc⟩]
  simp only [State.modPicker, hi, if_true]

theorem phaseStatus_of_no_park (ha : s.picker.arm.any Arm.taken = false) (hp : s.picker.parkAsked = false ∨ st.phase ≠ .parked) :
    phaseStatus s st = s := by
  unfold phaseStatus
  rw [ha, if_neg (by decide), if_neg]
  rintro ⟨hasked, hparked, -⟩
  rcases hp with h | h
  · rw [h] at hasked
    cases hasked
  · exact h hparked

end

/-- On a free bus a picker command is out only where the queue holds one. -/
theorem pickerCmdOut_freeBus {s : State} {p : BayCmd → Bool} (h : ∀ e ∈ s.bay.queue, e.module ≠ 1 ∨ p e.cmd = false) :
    pickerCmdOut (freeBus s) p = false := by
  have hq : (s.bay.queue.any fun e => e.module == 1 && p e.cmd) = false := by
    rw [List.any_eq_false]
    intro e he
    rcases h e he with h | h <;> simp [h]
  unfold pickerCmdOut
  rw [show (freeBus s).bay.queue = s.bay.queue from rfl, hq]
  rfl

theorem isPark_eq_false {c : BayCmd} (h : c ≠ .park) : c.isPark = false := by
  cases c with
  | park => exact absurd rfl h
  | _ => rfl

theorem pickerStatusByPhase : PickerStatusByPhase := by
  intro s st hasked hr goes u set
  have hgoes : ∀ t, pickerStatusOp u st .pass = t → goes t := fun t e => e ▸ exec_pickerStatusTaken hasked st
  refine ⟨fun hm hf => hgoes _ (pickerStatusOp_of_moduleFault hr hm hf), fun hf => hgoes _ (pickerStatusOp_of_faulted hr hf),
    fun hm hf => ?_⟩
  have hphase : ∀ t, phaseStatus u st = t → goes t := fun t e =>
    hgoes t ((pickerStatusOp_of_idle_routine (s := u) hr hm hf).trans e)
  refine ⟨fun a ha ht => ?_, fun hfree => ?_⟩
  · obtain ⟨htaking, hcarrying, hflipping, hplacing, hstill, hdone⟩ := phaseStatus_of_taken (s := u) (st := st) ha ht
    exact ⟨fun hp => hphase _ (htaking hp), fun hp => hphase _ (hcarrying hp), fun hp => hphase _ (hflipping hp),
      fun hp => hphase _ (hplacing hp), fun hp => hphase _ (hstill hp),
      fun t hp hx => hphase _ ((hdone hp).trans (armDone_eq (s := u) ha hx))⟩
  · have harm : u.picker.arm.any Arm.taken = false := by
      cases h : s.picker.arm with
      | none => exact congrArg (Option.any Arm.taken) h
      | some a => exact (congrArg (Option.any Arm.taken) h).trans (hfree a h)
    refine ⟨fun hp hs hi hq => hphase _ (phaseStatus_of_park harm hp hs hi (pickerCmdOut_freeBus fun e he => ?_)),
      fun hp => hphase _ (phaseStatus_of_no_park harm hp)⟩
    exact (hq e he).imp_right isPark_eq_false

/-! ### The inventory and PICKER_RESET -/

section
variable {s : State} {st : PickerStatus}

theorem routineStatus_invPark (hr : s.picker.routine = .invPark) (hc : pickerCmdOut s BayCmd.isPark = false) :
    routineStatus s st = if st.phase = .parked then invScanNext s invPlaces else s := by
  unfold routineStatus
  simp only [hr, hc, and_true]

theorem routineStatus_resetPark (hr : s.picker.routine = .resetPark) (hc : pickerCmdOut s BayCmd.isPark = false) :
    routineStatus s st = if st.phase = .parked then resetScanNext s (resetPlaces s) [] else s := by
  unfold routineStatus
  simp only [hr, hc, and_true]

theorem routineStatus_invScan {left : List (Nat × Nat)} {l : List Nat} (hr : s.picker.routine = .invScan left)
    (hc : pickerCmdOut s BayCmd.isScan = false) (hs : st.scan = some l) :
    routineStatus s st = invScanNext ((s.modBoot fun b => { b with seen := b.seen ++ l }).modPicker fun p =>
      { p with gripFaceB := st.holding && st.faceBUp }) (left.drop 1) := by
  unfold routineStatus
  simp only [hr, hc, hs, Bool.false_eq_true, if_false]

theorem routineStatus_resetScan {left : List (Nat × Nat)} {got l : List Nat} (hr : s.picker.routine = .resetScan left got)
    (hc : pickerCmdOut s BayCmd.isScan = false) (hs : st.scan = some l) :
    routineStatus s st = resetScanNext (s.modPicker fun p => { p with gripFaceB := st.holding && st.faceBUp }) (left.drop 1)
      (got ++ l) := by
  unfold routineStatus
  simp only [hr, hc, hs, Bool.false_eq_true, if_false]

/-- A scan under way has no result yet. -/
theorem routineStatus_of_no_scan (hr : (∃ left, s.picker.routine = .invScan left) ∨ ∃ left got, s.picker.routine = .resetScan left got)
    (hs : st.scan = none) : routineStatus s st = s := by
  unfold routineStatus
  rcases hr with ⟨left, hr⟩ | ⟨left, got, hr⟩ <;> simp only [hr, hs, ite_self]

end

theorem resetPlaces_of_none {s : State} (h : s.picker.broken = none) : resetPlaces s = [(125, 125)] := by
  unfold resetPlaces
  rw [h]

theorem resetPlaces_of_some {s : State} {b : Broken} (h : s.picker.broken = some b) :
    resetPlaces s = [(125, 125), (b.xfer.src.number, b.xfer.src.number),
      ((b.xfer.dst.getD (.mail (b.mail.getD 0))).number, (b.xfer.dst.getD (.mail (b.mail.getD 0))).number)] := by
  unfold resetPlaces
  rw [h]

theorem pickerStatusInRoutines : PickerStatusInRoutines := by
  intro s st hasked hm hq goes u routine up seen
  have hout : ∀ p, pickerCmdOut u p = false := fun p => pickerCmdOut_freeBus fun e he => .inl (hq e he)
  have hgoes : ∀ r t, s.picker.routine = r → r ≠ .none → routineStatus u st = t → goes t := fun r t hr hn e => by
    have h := (pickerStatusOp_of_routine (s := u) (fun h => hn (hr.symm.trans h)) hm).trans e
    exact h ▸ exec_pickerStatusTaken hasked st
  refine ⟨fun hr => ?_, fun a left hr => ?_, fun hr hp => ?_, fun a left got hr => ?_⟩
  · have hpark := routineStatus_invPark (s := u) (st := st) hr (hout _)
    exact ⟨fun hp => hgoes _ _ hr nofun (hpark.trans (if_pos hp)), fun hp => hgoes _ _ hr nofun (hpark.trans (if_neg hp))⟩
  · refine ⟨fun l hs => ?_, fun hs => hgoes _ _ hr nofun (routineStatus_of_no_scan (.inl ⟨_, hr⟩) hs)⟩
    have hscan := routineStatus_invScan (s := u) hr (hout _) hs
    refine ⟨fun x y rest e => hgoes _ _ hr nofun ?_, fun e => hgoes _ _ hr nofun ?_⟩ <;> subst e <;> exact hscan
  · have hpark := (routineStatus_resetPark (s := u) (st := st) hr (hout _)).trans (if_pos hp)
    refine ⟨fun hb => hgoes _ _ hr nofun ?_, fun b hb => hgoes _ _ hr nofun ?_⟩
    · rw [hpark, resetPlaces_of_none (s := u) hb]
      rfl
    · rw [hpark, resetPlaces_of_some (s := u) hb]
      rfl
  · refine ⟨fun l hs => ?_, fun hs => hgoes _ _ hr nofun (routineStatus_of_no_scan (.inr ⟨_, _, hr⟩) hs)⟩
    have hscan := routineStatus_resetScan (s := u) hr (hout _) hs
    refine ⟨fun x y rest e => hgoes _ _ hr nofun ?_, fun e => hgoes _ _ hr nofun ?_⟩ <;> subst e <;> exact hscan

end Sys2Proof.Machine
end

section
/-! PROOFS. The STATUS of a picker fault (R37): where the cartridge is found, and what PICKER_FAULT carries. -/

namespace Sys2Proof.Machine

/-! ### A place is vacated -/

theorem vacate_mail_eq (s : State) (m : Nat) :
    vacate s (.mail m) = modMail (dropFrom s (.mail m)) m fun x => { x with state := .empty, occ := .empty } := rfl

theorem vacate_mode (s : State) (p : Place) : (vacate s p).mode = s.mode := by
  cases p with
  | mail m => exact modMail_mode (dropFrom s (.mail m)) m _
  | slot _ | drive _ | gripper => rfl

theorem vacate_fault (s : State) (p : Place) : (vacate s p).picker.fault = s.picker.fault := by
  cases p with
  | mail m => rw [vacate_mail_eq, modMail_picker]; rfl
  | slot _ | drive _ | gripper => rfl

theorem vacate_queue_subset (s : State) (p : Place) : (vacate s p).picker.queue ⊆ s.picker.queue := by
  have hdrop : (dropFrom s p).picker.queue ⊆ s.picker.queue := List.filter_subset_self _
  cases p with
  | mail m =>
    rw [vacate_mail_eq, modMail_picker]
    exact hdrop
  | slot _ | drive _ | gripper => exact hdrop

theorem noticeCount_vacate_le (s : State) (p : Place) : noticeCount (vacate s p) ≤ noticeCount s + 1 := by
  cases p with
  | mail m => exact noticeCount_modMail_le (dropFrom s (.mail m)) m _
  | slot _ | drive _ | gripper => exact Nat.le_succ _

theorem slot_vacate_occ (s : State) (n : Nat) : ((vacate s (.slot n)).slot n).occ = .empty := by
  rcases tget_tset_new s.ret.slots n { s.slot n with occ := .empty } ⟨.empty, true⟩ with e | e <;>
    exact congrArg Slot.occ e

/-! ### What PICKER_FAULT is made from -/

/-- The mode, the records and the fault's reason are left alone, and at most one notice is placed. -/
structure ReportReads (s t : State) : Prop where
  mode : t.mode = s.mode
  carts : t.ret.carts = s.ret.carts
  fault : t.picker.fault = s.picker.fault
  notices : noticeCount t ≤ noticeCount s + 1

theorem WorkOnly.reads {s t u : State} (h : WorkOnly t u) (k : ReportReads s t) : ReportReads s u :=
  ⟨h.mode.trans k.mode, (congrArg Retained.carts h.ret).trans k.carts, h.fault.trans k.fault, h.noticeCount.le.trans k.notices⟩

/-- Outside a rebuild the report is the notice alone. -/
theorem mem_control_reportPickerFault {s u : State} (h : ReportReads s u) (hm : s.mode ≠ .rebuild) (hn : noticeCount s < 31)
    (t : Transfer) (p : Place) :
    (.notice ⟨.pickerFault, none, optNum 1 (s.picker.fault.map PickerFaultReason.code) ++ be 1 t.kind.code ++
      optNum 4 ((t.cart.bind s.cart).map Cart.label) ++ placeBytes u (some p)⟩ : ControlFrame) ∈
        (reportPickerFault u (some t) (some p)).control := by
  have hcart : u.cart = s.cart := by
    funext c
    unfold State.cart
    rw [h.carts]
  have hroom : noticeCount u < 32 := by
    have := h.notices
    omega
  unfold reportPickerFault
  dsimp only
  rw [notify_mode, h.mode, if_neg fun hr => hm hr.1, h.fault, hcart, Option.map_bind]
  exact mem_control_notify hroom _ _ _

theorem rebuildHalt_keeps (s : State) :
    (rebuildHalt s).ret = s.ret ∧ (rebuildHalt s).drives = s.drives ∧ (rebuildHalt s).picker = s.picker := by
  unfold rebuildHalt
  split
  · exact ⟨notify_ret .., notify_drives .., notify_picker ..⟩
  · exact ⟨rfl, rfl, rfl⟩

/-- The report leaves the cartridges where they are; in a rebuild it may start a reset. -/
theorem reportPickerFault_keeps (s : State) (t : Option Transfer) (p : Option Place) :
    let u := reportPickerFault s t p
    u.ret = s.ret ∧ u.drives = s.drives ∧ ∃ r, u.picker = { s.picker with routine := r } := by
  unfold reportPickerFault
  dsimp only
  split
  · split
    · exact ⟨notify_ret .., notify_drives .., .resetPark,
        congrArg (fun x : Picker => { x with routine := .resetPark }) (notify_picker ..)⟩
    · obtain ⟨hret, hdrives, hpicker⟩ := rebuildHalt_keeps (notify s .pickerFault none _)
      exact ⟨hret.trans (notify_ret ..), hdrives.trans (notify_drives ..), s.picker.routine, hpicker.trans (notify_picker ..)⟩
  · exact ⟨notify_ret .., notify_drives .., s.picker.routine, notify_picker ..⟩

/-! ### Found in the gripper, or left at its source -/

/-- The cartridge of a broken transfer is set in the gripper, before what its item comes to. -/
def gripped (s : State) (t : Transfer) (faceB : Bool) : State :=
  let src := xferSource s t
  rebuildMoved ((vacate (dropXfer s t.id) src).modPicker fun p =>
    { p with gripper := carried s t src, gripFaceB := faceB, gripMail := mailOf s src, gripSerial := serialOf s src }) src .gripper

theorem intoGripper_workOnly (s : State) (t : Transfer) (faceB : Bool) : WorkOnly (gripped s t faceB) (intoGripper s t faceB) :=
  WorkOnly.dropTaken _ t _

theorem intoGripper_reads (s : State) (t : Transfer) (faceB : Bool) : ReportReads s (intoGripper s t faceB) :=
  (intoGripper_workOnly s t faceB).reads ⟨vacate_mode (dropXfer s t.id) _, carts_vacate (dropXfer s t.id) _,
    vacate_fault (dropXfer s t.id) _, noticeCount_vacate_le (dropXfer s t.id) _⟩

theorem intoGripper_queue (s : State) (t : Transfer) (faceB : Bool) : ∀ x ∈ (intoGripper s t faceB).picker.queue, x.id ≠ t.id := by
  intro x hx
  have hmem : x ∈ (dropXfer s t.id).picker.queue :=
    vacate_queue_subset (dropXfer s t.id) _ ((intoGripper_workOnly s t faceB).queue hx)
  simpa using (List.mem_filter.1 hmem).2

theorem intoGripper_slot {s : State} {t : Transfer} {n : Nat} (faceB : Bool) (h : xferSource s t = .slot n) :
    ((intoGripper s t faceB).slot n).occ = .empty := by
  have hret : (intoGripper s t faceB).ret = (vacate (dropXfer s t.id) (.slot n)).ret := by
    rw [(intoGripper_workOnly s t faceB).ret, ← h]
    rfl
  unfold State.slot
  rw [hret]
  exact slot_vacate_occ (dropXfer s t.id) n

/-- The cartridge of any transfer but an IMPORT_TAKE stays where it is, and nothing changes. -/
theorem stayAtSource_eq_self (s : State) {t : Transfer} (h : t.kind ≠ .importTake) : stayAtSource s t = s := by
  unfold stayAtSource
  split
  · exact if_neg fun hx => h hx.1
  · rfl

theorem stayAtSource_reads (s : State) (t : Transfer) :
    ReportReads s (stayAtSource s t) ∧ ∀ d, ((stayAtSource s t).drive d).face = (s.drive d).face := by
  have hself : ReportReads s s ∧ ∀ d, (s.drive d).face = (s.drive d).face :=
    ⟨⟨rfl, rfl, rfl, Nat.le_succ _⟩, fun _ => rfl⟩
  unfold stayAtSource
  split
  · split
    · next m _ _ =>
      obtain ⟨u, hu, -, he⟩ := endImportAtDoor_eq s m
      rw [he, importRejected]
      refine ⟨⟨(notify_mode ..).trans hu.mode, ?_, ?_, ?_⟩, fun d => ?_⟩
      · rw [notify_ret, hu.ret]
      · rw [notify_picker, hu.fault]
      · exact hu.noticeCount ▸ noticeCount_notify_le u _ _ _
      · rw [← hu.face d]
        unfold State.drive
        rw [notify_drives]
    · exact hself
  · exact hself

/-! ### The answer -/

/-- A broken transfer whose cartridge's place the answer has told. -/
def answered (s : State) (b : Broken) (held : Bool) : State :=
  s.modPicker fun p => { p with broken := some { b with held := some held } }

section
variable {s : State} {b : Broken} {st : PickerStatus}

theorem brokenAnswered_of_held (hb : s.picker.broken = some b) (hh : b.held = none) (hm : b.moved = true) (hs : st.holding = true) :
    brokenAnswered s (some st) =
      reportPickerFault (intoGripper (answered s b true) b.xfer st.faceBUp) (some b.xfer) (some .gripper) := by
  have hheld : (b.moved && st.holding) = true := by rw [hm, hs]; rfl
  unfold brokenAnswered
  simp only [hb, hh, hheld, Option.isSome_none, Option.any_some, Bool.false_eq_true, if_false, if_true]
  rfl

theorem brokenAnswered_of_not_held (hb : s.picker.broken = some b) (hh : b.held = none) (hm : b.moved = false ∨ st.holding = false) :
    brokenAnswered s (some st) =
      reportPickerFault (stayAtSource (answered s b false) b.xfer) (some b.xfer) (some (xferSource s b.xfer)) := by
  have hheld : (b.moved && st.holding) = false := by rcases hm with h | h <;> simp [h]
  unfold brokenAnswered
  simp only [hb, hh, hheld, Option.isSome_none, Option.any_some, Bool.false_eq_true, if_false]
  rfl

end

theorem carried_of_occupied {s : State} {t : Transfer} {src : Place} (h : placeOcc s src ≠ .empty) :
    carried s t src = placeOcc s src := by
  unfold carried
  split
  · next he _ => exact absurd he h
  · next he _ => exact absurd he h
  · rfl

theorem pickerFaultPlacesTheCartridge : PickerFaultPlacesTheCartridge := by
  intro s st b hasked hb hh t src
  let u := intoGripper (answered (freeBus s) b true) b.xfer st.faceBUp
  let v := answered (freeBus s) b false
  have hheld : b.moved = true → st.holding = true → t = reportPickerFault u (some b.xfer) (some .gripper) := fun hm hs =>
    brokenAnswered_of_held (s := freeBus s) hb hh hm hs
  have hstays : b.moved = false ∨ st.holding = false →
      t = reportPickerFault (stayAtSource v b.xfer) (some b.xfer) (some src) := fun hn =>
    brokenAnswered_of_not_held (s := freeBus s) hb hh hn
  refine ⟨exec_pickerStatusTaken hasked st, fun hm hs => ?_, fun hn hk => ?_,
    fun hmode hroom => ⟨fun hm hs => ?_, fun hn => ?_⟩⟩
  · have hu : WorkOnly _ u := intoGripper_workOnly (answered (freeBus s) b true) b.xfer st.faceBUp
    have hgrip : u.picker.gripper = carried s b.xfer src := hu.gripper
    obtain ⟨hret, -, r, hpicker⟩ := reportPickerFault_keeps u (some b.xfer) (some .gripper)
    rw [hheld hm hs, hpicker]
    refine ⟨hgrip, fun ho => hgrip.trans (carried_of_occupied ho), hu.gripFaceB, intoGripper_queue _ _ _, fun n hn => ?_⟩
    unfold State.slot
    rw [hret]
    exact intoGripper_slot st.faceBUp hn
  · obtain ⟨hret, hdrives, r, hpicker⟩ := reportPickerFault_keeps v (some b.xfer) (some src)
    rw [hstays hn, stayAtSource_eq_self v hk, hpicker, hret, hdrives]
    exact ⟨rfl, rfl, rfl, rfl⟩
  · rw [hheld hm hs]
    exact mem_control_reportPickerFault (intoGripper_reads (answered (freeBus s) b true) b.xfer st.faceBUp) hmode hroom
      b.xfer .gripper
  · obtain ⟨hreads, hface⟩ := stayAtSource_reads v b.xfer
    have hplace := mem_control_reportPickerFault hreads hmode hroom b.xfer src
    rw [hstays hn]
    refine ⟨fun n e => ?_, fun d e => ?_, fun e => ?_, fun m e => ?_⟩ <;> rw [e] at hplace ⊢
    case refine_2 =>
      rw [placeBytes, hface d] at hplace
      exact hplace
    all_goals exact hplace

/-- Settles O47: the status by phase, in the inventory and in PICKER_RESET, and after a fault. -/
theorem pickerStatusSetsThePhase : Obligations.PickerStatusSetsThePhase :=
  ⟨pickerStatusByPhase, pickerStatusInRoutines, pickerFaultPlacesTheCartridge⟩

end Sys2Proof.Machine
end

section
/-! PROOFS. The Bay Link's sending, its passes and its three tries (R65 to R69). -/

namespace Sys2Proof.Machine

/-! ### Sending and passes -/

section
variable {s : State}

theorem baySendOp_of_free {attention : Bool} {e : BayEntry} {rest : List BayEntry} (hbus : s.bay.bus = none)
    (hq : s.bay.queue = e :: rest) :
    baySendOp s attention = if attention && !s.bay.passFailed && !inventoryOn s then s
      else s.modBay fun b => { b with bus := some (e, 0), queue := rest, passFailed := false } := by
  unfold baySendOp
  rw [hbus, hq]

theorem baySendOp_of_busy_or_empty {attention : Bool} (h : s.bay.bus ≠ none ∨ s.bay.queue = []) : baySendOp s attention = s := by
  unfold baySendOp
  split
  · next hbus hq =>
    rcases h with h | h
    · exact absurd hbus h
    · exact absurd (h.symm.trans hq) (List.cons_ne_nil _ _).symm
  · rfl

theorem exec_baySend (hp : s.powered = true) (attention : Bool) : exec (.baySend attention) s = .next (baySendOp s attention) :=
  congrArg Host.Outcome.next (if_pos hp)

theorem exec_attentionPass (hp : s.powered = true) : exec .attentionPass s = .next (attentionPassOp s) :=
  congrArg Host.Outcome.next (if_pos hp)

end

theorem passNext_eq (s : State) :
    (∀ m ms, s.bay.passLeft = m :: ms →
      passNext s = { s with bay := { s.bay with bus := some (⟨m, .status, .pass⟩, 0), passLeft := ms } }) ∧
    (s.bay.passLeft = [] → passNext s = s) := by
  unfold passNext
  exact ⟨fun m ms h => by rw [h]; rfl, fun h => by rw [h]⟩

theorem baySendAndPasses : BaySendAndPasses := by
  refine ⟨fun s hp => ⟨fun attention e rest hbus hq => ⟨fun h => ?_, fun ha hf hi => ?_⟩, fun attention h => ?_,
    fun hbus h => ?_, fun h => ?_⟩, passNext_eq⟩
  · rw [exec_baySend hp, baySendOp_of_free hbus hq, if_neg]
    · rfl
    · rcases h with h | h | h <;> simp [h]
  · rw [exec_baySend hp, baySendOp_of_free hbus hq, if_pos]
    simp [ha, hf, hi]
  · rw [exec_baySend hp, baySendOp_of_busy_or_empty h]
  · rw [exec_attentionPass hp, attentionPassOp, if_pos]
    · rfl
    · refine ⟨by rw [hbus]; rfl, fun ⟨howed, hne⟩ => ?_⟩
      rcases h with h | ⟨hf, hi⟩
      · exact hne h
      · simp [hf, hi] at howed
  · rw [exec_attentionPass hp, attentionPassOp, if_neg]
    rintro ⟨hbus, hno⟩
    rcases h with h | ⟨hne, howed⟩
    · exact h (Option.isNone_iff_eq_none.1 hbus)
    · exact hno ⟨howed, hne⟩

/-! ### Three tries -/

section
variable {s : State} {e : BayEntry}

theorem tryFailed_of_free (h : s.bay.bus = none) : tryFailed s = s := by
  unfold tryFailed
  rw [h]

theorem tryFailed_again {n : Nat} (h : s.bay.bus = some (e, n)) (hn : n < 2) :
    tryFailed s = { s with bay := { s.bay with bus := some (e, n + 1) } } := by
  unfold tryFailed
  rw [h]
  exact if_pos hn

theorem tryFailed_third {n : Nat} (h : s.bay.bus = some (e, n)) (hn : 2 ≤ n) : tryFailed s = commandFailed (freeBus s) e := by
  unfold tryFailed
  rw [h]
  exact if_neg (Nat.not_lt.2 hn)

/-- The module of a command that has failed is told: what each of the three kinds of module comes to. -/
def moduleFailed (s : State) (e : BayEntry) : State :=
  match moduleAt e.module with
  | .picker => pickerCommandFailed s e
  | .drive d => driveCommandFailed s d e
  | .door m => doorCommandFailed s m e

theorem commandFailed_of_plain (h : e.why = .plain) : commandFailed s e = moduleFailed s e := by
  unfold commandFailed afterCommand moduleFailed
  cases moduleAt e.module <;> simp only [h, reduceCtorEq, if_false]

theorem commandFailed_of_pass (h : e.why = .pass) :
    commandFailed s e = passNext (moduleFailed { s with bay := { s.bay with passFailed := true } } e) := by
  unfold commandFailed afterCommand moduleFailed
  cases moduleAt e.module <;> simp only [h, reduceCtorEq, if_false, if_true] <;> rfl

theorem moduleFailed_drive {d : Nat} (h1 : 1 ≤ d) (h4 : d ≤ 4) (hm : e.module = d + 1) :
    moduleFailed s e = driveCommandFailed s d e := by
  have haddr : moduleAt (d + 1) = .drive d := by
    unfold moduleAt
    rw [if_neg (by omega), if_pos (by omega), Nat.add_sub_cancel]
  unfold moduleFailed
  rw [hm, haddr]

theorem moduleFailed_door {m : Nat} (h : m = 1 ∨ m = 2) (hm : e.module = m + 5) :
    moduleFailed s e = doorCommandFailed s m e := by
  have haddr : moduleAt (m + 5) = .door m := by
    unfold moduleAt
    rw [if_neg (by omega), if_neg (by omega), Nat.add_sub_cancel]
  unfold moduleFailed
  rw [hm, haddr]

theorem moduleFailed_picker (hm : e.module = 1) : moduleFailed s e = pickerCommandFailed s e := by
  unfold moduleFailed
  rw [hm]
  rfl

/-- A failed command faults the drive with reason BUS, unless it is an EJECT, whose failure has its own outcome. -/
theorem driveCommandFailed_eq_driveFault {d : Nat} (hw : e.why = .plain ∨ e.why = .pass)
    (h : (∀ w, (s.drive d).task ≠ .eject w) ∨ e.cmd ≠ .eject) : driveCommandFailed s d e = driveFault s d .bus := by
  unfold driveCommandFailed
  dsimp only
  split
  · next he => simp [he] at hw
  · next he => simp [he] at hw
  · next ht _ _ =>
    rcases h with h | h
    · exact absurd ht (h _)
    · exact if_neg h
  · rfl

theorem doorCommandFailed_eq_doorFault {m : Nat} (hw : e.why = .plain ∨ e.why = .pass) (hf : (s.mail m).faulty = false) :
    doorCommandFailed s m e = doorFault (dropQueued s (m + 5)) m := by
  have hinv : e.why ≠ .inventory := by rcases hw with h | h <;> simp [h]
  unfold doorCommandFailed
  dsimp only
  rw [if_neg hinv, if_neg (by simp [hf])]
  rfl

theorem pickerCommandFailed_eq_pickerFault (hw : e.why = .plain ∨ e.why = .pass) (hr : s.picker.routine = .none) :
    pickerCommandFailed s e = pickerFault s .bus := by
  unfold pickerCommandFailed
  rcases hw with hw | hw <;> rw [hw, hr]

end

theorem exec_failedTry {c : Instr} {s : State} (hc : c = .bayByteNak ∨ c = .bayHoldTimeout) (hp : s.powered = true) :
    exec c s = .next (settle (tryFailed s)) := by
  rcases hc with rfl | rfl <;> exact congrArg Host.Outcome.next (if_pos hp)

theorem threeTriesThenTheModuleFaults : ThreeTriesThenTheModuleFaults := by
  intro c s hc hp
  have hrun := exec_failedTry hc hp
  refine ⟨fun hbus => by rw [hrun, tryFailed_of_free hbus], fun e n hbus => ?_⟩
  intro u p
  refine ⟨fun hn => by rw [hrun, tryFailed_again hbus hn], fun hn hw => ?_, fun hn hw => ?_⟩
  · have hgoes : ∀ t, moduleFailed u e = t → exec c s = .next (settle t) := fun t h => by
      rw [hrun, tryFailed_third hbus hn, commandFailed_of_plain hw, ← h]
    exact ⟨fun d h1 h4 hm ht => hgoes _ ((moduleFailed_drive h1 h4 hm).trans (driveCommandFailed_eq_driveFault (.inl hw) (.inl ht))),
      fun m h hm hf => hgoes _ ((moduleFailed_door h hm).trans (doorCommandFailed_eq_doorFault (.inl hw) hf)),
      fun hm hr => hgoes _ ((moduleFailed_picker hm).trans (pickerCommandFailed_eq_pickerFault (.inl hw) hr))⟩
  · have hgoes : ∀ t, moduleFailed p e = t → exec c s = .next (settle (passNext t)) := fun t h => by
      rw [hrun, tryFailed_third hbus hn, commandFailed_of_pass hw, ← h]
    have hstatus : e.cmd = .status → e.cmd ≠ .eject := fun h => by rw [h]; exact nofun
    exact ⟨fun d h1 h4 hm hs =>
        hgoes _ ((moduleFailed_drive h1 h4 hm).trans (driveCommandFailed_eq_driveFault (.inr hw) (.inr (hstatus hs)))),
      fun m h hm hf => hgoes _ ((moduleFailed_door h hm).trans (doorCommandFailed_eq_doorFault (.inr hw) hf)),
      fun hm hr => hgoes _ ((moduleFailed_picker hm).trans (pickerCommandFailed_eq_pickerFault (.inr hw) hr))⟩

/-- Settles O45: what is sent and polled, and what the third failed try of a command comes to. -/
theorem bayLinkSendsAndPolls : Obligations.BayLinkSendsAndPolls := ⟨baySendAndPasses, threeTriesThenTheModuleFaults⟩

end Sys2Proof.Machine
end

section
/-! PROOFS. What a drive's status in a pass comes to: the end of the operation last taken, its progress, or nothing (R67). -/

namespace Sys2Proof.Machine

/-! ### A drive's record -/

theorem modDrive_modDrive (s : State) (d : Nat) (f g : Drive → Drive) :
    (s.modDrive d f).modDrive d g = s.modDrive d fun x => g (f x) := by
  have h : tset (tset s.drives d (f (s.drive d))) d (g ((s.modDrive d f).drive d)) = tset s.drives d (g (f (s.drive d))) := by
    rw [State.drive_modDrive]
    cases d with
    | zero => rfl
    | succ k =>
      by_cases hk : k + 1 ≤ s.drives.length
      · simp [tset, hk]
      · have hset : ∀ (l : List Drive) x, l.length = s.drives.length → l.set k x = l := fun l x hl =>
          List.set_eq_of_length_le (by omega)
        simp only [tset, hset]
  exact congrArg (fun l => ({ s with drives := l } : State)) h

theorem modDrive_eq_self {s : State} {d : Nat} {f : Drive → Drive} (h : f (s.drive d) = s.drive d) : s.modDrive d f = s := by
  have ht : tset s.drives d (s.drive d) = s.drives := by
    cases d with
    | zero => rfl
    | succ k =>
      simp only [tset, State.drive, tget, List.getD_eq_getElem?_getD]
      by_cases hk : k < s.drives.length
      · simp [hk]
      · exact List.set_eq_of_length_le (by omega)
  unfold State.modDrive
  rw [h, ht]

/-- What an update of a drive leaves alone is read back as it was. -/
theorem drive_modDrive_keeps {α : Type} (s : State) (d k : Nat) {f : Drive → Drive} (g : Drive → α) (h : ∀ x, g (f x) = g x) :
    g ((s.modDrive d f).drive k) = g (s.drive k) := by
  rw [State.drive_modDrive]
  split
  · next hk => rw [h, hk.1]
  · rfl

theorem drive_modDrive_self {s : State} {d : Nat} (h1 : 1 ≤ d) (hl : d ≤ s.drives.length) (f : Drive → Drive) :
    (s.modDrive d f).drive d = f (s.drive d) := by
  rw [State.drive_modDrive, if_pos ⟨rfl, h1, hl⟩]

theorem side_modDrive_keeps (s : State) (d k : Nat) {f : Drive → Drive} (ho : ∀ x, (f x).occ = x.occ)
    (hf : ∀ x, (f x).face = x.face) : ((s.modDrive d f).drive k).side = (s.drive k).side :=
  drive_modDrive_keeps s d k Drive.side fun x => by unfold Drive.side; rw [ho, hf]

/-- A drive with an operation in progress is one of the table's. -/
theorem le_drives_of_op {s : State} {d : Nat} {k : DriveOpKind} (h : (s.drive d).op = some k) : 1 ≤ d ∧ d ≤ s.drives.length := by
  unfold State.drive tget at h
  cases d with
  | zero => cases h
  | succ i =>
    refine ⟨Nat.succ_pos i, Nat.lt_of_not_le fun hi => ?_⟩
    dsimp only at h
    rw [List.getD_eq_default _ _ hi] at h
    cases h

/-! ### A status in a pass -/

section
variable {s : State} {d : Nat} {st : DriveStatus}

theorem exec_driveStatusTaken (h1 : 1 ≤ d) (h4 : d ≤ 4) (h : StatusAsked s (d + 1) .pass) :
    exec (.driveStatusTaken d st) s = .next (settle (passNext (driveStatusOp (freeBus s) d st .pass))) := by
  have hrun : exec (.driveStatusTaken d st) s = .next (whenPowered s fun s => settle (driveTakenOp s d st)) := rfl
  rw [hrun, whenPowered, if_pos h.1, driveTakenOp, if_pos ⟨h1, h4⟩, show driveAddr d = d + 1 from rfl, statusTaken_of_asked h]
  rfl

theorem driveStatusOp_of_moduleFault (hm : st.moduleFault = true) (hf : (s.drive d).state ≠ .faulted)
    (ho : (s.drive d).state ≠ .outOfService) : driveStatusOp s d st .pass = moduleFault s d st :=
  if_pos (show _ from ⟨hm, hf, ho⟩)

theorem driveStatusOp_of_no_moduleFault
    (h : st.moduleFault = false ∨ (s.drive d).state = .faulted ∨ (s.drive d).state = .outOfService) :
    driveStatusOp s d st .pass = takeCompletion s d st := by
  have hno : ¬(st.moduleFault = true ∧ (s.drive d).state ≠ .faulted ∧ (s.drive d).state ≠ .outOfService) := by
    rintro ⟨hm, hf, ho⟩
    rcases h with h | h | h
    · simp [h] at hm
    · exact hf h
    · exact ho h
  unfold driveStatusOp
  dsimp only
  rw [if_neg (by decide), if_neg hno, if_pos (.inl (by decide))]

theorem reportedOp_eq_none (h : (s.drive d).op = none ∨ (s.drive d).op ≠ st.op) : reportedOp s d st = none := by
  unfold reportedOp
  rcases hop : (s.drive d).op with _ | k
  · rfl
  · rcases h with h | h
    · cases hop.symm.trans h
    · exact if_neg fun he => h (hop.trans (eq_of_beq he).symm)

theorem reportedOp_eq_some {k : DriveOpKind} (h : (s.drive d).op = some k) (hs : st.op = some k) : reportedOp s d st = some k := by
  unfold reportedOp
  rw [h, hs]
  simp

/-- An operation ends where a status in a pass reports its end: what follows is what `opEnded` makes of it. -/
theorem exec_of_opEnded {k : DriveOpKind} (h : OperationEnds s d st k) {t : State} (e : opEnded (freeBus s) d k st = t) :
    exec (.driveStatusTaken d st) s = .next (settle (passNext t)) := by
  obtain ⟨hasked, h1, h4, hm, hop, hst, hr⟩ := h
  rw [exec_driveStatusTaken h1 h4 hasked, driveStatusOp_of_no_moduleFault (.inl hm), takeCompletion,
    reportedOp_eq_some (s := freeBus s) hop hst]
  dsimp only
  rw [if_neg hr, e]

theorem statusByReport (hasked : StatusAsked s (d + 1) .pass) (h1 : 1 ≤ d) (h4 : d ≤ 4) :
    let x := s.drive d
    let u := freeBus s
    let goes := fun t => exec (.driveStatusTaken d st) s = .next (settle (passNext t))
    (st.moduleFault = true → x.state ≠ .faulted → x.state ≠ .outOfService →
      (x.op = none ∨ x.op ≠ st.op → goes (driveFault u d .hardware)) ∧
      ∀ k, x.op = some k → st.op = some k → goes (driveFault (takeProgress u d k st) d .hardware)) ∧
    (st.moduleFault = false ∨ x.state = .faulted ∨ x.state = .outOfService →
      (x.op = none ∨ x.op ≠ st.op → goes u) ∧
      ∀ k, x.op = some k → st.op = some k → st.result = .running → goes (takeProgress u d k st)) := by
  intro x u goes
  have hgoes : ∀ t, driveStatusOp u d st .pass = t → goes t := fun t e => e ▸ exec_driveStatusTaken h1 h4 hasked
  refine ⟨fun hm hf ho => ?_, fun h => ?_⟩
  · have hfault := driveStatusOp_of_moduleFault (s := u) hm hf ho
    refine ⟨fun hop => hgoes _ ?_, fun k hop hs => hgoes _ ?_⟩
    · rw [hfault, moduleFault, reportedOp_eq_none (s := u) hop]
    · rw [hfault, moduleFault, reportedOp_eq_some (s := u) hop hs]
  · have htake := driveStatusOp_of_no_moduleFault (s := u) h
    refine ⟨fun hop => hgoes _ ?_, fun k hop hs hr => hgoes _ ?_⟩
    · rw [htake, takeCompletion, reportedOp_eq_none (s := u) hop]
    · rw [htake, takeCompletion, reportedOp_eq_some (s := u) hop hs]
      exact if_pos hr

end

/-! ### What follows the end of an operation, task by task -/

theorem drive_opOver {s : State} {d : Nat} {k : DriveOpKind} (h : (s.drive d).op = some k) :
    (opOver s d).drive d = { s.drive d with op := none, chan := [] } :=
  drive_modDrive_self (s := freeBus s) (le_drives_of_op h).1 (le_drives_of_op h).2 _

theorem side_opOver (s : State) (d : Nat) : ((opOver s d).drive d).side = (s.drive d).side :=
  side_modDrive_keeps (freeBus s) d d (fun _ => rfl) fun _ => rfl

section
variable {s : State} {d : Nat} {st : DriveStatus}

theorem opEnded_load (h : (s.drive d).task = .spinUp) :
    opEnded (freeBus s) d .load st = if st.result = .failed then driveFault (opOver s d) d .hardware else opOver s d := by
  unfold opEnded
  dsimp only
  rw [show ((freeBus s).drive d).task = .spinUp from h]
  rfl

theorem opEnded_spinUp (h : (s.drive d).task = .spinUp) :
    let still := (opOver s d).modDrive d fun y => { y with spinLimit := false }
    opEnded (freeBus s) d .spinUp st =
      if st.result = .failed then driveFault still d .hardware else driveOp still d (.readLabel none) (.read 0 1) := by
  unfold opEnded
  dsimp only
  rw [show ((freeBus s).drive d).task = .spinUp from h]
  rfl

theorem opEnded_spinDown (h : (s.drive d).task = .spinDown) :
    opEnded (freeBus s) d .spinDown st = if st.result = .failed then driveFault (opOver s d) d .hardware
      else (opOver s d).modDrive d fun y => { y with state := .stopped, task := .idle } := by
  unfold opEnded
  dsimp only
  rw [show ((freeBus s).drive d).task = .spinDown from h]
  rfl

theorem opEnded_eject {w : EjectWhy} (h : (s.drive d).task = .eject w) :
    opEnded (freeBus s) d .eject st =
      if st.result = .failed then ejectFailed (opOver s d) d w .hardware else ejectDone (opOver s d) d w := by
  unfold opEnded
  dsimp only
  rw [show ((freeBus s).drive d).task = .eject w from h]
  rfl

/-- The label as a status that ends its READ tells it. -/
def labelOf (st : DriveStatus) (kept : Option BlockIn) : LabelRead :=
  match st.result, kept.orElse fun _ => st.blocks.head? with
  | .complete, some b => readLabelBlock b
  | _, _ => .unreadable

theorem opEnded_readLabel {kept : Option BlockIn} (h : (s.drive d).task = .readLabel kept) :
    opEnded (freeBus s) d .read st = labelRead (opOver s d) d (labelOf st kept) := by
  unfold opEnded
  dsimp only
  rw [show ((freeBus s).drive d).task = .readLabel kept from h]
  rfl

theorem opEnded_readBurst {b : ReadBurst} (h : (s.drive d).task = .readBurst b) :
    opEnded (freeBus s) d .read st = readTaken (opOver s d) d b st := by
  unfold opEnded
  dsimp only
  rw [show ((freeBus s).drive d).task = .readBurst b from h]
  rfl

theorem opEnded_writeBurst {b : WriteBurst} (h : (s.drive d).task = .writeBurst b) (k : DriveOpKind) :
    opEnded (freeBus s) d k st = writeTaken (opOver s d) d b st.result := by
  unfold opEnded
  dsimp only
  rw [show ((freeBus s).drive d).task = .writeBurst b from h]
  rfl

theorem opEnded_commitBurst {b : CommitBurst} (h : (s.drive d).task = .commitBurst b) (k : DriveOpKind) :
    opEnded (freeBus s) d k st = commitTaken (opOver s d) d b st.result := by
  unfold opEnded
  dsimp only
  rw [show ((freeBus s).drive d).task = .commitBurst b from h]
  rfl

end

end Sys2Proof.Machine
end

section
/-! PROOFS. Mounting, spinning down and ejecting: the label's check, the directory's end and a failed label (R52 to R57, R63). -/

namespace Sys2Proof.Machine

theorem driveSpinsUp : DriveSpinsUp := by
  intro s d st x v goes still ht
  refine ⟨fun h => ?_, fun h => ?_⟩
  · have hend := opEnded_load (st := st) ht
    exact ⟨fun hr => exec_of_opEnded h (hend.trans (if_neg hr)), fun hr => exec_of_opEnded h (hend.trans (if_pos hr))⟩
  · have hend := opEnded_spinUp (st := st) ht
    exact ⟨fun hr => exec_of_opEnded h (hend.trans (if_neg hr)), fun hr => exec_of_opEnded h (hend.trans (if_pos hr))⟩

theorem driveStopsAndEjects : DriveStopsAndEjects := by
  intro s d st x v goes
  refine ⟨fun ht h => ?_, fun ht h => ?_, fun ht h => ?_⟩
  · have hend := opEnded_spinDown (st := st) ht
    exact ⟨fun hr => exec_of_opEnded h (hend.trans (if_neg hr)), fun hr => exec_of_opEnded h (hend.trans (if_pos hr))⟩
  all_goals
    have hend := opEnded_eject (st := st) ht
    exact ⟨fun hr => exec_of_opEnded h (hend.trans (if_neg hr)), fun hr => exec_of_opEnded h (hend.trans (if_pos hr))⟩

/-! ### READY, and the directory -/

section
variable {s : State} {d : Nat}

theorem enterReady_eq (s : State) (d : Nat) : enterReady s d = nowReady s d id := by
  unfold enterReady nowReady
  simp only [Option.not_isSome, id_eq]

theorem enterReady_modDrive (s : State) (d : Nat) {f : Drive → Drive} (h : ∀ x, (f x).chainAsk = x.chainAsk) :
    enterReady (s.modDrive d f) d = nowReady s d f := by
  unfold enterReady nowReady
  simp only [modDrive_modDrive, h, Option.not_isSome]
  rfl

theorem directoryDone_eq {n : Nat} (hm : s.mode ≠ .rebuild) (hn : (s.drive d).side = some n) (got : List (Nat × SlotRead)) :
    directoryDone s d got = nowReady s d fun y => { y with dir := directoryCopy (s.side n) got } := by
  unfold directoryDone
  rw [hn]
  dsimp only
  rw [if_neg]
  · exact enterReady_modDrive s d fun _ => rfl
  · exact fun hr => hm (rebuilding_mode hr)

theorem readDirectory_of_done {next last : Nat} (h : last < next) (got : List (Nat × SlotRead)) :
    readDirectory s d next last got = directoryDone s d got := if_pos h

theorem readDirectory_of_left {next last : Nat} (h : next ≤ last) (got : List (Nat × SlotRead)) :
    readDirectory s d next last got = driveOp s d (.readDir next last got) (.read next (last + 1 - next)) :=
  if_neg (Nat.not_lt.2 h)

end

theorem opEnded_readDir {s : State} {d next last : Nat} {got : List (Nat × SlotRead)} {st : DriveStatus}
    (h : (s.drive d).task = .readDir next last got) :
    let all := got ++ (slotsSent next st).filter fun e => decide (e.1 ≤ last)
    (st.result = .complete → opEnded (freeBus s) d .read st = directoryDone (opOver s d) d all) ∧
    ∀ a, st.result = .failedBlock a → opEnded (freeBus s) d .read st =
      readDirectory (opOver s d) d (a + 1) last ((all.filter fun e => decide (e.1 < a)) ++ [(a, .dead)]) := by
  unfold opEnded
  dsimp only
  rw [show ((freeBus s).drive d).task = .readDir next last got from h]
  refine ⟨fun hr => ?_, fun a hr => ?_⟩ <;> dsimp only <;> rw [hr] <;> rfl

theorem directoryIsLoaded : DirectoryIsLoaded := by
  intro s d next last n got st x v goes h hm ht hn _ all ready
  obtain ⟨hcomplete, hfailed⟩ := opEnded_readDir (st := st) ht
  have hside : (v.drive d).side = some n := (side_opOver s d).trans hn
  have hdone : ∀ l, directoryDone v d l = ready l := directoryDone_eq (s := v) hm hside
  refine ⟨fun hr => exec_of_opEnded h ((hcomplete hr).trans (hdone all)), fun a hr => ?_⟩
  intro l
  refine ⟨fun ha => exec_of_opEnded h ((hfailed a hr).trans ?_), fun ha => exec_of_opEnded h ((hfailed a hr).trans ?_)⟩
  · rw [readDirectory_of_left ha, Nat.add_sub_add_right]
    rfl
  · exact (readDirectory_of_done (Nat.lt_succ_of_le ha) _).trans (hdone l)

/-! ### The label -/

/-- The drive's record once its label block has been read. -/
def labelKept (s : State) (d : Nat) (r : LabelRead) : State :=
  s.modDrive d fun x =>
    { x with markTried := false, label := some r, serial := match r with
        | .good l => some l.serial
        | .erased | .unreadable => x.serial }

section
variable {s : State} {d n : Nat} {r : LabelRead}

theorem drive_labelKept {k : DriveOpKind} (h : (s.drive d).op = some k) (r : LabelRead) :
    let x := (labelKept (opOver s d) d r).drive d
    x.side = (s.drive d).side ∧ x.markTried = false ∧ x.dirLoaded = (s.drive d).dirLoaded ∧ x.state = (s.drive d).state := by
  intro x
  have hx : x = _ := drive_modDrive_self (s := opOver s d) (le_drives_of_op h).1
    (by simpa [opOver, freeBus, State.modBay] using (le_drives_of_op h).2) _
  rw [hx, drive_opOver h]
  exact ⟨rfl, rfl, rfl, rfl⟩

theorem labelRead_eq (hm : s.mode ≠ .rebuild) : labelRead s d r = match (s.drive d).side with
    | none => findOrWait (labelKept s d r) d r
    | some n => if labelPasses (labelKept s d r) n r then labelPassed (labelKept s d r) d else labelFail (labelKept s d r) d n := by
  have hside : ((labelKept s d r).drive d).side = (s.drive d).side := side_modDrive_keeps s d d (fun _ => rfl) fun _ => rfl
  rw [← hside]
  exact if_neg hm

/-- A drive's new findings do not bear on whether a NEW mark is being written. -/
theorem newUnderWay_modDrive {f : Drive → Drive} (h : ∀ x, (f x).task = x.task) :
    newUnderWay (s.modDrive d f) = newUnderWay s := by
  have hmap : (s.modDrive d f).drives.map Drive.task = s.drives.map Drive.task := by
    have hself : s.modDrive d (fun x => x) = s := modDrive_eq_self rfl
    conv_rhs => rw [← hself]
    simp only [State.modDrive_drives]
    cases d with
    | zero => rfl
    | succ k => simp only [tset, List.map_set, h]
  have hany : ∀ t : State, newUnderWay t = (t.drives.map Drive.task).any fun t => match t with
      | .writeLabel (.new _) _ _ => true
      | _ => false := fun t => by
    rw [List.any_map]
    rfl
  rw [hany, hany, hmap]

theorem labelPasses_iff : labelPasses s n r = true ↔ ((s.side n).state = .blank ∨ ∃ l k, r = .good l ∧
    s.cart (sideCart n) = some k ∧ l.serial = k.label ∧ l.face = sideFace n ∧ l.mark ≠ .new) := by
  unfold labelPasses
  rw [Bool.or_eq_true, beq_iff_eq]
  refine or_congr Iff.rfl ?_
  cases r with
  | good l =>
    cases hk : s.cart (sideCart n) with
    | none => simp
    | some k => simp [and_assoc]
  | erased | unreadable => simp

/-- The closed mark due goes first, then the OPEN mark of a side to open, then the directory. -/
theorem labelPassed_of_due (h : markDue s d = some n) :
    labelPassed s d = beginLabelWrite s d (.closing n) (closedLabel s d n) := by
  unfold labelPassed
  rw [h]

theorem labelPassed_of_opening (h : markDue s d = none) (ho : openingOn s d = some n) :
    labelPassed s d = beginLabelWrite s d (.opening n) (openLabel s n) := by
  unfold labelPassed
  rw [h, ho]

theorem labelPassed_of_none (h : markDue s d = none) (ho : openingOn s d = none) : labelPassed s d = afterMark s d := by
  unfold labelPassed
  rw [h, ho]

theorem markDue_eq_some (hn : (s.drive d).side = some n) (hc : (s.side n).state = .closed) (hp : (s.side n).closedPending = true)
    (ht : (s.drive d).markTried = false) : markDue s d = some n := by
  unfold markDue
  rw [hn]
  exact if_pos ⟨hc, hp, ht⟩

theorem markDue_eq_none (hn : (s.drive d).side = some n) (h : (s.side n).state ≠ .closed ∨ (s.side n).closedPending = false) :
    markDue s d = none := by
  unfold markDue
  rw [hn]
  refine if_neg ?_
  rintro ⟨hc, hp, -⟩
  rcases h with h | h
  · exact h hc
  · simp [h] at hp

theorem openingOn_eq_some {i : Item} (hi : holderOf s d = some i) (hn : (s.drive d).side = some n) (hk : i.kind = .file)
    (his : i.side = some n) (hb : (s.side n).state = .blank) (ho : anyOpened s = false) : openingOn s d = some n := by
  unfold openingOn
  rw [hi, hn]
  exact if_pos ⟨hk, his, hb, ho⟩

theorem openingOn_eq_none (hn : (s.drive d).side = some n) (hb : (s.side n).state ≠ .blank) : openingOn s d = none := by
  unfold openingOn
  rw [hn]
  cases holderOf s d with
  | none => rfl
  | some i => exact if_neg fun h => hb h.2.2.1

theorem afterMark_of_loaded (h : (s.drive d).dirLoaded = true) : afterMark s d = nowReady s d id := by
  unfold afterMark
  rw [if_pos h, enterReady_eq]

theorem afterMark_of_not_loaded (h : (s.drive d).dirLoaded = false) (hn : (s.drive d).side = some n) (hu : 1 ≤ (s.side n).slotsUsed) :
    afterMark s d = driveOp s d (.readDir 1 (s.side n).slotsUsed []) (.read 1 (s.side n).slotsUsed) := by
  unfold afterMark
  rw [if_neg (by simp [h]), hn]
  exact readDirectory_of_left hu []

/-- An OPEN mark written under way to READY leaves the drive's state alone. -/
theorem beginLabelWrite_of_opening (h : (s.drive d).state ≠ .ready) (l : Label) :
    beginLabelWrite s d (.opening n) l = driveOp s d (.writeLabel (.opening n) l .erase) (.erase 0 1) := by
  have hself : (s.modDrive d fun x => if x.state = .ready then { x with state := .active, idleOn := false } else x) = s :=
    modDrive_eq_self (if_neg h)
  exact congrArg (driveOp · d (.writeLabel (.opening n) l .erase) (.erase 0 1)) hself

end

theorem labelOf_eq {st : DriveStatus} {r : LabelRead}
    (h : (∃ b bs, st.result = .complete ∧ st.blocks = b :: bs ∧ r = readLabelBlock b) ∨ (st.result ≠ .complete ∧ r = .unreadable)) :
    labelOf st none = r := by
  unfold labelOf
  rcases h with ⟨b, bs, hr, hb, rfl⟩ | ⟨hr, rfl⟩
  · rw [hr, hb]
    rfl
  · split
    · next he _ => exact absurd he hr
    · rfl

theorem labelIsChecked : LabelIsChecked := by
  intro s d st x goes h hm r hr w
  obtain ⟨ht, hlabel⟩ : x.task = .readLabel none ∧ labelOf st none = r := by
    rcases hr with ⟨ht, hr⟩
    exact ⟨ht, labelOf_eq hr⟩
  have hw : labelKept (opOver s d) d r = w := by
    cases r <;> rfl
  have hdrive := h
  obtain ⟨-, -, -, -, hop, -, -⟩ := hdrive
  have hwdrive := drive_labelKept hop r
  rw [hw] at hwdrive
  obtain ⟨hwside, htried, hloaded, hstate⟩ := hwdrive
  have hgoes : ∀ t, labelRead (opOver s d) d r = t → goes t := fun t e =>
    exec_of_opEnded h (((opEnded_readLabel ht).trans (congrArg _ hlabel)).trans e)
  have hread := labelRead_eq (s := opOver s d) (d := d) (r := r) hm
  rw [hw, side_opOver] at hread
  have hnew : newUnderWay w = newUnderWay s := by
    have hover : newUnderWay (opOver s d) = newUnderWay (freeBus s) := newUnderWay_modDrive fun _ => rfl
    have hkept : newUnderWay w = newUnderWay (opOver s d) := newUnderWay_modDrive fun _ => rfl
    exact hkept.trans hover
  refine ⟨fun hn hno => hgoes _ ?_, fun hn hyes => hgoes _ ?_, fun n hn => ?_⟩
  · rw [hread, hn]
    exact if_neg (by rw [hnew, hno]; decide)
  · rw [hread, hn]
    exact if_pos (by rw [hnew, hyes])
  · intro e passes
    rw [hn] at hread hwside
    have hiff : labelPasses w n r = true ↔ passes := labelPasses_iff
    refine ⟨fun hfail => hgoes _ (hread.trans (if_neg fun hp => hfail (hiff.1 hp))), fun hpass => ?_⟩
    have hpassed : ∀ t, labelPassed w d = t → goes t := fun t e => hgoes t ((hread.trans (if_pos (hiff.2 hpass))).trans e)
    refine ⟨fun hc hp => hpassed _ ?_, fun hb hc => ?_, fun hb hs i hi hk his ho => hpassed _ ?_⟩
    · exact labelPassed_of_due (markDue_eq_some hwside hc hp htried)
    · have hafter := labelPassed_of_none (markDue_eq_none (s := w) hwside hc) (openingOn_eq_none (s := w) hwside hb)
      refine ⟨fun hd hu => hpassed _ (hafter.trans ?_), fun hd => hpassed _ (hafter.trans ?_)⟩
      · exact afterMark_of_not_loaded (hloaded.trans hd) hwside hu
      · exact afterMark_of_loaded (hloaded.trans hd)
    · have hopen := openingOn_eq_some (s := w) hi hwside hk his hb ho
      have hclosed : e.state ≠ .closed := by rw [hb]; decide
      rw [labelPassed_of_opening (markDue_eq_none (s := w) hwside (.inl hclosed)) hopen, beginLabelWrite_of_opening]
      · rfl
      · exact fun hready => by cases (hstate.trans hs).symm.trans hready

end Sys2Proof.Machine
end

section
/-! PROOFS. A label that fails (R53): the end of the side's work leaves the Label-Failed List alone. -/

namespace Sys2Proof.Machine

/-! ### The Label-Failed List is left alone by the end of a side's work -/

@[simp] theorem notify_labelFailed (s : State) (k : NoticeKind) (a : Option (Word16 × Nat)) (b : List Byte) :
    (notify s k a b).labelFailed = s.labelFailed := by unfold notify; split <;> rfl

@[simp] theorem withdrawClaims_labelFailed (s : State) (id : Nat) : (withdrawClaims s id).labelFailed = s.labelFailed := by
  unfold withdrawClaims
  exact foldl_keeps _ State.labelFailed (by intros; rfl) _ s

@[simp] theorem dropItemTransfers_labelFailed (s : State) (id : Nat) : (dropItemTransfers s id).labelFailed = s.labelFailed := rfl

@[simp] theorem removeItem_labelFailed (s : State) (id : Nat) : (removeItem s id).labelFailed = s.labelFailed := by
  unfold removeItem freeDrive
  split
  · split <;> rfl
  · rfl

@[simp] theorem endItem_labelFailed (s : State) (id : Nat) : (endItem s id).labelFailed = s.labelFailed := by
  unfold endItem
  split
  · split
    · rfl
    · simp
  · rfl

@[simp] theorem endItemOpt_labelFailed (s : State) (id : Option Nat) : (endItemOpt s id).labelFailed = s.labelFailed := by
  cases id with
  | none => rfl
  | some id => exact endItem_labelFailed s id

@[simp] theorem returnItem_labelFailed (s : State) (id : Nat) : (returnItem s id).labelFailed = s.labelFailed := by
  unfold returnItem
  split
  · simp
  · rfl

@[simp] theorem fetchUnavailable_labelFailed (s : State) (seq : Nat) : (fetchUnavailable s seq).labelFailed = s.labelFailed := by
  unfold fetchUnavailable
  split <;> simp

@[simp] theorem dropCopyPages_labelFailed (s : State) (n : Nat) (p : CopyPage → Bool) :
    (dropCopyPages s n p).labelFailed = s.labelFailed := by
  unfold dropCopyPages
  split
  · rfl
  · dsimp only
    rw [State.modOrder_labelFailed]
    exact foldl_keeps _ State.labelFailed (by intros; rfl) _ s

@[simp] theorem renameWaitingCopy_labelFailed (s : State) (o : Order) (p : Claim → Bool) :
    (renameWaitingCopy s o p).labelFailed = s.labelFailed := by
  unfold renameWaitingCopy
  split
  · rfl
  · split <;> simp

@[simp] theorem voidSet_labelFailed (s : State) (n : Nat) : (voidSet s n).labelFailed = s.labelFailed := by
  unfold voidSet countVoided
  split
  · rfl
  · split <;> simp

@[simp] theorem clearPort_labelFailed (s : State) (n : Nat) : (clearPort s n).labelFailed = s.labelFailed := by
  unfold clearPort
  split <;> rfl

@[simp] theorem reportOrder_labelFailed (s : State) (o : Order) (stop : Nat × Nat) (w : OrderEnd) :
    (reportOrder s o stop w).labelFailed = s.labelFailed := by
  unfold reportOrder orderNotice
  cases w <;> simp

@[simp] theorem endOrder_labelFailed (s : State) (n : Nat) (w : OrderEnd) : (endOrder s n w).labelFailed = s.labelFailed := by
  unfold endOrder
  split <;> simp

@[simp] theorem haltItem_labelFailed (s : State) (o : Order) (w : Closing) : (haltItem s o w).labelFailed = s.labelFailed := by
  unfold haltItem
  split <;> simp

@[simp] theorem closeOrder_labelFailed (s : State) (n : Nat) (w : Closing) (e : OrderEnd) :
    (closeOrder s n w e).labelFailed = s.labelFailed := by
  unfold closeOrder
  split
  · rfl
  · split
    · simp
    · simp
    · dsimp only
      split <;> simp

@[simp] theorem removeFiling_labelFailed (s : State) (ref : Word32) : (removeFiling s ref).labelFailed = s.labelFailed := by
  unfold removeFiling clearMarker freeFilingClaim
  dsimp only
  split
  · split <;> simp
  · simp

@[simp] theorem failFiling_labelFailed (s : State) (ref : Word32) (w : FailReason) :
    (failFiling s ref w).labelFailed = s.labelFailed := by
  unfold failFiling
  split <;> simp

@[simp] theorem setTarget_labelFailed (s : State) (f : Filing) (n : Option Nat) : (setTarget s f n).labelFailed = s.labelFailed := by
  unfold setTarget
  split <;> rfl

@[simp] theorem resetFiling_labelFailed (s : State) (f : Filing) : (resetFiling s f).labelFailed = s.labelFailed := by
  simp [resetFiling]

@[simp] theorem openSideLost_labelFailed (s : State) (ref : Word32) : (openSideLost s ref).labelFailed = s.labelFailed := by
  unfold openSideLost
  split
  · rfl
  · split
    · simp
    · split <;> simp

@[simp] theorem endUnavailable_labelFailed (s : State) (i : Item) : (endUnavailable s i).labelFailed = s.labelFailed := by
  unfold endUnavailable
  split
  · split <;> simp
  · split <;> simp
  · split <;> simp
  · rfl

theorem endLabelFailedWork_labelFailed (s : State) (n : Nat) : (endLabelFailedWork s n).labelFailed = s.labelFailed := by
  refine foldl_keeps _ State.labelFailed (fun s i => ?_) _ s
  dsimp only
  split
  · split
    · split <;> simp
    · simp
  · simp

/-! ### The cartridge goes home -/

/-- The notice of a failed label is sent, and its side is in the Label-Failed List. -/
def labelListed (s : State) (d n : Nat) : State :=
  let s := mediaErrorLabel s n
  let s := { s with labelFailed := if s.labelFailed.contains n then s.labelFailed else s.labelFailed ++ [n] }
  s.modDrive d fun x => { x with chainAsk := false }

/-- Then the cartridge's way home is asked, before the side's work ends. -/
def labelFailing (s : State) (d n : Nat) : State :=
  let s := labelListed s d n
  if transferFrom s d then s else requestHome s (s.drive d).occ (.drive d) none false

theorem labelFail_eq (s : State) (d n : Nat) : labelFail s d n = beginSpinDown (endLabelFailedWork (labelFailing s d n) n) d := rfl

@[simp] theorem requestHome_labelFailed (s : State) (o : Occupant) (p : Place) (r : Option RejectReason) (b : Bool) :
    (requestHome s o p r b).labelFailed = s.labelFailed := by
  unfold requestHome requestTransfer freshId
  split
  · rfl
  · split <;> rfl
  · rfl

theorem mem_labelListed (s : State) (d n : Nat) : n ∈ (labelListed s d n).labelFailed := by
  show n ∈ (if (mediaErrorLabel s n).labelFailed.contains n then (mediaErrorLabel s n).labelFailed
    else (mediaErrorLabel s n).labelFailed ++ [n])
  split
  · next hc => simpa using hc
  · simp

theorem mem_labelFailing (s : State) (d n : Nat) : n ∈ (labelFailing s d n).labelFailed := by
  have hlist := mem_labelListed s d n
  unfold labelFailing
  dsimp only
  split
  · exact hlist
  · rwa [requestHome_labelFailed]

theorem state_beginSpinDown {s : State} {d : Nat} (h1 : 1 ≤ d) (hl : d ≤ s.drives.length) :
    ((beginSpinDown s d).drive d).state = .spinningDown := by
  have hset : (beginSpinDown s d).drives = tset s.drives d
      { s.drive d with state := .spinningDown, task := .spinDown, op := none, idleOn := false, spinDue := false } := rfl
  unfold State.drive
  rw [hset, tget_tset_self _ _ _ _ h1 hl]

theorem Calm.control_subset {kd : Kind} {s t : State} (h : Calm kd s t) : s.control ⊆ t.control := by
  obtain ⟨ns, e, -⟩ := h.ctl
  rw [e]
  exact List.subset_append_left _ _

theorem labelFailing_calm (kd : Kind) (s : State) (d n : Nat) : Calm kd (mediaErrorLabel s n) (labelFailing s d n) := by
  have hlist : ∀ l, Calm kd (mediaErrorLabel s n) { mediaErrorLabel s n with labelFailed := l } := fun l =>
    calm_set (Calm.refl kd _) _ _ _ _ _ _ _ _ _ _ _ _ _ _ _ _ _ _ _ _ _ _ _ rfl (Kept.refl _ _) rfl rfl (le_max_left _ _) le_rfl
      (FilingsOf.refl _) (le_max_left _ _) (OrdersOf.refl _) id id (fun _ => id) fun _ => id
  have hask : Calm kd (mediaErrorLabel s n) (labelListed s d n) := modDrive_calm (hlist _) d (fun x => { x with chainAsk := false }) (Quiet.same rfl rfl)
  unfold labelFailing
  dsimp only
  split
  · exact hask
  · exact requestHome_calm hask _ _ _ _

theorem failedLabelSendsTheCartridgeHome : FailedLabelSendsTheCartridgeHome := by
  intro s d n c hlen h1 h4 _ t
  have hwork := endLabelFailedWork_calm (labelFailing_calm ⟨true, true⟩ s d n) n
  have hlisted : n ∈ (endLabelFailedWork (labelFailing s d n) n).labelFailed :=
    (endLabelFailedWork_labelFailed _ n).symm ▸ mem_labelFailing s d n
  have ht : t = beginSpinDown (endLabelFailedWork (labelFailing s d n) n) d := labelFail_eq s d n
  rw [ht]
  generalize endLabelFailedWork (labelFailing s d n) n = u at hwork hlisted
  have hdrives : u.drives.length = 4 := hwork.drives.trans (by rw [mediaErrorLabel, notify_drives, hlen])
  exact ⟨hlisted, state_beginSpinDown h1 (by omega), ⟨_, rfl⟩,
    fun hroom => hwork.control_subset (mem_control_notify hroom _ _ _)⟩

/-- Settles O50: what a status in a pass comes to, and the completions of a mount, a spin-down and an ejection. -/
theorem driveStatusTakesTheCompletion : Obligations.DriveStatusTakesTheCompletion :=
  ⟨fun _ _ _ hasked h1 h4 => statusByReport hasked h1 h4, driveSpinsUp, labelIsChecked, failedLabelSendsTheCartridgeHome,
    directoryIsLoaded, driveStopsAndEjects⟩

end Sys2Proof.Machine
end

section
/-! PROOFS. Read bursts: what a READ of a burst delivers, its runs, and a fetch's burst's end (R58, R60, R100). -/

namespace Sys2Proof.Machine

/-! ### The blocks delivered, and the READ that follows -/

theorem deliver_eq_filled (s : State) (cells : List ReadCell) (blocks : List BlockIn) : deliver s cells blocks = filled s cells blocks := by
  induction cells generalizing s blocks with
  | nil => rfl
  | cons c cs ih =>
    cases blocks with
    | nil => rfl
    | cons b bs => cases b <;> exact ih _ bs

theorem runLength_pos (c : ReadCell) (cs : List ReadCell) : 1 ≤ runLength c.addr (c :: cs) := by
  unfold runLength
  rw [if_pos rfl]
  omega

/-- What a burst goes on with: the run left or the next run, and where neither is left its end. -/
theorem burstGoesOn_of_next (s : State) (d : Nat) {b c : ReadBurst} (h : nextRead b = some c) :
    burstGoesOn s d b = sendRead s d c := by
  obtain ⟨item, claim, run, sent, rest, bad⟩ := b
  cases run with
  | cons x xs =>
    cases h
    rfl
  | nil =>
    cases rest with
    | nil => cases h
    | cons x xs =>
      obtain ⟨k, hk⟩ := Nat.exists_eq_add_of_le' (runLength_pos x xs)
      cases h
      unfold burstGoesOn sendRead runStart
      dsimp only
      rw [hk]
      rfl

theorem burstGoesOn_of_end (s : State) (d : Nat) {b : ReadBurst} (h : nextRead b = none) :
    burstGoesOn s d b = endBurst s d b.item (.readBurst b) fun s i => readBurstEnd s i b := by
  obtain ⟨item, claim, run, sent, rest, bad⟩ := b
  cases run with
  | cons x xs => cases h
  | nil =>
    cases rest with
    | nil => rfl
    | cons x xs => cases h

section
variable {s : State} {d : Nat} {b : ReadBurst} {st : DriveStatus}

theorem readTaken_eq (s : State) (d : Nat) (b : ReadBurst) (st : DriveStatus) :
    readTaken s d b st = burstGoesOn (filled s (b.run.take (cellsSent b st)) st.blocks) d
      (afterRead (b.advance (cellsSent b st)) st.result) := by
  rw [← deliver_eq_filled]
  unfold readTaken takeSent
  dsimp only
  split
  · next h => exact (burstGoesOn_of_next _ d h).symm
  · next h => exact (burstGoesOn_of_end _ d h).symm

theorem readTaken_complete (hr : st.result = .complete) :
    readTaken s d b st = burstGoesOn (filled s b.run st.blocks) d { b with run := [], sent := 0 } := by
  rw [readTaken_eq, cellsSent, hr]
  dsimp only
  rw [List.take_length]
  rfl

theorem readTaken_short {n : Nat} (hr : st.result = .short n) :
    readTaken s d b st =
      burstGoesOn (filled s (b.run.take (n - b.sent)) st.blocks) d { b with run := b.run.drop (n - b.sent), sent := 0 } := by
  rw [readTaken_eq, cellsSent, hr]
  rfl

/-- The blocks before a failed one count as sent, its page is marked, and the run goes on behind it. -/
theorem readTaken_failedBlock {pre post : List ReadCell} {c : ReadCell} (hr : st.result = .failedBlock c.addr)
    (hrun : b.run = pre ++ c :: post) (hpre : ∀ e ∈ pre, e.addr < c.addr) (hpost : ∀ e ∈ post, c.addr < e.addr) :
    readTaken s d b st =
      burstGoesOn (filled s pre st.blocks) d { b with run := post, sent := 0, bad := b.bad ++ [(c.page, c.addr)] } := by
  have hsent : (b.run.filter fun e => decide (e.addr < c.addr)) = pre := by
    rw [hrun, List.filter_append, List.filter_cons_of_neg (by simp), List.filter_eq_self.2 (by simpa using hpre),
      List.filter_eq_nil_iff.2 (by simpa using fun e he => (hpost e he).le), List.append_nil]
  have hleft : ((c :: post).filter fun e => decide (c.addr < e.addr)) = post := by
    rw [List.filter_cons_of_neg (by simp), List.filter_eq_self.2 (by simpa using hpost)]
  rw [readTaken_eq, cellsSent, hr]
  dsimp only
  rw [hsent, ReadBurst.advance, hrun, List.take_left, List.drop_left, afterRead]
  dsimp only
  rw [List.find?_cons_of_pos (by simp), hleft]

theorem readTaken_failed {c : ReadCell} {post : List ReadCell} (hr : st.result = .failed)
    (hrun : b.run.drop st.blocks.length = c :: post) :
    readTaken s d b st = burstGoesOn (filled s (b.run.take st.blocks.length) st.blocks) d
      { b with run := post, sent := 0, bad := b.bad ++ [(c.page, c.addr)] } := by
  rw [readTaken_eq, cellsSent, hr]
  dsimp only
  rw [ReadBurst.advance, hrun]
  rfl

theorem takeProgress_readBurst (ht : (s.drive d).task = .readBurst b) (hr : st.result = .running) :
    takeProgress s d .read st = (filled s (b.run.take st.blocks.length) st.blocks).modDrive d fun y =>
      { y with task := .readBurst { b with run := b.run.drop st.blocks.length, sent := b.sent + st.blocks.length } } := by
  unfold takeProgress takeSent cellsSent
  dsimp only
  rw [ht, hr]
  dsimp only
  rw [deliver_eq_filled]
  rfl

end

theorem readBurstTakesItsBlocks : ReadBurstTakesItsBlocks := by
  intro s d st b x v goes ht
  refine ⟨fun h => ?_, fun hasked h1 h4 hm hop hs hr => ?_⟩
  · have hgoes : ∀ t, readTaken v d b st = t → goes t := fun t e => exec_of_opEnded h ((opEnded_readBurst ht).trans e)
    exact ⟨fun hr => hgoes _ (readTaken_complete hr), fun n hr => hgoes _ (readTaken_short hr),
      fun pre c post hr hrun hpre hpost => hgoes _ (readTaken_failedBlock hr hrun hpre hpost),
      fun hr c post hrun => hgoes _ (readTaken_failed hr hrun)⟩
  · obtain ⟨-, hquiet⟩ := statusByReport (s := s) (st := st) hasked h1 h4
    obtain ⟨-, hgoes⟩ := hquiet (.inl hm)
    have hrun := hgoes .read hop hs hr
    rwa [takeProgress_readBurst (s := freeBus s) ht hr] at hrun

/-! ### Runs -/

theorem runsAreConsecutive : RunsAreConsecutive := by
  intro a l
  induction l generalizing a with
  | nil => simp [runLength]
  | cons c cs ih =>
    unfold runLength
    split
    · next ha =>
      obtain ⟨hle, hrun, hnext⟩ := ih (a + 1)
      refine ⟨Nat.succ_le_succ hle, fun i e hi he => ?_, fun e he => ?_⟩
      · cases i with
        | zero =>
          cases he
          exact ha
        | succ i =>
          have := hrun i e (by omega) he
          omega
      · have := hnext e he
        omega
    · next ha =>
      refine ⟨Nat.zero_le _, fun i e hi => absurd hi (Nat.not_lt_zero i), fun e he => ?_⟩
      cases he
      exact ha

/-! ### The end of a fetch's burst -/

@[simp] theorem notify_fetches (s : State) (k : NoticeKind) (a : Option (Word16 × Nat)) (b : List Byte) :
    (notify s k a b).fetches = s.fetches := by unfold notify; split <;> rfl

theorem findFetch_modFetch (s : State) (q : Nat) {f : Fetch → Fetch} (hf : ∀ x, (f x).seq = x.seq) :
    (s.modFetch q f).findFetch q = (s.findFetch q).map f := by
  unfold State.findFetch State.modFetch
  dsimp only
  rw [List.find?_map]
  have hp : ((fun r : Fetch => r.seq == q) ∘ fun r => if r.seq = q then f r else r) = fun r => r.seq == q := by
    funext r
    by_cases h : r.seq = q <;> simp [h, hf]
  rw [hp]
  cases h : s.fetches.find? fun r => r.seq == q with
  | none => rfl
  | some r => simp [show r.seq = q by simpa using List.find?_some h]

/-- A page named to claim `c` that its burst's end settles. -/
def namedTo (f : Fetch) (c : Claim) (page : Nat) : Prop := ∃ p ∈ f.pages, p.page = page ∧ p.claim = c.id ∧ p.outcome = .inBurst

/-- What a named page is at its burst's end (R100). -/
def settledPage (c : Claim) (bad : List (Nat × Nat)) (page : Nat) : FetchPage :=
  if ∃ e ∈ bad, e.1 = page then ⟨page, .unreadable, c.id, []⟩ else ⟨page, .staged, c.id, c.pageBlocks page⟩

/-- A page of a record is settled so. -/
def Fetch.settlePage (c : Claim) (bad : List (Nat × Nat)) (page : Nat) (x : Fetch) : Fetch :=
  { x with pages := x.pages.map fun p => if p.page = page then settledPage c bad page else p }

section
variable (f : Fetch) (c : Claim) (bad : List (Nat × Nat))

theorem settledPage_page (page : Nat) : (settledPage c bad page).page = page := by
  unfold settledPage
  split <;> rfl

theorem fetches_settleFetchPage_of_named (s : State) {page : Nat} (h : namedTo f c page) :
    (settleFetchPage s f c bad page).fetches = (s.modFetch f.seq (Fetch.settlePage c bad page)).fetches := by
  obtain ⟨p, hp, hpage, hclaim, hout⟩ := h
  obtain ⟨q, hq⟩ : ∃ q, (f.pages.find? fun p => p.page == page && p.claim == c.id && p.outcome == .inBurst) = some q := by
    rw [← Option.isSome_iff_exists, List.find?_isSome]
    exact ⟨p, hp, by simp [hpage, hclaim, hout]⟩
  unfold settleFetchPage Fetch.settlePage settledPage
  dsimp only
  rw [hq]
  dsimp only
  cases hb : bad.find? fun e => e.1 == page with
  | none =>
    rw [if_neg]
    rintro ⟨e, he, hpage⟩
    simpa [hpage] using List.find?_eq_none.1 hb e he
  | some e =>
    rw [if_pos ⟨e, List.mem_of_find?_eq_some hb, by simpa using List.find?_some hb⟩]
    exact notify_fetches _ _ _ _

theorem fetches_settleFetchPage_of_not_named (s : State) {page : Nat} (h : ¬namedTo f c page) :
    (settleFetchPage s f c bad page).fetches = s.fetches := by
  have hnone : (f.pages.find? fun p => p.page == page && p.claim == c.id && p.outcome == .inBurst) = none := by
    rw [List.find?_eq_none]
    intro p hp hx
    simp only [Bool.and_eq_true, beq_iff_eq] at hx
    exact h ⟨p, hp, hx.1.1, hx.1.2, hx.2⟩
  unfold settleFetchPage
  dsimp only
  rw [hnone]
  rfl

open Classical in
/-- The pages settled one after another: those in the list that were named to the claim. -/
theorem pages_foldl_settleFetchPage (l : List Nat) : ∀ (s : State) (g : Fetch), s.findFetch f.seq = some g →
    ∃ g', (l.foldl (fun s p => settleFetchPage s f c bad p) s).findFetch f.seq = some g' ∧
      g'.pages = g.pages.map fun p => if p.page ∈ l ∧ namedTo f c p.page then settledPage c bad p.page else p := by
  induction l with
  | nil => exact fun s g h => ⟨g, h, by simp⟩
  | cons page l ih =>
    intro s g h
    rw [List.foldl_cons]
    by_cases hn : namedTo f c page
    · have hstep : (settleFetchPage s f c bad page).findFetch f.seq = some (g.settlePage c bad page) := by
        unfold State.findFetch
        rw [fetches_settleFetchPage_of_named f c bad s hn]
        have hmod := findFetch_modFetch s f.seq (f := Fetch.settlePage c bad page) fun _ => rfl
        rwa [h] at hmod
      obtain ⟨g', hg, hpages⟩ := ih _ _ hstep
      refine ⟨g', hg, hpages.trans ?_⟩
      rw [Fetch.settlePage, List.map_map]
      refine List.map_congr_left fun p _ => ?_
      by_cases hp : p.page = page
      · subst hp
        simp [hn, settledPage_page]
      · simp [hp]
    · have hstep : (settleFetchPage s f c bad page).findFetch f.seq = some g := by
        unfold State.findFetch
        rw [fetches_settleFetchPage_of_not_named f c bad s hn]
        exact h
      obtain ⟨g', hg, hpages⟩ := ih _ _ hstep
      refine ⟨g', hg, hpages.trans (List.map_congr_left fun p _ => ?_)⟩
      by_cases hp : p.page = page
      · subst hp
        simp [hn]
      · simp [hp]

end

theorem fetchBurstStagesItsPages : FetchBurstStagesItsPages := by
  intro s id b f c hf hc hfound _ hnodup g hg
  obtain ⟨g', hg', hpages⟩ := pages_foldl_settleFetchPage f c b.bad c.pageList s f hfound
  have hgp : g.pages = g'.pages := by
    unfold fetchBurstEnd at hg
    rw [hf, hc] at hg
    dsimp only at hg
    split at hg
    · cases hg'.symm.trans hg
      rfl
    · dsimp only at hg
      rw [findFetch_modFetch _ _ (f := Fetch.toDelivering) fun _ => rfl, hg'] at hg
      cases hg
      rfl
  rw [hgp, hpages]
  refine List.map_congr_left fun p hp => ?_
  have hnamed : namedTo f c p.page ↔ p.outcome = .inBurst ∧ p.claim = c.id := by
    refine ⟨fun ⟨q, hq, hpage, hclaim, hout⟩ => ?_, fun ⟨hout, hclaim⟩ => ⟨p, hp, rfl, hclaim, hout⟩⟩
    rw [← List.inj_on_of_nodup_map hnodup hq hp hpage]
    exact ⟨hout, hclaim⟩
  by_cases h : p.outcome = .inBurst ∧ p.claim = c.id ∧ p.page ∈ c.pageList
  · obtain ⟨hout, hclaim, hlist⟩ := h
    rw [if_pos ⟨hlist, hnamed.2 ⟨hout, hclaim⟩⟩, if_pos ⟨hout, hclaim, hlist⟩, settledPage]
  · rw [if_neg h, if_neg]
    rintro ⟨hlist, hn⟩
    obtain ⟨hout, hclaim⟩ := hnamed.1 hn
    exact h ⟨hout, hclaim, hlist⟩

/-- Settles O51: a burst's READs, its runs, and the pages a fetch's burst leaves. -/
theorem readBursts : Obligations.ReadBursts := ⟨readBurstTakesItsBlocks, runsAreConsecutive, fetchBurstStagesItsPages⟩

end Sys2Proof.Machine
end

section
/-! PROOFS. Write bursts: their passes, remaps to spares, their end and the relocation, and what the data channel supplies (R59,
R117 to R122, R126). -/

namespace Sys2Proof.Machine

/-! ### Passes -/

section
variable {s : State} {d : Nat} {b : WriteBurst} {st : DriveStatus} {r : OpResult}

/-- A pass over document offsets names their staging blocks. -/
theorem channelFor_pass (s : State) {b : WriteBurst} (h : b.spare = none) (lo n : Nat) :
    let blocks := (((filingBlocks s b.ref).drop lo).take n).map Supply.staging
    channelFor s (.writeBurst b) (.write (b.addr lo) n) = blocks ∧ channelFor s (.writeBurst b) (.verify (b.addr lo) n) = blocks := by
  have hlo : b.addr lo - (Config.dataBase + b.start) = lo := Nat.add_sub_cancel_left _ _
  unfold channelFor
  dsimp only
  rw [h]
  dsimp only
  rw [hlo]
  exact ⟨rfl, rfl⟩

theorem channelFor_spare (s : State) {b : WriteBurst} {o k : Nat} {p : Pass} (h : b.spare = some (o, k, p)) (a n : Nat) :
    let block := (((filingBlocks s b.ref).drop o).take 1).map Supply.staging
    channelFor s (.writeBurst b) (.erase a n) = [] ∧ channelFor s (.writeBurst b) (.write a n) = block ∧
      channelFor s (.writeBurst b) (.verify a n) = block := by
  unfold channelFor
  dsimp only
  rw [h]
  exact ⟨rfl, rfl, rfl⟩

/-- The drive's next command of a write burst, its blocks named to the data channel. -/
def sendPass (s : State) (d : Nat) (b : WriteBurst) (cmd : BayCmd) (l : List Supply) : State :=
  asked (s.modDrive d fun y => { y with task := .writeBurst b, op := none, chan := l }) (d + 1) cmd .plain

theorem driveOp_writeBurst (s : State) (d : Nat) (b : WriteBurst) (cmd : BayCmd) {l : List Supply}
    (h : channelFor s (.writeBurst b) cmd = l) : driveOp s d (.writeBurst b) cmd = sendPass s d b cmd l := h ▸ rfl

theorem writeTaken_erase (h : b.spare = none) (hp : b.pass = .erase) :
    writeTaken s d b r = sendPass s d { b with pass := .write } (.write (b.addr b.lo) (b.hi - b.lo))
      ((((filingBlocks s b.ref).drop b.lo).take (b.hi - b.lo)).map Supply.staging) := by
  obtain ⟨item, ref, side, start, lo, hi, pass, next, spare, relocate⟩ := b
  subst h hp
  exact driveOp_writeBurst s d _ _ (channelFor_pass s rfl lo _).1

theorem writeTaken_write (h : b.spare = none) (hp : b.pass = .write) :
    writeTaken s d b r = sendPass s d { b with pass := .verify } (.verify (b.addr b.lo) (b.hi - b.lo))
      ((((filingBlocks s b.ref).drop b.lo).take (b.hi - b.lo)).map Supply.staging) := by
  obtain ⟨item, ref, side, start, lo, hi, pass, next, spare, relocate⟩ := b
  subst h hp
  exact driveOp_writeBurst s d _ _ (channelFor_pass s rfl lo _).2

theorem verifyOn_of_left (h : b.spare = none) (hn : b.next < b.hi) :
    verifyOn s d b = sendPass s d b (.verify (b.addr b.next) (b.hi - b.next))
      ((((filingBlocks s b.ref).drop b.next).take (b.hi - b.next)).map Supply.staging) :=
  (if_pos hn).trans (driveOp_writeBurst s d b _ (channelFor_pass s h b.next _).2)

theorem verifyOn_of_end (hn : b.hi ≤ b.next) :
    verifyOn s d b = endBurst s d b.item (.writeBurst b) fun s _ => writeBurstEnd s b := if_neg (Nat.not_lt.2 hn)

theorem writeTaken_verify_complete (h : b.spare = none) (hp : b.pass = .verify) :
    writeTaken s d b .complete = endBurst s d b.item (.writeBurst { b with next := b.hi })
      fun s _ => writeBurstEnd s { b with next := b.hi } := by
  obtain ⟨item, ref, side, start, lo, hi, pass, next, spare, relocate⟩ := b
  subst h hp
  exact verifyOn_of_end (le_refl hi)

theorem writeTaken_verify_failed (h : b.spare = none) (hp : b.pass = .verify) (o : Nat) :
    writeTaken s d b (.failedBlock (b.addr o)) = remapOffset s d b o := by
  have ho : b.addr o - (Config.dataBase + b.start) = o := Nat.add_sub_cancel_left _ _
  unfold writeTaken
  rw [h, hp]
  dsimp only
  rw [ho]

/-! ### Remaps -/

/-- A remap takes the next spare, and counts it used. -/
theorem remapOffset_of_spare {f : Filing} {o : Nat} (hf : s.findFiling b.ref = some f) (hr : f.remaps.length < 32)
    (hs : (s.side b.side).spareUsed < 2048) (hb : (s.side b.side).state ≠ .blank) :
    let k := (s.side b.side).spareUsed
    remapOffset s d b o = sendPass (s.setSide b.side { s.side b.side with spareUsed := k + 1 }) d
      { b with next := o, spare := some (o, k, .erase) } (.erase (Config.spareBase + k) 1) [] := by
  intro k
  have htake : takeSpare s b.ref b.side = some (k, s.setSide b.side { s.side b.side with spareUsed := k + 1 }) := by
    unfold takeSpare
    rw [hf]
    refine if_neg ?_
    rintro (h | h | h)
    · exact absurd hr (Nat.not_lt.2 h)
    · exact absurd hs (Nat.not_lt.2 h)
    · exact hb h
  unfold remapOffset
  rw [htake]
  exact driveOp_writeBurst _ d _ _ (channelFor_spare _ rfl _ _).1

/-- With 32 remaps, or no spare left, a relocation is noted, and the VERIFY goes on behind the offset. -/
theorem remapOffset_of_no_spare {f : Filing} {o : Nat} (hf : s.findFiling b.ref = some f)
    (h : 32 ≤ f.remaps.length ∨ 2048 ≤ (s.side b.side).spareUsed) :
    remapOffset s d b o = verifyOn s d { b with next := o + 1, spare := none, relocate := some (b.relocate.getD o) } := by
  have htake : takeSpare s b.ref b.side = none := by
    unfold takeSpare
    rw [hf]
    exact if_pos (h.elim .inl fun h => .inr (.inl h))
  unfold remapOffset
  rw [htake]

end

theorem writePassesFollow : WritePassesFollow := by
  intro s d st b x v goes addr blocks send ht hs
  have hgoes : ∀ k t, OperationEnds s d st k → writeTaken v d b st.result = t → goes t := fun k t h e =>
    exec_of_opEnded h ((opEnded_writeBurst ht k).trans e)
  refine ⟨fun hp h => hgoes _ _ h (writeTaken_erase hs hp), fun hp h => hgoes _ _ h (writeTaken_write hs hp), fun hp h => ?_⟩
  refine ⟨fun hr => hgoes _ _ h ?_, fun o hr => ?_⟩
  · rw [hr]
    exact writeTaken_verify_complete hs hp
  · have hremap : ∀ t, remapOffset v d b o = t → goes t := fun t e => hgoes _ t h (by
      rw [hr]
      exact (writeTaken_verify_failed hs hp o).trans e)
    refine ⟨fun f hf hrm hu hb => hremap _ (remapOffset_of_spare (s := v) hf hrm hu hb), fun f hf hno => ?_⟩
    intro c
    have hnext := remapOffset_of_no_spare (s := v) (d := d) (o := o) hf hno
    exact ⟨fun hlt => hremap _ (hnext.trans (verifyOn_of_left (b := c) rfl hlt)),
      fun hle => hremap _ (hnext.trans (verifyOn_of_end (b := c) hle))⟩

theorem sparesAreWritten : SparesAreWritten := by
  intro s d o k p st b x v goes block send ht hs
  have hgoes : ∀ op t, OperationEnds s d st op → spareTaken v d b o k p st.result = t → goes t := fun op t h e => by
    refine exec_of_opEnded h ((opEnded_writeBurst ht op).trans ?_)
    unfold writeTaken
    rw [hs]
    exact e
  refine ⟨fun hp h => hgoes _ _ h ?_, fun hp h => hgoes _ _ h ?_, fun hp h hr => hgoes _ _ h ?_⟩ <;> subst hp
  · exact driveOp_writeBurst v d _ _ (channelFor_spare v (b := { b with spare := some (o, k, .write) }) rfl _ _).2.1
  · exact driveOp_writeBurst v d _ _ (channelFor_spare v (b := { b with spare := some (o, k, .verify) }) rfl _ _).2.2
  · rw [hr]
    rfl

/-! ### The end of a burst -/

@[simp] theorem notify_filings (s : State) (k : NoticeKind) (a : Option (Word16 × Nat)) (b : List Byte) :
    (notify s k a b).filings = s.filings := by unfold notify; split <;> rfl

@[simp] theorem closeSideAs_filings (s : State) (n : Nat) (why : CloseReason) : (closeSideAs s n why).filings = s.filings := by
  unfold closeSideAs sideClosedNotice closeSideUpdate
  split <;> simp

theorem findFiling_modFiling {s : State} {ref : Word32} {f : Filing → Filing} {g : Filing} (h : s.findFiling ref = some g)
    (hf : ∀ x, (f x).ref = x.ref) : (s.modFiling ref f).findFiling ref = some (f g) := by
  unfold State.findFiling State.modFiling at *
  dsimp only
  have hp : ((fun r : Filing => r.ref == ref) ∘ fun r => if r.ref = ref then f r else r) = fun r => r.ref == ref := by
    funext r
    by_cases h : r.ref = ref <;> simp [h, hf]
  rw [List.find?_map, hp, h]
  simp [show g.ref = ref by simpa using List.find?_some h]

theorem ref_of_findFiling {s : State} {ref : Word32} {f : Filing} (h : s.findFiling ref = some f) : f.ref = ref := by
  simpa using List.find?_some h

theorem findFiling_setTarget {s : State} {f g : Filing} (n : Option Nat) (h : s.findFiling f.ref = some g) :
    (setTarget s f n).findFiling f.ref = some { g with target := n } := by
  have hmod : (s.modFiling f.ref fun x => { x with target := n }).findFiling f.ref = some { g with target := n } :=
    findFiling_modFiling h fun _ => rfl
  unfold setTarget
  dsimp only
  split
  · exact hmod
  · exact hmod

/-- A filing starts again from offset 0, on no side (R122). -/
def Filing.restarted (f : Filing) : Filing :=
  { f with target := none, relocated := true, remaps := [], progress := 0, claimed := 0, start := none, state := .queued }

theorem findFiling_resetFiling {s : State} {ref : Word32} {f g : Filing} (hf : f.ref = ref) (h : s.findFiling ref = some g) :
    (resetFiling s f).findFiling ref = some g.restarted := by
  subst hf
  exact findFiling_modFiling (findFiling_setTarget none h) fun _ => rfl

theorem findFiling_closeSideAs (s : State) (n : Nat) (why : CloseReason) (ref : Word32) :
    (closeSideAs s n why).findFiling ref = s.findFiling ref := by
  unfold State.findFiling
  rw [closeSideAs_filings]

section
variable {s : State} {ref : Word32} {n : Nat} {why : CloseReason} {f : Filing}

theorem relocateFiling_of_opened (hf : s.findFiling ref = some f) (hn : (s.side n).state = .opened) :
    (f.relocated = true → relocateFiling s ref n why = (failFiling (closeSideAs s n why) ref .media, .nothing)) ∧
    (f.relocated = false → relocateFiling s ref n why = (openSideCheck (resetFiling (closeSideAs s n why) f) f.restarted, .other)) := by
  unfold relocateFiling
  rw [hf]
  dsimp only
  rw [if_pos hn]
  refine ⟨fun h => if_pos h, fun h => ?_⟩
  rw [if_neg (by simp [h])]
  rw [findFiling_resetFiling (ref_of_findFiling hf) ((findFiling_closeSideAs s n why ref).trans hf)]

end

theorem writeBurstEndsOrRelocates : WriteBurstEndsOrRelocates := by
  intro s b f hf
  refine ⟨fun hc => ?_, fun hc => ?_⟩
  · unfold writeBurstEnd
    rw [hf]
    exact if_pos hc
  · intro t
    have hend : writeBurstEnd s b = if b.relocate.isSome then relocateFiling t b.ref b.side .spare else (t, .same) := by
      unfold writeBurstEnd
      rw [hf]
      exact if_neg (by simp [hc])
    have ht : t.findFiling b.ref = some { f with progress := b.hi } := findFiling_modFiling hf fun _ => rfl
    refine ⟨fun hr => by rw [hend, hr]; rfl, fun o hr hopen => ?_⟩
    intro u
    obtain ⟨hagain, honce⟩ := relocateFiling_of_opened (s := t) (n := b.side) (why := .spare) ht hopen
    rw [hr] at hend
    refine ⟨fun h => hend.trans (hagain h), fun h => ⟨_, ?_, rfl, rfl, rfl, rfl, rfl, rfl, rfl, hend.trans (honce h)⟩⟩
    exact findFiling_resetFiling (ref_of_findFiling ht) ((findFiling_closeSideAs t b.side .spare b.ref).trans ht)

theorem channelSupplies : ChannelSupplies := fun _ => ⟨fun _ => rfl, fun _ => rfl, fun _ => rfl⟩

/-- Settles O52: the passes of a write burst, its spares, its end and what the data channel supplies. -/
theorem writeBursts : Obligations.WriteBursts := ⟨writePassesFollow, sparesAreWritten, writeBurstEndsOrRelocates, channelSupplies⟩

end Sys2Proof.Machine
end

section
/-! PROOFS. The marks' passes, and what goes on in a drive behind a mark (R11, R16, R20, R42, R59). -/

namespace Sys2Proof.Machine

/-! ### Passes -/

section
variable {s : State} {d : Nat} {st : DriveStatus} {job : LabelJob} {l : Label}

/-- A closed mark goes on only while its side owes it; every other mark goes on. -/
theorem opEnded_markErase (h : (s.drive d).task = .writeLabel job l .erase) :
    ((∀ n, job = .closing n → (s.side n).closedPending = true) →
      opEnded (freeBus s) d .erase st = driveOp (opOver s d) d (.writeLabel job l .write) (.write 0 1)) ∧
    ∀ n, job = .closing n → (s.side n).closedPending = false →
      opEnded (freeBus s) d .erase st = labelWritten (opOver s d) d job l false := by
  unfold opEnded
  dsimp only
  rw [show ((freeBus s).drive d).task = .writeLabel job l .erase from h]
  cases job with
  | closing n =>
    refine ⟨fun howed => if_pos (howed n rfl), fun m hm hno => ?_⟩
    cases hm
    exact if_neg (fun h => by cases h.symm.trans hno)
  | new _ | opening _ | dropped => exact ⟨fun _ => rfl, fun _ hm => by cases hm⟩

theorem opEnded_markWrite (h : (s.drive d).task = .writeLabel job l .write) :
    ((∀ n, job = .closing n → (s.side n).closedPending = true) →
      opEnded (freeBus s) d .write st = driveOp (opOver s d) d (.writeLabel job l .verify) (.verify 0 1)) ∧
    ∀ n, job = .closing n → (s.side n).closedPending = false →
      opEnded (freeBus s) d .write st = labelWritten (opOver s d) d job l false := by
  unfold opEnded
  dsimp only
  rw [show ((freeBus s).drive d).task = .writeLabel job l .write from h]
  cases job with
  | closing n =>
    refine ⟨fun howed => if_pos (howed n rfl), fun m hm hno => ?_⟩
    cases hm
    exact if_neg (fun h => by cases h.symm.trans hno)
  | new _ | opening _ | dropped => exact ⟨fun _ => rfl, fun _ hm => by cases hm⟩

theorem opEnded_markVerify (h : (s.drive d).task = .writeLabel job l .verify) :
    opEnded (freeBus s) d .verify st = labelWritten (opOver s d) d job l (decide (st.result = .complete)) := by
  have hok : (match st.result with
      | .complete => true
      | _ => false) = decide (st.result = .complete) := by cases st.result <;> rfl
  rw [← hok]
  unfold opEnded
  dsimp only
  rw [show ((freeBus s).drive d).task = .writeLabel job l .verify from h]
  cases job <;> rfl

end

theorem markPassesFollow : MarkPassesFollow := by
  intro s d st job l x v goes send owed
  refine ⟨fun ht h ho => exec_of_opEnded h ((opEnded_markErase ht).1 ho), fun ht h ho => exec_of_opEnded h ((opEnded_markWrite ht).1 ho),
    fun ht h => exec_of_opEnded h (opEnded_markVerify ht), fun n hn hno => ?_⟩
  rintro (⟨ht, h⟩ | ⟨ht, h⟩)
  · exact exec_of_opEnded h ((opEnded_markErase ht).2 n hn hno)
  · exact exec_of_opEnded h ((opEnded_markWrite ht).2 n hn hno)

theorem marksCarryTheirFields : MarksCarryTheirFields := by
  intro s d n k hk
  refine ⟨fun o ho => ?_, fun c hc => ?_⟩
  · unfold closedLabel
    rw [hk, ho]
    rfl
  · unfold openLabel
    rw [hk, hc]
    rfl

/-! ### A drive goes on behind a mark -/

/-- The tables, the filings, the Work List and the exports stay, no notice is placed, and no cartridge moves or becomes stuck. -/
structure DriveGoesOn (s t : State) : Prop where
  ret : t.ret = s.ret
  filings : t.filings = s.filings
  work : t.work = s.work
  exports : t.picker.exportPending = s.picker.exportPending
  occ : ∀ k, (t.drive k).occ = (s.drive k).occ
  ejected : ∀ k, (t.drive k).ejected = (s.drive k).ejected
  faulted : ∀ k, (t.drive k).state = .faulted ↔ (s.drive k).state = .faulted

namespace DriveGoesOn

theorem refl (s : State) : DriveGoesOn s s := ⟨rfl, rfl, rfl, rfl, fun _ => rfl, fun _ => rfl, fun _ => Iff.rfl⟩

theorem trans {a b c : State} (h : DriveGoesOn a b) (k : DriveGoesOn b c) : DriveGoesOn a c :=
  ⟨k.ret.trans h.ret, k.filings.trans h.filings, k.work.trans h.work, k.exports.trans h.exports,
    fun d => (k.occ d).trans (h.occ d), fun d => (k.ejected d).trans (h.ejected d), fun d => (k.faulted d).trans (h.faulted d)⟩

theorem modDrive (s : State) (d : Nat) (f : Drive → Drive) (ho : (f (s.drive d)).occ = (s.drive d).occ)
    (he : (f (s.drive d)).ejected = (s.drive d).ejected)
    (hf : (f (s.drive d)).state = .faulted ↔ (s.drive d).state = .faulted) : DriveGoesOn s (s.modDrive d f) := by
  have hread : ∀ k, (s.modDrive d f).drive k = s.drive k ∨ (k = d ∧ (s.modDrive d f).drive k = f (s.drive d)) := fun k => by
    rw [State.drive_modDrive]
    split
    · next hk => exact .inr ⟨hk.1.symm, rfl⟩
    · exact .inl rfl
  refine ⟨rfl, rfl, rfl, rfl, fun k => ?_, fun k => ?_, fun k => ?_⟩ <;> rcases hread k with e | ⟨rfl, e⟩ <;> rw [e]
  exacts [ho, he, hf]

theorem issue (s : State) (m : Nat) (c : BayCmd) (w : Why) : DriveGoesOn s (issue s m c w) :=
  ⟨rfl, rfl, rfl, rfl, fun _ => rfl, fun _ => rfl, fun _ => Iff.rfl⟩

theorem modRebuild (s : State) (f : Rebuild → Rebuild) : DriveGoesOn s (s.modRebuild f) :=
  ⟨rfl, rfl, rfl, rfl, fun _ => rfl, fun _ => rfl, fun _ => Iff.rfl⟩

theorem requestTransfer (s : State) (kind : XferKind) (cart : Option Nat) (src : Place) (dst : Option Place) (face : Face)
    (item : Option Nat) (report : Option RejectReason) (first : Bool) :
    DriveGoesOn s (requestTransfer s kind cart src dst face item report first) := by
  refine ⟨rfl, rfl, rfl, ?_, fun _ => rfl, fun _ => rfl, fun _ => Iff.rfl⟩
  unfold Machine.requestTransfer
  dsimp only [State.modPicker]
  split <;> rfl

theorem driveOp (s : State) (d : Nat) (task : Task) (cmd : BayCmd) : DriveGoesOn s (driveOp s d task cmd) :=
  (modDrive s d _ rfl rfl Iff.rfl).trans (issue _ _ _ _)

theorem rebuildReject (s : State) (d : Nat) (why : RejectReason) : DriveGoesOn s (rebuildReject s (.drive d) why) :=
  (((modRebuild s _).trans (modRebuild _ _)).trans (modDrive _ d _ rfl rfl Iff.rfl)).trans (requestTransfer _ _ _ _ _ _ _ _ _)

theorem rebuildRead (s : State) (d : Nat) (k : RebuildCart) : DriveGoesOn s (rebuildRead s d k) := by
  unfold Machine.rebuildRead
  split
  · exact rebuildReject s d _
  · split
    · exact rebuildReject s d _
    · exact (modRebuild s _).trans (requestTransfer _ _ _ _ _ _ _ _ _)

theorem rebuildFaceDone (s : State) (d : Nat) (got : List (Nat × SlotRead)) : DriveGoesOn s (rebuildFaceDone s d got) := by
  unfold Machine.rebuildFaceDone
  split
  · dsimp only
    split
    · exact modRebuild s _
    · split
      · split
        · exact (modRebuild s _).trans (rebuildReject _ d _)
        · exact (modRebuild s _).trans (requestTransfer _ _ _ _ _ _ _ _ _)
      · exact (modRebuild s _).trans (rebuildRead _ d _)
  · exact refl s

theorem enterReady {s : State} {d : Nat} (h : (s.drive d).state ≠ .faulted) : DriveGoesOn s (enterReady s d) := by
  unfold Machine.enterReady
  exact modDrive s d _ rfl rfl (iff_of_false (fun hf => DriveState.noConfusion hf) h)

theorem directoryDone {s : State} {d : Nat} (h : (s.drive d).state ≠ .faulted) (got : List (Nat × SlotRead)) :
    DriveGoesOn s (directoryDone s d got) := by
  have hready : ∀ l, DriveGoesOn s (Machine.enterReady (s.modDrive d fun x => { x with dir := l }) d) := fun l => by
    have hdir : DriveGoesOn s (s.modDrive d fun x => { x with dir := l }) := modDrive s d _ rfl rfl Iff.rfl
    exact hdir.trans (enterReady fun hf => h ((hdir.faulted d).1 hf))
  have hdone : ∀ l, DriveGoesOn s (
      let t := Machine.enterReady (s.modDrive d fun x => { x with dir := l }) d
      if rebuilding t then Machine.rebuildFaceDone t d got else t) := fun l => by
    dsimp only
    split
    · exact (hready l).trans (rebuildFaceDone _ d got)
    · exact hready l
  exact hdone _

theorem afterMark {s : State} {d : Nat} (h : (s.drive d).state ≠ .faulted) : DriveGoesOn s (afterMark s d) := by
  unfold Machine.afterMark
  split
  · exact enterReady h
  · split
    · unfold readDirectory
      split
      · exact directoryDone h _
      · exact driveOp s d _ _
    · exact enterReady h

theorem afterLabelWrite (s : State) (d : Nat) : DriveGoesOn s (afterLabelWrite s d) := by
  unfold Machine.afterLabelWrite
  split
  · next h => exact afterMark (by rw [h]; decide)
  · next h =>
    exact modDrive s d _ rfl rfl (iff_of_false (fun hf => DriveState.noConfusion hf)
      fun hf => DriveState.noConfusion (h.symm.trans hf))
  · exact modDrive s d _ rfl rfl Iff.rfl

end DriveGoesOn

end Sys2Proof.Machine
end

section
/-! PROOFS. What a mark sets: the side, the filing that chose it, and the record of a NEW mark (R16, R17, R20, R42). -/

namespace Sys2Proof.Machine

/-! ### Which sides can be opened -/

theorem driveHolding_eq {s t : State} (h : ∀ k, (t.drive k).occ = (s.drive k).occ) (c : Nat) :
    driveHolding t c = driveHolding s c := by
  unfold driveHolding
  simp only [h]

theorem DriveGoesOn.stuck {s t : State} (h : DriveGoesOn s t) (c : Nat) : stuck t c = Machine.stuck s c := by
  have hf : ∀ k, ((t.drive k).state == .faulted) = ((s.drive k).state == .faulted) := fun k => by
    rw [Bool.eq_iff_iff, beq_iff_eq, beq_iff_eq]
    exact h.faulted k
  unfold Machine.stuck
  simp only [driveHolding_eq h.occ, hf, h.ejected]

theorem DriveGoesOn.findFiling {s t : State} (h : DriveGoesOn s t) {ref : Word32} : t.findFiling ref = s.findFiling ref := by
  unfold State.findFiling
  rw [h.filings]

theorem DriveGoesOn.findItem {s t : State} (h : DriveGoesOn s t) {id : Nat} : t.findItem id = s.findItem id := by
  unfold State.findItem
  rw [h.work]

/-- A side that has become FAULTY is no choice; the others are as they were. -/
theorem blankUsable_of_faulty {s t : State} {n : Nat} (hret : t.ret = { s.ret with sides := tset s.ret.sides n { s.side n with state := .faulty } })
    (hn : 1 ≤ n) (hl : n ≤ s.ret.sides.length) (hstuck : ∀ c, stuck t c = stuck s c)
    (hexp : t.picker.exportPending = s.picker.exportPending) (m : Nat) :
    blankUsable t m = (m != n && blankUsable s m) := by
  have hside : t.side m = if n = m then { s.side n with state := .faulty } else s.side m := by
    unfold State.side
    rw [hret]
    by_cases h : n = m
    · subst h
      rw [if_pos rfl]
      exact tget_tset_self _ _ _ _ hn hl
    · rw [if_neg h]
      exact tget_tset_ne _ _ _ _ _ h
  have hcart : t.cart = s.cart := by
    funext c
    unfold State.cart
    rw [hret]
  unfold blankUsable cartInState exporting
  rw [hside, hcart, hstuck, hexp]
  by_cases h : n = m
  · subst h
    simp
  · have hne : (m != n) = true := by simpa [bne_iff_ne] using Ne.symm h
    rw [if_neg h, hne, Bool.true_and]

theorem side_state_of_not_anyOpened {s : State} (h : anyOpened s = false) (m : Nat) : (s.side m).state ≠ .opened := by
  have hall : ∀ e ∈ s.ret.sides, e.state ≠ .opened := fun e he ho => by
    have := List.any_eq_false.1 h e he
    simp [ho] at this
  unfold State.side tget
  cases m with
  | zero => exact nofun
  | succ k =>
    dsimp only
    rw [List.getD_eq_getElem?_getD]
    cases hk : s.ret.sides[k]? with
    | none => exact nofun
    | some e => exact hall e (List.mem_of_getElem? hk)

theorem openSide_eq_none {s : State} (h : ∀ m, (s.side m).state ≠ .opened) : openSide s = none := by
  unfold openSide
  rw [List.find?_eq_none]
  intro m _
  simp [h m]

/-- With one side more FAULTY and none OPEN before, no side is OPEN. -/
theorem openSide_of_faulty {s t : State} {n : Nat} (hret : t.ret = { s.ret with sides := tset s.ret.sides n { s.side n with state := .faulty } })
    (hn : 1 ≤ n) (hl : n ≤ s.ret.sides.length) (ho : anyOpened s = false) : openSide t = none :=
  openSide_eq_none fun m => by
    unfold State.side
    rw [hret]
    dsimp only
    by_cases hm : n = m
    · rw [← hm, tget_tset_self _ _ _ _ hn hl]
      exact nofun
    · rw [tget_tset_ne _ _ _ _ _ hm]
      exact side_state_of_not_anyOpened ho m

/-! ### The check made anew -/

theorem setTarget_keeps (s : State) (f : Filing) (n : Option Nat) :
    (setTarget s f n).ret = s.ret ∧ (setTarget s f n).drives = s.drives ∧ (setTarget s f n).picker = s.picker := by
  unfold setTarget
  split <;> exact ⟨rfl, rfl, rfl⟩

theorem holdFiling_ret (s : State) (f : Filing) : (holdFiling s f).ret = s.ret :=
  (notify_ret ..).trans (setTarget_keeps s f none).1

theorem chooseBlank_ret (s : State) (f : Filing) : (chooseBlank s f).ret = s.ret := by
  unfold chooseBlank
  split
  · exact (setTarget_keeps s f _).1
  · exact holdFiling_ret s f

@[simp] theorem notify_work (s : State) (k : NoticeKind) (a : Option (Word16 × Nat)) (b : List Byte) :
    (notify s k a b).work = s.work := by unfold notify; split <;> rfl

/-- With no side OPEN the check chooses a BLANK side or holds the filing. -/
theorem openSideCheck_of_none {s : State} (h : openSide s = none) (f : Filing) : openSideCheck s f = chooseBlank s f := by
  unfold openSideCheck
  rw [h]

@[simp] theorem withdrawClaims_filings (s : State) (id : Nat) : (withdrawClaims s id).filings = s.filings := by
  unfold withdrawClaims
  exact foldl_keeps _ State.filings (by intros; rfl) _ s

theorem returnItem_keeps (s : State) (id : Nat) : (returnItem s id).ret = s.ret ∧ (returnItem s id).filings = s.filings := by
  refine ⟨(WorkOnly.returnItem s id).ret, ?_⟩
  unfold returnItem
  split
  · exact withdrawClaims_filings s id
  · rfl

theorem giveDrive_keeps (s : State) (id d : Nat) : (giveDrive s id d).ret = s.ret ∧ (giveDrive s id d).filings = s.filings := by
  unfold giveDrive
  dsimp only
  split <;> exact ⟨rfl, rfl⟩

/-- An item's move to another side touches neither the tables nor the filings. -/
theorem takeNewSide_keeps (s : State) (id d : Nat) : (takeNewSide s id d).ret = s.ret ∧ (takeNewSide s id d).filings = s.filings := by
  have hreturn := returnItem_keeps s id
  have hgive := fun e => giveDrive_keeps (returnItem s id) id e
  unfold takeNewSide
  split
  · exact ⟨rfl, rfl⟩
  · split
    · exact hreturn
    · split
      · exact hreturn
      · split
        · exact ⟨rfl, rfl⟩
        · split
          · split
            · exact ⟨rfl, rfl⟩
            · split
              · exact ⟨(hgive _).1.trans hreturn.1, (hgive _).2.trans hreturn.2⟩
              · exact hreturn
          · exact ⟨rfl, rfl⟩

theorem loseChosen_ret (s : State) (ref : Word32) : (loseChosen s ref).ret = s.ret := by
  unfold loseChosen
  split
  · exact (setTarget_keeps s _ none).1
  · rfl

theorem openSide_congr {s t : State} (h : t.ret = s.ret) : openSide t = openSide s := by
  have hside : t.side = s.side := by
    funext m
    unfold State.side
    rw [h]
  have hassigned : sideAssigned t = sideAssigned s := by
    funext m
    unfold sideAssigned State.cart
    rw [h]
  unfold openSide
  rw [hside, hassigned, h]

theorem recheckChosen_ret {s : State} (h : openSide s = none) (ref : Word32) : (recheckChosen s ref).ret = s.ret := by
  have hlose := loseChosen_ret s ref
  unfold recheckChosen
  dsimp only
  split
  · exact hlose
  · split
    · unfold recheckOn
      split
      · rw [(takeNewSide_keeps _ _ _).1, openSideCheck_of_none ((openSide_congr hlose).trans h), chooseBlank_ret, hlose]
      · exact hlose
    · exact hlose

/-! ### The filing that chose a side -/

theorem findItem_modItem_drive (s : State) (id k : Nat) {f : Item → Item} (hid : ∀ x, (f x).id = x.id) (hd : ∀ x, (f x).drive = x.drive) :
    ((s.modItem id f).findItem k).bind Item.drive = (s.findItem k).bind Item.drive := by
  unfold State.findItem State.modItem
  dsimp only
  rw [List.find?_map]
  have hp : ((fun i : Item => i.id == k) ∘ fun i => if i.id = id then f i else i) = fun i => i.id == k := by
    funext i
    by_cases h : i.id = id <;> simp [h, hid]
  rw [hp]
  cases s.work.find? fun i => i.id == k with
  | none => rfl
  | some i =>
    simp only [Option.map_some, Option.bind_some]
    split
    · exact hd i
    · rfl

theorem findItem_setTarget_drive (s : State) (f : Filing) (n : Option Nat) (k : Nat) :
    ((setTarget s f n).findItem k).bind Item.drive = (s.findItem k).bind Item.drive := by
  unfold setTarget
  split
  · exact findItem_modItem_drive (s.modFiling f.ref fun x => { x with target := n }) _ k (fun _ => rfl) fun _ => rfl
  · rfl

section
variable {s : State} {f : Filing}

theorem setTarget_none_eq (hf : s.findFiling f.ref = some f) (ht : f.target = none) :
    (setTarget s f none).findFiling f.ref = some f := by
  have h := findFiling_setTarget (s := s) none hf
  rwa [show ({ f with target := none } : Filing) = f by rw [← ht]] at h

/-- A filing that has lost its side is checked anew only where its item holds a drive (R17). -/
theorem recheckChosen_of_no_drive (hf : s.findFiling f.ref = some f) (ht : f.target = none)
    (hd : ∀ id, f.item = some id → (s.findItem id).bind Item.drive = none) : recheckChosen s f.ref = setTarget s f none := by
  have hlose : loseChosen s f.ref = setTarget s f none := by
    unfold loseChosen
    rw [hf]
  unfold recheckChosen
  rw [hlose]
  dsimp only
  rw [setTarget_none_eq hf ht, Option.bind_some]
  split
  · rfl
  · next id hid => rw [findItem_setTarget_drive, hd id hid]

theorem recheckChosen_of_drive {id d : Nat} (hf : s.findFiling f.ref = some f) (ht : f.target = none) (hid : f.item = some id)
    (hd : (s.findItem id).bind Item.drive = some d) :
    recheckChosen s f.ref = takeNewSide (openSideCheck (setTarget s f none) f) id d := by
  have hself := setTarget_none_eq hf ht
  have hlose : loseChosen s f.ref = setTarget s f none := by
    unfold loseChosen
    rw [hf]
  unfold recheckChosen
  rw [hlose]
  dsimp only
  rw [hself, Option.bind_some, hid]
  dsimp only
  rw [findItem_setTarget_drive, hd]
  dsimp only
  unfold recheckOn
  rw [hself]

theorem findFiling_holdFiling (hf : s.findFiling f.ref = some f) :
    (holdFiling s f).findFiling f.ref = some { f with target := none, state := .held } := by
  have hmod : ((setTarget s f none).modFiling f.ref fun x => { x with state := .held }).findFiling f.ref =
      some { f with target := none, state := .held } := findFiling_modFiling (findFiling_setTarget none hf) fun _ => rfl
  unfold holdFiling State.findFiling
  rw [notify_filings]
  exact hmod

theorem findFiling_chooseBlank (hf : s.findFiling f.ref = some f) :
    (∀ m, blankChoice s = some m → (chooseBlank s f).findFiling f.ref = some { f with target := some m }) ∧
    (blankChoice s = none → (chooseBlank s f).findFiling f.ref = some { f with target := none, state := .held }) := by
  unfold chooseBlank
  refine ⟨fun m hm => ?_, fun hm => ?_⟩ <;> rw [hm]
  · exact findFiling_setTarget (some m) hf
  · exact findFiling_holdFiling hf

end

/-- In a list of different keys the first entry with an entry's key is that entry. -/
theorem find?_key_of_mem {α β : Type} [BEq β] [LawfulBEq β] {key : α → β} {l : List α} (h : (l.map key).Nodup) {x : α} (hx : x ∈ l) :
    (l.find? fun y => key y == key x) = some x := by
  obtain ⟨y, hy⟩ : ∃ y, (l.find? fun y => key y == key x) = some y := by
    rw [← Option.isSome_iff_exists, List.find?_isSome]
    exact ⟨x, hx, BEq.rfl⟩
  rw [hy, List.inj_on_of_nodup_map h (List.mem_of_find?_eq_some hy) hx (eq_of_beq (List.find?_some hy :))]

theorem find?_ref_of_mem {l : List Filing} (h : (l.map Filing.ref).Nodup) {f : Filing} (hf : f ∈ l) :
    (l.find? fun x => x.ref == f.ref) = some f := find?_key_of_mem h hf

/-! ### The OPEN mark -/

section
variable {s : State} {d n : Nat} {l : Label}

/-- The side of an OPEN mark that fails is FAULTY, and MEDIA_ERROR is reported, before the filing that chose it loses it. -/
def markFaulty (s : State) (n : Nat) : State := mediaErrorLabel (s.setSide n { s.side n with state := .faulty }) n

theorem loseTarget_keeps (s : State) (n : Nat) :
    (loseTarget s n).ret = s.ret ∧ (loseTarget s n).drives = s.drives ∧ (loseTarget s n).picker = s.picker := by
  unfold loseTarget
  split
  · exact setTarget_keeps s _ none
  · exact ⟨rfl, rfl, rfl⟩

theorem openMarkFailed_keeps (s : State) (n : Nat) :
    (openMarkFailed s n).ret = { s.ret with sides := tset s.ret.sides n { s.side n with state := .faulty } } ∧
      (openMarkFailed s n).drives = s.drives ∧ (openMarkFailed s n).picker = s.picker := by
  obtain ⟨hret, hdrives, hpicker⟩ := loseTarget_keeps (markFaulty s n) n
  exact ⟨hret.trans (notify_ret ..), hdrives.trans (notify_drives ..), hpicker.trans (notify_picker ..)⟩

/-- A mark is taken for its side only while the side is BLANK, its record is assigned and no side is OPEN (R12). -/
theorem labelWritten_opening_ok (hb : (s.side n).state = .blank) (ha : sideAssigned s n = true) (ho : anyOpened s = false) :
    labelWritten s d (.opening n) l true =
      afterLabelWrite (sideOpened (s.modDrive d fun x => { x with label := some (.good l) }) n l) d := by
  refine if_neg ?_
  rintro (h | h | h)
  · exact h hb
  · cases ha.symm.trans h
  · cases ho.symm.trans h

theorem labelWritten_opening_failed (hb : (s.side n).state = .blank) (ha : sideAssigned s n = true) (ho : anyOpened s = false) :
    (∀ f, (s.filings.find? fun x => x.target == some n) = some f →
      labelWritten s d (.opening n) l false = recheckChosen (afterLabelWrite (openMarkFailed s n) d) f.ref) ∧
    ((s.filings.find? fun x => x.target == some n) = none →
      labelWritten s d (.opening n) l false = afterLabelWrite (openMarkFailed s n) d) := by
  have hno : ¬((s.side n).state ≠ .blank ∨ sideAssigned s n = false ∨ anyOpened s = true) := by
    rintro (h | h | h)
    · exact h hb
    · cases ha.symm.trans h
    · cases ho.symm.trans h
  unfold labelWritten
  simp only [Bool.false_eq_true, if_false]
  rw [if_neg hno]
  exact ⟨fun f hf => by rw [hf]; rfl, fun hf => by rw [hf]; rfl⟩

theorem openMark_verified (hn : 1 ≤ n) (hl : n ≤ s.ret.sides.length) (hb : (s.side n).state = .blank) (ha : sideAssigned s n = true)
    (ho : anyOpened s = false) :
    let t := labelWritten s d (.opening n) l true
    t.side n = { Side.blank with state := .opened, openedDay := some l.openedDay } ∧ t.ret.nextDoc = s.ret.nextDoc ∧
      (noticeCount s < 32 → (.notice ⟨.sideOpened, none, be 2 n ++ be 1 (faceCode l.face) ++ be 4 l.serial ++
        be 4 l.firstToBe ++ be 2 l.openedDay⟩ : ControlFrame) ∈ t.control) := by
  intro t
  let u := sideOpened (s.modDrive d fun x => { x with label := some (.good l) }) n l
  have ht : t = afterLabelWrite u d := labelWritten_opening_ok hb ha ho
  have hret : t.ret =
      { s.ret with sides := tset s.ret.sides n { Side.blank with state := .opened, openedDay := some l.openedDay } } := by
    rw [ht, (DriveGoesOn.afterLabelWrite u d).ret]
    exact notify_ret ..
  have hcalm : Calm ⟨true, true⟩ u t := ht ▸ afterLabelWrite_calm (Calm.refl _ u) d
  refine ⟨?_, by rw [hret], fun hroom => hcalm.control_subset (mem_control_notify (s := (s.modDrive d _).setSide n _) hroom _ _ _)⟩
  unfold State.side
  rw [hret]
  exact tget_tset_self _ _ _ _ hn hl

theorem openMark_failed (hn : 1 ≤ n) (hl : n ≤ s.ret.sides.length) (hb : (s.side n).state = .blank) (ha : sideAssigned s n = true)
    (ho : anyOpened s = false) :
    let t := labelWritten s d (.opening n) l false
    t.side n = { s.side n with state := .faulty } ∧
      (noticeCount s < 32 → (.notice ⟨.mediaError, none, be 2 n ++ be 4 0⟩ : ControlFrame) ∈ t.control) := by
  intro t
  obtain ⟨hret, -, -⟩ := openMarkFailed_keeps s n
  have hu := (DriveGoesOn.afterLabelWrite (openMarkFailed s n) d).ret.trans hret
  have hside : ∀ v : State, v.ret = { s.ret with sides := tset s.ret.sides n { s.side n with state := .faulty } } →
      v.side n = { s.side n with state := .faulty } := fun v hv => by
    unfold State.side
    rw [hv]
    exact tget_tset_self _ _ _ _ hn hl
  have hcalm : Calm ⟨true, true⟩ (markFaulty s n) (afterLabelWrite (openMarkFailed s n) d) :=
    afterLabelWrite_calm (loseTarget_calm (Calm.refl _ _) n) d
  have hnotice : noticeCount s < 32 →
      (.notice ⟨.mediaError, none, be 2 n ++ be 4 0⟩ : ControlFrame) ∈ (markFaulty s n).control := fun hroom =>
    mem_control_notify (s := s.setSide n { s.side n with state := .faulty }) hroom _ _ _
  obtain ⟨hsome, hnone⟩ := labelWritten_opening_failed (d := d) (l := l) hb ha ho
  cases hf : s.filings.find? fun x => x.target == some n with
  | none =>
    rw [show t = _ from hnone hf]
    exact ⟨hside _ hu, fun hroom => hcalm.control_subset (hnotice hroom)⟩
  | some f =>
    rw [show t = _ from hsome f hf]
    have hopen : openSide (afterLabelWrite (openMarkFailed s n) d) = none := openSide_of_faulty hu hn hl ho
    exact ⟨hside _ ((recheckChosen_ret hopen f.ref).trans hu),
      fun hroom => (recheckChosen_calm hcalm f.ref).control_subset (hnotice hroom)⟩

theorem openMarkFailed_eq {f : Filing} (hf : (s.filings.find? fun x => x.target == some n) = some f) :
    openMarkFailed s n = setTarget (markFaulty s n) f none := by
  have hfilings : (markFaulty s n).filings = s.filings := notify_filings ..
  unfold openMarkFailed loseTarget
  rw [show (mediaErrorLabel (s.setSide n { s.side n with state := .faulty }) n).filings = s.filings from hfilings, hf]
  rfl

theorem findFiling_openMarkFailed {f : Filing} (hnodup : (s.filings.map Filing.ref).Nodup)
    (hf : (s.filings.find? fun x => x.target == some n) = some f) :
    (openMarkFailed s n).findFiling f.ref = some { f with target := none } := by
  have hs : (markFaulty s n).findFiling f.ref = some f := by
    unfold State.findFiling
    rw [show (markFaulty s n).filings = s.filings from notify_filings ..]
    exact find?_ref_of_mem hnodup (List.mem_of_find?_eq_some hf)
  rw [openMarkFailed_eq hf]
  exact findFiling_setTarget none hs

theorem findItem_openMarkFailed_drive {f : Filing} (hf : (s.filings.find? fun x => x.target == some n) = some f) (id : Nat) :
    ((openMarkFailed s n).findItem id).bind Item.drive = (s.findItem id).bind Item.drive := by
  rw [openMarkFailed_eq hf, findItem_setTarget_drive]
  unfold State.findItem
  rw [show (markFaulty s n).work = s.work from notify_work ..]

/-- Behind a failed OPEN mark no side is OPEN, and the choice is among the other usable sides. -/
theorem blankChoice_of_markFailed (hn : 1 ≤ n) (hl : n ≤ s.ret.sides.length) (ho : anyOpened s = false) {u : State}
    (hu : DriveGoesOn (openMarkFailed s n) u) (f : Filing) :
    openSide (setTarget u f none) = none ∧
      blankChoice (setTarget u f none) = (upTo s.ret.sides.length).find? fun m => m != n && blankUsable s m := by
  obtain ⟨hvret, hvdrives, hvpicker⟩ := setTarget_keeps u f none
  obtain ⟨hmret, hmdrives, hmpicker⟩ := openMarkFailed_keeps s n
  have hret := (hvret.trans hu.ret).trans hmret
  have hstuck : ∀ {v w : State}, v.drives = w.drives → ∀ c, stuck v c = stuck w c := fun h c => by
    unfold stuck driveHolding State.drive
    rw [h]
  have husable := blankUsable_of_faulty hret hn hl (fun c => ((hstuck hvdrives c).trans (hu.stuck c)).trans (hstuck hmdrives c))
    (by rw [hvpicker, hu.exports, hmpicker])
  refine ⟨openSide_of_faulty hret hn hl ho, ?_⟩
  unfold blankChoice
  rw [show blankUsable (setTarget u f none) = _ from funext husable, hret, tset_length]

/-- The filing that chose the side loses it; where its item holds a drive it has the first usable side, or is HELD (R17). -/
theorem openMark_failed_filing (hn : 1 ≤ n) (hl : n ≤ s.ret.sides.length) (hb : (s.side n).state = .blank)
    (ha : sideAssigned s n = true) (ho : anyOpened s = false) {f : Filing} (hnodup : (s.filings.map Filing.ref).Nodup)
    (hf : (s.filings.find? fun x => x.target == some n) = some f) : ∃ g,
      (labelWritten s d (.opening n) l false).findFiling f.ref = some g ∧
      ((∀ i, f.item.bind s.findItem = some i → i.drive = none) → g = { f with target := none }) ∧
      (∀ i e, f.item.bind s.findItem = some i → i.drive = some e →
        let usable := fun m => m != n && blankUsable s m
        (∀ m, (upTo s.ret.sides.length).find? usable = some m → g = { f with target := some m }) ∧
        ((upTo s.ret.sides.length).find? usable = none → g = { f with target := none, state := .held })) := by
  let lost : Filing := { f with target := none }
  let u := afterLabelWrite (openMarkFailed s n) d
  have hu : DriveGoesOn (openMarkFailed s n) u := DriveGoesOn.afterLabelWrite _ d
  have hfound : u.findFiling lost.ref = some lost := hu.findFiling.trans (findFiling_openMarkFailed (f := f) hnodup hf)
  have hdrive : ∀ id, (u.findItem id).bind Item.drive = (s.findItem id).bind Item.drive := fun id => by
    rw [hu.findItem, findItem_openMarkFailed_drive hf]
  rw [(labelWritten_opening_failed hb ha ho).1 f hf]
  cases hi : (f.item.bind s.findItem).bind Item.drive with
  | none =>
    have hno : ∀ id, f.item = some id → (u.findItem id).bind Item.drive = none := fun id hid => by
      rw [hdrive]
      rwa [hid] at hi
    rw [show recheckChosen u f.ref = _ from recheckChosen_of_no_drive (f := lost) hfound rfl hno]
    refine ⟨lost, setTarget_none_eq (f := lost) hfound rfl, fun _ => rfl, fun i e hie he => ?_⟩
    rw [hie] at hi
    cases he.symm.trans hi
  | some e =>
    obtain ⟨i, hie, he⟩ := Option.bind_eq_some_iff.1 hi
    obtain ⟨id, hid, hitem⟩ := Option.bind_eq_some_iff.1 hie
    have hsome : (u.findItem id).bind Item.drive = some e := by
      rw [hdrive, hitem]
      exact he
    obtain ⟨hopen, hchoice⟩ := blankChoice_of_markFailed hn hl ho hu lost
    obtain ⟨hpick, hheld⟩ := findFiling_chooseBlank (setTarget_none_eq (f := lost) hfound rfl)
    have ht : ∀ g, (chooseBlank (setTarget u lost none) lost).findFiling lost.ref = some g →
        (recheckChosen u f.ref).findFiling f.ref = some g := fun g hg => by
      rw [show recheckChosen u f.ref = _ from recheckChosen_of_drive (f := lost) hfound rfl hid hsome, openSideCheck_of_none hopen]
      unfold State.findFiling at hg ⊢
      rw [(takeNewSide_keeps _ id e).2]
      exact hg
    have hheldBy : (∀ j, f.item.bind s.findItem = some j → j.drive = none) → False := fun hno => by
      cases he.symm.trans (hno i hie)
    cases hc : blankChoice (setTarget u lost none) with
    | some m =>
      refine ⟨_, ht _ (hpick m hc), fun hno => (hheldBy hno).elim, fun _ _ _ _ => ⟨fun k hk => ?_, fun hk => ?_⟩⟩
      · cases (hc.symm.trans hchoice).trans hk
        rfl
      · cases (hc.symm.trans hchoice).trans hk
    | none =>
      refine ⟨_, ht _ (hheld hc), fun hno => (hheldBy hno).elim, fun _ _ _ _ => ⟨fun k hk => ?_, fun _ => rfl⟩⟩
      cases (hc.symm.trans hchoice).trans hk

end

/-! ### The closed mark and the NEW mark -/

section
variable {s : State} {d n : Nat} {l : Label}

/-- A closed mark of a READY drive ends with the drive READY and idle. -/
theorem labelWritten_closing {ok : Bool} (hp : (s.side n).closedPending = true) (hr : (s.drive d).state = .ready) :
    ∃ v : State, v.ret = s.ret ∧ v.control = s.control ∧ labelWritten s d (.closing n) l ok =
      afterLabelWrite (if ok then v.setSide n { s.side n with closedPending := false } else mediaErrorLabel v n) d := by
  let w := if ok then s.modDrive d fun x => { x with label := some (.good l) } else s
  let v := w.modDrive d fun x => { x with markTried := true }
  have hret : v.ret = s.ret := by cases ok <;> rfl
  have hcontrol : v.control = s.control := by cases ok <;> rfl
  have hready : (v.drive d).state = .ready := by
    have hv : (v.drive d).state = (w.drive d).state := drive_modDrive_keeps w d d Drive.state fun _ => rfl
    have hw : (w.drive d).state = (s.drive d).state := by
      cases ok
      · rfl
      · show ((s.modDrive d fun x => { x with label := some (.good l) }).drive d).state = _
        exact drive_modDrive_keeps s d d Drive.state fun _ => rfl
    rw [hv, hw, hr]
  have hside : v.side n = s.side n := by
    unfold State.side
    rw [hret]
  refine ⟨v, hret, hcontrol, ?_⟩
  have hstate : ((if ok then v.setSide n { s.side n with closedPending := false } else mediaErrorLabel v n).drive d).state = .ready := by
    cases ok
    · unfold State.drive at hready ⊢
      rw [if_neg (by decide), mediaErrorLabel, notify_drives]
      exact hready
    · exact hready
  have hclosed : (if (v.side n).closedPending = false then v else if ok then v.setSide n { v.side n with closedPending := false }
      else mediaErrorLabel v n) = if ok then v.setSide n { s.side n with closedPending := false } else mediaErrorLabel v n := by
    rw [hside, if_neg (by simp [hp])]
  unfold labelWritten
  dsimp only
  rw [hclosed, hstate]

theorem closedMark_sets (hn : 1 ≤ n) (hl : n ≤ s.ret.sides.length) (hp : (s.side n).closedPending = true)
    (hr : (s.drive d).state = .ready) :
    (labelWritten s d (.closing n) l true).side n = { s.side n with closedPending := false } ∧
    (labelWritten s d (.closing n) l false).side n = s.side n ∧
    (noticeCount s < 32 → (.notice ⟨.mediaError, none, be 2 n ++ be 4 0⟩ : ControlFrame) ∈
      (labelWritten s d (.closing n) l false).control) := by
  have hread : ∀ u : State, (afterLabelWrite u d).side n = u.side n := fun u => by
    unfold State.side
    rw [(DriveGoesOn.afterLabelWrite u d).ret]
  obtain ⟨v, hret, -, hok⟩ := labelWritten_closing (l := l) (ok := true) hp hr
  obtain ⟨w, hwret, hwcontrol, hfail⟩ := labelWritten_closing (l := l) (ok := false) hp hr
  rw [hok, hfail, hread, hread]
  refine ⟨?_, ?_, fun hroom => ?_⟩
  · unfold State.side
    rw [if_pos rfl, State.setSide_ret]
    dsimp only
    rw [hret]
    exact tget_tset_self _ _ _ _ hn hl
  · unfold State.side
    rw [if_neg (by decide), mediaErrorLabel, notify_ret, hwret]
  · have hcalm : Calm ⟨true, true⟩ (mediaErrorLabel w n) (afterLabelWrite (mediaErrorLabel w n) d) :=
      afterLabelWrite_calm (Calm.refl _ _) d
    have hroom' : noticeCount w < 32 := by
      unfold noticeCount
      rw [hwcontrol]
      exact hroom
    exact hcalm.control_subset (mem_control_notify hroom' _ _ _)

@[simp] theorem withdrawClaims_drives (s : State) (id : Nat) : (withdrawClaims s id).drives = s.drives := by
  unfold withdrawClaims
  exact foldl_keeps _ State.drives (by intros; rfl) _ s

/-- No cartridge moves where an item ends. -/
theorem endItemOpt_occ (s : State) (id : Option Nat) (k : Nat) : ((endItemOpt s id).drive k).occ = (s.drive k).occ := by
  have hremove : ∀ (s : State) (id : Nat), ((removeItem s id).drive k).occ = (s.drive k).occ := fun s id => by
    unfold removeItem freeDrive
    split
    · split
      · exact drive_modDrive_keeps { s with work := _ } _ k Drive.occ fun _ => rfl
      · rfl
    · rfl
  unfold endItemOpt endItem
  split
  · split
    · split
      · rfl
      · rw [hremove]
        unfold State.drive
        rw [show ∀ u : State, (dropItemTransfers u _).drives = u.drives from fun _ => rfl, withdrawClaims_drives]
    · rfl
  · rfl

/-- A finding that is accepted makes the record the drive's occupant; the tables stay. -/
theorem acceptFinding_keeps (h1 : 1 ≤ d) (hl : d ≤ s.drives.length) (c label home finding : Nat) :
    let t := acceptFinding s d c label home finding
    t.ret = s.ret ∧ (t.drive d).occ = .record c ∧ t.drives.length = s.drives.length := by
  intro t
  let v := s.modDrive d fun x => { x with occ := .record c, found := true, task := .idle }
  have hdrives : t.drives = (endInspect v d).drives := notify_drives ..
  refine ⟨(notify_ret ..).trans (WorkOnly.endItemOpt v _).ret, ?_, ?_⟩
  · have hocc : (t.drive d).occ = ((endInspect v d).drive d).occ := by
      unfold State.drive
      rw [hdrives]
    rw [hocc, endInspect, endItemOpt_occ, drive_modDrive_self h1 hl]
  · have hlen : v.drives.length = s.drives.length := tset_length _ _ _
    rw [hdrives, ← hlen]
    exact (endItemOpt_calm (Calm.refl ⟨true, true⟩ v) _).drives

/-- The NEW mark verified completes the record, with its home and both sides BLANK (R42). -/
theorem newMark_sets {c h : Nat} (hsized : TablesSized s) (h1 : 1 ≤ d) (h4 : d ≤ 4) (hc1 : 1 ≤ c) (hc : c ≤ 160)
    (hfree : s.cart c = none) (hslot : lowestFreeSlot s = some h) :
    let t := labelWritten s d (.new c) l true
    t.cart c = some ⟨l.serial, .inLibrary, some h⟩ ∧ (t.drive d).occ = .record c ∧ (t.drive d).state = .ready ∧
      t.side (sideOf c .a) = Side.blank ∧ t.side (sideOf c .b) = Side.blank := by
  intro t
  obtain ⟨-, hcarts, hsides, -, -, -, -, hdrives, -⟩ := hsized
  have hrecords : s.ret.carts.length = 160 := hcarts
  have hfaces : s.ret.sides.length = 320 := hsides
  let v := (s.modDrive d fun x => { x with label := some (.good l) }).retain fun r =>
    { r with
      carts := tset r.carts c (some ⟨l.serial, .inLibrary, some h⟩)
      sides := tset (tset r.sides (sideOf c .a) Side.blank) (sideOf c .b) Side.blank }
  let w := (acceptFinding v d c l.serial h 1).modDrive d fun x => { x with dir := [] }
  have ht : t = enterReady w d := by
    have hrecord : recordFree s c = true := by
      unfold recordFree
      rw [hfree]
      simp [hc1, hrecords, hc]
    have hnew : newVerified (s.modDrive d fun x => { x with label := some (.good l) }) d c l = enterReady w d := by
      unfold newVerified
      rw [show lowestFreeSlot (s.modDrive d _) = some h from hslot, show recordFree (s.modDrive d _) c = true from hrecord]
    exact hnew
  have hvlen : d ≤ v.drives.length := by
    rw [show v.drives.length = s.drives.length from tset_length _ _ _, hdrives]
    exact h4
  obtain ⟨hret, hocc, hlen⟩ := acceptFinding_keeps h1 hvlen c l.serial h 1
  have hwlen : d ≤ w.drives.length := by
    rw [show w.drives.length = (acceptFinding v d c l.serial h 1).drives.length from tset_length _ _ _, hlen]
    exact hvlen
  have htret : t.ret = v.ret := by rw [ht]; exact hret
  have htdrive : (t.drive d).occ = (w.drive d).occ ∧ (t.drive d).state = .ready := by
    rw [ht, enterReady, drive_modDrive_self h1 hwlen]
    exact ⟨rfl, rfl⟩
  have ha : sideOf c .a = 2 * c - 1 := rfl
  have hb : sideOf c .b = 2 * c := rfl
  refine ⟨?_, ?_, htdrive.2, ?_, ?_⟩
  · unfold State.cart
    rw [htret]
    exact tget_tset_self s.ret.carts c _ none hc1 (by omega)
  · rw [htdrive.1, drive_modDrive_self h1 (hlen ▸ hvlen)]
    exact hocc
  · unfold State.side
    rw [htret]
    show tget (tset (tset s.ret.sides (sideOf c .a) Side.blank) (sideOf c .b) Side.blank) (sideOf c .a) Side.blank = Side.blank
    rw [tget_tset_ne _ _ _ _ _ (by omega), tget_tset_self _ _ _ _ (by omega) (by omega)]
  · unfold State.side
    rw [htret]
    show tget (tset (tset s.ret.sides (sideOf c .a) Side.blank) (sideOf c .b) Side.blank) (sideOf c .b) Side.blank = Side.blank
    rw [tget_tset_self _ _ _ _ (by omega) (by rw [tset_length]; omega)]

end

theorem marksSetTheSide : MarksSetTheSide := by
  intro s d n l hsized hn hle h1 h4
  have hl : n ≤ s.ret.sides.length := by
    obtain ⟨-, -, hsides, -⟩ := hsized
    exact hsides ▸ hle
  refine ⟨fun hb ha ho => ⟨openMark_verified hn hl hb ha ho, ?_⟩, fun hp hr => closedMark_sets hn hl hp hr,
    fun c h hc1 hc hfree hslot _ => newMark_sets hsized h1 h4 hc1 hc hfree hslot⟩
  obtain ⟨hside, hnotice⟩ := openMark_failed (d := d) (l := l) hn hl hb ha ho
  exact ⟨hside, hnotice, fun f hnodup hf => openMark_failed_filing hn hl hb ha ho hnodup hf⟩

/-- Settles O53: the passes of a mark, what it sets, and the fields it carries. -/
theorem labelMarks : Obligations.LabelMarks := ⟨markPassesFollow, marksSetTheSide, marksCarryTheirFields⟩

end Sys2Proof.Machine
end

section
/-! PROOFS. Commits: the passes over a directory slot, the commit's update, its report and the threshold test (R19, R123, R124). -/

namespace Sys2Proof.Machine

/-! ### The passes of a commit burst -/

/-- A command of a commit burst is sent, with the blocks named to the data channel for it. -/
def sendCommitPass (s : State) (d : Nat) (b : CommitBurst) (cmd : BayCmd) (l : List Supply) : State :=
  asked (s.modDrive d fun y => { y with task := .commitBurst b, op := none, chan := l }) (d + 1) cmd .plain

section
variable {s : State} {d : Nat} {b : CommitBurst} {r : OpResult}

theorem sendCommit_erase (h : b.pass = .erase) : sendCommit s d b = sendCommitPass s d b (.erase b.slot 1) [] := by
  unfold sendCommit
  rw [h]
  rfl

theorem sendCommit_write (h : b.pass = .write) : sendCommit s d b = sendCommitPass s d b (.write b.slot 1) [.record b.doc] := by
  unfold sendCommit
  rw [h]
  rfl

theorem sendCommit_verify (h : b.pass = .verify) : sendCommit s d b = sendCommitPass s d b (.verify b.slot 1) [.record b.doc] := by
  unfold sendCommit
  rw [h]
  rfl

theorem commitTaken_erase (h : b.pass = .erase) :
    commitTaken s d b r = sendCommitPass s d { b with pass := .write } (.write b.slot 1) [.record b.doc] := by
  unfold commitTaken
  rw [h]
  exact sendCommit_write rfl

theorem commitTaken_write (h : b.pass = .write) :
    commitTaken s d b r = sendCommitPass s d { b with pass := .verify } (.verify b.slot 1) [.record b.doc] := by
  unfold commitTaken
  rw [h]
  exact sendCommit_verify rfl

theorem commitTaken_verified (h : b.pass = .verify) :
    commitTaken s d b .complete = endBurst s d b.item (.commitBurst b) fun t _ =>
      if (t.side b.side).state = .opened then (commitFiling t d b, .nothing) else relocateFiling t b.ref b.side .directory := by
  unfold commitTaken
  rw [h]

/-- A side on which one slot more is used. -/
def slotUsed (s : State) (n : Nat) : State := s.setSide n { s.side n with slotsUsed := (s.side n).slotsUsed + 1 }

theorem countSlot_of_opened {n : Nat} (h : (s.side n).state = .opened) : countSlot s n = slotUsed s n :=
  if_neg (by rw [h]; exact nofun)

theorem slotsUsed_slotUsed {n : Nat} (hn : 1 ≤ n) (hl : n ≤ s.ret.sides.length) :
    ((slotUsed s n).side n).slotsUsed = (s.side n).slotsUsed + 1 := by
  unfold slotUsed
  rw [State.side_setSide, if_pos ⟨rfl, hn, hl⟩]

/-- A slot whose VERIFY does not succeed is counted; the next one is erased, and with none left the filing relocates. -/
theorem commitTaken_slotFailed (h : b.pass = .verify) (hr : r ≠ .complete) (ho : (s.side b.side).state = .opened)
    (hn : 1 ≤ b.side) (hl : b.side ≤ s.ret.sides.length) :
    let used := (s.side b.side).slotsUsed + 1
    (used < 1000 → commitTaken s d b r =
      sendCommitPass (slotUsed s b.side) d { b with slot := used + 1, pass := .erase } (.erase (used + 1) 1) []) ∧
    (1000 ≤ used → commitTaken s d b r = endBurst (slotUsed s b.side) d b.item (.commitBurst b) fun t _ =>
      relocateFiling t b.ref b.side .directory) := by
  intro used
  have hused : ((slotUsed s b.side).side b.side).slotsUsed = used := slotsUsed_slotUsed hn hl
  have htaken : commitTaken s d b r = match commitSlotFailed s b with
      | (s, some b) => sendCommit s d b
      | (s, none) => endBurst s d b.item (.commitBurst b) fun s _ => relocateFiling s b.ref b.side .directory := by
    unfold commitTaken
    rw [h]
    cases r with
    | complete => exact absurd rfl hr
    | short _ => rfl
    | failedBlock _ => rfl
    | failed => rfl
    | running => rfl
  have hfailed : commitSlotFailed s b = if 1000 ≤ used then (slotUsed s b.side, none)
      else (slotUsed s b.side, some { b with slot := used + 1, pass := .erase }) := by
    unfold commitSlotFailed
    dsimp only
    rw [countSlot_of_opened ho, hused]
  rw [htaken, hfailed]
  refine ⟨fun hroom => ?_, fun hfull => ?_⟩
  · rw [if_neg (by omega)]
    exact sendCommit_erase rfl
  · rw [if_pos hfull]

end

theorem commitPassesFollow : CommitPassesFollow := by
  intro s d st b x v goes send ht
  have hgoes : ∀ {k t}, OperationEnds s d st k → commitTaken v d b st.result = t → goes t :=
    fun h e => exec_of_opEnded h ((opEnded_commitBurst ht _).trans e)
  refine ⟨fun hp h => hgoes h (commitTaken_erase hp), fun hp h => hgoes h (commitTaken_write hp),
    fun hp h => ⟨fun hr => hgoes h ?_, fun hr ho hsized hn hl => ?_⟩⟩
  · rw [hr]
    exact commitTaken_verified hp
  · obtain ⟨-, -, hsides, -⟩ := hsized
    intro used w
    obtain ⟨hnext, hlast⟩ := commitTaken_slotFailed (s := v) (d := d) hp hr ho hn (hl.trans (Nat.le_of_eq hsides.symm))
    exact ⟨fun hu => hgoes h (hnext hu), fun hu => hgoes h (hlast hu)⟩

/-! ### The commit's update, its report and the thresholds -/

theorem commitUpdatesOnce : CommitUpdatesOnce := by
  intro s f n hsized hn hl e t
  obtain ⟨-, -, hsides, -⟩ := hsized
  refine ⟨rfl, rfl, tget_tset_self _ _ _ _ hn (hl.trans (Nat.le_of_eq hsides.symm)),
    fun m hm => tget_tset_ne _ _ _ _ _ (Ne.symm hm), fun hf => ?_, fun r i hf hi => ?_, fun x hx => ?_, rfl, rfl, rfl⟩
  · show commitEntry s f s.ret = _
    unfold commitEntry
    rw [hf]
  · show commitEntry s f s.ret = _
    unfold commitEntry
    rw [hf, hi]
  · simpa using (List.mem_filter.1 hx).2

theorem remask_nil (s : State) (target : Nat) : remask s target [] = s := if_pos rfl

theorem remask_of_ne_nil (s : State) (target : Nat) {newly : List Nat} (h : newly ≠ []) :
    remask s target newly = remaskOrders (remaskFetches s target newly) target newly := if_neg h

theorem commitReportsFiled : CommitReportsFiled := by
  intro s d b f hf t filed
  have hplain : f.rect = none → commitFiling s d b = thresholdTest (removeFiling (filed t) f.ref) b.side := fun hr => by
    unfold commitFiling
    rw [hf]
    dsimp only
    rw [hr]
    simp only [filed, t, filedFields, rectKind, hr]
  have hrect : ∀ r, f.rect = some r →
      commitFiling s d b = thresholdTest (removeFiling (filed (remask t r.target (newlyWithheld s r))) f.ref) b.side := fun r hr => by
    unfold commitFiling
    rw [hf]
    dsimp only
    rw [hr]
    simp only [filed, t, filedFields, rectKind, hr, Option.map_some, Option.getD_some]
  refine ⟨hplain, fun r hr => ⟨fun hn => ?_, fun hn => ?_⟩⟩
  · rw [hrect r hr, show newlyWithheld s r = [] from hn, remask_nil]
  · rw [hrect r hr, remask_of_ne_nil t r.target (show newlyWithheld s r ≠ [] from hn)]
    rfl

theorem thresholdsCloseTheSide : ThresholdsCloseTheSide := by
  intro s n ho e
  have hopen : ¬(s.side n).state ≠ .opened := fun h => h ho
  have htest : thresholdTest s n = if freeData e < 64 then closeSideAs s n .room else if slotsLeft e = 0 then
      closeSideAs s n .directory else if sparesLeft e < 16 then closeSideAs s n .spare else s := if_neg hopen
  rw [htest]
  refine ⟨fun h => ?_, fun h hd => ?_, fun h hd hs => ?_, fun h hd hs => ?_⟩
  · rw [if_pos h]
  · rw [if_neg (Nat.not_lt.2 h), if_pos hd]
  · rw [if_neg (Nat.not_lt.2 h), if_neg hd, if_pos hs]
  · rw [if_neg (Nat.not_lt.2 h), if_neg hd, if_neg (Nat.not_lt.2 hs)]

end Sys2Proof.Machine
end

section
/-! PROOFS. What the operations that withdraw claims, drop staged pages and end items leave of the copy orders (R79, R140, R160). -/

namespace Sys2Proof.Machine

/-! ### An order but for what it has read -/

/-- An order without its page list and the point its reading goes on from: what the withdrawing of claims leaves of it. -/
def Order.core (o : Order) : Order := { o with pages := [], readSet := 0, readPage := 0 }

/-- The order of a number but for what it has read. -/
def coreOrder (s : State) (n : Nat) : Option Order := (s.findOrder n).map Order.core

theorem Order.eq_of_core {o p : Order} (h : p.core = o.core) :
    p = { o with pages := p.pages, readSet := p.readSet, readPage := p.readPage } := by
  cases o
  cases p
  cases h
  rfl

theorem core_unname (o : Order) (c : Nat) : (o.unname c).core = o.core := by
  unfold Order.unname
  dsimp only
  split <;> rfl

section
variable {s t : State} {n m : Nat}

theorem number_of_findOrder {o : Order} (h : s.findOrder n = some o) : o.number = n := by simpa using List.find?_some h

theorem coreOrder_of_findOrder {o : Order} (h : s.findOrder n = some o) : coreOrder s n = some o.core := by
  unfold coreOrder
  rw [h]
  rfl

theorem findOrder_of_coreOrder {o : Order} (h : coreOrder s n = some o.core) : ∃ p, s.findOrder n = some p ∧ p.core = o.core := by
  unfold coreOrder at h
  exact Option.map_eq_some_iff.1 h

theorem findOrder_eq_none_of_coreOrder (h : coreOrder s n = none) : s.findOrder n = none := Option.map_eq_none_iff.1 h

theorem coreOrder_eq_find? (s : State) (n : Nat) : coreOrder s n = (s.orders.map Order.core).find? fun o => o.number == n := by
  rw [List.find?_map]
  rfl

theorem coreOrder_congr (h : t.orders.map Order.core = s.orders.map Order.core) (n : Nat) : coreOrder t n = coreOrder s n := by
  rw [coreOrder_eq_find?, coreOrder_eq_find?, h]

theorem findOrder_modOrder_self {f : Order → Order} (hn : ∀ o, (f o).number = o.number) :
    (s.modOrder n f).findOrder n = (s.findOrder n).map f := by
  unfold State.findOrder State.modOrder
  dsimp only
  induction s.orders with
  | nil => rfl
  | cons o os ih =>
    by_cases h : o.number = n
    · simp [h, hn]
    · simpa [h] using ih

theorem findOrder_modOrder_ne {f : Order → Order} (hn : ∀ o, (f o).number = o.number) (h : m ≠ n) :
    (s.modOrder n f).findOrder m = s.findOrder m := by
  unfold State.findOrder State.modOrder
  dsimp only
  induction s.orders with
  | nil => rfl
  | cons o os ih =>
    by_cases ho : o.number = n
    · have hm : n ≠ m := Ne.symm h
      simpa [ho, hn, hm] using ih
    · rw [List.map_cons, if_neg ho, List.find?_cons, List.find?_cons, ih]

theorem coreOrder_modOrder_ne {f : Order → Order} (hn : ∀ o, (f o).number = o.number) (h : m ≠ n) :
    coreOrder (s.modOrder n f) m = coreOrder s m := congrArg (Option.map Order.core) (findOrder_modOrder_ne hn h)

theorem findOrder_filter_self : ({ s with orders := s.orders.filter fun x => x.number != n } : State).findOrder n = none := by
  unfold State.findOrder
  simp

theorem findOrder_filter_ne (h : m ≠ n) :
    ({ s with orders := s.orders.filter fun x => x.number != n } : State).findOrder m = s.findOrder m := by
  unfold State.findOrder
  dsimp only
  rw [List.find?_filter]
  congr 1
  funext o
  by_cases ho : o.number = m
  · simp [ho, h]
  · simp [ho]

end

/-! ### Claims withdrawn, pages dropped, items ended -/

/-- One claim withdrawn: it goes, and its pages are named no longer (R79). -/
def withdrawClaim (s : State) (c : Claim) : State :=
  { dropClaim s c.id with fetches := s.fetches.map fun f => f.unname c.id, orders := s.orders.map fun o => o.unname c.id }

theorem withdrawClaims_eq_foldl (s : State) (id : Nat) :
    withdrawClaims s id = (s.claims.filter fun c => c.owner == .item id && !c.begun).foldl withdrawClaim s := rfl

/-- What such an operation leaves alone: the Retained Store, the port, and every order but for what it has read. -/
structure PagesOnly (s t : State) : Prop where
  ret : t.ret = s.ret
  port : t.port = s.port
  orders : t.orders.map Order.core = s.orders.map Order.core

namespace PagesOnly

theorem refl (s : State) : PagesOnly s s := ⟨rfl, rfl, rfl⟩

theorem trans {a b c : State} (h : PagesOnly a b) (k : PagesOnly b c) : PagesOnly a c :=
  ⟨k.ret.trans h.ret, k.port.trans h.port, k.orders.trans h.orders⟩

theorem core {s t : State} (h : PagesOnly s t) (n : Nat) : coreOrder t n = coreOrder s n := coreOrder_congr h.orders n

theorem foldl {α : Type} {f : State → α → State} (hf : ∀ s x, PagesOnly s (f s x)) :
    ∀ (l : List α) (s : State), PagesOnly s (l.foldl f s)
  | [], s => refl s
  | x :: xs, s => (hf s x).trans (foldl hf xs (f s x))

theorem modOrder {f : Order → Order} (hf : ∀ o, (f o).core = o.core) (s : State) (n : Nat) : PagesOnly s (s.modOrder n f) := by
  refine ⟨rfl, rfl, ?_⟩
  rw [State.modOrder_orders, List.map_map]
  refine List.map_congr_left fun o _ => ?_
  by_cases h : o.number = n <;> simp [h, hf]

theorem withdrawClaim (s : State) (c : Claim) : PagesOnly s (withdrawClaim s c) := by
  refine ⟨rfl, rfl, ?_⟩
  unfold Machine.withdrawClaim
  rw [List.map_map]
  exact List.map_congr_left fun o _ => core_unname o c.id

theorem withdrawClaims (s : State) (id : Nat) : PagesOnly s (withdrawClaims s id) :=
  withdrawClaims_eq_foldl s id ▸ foldl withdrawClaim _ s

theorem dropItemTransfers (s : State) (id : Nat) : PagesOnly s (dropItemTransfers s id) := ⟨rfl, rfl, rfl⟩

theorem modItem (s : State) (id : Nat) (f : Item → Item) : PagesOnly s (s.modItem id f) := ⟨rfl, rfl, rfl⟩

theorem freeOf (s : State) (claim : Nat) (bs : List Nat) : PagesOnly s (freeOf s claim bs) := ⟨rfl, rfl, rfl⟩

theorem removeItem (s : State) (id : Nat) : PagesOnly s (removeItem s id) := by
  unfold Machine.removeItem
  split
  · next i _ => cases i.drive <;> exact ⟨rfl, rfl, rfl⟩
  · exact refl s

theorem endItem (s : State) (id : Nat) : PagesOnly s (endItem s id) := by
  unfold Machine.endItem
  split
  · split
    · exact ⟨rfl, rfl, rfl⟩
    · exact ((withdrawClaims s id).trans (dropItemTransfers _ id)).trans (removeItem _ id)
  · exact refl s

theorem endItemOpt (s : State) (id : Option Nat) : PagesOnly s (endItemOpt s id) := by
  cases id with
  | none => exact refl s
  | some id => exact endItem s id

theorem renameWaitingCopy (s : State) (o : Order) (p : Claim → Bool) : PagesOnly s (renameWaitingCopy s o p) := by
  unfold Machine.renameWaitingCopy
  split
  · exact refl s
  · next id _ =>
    split
    · exact (withdrawClaims s id).trans (modItem _ id _)
    · exact refl s

end PagesOnly

/-- An order that has dropped the pages that `p` picks. -/
def Order.without (o : Order) (p : CopyPage → Bool) : Order := { o with pages := o.pages.filter fun q => !p q }

theorem dropCopyPages_eq {s : State} {n : Nat} {o : Order} (h : s.findOrder n = some o) (p : CopyPage → Bool) :
    ∃ v, PagesOnly s v ∧ v.orders = s.orders ∧ dropCopyPages s n p = v.modOrder n fun x => x.without p := by
  unfold dropCopyPages
  rw [h]
  exact ⟨_, PagesOnly.foldl (fun s (q : CopyPage) => PagesOnly.freeOf s q.claim q.blocks) _ s,
    foldl_keeps (fun s (q : CopyPage) => freeOf s q.claim q.blocks) State.orders (fun _ _ => rfl) _ s, rfl⟩

theorem PagesOnly.dropCopyPages (s : State) (n : Nat) (p : CopyPage → Bool) : PagesOnly s (dropCopyPages s n p) := by
  cases h : s.findOrder n with
  | none =>
    unfold Machine.dropCopyPages
    rw [h]
    exact refl s
  | some o =>
    obtain ⟨v, hv, -, heq⟩ := dropCopyPages_eq h p
    rw [heq]
    exact hv.trans (modOrder (f := fun x => x.without p) (fun _ => rfl) v n)

/-- The order whose pages are dropped keeps those that are not picked. -/
theorem findOrder_dropCopyPages {s : State} {n : Nat} {o : Order} (h : s.findOrder n = some o) (p : CopyPage → Bool) :
    (dropCopyPages s n p).findOrder n = some (o.without p) := by
  obtain ⟨v, -, horders, heq⟩ := dropCopyPages_eq h p
  have hv : v.findOrder n = some o := by
    unfold State.findOrder
    rw [horders]
    exact h
  rw [heq, findOrder_modOrder_self (f := fun x => x.without p) fun _ => rfl, hv]
  rfl

/-! ### A set voided -/

/-- A set in progress as its voiding leaves it (R141, R157). -/
def Order.voided (o : Order) : Order :=
  { o with
    pendingCharge := 0, toSend := [], retry := none, stampRetry := false, voidOwed := true
    setsVoided := o.setsVoided + 1 }

/-- The same with the reading gone on to the next set. -/
def Order.voidedOn (o : Order) : Order :=
  { o.voided with
    readSet := if o.readSet = o.curSet then o.curSet + 1 else o.readSet
    readPage := if o.readSet = o.curSet then 0 else o.readPage }

section
variable {s : State} {n : Nat} {o : Order}

theorem voidSet_eq_self (h : ∀ o, s.findOrder n = some o → o.inProgress = false) : voidSet s n = s := by
  unfold voidSet
  split
  · rfl
  · next o ho => rw [h o ho]; rfl

theorem voidSet_of_inProgress (h : s.findOrder n = some o) (hp : o.inProgress = true) :
    ∃ v, PagesOnly s v ∧ voidSet s n = countVoided (v.modOrder n Order.voidedOn) := by
  unfold voidSet
  rw [h]
  dsimp only
  rw [if_pos hp]
  exact ⟨_, (PagesOnly.renameWaitingCopy _ _ _).trans (PagesOnly.dropCopyPages _ _ _), rfl⟩

/-- What the voiding of an order's set leaves of the other orders and of the port. -/
theorem voidSet_cases (s : State) (n : Nat) :
    voidSet s n = s ∨ ∃ v, PagesOnly s v ∧ voidSet s n = countVoided (v.modOrder n Order.voidedOn) := by
  cases h : s.findOrder n with
  | none => exact .inl (voidSet_eq_self fun o ho => by rw [h] at ho; cases ho)
  | some o =>
    cases hp : o.inProgress with
    | false =>
      refine .inl (voidSet_eq_self fun p hfind => ?_)
      rw [h] at hfind
      cases hfind
      exact hp
    | true => exact .inr (voidSet_of_inProgress h hp)

theorem voidSet_port (s : State) (n : Nat) : (voidSet s n).port = s.port := by
  rcases voidSet_cases s n with h | ⟨v, hv, h⟩
  · rw [h]
  · rw [h]
    exact hv.port

theorem coreOrder_voidSet_ne {m : Nat} (hm : m ≠ n) : coreOrder (voidSet s n) m = coreOrder s m := by
  rcases voidSet_cases s n with h | ⟨v, hv, h⟩
  · rw [h]
  · rw [h]
    exact (coreOrder_modOrder_ne (s := v) (f := Order.voidedOn) (fun _ => rfl) hm).trans (hv.core m)

/-- The order whose set is voided, and the day's count. -/
theorem voidSet_inProgress (h : s.findOrder n = some o) (hp : o.inProgress = true) :
    coreOrder (voidSet s n) n = some o.voided.core ∧
      (voidSet s n).ret = { s.ret with counts := { s.ret.counts with voidedSets := s.ret.counts.voidedSets + 1 } } := by
  obtain ⟨v, hv, heq⟩ := voidSet_of_inProgress h hp
  obtain ⟨p, hfind, hcore⟩ := findOrder_of_coreOrder ((hv.core n).trans (coreOrder_of_findOrder h))
  rw [heq]
  constructor
  · have hmod : (v.modOrder n Order.voidedOn).findOrder n = some p.voidedOn := by
      rw [findOrder_modOrder_self (f := Order.voidedOn) fun _ => rfl, hfind]
      rfl
    rw [show coreOrder (countVoided (v.modOrder n Order.voidedOn)) n = some p.voidedOn.core from coreOrder_of_findOrder hmod,
      Order.eq_of_core hcore]
    rfl
  · show { v.ret with counts := { v.ret.counts with voidedSets := v.ret.counts.voidedSets + 1 } } = _
    rw [hv.ret]

end

/-! ### The end of an order -/

@[simp] theorem notify_orders (s : State) (k : NoticeKind) (a : Option (Word16 × Nat)) (b : List Byte) :
    (notify s k a b).orders = s.orders := by unfold notify; split <;> rfl

@[simp] theorem notify_port (s : State) (k : NoticeKind) (a : Option (Word16 × Nat)) (b : List Byte) :
    (notify s k a b).port = s.port := by unfold notify; split <;> rfl

theorem reportOrder_keeps (s : State) (o : Order) (stop : Nat × Nat) (why : OrderEnd) :
    (reportOrder s o stop why).ret = s.ret ∧ (reportOrder s o stop why).port = s.port ∧
      (reportOrder s o stop why).orders = s.orders := by
  cases why with
  | cancelledSilent => exact ⟨rfl, rfl, rfl⟩
  | done | cancelled | printer | media | unavailable => exact ⟨notify_ret .., notify_port .., notify_orders ..⟩

theorem clearPort_keeps (s : State) (n : Nat) :
    (clearPort s n).ret = s.ret ∧ (clearPort s n).orders = s.orders ∧
      ((clearPort s n).port.holder = s.port.holder ∨ (clearPort s n).port.holder = none) := by
  unfold clearPort
  split
  · exact ⟨rfl, rfl, .inr rfl⟩
  · exact ⟨rfl, rfl, .inl rfl⟩

/-- What an operation on one order leaves of the others; the port it leaves with its holder or without one. -/
structure OthersStand (n : Nat) (s t : State) : Prop where
  orders : ∀ m, m ≠ n → coreOrder t m = coreOrder s m
  holder : t.port.holder = s.port.holder ∨ t.port.holder = none

namespace OthersStand
variable {n : Nat}

theorem refl (s : State) : OthersStand n s s := ⟨fun _ _ => rfl, .inl rfl⟩

theorem trans {a b c : State} (h : OthersStand n a b) (k : OthersStand n b c) : OthersStand n a c :=
  ⟨fun m hm => (k.orders m hm).trans (h.orders m hm), by
    rcases k.holder with hk | hk
    · rw [hk]
      exact h.holder
    · exact .inr hk⟩

theorem of_pagesOnly {s t : State} (h : PagesOnly s t) : OthersStand n s t := ⟨fun m _ => h.core m, .inl (by rw [h.port])⟩

theorem modOrder (s : State) {f : Order → Order} (hf : ∀ o, (f o).number = o.number) : OthersStand n s (s.modOrder n f) :=
  ⟨fun _ hm => coreOrder_modOrder_ne hf hm, .inl rfl⟩

theorem voidSet (s : State) : OthersStand n s (voidSet s n) := ⟨fun _ hm => coreOrder_voidSet_ne hm, .inl (by rw [voidSet_port])⟩

theorem not_holder {s t : State} (h : OthersStand n s t) {m : Nat} (hm : s.port.holder ≠ some m) : t.port.holder ≠ some m := by
  rcases h.holder with hk | hk
  · rwa [hk]
  · rw [hk]
    exact nofun

end OthersStand

theorem endOrder_eq {s : State} {n : Nat} {o : Order} (h : s.findOrder n = some o) (why : OrderEnd) :
    ∃ v p stop, PagesOnly (voidSet s n) v ∧ endOrder s n why =
      reportOrder { clearPort v n with orders := (clearPort v n).orders.filter fun x => x.number != n } p stop why := by
  unfold endOrder
  rw [h]
  exact ⟨_, _, _, (PagesOnly.endItemOpt _ _).trans (PagesOnly.dropCopyPages _ n fun _ => true), rfl⟩

theorem findOrder_endOrder (s : State) (n : Nat) (why : OrderEnd) : (endOrder s n why).findOrder n = none := by
  cases h : s.findOrder n with
  | none =>
    unfold endOrder
    rw [h]
    exact h
  | some o =>
    obtain ⟨v, p, stop, -, heq⟩ := endOrder_eq h why
    obtain ⟨-, -, horders⟩ := reportOrder_keeps
      { clearPort v n with orders := (clearPort v n).orders.filter fun x => x.number != n } p stop why
    rw [heq]
    unfold State.findOrder
    rw [horders]
    exact findOrder_filter_self

theorem OthersStand.endOrder (s : State) (n : Nat) (why : OrderEnd) : OthersStand n s (endOrder s n why) := by
  cases h : s.findOrder n with
  | none =>
    unfold Machine.endOrder
    rw [h]
    exact refl s
  | some o =>
    obtain ⟨v, p, stop, hv, heq⟩ := endOrder_eq h why
    obtain ⟨-, hport, horders⟩ := reportOrder_keeps
      { clearPort v n with orders := (clearPort v n).orders.filter fun x => x.number != n } p stop why
    obtain ⟨-, hclear, hholder⟩ := clearPort_keeps v n
    refine ((OthersStand.voidSet s).trans (of_pagesOnly hv)).trans ?_
    rw [heq]
    refine ⟨fun m hm => ?_, by rw [hport]; exact hholder⟩
    unfold coreOrder State.findOrder
    rw [horders]
    refine congrArg (Option.map Order.core) ((findOrder_filter_ne (s := clearPort v n) hm).trans ?_)
    unfold State.findOrder
    rw [hclear]

/-- An order without a set in progress ends without a count. -/
theorem endOrder_ret {s : State} {n : Nat} (h : ∀ o, s.findOrder n = some o → o.inProgress = false) (why : OrderEnd) :
    (endOrder s n why).ret = s.ret := by
  cases hf : s.findOrder n with
  | none =>
    unfold endOrder
    rw [hf]
  | some o =>
    obtain ⟨v, p, stop, hv, heq⟩ := endOrder_eq hf why
    rw [heq, (reportOrder_keeps _ p stop why).1]
    rw [voidSet_eq_self h] at hv
    exact (clearPort_keeps v n).1.trans hv.ret

end Sys2Proof.Machine
end

section
/-! PROOFS. What a rectification's commit masks of the copy orders that wait for the port (R138, R139). -/

namespace Sys2Proof.Machine

/-! ### An order goes on, or ends -/

section
variable {s : State} {n : Nat} {o : Order}

theorem goOn_of_inHand {h : PageInHand} (hi : inHandOf s n = some h) : goOn s n = s := by
  unfold goOn
  rw [hi]
  cases s.findOrder n <;> rfl

theorem goOn_of_not_found (h : s.findOrder n = none) : goOn s n = s := by
  unfold goOn
  rw [h]

/-- With no page in hand a PLAIN set that is over passes to the next, and an order with nothing left ends. -/
theorem goOn_eq (h : s.findOrder n = some o) (hi : inHandOf s n = none) :
    (o.plainSetOver = false → goOn s n = if o.finished then endOrder s n .done else s) ∧
    (o.plainSetOver = true → goOn s n =
      if o.nextSet.finished then endOrder (s.modOrder n Order.nextSet) n .done else s.modOrder n Order.nextSet) := by
  unfold goOn
  rw [h, hi]
  dsimp only
  refine ⟨fun hover => ?_, fun hover => ?_⟩
  · simp only [hover, Bool.false_eq_true, if_false, h]
  · have hnext : (s.modOrder n Order.nextSet).findOrder n = some o.nextSet := by
      rw [findOrder_modOrder_self (f := Order.nextSet) fun _ => rfl, h]
      rfl
    simp only [hover, if_true, hnext]

/-- A finished order has no set in progress. -/
theorem inProgress_of_finished (h : o.finished = true) : o.inProgress = false := by
  unfold Order.finished at h
  unfold Order.inProgress
  simp only [Bool.and_eq_true, Bool.not_eq_true'] at h
  obtain ⟨⟨-, hstarted⟩, -⟩ := h
  rw [hstarted, Bool.and_false, Bool.false_and]

theorem endOrder_ret_of_finished (h : s.findOrder n = some o) (hf : o.finished = true) (why : OrderEnd) :
    (endOrder s n why).ret = s.ret :=
  endOrder_ret (fun p hp => by
    rw [h] at hp
    cases hp
    exact inProgress_of_finished hf) why

/-- How the order goes on, in one case split: from the state itself or from that with the next set, and it may end. -/
theorem goOn_cases (s : State) (n : Nat) :
    ∃ u, (u = s ∨ u = s.modOrder n Order.nextSet) ∧
      (goOn s n = u ∨ ∃ o, u.findOrder n = some o ∧ o.finished = true ∧ goOn s n = endOrder u n .done) := by
  cases h : s.findOrder n with
  | none => exact ⟨s, .inl rfl, .inl (goOn_of_not_found h)⟩
  | some o =>
    cases hi : inHandOf s n with
    | some p => exact ⟨s, .inl rfl, .inl (goOn_of_inHand hi)⟩
    | none =>
      obtain ⟨hsame, hnext⟩ := goOn_eq h hi
      cases hover : o.plainSetOver with
      | false =>
        refine ⟨s, .inl rfl, ?_⟩
        rw [hsame hover]
        split
        · next hf => exact .inr ⟨o, h, hf, rfl⟩
        · exact .inl rfl
      | true =>
        refine ⟨_, .inr rfl, ?_⟩
        rw [hnext hover]
        split
        · next hf =>
          refine .inr ⟨o.nextSet, ?_, hf, rfl⟩
          rw [findOrder_modOrder_self (f := Order.nextSet) fun _ => rfl, h]
          rfl
        · exact .inl rfl

theorem goOn_ret (s : State) (n : Nat) : (goOn s n).ret = s.ret := by
  obtain ⟨u, hu, hgo⟩ := goOn_cases s n
  have hret : u.ret = s.ret := by rcases hu with rfl | rfl <;> rfl
  rcases hgo with hgo | ⟨o, ho, hf, hgo⟩ <;> rw [hgo]
  · exact hret
  · exact (endOrder_ret_of_finished ho hf .done).trans hret

theorem OthersStand.goOn (s : State) (n : Nat) : OthersStand n s (goOn s n) := by
  obtain ⟨u, hu, hgo⟩ := goOn_cases s n
  have hstand : OthersStand n s u := by
    rcases hu with hu | hu <;> rw [hu]
    · exact refl s
    · exact OthersStand.modOrder s (f := Order.nextSet) fun _ => rfl
  rcases hgo with hgo | ⟨o, -, -, hgo⟩ <;> rw [hgo]
  · exact hstand
  · exact hstand.trans (OthersStand.endOrder u n .done)

end

/-! ### The re-masking of one order -/

/-- A selection without the newly withheld pages. -/
abbrev withoutNewly (newly l : List Nat) : List Nat := l.filter fun p => !newly.contains p

/-- An order that waits for the port, cut to a selection: its hold falls to what is left (R139). -/
def Order.queuedCut (o : Order) (sel : List Nat) : Order :=
  { o with selection := sel, hold := if o.payer = 0 then 0 else o.sets * (sel.length * o.rate + o.certFee) }

section
variable {s : State} {n : Nat} {o : Order} {newly : List Nat}

theorem remaskQueued_eq (s : State) (o : Order) (newly : List Nat) :
    remaskQueued s o newly =
      if withoutNewly newly o.selection = [] then
        endOrder (s.modOrder o.number fun x => x.queuedCut (withoutNewly newly o.selection)) o.number .done
      else s.modOrder o.number fun x => x.queuedCut (withoutNewly newly o.selection) := rfl

theorem OthersStand.remaskQueued (s : State) (o : Order) (newly : List Nat) : OthersStand o.number s (remaskQueued s o newly) := by
  have hcut : OthersStand o.number s (s.modOrder o.number fun x => x.queuedCut (withoutNewly newly o.selection)) :=
    OthersStand.modOrder s (f := fun x => x.queuedCut (withoutNewly newly o.selection)) fun _ => rfl
  rw [remaskQueued_eq]
  split
  · exact hcut.trans (OthersStand.endOrder _ _ .done)
  · exact hcut

theorem findOrder_remaskQueued (h : s.findOrder o.number = some o) :
    (withoutNewly newly o.selection = [] → (remaskQueued s o newly).findOrder o.number = none) ∧
    (withoutNewly newly o.selection ≠ [] →
      (remaskQueued s o newly).findOrder o.number = some (o.queuedCut (withoutNewly newly o.selection))) := by
  rw [remaskQueued_eq]
  refine ⟨fun hsel => ?_, fun hsel => ?_⟩
  · rw [if_pos hsel]
    exact findOrder_endOrder _ _ _
  · rw [if_neg hsel, findOrder_modOrder_self (f := fun x => x.queuedCut (withoutNewly newly o.selection)) fun _ => rfl, h]
    rfl

theorem OthersStand.dropNewly (s : State) (n : Nat) (newly : List Nat) : OthersStand n s (dropNewly s n newly) :=
  of_pagesOnly (PagesOnly.dropCopyPages s n _)

/-- The page in hand is not sent again where its set is voided or its page is withheld (R140, R141). -/
def PageInHand.barred (h : PageInHand) (n : Nat) (voids : Bool) (newly : List Nat) : PageInHand :=
  if h.order = n ∧ h.kind = .data ∧ (voids ∨ newly.contains h.page) then { h with noRetry := true } else h

/-- The holder's set in progress is voided by the loss of a page: its STAMP page has not been sent (R141). -/
def voidsHolder (s : State) (o : Order) : Bool := o.inProgress && !stampSent s o

/-- The holder without what it has read of the newly withheld pages. -/
def holderCleared (s : State) (o : Order) (newly : List Nat) : State :=
  let v := renameWaitingCopy s o fun c => c.pageList.any fun p => newly.contains p
  dropNewly (if voidsHolder s o then voidSet v o.number else v) o.number newly

/-- The holder's selection, its pages to send and its page owed a second attempt without the newly withheld pages. -/
def Order.masked (o : Order) (newly : List Nat) : Order :=
  { o with
    selection := withoutNewly newly o.selection
    toSend := withoutNewly newly o.toSend
    retry := if o.retry.any fun p => newly.contains p then none else o.retry }

/-- The hold set to what is left to print. -/
def Order.heldFor (o : Order) (atPrinter stamp : Bool) : Order := o.withHold (o.holderHold atPrinter (stamp || o.stampRetry))

/-- The holder without the newly withheld pages, and its page in hand barred. -/
def holderStripped (s : State) (o : Order) (newly : List Nat) : State :=
  ((holderCleared s o newly).modOrder o.number fun x => x.masked newly).modPort fun p =>
    { p with inHand := p.inHand.map fun h => h.barred o.number (voidsHolder s o) newly }

/-- The port's holder re-masked, before it goes on. -/
def holderMasked (s : State) (o : Order) (newly : List Nat) : State :=
  let v := holderStripped s o newly
  v.modOrder o.number fun x => x.heldFor ((inHandOf v o.number).any fun h => h.kind == .data) (stampInHand v x.number)

theorem remaskHolder_of_kept (h : (o.cert && !o.selection.any fun p => newly.contains p) = true) : remaskHolder s o newly = s :=
  if_pos h

theorem remaskHolder_eq (h : (o.cert && !o.selection.any fun p => newly.contains p) = false) :
    remaskHolder s o newly = goOn (holderMasked s o newly) o.number := by
  unfold remaskHolder
  rw [h]
  rfl

theorem OthersStand.holderCleared (s : State) (o : Order) (newly : List Nat) :
    OthersStand o.number s (holderCleared s o newly) := by
  unfold Machine.holderCleared
  dsimp only
  refine OthersStand.trans ?_ (OthersStand.dropNewly _ _ _)
  have hrename : OthersStand o.number s (renameWaitingCopy s o fun c => c.pageList.any fun p => newly.contains p) :=
    of_pagesOnly (PagesOnly.renameWaitingCopy s o _)
  split
  · exact hrename.trans (OthersStand.voidSet _)
  · exact hrename

theorem OthersStand.remaskHolder (s : State) (o : Order) (newly : List Nat) : OthersStand o.number s (remaskHolder s o newly) := by
  cases h : o.cert && !o.selection.any fun p => newly.contains p with
  | true =>
    rw [remaskHolder_of_kept h]
    exact refl s
  | false =>
    rw [remaskHolder_eq h]
    refine OthersStand.trans ?_ (OthersStand.goOn _ _)
    refine (OthersStand.holderCleared s o newly).trans ((OthersStand.modOrder _ (f := fun x => x.masked newly) fun _ => rfl).trans ?_)
    exact ⟨fun m hm => coreOrder_modOrder_ne (fun _ => rfl) hm, .inl rfl⟩

/-! ### The orders of the target, one after another -/

/-- The re-masking of one order of the target, as it then stands. -/
def remaskOrder (newly : List Nat) (s : State) (o0 : Order) : State :=
  match s.findOrder o0.number with
  | some o => if holdsPort s o.number then remaskHolder s o newly else remaskQueued s o newly
  | none => s

theorem remaskOrders_eq_foldl (s : State) (target : Nat) (newly : List Nat) :
    remaskOrders s target newly = (s.orders.filter fun o => o.doc == target).foldl (remaskOrder newly) s := rfl

theorem OthersStand.remaskOrder (s : State) (o : Order) : OthersStand o.number s (remaskOrder newly s o) := by
  unfold Machine.remaskOrder
  split
  · next p hp =>
    rw [← number_of_findOrder hp]
    split
    · exact OthersStand.remaskHolder s p newly
    · exact OthersStand.remaskQueued s p newly
  · exact refl s

theorem holdsPort_eq_false (h : s.port.holder ≠ some n) : holdsPort s n = false := by simpa [holdsPort] using h

theorem holdsPort_eq_true (h : s.port.holder = some n) : holdsPort s n = true := by simp [holdsPort, h]

theorem remaskOrder_of_queued (h : s.findOrder o.number = some o) (hp : s.port.holder ≠ some o.number) :
    remaskOrder newly s o = remaskQueued s o newly := by
  unfold remaskOrder
  rw [h]
  dsimp only
  rw [holdsPort_eq_false hp]
  rfl

theorem remaskOrder_of_holder (h : s.findOrder o.number = some o) (hp : s.port.holder = some o.number) :
    remaskOrder newly s o = remaskHolder s o newly := by
  unfold remaskOrder
  rw [h]
  dsimp only
  rw [holdsPort_eq_true hp]
  rfl

/-- An order that is not among those re-masked stands. -/
theorem remaskOrder_foldl_stands {l : List Order} (h : ∀ x ∈ l, x.number ≠ n) (s : State) :
    coreOrder (l.foldl (remaskOrder newly) s) n = coreOrder s n ∧
      (s.port.holder ≠ some n → (l.foldl (remaskOrder newly) s).port.holder ≠ some n) := by
  induction l generalizing s with
  | nil => exact ⟨rfl, id⟩
  | cons x xs ih =>
    have hstep : OthersStand x.number s (remaskOrder newly s x) := OthersStand.remaskOrder s x
    obtain ⟨horder, hholder⟩ := ih (fun y hy => h y (.tail _ hy)) (remaskOrder newly s x)
    exact ⟨horder.trans (hstep.orders n (Ne.symm (h x (.head _)))), fun hp => hholder (hstep.not_holder hp)⟩

theorem findOrder_of_mem (h : (s.orders.map Order.number).Nodup) (ho : o ∈ s.orders) : s.findOrder o.number = some o :=
  find?_key_of_mem h ho

/-- In a list of different keys the entries before one and those after it have other keys. -/
theorem key_ne_of_nodup_split {α β : Type} {key : α → β} {pre post : List α} {x : α} (h : ((pre ++ x :: post).map key).Nodup) :
    (∀ y ∈ pre, key y ≠ key x) ∧ ∀ y ∈ post, key y ≠ key x := by
  rw [List.map_append, List.map_cons] at h
  refine ⟨fun y hy he => ?_, fun y hy he => ?_⟩
  · exact List.disjoint_of_nodup_append h (List.mem_map_of_mem hy) (he ▸ List.mem_cons_self ..)
  · exact (List.nodup_cons.1 (List.nodup_append.1 h).2.1).1 (he ▸ List.mem_map_of_mem hy)

/-- An order of the target that waits for the port: its cut happens once, whatever the others of the target come to. -/
theorem findOrder_remaskOrders_queued {target : Nat} (hnodup : (s.orders.map Order.number).Nodup) (ho : o ∈ s.orders)
    (hdoc : o.doc = target) (hport : s.port.holder ≠ some o.number) :
    let sel := withoutNewly newly o.selection
    (sel = [] → (remaskOrders s target newly).findOrder o.number = none) ∧
    (sel ≠ [] → ∃ p, (remaskOrders s target newly).findOrder o.number = some p ∧ p.core = (o.queuedCut sel).core) := by
  intro sel
  have hmem : o ∈ s.orders.filter fun x => x.doc == target := List.mem_filter.2 ⟨ho, beq_iff_eq.2 hdoc⟩
  obtain ⟨pre, post, hsplit⟩ := List.append_of_mem hmem
  have hnum : ((pre ++ o :: post).map Order.number).Nodup := hsplit ▸ hnodup.sublist ((List.filter_sublist).map _)
  obtain ⟨hpre, hpost⟩ := key_ne_of_nodup_split hnum
  rw [remaskOrders_eq_foldl, hsplit, List.foldl_append, List.foldl_cons]
  obtain ⟨hbefore, hholder⟩ := remaskOrder_foldl_stands (newly := newly) hpre s
  obtain ⟨p, hp, hcore⟩ := findOrder_of_coreOrder (hbefore.trans (coreOrder_of_findOrder (findOrder_of_mem hnodup ho)))
  generalize pre.foldl (remaskOrder newly) s = u at hp hholder
  obtain ⟨hafter, -⟩ := remaskOrder_foldl_stands (newly := newly) hpost (remaskOrder newly u o)
  have hpn : p.number = o.number := (congrArg Order.number hcore :)
  have hpsel : withoutNewly newly p.selection = sel := (congrArg (fun x => withoutNewly newly (Order.selection x)) hcore :)
  have hstep : remaskOrder newly u o = remaskQueued u p newly := by
    rw [← remaskOrder_of_queued (hpn ▸ hp) (hpn ▸ hholder hport)]
    unfold remaskOrder
    rw [hpn]
  obtain ⟨hends, hcut⟩ := findOrder_remaskQueued (newly := newly) (hpn ▸ hp : u.findOrder p.number = some p)
  rw [hpsel] at hends hcut
  rw [hstep] at hafter
  refine ⟨fun hsel => findOrder_eq_none_of_coreOrder ?_, fun hsel => findOrder_of_coreOrder ?_⟩ <;> rw [hstep, hafter]
  · unfold coreOrder
    rw [← hpn, hends hsel]
    rfl
  · rw [← hpn, coreOrder_of_findOrder (hcut hsel), Order.eq_of_core hcore]
    rfl

end

theorem commitMasksQueuedOrders : CommitMasksQueuedOrders := by
  intro s target newly hnodup t
  refine ⟨fun o ho hdoc hport => ?_, fun o ho hdoc => ?_, fun o horders hdoc hport => ?_⟩
  · intro sel hold
    obtain ⟨hends, hcut⟩ := findOrder_remaskOrders_queued (newly := newly) hnodup ho hdoc hport
    refine ⟨hends, fun hsel => ?_⟩
    obtain ⟨p, hp, hcore⟩ := hcut hsel
    exact ⟨p, hp, Order.eq_of_core hcore⟩
  · have hother : ∀ x ∈ s.orders.filter (fun x => x.doc == target), x.number ≠ o.number := fun x hx he => by
      obtain ⟨hmem, hx⟩ := List.mem_filter.1 hx
      rw [List.inj_on_of_nodup_map hnodup hmem ho he] at hx
      exact hdoc (eq_of_beq hx)
    obtain ⟨hstands, -⟩ := remaskOrder_foldl_stands (newly := newly) hother s
    obtain ⟨p, hp, hcore⟩ := findOrder_of_coreOrder (hstands.trans (coreOrder_of_findOrder (findOrder_of_mem hnodup ho)))
    exact ⟨p, hp, Order.eq_of_core hcore⟩
  · intro sel hold u
    have hfind : s.findOrder o.number = some o := findOrder_of_mem hnodup (horders ▸ List.mem_singleton_self o)
    have ht : t = remaskQueued s o newly := by
      rw [← remaskOrder_of_queued hfind hport]
      show remaskOrders s target newly = _
      rw [remaskOrders_eq_foldl, horders, List.filter_cons_of_pos (by simp [hdoc])]
      rfl
    have hu : (s.modOrder o.number fun x => x.queuedCut sel) = u := by
      unfold State.modOrder
      rw [horders, List.map_singleton, if_pos rfl]
      rfl
    rw [ht, remaskQueued_eq, hu]
    exact ⟨fun hsel => if_neg hsel, fun hsel => if_pos hsel⟩

end Sys2Proof.Machine
end

section
/-! PROOFS. What a rectification's commit masks of the copy order that holds the port (R140, R141, R157, R160). -/

namespace Sys2Proof.Machine

/-! ### The page in hand -/

/-- A DATA page of the order is in hand. -/
def dataInHand (s : State) (n : Nat) : Bool := (inHandOf s n).any fun h => h.kind == .data

section
variable {s : State} {n : Nat}

theorem inHandOf_congr {t : State} (h : t.port = s.port) (n : Nat) : inHandOf t n = inHandOf s n := by
  unfold inHandOf
  rw [h]

theorem inHandOf_eq_some {h : PageInHand} : inHandOf s n = some h ↔ s.port.inHand = some h ∧ h.order = n := by
  unfold inHandOf
  cases s.port.inHand with
  | none => simp
  | some g =>
    by_cases hg : g.order = n
    · simp only [if_pos hg, Option.some.injEq]
      exact ⟨fun e => ⟨e, e ▸ hg⟩, fun e => e.1⟩
    · simp only [if_neg hg, reduceCtorEq, Option.some.injEq, false_iff]
      exact fun e => hg (e.1 ▸ e.2)

theorem inHandOf_eq_none : inHandOf s n = none ↔ ∀ h, s.port.inHand = some h → h.order ≠ n := by
  rw [Option.eq_none_iff_forall_ne_some]
  exact ⟨fun hno h hh hn => hno h (inHandOf_eq_some.2 ⟨hh, hn⟩), fun hno h hh => hno h (inHandOf_eq_some.1 hh).1 (inHandOf_eq_some.1 hh).2⟩

theorem dataInHand_iff : dataInHand s n = true ↔ ∃ h ∈ s.port.inHand, h.order = n ∧ h.kind = .data := by
  simp only [dataInHand, Option.any_eq_true, inHandOf_eq_some, beq_iff_eq, Option.mem_def, and_assoc]

theorem stampInHand_iff : stampInHand s n = true ↔ ∃ h, s.port.inHand = some h ∧ h.order = n ∧ h.kind = .stamp := by
  have hany : stampInHand s n = (inHandOf s n).any fun h => h.kind == .stamp := by
    unfold stampInHand
    cases inHandOf s n <;> rfl
  simp only [hany, Option.any_eq_true, inHandOf_eq_some, beq_iff_eq, and_assoc]

theorem barred_order (h : PageInHand) (n : Nat) (voids : Bool) (newly : List Nat) :
    (h.barred n voids newly).order = h.order ∧ (h.barred n voids newly).kind = h.kind := by
  unfold PageInHand.barred
  split <;> exact ⟨rfl, rfl⟩

/-- Barring the page in hand from a second attempt changes neither its order nor its kind. -/
theorem inHandOf_barred (s : State) (n m : Nat) (voids : Bool) (newly : List Nat) :
    inHandOf (s.modPort fun p => { p with inHand := p.inHand.map fun h => h.barred n voids newly }) m =
      (inHandOf s m).map fun h => h.barred n voids newly := by
  unfold inHandOf State.modPort
  dsimp only
  cases s.port.inHand with
  | none => rfl
  | some h =>
    simp only [Option.map_some, (barred_order h n voids newly).1]
    split <;> rfl

end

/-! ### The holder re-masked -/

section
variable {s : State} {o : Order} {newly : List Nat}

/-- A set in progress voided, or the order as it was. -/
def Order.voidedIf (o : Order) (voids : Bool) : Order := if voids then o.voided else o

theorem inProgress_of_core {p : Order} (h : p.core = o.core) : p.inProgress = o.inProgress :=
  (congrArg Order.inProgress h :)

/-- Of the newly withheld pages a page list holds the page in hand only. -/
def OnlyInHand (s : State) (n : Nat) (newly : List Nat) (pages : List CopyPage) : Prop :=
  ∀ q ∈ pages, q.page ∈ newly → ∃ h, inHandOf s n = some h ∧ h.kind = .data ∧ h.page = q.page ∧ h.set = q.set

/-- The holder's order, the port and the Retained Store when its newly withheld pages are dropped. -/
theorem holderCleared_spec (h : s.findOrder o.number = some o) :
    let v := holderCleared s o newly
    v.port = s.port ∧
    (voidsHolder s o = true →
      v.ret = { s.ret with counts := { s.ret.counts with voidedSets := s.ret.counts.voidedSets + 1 } }) ∧
    (voidsHolder s o = false → v.ret = s.ret) ∧
    ∃ p, v.findOrder o.number = some p ∧ p.core = (o.voidedIf (voidsHolder s o)).core ∧
      OnlyInHand s o.number newly p.pages := by
  let u := renameWaitingCopy s o fun c => c.pageList.any fun p => newly.contains p
  let w := if voidsHolder s o then voidSet u o.number else u
  have hu : PagesOnly s u := PagesOnly.renameWaitingCopy s o _
  obtain ⟨p, hp, hcore⟩ := findOrder_of_coreOrder ((hu.core o.number).trans (coreOrder_of_findOrder h))
  have hw : w.port = s.port ∧
      (voidsHolder s o = true →
        w.ret = { s.ret with counts := { s.ret.counts with voidedSets := s.ret.counts.voidedSets + 1 } }) ∧
      (voidsHolder s o = false → w.ret = s.ret) ∧ coreOrder w o.number = some (o.voidedIf (voidsHolder s o)).core := by
    cases hv : voidsHolder s o with
    | false =>
      have hwu : w = u := if_neg (by rw [hv]; exact Bool.false_ne_true)
      rw [hwu]
      exact ⟨hu.port, nofun, fun _ => hu.ret, (hu.core o.number).trans (coreOrder_of_findOrder h)⟩
    | true =>
      have hwu : w = voidSet u o.number := if_pos hv
      have hprogress : o.inProgress = true := by
        unfold voidsHolder at hv
        exact (Bool.and_eq_true_iff.1 hv).1
      obtain ⟨hvoided, hret⟩ := voidSet_inProgress hp ((inProgress_of_core hcore).trans hprogress)
      rw [hwu]
      refine ⟨(voidSet_port u _).trans hu.port, fun _ => hret.trans (by rw [hu.ret]), nofun, hvoided.trans ?_⟩
      rw [Order.eq_of_core hcore]
      rfl
  obtain ⟨hport, hcounted, hret, hcoreW⟩ := hw
  obtain ⟨p', hp', hcore'⟩ := findOrder_of_coreOrder hcoreW
  have hdrop : PagesOnly w (holderCleared s o newly) := PagesOnly.dropCopyPages w o.number _
  refine ⟨hdrop.port.trans hport, fun hv => hdrop.ret.trans (hcounted hv), fun hv => hdrop.ret.trans (hret hv), _,
    findOrder_dropCopyPages hp' _, hcore', fun q hq hnew => ?_⟩
  obtain ⟨-, hkeep⟩ := List.mem_filter.1 hq
  rw [inHandOf_congr hport] at hkeep
  simpa [hnew, Option.any_eq_true, and_assoc] using hkeep

theorem holderStripped_port (h : s.findOrder o.number = some o) : (holderStripped s o newly).port =
    { s.port with inHand := s.port.inHand.map fun h => h.barred o.number (voidsHolder s o) newly } := by
  obtain ⟨hport, -⟩ := holderCleared_spec (newly := newly) h
  unfold holderStripped State.modPort
  dsimp only
  rw [State.modOrder_port, hport]

theorem inHandOf_holderStripped (h : s.findOrder o.number = some o) (m : Nat) :
    inHandOf (holderStripped s o newly) m = (inHandOf s m).map fun h => h.barred o.number (voidsHolder s o) newly := by
  obtain ⟨hport, -⟩ := holderCleared_spec (newly := newly) h
  unfold holderStripped
  rw [inHandOf_barred, inHandOf_congr (s := s) ((State.modOrder_port _ _ _).trans hport)]

theorem dataInHand_holderStripped (h : s.findOrder o.number = some o) (m : Nat) :
    dataInHand (holderStripped s o newly) m = dataInHand s m := by
  unfold dataInHand
  rw [inHandOf_holderStripped h]
  cases inHandOf s m with
  | none => rfl
  | some g => simp only [Option.map_some, Option.any_some, (barred_order g _ _ _).2]

theorem stampInHand_holderStripped (h : s.findOrder o.number = some o) (m : Nat) :
    stampInHand (holderStripped s o newly) m = stampInHand s m := by
  unfold stampInHand
  rw [inHandOf_holderStripped h]
  cases inHandOf s m with
  | none => rfl
  | some g => simp only [Option.map_some, (barred_order g _ _ _).2]

theorem holderMasked_eq (h : s.findOrder o.number = some o) :
    holderMasked s o newly =
      (holderStripped s o newly).modOrder o.number fun x => x.heldFor (dataInHand s o.number) (stampInHand s x.number) := by
  rw [← dataInHand_holderStripped (newly := newly) h]
  simp only [← stampInHand_holderStripped (newly := newly) h]
  rfl

theorem holderMasked_port (h : s.findOrder o.number = some o) : (holderMasked s o newly).port =
    { s.port with inHand := s.port.inHand.map fun h => h.barred o.number (voidsHolder s o) newly } :=
  holderStripped_port h

theorem holderMasked_ret_eq (s : State) (o : Order) (newly : List Nat) :
    (holderMasked s o newly).ret = (holderCleared s o newly).ret := by
  unfold holderMasked holderStripped
  rw [State.modOrder_ret, State.modPort_ret, State.modOrder_ret]

theorem holderMasked_ret (h : s.findOrder o.number = some o) :
    (voidsHolder s o = true → (holderMasked s o newly).ret =
      { s.ret with counts := { s.ret.counts with voidedSets := s.ret.counts.voidedSets + 1 } }) ∧
    (voidsHolder s o = false → (holderMasked s o newly).ret = s.ret) := by
  obtain ⟨-, hcounted, hret, -⟩ := holderCleared_spec (newly := newly) h
  rw [holderMasked_ret_eq]
  exact ⟨hcounted, hret⟩

theorem heldFor_number (o : Order) (data stamp : Bool) : (o.heldFor data stamp).number = o.number := rfl

/-- The order that holds the port as the re-masking leaves it, before it goes on. -/
theorem findOrder_holderMasked (h : s.findOrder o.number = some o) :
    ∃ p : Order, p.core = (o.voidedIf (voidsHolder s o)).core ∧ OnlyInHand s o.number newly p.pages ∧
      (holderMasked s o newly).findOrder o.number =
        some ((p.masked newly).heldFor (dataInHand s o.number) (stampInHand s o.number)) := by
  obtain ⟨-, -, -, p, hp, hcore, hpages⟩ := holderCleared_spec (newly := newly) h
  have hmod : ((holderCleared s o newly).modOrder o.number fun x => x.masked newly).findOrder o.number = some (p.masked newly) := by
    rw [findOrder_modOrder_self (f := fun x => x.masked newly) fun _ => rfl, hp, Option.map_some]
  have hstripped : (holderStripped s o newly).findOrder o.number = some (p.masked newly) := hmod
  have hheld := findOrder_modOrder_self (s := holderStripped s o newly) (n := o.number)
    (f := fun x => x.heldFor (dataInHand s o.number) (stampInHand s x.number)) fun x => heldFor_number x _ _
  rw [hstripped, Option.map_some, number_of_findOrder hstripped] at hheld
  exact ⟨p, hcore, hpages, by rw [holderMasked_eq h, hheld]⟩

end

/-! ### The masked order, field by field -/

/-- What R140, R141 and R157 ask of the holder's order when it has been masked. -/
def MaskedHolder (s : State) (newly : List Nat) (o p : Order) : Prop :=
  let sel := o.selection.filter fun p => !newly.contains p
  let stampOut := o.stampRetry = true ∨ ∃ h, s.port.inHand = some h ∧ h.order = o.number ∧ h.kind = .stamp
  let setsLeft := if o.setStarted then o.sets - o.curSet else o.sets + 1 - o.curSet
  let later := setsLeft * (sel.length * o.rate + o.certFee)
  let account := fun (n : Nat) => if o.payer = 0 then 0 else n
  let voids := o.cert = true ∧ o.setStarted = true ∧ o.voidOwed = false ∧ ¬stampOut
  p.selection = sel ∧
    (voids → p.toSend = [] ∧ p.retry = none ∧ p.pendingCharge = 0 ∧ p.voidOwed = true ∧ p.setsVoided = o.setsVoided + 1 ∧
      p.hold = account later) ∧
    (¬voids → p.toSend = (o.toSend.filter fun q => !newly.contains q) ∧
      p.retry = (if ∃ q ∈ o.retry, q ∈ newly then none else o.retry) ∧ p.pendingCharge = o.pendingCharge ∧
      p.voidOwed = o.voidOwed ∧ p.setsVoided = o.setsVoided ∧
      (o.cert = true → stampOut → o.voidOwed = false → p.hold = account (later + (o.pendingCharge + o.certFee))) ∧
      (o.cert = true → ¬stampOut ∨ o.voidOwed = true → p.hold = account later)) ∧
    (o.cert = false → ∀ atPrinter : Nat,
      atPrinter = (if (∃ h ∈ s.port.inHand, h.order = o.number ∧ h.kind = .data) then 1 else 0) →
      p.hold = account (later + o.rate * ((if o.setStarted then p.toSend.length else 0) +
        (if p.retry.isSome then 1 else 0) + atPrinter)))

section
variable {s : State} {o : Order}

theorem stampSent_iff :
    stampSent s o = true ↔ o.stampRetry = true ∨ ∃ h, s.port.inHand = some h ∧ h.order = o.number ∧ h.kind = .stamp := by
  rw [stampSent, Bool.or_eq_true, stampInHand_iff, or_comm]

theorem voidsHolder_iff :
    voidsHolder s o = true ↔ o.cert = true ∧ o.setStarted = true ∧ o.voidOwed = false ∧
      ¬(o.stampRetry = true ∨ ∃ h, s.port.inHand = some h ∧ h.order = o.number ∧ h.kind = .stamp) := by
  rw [← stampSent_iff]
  simp only [voidsHolder, Order.inProgress, Bool.and_eq_true, Bool.not_eq_true', Bool.not_eq_true, and_assoc]

/-- The hold a certified holder falls to: the sets to come, and with its STAMP page out the set in progress too. -/
theorem hold_heldFor_cert {x : Order} (h : x.cert = true) (data stamp : Bool) :
    (x.heldFor data stamp).hold = if x.payer = 0 then 0 else x.setsLeft * (x.selection.length * x.rate + x.certFee) +
      if (stamp || x.stampRetry) && !x.voidOwed then x.pendingCharge + x.certFee else 0 := by
  unfold Order.heldFor Order.withHold Order.holderHold holdFor
  rw [h]
  rfl

theorem hold_heldFor_plain {x : Order} (h : x.cert = false) (data stamp : Bool) :
    (x.heldFor data stamp).hold = if x.payer = 0 then 0 else x.setsLeft * (x.selection.length * x.rate + x.certFee) +
      x.rate * ((if x.setStarted then x.toSend.length else 0) + (if x.retry.isSome then 1 else 0) + if data then 1 else 0) := by
  unfold Order.heldFor Order.withHold Order.holderHold holdFor
  rw [h]
  rfl

/-- A certified holder's hold where its STAMP page is not out, or a VOID page is owed: the sets to come (R141). -/
theorem hold_heldFor_cert_of_no_stamp {x : Order} (h : x.cert = true) {data stamp : Bool}
    (hs : ((stamp || x.stampRetry) && !x.voidOwed) = false) :
    (x.heldFor data stamp).hold = if x.payer = 0 then 0 else x.setsLeft * (x.selection.length * x.rate + x.certFee) := by
  rw [hold_heldFor_cert h, hs]
  rfl

theorem hold_heldFor_cert_of_stamp {x : Order} (h : x.cert = true) {data stamp : Bool}
    (hs : ((stamp || x.stampRetry) && !x.voidOwed) = true) :
    (x.heldFor data stamp).hold = if x.payer = 0 then 0 else
      x.setsLeft * (x.selection.length * x.rate + x.certFee) + (x.pendingCharge + x.certFee) := by
  rw [hold_heldFor_cert h, hs]
  rfl

variable {newly : List Nat}

theorem any_contains_iff (r : Option Nat) : (r.any fun p => newly.contains p) = true ↔ ∃ q ∈ r, q ∈ newly := by
  simp [Option.any_eq_true]

/-- An order with another page list, its reading going on from another point. -/
def Order.readTo (o : Order) (pages : List CopyPage) (set page : Nat) : Order :=
  { o with pages := pages, readSet := set, readPage := page }

theorem Order.eq_readTo_of_core {p : Order} (h : p.core = o.core) : p = o.readTo p.pages p.readSet p.readPage :=
  Order.eq_of_core h

/-- A holder whose set in progress is voided. -/
theorem maskedHolder_of_voids (hv : voidsHolder s o = true) (pages : List CopyPage) (set page : Nat) (data stamp : Bool) :
    MaskedHolder s newly o (((o.voided.readTo pages set page).masked newly).heldFor data stamp) := by
  have hvoids := voidsHolder_iff.1 hv
  have hcert : o.cert = true := hvoids.1
  exact ⟨rfl, fun _ => ⟨rfl, rfl, rfl, rfl, rfl,
    hold_heldFor_cert_of_no_stamp (x := (o.voided.readTo pages set page).masked newly) hcert (Bool.and_false _)⟩,
    fun hno => absurd hvoids hno, fun hplain => absurd (hcert.symm.trans hplain) nofun⟩

/-- A holder that goes on with its set. -/
theorem maskedHolder_of_no_void (hv : voidsHolder s o = false) (pages : List CopyPage) (set page : Nat) :
    MaskedHolder s newly o (((o.readTo pages set page).masked newly).heldFor
      (dataInHand s o.number) (stampInHand s o.number)) := by
  have hvoids := voidsHolder_iff.not.1 (Bool.not_eq_true _ ▸ hv)
  have hsent : (stampInHand s o.number || o.stampRetry) = stampSent s o := rfl
  refine ⟨rfl, fun h => absurd h hvoids, fun _ => ⟨rfl, ?_, rfl, rfl, rfl, fun hcert hst hvo => ?_, fun hcert hst => ?_⟩,
    fun hplain k hk => ?_⟩
  · exact if_congr (any_contains_iff o.retry) rfl rfl
  · refine hold_heldFor_cert_of_stamp (x := (o.readTo pages set page).masked newly) hcert ?_
    show ((stampInHand s o.number || o.stampRetry) && !o.voidOwed) = true
    rw [hsent, stampSent_iff.2 hst, hvo]
    rfl
  · refine hold_heldFor_cert_of_no_stamp (x := (o.readTo pages set page).masked newly) hcert ?_
    show ((stampInHand s o.number || o.stampRetry) && !o.voidOwed) = false
    rw [hsent]
    rcases hst with hst | hvo
    · rw [Bool.eq_false_iff.2 (stampSent_iff.not.2 hst)]
      rfl
    · rw [hvo]
      exact Bool.and_false _
  · refine (hold_heldFor_plain (x := (o.readTo pages set page).masked newly) hplain _ _).trans ?_
    rw [hk, if_congr dataInHand_iff rfl rfl]
    rfl

theorem maskedHolder {p : Order} (hcore : p.core = (o.voidedIf (voidsHolder s o)).core) :
    MaskedHolder s newly o ((p.masked newly).heldFor (dataInHand s o.number) (stampInHand s o.number)) := by
  rw [Order.eq_readTo_of_core hcore]
  cases hv : voidsHolder s o with
  | false => exact maskedHolder_of_no_void hv _ _ _
  | true => exact maskedHolder_of_voids hv _ _ _ _ _

/-- The holder's state, its place in the set and what it has been charged stay. -/
theorem masked_stays {p : Order} {voids : Bool} (hcore : p.core = (o.voidedIf voids).core) (data stamp : Bool) :
    let x := (p.masked newly).heldFor data stamp
    x.state = o.state ∧ x.curSet = o.curSet ∧ x.charged = o.charged ∧ x.amount = o.amount ∧ x.pages = p.pages := by
  rw [Order.eq_readTo_of_core hcore]
  cases voids <;> exact ⟨rfl, rfl, rfl, rfl, rfl⟩

/-- The re-masking of the target's orders where the holder is the only one. -/
theorem remaskOrders_holder {target : Nat} (hfind : s.findOrder o.number = some o)
    (hfilter : (s.orders.filter fun x => x.doc == target) = [o]) (hport : s.port.holder = some o.number) :
    remaskOrders s target newly = remaskHolder s o newly := by
  rw [remaskOrders_eq_foldl, hfilter]
  exact remaskOrder_of_holder hfind hport

theorem kept_iff :
    (o.cert && !o.selection.any fun p => newly.contains p) = true ↔ o.cert = true ∧ ¬∃ p ∈ o.selection, p ∈ newly := by
  simp

theorem barred_of_data {h : PageInHand} {n : Nat} {voids : Bool} (hn : h.order = n) (hk : h.kind = .data)
    (hv : voids = true ∨ h.page ∈ newly) : h.barred n voids newly = { h with noRetry := true } :=
  if_pos ⟨hn, hk, hv.imp_right List.contains_iff_mem.2⟩

theorem barred_eq_self {h : PageInHand} {n : Nat} {voids : Bool}
    (hno : h.order ≠ n ∨ h.kind ≠ .data ∨ (voids = false ∧ h.page ∉ newly)) : h.barred n voids newly = h := by
  refine if_neg ?_
  rintro ⟨hn, hk, hv⟩
  rcases hno with hno | hno | ⟨hv', hpage⟩
  · exact hno hn
  · exact hno hk
  · rcases hv with hv | hv
    · exact absurd (hv.symm.trans hv') nofun
    · exact hpage (List.contains_iff_mem.1 hv)

end

theorem commitMasksTheHolder : CommitMasksTheHolder := by
  intro s target newly o hnodup hfind hfilter hport t loses
  have ht : t = remaskHolder s o newly := remaskOrders_holder hfind hfilter hport
  refine ⟨fun hcert hno => ht.trans (remaskHolder_of_kept (kept_iff.2 ⟨hcert, hno⟩)), fun hmasks => ?_⟩
  intro sel stampOut setsLeft later account voids masked
  have hgo : t = goOn (holderMasked s o newly) o.number := by
    refine ht.trans (remaskHolder_eq (Bool.eq_false_iff.2 (kept_iff.not.2 ?_)))
    rintro ⟨hcert, hno⟩
    rcases hmasks with hplain | hloses
    · exact absurd (hcert.symm.trans hplain) nofun
    · exact hno hloses
  have hret : t.ret = (holderMasked s o newly).ret := hgo ▸ goOn_ret _ _
  obtain ⟨hcounted, hsame⟩ := holderMasked_ret (newly := newly) hfind
  have hvoids : voidsHolder s o = true ↔ voids := voidsHolder_iff
  have hnovoids : voidsHolder s o = false ↔ ¬voids := by rw [← hvoids, Bool.not_eq_true]
  have hu := holderMasked_port (newly := newly) hfind
  obtain ⟨p, hcore, hpages, hfindU⟩ := findOrder_holderMasked (newly := newly) hfind
  have hmask : masked ((p.masked newly).heldFor (dataInHand s o.number) (stampInHand s o.number)) := maskedHolder hcore
  obtain ⟨hstate, hset, hcharged, hamount, hpg⟩ := masked_stays (newly := newly) hcore (dataInHand s o.number) (stampInHand s o.number)
  generalize (p.masked newly).heldFor (dataInHand s o.number) (stampInHand s o.number) = x at *
  generalize holderMasked s o newly = u at *
  rw [← hpg] at hpages
  refine ⟨fun hv => hret.trans (hcounted (hvoids.2 hv)), fun hv => hret.trans (hsame (hnovoids.2 hv)), fun h hh hn => ?_, fun hno => ?_⟩
  · have hhand : u.port.inHand = some (h.barred o.number (voidsHolder s o) newly) := by rw [hu, hh]; rfl
    have hstays : t = u :=
      hgo.trans (goOn_of_inHand (inHandOf_eq_some.2 ⟨hhand, ((barred_order h _ _ _).1).trans hn⟩))
    rw [hstays]
    refine ⟨x, hfindU, hmask, hstate, hset, hcharged, hamount, fun q hq hnew => ?_, by rw [hu]; exact hport,
      fun hk hb => ?_, fun hk => ?_⟩
    · obtain ⟨g, hg, hkind, hpage, hset⟩ := hpages q hq hnew
      have hgh : g = h := Option.some.inj ((inHandOf_eq_some.1 hg).1.symm.trans hh)
      exact hgh ▸ ⟨hkind, hpage, hset⟩
    · exact hhand.trans (congrArg some (barred_of_data hn hk (hb.imp_left hvoids.2)))
    · exact hhand.trans (congrArg some (barred_eq_self (.inr (hk.imp_right fun ⟨hv, hpage⟩ => ⟨hnovoids.2 hv, hpage⟩))))
  · have hnone : inHandOf s o.number = none := inHandOf_eq_none.2 hno
    have hportU : u.port = s.port := by
      rw [hu]
      cases hh : s.port.inHand with
      | none => rw [Option.map_none, ← hh]
      | some h => rw [Option.map_some, barred_eq_self (.inl (hno h hh)), ← hh]
    obtain ⟨hplain, hover⟩ := goOn_eq hfindU ((inHandOf_congr hportU _).trans hnone)
    refine ⟨u, x, hfindU, hmask, hportU, hret.symm, fun q hq hnew => ?_, fun h1 h2 => ?_, fun h1 h2 => ?_, fun h1 h2 => ?_, fun h1 h2 => ?_⟩
    · obtain ⟨g, hg, -⟩ := hpages q hq hnew
      cases hnone.symm.trans hg
    · rw [hgo, hplain h1, h2]; rfl
    · rw [hgo, hplain h1, h2]; rfl
    · rw [hgo, hover h1, h2]; rfl
    · rw [hgo, hover h1, h2]; rfl

end Sys2Proof.Machine
end

section
/-! PROOFS. What a rectification's commit masks of the fetches (R103): the claims withdrawn first, then the pages withheld. -/

namespace Sys2Proof.Machine

/-! ### Claims withdrawn -/

/-- A page that was named to one of the claims `d` is unread again. -/
def FetchPage.unnamed (d : List Nat) (p : FetchPage) : FetchPage :=
  if p.outcome = .inBurst ∧ p.claim ∈ d then ⟨p.page, .unread, 0, []⟩ else p

theorem unnamed_page (d : List Nat) (p : FetchPage) : (p.unnamed d).page = p.page := by
  unfold FetchPage.unnamed
  split <;> rfl

theorem unnamed_of_named {d : List Nat} {p : FetchPage} (h : p.outcome = .inBurst) (hd : p.claim ∈ d) :
    p.unnamed d = ⟨p.page, .unread, 0, []⟩ := if_pos ⟨h, hd⟩

theorem unnamed_eq_self {d : List Nat} {p : FetchPage} (h : p.outcome = .inBurst → p.claim ∉ d) : p.unnamed d = p :=
  if_neg fun hp => h hp.1 hp.2

theorem unnamed_nil (p : FetchPage) : p.unnamed [] = p := unnamed_eq_self fun _ => List.not_mem_nil

/-- Pages unnamed for some claims and then for others. -/
theorem unnamed_unnamed (d e : List Nat) (p : FetchPage) : (p.unnamed d).unnamed e = p.unnamed (d ++ e) := by
  unfold FetchPage.unnamed
  by_cases h : p.outcome = .inBurst ∧ p.claim ∈ d
  · simp [h]
  · by_cases hi : p.outcome = .inBurst <;> simp_all

/-- A fetch whose pages named to the claims `d` are unread again, with its next page to read. -/
def Fetch.unnamed (d : List Nat) (next : Nat) (f : Fetch) : Fetch :=
  { f with pages := f.pages.map (FetchPage.unnamed d), nextRead := next }

theorem Fetch.unname_eq (f : Fetch) (c : Nat) : f.unname c = f.unnamed [c] (f.unname c).nextRead := by
  unfold Fetch.unname Fetch.unnamed
  dsimp only
  congr 1
  refine List.map_congr_left fun p _ => ?_
  unfold FetchPage.unnamed
  simp only [List.mem_singleton, and_comm]

/-- No item of this number waits for its claim. -/
def NotWaiting (s : State) (id : Nat) : Prop := ∀ i ∈ s.work, i.id = id → i.state ≠ .waitingStaging

/-- What the withdrawing of the claims `d` makes of a state, as far as re-masking sees it. -/
structure Renamed (s t : State) (d : List Nat) : Prop where
  claims : ∀ c, c ∈ t.claims ↔ c ∈ s.claims ∧ c.id ∉ d
  fetches : ∃ next : Fetch → Nat, t.fetches = s.fetches.map fun f => f.unnamed d (next f)
  work : ∀ id, NotWaiting s id → NotWaiting t id
  drives : t.drives = s.drives
  control : t.control = s.control
  ret : t.ret = s.ret

namespace Renamed

theorem unnamed_nil_self (f : Fetch) : f.unnamed [] f.nextRead = f := by
  unfold Fetch.unnamed
  rw [show FetchPage.unnamed [] = id from funext unnamed_nil, List.map_id]

theorem refl (s : State) : Renamed s s [] :=
  ⟨fun _ => by simp, ⟨Fetch.nextRead, by simp only [unnamed_nil_self, List.map_id']⟩, fun _ h => h, rfl, rfl, rfl⟩

theorem trans {a b c : State} {d e : List Nat} (h : Renamed a b d) (k : Renamed b c e) : Renamed a c (d ++ e) := by
  obtain ⟨m, hm⟩ := h.fetches
  obtain ⟨n, hn⟩ := k.fetches
  refine ⟨fun x => ?_, ⟨fun f => n (f.unnamed d (m f)), ?_⟩, fun id hw => k.work id (h.work id hw), k.drives.trans h.drives,
    k.control.trans h.control, k.ret.trans h.ret⟩
  · rw [k.claims, h.claims, List.mem_append, not_or, and_assoc]
  · rw [hn, hm, List.map_map]
    refine List.map_congr_left fun f _ => ?_
    simp only [Function.comp_apply, Fetch.unnamed, List.map_map]
    congr 1
    exact List.map_congr_left fun p _ => unnamed_unnamed d e p

theorem withdrawClaim (s : State) (c : Claim) : Renamed s (withdrawClaim s c) [c.id] := by
  refine ⟨fun x => ?_, ⟨fun f => (f.unname c.id).nextRead, ?_⟩, fun _ h => h, rfl, rfl, rfl⟩
  · show x ∈ (s.claims.filter fun e => e.id != c.id) ↔ _
    simp
  · exact List.map_congr_left fun f _ => Fetch.unname_eq f c.id

theorem foldl (cs : List Claim) (s : State) : Renamed s (cs.foldl Machine.withdrawClaim s) (cs.map Claim.id) := by
  induction cs generalizing s with
  | nil => exact refl s
  | cons c cs ih => exact (withdrawClaim s c).trans (ih _)

theorem modItem (s : State) (id : Nat) {f : Item → Item} (hid : ∀ i, (f i).id = i.id)
    (hf : ∀ i, (f i).state = .waitingStaging → i.state = .waitingStaging) : Renamed s (s.modItem id f) [] := by
  refine ⟨(refl s).claims, (refl s).fetches, fun k h i hi hk hw => ?_, rfl, rfl, rfl⟩
  obtain ⟨j, hj, hji⟩ := List.mem_map.1 hi
  by_cases hjid : j.id = id
  · rw [if_pos hjid] at hji
    subst hji
    exact h j hj ((hid j).symm.trans hk) (hf j hw)
  · rw [if_neg hjid] at hji
    subst hji
    exact h j hj hk hw

end Renamed

/-! ### The records of the target, one after another -/

/-- An item has a claim not begun for a newly withheld page (R103; where it is granted, log 67). -/
def NamesNewly (s : State) (newly : List Nat) (id : Nat) : Prop :=
  ∃ e ∈ s.claims, e.owner = .item id ∧ e.begun = false ∧ ∃ p ∈ e.pageList, p ∈ newly

/-- A claim not begun of such an item of one of the records. -/
def WithdrawnFor (s : State) (newly : List Nat) (fs : List Fetch) (c : Claim) : Prop :=
  c.begun = false ∧ ∃ f ∈ fs, ∃ id, f.item = some id ∧ c.owner = .item id ∧ NamesNewly s newly id

theorem namesNewly_iff (s : State) (newly : List Nat) (id : Nat) :
    (s.claims.any fun c => c.owner == .item id && !c.begun && c.pageList.any fun p => newly.contains p) = true ↔
      NamesNewly s newly id := by
  simp [NamesNewly, and_assoc]

section
variable {s : State} {newly : List Nat}

/-- The item whose burst is named afresh. -/
def assignedAnew (i : Item) : Item := if i.state = .waitingStaging then { i with state := .assigned } else i

theorem assignedAnew_keeps (i : Item) : (assignedAnew i).id = i.id ∧ (assignedAnew i).state ≠ .waitingStaging := by
  unfold assignedAnew
  split
  · exact ⟨rfl, nofun⟩
  · next h => exact ⟨rfl, h⟩

theorem notWaiting_assignedAnew (s : State) (id : Nat) : NotWaiting (s.modItem id assignedAnew) id := by
  intro i hi hid
  obtain ⟨j, hj, hji⟩ := List.mem_map.1 hi
  by_cases hjid : j.id = id
  · rw [if_pos hjid] at hji
    exact hji ▸ (assignedAnew_keeps j).2
  · rw [if_neg hjid] at hji
    exact absurd (hji ▸ hid) hjid

theorem renameWaitingFetch_of_none {f : Fetch} (h : f.item = none) : renameWaitingFetch s f newly = s := by
  unfold renameWaitingFetch
  rw [h]

theorem renameWaitingFetch_of_some {f : Fetch} {id : Nat} (h : f.item = some id) :
    (NamesNewly s newly id → renameWaitingFetch s f newly = (withdrawClaims s id).modItem id assignedAnew) ∧
    (¬NamesNewly s newly id → renameWaitingFetch s f newly = s) := by
  unfold renameWaitingFetch
  rw [h]
  dsimp only
  exact ⟨fun hn => if_pos ((namesNewly_iff s newly id).2 hn), fun hn => if_neg ((namesNewly_iff s newly id).not.2 hn)⟩

/-- The step of one record: the claims that it withdraws. -/
theorem renameWaitingFetch_spec (s : State) (newly : List Nat) (f : Fetch) :
    ∃ d, Renamed s (renameWaitingFetch s f newly) d ∧ (∀ x, x ∈ d ↔ ∃ c ∈ s.claims, c.id = x ∧ WithdrawnFor s newly [f] c) ∧
      ∀ id, f.item = some id → NamesNewly s newly id → NotWaiting (renameWaitingFetch s f newly) id := by
  cases hf : f.item with
  | none =>
    rw [renameWaitingFetch_of_none hf]
    exact ⟨[], Renamed.refl s, fun x => by simp [WithdrawnFor, hf], nofun⟩
  | some id =>
    obtain ⟨hnames, hno⟩ := renameWaitingFetch_of_some (s := s) (newly := newly) hf
    by_cases hn : NamesNewly s newly id
    · rw [hnames hn, withdrawClaims_eq_foldl]
      have hwork := Renamed.modItem ((s.claims.filter fun c => c.owner == .item id && !c.begun).foldl withdrawClaim s) id
        (fun i => (assignedAnew_keeps i).1) fun i h => absurd h (assignedAnew_keeps i).2
      refine ⟨_, (Renamed.foldl _ s).trans hwork, fun x => ?_, fun k hk _ => ?_⟩
      · simp only [List.append_nil, List.mem_map, List.mem_filter, Bool.and_eq_true, beq_iff_eq, Bool.not_eq_true',
          WithdrawnFor, List.mem_singleton, exists_eq_left, hf, Option.some.injEq, exists_eq_left', hn, and_true]
        exact ⟨fun ⟨c, ⟨hc, ho, hb⟩, hx⟩ => ⟨c, hc, hx, hb, ho⟩, fun ⟨c, hc, hx, hb, ho⟩ => ⟨c, ⟨hc, ho, hb⟩, hx⟩⟩
      · cases hk
        exact notWaiting_assignedAnew _ id
    · rw [hno hn]
      refine ⟨[], Renamed.refl s, fun x => ?_, fun k hk h => ?_⟩
      · simp [WithdrawnFor, hf, hn]
      · cases hk
        exact absurd h hn

/-- The records of the target in their order: the claims withdrawn are those that the first state shows. -/
theorem renameWaitingFetch_foldl (fs : List Fetch) (s : State) (hids : ∀ a ∈ s.claims, ∀ b ∈ s.claims, a.id = b.id → a = b) :
    ∃ d, Renamed s (fs.foldl (fun s f => renameWaitingFetch s f newly) s) d ∧
      (∀ x, x ∈ d ↔ ∃ c ∈ s.claims, c.id = x ∧ WithdrawnFor s newly fs c) ∧
      ∀ f ∈ fs, ∀ id, f.item = some id → NamesNewly s newly id →
        NotWaiting (fs.foldl (fun s f => renameWaitingFetch s f newly) s) id := by
  induction fs generalizing s with
  | nil => exact ⟨[], Renamed.refl s, fun x => by simp [WithdrawnFor], nofun⟩
  | cons f fs ih =>
    obtain ⟨d, hd, hmem, hitem⟩ := renameWaitingFetch_spec s newly f
    rw [List.foldl_cons]
    generalize renameWaitingFetch s f newly = u at *
    have hsub : ∀ c ∈ u.claims, c ∈ s.claims := fun c hc => ((hd.claims c).1 hc).1
    obtain ⟨e, he, hmem', hitem'⟩ := ih u fun a ha b hb => hids a (hsub a ha) b (hsub b hb)
    have hof : ∀ id, NamesNewly u newly id → NamesNewly s newly id := fun id ⟨c, hc, h⟩ => ⟨c, hsub c hc, h⟩
    -- Where the first record has withdrawn what named a page, it has withdrawn all of that item.
    have hleft : ∀ id, NamesNewly s newly id → f.item = some id ∨ NamesNewly u newly id := fun id ⟨c, hc, ho, h⟩ => by
      by_cases hcd : c.id ∈ d
      · obtain ⟨c', hc', hid, -, g, hg, k, hk, hown, -⟩ := (hmem c.id).1 hcd
        cases hids c' hc' c hc hid
        rw [ho] at hown
        cases hown
        exact .inl (List.mem_singleton.1 hg ▸ hk)
      · exact .inr ⟨c, (hd.claims c).2 ⟨hc, hcd⟩, ho, h⟩
    refine ⟨d ++ e, hd.trans he, fun x => ?_, fun g hg id hgi hn => ?_⟩
    · rw [List.mem_append, hmem, hmem']
      constructor
      · rintro (⟨c, hc, hx, hb, g, hg, h⟩ | ⟨c, hc, hx, hb, g, hg, k, hgk, ho, hn⟩)
        · exact ⟨c, hc, hx, hb, g, List.mem_singleton.1 hg ▸ .head _, h⟩
        · exact ⟨c, hsub c hc, hx, hb, g, .tail _ hg, k, hgk, ho, hof k hn⟩
      · rintro ⟨c, hc, hx, hb, g, hg, k, hgk, ho, hn⟩
        by_cases hcd : c.id ∈ d
        · exact .inl (hx ▸ (hmem c.id).1 hcd)
        · have hnot : f.item ≠ some k := fun hf =>
            hcd ((hmem c.id).2 ⟨c, hc, rfl, hb, f, List.mem_singleton_self f, k, hf, ho, hn⟩)
          rcases List.mem_cons.1 hg with rfl | hg
          · exact absurd hgk hnot
          · exact .inr ⟨c, (hd.claims c).2 ⟨hc, hcd⟩, hx, hb, g, hg, k, hgk, ho, (hleft k hn).resolve_left hnot⟩
    · rcases hleft id hn with hf | hu
      · exact he.work id (hitem id hf hn)
      · rcases List.mem_cons.1 hg with rfl | hg
        · exact he.work id (hitem id hgi hn)
        · exact hitem' g hg id hgi hu

end

end Sys2Proof.Machine
end

section
/-! PROOFS. What a rectification's commit masks of the fetches (R103): the newly withheld pages not yet sent. -/

namespace Sys2Proof.Machine

/-! ### Pages withheld -/

/-- A page that is withheld now, if it is one of `l`. -/
def FetchPage.withheldIn (l : List Nat) (p : FetchPage) : FetchPage := if p.page ∈ l then ⟨p.page, .withheld, 0, []⟩ else p

theorem withheldIn_withheldIn (l m : List Nat) (p : FetchPage) : (p.withheldIn l).withheldIn m = p.withheldIn (l ++ m) := by
  unfold FetchPage.withheldIn
  by_cases hl : p.page ∈ l
  · simp [hl]
  · simp [hl]

/-- A record with the pages `l` withheld. -/
def Fetch.withholding (l : List Nat) (f : Fetch) : Fetch := { f with pages := f.pages.map (FetchPage.withheldIn l) }

theorem withholding_nil (f : Fetch) : f.withholding [] = f := by
  unfold Fetch.withholding
  rw [show FetchPage.withheldIn [] = id from funext fun p => if_neg List.not_mem_nil, List.map_id]

theorem withholding_withholding (l m : List Nat) (f : Fetch) : (f.withholding l).withholding m = f.withholding (l ++ m) := by
  unfold Fetch.withholding
  dsimp only
  rw [List.map_map, show FetchPage.withheldIn m ∘ FetchPage.withheldIn l = FetchPage.withheldIn (l ++ m) from
    funext (withheldIn_withheldIn l m)]

theorem findFetch_modFetch_ne {s : State} {n m : Nat} {f : Fetch → Fetch} (hf : ∀ x, (f x).seq = x.seq) (h : m ≠ n) :
    (s.modFetch n f).findFetch m = s.findFetch m := by
  unfold State.findFetch State.modFetch
  dsimp only
  induction s.fetches with
  | nil => rfl
  | cons x xs ih =>
    by_cases hx : x.seq = n
    · have hm : n ≠ m := Ne.symm h
      simpa [hx, hf, hm] using ih
    · rw [List.map_cons, if_neg hx, List.find?_cons, List.find?_cons, ih]

theorem seq_of_findFetch {s : State} {n : Nat} {f : Fetch} (h : s.findFetch n = some f) : f.seq = n := by
  simpa using List.find?_some h

/-- What the withholding of pages leaves: claims lose blocks only. -/
structure Shrunk (s t : State) : Prop where
  claims : ∀ c ∈ t.claims, ∃ e ∈ s.claims, e.id = c.id ∧ e.blocks = c.blocks ∧ c.live ⊆ e.live
  work : t.work = s.work
  drives : t.drives = s.drives
  control : t.control = s.control
  ret : t.ret = s.ret

namespace Shrunk

theorem refl (s : State) : Shrunk s s := ⟨fun c hc => ⟨c, hc, rfl, rfl, List.Subset.refl _⟩, rfl, rfl, rfl, rfl⟩

theorem trans {a b c : State} (h : Shrunk a b) (k : Shrunk b c) : Shrunk a c :=
  ⟨fun x hx => by
    obtain ⟨y, hy, hid, hblocks, hlive⟩ := k.claims x hx
    obtain ⟨z, hz, hid', hblocks', hlive'⟩ := h.claims y hy
    exact ⟨z, hz, hid'.trans hid, hblocks'.trans hblocks, List.Subset.trans hlive hlive'⟩,
    k.work.trans h.work, k.drives.trans h.drives, k.control.trans h.control, k.ret.trans h.ret⟩

end Shrunk

/-- The staged blocks of a page are free: its claim, if it is there and granted, holds none of them. -/
def Freed (s : State) (p : FetchPage) : Prop := ∀ c ∈ s.claims, c.id = p.claim → c.blocks ≠ none → ∀ b ∈ p.blocks, b ∉ c.live

theorem Freed.shrunk {s t : State} {p : FetchPage} (h : Freed s p) (k : Shrunk s t) : Freed t p := fun c hc hid hb b hbp hlive => by
  obtain ⟨e, he, heid, heb, hsub⟩ := k.claims c hc
  exact h e he (heid.trans hid) (heb ▸ hb) b hbp (hsub hlive)

theorem mem_claims_freeOf {s : State} {id : Nat} {bs : List Nat} {c : Claim} (hc : c ∈ (freeOf s id bs).claims) :
    ∃ e ∈ s.claims, e.id = c.id ∧ e.blocks = c.blocks ∧ c.live ⊆ e.live ∧ (c.id = id → c.blocks ≠ none → ∀ b ∈ bs, b ∉ c.live) := by
  obtain ⟨e, he, hec⟩ := List.mem_filterMap.1 hc
  by_cases hown : e.id = id ∧ e.blocks.isSome
  · rw [if_pos hown] at hec
    dsimp only at hec
    split at hec
    · cases hec
    · cases hec
      refine ⟨e, he, rfl, rfl, List.filter_subset_self _, fun _ _ b hb hlive => ?_⟩
      simpa [hb] using (List.mem_filter.1 hlive).2
  · rw [if_neg hown] at hec
    cases hec
    exact ⟨c, he, rfl, rfl, List.Subset.refl _, fun hid hb => absurd ⟨hid, Option.isSome_iff_ne_none.2 hb⟩ hown⟩

theorem shrunk_freeOf (s : State) (id : Nat) (bs : List Nat) : Shrunk s (freeOf s id bs) :=
  ⟨fun _ hc => by
    obtain ⟨e, he, hid, hblocks, hlive, -⟩ := mem_claims_freeOf hc
    exact ⟨e, he, hid, hblocks, hlive⟩, rfl, rfl, rfl, rfl⟩

theorem freed_freeOf (s : State) (p : FetchPage) : Freed (freeOf s p.claim p.blocks) p := fun _ hc => by
  obtain ⟨-, -, -, -, -, hfree⟩ := mem_claims_freeOf hc
  exact hfree

/-! ### One record of the target -/

/-- The withholding of the pages `l` of the record `n`. -/
structure Withholds (n : Nat) (l : List Nat) (s t : State) : Prop where
  shrunk : Shrunk s t
  own : t.findFetch n = (s.findFetch n).map (Fetch.withholding l)
  others : ∀ m, m ≠ n → t.findFetch m = s.findFetch m

namespace Withholds
variable {n : Nat}

theorem refl (n : Nat) (s : State) : Withholds n [] s s :=
  ⟨Shrunk.refl s, by rw [show Fetch.withholding [] = id from funext withholding_nil, Option.map_id, id], fun _ _ => rfl⟩

theorem trans {l m : List Nat} {a b c : State} (h : Withholds n l a b) (k : Withholds n m b c) : Withholds n (l ++ m) a c :=
  ⟨h.shrunk.trans k.shrunk, by
    rw [k.own, h.own, Option.map_map]
    exact congrArg (Option.map · _) (funext (withholding_withholding l m)),
    fun q hq => (k.others q hq).trans (h.others q hq)⟩

theorem modFetch (s : State) (n : Nat) (l : List Nat) : Withholds n l s (s.modFetch n (Fetch.withholding l)) :=
  ⟨⟨(Shrunk.refl s).claims, rfl, rfl, rfl, rfl⟩, findFetch_modFetch s n fun _ => rfl, fun _ hq => findFetch_modFetch_ne (fun _ => rfl) hq⟩

theorem freeOf (n : Nat) (s : State) (id : Nat) (bs : List Nat) : Withholds n [] s (freeOf s id bs) :=
  ⟨shrunk_freeOf s id bs, (refl n s).own, fun _ _ => rfl⟩

end Withholds

/-- A page of the record not yet sent, its outcome not settled for good: withheld newly it becomes WITHHELD (R103). -/
def Fetch.canMask (f : Fetch) (p : FetchPage) : Bool :=
  decide (f.sendPage ≤ p.page) && (p.outcome != .withheld && p.outcome != .unreadable)

theorem canMask_iff {f : Fetch} {p : FetchPage} :
    f.canMask p = true ↔ f.sendPage ≤ p.page ∧ p.outcome ≠ .withheld ∧ p.outcome ≠ .unreadable := by
  simp [Fetch.canMask]

section
variable {s : State} {f : Fetch} {p : FetchPage}

theorem remaskFetchPage_of_canMask (h : f.canMask p = true) :
    remaskFetchPage s f p =
      (if p.outcome = .staged then freeOf s p.claim p.blocks else s).modFetch f.seq (Fetch.withholding [p.page]) := by
  obtain ⟨hsend, hwithheld, hunreadable⟩ := canMask_iff.1 h
  have hpages : (fun q : FetchPage => if q.page = p.page then (⟨p.page, .withheld, 0, []⟩ : FetchPage) else q) =
      FetchPage.withheldIn [p.page] := funext fun q => by
    unfold FetchPage.withheldIn
    by_cases hq : q.page = p.page <;> simp [hq]
  unfold remaskFetchPage
  dsimp only
  rw [if_neg (Nat.not_lt.2 hsend), hpages]
  cases ho : p.outcome with
  | staged | unread | inBurst => rfl
  | withheld => exact absurd ho hwithheld
  | unreadable => exact absurd ho hunreadable

theorem remaskFetchPage_eq_self (h : f.canMask p = false) : remaskFetchPage s f p = s := by
  have hno := canMask_iff.not.1 (Bool.not_eq_true _ ▸ h)
  unfold remaskFetchPage
  dsimp only
  split
  · rfl
  · next hsend =>
    cases ho : p.outcome with
    | withheld | unreadable => rfl
    | staged | unread | inBurst => exact absurd ⟨Nat.not_lt.1 hsend, ho ▸ nofun, ho ▸ nofun⟩ hno

theorem remaskFetchPage_spec (s : State) (f : Fetch) (p : FetchPage) :
    Withholds f.seq (([p].filter f.canMask).map FetchPage.page) s (remaskFetchPage s f p) ∧
      (f.canMask p = true → p.outcome = .staged → Freed (remaskFetchPage s f p) p) := by
  cases h : f.canMask p with
  | false =>
    rw [remaskFetchPage_eq_self h, List.filter_cons_of_neg (by simp [h])]
    exact ⟨Withholds.refl _ s, nofun⟩
  | true =>
    rw [remaskFetchPage_of_canMask h, List.filter_cons_of_pos h]
    by_cases hs : p.outcome = .staged
    · rw [if_pos hs]
      exact ⟨(Withholds.freeOf _ s _ _).trans (Withholds.modFetch _ _ _), fun _ _ => freed_freeOf s p⟩
    · rw [if_neg hs]
      exact ⟨Withholds.modFetch s _ _, fun _ h => absurd h hs⟩

theorem remaskFetchPage_foldl (f : Fetch) (ps : List FetchPage) (s : State) :
    let t := ps.foldl (fun s p => remaskFetchPage s f p) s
    Withholds f.seq ((ps.filter f.canMask).map FetchPage.page) s t ∧
      ∀ p ∈ ps, f.canMask p = true → p.outcome = .staged → Freed t p := by
  induction ps generalizing s with
  | nil => exact ⟨Withholds.refl _ s, nofun⟩
  | cons p ps ih =>
    obtain ⟨hfirst, hfreed⟩ := remaskFetchPage_spec s f p
    obtain ⟨hrest, hall⟩ := ih (remaskFetchPage s f p)
    refine ⟨?_, fun q hq hm hs => ?_⟩
    · rw [← List.singleton_append, List.filter_append, List.map_append]
      exact hfirst.trans hrest
    · rcases List.mem_cons.1 hq with rfl | hq
      · exact (hfreed hm hs).shrunk hrest.shrunk
      · exact hall q hq hm hs

/-- The pages that the re-masking of a record withholds. -/
def Fetch.maskedPages (f : Fetch) (newly : List Nat) : List Nat :=
  ((f.pages.filter fun p => newly.contains p.page).filter f.canMask).map FetchPage.page

variable {newly : List Nat} {n : Nat}

theorem remaskFetch_spec (h : s.findFetch n = some f) :
    Withholds n (f.maskedPages newly) s (remaskFetch s newly n) ∧
      ∀ p ∈ f.pages, p.page ∈ newly → f.canMask p = true → p.outcome = .staged → Freed (remaskFetch s newly n) p := by
  obtain ⟨hall, hfreed⟩ := remaskFetchPage_foldl f (f.pages.filter fun p => newly.contains p.page) s
  unfold remaskFetch
  rw [h]
  exact ⟨seq_of_findFetch h ▸ hall, fun p hp hn => hfreed p (List.mem_filter.2 ⟨hp, List.contains_iff_mem.2 hn⟩)⟩

theorem remaskFetch_stands (s : State) (newly : List Nat) (n : Nat) :
    Shrunk s (remaskFetch s newly n) ∧ ∀ m, m ≠ n → (remaskFetch s newly n).findFetch m = s.findFetch m := by
  cases h : s.findFetch n with
  | none =>
    unfold remaskFetch
    rw [h]
    exact ⟨Shrunk.refl s, fun _ _ => rfl⟩
  | some f =>
    obtain ⟨hw, -⟩ := remaskFetch_spec (newly := newly) h
    exact ⟨hw.shrunk, hw.others⟩

/-! ### The records of the target, one after another -/

theorem remaskFetch_foldl_stands (newly : List Nat) (fs : List Fetch) (s : State) :
    let t := fs.foldl (fun s f => remaskFetch s newly f.seq) s
    Shrunk s t ∧ ∀ m, (∀ f ∈ fs, f.seq ≠ m) → t.findFetch m = s.findFetch m := by
  induction fs generalizing s with
  | nil => exact ⟨Shrunk.refl s, fun _ _ => rfl⟩
  | cons f fs ih =>
    obtain ⟨hshrunk, hothers⟩ := remaskFetch_stands s newly f.seq
    obtain ⟨hrest, hfind⟩ := ih (remaskFetch s newly f.seq)
    exact ⟨hshrunk.trans hrest, fun m hm =>
      (hfind m fun g hg => hm g (.tail _ hg)).trans (hothers m (Ne.symm (hm f (.head _))))⟩

/-- One record of several is re-masked once. -/
theorem remaskFetch_foldl_own {fs : List Fetch} (hseq : (fs.map Fetch.seq).Nodup) {g : Fetch} (hg : g ∈ fs)
    (h : s.findFetch g.seq = some f) :
    let t := fs.foldl (fun s f => remaskFetch s newly f.seq) s
    t.findFetch g.seq = some (f.withholding (f.maskedPages newly)) ∧
      ∀ p ∈ f.pages, p.page ∈ newly → f.canMask p = true → p.outcome = .staged → Freed t p := by
  obtain ⟨pre, post, rfl⟩ := List.append_of_mem hg
  obtain ⟨hpre, hpost⟩ := key_ne_of_nodup_split hseq
  rw [List.foldl_append, List.foldl_cons]
  obtain ⟨-, hbefore⟩ := remaskFetch_foldl_stands newly pre s
  have hfind := (hbefore g.seq hpre).trans h
  generalize pre.foldl (fun s f => remaskFetch s newly f.seq) s = u at hfind
  obtain ⟨hw, hfreed⟩ := remaskFetch_spec (newly := newly) hfind
  obtain ⟨hshrunk, hafter⟩ := remaskFetch_foldl_stands newly post (remaskFetch u newly g.seq)
  refine ⟨?_, fun p hp hn hm hs => (hfreed p hp hn hm hs).shrunk hshrunk⟩
  rw [hafter g.seq hpost, hw.own, hfind]
  rfl

end

end Sys2Proof.Machine
end

section
/-! PROOFS. A rectification's commit masks the fetches of its target (R103), and with it O54. -/

namespace Sys2Proof.Machine

theorem remasked_iff {target : Nat} {f : Fetch} : f.remasked target = true ↔ Masked target f := by
  simp [Fetch.remasked, Masked, and_assoc]

section
variable {s : State} {target : Nat} {newly : List Nat}

/-- The records of the target that have named their pages. -/
def maskedFetches (s : State) (target : Nat) : List Fetch := s.fetches.filter fun f => f.remasked target

theorem mem_maskedFetches {f : Fetch} : f ∈ maskedFetches s target ↔ f ∈ s.fetches ∧ Masked target f := by
  rw [maskedFetches, List.mem_filter, remasked_iff]

theorem remaskFetches_eq (s : State) (target : Nat) (newly : List Nat) :
    remaskFetches s target newly = (maskedFetches s target).foldl (fun s f => remaskFetch s newly f.seq)
      ((maskedFetches s target).foldl (fun s f => renameWaitingFetch s f newly) s) := rfl

theorem withdrawnFor_iff {c : Claim} : WithdrawnFor s newly (maskedFetches s target) c ↔ Withdrawn s target newly c := by
  constructor
  · rintro ⟨hb, f, hf, id, hid, ho, e, he, heo, h⟩
    obtain ⟨hmem, hmasked⟩ := mem_maskedFetches.1 hf
    exact ⟨hb, f, hmem, hmasked, by rw [hid, ho]; rfl, e, he, heo.trans ho.symm, h⟩
  · rintro ⟨hb, f, hf, hmasked, hid, e, he, heo, h⟩
    obtain ⟨id, hitem, ho⟩ := Option.map_eq_some_iff.1 hid
    exact ⟨hb, f, mem_maskedFetches.2 ⟨hf, hmasked⟩, id, hitem, ho.symm, e, he, heo.trans ho.symm, h⟩

theorem findFetch_of_mem {f : Fetch} (h : (s.fetches.map Fetch.seq).Nodup) (hf : f ∈ s.fetches) : s.findFetch f.seq = some f :=
  find?_key_of_mem h hf

/-! ### A page of a record, through both -/

section
variable {f : Fetch} {p : FetchPage} {d : List Nat} {next : Nat}

theorem canMask_unnamed : (f.unnamed d next).canMask (p.unnamed d) = f.canMask p := by
  unfold FetchPage.unnamed
  split
  · next h =>
    have hp : (p.outcome != .withheld && p.outcome != .unreadable) = true := by rw [h.1]; rfl
    unfold Fetch.canMask
    rw [hp]
    rfl
  · rfl

/-- With the pages of a record all different, its re-masking withholds each page for itself. -/
theorem mem_maskedPages_unnamed (hnodup : (f.pages.map FetchPage.page).Nodup) (hp : p ∈ f.pages) :
    p.page ∈ (f.unnamed d next).maskedPages newly ↔ p.page ∈ newly ∧ f.canMask p = true := by
  constructor
  · intro h
    obtain ⟨q, hq, hpage⟩ := List.mem_map.1 h
    obtain ⟨hq, hcan⟩ := List.mem_filter.1 hq
    obtain ⟨hq, hnew⟩ := List.mem_filter.1 hq
    obtain ⟨p', hp', rfl⟩ := List.mem_map.1 hq
    rw [unnamed_page] at hpage
    cases List.inj_on_of_nodup_map hnodup hp' hp hpage
    rw [unnamed_page] at hnew
    exact ⟨List.contains_iff_mem.1 hnew, canMask_unnamed (next := next) ▸ hcan⟩
  · rintro ⟨hnew, hcan⟩
    refine List.mem_map.2 ⟨p.unnamed d, List.mem_filter.2 ⟨List.mem_filter.2 ⟨List.mem_map_of_mem hp, ?_⟩, ?_⟩, unnamed_page d p⟩
    · rw [unnamed_page]
      exact List.contains_iff_mem.2 hnew
    · rw [canMask_unnamed]
      exact hcan

theorem withheldIn_of_mem {l : List Nat} (h : p.page ∈ l) (d : List Nat) :
    (p.unnamed d).withheldIn l = ⟨p.page, .withheld, 0, []⟩ := by
  rw [FetchPage.withheldIn, unnamed_page, if_pos h]

theorem withheldIn_of_not_mem {l : List Nat} (h : p.page ∉ l) (d : List Nat) : (p.unnamed d).withheldIn l = p.unnamed d := by
  rw [FetchPage.withheldIn, unnamed_page, if_neg h]

end

/-! ### The whole re-masking of the fetches -/

/-- The pages of the record that are withheld: those of a masked record, and of another none. -/
def withheldPages (target : Nat) (newly : List Nat) (f : Fetch) : List Nat :=
  if f.remasked target then f.maskedPages newly else []

/-- Each record, the claims, the items and what else there is after the re-masking. -/
theorem remaskFetches_spec (hids : (s.claims.map Claim.id).Nodup) (hseq : (s.fetches.map Fetch.seq).Nodup) :
    let t := remaskFetches s target newly
    ∃ d : List Nat, (∀ x, x ∈ d ↔ ∃ c ∈ s.claims, c.id = x ∧ Withdrawn s target newly c) ∧
      (∀ f ∈ s.fetches, ∃ next, let x := f.unnamed d next
        t.findFetch f.seq = some (x.withholding (withheldPages target newly x)) ∧
        (Masked target f → ∀ p ∈ x.pages, p.page ∈ newly → x.canMask p = true → p.outcome = .staged → Freed t p)) ∧
      (∀ e ∈ t.claims, e.id ∉ d) ∧
      (∀ f ∈ s.fetches, Masked target f → ∀ id, f.item = some id → NamesNewly s newly id → NotWaiting t id) ∧
      t.drives = s.drives ∧ t.control = s.control ∧ t.ret = s.ret := by
  rw [remaskFetches_eq]
  obtain ⟨d, hd, hmem, hitem⟩ := renameWaitingFetch_foldl (newly := newly) (maskedFetches s target) s
    fun a ha b hb hab => List.inj_on_of_nodup_map hids ha hb hab
  generalize (maskedFetches s target).foldl (fun s f => renameWaitingFetch s f newly) s = u at hd hitem
  obtain ⟨next, hnext⟩ := hd.fetches
  have hseqU : (u.fetches.map Fetch.seq).Nodup := by
    rw [hnext, List.map_map]
    exact hseq
  have hfind : ∀ f ∈ s.fetches, u.findFetch f.seq = some (f.unnamed d (next f)) := fun f hf =>
    findFetch_of_mem (f := f.unnamed d (next f)) hseqU (hnext ▸ List.mem_map_of_mem (f := fun f => f.unnamed d (next f)) hf)
  have hmasked : ((maskedFetches s target).map Fetch.seq).Nodup := hseq.sublist ((List.filter_sublist).map _)
  obtain ⟨hshrunk, hothers⟩ := remaskFetch_foldl_stands newly (maskedFetches s target) u
  refine ⟨d, fun x => (hmem x).trans (by simp only [withdrawnFor_iff]), fun f hf => ⟨next f, ?_⟩, fun e he hed => ?_,
    fun f hf hm id hid hn => ?_, hshrunk.drives.trans hd.drives, hshrunk.control.trans hd.control, hshrunk.ret.trans hd.ret⟩
  · by_cases hm : Masked target f
    · obtain ⟨hown, hfreed⟩ := remaskFetch_foldl_own (newly := newly) hmasked (mem_maskedFetches.2 ⟨hf, hm⟩) (hfind f hf)
      refine ⟨?_, fun _ => hfreed⟩
      rw [hown, withheldPages, if_pos (remasked_iff.2 (show Masked target (f.unnamed d (next f)) from hm))]
    · refine ⟨?_, fun h => absurd h hm⟩
      have hnot : ∀ g ∈ maskedFetches s target, g.seq ≠ f.seq := fun g hg he => by
        obtain ⟨hgs, hgm⟩ := mem_maskedFetches.1 hg
        exact hm (List.inj_on_of_nodup_map hseq hgs hf he ▸ hgm)
      rw [hothers f.seq hnot, hfind f hf, withheldPages,
        if_neg (remasked_iff.not.2 (show ¬Masked target (f.unnamed d (next f)) from hm)), withholding_nil]
  · obtain ⟨c, hc, hid, -⟩ := hshrunk.claims e he
    exact ((hd.claims c).1 hc).2 (hid ▸ hed)
  · intro i hi
    rw [hshrunk.work] at hi
    exact hitem f (mem_maskedFetches.2 ⟨hf, hm⟩) id hid hn i hi

theorem namesNewly_of_withdrawn {e : Claim} {id : Nat} (ho : e.owner = .item id) (h : Withdrawn s target newly e) :
    NamesNewly s newly id := by
  obtain ⟨-, -, -, -, -, c, hc, hown, hb, hp⟩ := h
  exact ⟨c, hc, hown.trans ho, hb, hp⟩

end

theorem commitMasksFetches : CommitMasksFetches := by
  intro s target newly hstaging hseq t masks
  obtain ⟨d, hd, hfetch, hclaims, hwork, hdrives, hcontrol, hret⟩ :=
    remaskFetches_spec (target := target) (newly := newly) hstaging.ids hseq
  refine ⟨fun f hf hnodup => ?_, fun c hc hw e he hid => hclaims e he (hid ▸ (hd c.id).2 ⟨c, hc, rfl, hw⟩),
    fun f hf hm id hid ⟨e, he, ho, hw⟩ => hwork f hf hm id hid (namesNewly_of_withdrawn ho hw), fun hno => ?_, hdrives, hcontrol, hret⟩
  · obtain ⟨next, hfind, hfreed⟩ := hfetch f hf
    refine ⟨_, hfind, by simp [Fetch.withholding, Fetch.unnamed], rfl, fun i p hi => ?_⟩
    have hp : p ∈ f.pages := List.mem_of_getElem? hi
    let l := withheldPages target newly (f.unnamed d next)
    have hpage : ((f.unnamed d next).withholding l).pages[i]? = some ((p.unnamed d).withheldIn l) := by
      simp only [Fetch.withholding, Fetch.unnamed, List.getElem?_map, hi, Option.map_some]
    have hl : p.page ∈ l ↔ masks f p := by
      by_cases hm : Masked target f
      · have hlm : l = (f.unnamed d next).maskedPages newly := if_pos (remasked_iff.2 hm)
        rw [hlm, mem_maskedPages_unnamed hnodup hp, canMask_iff]
        exact ⟨fun h => ⟨hm, h⟩, fun h => h.2⟩
      · have hln : l = [] := if_neg (remasked_iff.not.2 hm)
        rw [hln]
        exact ⟨fun h => absurd h List.not_mem_nil, fun h => absurd h.1 hm⟩
    refine ⟨fun h => ?_, fun h hb hw => ?_, fun h hb => ?_, fun h hs => ?_⟩
    · rw [hpage, withheldIn_of_mem (hl.2 h)]
    · rw [hpage, withheldIn_of_not_mem (hl.not.2 h), unnamed_of_named hb ((hd _).2 hw)]
    · rw [hpage, withheldIn_of_not_mem (hl.not.2 h), unnamed_eq_self fun hin hmem => ?_]
      obtain ⟨c, hc, hid, hw⟩ := (hd _).1 hmem
      exact hb hin c hc hid hw
    · obtain ⟨hm, hnew, hcan⟩ := h
      have hself : p.unnamed d = p := unnamed_eq_self fun hin => absurd (hs.symm.trans hin) nofun
      have hpx : p ∈ (f.unnamed d next).pages := List.mem_map.2 ⟨p, hp, hself⟩
      exact hfreed hm p hpx hnew (canMask_iff.2 hcan) hs
  · show remaskFetches s target newly = s
    have hnil : maskedFetches s target = [] := List.eq_nil_iff_forall_not_mem.2 fun f hf =>
      hno f (mem_maskedFetches.1 hf).1 (mem_maskedFetches.1 hf).2
    rw [remaskFetches_eq, hnil]
    rfl

/-- Settles O54: the commit's passes and update case by case, the copy orders by what the withdrawing of claims leaves of them,
the fetches by the claims withdrawn and then the pages withheld. -/
theorem commitsAndRemasking : Obligations.CommitsAndRemasking :=
  ⟨commitPassesFollow, commitUpdatesOnce, commitReportsFiled, thresholdsCloseTheSide, commitMasksFetches, commitMasksQueuedOrders,
    commitMasksTheHolder⟩

end Sys2Proof.Machine
end

section
/-! PROOFS. The printer's answer to the page in hand (R154 to R158) and what a settled page comes to (R154, R160), and with them
O58. -/

namespace Sys2Proof.Machine

variable {s : State} {h : PageInHand} {o : Order}

/-! ### Which answer counts (R153, R202) -/

theorem exec_printerAnswer {seq : Word16} {result : Byte} (hp : s.powered = true) :
    exec (.printerAnswer seq result) s = .next (settle (printerAnswerOp s seq result)) := by
  have hrun : exec (.printerAnswer seq result) s = .next (whenPowered s fun s => settle (printerAnswerOp s seq result)) := rfl
  rw [hrun, whenPowered_eq hp]

section
variable {seq : Word16} {result : Byte}

theorem printerAnswerOp_of_no_page (hi : s.port.inHand = none) : printerAnswerOp s seq result = s := by
  unfold printerAnswerOp
  rw [hi]

theorem printerAnswerOp_of_page (hi : s.port.inHand = some h) (ho : s.findOrder h.order = some o) :
    printerAnswerOp s seq result =
      if h.seq ≠ seq then s
      else if result = 1 then pageSettled (acceptPage s o h) h
      else if result = 2 then spoilPage s o h
      else s := by
  unfold printerAnswerOp
  simp only [hi, ho]

theorem printerAnswerOp_of_other (hi : s.port.inHand = some h) (ho : s.findOrder h.order = some o)
    (hne : h.seq ≠ seq ∨ (result ≠ 1 ∧ result ≠ 2)) : printerAnswerOp s seq result = s := by
  rw [printerAnswerOp_of_page hi ho]
  by_cases hseq : h.seq = seq
  · obtain ⟨hone, htwo⟩ := hne.resolve_left (not_not_intro hseq)
    rw [if_neg (not_not_intro hseq), if_neg hone, if_neg htwo]
  · rw [if_pos hseq]

theorem printerAnswerOp_accepted (hi : s.port.inHand = some h) (ho : s.findOrder h.order = some o) (hseq : h.seq = seq) :
    printerAnswerOp s seq 1 = pageSettled (acceptPage s o h) h := by
  rw [printerAnswerOp_of_page hi ho, if_neg (not_not_intro hseq), if_pos rfl]

theorem printerAnswerOp_spoiled (hi : s.port.inHand = some h) (ho : s.findOrder h.order = some o) (hseq : h.seq = seq) :
    printerAnswerOp s seq 2 = spoilPage s o h := by
  rw [printerAnswerOp_of_page hi ho, if_neg (not_not_intro hseq), if_neg (by decide), if_pos rfl]

end

/-! ### ACCEPTED, by the kind of the page (R156 to R158) -/

theorem acceptPage_plain (s : State) (hk : h.kind = .data) (hc : o.cert = false) :
    acceptPage s o h = chargeOrder s o o.rate 1 .page := by
  unfold acceptPage
  simp only [hk, hc, Bool.false_eq_true, if_false]

theorem acceptPage_certified (s : State) (hk : h.kind = .data) (hc : o.cert = true) (hv : o.voidOwed = false) :
    acceptPage s o h = s.modOrder o.number fun x => { x with pendingCharge := x.pendingCharge + x.rate } := by
  unfold acceptPage
  simp only [hk, hc, hv, Bool.false_eq_true, if_true, if_false]

theorem acceptPage_of_voidOwed (s : State) (hk : h.kind = .data) (hc : o.cert = true) (hv : o.voidOwed = true) :
    acceptPage s o h = s := by
  unfold acceptPage
  simp only [hk, hc, hv, if_true]

theorem acceptPage_stamp (s : State) (o : Order) (hk : h.kind = .stamp) :
    acceptPage s o h =
      (chargeOrder s o (o.pendingCharge + o.certFee) o.setPages.length (.set o.setPages.length)).modOrder o.number
        fun x => Order.nextSet { x with setsDone := x.setsDone + 1 } := by
  unfold acceptPage
  simp only [hk]

theorem acceptPage_void (s : State) (o : Order) (hk : h.kind = .void) :
    acceptPage s o h =
      s.modOrder o.number fun x => Order.nextSet { x with voidOwed := false, voidRetry := false } := by
  unfold acceptPage
  simp only [hk]

/-! ### SPOILED (R154, R157, R158) -/

/-- The spoiled page counted, for its order and for the day. -/
def spoilCounted (s : State) (o : Order) : State := countSpoiled (s.modOrder o.number fun x => { x with spoiled := x.spoiled + 1 })

/-- The order that owes the page in hand a second attempt. -/
def Order.owedAgain (h : PageInHand) (x : Order) : Order :=
  match h.kind with
  | .data => { x with retry := some h.page }
  | .stamp => { x with stampRetry := true }
  | .void => { x with voidRetry := true }

theorem spoilPage_eq (s : State) (o : Order) (h : PageInHand) :
    spoilPage s o h =
      if o.closing.isSome then pageSettled (spoilCounted s o) h
      else if h.attempt ≠ 1 then endOrder (spoilCounted s o) o.number .printer
      else if h.noRetry then pageSettled (spoilCounted s o) h
      else ((spoilCounted s o).modPort fun p => { p with inHand := none, out := [] }).modOrder o.number (Order.owedAgain h) := rfl

theorem spoilPage_of_closing (s : State) (h : PageInHand) (hc : o.closing ≠ none) :
    spoilPage s o h = pageSettled (spoilCounted s o) h := by
  rw [spoilPage_eq, if_pos (Option.isSome_iff_ne_none.2 hc)]

section
variable (s : State) (hc : o.closing = none)
include hc

theorem spoilPage_of_second_attempt (ha : h.attempt ≠ 1) :
    spoilPage s o h = endOrder (spoilCounted s o) o.number .printer := by
  simp only [spoilPage_eq, hc, Option.isSome_none, Bool.false_eq_true, if_false, if_pos ha]

theorem spoilPage_of_noRetry (ha : h.attempt = 1) (hn : h.noRetry = true) :
    spoilPage s o h = pageSettled (spoilCounted s o) h := by
  simp only [spoilPage_eq, hc, Option.isSome_none, Bool.false_eq_true, if_false, if_neg (not_not_intro ha), hn, if_true]

theorem spoilPage_owes_again (ha : h.attempt = 1) (hn : h.noRetry = false) :
    spoilPage s o h =
      ((spoilCounted s o).modPort fun p => { p with inHand := none, out := [] }).modOrder o.number (Order.owedAgain h) := by
  simp only [spoilPage_eq, hc, Option.isSome_none, Bool.false_eq_true, if_false, if_neg (not_not_intro ha), hn]

end

theorem answerByPage : AnswerByPage := by
  intro s seq result hp run
  have hrun : run = .next (settle (printerAnswerOp s seq result)) := exec_printerAnswer hp
  rw [hrun]
  refine ⟨fun hi => by rw [printerAnswerOp_of_no_page hi], fun h o hi ho =>
    ⟨fun hne => by rw [printerAnswerOp_of_other hi ho hne], ?_, ?_⟩⟩
  · rintro hseq rfl
    rw [printerAnswerOp_accepted hi ho hseq]
    refine ⟨fun hk hc => ?_, fun hk hc hv => ?_, fun hk hc hv => ?_, fun hk => ?_, fun hk => ?_⟩
    · rw [acceptPage_plain s hk hc]; rfl
    · rw [acceptPage_certified s hk hc hv]
    · rw [acceptPage_of_voidOwed s hk hc hv]
    · rw [acceptPage_stamp s o hk]; rfl
    · rw [acceptPage_void s o hk]
  · rintro hseq rfl
    rw [printerAnswerOp_spoiled hi ho hseq]
    refine ⟨fun hc => ?_, fun hc ha => ?_, fun hc ha hn => ?_, fun hc ha hn => ?_⟩
    · rw [spoilPage_of_closing s h hc]; rfl
    · rw [spoilPage_of_second_attempt s hc ha]; rfl
    · rw [spoilPage_of_noRetry s hc ha hn]; rfl
    · rw [spoilPage_owes_again s hc ha hn]; rfl

/-! ### The page settled (R154, R160) -/

/-- The staging of a settled DATA page freed; a STAMP or VOID page has none. -/
def pageFreed (s : State) (h : PageInHand) : State := if h.kind = .data then dropCopyPage s h.order h.set h.page else s

theorem PagesOnly.pageFreed (s : State) (h : PageInHand) : PagesOnly s (pageFreed s h) := by
  unfold Machine.pageFreed
  split
  · exact PagesOnly.dropCopyPages s h.order _
  · exact PagesOnly.refl s

/-- The port without its page in hand, the page's staging freed. -/
def pageGone (s : State) (h : PageInHand) : State :=
  { pageFreed s h with port := { s.port with inHand := none, out := [] } }

/-- The order of the page, but for its staged pages, stands as the page's staging is freed. -/
theorem findOrder_pageFreed (ho : s.findOrder h.order = some o) :
    ∃ p, (pageFreed s h).findOrder h.order = some p ∧ p.core = o.core :=
  findOrder_of_coreOrder (((PagesOnly.pageFreed s h).core h.order).trans (coreOrder_of_findOrder ho))

theorem pageSettled_of_closing {why : Closing} (ho : s.findOrder h.order = some o) (hc : o.closing = some why) :
    pageSettled s h = endOrder (pageFreed s h) h.order why.toEnd := by
  obtain ⟨p, hfind, hcore⟩ := findOrder_pageFreed ho
  have hclosing : p.closing = some why := (congrArg Order.closing hcore).trans hc
  unfold pageFreed at hfind ⊢
  simp only [pageSettled, hfind, hclosing]

theorem pageSettled_goOn (ho : s.findOrder h.order = some o) (hc : o.closing = none) :
    pageSettled s h = goOn (pageGone s h) h.order := by
  obtain ⟨p, hfind, hcore⟩ := findOrder_pageFreed ho
  have hclosing : p.closing = none := (congrArg Order.closing hcore).trans hc
  rw [pageGone, ← (PagesOnly.pageFreed s h).port]
  unfold pageFreed at hfind ⊢
  simp only [pageSettled, hfind, hclosing]
  rfl

theorem settledPageGoesOn : SettledPageGoesOn := by
  intro s h o ho _ gone free
  refine ⟨fun why hc => pageSettled_of_closing ho hc, fun hc => ?_⟩
  obtain ⟨p, hfind, hcore⟩ := findOrder_pageFreed ho
  obtain ⟨hsame, hnext⟩ := goOn_eq (s := free) (n := h.order) hfind rfl
  have hover : p.plainSetOver = o.plainSetOver := congrArg (fun x => x.plainSetOver) hcore
  have hfinished : p.finished = o.finished := congrArg (fun x => x.finished) hcore
  have hnextFinished : p.nextSet.finished = o.nextSet.finished := congrArg (fun x => x.nextSet.finished) hcore
  rw [hover, hfinished] at hsame
  rw [hover, hnextFinished] at hnext
  have hgo : pageSettled s h = goOn free h.order := pageSettled_goOn ho hc
  rw [hgo]
  refine ⟨fun hno hf => ?_, fun hno hf => ?_, fun hyes => ⟨fun hf => ?_, fun hf => ?_⟩⟩
  · rw [hsame hno, hf, if_neg Bool.false_ne_true]
  · rw [hsame hno, hf, if_pos rfl]
  · rw [hnext hyes, hf, if_neg Bool.false_ne_true]
  · rw [hnext hyes, hf, if_pos rfl]

/-- Settles O58: the answer by its value and the kind of the page, and the settled page by what its order comes to once the page's
staging is freed. -/
theorem printerAnswerSettlesThePage : Obligations.PrinterAnswerSettlesThePage := ⟨answerByPage, settledPageGoesOn⟩

end Sys2Proof.Machine
end

section
/-! PROOFS. ACCOUNT_LIMIT, ACCOUNT_DEPOSIT and ACCOUNT_WITHDRAW (R172, R173): the checks the three share, then the further check
of each, and with them O28 and O29. -/

namespace Sys2Proof.Machine

/-! ### An owner's answer on the line -/

/-- An admitted request that reaches no rule of the scheduler, the drives or the picker leaves its owner's answer on the line. -/
theorem exec_of_admitted {s : State} {c : Instr} {k : ReqKind} {h : Hdr} {b : List Byte} (ha : Admitted s k h b)
    (hc : requestOf c = some (k, h, b)) (hk : k.simple = true) :
    exec c s = .next (pumpLine (putReply (dispatch k s h.tag h.station.toNat b) k.byte h)) := by
  rw [exec_request hc, arriveKind_pumps ha hk]

theorem pumpLine_putReply_refuseAccount (s : State) (k : ReqKind) (h : Hdr) (a : Nat) (code : RefCode)
    (more : List Byte) :
    pumpLine (putReply (refuseAccount s a code more) k.byte h) = accountRefused s h k a code more := by
  rw [refuseAccount, putReply_refuse, accountRefused]

theorem pumpLine_putReply_setAccountDone (s : State) (k : ReqKind) (h : Hdr) (a : Nat) (e : Account) :
    pumpLine (putReply (setAccountDone s a e) k.byte h) = accountSet s h k a e := by
  rw [setAccountDone, putReply_done, accountSet]

/-! ### The shared checks -/

theorem accountOk_eq_true {a : Nat} (h1 : 1 ≤ a) (h64 : a ≤ 64) : accountOk a = true := decide_eq_true ⟨h1, h64⟩

theorem accountOk_eq_false {a : Nat} (h : a = 0 ∨ 64 < a) : accountOk a = false :=
  decide_eq_false fun ⟨h1, h64⟩ => h.elim (Nat.ne_of_gt h1) (Nat.not_lt.mpr h64)

theorem limitOk_eq_true {l : Nat} (h : l ≤ 9999999) : limitOk l = true := decide_eq_true h

theorem limitOk_eq_false {l : Nat} (h : 9999999 < l) : limitOk l = false := decide_eq_false (Nat.not_le.mpr h)

theorem amountOk_eq_true {m : Nat} (h1 : 1 ≤ m) (h : m ≤ 99999999) : amountOk m = true := decide_eq_true ⟨h1, h⟩

theorem amountOk_eq_false {m : Nat} (h : m = 0 ∨ 99999999 < m) : amountOk m = false :=
  decide_eq_false fun ⟨h1, hm⟩ => h.elim (Nat.ne_of_gt h1) (Nat.not_lt.mpr hm)

theorem AccountState.eq_inactive {x : AccountState} (hactive : x ≠ .active) (hsuspended : x ≠ .suspended) : x = .inactive := by
  cases x with
  | inactive => rfl
  | active => exact absurd rfl hactive
  | suspended => exact absurd rfl hsuspended

theorem AccountState.ne_inactive {x : AccountState} (h : x = .active ∨ x = .suspended) : x ≠ .inactive := by
  rcases h with rfl | rfl <;> decide

/-- The account's number, the range of the figure the request carries and the account's state are checked in that order, and then
the request's own further check is made (R172, R173). -/
def afterAccountChecks (s : State) (a : Nat) (figureOk : Bool) (further : Answer) : Answer :=
  if !accountOk a then refuse s .badField []
  else if !figureOk then refuseAccount s a .badField []
  else if (s.account a).state = .inactive then refuseAccount s a .accountState []
  else further

section
variable {s : State} {a : Nat} {figureOk : Bool} {further : Answer}

theorem afterAccountChecks_of_no_account (hno : a = 0 ∨ 64 < a) :
    afterAccountChecks s a figureOk further = refuse s .badField [] := by
  simp [afterAccountChecks, accountOk_eq_false hno]

theorem afterAccountChecks_of_bad_figure (h1 : 1 ≤ a) (h64 : a ≤ 64) (hf : figureOk = false) :
    afterAccountChecks s a figureOk further = refuseAccount s a .badField [] := by
  simp [afterAccountChecks, accountOk_eq_true h1 h64, hf]

theorem afterAccountChecks_of_inactive (h1 : 1 ≤ a) (h64 : a ≤ 64) (hf : figureOk = true)
    (hi : (s.account a).state = .inactive) :
    afterAccountChecks s a figureOk further = refuseAccount s a .accountState [] := by
  simp [afterAccountChecks, accountOk_eq_true h1 h64, hf, hi]

theorem afterAccountChecks_of_passed (h1 : 1 ≤ a) (h64 : a ≤ 64) (hf : figureOk = true)
    (hi : (s.account a).state ≠ .inactive) :
    afterAccountChecks s a figureOk further = further := by
  simp [afterAccountChecks, accountOk_eq_true h1 h64, hf, hi]

end

section
variable {s : State} {c : Instr} {k : ReqKind} {h : Hdr} {a : Nat}

/-- The outcomes of a request whose further check is `fails`: four refusals in the order of the checks, and the one update. -/
theorem exec_of_afterAccountChecks {figureOk : Bool} {fails : Prop} [Decidable fails] {code : RefCode}
    {more : List Byte} {e : Account}
    (hx : exec c s = .next (pumpLine (putReply (afterAccountChecks s a figureOk
      (if fails then refuseAccount s a code more else setAccountDone s a e)) k.byte h))) :
    (a = 0 ∨ 64 < a → exec c s = .next (pumpLine (refusedAs s h k .badField []))) ∧
    (1 ≤ a → a ≤ 64 →
      (figureOk = false → exec c s = .next (accountRefused s h k a .badField [])) ∧
      (figureOk = true → (s.account a).state = .inactive → exec c s = .next (accountRefused s h k a .accountState [])) ∧
      (figureOk = true → (s.account a).state ≠ .inactive →
        (fails → exec c s = .next (accountRefused s h k a code more)) ∧
        (¬fails → exec c s = .next (accountSet s h k a e)))) := by
  refine ⟨fun hno => ?_, fun h1 h64 => ⟨fun hf => ?_, fun hf hi => ?_, fun hf hi => ⟨fun hfails => ?_, fun hfails => ?_⟩⟩⟩
  · rw [hx, afterAccountChecks_of_no_account hno, putReply_refuse]
  · rw [hx, afterAccountChecks_of_bad_figure h1 h64 hf, pumpLine_putReply_refuseAccount]
  · rw [hx, afterAccountChecks_of_inactive h1 h64 hf hi, pumpLine_putReply_refuseAccount]
  · rw [hx, afterAccountChecks_of_passed h1 h64 hf hi, if_pos hfails, pumpLine_putReply_refuseAccount]
  · rw [hx, afterAccountChecks_of_passed h1 h64 hf hi, if_neg hfails, pumpLine_putReply_setAccountDone]

/-- The same for a request whose figure is an amount (R173). -/
theorem exec_of_amountChecks {m : Nat} {fails : Prop} [Decidable fails] {code : RefCode} {more : List Byte} {e : Account}
    (hx : exec c s = .next (pumpLine (putReply (afterAccountChecks s a (amountOk m)
      (if fails then refuseAccount s a code more else setAccountDone s a e)) k.byte h))) :
    (a = 0 ∨ 64 < a → exec c s = .next (pumpLine (refusedAs s h k .badField []))) ∧
    (1 ≤ a → a ≤ 64 →
      (m = 0 ∨ 99999999 < m → exec c s = .next (accountRefused s h k a .badField [])) ∧
      (1 ≤ m → m ≤ 99999999 →
        ((s.account a).state = .inactive → exec c s = .next (accountRefused s h k a .accountState [])) ∧
        ((s.account a).state ≠ .inactive → fails → exec c s = .next (accountRefused s h k a code more)) ∧
        ((s.account a).state ≠ .inactive → ¬fails → exec c s = .next (accountSet s h k a e)))) := by
  obtain ⟨noAccount, checked⟩ := exec_of_afterAccountChecks hx
  refine ⟨noAccount, fun h1 h64 => ?_⟩
  obtain ⟨badAmount, inactive, further⟩ := checked h1 h64
  refine ⟨fun hm => badAmount (amountOk_eq_false hm), fun hm1 hm => ?_⟩
  have amount : amountOk m = true := amountOk_eq_true hm1 hm
  exact ⟨inactive amount, fun hopen => (further amount hopen).left, fun hopen => (further amount hopen).right⟩

end

/-! ### The further check of each request -/

section
variable {s : State} {h : Hdr} {b : List Byte}

theorem exec_accountLimit (ha : Admitted s .accountLimit h b) :
    let a := numAt b 0 1; let l := numAt b 1 4; let k := s.account a
    exec (.accountLimit h b) s = .next (pumpLine (putReply (afterAccountChecks s a (limitOk l)
      (if k.balance < -(l : Int) ∨ k.balance + l < holdsOf s a then
        refuseAccount s a .funds (balanceBytes (max 0 (max (-k.balance) (holdsOf s a - k.balance))))
      else setAccountDone s a { k with limit := l })) ReqKind.accountLimit.byte h)) :=
  exec_of_admitted ha rfl rfl

theorem exec_accountDeposit (ha : Admitted s .accountDeposit h b) :
    let a := numAt b 0 1; let m := numAt b 1 4; let k := s.account a
    exec (.accountDeposit h b) s = .next (pumpLine (putReply (afterAccountChecks s a (amountOk m)
      (if 99999999 < k.balance + m then refuseAccount s a .badField (balanceBytes (99999999 - k.balance))
      else setAccountDone s a { k with balance := k.balance + m })) ReqKind.accountDeposit.byte h)) :=
  exec_of_admitted ha rfl rfl

theorem exec_accountWithdraw (ha : Admitted s .accountWithdraw h b) :
    let a := numAt b 0 1; let m := numAt b 1 4; let k := s.account a
    exec (.accountWithdraw h b) s = .next (pumpLine (putReply (afterAccountChecks s a (amountOk m)
      (if k.balance - holdsOf s a < m then
        refuseAccount s a .funds (balanceBytes (max 0 (k.balance - holdsOf s a)))
      else setAccountDone s a { k with balance := k.balance - m })) ReqKind.accountWithdraw.byte h)) :=
  exec_of_admitted ha rfl rfl

end

/-- Settles O28: the shared checks, then the two FUNDS checks; a raised limit covers what the old limit covered. -/
theorem accountLimitChecksAndSets : Obligations.AccountLimitChecksAndSets := by
  intro s h b ha a l k funds
  obtain ⟨noAccount, checked⟩ := exec_of_afterAccountChecks (exec_accountLimit ha)
  refine ⟨noAccount, fun h1 h64 => ?_⟩
  obtain ⟨badLimit, inactive, further⟩ := checked h1 h64
  refine ⟨fun hl => badLimit (limitOk_eq_false hl),
    fun hl hactive hsuspended => inactive (limitOk_eq_true hl) (AccountState.eq_inactive hactive hsuspended),
    fun hl hopen => ?_⟩
  obtain ⟨short, covered⟩ := further (limitOk_eq_true hl) (AccountState.ne_inactive hopen)
  have sets (hdebit : -(l : Int) ≤ k.balance) (hholds : (holdsOf s a : Int) ≤ k.balance + l) :
      exec (.accountLimit h b) s = .next (accountSet s h .accountLimit a { k with limit := l }) :=
    covered (not_or.mpr ⟨Int.not_lt.mpr hdebit, Int.not_lt.mpr hholds⟩)
  refine ⟨fun hdebit => short (.inl hdebit), fun _ hholds => short (.inr hholds), sets, fun hdebit hholds hraised => ?_⟩
  have hraised' : (k.limit : Int) ≤ l := Int.ofNat_le.mpr hraised
  exact sets ((Int.neg_le_neg hraised').trans hdebit) (hholds.trans (Int.add_le_add_left hraised' _))

/-- Settles O29: the shared checks, then the balance a deposit would reach, or the balance that holds leave to a withdrawal. -/
theorem accountMoneyRequests : Obligations.AccountMoneyRequests := by
  intro s h b a m k
  refine ⟨fun ha => ?_, fun ha => ?_⟩
  · simpa only [Int.not_lt] using exec_of_amountChecks (exec_accountDeposit ha)
  · simpa only [Int.not_lt] using exec_of_amountChecks (exec_accountWithdraw ha)

end Sys2Proof.Machine
end

section
/-! PROOFS. The check value of a frame (R199): the register's step for one more byte, the frames that carry it, and what the
receiver makes of it, and with them O13. -/

namespace Sys2Proof.Machine

/-! ### The check value over a list of bytes -/

theorem crc16_nil : crc16 [] = 0xFFFF#16 := rfl

theorem crc16_append_singleton (bs : List Byte) (b : Byte) : crc16 (bs ++ [b]) = crcByte (crc16 bs) b :=
  List.foldl_concat ..

/-- The published check of the polynomial 1021h with initial value FFFFh, over the digits 1 to 9. -/
theorem crc16_digits : crc16 ((List.range 9).map fun i => BitVec.ofNat 8 (0x31 + i)) = 0x29B1#16 := by decide +kernel

/-! ### The frames the controller builds -/

theorem ControlFrame.bytes_eq_frameBytes (f : ControlFrame) : ∃ k tag st body, f.bytes = frameBytes k tag st body := by
  cases f with
  | reply r => exact ⟨_, _, _, _, rfl⟩
  | linkReject w => exact ⟨_, _, _, _, rfl⟩
  | notice n =>
    obtain ⟨kind, about, fields⟩ := n
    cases about with
    | none => exact ⟨_, _, _, _, rfl⟩
    | some origin => exact ⟨_, _, _, _, rfl⟩

/-! ### The last byte of a frame received -/

/-- At the length its length field gives, a frame in hand is taken or bad with CHECK, by its check field alone (R190). -/
theorem rxStep_of_length {rx bs : List Byte} {b : Byte} {len : Nat} (hbytes : rx ++ [b] = bs) (hlen : numAt bs 1 2 = len)
    (hlimit : len ≤ Config.bodyLimit) (hlength : bs.length = 9 + len) :
    rxStep rx b =
      if numAt bs (7 + len) 2 = (crc16 (sliceOf bs 3 (4 + len))).toNat then
        ([], some (.request (BitVec.ofNat 8 (numAt bs 3 1)) ⟨BitVec.ofNat 16 (numAt bs 4 2), BitVec.ofNat 8 (numAt bs 6 1)⟩
          (sliceOf bs 7 len)))
      else ([], some (.bad .check)) := by
  have inHand : rx ≠ [] := by
    rintro rfl
    rw [← hbytes, List.nil_append, List.length_singleton] at hlength
    omega
  have lengthKnown : ¬ bs.length < 3 := by omega
  have complete : ¬ bs.length < 9 + len := Nat.not_lt.mpr hlength.ge
  simp only [rxStep, hbytes, hlen, if_neg inHand, if_neg lengthKnown, if_neg (Nat.not_lt.mpr hlimit), if_neg complete]

/-- Settles O13: the digits' check by computation, the register's step by `crcByte_bits`, the frames by their definitions, and
the receiver by its two outcomes at a frame's last byte. -/
theorem checkValueIsCrc16 : Obligations.CheckValueIsCrc16 := by
  refine ⟨crc16_digits, crc16_nil, fun bs b => ?_, fun _ _ _ _ => rfl, ControlFrame.bytes_eq_frameBytes,
    fun _ => ⟨_, _, _, _, rfl⟩, fun rx b => ?_⟩
  · rw [crc16_append_singleton, crcByte_bits]
  · intro bs len hlimit hlength
    rw [rxStep_of_length (bs := bs) (len := len) rfl rfl hlimit hlength]
    split
    next agrees => simp [agrees]
    next differs => simp [differs]

end Sys2Proof.Machine
end

section
/-! PROOFS. What every command keeps. `Held` and `Tame` put the laws of a step side by side; a calm change is tame (Laws/), and each
owner's answer to a request is tame, so that the invariants over all steps are read off one lemma. -/

namespace Sys2Proof.Machine

/-! ### The laws of a step side by side -/

/-- The laws that every command keeps, a power-on among them. -/
structure Held (s t : State) : Prop where
  pending : t.pending = s.pending
  memWf : Memory.wf s.mem = true → Memory.wf t.mem = true
  notices : noticeCount s ≤ 32 → noticeCount t ≤ 32
  replies : replyCount s ≤ 8 → replyCount t ≤ 8
  sized : TablesSized s → TablesSized t
  capacity : WithinCapacity s → WithinCapacity t
  placed : TablesSized s → s.placed → t.placed
  staged : StagingKept s → StagingKept t
  reserve : ReserveKept s → ReserveKept t
  settings : SettingsInRange s → SettingsInRange t
  money : MoneyKept s → MoneyKept t
  labels : s.mode ≠ .rebuild → LabelsKept s → LabelsKept t
  lawful : s.mode ≠ .rebuild → Lawful s.ret → Lawful t.ret

/-- What every command but a power-on keeps besides: document numbers go on, and so do pointers and counts unless a record may be
forgotten. -/
structure Steady (forgets : Prop) (s t : State) : Prop extends Held s t where
  mode : s.mode ≠ .rebuild → t.mode ≠ .rebuild
  numbers : s.mode ≠ .rebuild → Lawful s.ret → NumbersGoOn s.ret t.ret
  grows : ¬ forgets → s.mode ≠ .rebuild → Lawful s.ret → Grows s.ret t.ret

/-- What every command keeps that leaves the power alone. -/
structure Tame (forgets : Prop) (s t : State) : Prop extends Steady forgets s t where
  powered : t.powered = s.powered

theorem Grows.numbersGoOn {r t : Retained} (h : Grows r t) : NumbersGoOn r t := ⟨h.numbers, h.next, h.given⟩

theorem numbersGoOn_trans {a b c : Retained} (h : NumbersGoOn a b) (k : NumbersGoOn b c) : NumbersGoOn a c := by
  obtain ⟨holds, next, given⟩ := h
  obtain ⟨holds', next', given'⟩ := k
  refine ⟨fun n d hd => holds' n d (holds n d hd), next.trans next', fun d h1 h2 => ?_⟩
  by_cases hb : d < b.nextDoc
  · obtain ⟨n, hn⟩ := given d h1 hb
    exact ⟨n, holds' n d hn⟩
  · exact given' d (Nat.not_lt.mp hb) h2

theorem Held.refl (s : State) : Held s s := ⟨rfl, id, id, id, id, id, fun _ => id, id, id, id, id, fun _ => id, fun _ => id⟩

theorem Tame.refl (f : Prop) (s : State) : Tame f s s :=
  ⟨⟨Held.refl s, id, fun _ _ => (Grows.refl _).numbersGoOn, fun _ _ _ => Grows.refl _⟩, rfl⟩

theorem Tame.trans {f : Prop} {a b c : State} (h : Tame f a b) (k : Tame f b c) : Tame f a c where
  pending := k.pending.trans h.pending
  memWf e := k.memWf (h.memWf e)
  notices e := k.notices (h.notices e)
  replies e := k.replies (h.replies e)
  sized e := k.sized (h.sized e)
  capacity e := k.capacity (h.capacity e)
  placed e p := k.placed (h.sized e) (h.placed e p)
  staged e := k.staged (h.staged e)
  reserve e := k.reserve (h.reserve e)
  settings e := k.settings (h.settings e)
  money e := k.money (h.money e)
  labels e l := k.labels (h.mode e) (h.labels e l)
  lawful e l := k.lawful (h.mode e) (h.lawful e l)
  mode e := k.mode (h.mode e)
  numbers e l := numbersGoOn_trans (h.numbers e l) (k.numbers (h.mode e) (h.lawful e l))
  grows n e l := (h.grows n e l).trans (k.grows n (h.mode e) (h.lawful e l))
  powered := k.powered.trans h.powered

/-! ### A calm change is tame -/

theorem replyCount_append_notices (c ns : List ControlFrame) (h : ∀ f ∈ ns, f.isNotice = true) :
    ((c ++ ns).filter fun f => !f.isNotice).length = (c.filter fun f => !f.isNotice).length := by
  have : (ns.filter fun f => !f.isNotice) = [] := List.filter_eq_nil_iff.2 fun f hf => by simp [h f hf]
  rw [List.filter_append, this, List.append_nil]

theorem Calm.replyCount_eq {kd : Kind} {s t : State} (h : Calm kd s t) : replyCount t = replyCount s := by
  obtain ⟨ns, e, hn⟩ := h.ctl
  rw [replyCount, e, replyCount_append_notices _ _ hn, replyCount]

theorem Calm.fixed_fields {kd : Kind} {s t : State} (h : Calm kd s t) :
    t.pending = s.pending ∧ t.clock = s.clock ∧ t.params = s.params ∧ t.stations = s.stations := by
  have e := h.fixed
  simp only [State.fixed, Prod.mk.injEq] at e
  obtain ⟨_, hp, hc, _, hq, hs, _⟩ := e
  exact ⟨hp, hc, hq, hs⟩

theorem Calm.powered {kd : Kind} {s t : State} (h : Calm kd s t) : t.powered = s.powered := congrArg Prod.fst h.fixed

theorem Calm.sized {kd : Kind} {s t : State} (h : Calm kd s t) (hs : TablesSized s) : TablesSized t := by
  have e := h.sizes
  simp only [State.sizes, Prod.mk.injEq] at e
  obtain ⟨e1, e2, e3, e4, e5⟩ := e
  obtain ⟨e6, e7⟩ := h.moneySizes
  obtain ⟨_, _, _, e8⟩ := h.fixed_fields
  obtain ⟨h1, h2, h3, h4, h5, h6, h7, h8, h9⟩ := hs
  exact ⟨e1.trans h1, e2.trans h2, e3.trans h3, e6.trans h4, e7.trans h5, h.kept.1 h6, by rw [e8, h7], e4.trans h8, e5.trans h9⟩

theorem Calm.capacity {kd : Kind} {s t : State} (h : Calm kd s t) (hs : WithinCapacity s) : WithinCapacity t := by
  obtain ⟨hw, hf, hg, hq, hp, hr, hn, ho⟩ := hs
  refine ⟨h.work.trans (max_le hw le_rfl), h.fetches.trans hf, h.filings.length.trans hg, h.queue.trans (max_le hq le_rfl),
    (h.filings.2 hr).trans hp, hr.sublist h.filings.1, hn.sublist h.orders.numbers, fun o hm => ?_⟩
  obtain ⟨o', hm', e⟩ := List.mem_map.1 (h.orders.numbers.subset (List.mem_map_of_mem hm))
  rw [← e]
  exact ho o' hm'

theorem Calm.held {kd : Kind} {s t : State} (h : Calm kd s t) : Held s t where
  pending := h.fixed_fields.1
  memWf := h.memWf
  notices e := h.notices.trans (max_le e le_rfl)
  replies e := by rw [h.replyCount_eq]; exact e
  sized := h.sized
  capacity := h.capacity
  placed := fun ⟨_, _, _, _, _, _, _, hd, _⟩ p => h.placed hd p
  staged := h.staged
  reserve := h.reserve
  settings e := by
    obtain ⟨_, hc, hp, _⟩ := h.fixed_fields
    rw [SettingsInRange, hc, hp]
    exact e
  money e := by
    obtain ⟨hz, hp, hb⟩ := e
    exact ⟨h.sized hz, h.payers hp, h.law hz.2.2.2.1 hz.2.2.2.2.1 hp hb⟩
  labels := h.labels
  lawful e l := ((h.kept.2 e).2 l).1

theorem Calm.tame {kd : Kind} {s t : State} (f : Prop) (h : Calm kd s t) : Tame f s t :=
  ⟨⟨h.held, fun e => (h.kept.2 e).1, fun e l => ((h.kept.2 e).2 l).2.numbersGoOn, fun _ e l => ((h.kept.2 e).2 l).2⟩, h.powered⟩

/-- The kind of a change that may fill staging and move money: every calm change is one. -/
def anyKind : Kind := ⟨true, true⟩

/-! ### Changes of single fields -/

theorem rx_tame (f : Prop) (s : State) (rx : List Byte) : Tame f s { s with rx := rx } := { Tame.refl f s with }

theorem waiting_tame (f : Prop) (s : State) (w : Option Arrival) : Tame f s { s with waiting := w } := { Tame.refl f s with }

theorem heldOff_tame (f : Prop) (s : State) (b : Bool) : Tame f s { s with heldOff := b } := { Tame.refl f s with }

theorem line_tame (f : Prop) (s : State) (l : Option LineFrame) : Tame f s { s with line := l } := { Tame.refl f s with }

theorem dropped_tame (f : Prop) (s : State) (b : Bool) : Tame f s { s with dropped := b } := { Tame.refl f s with }

theorem control_tame (f : Prop) (s : State) (c : List ControlFrame)
    (hn : (c.filter ControlFrame.isNotice).length ≤ noticeCount s)
    (hr : replyCount s ≤ 8 → (c.filter fun f => !f.isNotice).length ≤ 8) : Tame f s { s with control := c } :=
  { Tame.refl f s with
    notices := fun e => hn.trans e
    replies := hr }

theorem params_tame (f : Prop) (s : State) (p : Params) (hp : p.inRange) : Tame f s { s with params := p } :=
  { Tame.refl f s with settings := fun e => ⟨hp, e.2⟩ }

theorem clock_tame (f : Prop) (s : State) (c : Option Clock) (n : Nat)
    (hc : (∀ k, s.clock = some k → k.inRange) → ∀ k, c = some k → k.inRange) :
    Tame f s { s with clock := c, elapsed := n } :=
  { Tame.refl f s with settings := fun e => ⟨e.1, hc e.2⟩ }

theorem stations_tame (f : Prop) (s : State) (n : Nat) (k : StationKind) :
    Tame f s { s with stations := tset s.stations n k } :=
  have sized : TablesSized s → TablesSized { s with stations := tset s.stations n k } := by
    rintro ⟨h1, h2, h3, h4, h5, h6, h7, h8⟩
    exact ⟨h1, h2, h3, h4, h5, h6, (tset_length ..).trans h7, h8⟩
  { Tame.refl f s with
    sized := sized
    money := fun e => ⟨sized e.1, e.2⟩ }

/-- Stores alike in what the laws of the tables see. -/
def Retained.lawPart (r : Retained) := (r.slots, r.carts, r.sides, r.withheld, r.nextDoc, r.labelCounter)

/-- An update of the money, the fees and the day, which the laws of the tables do not see. -/
theorem money_tame (f : Prop) (s : State) (r : Retained) (hr : r.lawPart = s.ret.lawPart)
    (ha : r.accounts.length = s.ret.accounts.length) (hc : r.cash.length = s.ret.cash.length)
    (hb : s.ret.accounts.length = 64 → DayBalanced s → r.counts.total = (r.accounts.map Account.charged).sum + r.cash.sum) :
    Tame f s { s with ret := r } := by
  simp only [Retained.lawPart, Prod.mk.injEq] at hr
  obtain ⟨e1, e2, e3, e4, e5, e6⟩ := hr
  have sized : TablesSized s → TablesSized { s with ret := r } := by
    rintro ⟨h1, h2, h3, h4, h5, h6, h7⟩
    exact ⟨by rw [e1, h1], by rw [e2, h2], by rw [e3, h3], ha.trans h4, hc.trans h5, by rw [e4, h6], h7⟩
  have kept : Kept s.mode s.ret s.mode r := Kept.same e3 e2 (fun n => by simp only [Retained.disabled, e1]) e5 (by rw [e4])
  refine ⟨⟨⟨rfl, id, id, id, sized, id, fun _ p => ?_, id, fun e => ?_, id, fun e => ⟨sized e.1, e.2.1, ?_⟩, fun _ l => ?_,
    fun e l => ((kept.2 e).2 l).1⟩, id, fun e l => ((kept.2 e).2 l).2.numbersGoOn, fun _ e l => ((kept.2 e).2 l).2⟩, rfl⟩
  · show Placed r.slots s.drives s.picker.gripper s.picker.mails r.carts
    rw [e1, e2]
    exact p
  · show ReserveLaw s.mode s.reserved r.withheld
    rw [e4]
    exact e
  · exact hb e.1.2.2.2.1 e.2.2
  · show LabelLaw r.carts r.labelCounter s.drives
    rw [e2, e6]
    exact l

theorem tset_outside {α : Type} (t : List α) (i : Nat) (x : α) (h : i = 0 ∨ t.length < i) : tset t i x = t := by
  cases i with
  | zero => rfl
  | succ i => exact List.set_eq_of_length_le (by omega)

theorem charged_sum_tset (l : List Account) (a : Nat) (k : Account) (hk : k.charged = (tget l a Account.initial).charged) :
    ((tset l a k).map Account.charged).sum = (l.map Account.charged).sum := by
  by_cases ha : 1 ≤ a ∧ a ≤ l.length
  · have h := charged_tset l a 0 (fun x => { k with charged := x.charged }) (fun _ => rfl) ha.1 ha.2
    simp only [← hk] at h
    exact h
  · rw [tset_outside _ _ _ (by omega)]

/-- An account's record is replaced, its charged figure kept. -/
theorem setAccount_tame (f : Prop) (s : State) (a : Nat) (k : Account) (hk : k.charged = (s.account a).charged) :
    Tame f s (s.setAccount a k) := by
  refine money_tame f s _ rfl (tset_length ..) rfl fun _ hb => ?_
  show s.ret.counts.total = ((tset s.ret.accounts a k).map Account.charged).sum + s.ret.cash.sum
  rw [show s.ret.counts.total = _ from hb, charged_sum_tset s.ret.accounts a k hk]

end Sys2Proof.Machine
end

section
/-! PROOFS. Each owner's answer to a request is tame. -/

namespace Sys2Proof.Machine

/-! ### An answer -/

/-- An owner's answer keeps the laws and adds no reply of its own. -/
structure Owned (f : Prop) (s : State) (a : Answer) : Prop where
  tame : Tame f s a.state
  replies : replyCount a.state = replyCount s

theorem Owned.of_calm {f : Prop} {kd : Kind} {s : State} {a : Answer} (h : Calm kd s a.state) : Owned f s a :=
  ⟨h.tame f, h.replyCount_eq⟩

theorem Owned.refuse (f : Prop) (s : State) (c : RefCode) (b : List Byte) : Owned f s (refuse s c b) := ⟨Tame.refl f s, rfl⟩

theorem Owned.report (f : Prop) (s : State) (b : List Byte) : Owned f s (done s s b) := ⟨Tame.refl f s, rfl⟩

theorem Owned.done {f : Prop} {s t : State} (h : Tame f s t) (hr : replyCount t = replyCount s) (b : List Byte) :
    Owned f s (done s t b) := ⟨h, hr⟩

theorem Owned.accepted {f : Prop} {s t : State} (h : Tame f s t) (hr : replyCount t = replyCount s) (b : List Byte) :
    Owned f s (accepted s t b) := ⟨h, hr⟩

/-- A request that woke the controller from REST and was refused all the same. -/
theorem Owned.refuseAwake (f : Prop) (s : State) (c : RefCode) (b : List Byte) : Owned f s (refuseAfter s (wakeFromRest s) c b) :=
  Owned.of_calm (kd := anyKind) (wakeFromRest_calm (Calm.refl _ s))

theorem length_filter_insertAt (p : ControlFrame → Bool) (n : Nat) (x : ControlFrame) (l : List ControlFrame) :
    ((insertAt n x l).filter p).length = (l.filter p).length + if p x then 1 else 0 := by
  have h : l.filter p = (l.take n).filter p ++ (l.drop n).filter p := by rw [← List.filter_append, List.take_append_drop]
  rw [h, insertAt, List.filter_append, List.length_append, List.length_append, List.filter_cons]
  by_cases hp : p x
  · simp only [hp, if_true, List.length_cons]
    omega
  · simp [hp]

/-- The reply takes one place of the Reply Queue. -/
theorem putReply_tame {f : Prop} {s : State} {a : Answer} (h : Owned f s a) (kind : Byte) (hd : Hdr) (hr : replyCount s < 8) :
    Tame f s (putReply a kind hd) := by
  refine h.tame.trans (control_tame f a.state _ ?_ fun _ => ?_)
  · rw [length_filter_insertAt]
    exact le_rfl
  · rw [length_filter_insertAt]
    have : replyCount a.state < 8 := by rw [h.replies]; exact hr
    simp only [ControlFrame.isNotice, Bool.not_false, if_true]
    exact this

/-! ### Queries -/

theorem statusOp_owned (f : Prop) (s : State) : Owned f s (statusOp s) := ⟨dropped_tame f s false, rfl⟩

theorem locateOp_owned (f : Prop) (s : State) (b : List Byte) : Owned f s (locateOp s b) := by
  unfold locateOp
  dsimp only
  split <;> exact Owned.report f s _

theorem sideQueryOp_owned (f : Prop) (s : State) (b : List Byte) : Owned f s (sideQueryOp s b) := by
  unfold sideQueryOp
  dsimp only
  split
  · exact Owned.report f s _
  · exact Owned.refuse f s _ _

theorem cartridgeQueryOp_owned (f : Prop) (s : State) (b : List Byte) : Owned f s (cartridgeQueryOp s b) := by
  unfold cartridgeQueryOp
  dsimp only
  split
  · exact Owned.report f s _
  · exact Owned.refuse f s _ _

theorem accountQueryOp_owned (f : Prop) (s : State) (b : List Byte) : Owned f s (accountQueryOp s b) := by
  unfold accountQueryOp
  dsimp only
  split
  · exact Owned.report f s _
  · exact Owned.refuse f s _ _

theorem withheldQueryOp_owned (f : Prop) (s : State) (b : List Byte) : Owned f s (withheldQueryOp s b) := by
  unfold withheldQueryOp
  dsimp only
  split
  · exact Owned.refuse f s _ _
  · exact Owned.report f s _

/-! ### Settings -/

theorem stationSetOp_owned (f : Prop) (s : State) (b : List Byte) : Owned f s (stationSetOp s b) := by
  unfold stationSetOp
  dsimp only
  split
  · exact Owned.refuse f s _ _
  · split
    · exact ⟨stations_tame f s _ _, rfl⟩
    · exact Owned.refuse f s _ _

/-- Parameters with no field out of range lie in the ranges of R195. -/
theorem toParams_inRange {q : ParamsReq} (h : q.badField = 0) : q.toParams.inRange := by
  unfold ParamsReq.badField at h
  split_ifs at h with h1 h2 h3 h4 h5 h6 h7
  refine ⟨h1, h2, h3, h4, ?_, h6, h7⟩
  obtain ⟨ho, hs⟩ := h5
  show tget classOrders q.order Params.default.classOrder ∈ classOrders
  generalize q.order = n at ho hs
  interval_cases n <;> simp [tget, classOrders]

theorem idleChanged_calm {kd : Kind} {s0 s : State} (hc : Calm kd s0 s) : Calm kd s0 (idleChanged s) :=
  calm_foldl _ (fun t d ht => by
    dsimp only
    split
    · exact spinDownNow_calm ht d
    · exact ht) _ _ hc

theorem setParamsOp_owned (f : Prop) (s : State) (b : List Byte) : Owned f s (setParamsOp s b) := by
  unfold setParamsOp
  dsimp only
  split
  · exact Owned.refuse f s _ _
  · next hq =>
    have hp := params_tame f s (parseParams b).toParams (toParams_inRange (not_not.1 hq))
    split
    · exact Owned.done hp rfl _
    · have hi := idleChanged_calm (Calm.refl anyKind { s with params := (parseParams b).toParams })
      exact Owned.done (hp.trans (hi.tame f)) hi.replyCount_eq _

theorem setClockOp_owned (f : Prop) (s : State) (b : List Byte) : Owned f s (setClockOp s b) := by
  unfold setClockOp
  dsimp only
  split
  · next hr =>
    have hx := expireDue_calm (Calm.refl anyKind { s with clock := some ⟨numAt b 0 2, numAt b 2 4⟩ })
    exact ⟨(clock_tame f s (some ⟨numAt b 0 2, numAt b 2 4⟩) s.elapsed fun _ k hk => by cases hk; exact hr).trans (hx.tame f),
      hx.replyCount_eq⟩
  · exact Owned.refuse f s _ _

theorem feeSetOp_owned (f : Prop) (s : State) (b : List Byte) : Owned f s (feeSetOp s b) := by
  unfold feeSetOp
  dsimp only
  split
  · exact ⟨money_tame f s _ rfl rfl rfl fun _ h => h, rfl⟩
  · exact Owned.refuse f s _ _

/-! ### Accounts and the day -/

theorem setAccountDone_owned (f : Prop) (s : State) (a : Nat) (k : Account) (hk : k.charged = (s.account a).charged) :
    Owned f s (setAccountDone s a k) := ⟨setAccount_tame f s a k hk, rfl⟩

theorem accountOpenOp_owned (f : Prop) (s : State) (b : List Byte) : Owned f s (accountOpenOp s b) := by
  unfold accountOpenOp
  dsimp only
  split_ifs
  iterate 3 exact Owned.refuse f s _ _
  exact setAccountDone_owned f s _ _ rfl

theorem accountSuspendOp_owned (f : Prop) (s : State) (b : List Byte) : Owned f s (accountSuspendOp s b) := by
  unfold accountSuspendOp
  dsimp only
  split_ifs
  iterate 2 exact Owned.refuse f s _ _
  exact setAccountDone_owned f s _ _ rfl

theorem accountResumeOp_owned (f : Prop) (s : State) (b : List Byte) : Owned f s (accountResumeOp s b) := by
  unfold accountResumeOp
  dsimp only
  split_ifs
  iterate 2 exact Owned.refuse f s _ _
  exact setAccountDone_owned f s _ _ rfl

theorem accountCloseOp_owned (f : Prop) (s : State) (b : List Byte) : Owned f s (accountCloseOp s b) := by
  unfold accountCloseOp
  dsimp only
  split_ifs
  iterate 4 exact Owned.refuse f s _ _
  exact setAccountDone_owned f s _ _ rfl

theorem accountLimitOp_owned (f : Prop) (s : State) (b : List Byte) : Owned f s (accountLimitOp s b) := by
  unfold accountLimitOp
  dsimp only
  split_ifs
  iterate 4 exact Owned.refuse f s _ _
  exact setAccountDone_owned f s _ _ rfl

theorem accountDepositOp_owned (f : Prop) (s : State) (b : List Byte) : Owned f s (accountDepositOp s b) := by
  unfold accountDepositOp
  dsimp only
  split_ifs
  iterate 4 exact Owned.refuse f s _ _
  exact setAccountDone_owned f s _ _ rfl

theorem accountWithdrawOp_owned (f : Prop) (s : State) (b : List Byte) : Owned f s (accountWithdrawOp s b) := by
  unfold accountWithdrawOp
  dsimp only
  split_ifs
  iterate 4 exact Owned.refuse f s _ _
  exact setAccountDone_owned f s _ _ rfl

theorem dayOpenOp_owned (f : Prop) (s : State) : Owned f s (dayOpenOp s) := by
  unfold dayOpenOp
  split_ifs
  iterate 2 exact Owned.refuse f s _ _
  exact ⟨money_tame f s _ rfl rfl rfl fun _ h => h, rfl⟩

theorem sum_map_zero {α : Type} (l : List α) : (l.map fun _ => 0).sum = 0 := by simp

theorem dayCloseOp_owned (f : Prop) (s : State) : Owned f s (dayCloseOp s) := by
  unfold dayCloseOp
  split
  · exact Owned.refuse f s _ _
  split
  · exact Owned.refuse f s _ _
  refine Owned.done (money_tame f s (closeDay s).ret rfl (List.length_map ..) (List.length_map ..) fun _ _ => ?_) rfl _
  simp only [closeDay, State.retain, List.map_map, Function.comp_def, sum_map_zero, DayCounts.zero]

/-! ### Work requests -/

theorem freshId_calm {kd : Kind} {s0 s : State} (hc : Calm kd s0 s) : Calm kd s0 (freshId s).2 :=
  claims_calm hc s.claims (s.nextId + 1) fun h =>
    ⟨h.ids, fun c hm => Nat.lt_succ_of_lt (h.fresh c hm), h.waiting, h.disjoint, h.range, h.filings⟩

theorem addFetch_tame (f : Prop) (s : State) (x : Fetch) (hl : s.fetches.length < 48) :
    Tame f s { s with fetches := s.fetches ++ [x] } :=
  { Tame.refl f s with
    capacity := fun ⟨hw, _, rest⟩ => ⟨hw, by rw [List.length_append]; exact hl, rest⟩ }

theorem listFull_eq_false {s : State} (h : listFull s = false) : s.work.length < Config.workCapacity ∧ s.heldReqs = [] := by
  simpa [listFull] using h

theorem fetchOp_owned (f : Prop) (s : State) (tag : Word16) (st : Nat) (b : List Byte) : Owned f s (fetchOp s tag st b) := by
  unfold fetchOp
  dsimp only
  split
  · exact Owned.refuse f s _ _
  split
  · exact Owned.refuseAwake f s _ _
  split
  · exact Owned.refuseAwake f s _ _
  next n _ =>
  split
  · exact Owned.refuseAwake f s _ _
  next hl =>
    simp only [Bool.or_eq_true, decide_eq_true_eq, not_or, Bool.not_eq_true, Nat.not_le] at hl
    obtain ⟨hw, hf⟩ := hl
    have hw := (listFull_eq_false hw).1
    have hn := freshId_calm (Calm.refl anyKind (wakeFromRest s))
    have hi := createItem_calm hn hw (some tag) (some st) (fetchClass (parseFetch b)) .fetch (some n) (some (parseFetch b).doc)
      none none none .waiting none
    have hawake := (wakeFromRest_calm (Calm.refl anyKind s)).trans hi
    exact ⟨(hawake.tame f).trans (addFetch_tame f _ _ (lt_of_le_of_lt hi.fetches hf)), hawake.replyCount_eq⟩

theorem addOrder_tame (f : Prop) (s : State) (o : Order) (n : Word32) (hp : o.payerOk) (hn : 1 ≤ o.number ∧ o.number ≤ 16)
    (hf : ∀ x ∈ s.orders, x.number ≠ o.number) : Tame f s { s with orders := s.orders ++ [o], acceptCount := n } :=
  { Tame.refl f s with
    capacity := fun ⟨h1, h2, h3, h4, h5, h6, h7, h8⟩ => by
      refine ⟨h1, h2, h3, h4, h5, h6, ?_, fun x hx => ?_⟩
      · rw [List.map_append, List.nodup_append]
        refine ⟨h7, List.nodup_singleton _, fun a ha b hb => ?_⟩
        obtain ⟨x, hx, rfl⟩ := List.mem_map.1 ha
        rw [List.mem_singleton.1 hb]
        exact hf x hx
      · rcases List.mem_append.1 hx with hx | hx
        · exact h8 x hx
        · rw [List.mem_singleton.1 hx]
          exact hn
    money := fun ⟨hz, ho, hb⟩ => ⟨hz, fun x hx => by
      rcases List.mem_append.1 hx with hx | hx
      · exact ho x hx
      · rw [List.mem_singleton.1 hx]
        exact hp, hb⟩ }

theorem freeOrder_eq_some {s : State} {n : Nat} (h : freeOrder s = some n) :
    (1 ≤ n ∧ n ≤ 16) ∧ ∀ o ∈ s.orders, o.number ≠ n := by
  refine ⟨mem_upTo (List.mem_of_find?_eq_some h), fun o ho e => ?_⟩
  have := List.find?_some h
  simp only [Bool.not_eq_true', List.any_eq_false, beq_iff_eq] at this
  exact this o ho e

theorem portGrant_calm {kd : Kind} {s0 s : State} (hc : Calm kd s0 s) : Calm kd s0 ((portGrantRule s).getD s) := by
  cases hg : portGrantRule s with
  | none => exact hc
  | some t => exact portGrantRule_calm hc hg

theorem enterOrder_tame (f : Prop) (s : State) (tag : Word16) (st : Nat) (q : CopyReq) (side number : Nat)
    (hw : s.work.length < Config.workCapacity) (hn : freeOrder s = some number)
    (hp : q.payer ≤ 64 ∧ (q.payer = 0 → 1 ≤ st ∧ st ≤ 32)) :
    Tame f s (enterOrder s tag st q side number) ∧ replyCount (enterOrder s tag st q side number) = replyCount s := by
  have hi := createItem_calm (Calm.refl anyKind s) hw (some tag) (some st) .copy .copy (some side) (some q.doc) none (some number) none
    .waitingPort none
  obtain ⟨hr, hx⟩ := freeOrder_eq_some hn
  unfold enterOrder
  dsimp only
  refine ⟨(hi.tame f).trans (Tame.trans (addOrder_tame f _ _ _ ?_ ?_ ?_) ((portGrant_calm (Calm.refl anyKind _)).tame f)), ?_⟩
  · exact hp
  · exact hr
  · exact hx
  · exact (portGrant_calm (Calm.refl anyKind _)).replyCount_eq

theorem CopyReq.payer_le_of_fieldsOk {q : CopyReq} (h : q.fieldsOk = true) : q.payer ≤ 64 := by
  simp only [CopyReq.fieldsOk, Bool.and_eq_true, decide_eq_true_eq] at h
  exact h.2

theorem copyOrderOp_owned (f : Prop) (s : State) (tag : Word16) (st : Nat) (b : List Byte) (hst : st ≤ 32) :
    Owned f s (copyOrderOp s tag st b) := by
  unfold copyOrderOp
  dsimp only
  split
  · exact Owned.refuse f s _ _
  split
  · exact Owned.refuseAwake f s _ _
  next hq =>
  split
  · exact Owned.refuseAwake f s _ _
  split
  · exact Owned.refuseAwake f s _ _
  next n _ =>
  split
  · exact Owned.refuseAwake f s _ _
  split
  · exact Owned.refuseAwake f s _ _
  split
  · exact Owned.refuseAwake f s _ _
  split
  · exact Owned.refuseAwake f s _ _
  next number hn =>
  split
  · exact Owned.refuseAwake f s _ _
  next hl =>
  split
  · exact Owned.refuseAwake f s _ _
  next hc =>
    simp only [Bool.or_eq_true, Bool.not_eq_true', not_or, Bool.not_eq_false] at hq
    have hw := (listFull_eq_false (Bool.not_eq_true _ ▸ hl)).1
    have hawake := wakeFromRest_calm (Calm.refl anyKind s)
    obtain ⟨ht, hr⟩ := enterOrder_tame f (wakeFromRest s) tag st (parseCopy b) n number hw hn
      ⟨CopyReq.payer_le_of_fieldsOk hq.1, fun h0 => ⟨Nat.one_le_iff_ne_zero.2 fun e => hc ⟨h0, e⟩, hst⟩⟩
    exact Owned.accepted ((hawake.tame f).trans ht) (hr.trans hawake.replyCount_eq) _

theorem cancelOp_owned (f : Prop) (s : State) (st : Nat) (b : List Byte) : Owned f s (cancelOp s st b) := by
  unfold cancelOp
  dsimp only
  split
  · exact Owned.refuse f s _ _
  split
  · exact Owned.of_calm (cancelFetch_calm (Calm.refl anyKind s) _)
  split
  · unfold cancelOrder
    split
    · exact ⟨Tame.refl f s, rfl⟩
    · exact Owned.of_calm (closeOrder_calm (Calm.refl anyKind s) _ _ _)
    · exact Owned.of_calm (endOrder_calm (Calm.refl anyKind s) _ _)
  · exact Owned.refuse f s _ _

end Sys2Proof.Machine
end

section
/-! PROOFS. The owners' answers on filings, sides, slots, cartridges, drives and modes are tame, and so is every command. -/

namespace Sys2Proof.Machine

/-! ### Filings -/

/-- Room in the Filing Table and, for a rectification, in the Pending-Consent Table admits one filing more. -/
theorem addFiling_tame (f : Prop) (s : State) (x : Filing) (res : List (Nat × Word32)) (hl : s.filings.length < 6)
    (hp : x.pendingConsent = true → (pendingConsents s).length < 4) (hx : ∀ y ∈ s.filings, y.ref ≠ x.ref)
    (hr : ReserveKept s → ReserveLaw s.mode res s.ret.withheld) :
    Tame f s { s with filings := s.filings ++ [x], reserved := res } :=
  { Tame.refl f s with
    capacity := fun ⟨h1, h2, _, h4, h5, h6, h7⟩ => by
      refine ⟨h1, h2, by rw [List.length_append]; exact hl, h4, ?_, ?_, h7⟩
      · show ((s.filings ++ [x]).filter Filing.pendingConsent).length ≤ 4
        rw [List.filter_append, List.length_append, List.filter_singleton]
        cases he : x.pendingConsent with
        | true => exact hp he
        | false => exact h5
      · rw [List.map_append, List.nodup_append]
        refine ⟨h6, List.nodup_singleton _, fun a ha b hb => ?_⟩
        obtain ⟨y, hy, rfl⟩ := List.mem_map.1 ha
        rw [List.mem_singleton.1 hb]
        exact hx y hy
    reserve := hr }

theorem freeEntry_spec {s : State} {i : Nat} (h : i ∈ freeEntries s) :
    (1 ≤ i ∧ i ≤ s.ret.withheld.length ∧ tget s.ret.withheld i none = none) ∧ ∀ e ∈ s.reserved, e.1 ≠ i := by
  obtain ⟨hm, hf⟩ := List.mem_filter.1 h
  simp only [withheldFree, Bool.and_eq_true, Option.isNone_iff_eq_none, Bool.not_eq_true', List.any_eq_false, beq_iff_eq] at hf
  obtain ⟨h1, h2⟩ := mem_upTo hm
  exact ⟨⟨h1, h2, hf.1⟩, hf.2⟩

/-- The lowest free entry is reserved. -/
theorem reserveEntry (s : State) (ref : Word32) (hm : s.mode ≠ .rebuild) (h : ReserveKept s) :
    ReserveLaw s.mode (s.reserved ++ ((freeEntries s).take 1).map fun i => (i, ref)) s.ret.withheld := by
  cases he : freeEntries s with
  | nil => simpa using h
  | cons i rest =>
    obtain ⟨hi, hn⟩ := freeEntry_spec (he ▸ List.mem_cons_self .. : i ∈ freeEntries s)
    simp only [List.take_succ_cons, List.take_zero, List.map_cons, List.map_nil]
    refine ⟨fun e => absurd e hm, ?_, fun e hx => ?_⟩
    · rw [List.map_append, List.nodup_append]
      refine ⟨h.once, List.nodup_singleton _, fun a ha b hb => ?_⟩
      obtain ⟨e, hx, rfl⟩ := List.mem_map.1 ha
      rw [List.mem_singleton.1 hb]
      exact hn e hx
    · rcases List.mem_append.1 hx with hx | hx
      · exact h.free e hx
      · rw [List.mem_singleton.1 hx]
        exact hi

theorem findFiling_eq_none {s : State} {ref : Word32} (h : (s.findFiling ref).isSome = false) : ∀ x ∈ s.filings, x.ref ≠ ref := by
  simp only [State.findFiling, Option.isSome_eq_false_iff, Option.isNone_iff_eq_none, List.find?_eq_none, beq_iff_eq] at h
  exact h

theorem tableRoom_spec {s : State} {r : Bool} (h : tableRoom s r = true) :
    s.filings.length < 6 ∧ (r = true → (pendingConsents s).length < 4) := by
  simp only [tableRoom, Bool.and_eq_true, decide_eq_true_eq, Bool.or_eq_true, Bool.not_eq_true'] at h
  obtain ⟨⟨h1, _⟩, h2⟩ := h
  exact ⟨h1, fun hr => by rcases h2 with h2 | h2; exacts [absurd hr (by simp [h2]), h2.1]⟩

theorem enterFiling_tame (f : Prop) (s : State) (tag : Word16) (st : Nat) (q : FileBeginReq) (hm : s.mode ≠ .rebuild)
    (hr : tableRoom s (q.kind == 2) = true) (hn : (s.findFiling q.ref).isSome = false)
    (hc : q.count + heldByFilings s ≤ Config.filingStaging) : Tame f s (enterFiling s tag st q) := by
  obtain ⟨hl, hp⟩ := tableRoom_spec hr
  refine Tame.trans ((grantFilingClaim_calm (Calm.refl anyKind s) q.ref q.count hc).tame f)
    (addFiling_tame f (grantFilingClaim s q.ref q.count) (newFiling tag st q) _ hl (fun hx => hp ?_) (findFiling_eq_none hn) fun h => ?_)
  · by_contra hk
    simp only [beq_iff_eq] at hk
    simp [newFiling, Filing.pendingConsent, hk] at hx
  · split
    · exact reserveEntry _ q.ref hm h
    · exact h

theorem afterVoidings_calm {kd : Kind} {s0 s : State} (hc : Calm kd s0 s) (st : Nat) (q : FileBeginReq) :
    Calm kd s0 (afterVoidings s st q) := by
  unfold afterVoidings
  split
  · exact supersede_calm hc st
  · exact hc

theorem fileBeginOp_owned (f : Prop) (s : State) (tag : Word16) (st : Nat) (b : List Byte) (hm : s.mode ≠ .rebuild) :
    Owned f s (fileBeginOp s tag st b) := by
  unfold fileBeginOp
  dsimp only
  split
  · exact Owned.refuse f s _ _
  split
  · exact Owned.refuseAwake f s _ _
  split
  · exact Owned.refuseAwake f s _ _
  split
  · exact Owned.refuseAwake f s _ _
  split
  · exact Owned.refuseAwake f s _ _
  next hn =>
  split
  · exact Owned.refuseAwake f s _ _
  split
  · exact Owned.refuseAwake f s _ _
  next hr =>
  split
  · exact Owned.refuseAwake f s _ _
  next hf =>
    have hv := afterVoidings_calm (wakeFromRest_calm (Calm.refl anyKind s)) st (parseFileBegin b)
    simp only [filingClaimFits, Bool.not_eq_true', decide_eq_false_iff_not, not_not] at hf
    have ht := enterFiling_tame f _ tag st (parseFileBegin b) (hv.kept.2 hm).1 (by simpa using hr) (Bool.not_eq_true _ ▸ hn) hf.2
    exact ⟨(hv.tame f).trans ht, hv.replyCount_eq⟩

theorem fileDataOp_owned (f : Prop) (s : State) (st : Nat) (b : List Byte) : Owned f s (fileDataOp s st b) := by
  unfold fileDataOp
  dsimp only
  split
  · exact Owned.refuse f s _ _
  split
  · exact Owned.refuse f s _ _
  split
  · exact Owned.refuse f s _ _
  split
  · exact Owned.of_calm (modFiling_calm (writeBlock_calm (Calm.refl anyKind s) rfl _ _) _ _ fun _ => ⟨rfl, id⟩)
  · exact Owned.of_calm (modFiling_calm (Calm.refl anyKind s) _ _ fun _ => ⟨rfl, id⟩)

/-- What a passed receiving check says of the filing. -/
theorem receivingCheck_ok {s : State} {st : Nat} {ref : Word32} {f : Filing} (h : receivingCheck s st ref = .ok f) :
    s.mode ≠ .night ∧ s.findFiling ref = some f ∧ st = f.station ∧ f.state = .receiving := by
  unfold receivingCheck at h
  split_ifs at h with hm
  split at h
  · cases h
  · split_ifs at h with h1 h2
    cases h
    exact ⟨hm, ‹_›, not_not.1 h1, not_not.1 h2⟩

theorem fileEndOp_owned (f : Prop) (s : State) (st : Nat) (b : List Byte) : Owned f s (fileEndOp s st b) := by
  unfold fileEndOp
  dsimp only
  split
  · exact Owned.refuse f s _ _
  next x hx =>
  obtain ⟨_, hfind, _, hstate⟩ := receivingCheck_ok hx
  split
  · exact Owned.refuse f s _ _
  split
  · exact Owned.of_calm (awaitConsent_calm (Calm.refl anyKind s) _ hfind hstate)
  · exact Owned.of_calm (queueFiling_calm (Calm.refl anyKind s) _)

theorem consentOp_owned (f : Prop) (s : State) (st : Nat) (b : List Byte) : Owned f s (consentOp s st b) := by
  unfold consentOp
  dsimp only
  split
  · exact Owned.refuse f s _ _
  split
  · exact Owned.refuse f s _ _
  split
  · exact Owned.refuse f s _ _
  split
  · exact Owned.refuse f s _ _
  split
  · exact Owned.refuse f s _ _
  split
  · exact Owned.of_calm (voidFiling_calm (Calm.refl anyKind s) _ _)
  · exact Owned.of_calm (queueFiling_calm (Calm.refl anyKind s) _)

theorem fileCancelOp_owned (f : Prop) (s : State) (st : Nat) (b : List Byte) : Owned f s (fileCancelOp s st b) := by
  unfold fileCancelOp
  dsimp only
  split
  · exact Owned.refuse f s _ _
  split
  · exact Owned.refuse f s _ _
  split
  · exact Owned.refuse f s _ _
  split
  · exact Owned.of_calm (modFiling_calm (Calm.refl anyKind s) _ _ fun _ => ⟨rfl, id⟩)
  · exact Owned.of_calm (removeFiling_calm (Calm.refl anyKind s) _)

/-! ### Sides -/

theorem closeSideOp_owned (f : Prop) (s : State) (b : List Byte) : Owned f s (closeSideOp s b) := by
  unfold closeSideOp
  dsimp only
  split
  · exact Owned.refuse f s _ _
  split
  · exact Owned.refuse f s _ _
  split
  · exact Owned.refuse f s _ _
  · exact Owned.of_calm (closeSideAs_calm (Calm.refl anyKind s) _ _)

theorem abandonMark_calm {kd : Kind} {s0 s : State} (hc : Calm kd s0 s) (n : Nat) : Calm kd s0 (abandonMark s n) := by
  unfold abandonMark
  split
  · exact afterLabelWrite_calm (dropCommands_calm hc _) _
  · exact hc

theorem endFaultyWork_calm {kd : Kind} {s0 s : State} (hc : Calm kd s0 s) (n : Nat) (w : Bool) :
    Calm kd s0 (endFaultyWork s n w) :=
  endSideWork_calm hc n _ fun t i ht => by
    split
    · exact recheckChosen_calm ht _
    · exact endUnavailable_calm ht i

theorem faultSide_calm {kd : Kind} {s0 s : State} (hc : Calm kd s0 s) (n : Nat) (ha : sideAssigned s n = true) :
    Calm kd s0 (faultSide s n) :=
  setSide_calm hc n _ fun _ =>
    ⟨fun e => by simp [sideAssigned, e] at ha, nofun, nofun, ⟨rfl, rfl, rfl⟩, ⟨by simp, nofun⟩, le_rfl, le_rfl, le_rfl⟩

theorem markFaultyOp_owned (f : Prop) (s : State) (b : List Byte) : Owned f s (markFaultyOp s b) := by
  unfold markFaultyOp
  dsimp only
  split
  · exact Owned.refuse f s _ _
  next ha =>
  split
  · exact Owned.refuse f s _ _
  split
  · exact Owned.report f s _
  · exact Owned.of_calm (endFaultyWork_calm (abandonMark_calm (faultSide_calm (Calm.refl anyKind s) _
      (Bool.not_eq_false _ ▸ (not_or.1 ha).2)) _) _ _)

/-! ### Slots and cartridges -/

/-- A slot takes or loses its disabled mark; one that takes it is the home of no record. -/
theorem setSlotMark_tame (f : Prop) (s : State) (n : Nat) (m : Bool)
    (hm : m = true → Lawful s.ret → ∀ c k, s.ret.cart c = some k → k.home ≠ some n) :
    Tame f s (s.setSlot n { s.slot n with disabled := m }) := by
  have hget : ∀ k, tget (tset s.ret.slots n { s.slot n with disabled := m }) k ⟨.empty, true⟩ = tget s.ret.slots k ⟨.empty, true⟩ ∨
      (k = n ∧ tget (tset s.ret.slots n { s.slot n with disabled := m }) k ⟨.empty, true⟩ = { s.slot n with disabled := m }) := by
    intro k
    rw [tget_of_tset]
    split
    · next h => exact .inr ⟨h.1.symm, rfl⟩
    · exact .inl rfl
  have sized : TablesSized s → TablesSized (s.setSlot n { s.slot n with disabled := m }) := by
    rintro ⟨h1, h2⟩
    exact ⟨(tset_length ..).trans h1, h2⟩
  have lawful : Lawful s.ret → Lawful (s.setSlot n { s.slot n with disabled := m }).ret := fun h =>
    ⟨⟨h.1.next, h.1.oneOpen, h.1.blank, h.1.unassigned, h.1.runs, h.1.disjoint, h.1.openLast, h.1.marks⟩,
      h.2.home, h.2.oneHome, fun c k x hk hx => by
        show (tget (tset s.ret.slots n { s.slot n with disabled := m }) x ⟨.empty, true⟩).disabled = false
        rcases hget x with e | ⟨rfl, e⟩
        · rw [e]; exact h.2.enabled c k x hk hx
        · rw [e]
          cases m with
          | false => rfl
          | true => exact absurd hx (hm rfl h c k hk)⟩
  have grows : Grows s.ret (s.setSlot n { s.slot n with disabled := m }).ret :=
    ⟨fun _ => ⟨le_rfl, le_rfl, le_rfl⟩, fun _ _ => id, le_rfl, fun d h1 h2 => absurd h2 (Nat.not_lt.2 h1)⟩
  refine ⟨⟨⟨rfl, id, id, id, sized, id, fun _ p => p.mono (fun p c a => ?_) fun _ _ _ h => h, id, id, id, fun e => ⟨sized e.1, e.2⟩,
    fun _ => id, fun _ => lawful⟩, id, fun _ _ => grows.numbersGoOn, fun _ _ _ => grows⟩, rfl⟩
  cases p with
  | slot k =>
    simp only [occAt, State.setSlot_ret] at a ⊢
    rcases hget k with e | ⟨rfl, e⟩
    · rwa [e] at a
    · rwa [e] at a
  | drive d => exact a
  | gripper => exact a
  | mail d => exact a

theorem slotDisableOp_owned (f : Prop) (s : State) (b : List Byte) : Owned f s (slotDisableOp s b) := by
  unfold slotDisableOp
  dsimp only
  split
  · exact Owned.refuse f s _ _
  split
  · next h =>
    refine Owned.done (setSlotMark_tame f s _ true fun _ hl c k hk hh => ?_) rfl _
    simp only [Bool.or_eq_true, Bool.and_eq_true, Option.isNone_iff_eq_none] at h
    rcases h with ⟨hd, _⟩ | ⟨_, hn⟩
    · exact absurd (hl.2.enabled c k _ hk hh) (by simp only [Retained.disabled]; simpa [State.slot] using hd)
    · exact homeOf_none hn c k hk hh
  · exact Owned.refuse f s _ _

theorem slotEnableOp_owned (f : Prop) (s : State) (b : List Byte) : Owned f s (slotEnableOp s b) := by
  unfold slotEnableOp
  dsimp only
  split
  · exact Owned.refuse f s _ _
  · exact Owned.done (setSlotMark_tame f s _ false nofun) rfl _

theorem exportOp_owned (f : Prop) (s : State) (tag : Word16) (st : Nat) (b : List Byte) : Owned f s (exportOp s tag st b) := by
  unfold exportOp
  dsimp only
  split
  · exact Owned.refuse f s _ _
  split
  · exact Owned.refuse f s _ _
  split
  · exact Owned.refuse f s _ _
  split
  · exact Owned.refuse f s _ _
  split
  · exact Owned.refuse f s _ _
  · exact Owned.of_calm (requestTransfer_calm (modPicker_calm (Calm.refl anyKind s) _ rfl (le_max_left _ _)
      ⟨fun _ => id, fun _ _ => id⟩) ..)

/-- The entries of the Volume Table after a FORGET. -/
theorem side_forgetRecord (s : State) (c k : Nat) : (forgetRecord s c).ret.side k = s.ret.side k ∨
    (sideCart k = c ∧ (forgetRecord s c).ret.side k = Side.blank) := by
  show tget (tset (tset s.ret.sides (2 * c - 1) Side.blank) (2 * c) Side.blank) k Side.blank = tget s.ret.sides k Side.blank ∨ _
  simp only [forgetRecord, State.retain_ret, Retained.side, sideOf, tget_of_tset, tset_length]
  split
  · next h => exact .inr ⟨by unfold sideCart; omega, rfl⟩
  · split
    · next h => exact .inr ⟨by unfold sideCart; omega, rfl⟩
    · exact .inl rfl

theorem side_forgetRecord_of_cart (s : State) (c k : Nat) (h : sideCart k = c) :
    (forgetRecord s c).ret.side k = Side.blank := by
  show tget (tset (tset s.ret.sides (2 * c - 1) Side.blank) (2 * c) Side.blank) k Side.blank = Side.blank
  have hc : k = 2 * c - 1 ∨ k = 2 * c := by unfold sideCart at h; omega
  simp only [tget_of_tset, tset_length]
  split
  · rfl
  · split
    · rfl
    · exact tget_outside _ _ _ (by omega)

theorem cart_forgetRecord (s : State) (c k : Nat) :
    (forgetRecord s c).ret.cart k = s.ret.cart k ∧ k ≠ c ∨ (k = c ∧ (forgetRecord s c).ret.cart k = none) := by
  simp only [forgetRecord, State.retain_ret, Retained.cart, tget_of_tset]
  by_cases hk : k = c
  · subst hk
    refine .inr ⟨rfl, ?_⟩
    split
    · rfl
    · exact tget_outside _ _ _ (by omega)
  · exact .inl ⟨by rw [if_neg fun e => hk e.1.symm], hk⟩

theorem cart_of_cart_forgetRecord {s : State} {c k : Nat} {x : Cart} (h : (forgetRecord s c).ret.cart k = some x) :
    s.ret.cart k = some x := by
  rcases cart_forgetRecord s c k with ⟨e, _⟩ | ⟨_, e⟩ <;> rw [e] at h
  · exact h
  · cases h

/-- A side that counts no document holds none. -/
theorem not_holds_of_count {e : Side} {n : Nat} (h : e.runOk n) (hc : e.count = 0) (d : Nat) : ¬ e.holds d := by
  rintro ⟨a, z, ha, hz, h1, h2⟩
  rcases h with ⟨h, _⟩ | ⟨a', z', ha', hz', _, hle, _, hcount⟩
  · rw [h] at ha; cases ha
  · omega

theorem forgetRecord_lawful {s : State} {c : Nat} (h : Lawful s.ret) : Lawful (forgetRecord s c).ret := by
  obtain ⟨hv, hc⟩ := h
  have side := side_forgetRecord s c
  have state : ∀ n, ((forgetRecord s c).ret.side n).state = .opened → (forgetRecord s c).ret.side n = s.ret.side n := fun n hn => by
    rcases side n with e | ⟨_, e⟩
    · exact e
    · rw [e] at hn; cases hn
  have holds : ∀ n d, ((forgetRecord s c).ret.side n).holds d → (s.ret.side n).holds d := fun n d hd => by
    rcases side n with e | ⟨_, e⟩ <;> rw [e] at hd
    · exact hd
    · obtain ⟨a, _, ha, _⟩ := hd; cases ha
  refine ⟨⟨hv.next, fun n m hn hm => ?_, fun n hn => ?_, fun n hn => ?_, fun n => ?_, fun n m d hn hm => ?_, fun n z hn hz => ?_,
    fun n => ?_⟩, fun k x hk => ?_, fun k l x y t hk hl => ?_, fun k x t hk => ?_⟩
  · exact hv.oneOpen n m (by rw [← state n hn]; exact hn) (by rw [← state m hm]; exact hm)
  · rcases side n with e | ⟨_, e⟩ <;> rw [e] at hn ⊢
    exact hv.blank n hn
  · rcases side n with e | ⟨_, e⟩ <;> rw [e]
    rcases cart_forgetRecord s c (sideCart n) with ⟨e', _⟩ | ⟨e', _⟩
    · exact hv.unassigned n (e' ▸ hn)
    · rw [← e, side_forgetRecord_of_cart s c n e']
  · rcases side n with e | ⟨_, e⟩ <;> rw [e]
    · exact hv.runs n
    · exact .inl ⟨rfl, rfl, rfl⟩
  · exact hv.disjoint n m d (holds n d hn) (holds m d hm)
  · have e := state n hn
    rw [e] at hn hz
    exact hv.openLast n z hn hz
  · rcases side n with e | ⟨_, e⟩ <;> rw [e]
    · exact hv.marks n
    · simp [Side.blank]
  · exact hc.home k x (cart_of_cart_forgetRecord hk)
  · exact hc.oneHome k l x y t (cart_of_cart_forgetRecord hk) (cart_of_cart_forgetRecord hl)
  · exact hc.enabled k x t (cart_of_cart_forgetRecord hk)

/-- The sides of a record with no document counted hold none, so numbers go on. -/
theorem forgetRecord_numbers {s : State} {c : Nat} (h : Lawful s.ret) (ha : (s.side (2 * c - 1)).count = 0)
    (hb : (s.side (2 * c)).count = 0) : NumbersGoOn s.ret (forgetRecord s c).ret := by
  refine ⟨fun n d hd => ?_, le_rfl, fun d h1 h2 => absurd h2 (Nat.not_lt.2 h1)⟩
  rcases side_forgetRecord s c n with e | ⟨e, _⟩
  · rw [e]; exact hd
  · have hn : n = 2 * c - 1 ∨ n = 2 * c := by unfold sideCart at e; omega
    rcases hn with rfl | rfl
    · exact absurd hd (not_holds_of_count (h.1.runs _) ha d)
    · exact absurd hd (not_holds_of_count (h.1.runs _) hb d)

theorem LabelLaw.mono {ca ca' : List (Option Cart)} {n : Nat} {dr : List Drive} (l : LabelLaw ca n dr)
    (h : ∀ c k, tget ca' c none = some k → tget ca c none = some k) : LabelLaw ca' n dr :=
  ⟨fun c k hk => l.below c k (h c k hk), fun c d k x hk hx => l.once c d k x (h c k hk) (h d x hx),
    fun d n hn => ⟨(l.claimed d n hn).1, fun c k hk => (l.claimed d n hn).2 c k (h c k hk)⟩, l.claimedOnce⟩

theorem forgetRecord_tame (s : State) (c : Nat) (hw : cartInState s c .withdrawn = true) (ha : (s.side (2 * c - 1)).count = 0)
    (hb : (s.side (2 * c)).count = 0) : Tame True s (forgetRecord s c) := by
  have sized : TablesSized s → TablesSized (forgetRecord s c) := by
    rintro ⟨h1, h2, h3, h4⟩
    exact ⟨h1, (tset_length ..).trans h2, ((tset_length ..).trans (tset_length ..)).trans h3, h4⟩
  refine ⟨⟨⟨rfl, id, id, id, sized, id, fun _ p => p.mono (fun _ _ => id) fun x q hx hin => ?_, id, id, id, fun e => ⟨sized e.1, e.2⟩,
    fun _ l => l.mono fun k x => cart_of_cart_forgetRecord, fun _ => forgetRecord_lawful⟩, id,
    fun _ l => forgetRecord_numbers l ha hb, fun h => absurd trivial h⟩, rfl⟩
  obtain ⟨k, hk, hs⟩ := hin
  rcases cart_forgetRecord s c x with ⟨e, _⟩ | ⟨rfl, _⟩
  · exact ⟨k, e.trans hk, hs⟩
  · obtain ⟨k', hk', hs'⟩ := (cartInState_iff s x _).1 hw
    rw [hk] at hk'
    cases hk'
    rw [hs] at hs'
    cases hs'

theorem forgetOp_owned (s : State) (b : List Byte) : Owned True s (forgetOp s b) := by
  unfold forgetOp
  split
  · exact Owned.refuse _ s _ _
  split
  · exact Owned.refuse _ s _ _
  next hw =>
  split
  · exact Owned.refuse _ s _ _
  next hc =>
    obtain ⟨ha, hb⟩ := not_or.1 hc
    exact Owned.done (forgetRecord_tame s _ (by simpa using hw) (not_not.1 ha) (not_not.1 hb)) rfl _

/-! ### Drives and picker -/

theorem serviceOut_calm {kd : Kind} {s0 s : State} (hc : Calm kd s0 s) (d : Nat) :
    Calm kd s0 (s.modDrive d fun y => { y with service := .out, state := .outOfService }) :=
  modDrive_calm hc d _ (Quiet.same rfl rfl)

theorem driveServiceOp_owned (f : Prop) (s : State) (b : List Byte) : Owned f s (driveServiceOp s b) := by
  unfold driveServiceOp
  dsimp only
  split
  · exact Owned.refuse f s _ _
  split
  · unfold driveServiceOut
    dsimp only
    split
    · exact Owned.report f s _
    split
    · exact Owned.of_calm (serviceOut_calm (dropMountsInto_calm (returnAssigned_calm (Calm.refl anyKind s) _) _) _)
    · split
      · exact Owned.of_calm (serviceOut_calm (Calm.refl anyKind s) _)
      · exact Owned.refuse f s _ _
    · exact Owned.report f s _
    · exact Owned.of_calm (returnAssigned_calm (modDrive_calm (Calm.refl anyKind s) _ _ (Quiet.same rfl rfl)) _)
  · unfold driveServiceIn
    dsimp only
    split
    · exact Owned.refuse f s _ _
    split
    · exact Owned.of_calm (issue_calm (Calm.refl anyKind s) _ _ _)
    · exact Owned.report f s _

theorem pickerResetOp_owned (f : Prop) (s : State) : Owned f s (pickerResetOp s) := by
  unfold pickerResetOp
  split
  · exact Owned.refuse f s _ _
  · exact Owned.of_calm (startReset_calm (Calm.refl anyKind s))

/-! ### Modes -/

/-- A change of the mode alone, to another than REBUILD. -/
theorem mode_calm {kd : Kind} {s0 s : State} (hc : Calm kd s0 s) (m : Mode) (hm : m ≠ .rebuild) : Calm kd s0 { s with mode := m } :=
  calm_set hc _ _ _ _ _ _ _ _ _ _ _ _ _ _ _ _ _ _ _ _ _ _ _ rfl (Kept.mode _ hm) rfl rfl (le_max_left _ _) le_rfl (FilingsOf.refl _)
    (le_max_left _ _) (OrdersOf.refl _) id (fun e => ⟨fun h => absurd h hm, e.once, e.free⟩) (fun _ => id) fun _ => id

theorem restOp_owned (f : Prop) (s : State) : Owned f s (restOp s) := by
  unfold restOp
  split
  · exact Owned.refuse f s _ _
  · exact Owned.report f s _
  · split
    · exact Owned.refuse f s _ _
    · exact Owned.of_calm (mode_calm (Calm.refl anyKind s) _ nofun)

theorem nightOp_owned (f : Prop) (s : State) : Owned f s (nightOp s) := by
  unfold nightOp
  split
  · exact Owned.report f s _
  · split
    · exact Owned.refuse f s _ _
    · have h := nightRelease_calm (mode_calm (Calm.refl anyKind s) .night nofun)
      exact Owned.done (h.tame f) h.replyCount_eq _

theorem wakeOp_owned (f : Prop) (s : State) : Owned f s (wakeOp s) := by
  unfold wakeOp
  split
  · exact Owned.of_calm (mode_calm (Calm.refl anyKind s) _ nofun)
  · exact Owned.of_calm (mode_calm (Calm.refl anyKind s) _ nofun)
  · exact Owned.report f s _

theorem restartDrives_calm {kd : Kind} {s0 s : State} (hc : Calm kd s0 s) : Calm kd s0 (drives4.foldl restartDrive s) :=
  calm_foldl _ (fun _ d ht => restartDrive_calm ht d) _ _ hc

theorem clearWanted_calm {kd : Kind} {s0 s : State} (hc : Calm kd s0 s) :
    Calm kd s0 (s.modPicker fun p => { p with inspectWanted := [] }) :=
  modPicker_calm hc _ rfl (le_max_left _ _) ⟨fun _ => id, fun _ _ => id⟩

theorem restartOp_owned (f : Prop) (s : State) : Owned f s (restartOp s) := by
  have h := clearWanted_calm (restartDrives_calm (dropMounts_calm (dropWork_calm (restartStore_calm (Calm.refl anyKind s)))))
  unfold restartOp
  dsimp only
  generalize (List.foldl restartDrive _ _).modPicker _ = t at h ⊢
  have ht := askInspects_calm (mode_calm h .run nofun) (inspectOrder s)
  exact Owned.done (ht.tame f) ht.replyCount_eq _

/-! ### Every owner's answer -/

/-- What the owning block answers to a request that passed the checks of R191. -/
theorem dispatch_owned (k : ReqKind) (s : State) (tag : Word16) (st : Nat) (b : List Byte)
    (hm : k ≠ .status → s.mode ≠ .rebuild) (hst : st ≤ 32) {f : Prop} (hf : k = .forget → f) : Owned f s (dispatch k s tag st b) := by
  cases k with
  | status => exact statusOp_owned f s
  | stationQuery => exact Owned.report f s _
  | paramsQuery => exact Owned.report f s _
  | locate => exact locateOp_owned f s b
  | sideQuery => exact sideQueryOp_owned f s b
  | cartridgeQuery => exact cartridgeQueryOp_owned f s b
  | slotQuery => exact Owned.report f s _
  | workQuery => exact Owned.report f s _
  | filingQuery => exact Owned.report f s _
  | withheldQuery => exact withheldQueryOp_owned f s b
  | copyQuery => exact Owned.report f s _
  | feeQuery => exact Owned.report f s _
  | accountQuery => exact accountQueryOp_owned f s b
  | fetch => exact fetchOp_owned f s tag st b
  | copyOrder => exact copyOrderOp_owned f s tag st b hst
  | setParams => exact setParamsOp_owned f s b
  | stationSet => exact stationSetOp_owned f s b
  | setClock => exact setClockOp_owned f s b
  | feeSet => exact feeSetOp_owned f s b
  | accountOpen => exact accountOpenOp_owned f s b
  | accountLimit => exact accountLimitOp_owned f s b
  | accountDeposit => exact accountDepositOp_owned f s b
  | accountWithdraw => exact accountWithdrawOp_owned f s b
  | accountSuspend => exact accountSuspendOp_owned f s b
  | accountResume => exact accountResumeOp_owned f s b
  | accountClose => exact accountCloseOp_owned f s b
  | tallyQuery => exact Owned.report f s _
  | dayOpen => exact dayOpenOp_owned f s
  | dayClose => exact dayCloseOp_owned f s
  | driveService => exact driveServiceOp_owned f s b
  | pickerReset => exact pickerResetOp_owned f s
  | slotDisable => exact slotDisableOp_owned f s b
  | slotEnable => exact slotEnableOp_owned f s b
  | exportCart => exact exportOp_owned f s tag st b
  | forget => rw [eq_true (hf rfl)]; exact forgetOp_owned s b
  | closeSide => exact closeSideOp_owned f s b
  | markFaulty => exact markFaultyOp_owned f s b
  | rest => exact restOp_owned f s
  | night => exact nightOp_owned f s
  | wake => exact wakeOp_owned f s
  | restart => exact restartOp_owned f s
  | fileBegin => exact fileBeginOp_owned f s tag st b (hm nofun)
  | fileData => exact fileDataOp_owned f s st b
  | fileEnd => exact fileEndOp_owned f s st b
  | fileCancel => exact fileCancelOp_owned f s st b
  | consent => exact consentOp_owned f s st b
  | cancel => exact cancelOp_owned f s st b

end Sys2Proof.Machine
end

section
/-! PROOFS. Every command is tame, and the statements on what every step keeps. -/

namespace Sys2Proof.Machine

/-! ### Frames that arrive -/

theorem pumpLine_tame (f : Prop) (s : State) : Tame f s (pumpLine s) := (pumpLine_calm (Calm.refl anyKind s)).tame f

theorem settle_tame {f : Prop} {s t : State} (h : Tame f s t) : Tame f s (settle t) :=
  h.trans ((settle_calm (Calm.refl anyKind t)).tame f)

/-- A request that passes the checks finds no rebuild, unless it is STATUS, and a station of the table. -/
theorem gate_eq_none {s : State} {k : ReqKind} {h : Hdr} {b : List Byte} (hg : gate s k h b = none) :
    (k ≠ .status → s.mode ≠ .rebuild) ∧ h.station.toNat ≤ 32 := by
  unfold gate at hg
  split_ifs at hg with h1 h2 h3
  exact ⟨fun hk hm => h2 ⟨hm, hk⟩, Nat.not_lt.1 h3⟩

theorem takeKnown_tame {f : Prop} {s : State} (k : ReqKind) (h : Hdr) (b : List Byte) (hf : k = .forget → f)
    (hr : replyCount s < 8) : Tame f s (takeKnown s k h b) := by
  unfold takeKnown
  split
  · exact (putReply_tame (Owned.refuse f s _ _) _ h hr).trans (pumpLine_tame f _)
  · next hg =>
    obtain ⟨hm, hst⟩ := gate_eq_none hg
    have ho := putReply_tame (dispatch_owned k s h.tag h.station.toNat b hm hst hf) k.byte h hr
    dsimp only
    split
    · exact ho.trans (pumpLine_tame f _)
    · exact settle_tame ho

/-- A kind byte that names FORGET is FORGET's. -/
theorem byte_of_reqKindOf_forget {b : Byte} (h : reqKindOf b = some .forget) : b = ReqKind.forget.byte := by
  revert b
  decide

theorem takeRequest_tame {f : Prop} {s : State} (kind : Byte) (h : Hdr) (b : List Byte) (hf : kind = ReqKind.forget.byte → f)
    (hr : replyCount s < 8) : Tame f s (takeRequest s kind h b) := by
  unfold takeRequest
  split
  · next k hk => exact takeKnown_tame k h b (fun e => hf (byte_of_reqKindOf_forget (e ▸ hk))) hr
  · exact (putReply_tame (Owned.refuse f s _ _) _ h hr).trans (pumpLine_tame f _)

/-- The arrival is a FORGET frame. -/
def Arrival.isForget (a : Arrival) : Prop := ∃ h b, a = .request ReqKind.forget.byte h b

theorem linkReject_tame (f : Prop) {s : State} (why : BadReason) (hr : replyCount s < 8) : Tame f s (linkReject s why) := by
  refine (control_tame f s (s.control ++ [.linkReject why]) ?_ fun _ => ?_).trans (pumpLine_tame f _)
  · rw [List.filter_append, List.length_append]
    exact le_rfl
  · rw [List.filter_append, List.length_append]
    exact hr

theorem takeArrival_tame {f : Prop} {s : State} (a : Arrival) (hf : a.isForget → f) (hr : replyCount s < 8) :
    Tame f s (takeArrival s a) := by
  cases a with
  | request kind h b => exact takeRequest_tame kind h b (fun e => hf ⟨h, b, by rw [e]⟩) hr
  | bad why => exact linkReject_tame f why hr

theorem arrive_tame {f : Prop} {s : State} (a : Arrival) (hf : a.isForget → f) : Tame f s (arrive s a) := by
  unfold arrive
  split
  · exact waiting_tame f s _
  · next h => exact takeArrival_tame a hf (Nat.not_le.1 h)

theorem rxByte_tame {f : Prop} (s : State) (b : Byte) (hf : ∀ a, (rxStep s.rx b).2 = some a → a.isForget → f) :
    Tame f s (rxByte s b) := by
  unfold rxByte
  split
  · exact Tame.refl f s
  · dsimp only
    split
    · next a ha => exact (rx_tame f s _).trans (arrive_tame a (hf a ha))
    · exact rx_tame f s _

theorem hear_tame {f : Prop} (hf : f) : ∀ (bytes : List Byte) (s : State), Tame f s (hear s bytes)
  | [], s => Tame.refl f s
  | b :: bs, s => (rxByte_tame s b fun _ _ _ => hf).trans (hear_tame hf bs (rxByte s b))

theorem arriveFrame_tame {f : Prop} (s : State) (kind : Byte) (h : Hdr) (b : List Byte) (hk : kind = ReqKind.forget.byte → f)
    (hx : s.rx ≠ [] → f) : Tame f s (arriveFrame s kind h b) := by
  unfold arriveFrame
  split
  · exact Tame.refl f s
  split
  · exact arrive_tame _ fun ⟨_, _, e⟩ => hk (Arrival.request.inj e).1
  · next hn => exact hear_tame (hx hn) _ s

/-- From a hunt no byte completes a frame. -/
theorem rxStep_of_hunt (b : Byte) : rxStep [] b = (if b = 0x5A then [b] else [], none) := rfl

theorem gapOp_tame {f : Prop} (s : State) (b : Byte) : Tame f s (gapOp s b) := by
  unfold gapOp
  split
  · exact Tame.refl f s
  split
  · next hx => exact rxByte_tame s b fun a ha => by rw [hx, rxStep_of_hunt] at ha; cases ha
  · exact (rx_tame f s _).trans (arrive_tame _ fun ⟨_, _, e⟩ => by cases e)

theorem length_filter_tail_le {α : Type} (p : α → Bool) (l : List α) : (l.tail.filter p).length ≤ (l.filter p).length :=
  ((List.tail_sublist l).filter p).length_le

theorem frameSentOp_tame {f : Prop} (s : State) (hf : ∀ a, s.waiting = some a → a.isForget → f) : Tame f s (frameSentOp s) := by
  unfold frameSentOp
  split
  · have h : Tame f s { s with line := none, control := s.control.tail } :=
      (line_tame f s none).trans (control_tame f _ _ (length_filter_tail_le _ _) fun e => (length_filter_tail_le _ _).trans e)
    refine Tame.trans (h.trans ?_) (pumpLine_tame f _)
    unfold takeWaiting
    split
    · next a ha =>
      split
      · next hr => exact (waiting_tame f _ none).trans (takeArrival_tame a (hf a ha) hr)
      · exact Tame.refl f _
    · exact Tame.refl f _
  · exact Tame.refl f s

theorem pageSentOp_tame (f : Prop) (s : State) : Tame f s (pageSentOp s) := by
  unfold pageSentOp
  split
  · exact settle_tame ((line_tame f s none).trans ((pageFrameDone_calm (Calm.refl anyKind _) _).tame f))
  · exact Tame.refl f s

/-! ### Power and time -/

/-- A clock in range goes on to a reading in range, or holds its last (R180). -/
theorem tick_inRange {c : Clock} (h : c.inRange) : c.tick.inRange := by
  obtain ⟨h1, h2, h3⟩ := h
  unfold Clock.tick
  split
  · next hs => exact ⟨h1, h2, hs⟩
  · split
    · next hd => exact ⟨Nat.le_add_left 1 c.day, hd, Nat.zero_lt_succ _⟩
    · exact ⟨h1, h2, h3⟩

theorem clockSecondOp_tame (f : Prop) (s : State) : Tame f s (clockSecondOp s) := by
  refine (clock_tame f s (s.clock.map Clock.tick) (s.elapsed + 1) fun hc k hk => ?_).trans
    ((expireDue_calm (Calm.refl anyKind _)).tame f)
  obtain ⟨c, hs, rfl⟩ := Option.map_eq_some_iff.1 hk
  exact tick_inRange (hc c hs)

theorem memWf_nil : Memory.wf [] = true := rfl

theorem withinCapacity_poweredOn (r : Retained) (m : Mode) (q : List Instr) : WithinCapacity (State.poweredOn r m q) := by
  simp [WithinCapacity, State.poweredOn, pendingConsents, Picker.initial]

theorem settings_poweredOn (r : Retained) (m : Mode) (q : List Instr) : SettingsInRange (State.poweredOn r m q) :=
  ⟨(by decide : Params.default.inRange), fun _ h => by cases h⟩

theorem staged_poweredOn (r : Retained) (m : Mode) (q : List Instr) : StagingKept (State.poweredOn r m q) := by
  refine ⟨?_, ?_, ?_, ?_, ?_, ?_⟩ <;> simp [State.poweredOn]

theorem reserve_poweredOn (r : Retained) (m : Mode) (q : List Instr) : ReserveKept (State.poweredOn r m q) := by
  refine ⟨?_, ?_, ?_⟩ <;> simp [State.poweredOn]

theorem sized_poweredOn {s : State} (m : Mode) (q : List Instr) (h : TablesSized s) : TablesSized (State.poweredOn s.ret m q) := by
  obtain ⟨h1, h2, h3, h4, h5, h6, _⟩ := h
  exact ⟨h1, h2, h3, h4, h5, h6, List.length_replicate .., List.length_replicate .., rfl⟩

theorem money_poweredOn {s : State} (m : Mode) (q : List Instr) (h : MoneyKept s) : MoneyKept (State.poweredOn s.ret m q) :=
  ⟨sized_poweredOn m q h.1, nofun, h.2.2⟩

/-- An entry of a table of equal entries: that entry, or what stands for one outside. -/
theorem tget_replicate_or {α : Type} (n : Nat) (x d : α) (i : Nat) :
    tget (List.replicate n x) i d = x ∨ tget (List.replicate n x) i d = d := by
  cases i with
  | zero => exact .inr rfl
  | succ i =>
    simp only [tget, List.getD_eq_getElem?_getD, List.getElem?_replicate]
    split
    · exact .inl rfl
    · exact .inr rfl

theorem tget_replicate {α : Type} (n : Nat) (x : α) (i : Nat) : tget (List.replicate n x) i x = x :=
  (tget_replicate_or n x x i).elim id id

theorem tget_mails_initial (m : Nat) : tget [Mail.initial, Mail.initial] m Mail.initial = Mail.initial := by
  match m with
  | 0 | 1 | 2 | m + 3 => rfl

/-- At power-on drives, gripper and mail slots show no record. -/
theorem placed_poweredOn {s : State} (m : Mode) (q : List Instr) (h : s.placed) : (State.poweredOn s.ret m q).placed := by
  refine h.mono (fun p c a => ?_) fun _ _ _ => id
  cases p with
  | slot n => exact a
  | drive d => simp only [occAt, State.poweredOn, tget_replicate] at a; cases a
  | gripper => cases a
  | mail m => simp only [occAt, State.poweredOn, Picker.initial, tget_mails_initial] at a; cases a

theorem newSerial_initial (d n : Nat) : (tget (List.replicate 4 Drive.initial) d Drive.initial).task.newSerial ≠ some n := by
  rw [tget_replicate]
  nofun

theorem labelLaw_poweredOn {ca : List (Option Cart)} {n : Nat} {dr : List Drive} (l : LabelLaw ca n dr) :
    LabelLaw ca n (List.replicate 4 Drive.initial) :=
  ⟨l.below, l.once, fun d n h => absurd h (newSerial_initial d n), fun d _ n h => absurd h (newSerial_initial d n)⟩

theorem noticeCount_poweredOn (r : Retained) (m : Mode) (q : List Instr) : noticeCount (State.poweredOn r m q) ≤ 32 := Nat.zero_le _

theorem replyCount_poweredOn (r : Retained) (m : Mode) (q : List Instr) : replyCount (State.poweredOn r m q) ≤ 8 := Nat.zero_le _

/-- Over the store as it stands a power-on keeps the laws. -/
theorem poweredOn_held (s : State) (m : Mode) : Held s (State.poweredOn s.ret m s.pending) :=
  ⟨rfl, fun _ => memWf_nil, fun _ => noticeCount_poweredOn _ _ _, fun _ => replyCount_poweredOn _ _ _, sized_poweredOn m _,
    fun _ => withinCapacity_poweredOn _ _ _, fun _ => placed_poweredOn m _, fun _ => staged_poweredOn _ _ _,
    fun _ => reserve_poweredOn _ _ _, fun _ => settings_poweredOn _ _ _, money_poweredOn m _, fun _ => labelLaw_poweredOn, fun _ => id⟩

theorem powerLossOp_steady (f : Prop) (s : State) : Steady f s (powerLossOp s) :=
  ⟨{ poweredOn_held s s.mode with }, id, fun _ _ => (Grows.refl _).numbersGoOn, fun _ _ _ => Grows.refl _⟩

/-! ### The store first initialised (R179, R182) -/

theorem side_initial (n : Nat) : Retained.initial.side n = Side.blank := tget_replicate _ _ n

theorem cart_initial (c : Nat) : Retained.initial.cart c = none := tget_replicate _ _ c

theorem lawful_initial : Lawful Retained.initial := by
  refine ⟨⟨le_rfl, fun n _ h => ?_, fun n _ => side_initial n, fun n _ => side_initial n, fun n => ?_, fun n _ d h => ?_,
    fun n _ h => ?_, fun n => ?_⟩, fun c _ h => ?_, fun c _ _ _ _ h => ?_, fun c _ _ h => ?_⟩
  · rw [side_initial] at h; cases h
  · rw [side_initial]; exact .inl ⟨rfl, rfl, rfl⟩
  · rw [side_initial] at h; obtain ⟨_, _, h, _⟩ := h; cases h
  · rw [side_initial] at h; cases h
  · rw [side_initial]; simp [Side.blank]
  · rw [cart_initial] at h; cases h
  · rw [cart_initial] at h; cases h
  · rw [cart_initial] at h; cases h

theorem sized_initial (m : Mode) (q : List Instr) : TablesSized (State.poweredOn Retained.initial m q) := by
  refine ⟨?_, ?_, ?_, ?_, ?_, ?_, ?_, ?_, rfl⟩ <;> exact List.length_replicate ..

theorem balanced_initial (m : Mode) (q : List Instr) : DayBalanced (State.poweredOn Retained.initial m q) := by
  show 0 = ((List.replicate 64 Account.initial).map Account.charged).sum + (List.replicate 32 0).sum
  simp [Account.initial]

theorem money_initial (m : Mode) (q : List Instr) : MoneyKept (State.poweredOn Retained.initial m q) :=
  ⟨sized_initial m q, nofun, balanced_initial m q⟩

theorem placed_initial (m : Mode) (q : List Instr) : (State.poweredOn Retained.initial m q).placed := by
  have none : ∀ p c, occAt Retained.initial.slots (List.replicate 4 Drive.initial) .empty [Mail.initial, Mail.initial] p ≠ .record c := by
    intro p c h
    cases p with
    | slot n =>
      rcases tget_replicate_or Config.slotCount (⟨.empty, false⟩ : Slot) ⟨.empty, true⟩ n with e | e <;>
        · rw [occAt, Retained.initial, e] at h
          cases h
    | drive d => rw [occAt, tget_replicate] at h; cases h
    | gripper => cases h
    | mail n => rw [occAt, tget_mails_initial] at h; cases h
  exact ⟨fun c p _ h => absurd h (none p c), fun c p h => absurd h (none p c), fun c n => none (.mail n) c⟩

theorem labels_initial (m : Mode) (q : List Instr) : LabelsKept (State.poweredOn Retained.initial m q) := by
  have cart : ∀ c k, tget Retained.initial.carts c none ≠ some k := fun c k h => by
    rw [show tget Retained.initial.carts c none = none from cart_initial c] at h
    cases h
  exact ⟨fun c k h => absurd h (cart c k), fun c _ k _ h => absurd h (cart c k),
    fun d n h => absurd h (newSerial_initial d n), fun d _ n h => absurd h (newSerial_initial d n)⟩

theorem poweredOn_initial_held (s : State) (m : Mode) : Held s (State.poweredOn Retained.initial m s.pending) :=
  ⟨rfl, fun _ => memWf_nil, fun _ => noticeCount_poweredOn _ _ _, fun _ => replyCount_poweredOn _ _ _, fun _ => sized_initial m _,
    fun _ => withinCapacity_poweredOn _ _ _, fun _ _ => placed_initial m _, fun _ => staged_poweredOn _ _ _,
    fun _ => reserve_poweredOn _ _ _, fun _ => settings_poweredOn _ _ _, fun _ => money_initial m _, fun _ _ => labels_initial m _,
    fun _ _ => lawful_initial⟩

theorem powerOnOp_held (s : State) (good : Bool) : Held s (powerOnOp s good) := by
  unfold powerOnOp
  split
  · exact poweredOn_held s _
  · exact poweredOn_initial_held s _

/-! ### Every command -/

/-- An event whose unit is calm, with its consequences. -/
theorem whenPowered_settle_tame {f : Prop} {s : State} {op : State → State} (h : Tame f s (op s)) :
    Tame f s (whenPowered s fun s => settle (op s)) := by
  unfold whenPowered
  split
  · exact settle_tame h
  · exact Tame.refl f s

theorem whenPowered_tame {f : Prop} {s : State} {op : State → State} (h : Tame f s (op s)) : Tame f s (whenPowered s op) := by
  unfold whenPowered
  split
  · exact h
  · exact Tame.refl f s

/-- The command may take a FORGET frame: it is one or holds the bytes of one, one waits, or bytes of one are in hand. -/
def MayForget (c : Instr) (s : State) : Prop :=
  s.rx ≠ [] ∨ (∃ a, s.waiting = some a ∧ a.isForget) ∨ (∃ h b, c = .forget h b) ∨ (∃ bytes, c = .badFrame bytes) ∨
    ∃ h b, c = .unknownKindFrame ReqKind.forget.byte h b

/-- A request frame is the one that its kind names. -/
theorem forget_of_requestOf {c : Instr} {h : Hdr} {b : List Byte} (hc : requestOf c = some (.forget, h, b)) : ∃ h b, c = .forget h b := by
  cases c <;> simp only [requestOf, Option.some.injEq, Prod.mk.injEq, reduceCtorEq, false_and] at hc
  exact ⟨_, _, rfl⟩

theorem byte_injective {k l : ReqKind} (h : k.byte = l.byte) : k = l := by
  have := congrArg reqKindOf h
  rw [reqKindOf_byte, reqKindOf_byte] at this
  exact Option.some.inj this

theorem exec_request_tame {c : Instr} {k : ReqKind} {h : Hdr} {b : List Byte} {s t : State} (hc : requestOf c = some (k, h, b))
    (e : exec c s = .next t) : Tame (MayForget c s) s t := by
  rw [exec_request hc] at e
  cases e
  refine arriveFrame_tame s k.byte h b (fun hk => ?_) fun hx => .inl hx
  cases byte_injective hk
  exact .inr (.inr (.inl (forget_of_requestOf hc)))

/-- Every command answers a next state; all but those of the power are tame. -/
theorem exec_tame {c : Instr} {s t : State} (e : exec c s = .next t) (hp : ∀ g, c ≠ .powerOn g) (hl : c ≠ .powerLoss) :
    Tame (MayForget c s) s t := by
  by_cases hc : requestOf c = none
  · have r := Calm.refl anyKind s
    cases c
    case powerOn g => exact absurd rfl (hp g)
    case clockSecond => cases e; exact whenPowered_settle_tame (clockSecondOp_tame _ s)
    case consentDeadline ref => cases e; exact whenPowered_settle_tame ((consentDeadlineOp_calm r ref).tame _)
    case unknownKindFrame kind h b =>
      cases e
      exact arriveFrame_tame s kind h b (fun hk => .inr (.inr (.inr (.inr ⟨h, b, by rw [hk]⟩)))) fun hx => .inl hx
    case badFrame bytes =>
      cases e
      unfold badFrameOp
      split
      · exact hear_tame (.inr (.inr (.inr (.inl ⟨bytes, rfl⟩)))) bytes s
      · exact Tame.refl _ s
    case interbyteGap b => cases e; exact gapOp_tame s b
    case hostHoldOff hold => cases e; exact whenPowered_tame ((heldOff_tame _ s hold).trans (pumpLine_tame _ _))
    case frameSent => cases e; exact whenPowered_tame (frameSentOp_tame s fun a ha hf => .inr (.inl ⟨a, ha, hf⟩))
    case pageFrameSent => cases e; exact whenPowered_tame (pageSentOp_tame _ s)
    case baySend attention => cases e; exact whenPowered_tame ((baySendOp_calm r attention).tame _)
    case bayByteNak => cases e; exact whenPowered_settle_tame ((tryFailed_calm r).tame _)
    case bayHoldTimeout => cases e; exact whenPowered_settle_tame ((tryFailed_calm r).tame _)
    case bayCommandTaken => cases e; exact whenPowered_settle_tame ((bayCommandTakenOp_calm r).tame _)
    case attentionPass => cases e; exact whenPowered_tame ((attentionPassOp_calm r).tame _)
    case pickerStatusTaken st => cases e; exact whenPowered_settle_tame ((pickerTakenOp_calm r st).tame _)
    case driveStatusTaken d st => cases e; exact whenPowered_settle_tame ((driveTakenOp_calm r d st rfl).tame _)
    case doorStatusTaken m st => cases e; exact whenPowered_settle_tame ((doorTakenOp_calm r m st).tame _)
    case transferTimeout => cases e; exact whenPowered_settle_tame ((transferTimeoutOp_calm r).tame _)
    case spinUpTimeout d => cases e; exact whenPowered_settle_tame ((spinUpTimeoutOp_calm r d).tame _)
    case idleTimeout d => cases e; exact whenPowered_settle_tame ((idleTimeoutOp_calm r d).tame _)
    case answerTimeout => cases e; exact whenPowered_settle_tame ((answerTimeoutOp_calm r).tame _)
    case sendPage => cases e; exact whenPowered_settle_tame ((sendPageOp_calm r).tame _)
    case pageEndSent => cases e; exact whenPowered_tame ((pageEndSentOp_calm r).tame _)
    case printerAnswer seq result => cases e; exact whenPowered_settle_tame ((printerAnswerOp_calm r rfl seq result).tame _)
    case printerStatus st => cases e; exact whenPowered_settle_tame ((printerStatusOp_calm r st).tame _)
    case printerFrameBad bytes => cases e; exact Tame.refl _ s
    case powerLoss => exact absurd rfl hl
    all_goals cases hc
  · obtain ⟨r, hr⟩ := Option.ne_none_iff_exists'.1 hc
    exact exec_request_tame hr e

theorem exec_steady {c : Instr} {s t : State} (e : exec c s = .next t) (hp : ∀ g, c ≠ .powerOn g) : Steady (MayForget c s) s t := by
  by_cases hl : c = .powerLoss
  · subst hl
    cases e
    unfold whenPowered
    split
    · exact powerLossOp_steady _ s
    · exact (Tame.refl _ s).toSteady
  · exact (exec_tame e hp hl).toSteady

theorem exec_held {c : Instr} {s t : State} (e : exec c s = .next t) : Held s t := by
  by_cases hp : ∃ g, c = .powerOn g
  · obtain ⟨g, rfl⟩ := hp
    cases e
    exact powerOnOp_held s g
  · exact (exec_steady e fun g hg => hp ⟨g, hg⟩).toHeld

theorem exec_next (c : Instr) (s : State) : ∃ t, exec c s = .next t := by cases c <;> exact ⟨_, rfl⟩

/-! ### A step -/

/-- A step idles, or runs the front command on the rest of the queue. -/
theorem step_cases {s t : State} (h : step s = .next t) :
    (s.pending = [] ∧ t = s) ∨ ∃ c rest, s.pending = c :: rest ∧ exec c (s.withQueue rest) = .next t := by
  unfold step at h
  split at h
  · next hp => cases h; exact .inl ⟨hp, rfl⟩
  · next c rest hp => exact .inr ⟨c, rest, hp, h⟩

/-- What the laws see is not the queue of commands. -/
structure StepHeld (s t : State) : Prop where
  memWf : Memory.wf s.mem = true → Memory.wf t.mem = true
  notices : noticeCount s ≤ 32 → noticeCount t ≤ 32
  replies : replyCount s ≤ 8 → replyCount t ≤ 8
  sized : TablesSized s → TablesSized t
  capacity : WithinCapacity s → WithinCapacity t
  placed : TablesSized s → s.placed → t.placed
  staged : StagingKept s → StagingKept t
  reserve : ReserveKept s → ReserveKept t
  settings : SettingsInRange s → SettingsInRange t
  money : MoneyKept s → MoneyKept t
  labels : s.mode ≠ .rebuild → LabelsKept s → LabelsKept t
  lawful : s.mode ≠ .rebuild → Lawful s.ret → Lawful t.ret

theorem step_held {s t : State} (h : step s = .next t) : StepHeld s t := by
  rcases step_cases h with ⟨_, rfl⟩ | ⟨c, rest, _, e⟩
  · have h := Held.refl t
    exact { h with }
  · have h := exec_held e
    exact { h with }

end Sys2Proof.Machine
end

section
/-! PROOFS. The statements on what every step keeps, read off the laws side by side. -/

namespace Sys2Proof.Machine

/-! ### The machine -/

/-- Settles O1. -/
theorem stepRunsFrontOfQueue : Obligations.StepRunsFrontOfQueue := ⟨fun _ _ _ => rfl, fun _ => rfl⟩

/-- Settles O2: the laws of every command say that the queue of commands is kept. -/
theorem commandsAnswerNextAndKeepQueue : Obligations.CommandsAnswerNextAndKeepQueue := fun c s => by
  obtain ⟨t, h⟩ := exec_next c s
  exact ⟨t, h, (exec_held h).pending⟩

/-- Settles O4. -/
theorem stagingMemoryStaysCanonical : Obligations.StagingMemoryStaysCanonical := fun _ _ hm h => (step_held h).memWf hm

/-- Settles O5. -/
theorem queuesStayBounded : Obligations.QueuesStayBounded := fun _ _ h => ⟨(step_held h).notices, (step_held h).replies⟩

/-- Settles O7. -/
theorem settingsAndClockStayInRange : Obligations.SettingsAndClockStayInRange := fun _ _ hs h => (step_held h).settings hs

/-- Settles O8. -/
theorem dayBalanceLawHolds : Obligations.DayBalanceLawHolds := fun _ _ hs h => (step_held h).money hs

/-! ### Blocks held and free (R77) -/

theorem sum_length_eq (cs : List Claim) : (cs.map fun c => c.live.length).sum = (cs.flatMap Claim.live).length := by
  rw [List.length_flatMap]

/-- The claims of filings and the others hold all the blocks held. -/
theorem heldByFilings_add_heldByReads (s : State) : heldByFilings s + heldByReads s = (liveBlocks s).length := by
  unfold heldByFilings heldByReads liveBlocks
  rw [← sum_length_eq]
  induction s.claims with
  | nil => rfl
  | cons c cs ih =>
    cases h : c.owner.isFiling <;> simp only [h, List.filter_cons, Bool.not_true, Bool.not_false, if_true, if_false, List.map_cons,
      List.sum_cons, Bool.false_eq_true] <;> omega

/-- A list without repetition from the numbers below `n`, and the numbers below `n` not in it, are `n` together. -/
theorem length_add_length_complement {l : List Nat} {n : Nat} (hl : l.Nodup) (hr : ∀ b ∈ l, b < n) :
    l.length + ((List.range n).filter fun b => !l.contains b).length = n := by
  have hin : ((List.range n).filter fun b => l.contains b).Perm l := by
    refine (List.perm_ext_iff_of_nodup (List.nodup_range.filter _) hl).2 fun b => ?_
    simp only [List.mem_filter, List.mem_range, List.contains_iff_mem]
    exact ⟨fun h => h.2, fun h => ⟨hr b h, h⟩⟩
  have hsplit := List.length_eq_length_filter_add (l := List.range n) fun b => l.contains b
  rw [hin.length_eq, List.length_range] at hsplit
  exact hsplit.symm

theorem freeBlocks_eq (s : State) : freeBlocks s = (List.range Config.stagingBlocks).filter fun b => !(liveBlocks s).contains b := by
  unfold freeBlocks liveBlocks
  refine List.filter_congr fun b _ => ?_
  rw [Bool.eq_iff_iff]
  simp only [Bool.not_eq_true', List.any_eq_false, List.contains_eq_mem, decide_eq_false_iff_not, decide_eq_true_eq,
    List.mem_flatMap, not_exists, not_and]

/-- By the staging law every block is free or held once. -/
theorem held_add_free {s : State} (h : StagingKept s) :
    heldByFilings s + heldByReads s + (freeBlocks s).length = 8192 := by
  rw [heldByFilings_add_heldByReads, freeBlocks_eq]
  exact length_add_length_complement h.disjoint h.range

/-! ### Entries of the Withheld-Page Table (R131) -/

theorem map_tget_upTo {α : Type} (w : List (Option α)) : (upTo w.length).map (fun i => tget w i none) = w := by
  refine List.ext_getElem (by simp [upTo]) fun i h1 h2 => ?_
  simp [upTo, tget, h2]

/-- The free entries and the entries in use are the table's. -/
theorem free_add_used {α : Type} (w : List (Option α)) :
    ((upTo w.length).filter fun i => (tget w i none).isNone).length + (w.filter Option.isSome).length = w.length := by
  have h := List.length_eq_length_filter_add (l := w) Option.isSome
  have e : ((upTo w.length).filter fun i => (tget w i none).isNone).length = (w.filter fun x => !x.isSome).length := by
    conv_rhs => rw [← map_tget_upTo w]
    rw [List.filter_map, List.length_map]
    refine congrArg List.length (List.filter_congr fun i _ => ?_)
    simp
  omega

theorem mem_upTo_iff {n i : Nat} : i ∈ upTo n ↔ 1 ≤ i ∧ i ≤ n := by
  refine ⟨mem_upTo, fun ⟨h1, h2⟩ => ?_⟩
  simp only [upTo, List.mem_map, List.mem_range]
  exact ⟨i - 1, by omega, by omega⟩

/-- By the rectification-capacity law COMMITTED and RESERVED entries fit the table. -/
theorem used_add_reserved {s : State} (h : ReserveKept s) :
    (s.ret.withheld.filter Option.isSome).length + s.reserved.length ≤ s.ret.withheld.length := by
  have hsub : (s.reserved.map Prod.fst) ⊆ (upTo s.ret.withheld.length).filter fun i => (tget s.ret.withheld i none).isNone := by
    intro i hi
    obtain ⟨e, he, rfl⟩ := List.mem_map.1 hi
    obtain ⟨h1, h2, h3⟩ := h.free e he
    exact List.mem_filter.2 ⟨mem_upTo_iff.2 ⟨h1, h2⟩, by rw [h3]; rfl⟩
  have hlen := (h.once.subperm hsub).length_le
  rw [List.length_map] at hlen
  have := free_add_used s.ret.withheld
  omega

/-- Settles O6: each law by the laws of a step, and what the staging law and the rectification-capacity law come to in numbers. -/
theorem tablesAndListsStayWithinCapacity : Obligations.TablesAndListsStayWithinCapacity := by
  refine ⟨fun s t h => ?_, fun s => ⟨fun hs => ?_, fun hz hr => ?_⟩⟩
  · have k := step_held h
    exact ⟨k.sized, k.capacity, fun hz hp => (placeLaw_iff t).2 (k.placed hz ((placeLaw_iff s).1 hp)), k.staged, k.reserve⟩
  · have e := held_add_free hs
    refine ⟨e, hs.filings, ?_⟩
    rw [freeStaging, show Config.stagingBlocks = 8192 from rfl]
    omega
  · obtain ⟨_, _, _, _, _, hw, _⟩ := hz
    exact (used_add_reserved hr).trans_eq hw

/-! ### The tables' laws -/

theorem not_mayForget {c : Instr} {rest : List Instr} {s : State} (hp : s.pending = c :: rest) (h : NoForgetNext s) :
    ¬ MayForget c (s.withQueue rest) := by
  obtain ⟨hx, hw, hc⟩ := h
  obtain ⟨h1, h2, h3⟩ := hc c (by rw [hp]; rfl)
  rintro (h | ⟨a, ha, k, b, rfl⟩ | ⟨k, b, rfl⟩ | ⟨bytes, rfl⟩ | ⟨k, b, rfl⟩)
  · exact h hx
  · exact hw k b ha
  · exact h1 k b rfl
  · exact h2 bytes rfl
  · exact h3 k b rfl

/-- Settles O9: the laws of a step, and what every command but a power-on keeps besides. -/
theorem volumeAndCartridgeTablesStayLawful : Obligations.VolumeAndCartridgeTablesStayLawful := by
  intro s t h hm
  have k := step_held h
  refine ⟨k.labels hm, fun hl => ⟨k.lawful hm hl, fun hp => ?_⟩⟩
  rcases step_cases h with ⟨_, rfl⟩ | ⟨c, rest, hq, e⟩
  · exact ⟨(Grows.refl _).numbersGoOn, fun _ => Grows.refl _⟩
  · have ht := exec_steady e fun g hg => hp g (by rw [hq, hg]; rfl)
    exact ⟨ht.numbers hm hl, fun hn => ht.grows (not_mayForget hq hn) hm hl⟩

/-! ### Reset -/

/-- Settles O3. -/
theorem resetValues : Obligations.ResetValues :=
  ⟨rfl, rfl, rfl, rfl, rfl, rfl, rfl, rfl, rfl, rfl, rfl, rfl, rfl, rfl, rfl, rfl, rfl, rfl, rfl, rfl, rfl, rfl, rfl, rfl, rfl, rfl, rfl,
    rfl, fun a => tget_replicate _ _ a, side_initial, cart_initial⟩

/-- At reset no account holds, owes or has a limit. -/
theorem fundsLaw_reset : FundsLaw State.reset := fun a _ _ => by
  have ha : State.reset.account a = Account.initial := tget_replicate _ _ a
  rw [ha]
  exact ⟨le_rfl, fun _ => rfl⟩

/-- Settles O11: reset is a power-on over the store first initialised. -/
theorem resetMeetsInvariants : Obligations.ResetMeetsInvariants :=
  ⟨memWf_nil, noticeCount_poweredOn _ _ _, replyCount_poweredOn _ _ _, sized_initial _ _, withinCapacity_poweredOn _ _ _,
    settings_poweredOn _ _ _, money_initial _ _, lawful_initial, labels_initial _ _, (placeLaw_iff _).2 (placed_initial _ _),
    staged_poweredOn _ _ _, reserve_poweredOn _ _ _, fundsLaw_reset⟩

/-! ### What comes about by itself -/

/-- Settles O12: the rules are calm, and neither fill staging nor move money. -/
theorem settleFrame : Obligations.SettleFrame := fun s => by
  have h : Calm ⟨false, false⟩ s (settle s) := settle_calm (Calm.refl _ s)
  obtain ⟨ns, hc, hn⟩ := h.ctl
  have hf := h.fixed
  have hmoney := h.money rfl
  simp only [State.fixed, State.money, Prod.mk.injEq] at hf hmoney
  obtain ⟨h1, h2, h3, h4, h5, h6, h7, h8, h9, hfees, hopen, hday, hlast⟩ := hf
  obtain ⟨haccounts, hcash, _⟩ := hmoney
  exact ⟨ns, hc, hn, h1, h2, h3, h4, h5, h6, h7, h8, h9, h.mem rfl, hfees, haccounts, hcash, hopen, hday, hlast⟩

/-- Settles O20. -/
theorem noticePlacedOrDropped : Obligations.NoticePlacedOrDropped := fun _ _ _ _ => by
  unfold notify
  exact ⟨fun h => if_pos h, fun h => if_neg (Nat.not_lt.2 h)⟩

end Sys2Proof.Machine
end

section
/-! PROOFS. Requests that end in their reply alone: the checks before dispatch, queries, reports, settings, accounts and the day. -/

namespace Sys2Proof.Machine

/-! ### From an owner's answer to the state it leaves -/

section
variable {s t : State} {c : Instr} {k : ReqKind} {h : Hdr} {b : List Byte} {f : List Byte} {code : RefCode}

theorem exec_pumps_done (ha : Admitted s k h b) (hc : requestOf c = some (k, h, b)) (hk : k.simple = true)
    (e : dispatch k s h.tag h.station.toNat b = done s t f) : exec c s = .next (pumpLine (replied s t h k .done f)) := by
  rw [exec_of_admitted ha hc hk, e, putReply_done]

theorem exec_pumps_refuse (ha : Admitted s k h b) (hc : requestOf c = some (k, h, b)) (hk : k.simple = true)
    (e : dispatch k s h.tag h.station.toNat b = refuse s code f) : exec c s = .next (pumpLine (refusedAs s h k code f)) := by
  rw [exec_of_admitted ha hc hk, e, putReply_refuse]

/-- An admitted request that may reach a rule leaves its owner's answer and its consequences. -/
theorem exec_settles (ha : Admitted s k h b) (hc : requestOf c = some (k, h, b)) (hk : k.simple = false) :
    exec c s = .next (settle (putReply (dispatch k s h.tag h.station.toNat b) k.byte h)) := by
  rw [exec_request hc, arriveKind_settles ha hk]

theorem exec_settles_done (ha : Admitted s k h b) (hc : requestOf c = some (k, h, b)) (hk : k.simple = false)
    (e : dispatch k s h.tag h.station.toNat b = done s t f) : exec c s = .next (settle (replied s t h k .done f)) := by
  rw [exec_settles ha hc hk, e, putReply_done]

theorem exec_settles_accepted (ha : Admitted s k h b) (hc : requestOf c = some (k, h, b)) (hk : k.simple = false)
    (e : dispatch k s h.tag h.station.toNat b = accepted s t f) : exec c s = .next (settle (replied s t h k .accepted f)) := by
  rw [exec_settles ha hc hk, e, putReply_accepted]

theorem exec_settles_refuse (ha : Admitted s k h b) (hc : requestOf c = some (k, h, b)) (hk : k.simple = false)
    (e : dispatch k s h.tag h.station.toNat b = refuse s code f) : exec c s = .next (settle (refusedAs s h k code f)) := by
  rw [exec_settles ha hc hk, e, putReply_refuse]

theorem exec_settles_refuseAfter (ha : Admitted s k h b) (hc : requestOf c = some (k, h, b)) (hk : k.simple = false)
    (e : dispatch k s h.tag h.station.toNat b = refuseAfter s t code f) :
    exec c s = .next (settle (replied s t h k (.refused code) f)) := by
  rw [exec_settles ha hc hk, e, putReply_refuseAfter]

end

/-! ### The checks of R191 -/

theorem gate_of_start {s : State} {k : ReqKind} (h : Hdr) (b : List Byte) (hm : s.mode = .start) (hk : k ≠ .status) :
    gate s k h b = some (.busy, be 1 1) := by
  simp [gate, hm, hk, Mode.code]

theorem gate_of_rebuild {s : State} {k : ReqKind} (h : Hdr) (b : List Byte) (hm : s.mode = .rebuild) (hk : k ≠ .status) :
    gate s k h b = some (.rebuilding, []) := by
  simp [gate, hm, hk]

/-- Past the modes the checks are the station's number, its right and the body's length. -/
theorem gate_of_mode {s : State} {k : ReqKind} (h : Hdr) (b : List Byte) (hm : k = .status ∨ (s.mode ≠ .start ∧ s.mode ≠ .rebuild)) :
    gate s k h b = if 32 < h.station.toNat then some (.badField, [])
      else if k ∈ ReqKind.maintenanceClass ∧ isSupervisor s h.station.toNat = false then some (.notPermitted, [])
      else if b.length ≠ layoutLength k b then some (.badField, []) else none := by
  have h1 : ¬ (s.mode = .start ∧ k ≠ .status) := by rintro ⟨h1, h2⟩; exact hm.elim h2 fun h3 => h3.1 h1
  have h2 : ¬ (s.mode = .rebuild ∧ k ≠ .status) := by rintro ⟨h1, h2⟩; exact hm.elim h2 fun h3 => h3.2 h1
  rw [gate, if_neg h1, if_neg h2]
  simp only [List.contains_iff_mem, lengthOk, beq_eq_false_iff_ne, Config.stationCount]

theorem requestChecksInOrder : RequestChecksInOrder := by
  intro c k h b s hc hl
  have refused {code : RefCode} {f : List Byte} (hg : gate s k h b = some (code, f)) :
      exec c s = .next (pumpLine (refusedAs s h k code f)) := by
    rw [exec_request hc, arriveKind_gated hl hg]
  refine ⟨fun hm hk => refused (gate_of_start h b hm hk), fun hm hk => refused (gate_of_rebuild h b hm hk), fun hm => ?_⟩
  have hg := gate_of_mode h b hm
  refine ⟨fun hst => refused (by rw [hg, if_pos hst]), fun hst => ?_⟩
  rw [if_neg (Nat.not_lt.2 hst)] at hg
  refine ⟨fun hk hs => refused (by rw [hg, if_pos ⟨hk, hs⟩]), fun hs hn => refused ?_⟩
  have hright : ¬ (k ∈ ReqKind.maintenanceClass ∧ isSupervisor s h.station.toNat = false) := fun ⟨hk, he⟩ =>
    Bool.noConfusion ((hs hk).symm.trans he)
  rw [hg, if_neg hright, if_pos hn]

theorem unknownKindRefused : UnknownKindRefused := by
  intro kind h b s hk hl
  show Host.Outcome.next (arriveFrame s kind h b) = _
  rw [arriveFrame_taken kind h b hl, takeRequest, hk]
  simp [putReply, refuse, insertAt]

/-- Settles O17. -/
theorem requestChecks : Obligations.RequestChecks := ⟨requestChecksInOrder, unknownKindRefused⟩

/-! ### Queries -/

theorem statusReports : StatusReports := fun _ _ _ ha => exec_pumps_done ha rfl rfl rfl

theorem queriesReportAndChangeNothing : QueriesReportAndChangeNothing := fun _ _ _ =>
  ⟨fun ha => exec_pumps_done ha rfl rfl rfl, fun ha => exec_pumps_done ha rfl rfl rfl, fun ha => exec_pumps_done ha rfl rfl rfl,
    fun ha => exec_pumps_done ha rfl rfl rfl, fun ha => exec_pumps_done ha rfl rfl rfl, fun ha => exec_pumps_done ha rfl rfl rfl,
    fun ha => exec_pumps_done ha rfl rfl rfl, fun ha => exec_pumps_done ha rfl rfl rfl⟩

theorem locateReports : LocateReports := by
  intro s h b ha
  refine ⟨fun hn => exec_pumps_done ha rfl rfl ?_, fun n hn => exec_pumps_done ha rfl rfl ?_⟩
  · show locateOp s b = _
    simp only [locateOp, hn]
  · show locateOp s b = _
    simp only [locateOp, hn, cartLabel, cartStateCode]

/-- Settles O24. -/
theorem queriesReport : Obligations.QueriesReport := ⟨statusReports, queriesReportAndChangeNothing, locateReports⟩

/-- A span of 1 to 16 entries of a table is taken. -/
theorem spanOk_eq_true {size n c : Nat} (h1 : 1 ≤ n) (h2 : n ≤ size) (h3 : 1 ≤ c) (h4 : c ≤ 16) (h5 : n + c ≤ size + 1) :
    spanOk size n c = true := decide_eq_true ⟨h1, h2, h3, h4, h5⟩

theorem spanOk_eq_false {size n c : Nat} (h : n = 0 ∨ c = 0 ∨ 16 < c ∨ size + 1 < n + c) : spanOk size n c = false :=
  decide_eq_false (by omega)

theorem accountQueryOp_eq (s : State) (b : List Byte) : accountQueryOp s b =
    if spanOk 64 (numAt b 0 1) (numAt b 1 1) then
      done s s ((List.range (numAt b 1 1)).flatMap fun i => accountRecord s (numAt b 0 1 + i))
    else refuse s .badField [] := by
  simp only [accountQueryOp, spanOk, decide_eq_true_eq, Config.accountCount]

/-- Settles O22. -/
theorem spanQueriesReport : Obligations.SpanQueriesReport := by
  intro s h b
  refine ⟨fun ha => ⟨fun h1 h2 h3 h4 h5 => ?_, fun hn => ?_⟩, fun ha => ⟨fun h1 h2 h3 h4 h5 => ?_, fun hn => ?_⟩,
    fun ha => ⟨fun h1 h2 h3 h4 h5 => ?_, fun hn => ?_⟩, fun ha => ⟨fun hd => ?_, fun hd => ?_⟩⟩
  · exact exec_pumps_done ha rfl rfl (if_pos (spanOk_eq_true h1 h2 h3 h4 h5))
  · exact exec_pumps_refuse ha rfl rfl (if_neg (ne_true_of_eq_false (spanOk_eq_false hn)))
  · exact exec_pumps_done ha rfl rfl (if_pos (spanOk_eq_true h1 h2 h3 h4 h5))
  · exact exec_pumps_refuse ha rfl rfl (if_neg (ne_true_of_eq_false (spanOk_eq_false hn)))
  · exact exec_pumps_done ha rfl rfl ((accountQueryOp_eq s b).trans (if_pos (spanOk_eq_true h1 h2 h3 h4 h5)))
  · exact exec_pumps_refuse ha rfl rfl ((accountQueryOp_eq s b).trans (if_neg (ne_true_of_eq_false (spanOk_eq_false hn))))
  · exact exec_pumps_done ha rfl rfl (if_neg hd)
  · exact exec_pumps_refuse ha rfl rfl (if_pos hd)

/-! ### Range lookup (R13) -/

/-- An assigned side's run embraces the number. -/
def embraces (s : State) (d n : Nat) : Prop :=
  sideAssigned s n = true ∧ ∃ a z, (s.side n).first = some a ∧ (s.side n).last = some z ∧ a ≤ d ∧ d ≤ z

theorem rangeLookup_eq_none {s : State} {d : Nat} (h : d = 0 ∨ s.ret.nextDoc ≤ d) : rangeLookup s d = none := if_pos h

theorem rangeLookup_eq_some {s : State} {d n : Nat} (h : rangeLookup s d = some n) :
    (1 ≤ n ∧ n ≤ s.ret.sides.length) ∧ embraces s d n := by
  unfold rangeLookup at h
  split at h
  · cases h
  · refine ⟨mem_upTo (List.mem_of_find?_eq_some h), ?_⟩
    have hp := List.find?_some h
    rw [Bool.and_eq_true] at hp
    obtain ⟨ha, hr⟩ := hp
    split at hr
    · next a z hf hl => exact ⟨ha, a, z, hf, hl, of_decide_eq_true hr⟩
    · cases hr

theorem rangeLookup_isSome {s : State} {d n : Nat} (h1 : 1 ≤ d) (h2 : d < s.ret.nextDoc) (hn : 1 ≤ n ∧ n ≤ s.ret.sides.length)
    (he : embraces s d n) : (rangeLookup s d).isSome = true := by
  obtain ⟨ha, a, z, hf, hl, hr⟩ := he
  rw [rangeLookup, if_neg (by omega), List.find?_isSome]
  exact ⟨n, mem_upTo_iff.2 hn, by simp [ha, hf, hl, hr]⟩

/-- Settles O23. -/
theorem rangeLookupFindsTheSide : Obligations.RangeLookupFindsTheSide := by
  intro s d
  refine ⟨rangeLookup_eq_none, fun n h => ?_, fun n a z h1 h2 h3 h4 ha hf hl haz hz => ?_⟩
  · obtain ⟨⟨h1, h2⟩, hs⟩ := rangeLookup_eq_some h
    exact ⟨h1, h2, hs⟩
  · exact rangeLookup_isSome h1 h2 ⟨h3, h4⟩ ⟨ha, a, z, hf, hl, haz, hz⟩

end Sys2Proof.Machine
end

section
/-! PROOFS. The reports field by field, settings, account and day requests, and the funds law at each event that changes holds,
balance or limit. -/

namespace Sys2Proof.Machine

/-! ### Reports (R15, R49, R93, R129, R144, R163, R175, R176, R196) -/

theorem statusFieldsInOrder : StatusFieldsInOrder := fun s => by
  simp only [statusFields, optClock, classCounts, classItems, List.append_assoc]
  rfl

theorem sideReportFields : SideReportFields := by
  refine fun s n => ⟨fun hn => ?_, fun k hk => ?_⟩
  · simp [sideReport, sideAssigned, hn]
  · simp only [sideReport, sideAssigned, cartLabel, cartStateCode, hk, Option.isSome_some, Bool.not_true, Bool.false_eq_true, if_false,
      Option.map_some, Option.getD_some]
    rfl

theorem cartridgeAndSlotReportFields : CartridgeAndSlotReportFields := fun s =>
  ⟨fun c hc => by simp only [cartReport, hc], fun c k hk => by simp only [cartReport, hk]; rfl, rfl⟩

theorem workReportFields : WorkReportFields := fun _ => rfl

theorem filingReportFields (f : Filing) : filingReport f =
    be 4 f.ref.toNat ++ be 1 f.station ++ be 1 (if f.rect.isSome then 2 else 1) ++ be 1 f.state.code ++ be 2 f.count ++
      be 2 f.received ++ optNum 2 f.target ++ optField 4 f.start ++ be 2 f.claimed ++ be 2 f.progress ++
      be 1 f.remaps.length ++ flag f.relocated ++ flag f.cancelPending ++ optNum 4 (f.rect.map RectInfo.target) ++
      optNum 2 ((f.rect.bind RectInfo.deadline).map Clock.day) ++ optField 4 ((f.rect.bind RectInfo.deadline).map Clock.second) := by
  simp only [filingReport, rectKind, optClock, List.append_assoc]

theorem rangesFields_eq (rs : List (Nat × Nat)) : rangesFields rs = be 1 rs.length ++ pairBytes rs := rfl

theorem filingAndWithheldReportFields : FilingAndWithheldReportFields := by
  refine fun s => ⟨filingReportFields, ?_, fun doc => ?_⟩
  · simp only [filingsReport, counted, markerFields]
    cases s.ret.marker <;> rfl
  · simp only [withheldReport, rangesFields_eq, counted, List.append_assoc]
    rfl

theorem orderReportFields : OrderReportFields := by
  refine ⟨fun o => ?_, fun s => ?_⟩
  · unfold orderReport orderCounts pagesIn kindCode
    rw [rangesFields_eq]
    unfold counted
    simp only [List.append_assoc]
  · rfl

theorem accountReportFields : AccountReportFields := by
  refine ⟨fun s a => rfl, fun r => rfl, fun s => ⟨fun r hr => ?_, fun hn => ⟨List.replicate reportLength 0, fun b hb => ?_, ?_⟩⟩⟩
  · simp only [tallyReport, hr, List.append_assoc]
    rfl
  · exact List.eq_of_mem_replicate hb
  · simp only [tallyReport, hn, List.append_assoc]
    rfl

/-- Settles O25. -/
theorem reportsCarryTheirFields : Obligations.ReportsCarryTheirFields :=
  ⟨statusFieldsInOrder, sideReportFields, cartridgeAndSlotReportFields, workReportFields, filingAndWithheldReportFields,
    orderReportFields, accountReportFields⟩

/-! ### Settings -/

theorem stationSetSetsOneStation : StationSetSetsOneStation := by
  intro s h b ha
  refine ⟨fun kind hk h1 h2 => exec_pumps_done ha rfl rfl ?_, fun hbad => exec_pumps_refuse ha rfl rfl ?_⟩
  · show stationSetOp s b = _
    have hcode : kindOfCode (numAt b 1 1) = some kind := by rw [hk]; cases kind <;> rfl
    simp only [stationSetOp, hcode]
    exact if_pos ⟨h1, h2⟩
  · show stationSetOp s b = _
    unfold stationSetOp
    dsimp only
    split
    · rfl
    · next k hk =>
      refine if_neg fun ⟨h1, h2⟩ => ?_
      have hrange : 1 ≤ numAt b 1 1 ∧ numAt b 1 1 ≤ 3 := by
        revert hk
        generalize numAt b 1 1 = m
        unfold kindOfCode
        split <;> simp
      have : numAt b 0 1 ≤ 32 := h2
      omega

theorem badField_eq_zero_iff (q : ParamsReq) : q.badField = 0 ↔
    (1 ≤ q.burstPages ∧ q.burstPages ≤ 16) ∧ (64 ≤ q.writeBurst ∧ q.writeBurst ≤ 1024) ∧
      q.yieldLimit ≤ 7 ∧ (1 ≤ q.chainLimit ∧ q.chainLimit ≤ 32) ∧ (1 ≤ q.order ∧ q.order ≤ 6) ∧
      (30 ≤ q.idleTime ∧ q.idleTime ≤ 3600) ∧ (60 ≤ q.consentWindow ∧ q.consentWindow ≤ 1800) := by
  unfold ParamsReq.badField
  split_ifs <;> simp <;> omega

/-- No timer has run past the new idle time: none expires (R56). -/
theorem idleChanged_eq_self {s : State} (h : ∀ d, (s.drive d).state = .ready → (s.drive d).idleOn = true →
    s.elapsed - (s.drive d).readySince < s.params.idleTime) : idleChanged s = s := by
  have each : ∀ d, ¬ ((s.drive d).state = .ready ∧ (s.drive d).idleOn = true ∧
      s.params.idleTime ≤ s.elapsed - (s.drive d).readySince) := fun d ⟨h1, h2, h3⟩ => Nat.not_lt.2 h3 (h d h1 h2)
  simp only [idleChanged, drives4, List.foldl_cons, List.foldl_nil, if_neg (each _)]

theorem setParamsSetsAllOrNone : SetParamsSetsAllOrNone := by
  refine fun s h b ha => ⟨fun hq => ?_, fun hq => exec_settles_refuse ha rfl rfl (if_pos hq), badField_eq_zero_iff _,
    fun hd => idleChanged_eq_self hd⟩
  exact exec_settles_done ha rfl rfl (if_neg (not_not.2 hq))

/-- No consent is due: none expires (R133). -/
theorem expireDue_eq_self {s : State} {c : Clock} (hc : s.clock = some c) (h : ∀ f ∈ s.filings, f.due c = false) :
    expireDue s = s := by
  have none : s.filings.filter (fun f => f.due c) = [] := List.filter_eq_nil_iff.2 fun f hf => by simp [h f hf]
  simp only [expireDue, hc, none, List.foldl_nil]

theorem setClockTakesTheReading : SetClockTakesTheReading := by
  intro s h b ha
  have hday : numAt b 0 2 ≤ 65535 := Nat.le_of_lt_succ (numAt_lt b 0 2)
  refine ⟨fun h1 h2 => exec_settles_done ha rfl rfl (if_pos ⟨h1, hday, h2⟩),
    fun hbad => exec_settles_refuse ha rfl rfl (if_neg ?_), fun hf => expireDue_eq_self rfl hf⟩
  rintro ⟨h1, _, h3⟩
  have h1 : 1 ≤ numAt b 0 2 := h1
  have h3 : numAt b 2 4 < 86400 := h3
  omega

theorem feeSetReplacesTheSchedule : FeeSetReplacesTheSchedule := by
  intro s h b ha
  refine ⟨fun h1 h2 h3 => exec_pumps_done ha rfl rfl (if_pos ⟨h1, h2, h3⟩), fun hbad => exec_pumps_refuse ha rfl rfl (if_neg ?_)⟩
  rintro ⟨h1, h2, h3⟩
  have h1 : numAt b 0 4 ≤ 50000 := h1
  have h2 : numAt b 4 4 ≤ 50000 := h2
  have h3 : numAt b 8 4 ≤ 50000 := h3
  omega

/-- Settles O26. -/
theorem settingRequests : Obligations.SettingRequests :=
  ⟨stationSetSetsOneStation, setParamsSetsAllOrNone, setClockTakesTheReading, feeSetReplacesTheSchedule⟩

/-! ### Accounts and the day -/

section
variable {s : State} {c : Instr} {k : ReqKind} {h : Hdr} {b : List Byte} {a : Nat}

theorem exec_accountRefused {code : RefCode} {more : List Byte} (ha : Admitted s k h b) (hc : requestOf c = some (k, h, b))
    (hk : k.simple = true) (e : dispatch k s h.tag h.station.toNat b = refuseAccount s a code more) :
    exec c s = .next (accountRefused s h k a code more) := by
  rw [exec_of_admitted ha hc hk, e, pumpLine_putReply_refuseAccount]

theorem exec_accountSet {e : Account} (ha : Admitted s k h b) (hc : requestOf c = some (k, h, b)) (hk : k.simple = true)
    (he : dispatch k s h.tag h.station.toNat b = setAccountDone s a e) : exec c s = .next (accountSet s h k a e) := by
  rw [exec_of_admitted ha hc hk, he, pumpLine_putReply_setAccountDone]

end

/-- Settles O27: each request's checks in their order. -/
theorem accountStateRequests : Obligations.AccountStateRequests := by
  intro s h b
  refine ⟨fun ha => ⟨fun hno => exec_pumps_refuse ha rfl rfl ?_, fun h1 h64 => ?_⟩,
    fun ha => ⟨fun hno => exec_pumps_refuse ha rfl rfl ?_, fun h1 h64 => ?_⟩,
    fun ha => ⟨fun hno => exec_pumps_refuse ha rfl rfl ?_, fun h1 h64 => ?_⟩,
    fun ha => ⟨fun hno => exec_pumps_refuse ha rfl rfl ?_, fun h1 h64 => ?_⟩⟩
  · simp only [dispatch, accountOpenOp, accountOk_eq_false hno, Bool.not_false, if_true]
  · have ok := accountOk_eq_true h1 h64
    refine ⟨fun hl => exec_accountRefused ha rfl rfl ?_, fun hl hk => exec_accountRefused ha rfl rfl ?_,
      fun hl hk => exec_accountSet ha rfl rfl ?_⟩
    · simp [dispatch, accountOpenOp, ok, limitOk_eq_false hl]
    · simp [dispatch, accountOpenOp, ok, limitOk_eq_true hl, hk]
    · simp [dispatch, accountOpenOp, ok, limitOk_eq_true hl, hk]
  · simp only [dispatch, accountSuspendOp, accountOk_eq_false hno, Bool.not_false, if_true]
  · have ok := accountOk_eq_true h1 h64
    refine ⟨fun hk => exec_accountRefused ha rfl rfl ?_, fun hk => exec_accountSet ha rfl rfl ?_⟩
    · simp [dispatch, accountSuspendOp, ok, hk]
    · simp [dispatch, accountSuspendOp, ok, hk]
  · simp only [dispatch, accountResumeOp, accountOk_eq_false hno, Bool.not_false, if_true]
  · have ok := accountOk_eq_true h1 h64
    refine ⟨fun hk => exec_accountRefused ha rfl rfl ?_, fun hk => exec_accountSet ha rfl rfl ?_⟩
    · simp [dispatch, accountResumeOp, ok, hk]
    · simp [dispatch, accountResumeOp, ok, hk]
  · simp only [dispatch, accountCloseOp, accountOk_eq_false hno, Bool.not_false, if_true]
  · have ok := accountOk_eq_true h1 h64
    refine ⟨fun hk => exec_accountRefused ha rfl rfl ?_, fun hk ho => exec_accountRefused ha rfl rfl ?_,
      fun hk ho hh hb => exec_accountRefused ha rfl rfl ?_, fun hk ho hh hb => exec_accountSet ha rfl rfl ?_⟩
    · simp [dispatch, accountCloseOp, ok, hk]
    · simp only [dispatch, accountCloseOp, ok, hk, Bool.not_true, Bool.false_eq_true, ne_eq, not_true_eq_false, if_false]
      exact if_pos ho
    · simp [dispatch, accountCloseOp, ok, hk, ho, hh, hb]
    · simp [dispatch, accountCloseOp, ok, hk, ho, hh, hb]

theorem dayOpenOpensTheDay : DayOpenOpensTheDay := by
  refine fun s h b ha => ⟨fun hn => exec_pumps_refuse ha rfl rfl (if_pos hn), fun hn ho => exec_pumps_refuse ha rfl rfl ?_,
    fun hn ho => exec_pumps_done ha rfl rfl ?_⟩
  · exact (if_neg hn).trans (if_pos ho)
  · exact (if_neg hn).trans (if_neg (ne_true_of_eq_false ho))

theorem dayCloseReportsAndZeroes : DayCloseReportsAndZeroes := by
  refine fun s h b ha => ⟨fun hd => exec_pumps_refuse ha rfl rfl ?_, fun hd ho => exec_pumps_refuse ha rfl rfl ?_,
    fun hd ho => exec_pumps_done ha rfl rfl ?_⟩
  · simp [dispatch, dayCloseOp, hd]
  · simp [dispatch, dayCloseOp, hd, ho]
  · exact (if_neg (by simp [hd])).trans (if_neg (not_not.2 ho))

/-- Settles O30. -/
theorem dayRequests : Obligations.DayRequests := ⟨dayOpenOpensTheDay, dayCloseReportsAndZeroes⟩

/-- Settles O31: CASH is payer 0, an account any other. -/
theorem chargeMovesThePayerAndTheDay : Obligations.ChargeMovesThePayerAndTheDay := by
  refine fun s st m => ⟨fun a n ha => ?_, fun n => ⟨rfl, rfl⟩⟩
  obtain ⟨a, rfl⟩ := Nat.exists_eq_add_of_le' ha
  exact ⟨rfl, rfl⟩

/-! ### The funds law (R168) -/

/-- The funds law speaks of orders and accounts alone. -/
theorem FundsLaw.of_eq {s t : State} (h : FundsLaw s) (ho : t.orders = s.orders) (ha : t.ret.accounts = s.ret.accounts) :
    FundsLaw t := by
  intro a h1 h2
  have := h a h1 h2
  simpa only [holdsOf, State.account, ho, ha] using this

/-- Every account's limit law: its holds within balance and limit, no limit while INACTIVE. -/
def coversHolds (s : State) (a : Nat) (k : Account) : Prop :=
  (holdsOf s a : Int) ≤ k.balance + k.limit ∧ (k.state = .inactive → k.limit = 0)

theorem FundsLaw.setAccount {s : State} (h : FundsLaw s) (a : Nat) (k : Account) (hk : coversHolds s a k) :
    FundsLaw (s.setAccount a k) := by
  intro x h1 h2
  show coversHolds s x (tget (tset s.ret.accounts a k) x Account.initial)
  rw [tget_of_tset]
  split
  · next he => rw [← he.1]; exact hk
  · exact h x h1 h2

theorem accountOk_iff (a : Nat) : accountOk a = true ↔ 1 ≤ a ∧ a ≤ 64 := decide_eq_true_iff

/-- An answer that keeps the funds law. -/
def Funded (a : Answer) : Prop := FundsLaw a.state

section
variable {s : State} (h : FundsLaw s) (b : List Byte)
include h

theorem accountOpenOp_funded : Funded (accountOpenOp s b) := by
  unfold accountOpenOp
  dsimp only
  split_ifs with h1 h2 h3
  iterate 3 exact h
  simp only [Bool.not_eq_true', Bool.not_eq_false] at h1
  obtain ⟨ha, h64⟩ := (accountOk_iff _).1 h1
  obtain ⟨hold, hzero⟩ := h _ ha h64
  refine h.setAccount _ _ ⟨?_, nofun⟩
  have := hzero (not_not.1 h3)
  simp only at hold ⊢
  omega

theorem accountSuspendOp_funded : Funded (accountSuspendOp s b) := by
  unfold accountSuspendOp
  dsimp only
  split_ifs with h1 h2
  iterate 2 exact h
  simp only [Bool.not_eq_true', Bool.not_eq_false] at h1
  obtain ⟨ha, h64⟩ := (accountOk_iff _).1 h1
  exact h.setAccount _ _ ⟨(h _ ha h64).1, nofun⟩

theorem accountResumeOp_funded : Funded (accountResumeOp s b) := by
  unfold accountResumeOp
  dsimp only
  split_ifs with h1 h2
  iterate 2 exact h
  simp only [Bool.not_eq_true', Bool.not_eq_false] at h1
  obtain ⟨ha, h64⟩ := (accountOk_iff _).1 h1
  exact h.setAccount _ _ ⟨(h _ ha h64).1, nofun⟩

theorem accountCloseOp_funded : Funded (accountCloseOp s b) := by
  unfold accountCloseOp
  dsimp only
  split_ifs with h1 h2 h3 h4
  iterate 4 exact h
  refine h.setAccount _ _ ⟨?_, fun _ => rfl⟩
  obtain ⟨_, hh⟩ := not_or.1 h3
  rw [not_not.1 hh]
  simp only
  rw [not_not.1 h4]
  rfl

theorem accountLimitOp_funded : Funded (accountLimitOp s b) := by
  unfold accountLimitOp
  dsimp only
  split_ifs with h1 h2 h3 h4
  iterate 4 exact h
  refine h.setAccount _ _ ⟨?_, fun hi => absurd hi h3⟩
  exact Int.not_lt.1 (not_or.1 h4).2

theorem accountDepositOp_funded : Funded (accountDepositOp s b) := by
  unfold accountDepositOp
  dsimp only
  split_ifs with h1 h2 h3 h4
  iterate 4 exact h
  simp only [Bool.not_eq_true', Bool.not_eq_false] at h1
  obtain ⟨ha, h64⟩ := (accountOk_iff _).1 h1
  refine h.setAccount _ _ ⟨?_, fun hi => absurd hi h3⟩
  have := (h _ ha h64).1
  simp only
  omega

theorem accountWithdrawOp_funded : Funded (accountWithdrawOp s b) := by
  unfold accountWithdrawOp
  dsimp only
  split_ifs with h1 h2 h3 h4
  iterate 4 exact h
  refine h.setAccount _ _ ⟨?_, fun hi => absurd hi h3⟩
  simp only
  omega

theorem dayCloseOp_funded : Funded (dayCloseOp s) := by
  unfold dayCloseOp
  split
  · exact h
  split
  · exact h
  intro a h1 h2
  have figures : (tget (s.ret.accounts.map fun k => { k with charged := 0 }) a Account.initial) =
      { tget s.ret.accounts a Account.initial with charged := 0 } := by
    cases a with
    | zero => rfl
    | succ a =>
      simp only [tget, List.getD_eq_getElem?_getD, List.getElem?_map]
      cases s.ret.accounts[a]? <;> rfl
  show coversHolds s a (tget (s.ret.accounts.map fun k => { k with charged := 0 }) a Account.initial)
  rw [figures]
  exact h a h1 h2

/-- Every request that ends in its reply alone keeps the funds law. -/
theorem dispatch_funded (k : ReqKind) (tag : Word16) (st : Nat) (hk : k.simple = true) : Funded (dispatch k s tag st b) := by
  cases k with
  | status => exact h
  | stationQuery => exact h
  | paramsQuery => exact h
  | locate => unfold dispatch locateOp; dsimp only; split <;> exact h
  | sideQuery => unfold dispatch sideQueryOp; dsimp only; split <;> exact h
  | cartridgeQuery => unfold dispatch cartridgeQueryOp; dsimp only; split <;> exact h
  | slotQuery => exact h
  | workQuery => exact h
  | filingQuery => exact h
  | withheldQuery => unfold dispatch withheldQueryOp; dsimp only; split <;> exact h
  | copyQuery => exact h
  | feeQuery => exact h
  | accountQuery => unfold dispatch accountQueryOp; dsimp only; split <;> exact h
  | stationSet =>
    unfold dispatch stationSetOp
    dsimp only
    split
    · exact h
    · split <;> exact h
  | feeSet => unfold dispatch feeSetOp; dsimp only; split <;> exact h
  | accountOpen => exact accountOpenOp_funded h b
  | accountLimit => exact accountLimitOp_funded h b
  | accountDeposit => exact accountDepositOp_funded h b
  | accountWithdraw => exact accountWithdrawOp_funded h b
  | accountSuspend => exact accountSuspendOp_funded h b
  | accountResume => exact accountResumeOp_funded h b
  | accountClose => exact accountCloseOp_funded h b
  | tallyQuery => exact h
  | dayOpen => unfold dispatch dayOpenOp; split_ifs <;> exact h
  | dayClose => exact dayCloseOp_funded h
  | fileData =>
    unfold dispatch fileDataOp
    dsimp only
    split
    · exact h
    split
    · exact h
    split
    · exact h
    split <;> exact h
  | _ => cases hk

end

@[simp] theorem pumpLine_orders (s : State) : (pumpLine s).orders = s.orders := by
  unfold pumpLine
  split
  · rfl
  · split
    · rfl
    · split <;> rfl
    · rfl
    · rfl

theorem FundsLaw.pumpLine {s : State} (h : FundsLaw s) : FundsLaw (pumpLine s) := by
  have hm := (pumpLine_calm (Calm.refl ⟨false, false⟩ s)).money rfl
  simp only [State.money, Prod.mk.injEq] at hm
  exact h.of_eq (pumpLine_orders s) hm.1

theorem simple_keeps_funds {s t : State} (hf : FundsLaw s) {c : Instr} {k : ReqKind} {h : Hdr} {b : List Byte}
    (hc : requestOf c = some (k, h, b)) (hk : k.simple = true) (hl : LinkTakes s) (e : exec c s = .next t) : FundsLaw t := by
  rw [exec_request hc, arriveKind_taken _ _ _ hl] at e
  cases e
  unfold takeKnown
  split
  · exact FundsLaw.pumpLine (s := putReply _ _ _) hf
  · simp only [hk, if_true]
    exact FundsLaw.pumpLine (s := putReply _ _ _) (dispatch_funded hf b k h.tag h.station.toNat hk)

theorem holdsOf_newOrder (s : State) (o : Order) (a : Nat) :
    holdsOf { s with orders := s.orders ++ [o] } a = holdsOf s a + if o.payer = a then o.hold else 0 := by
  unfold holdsOf
  rw [List.filter_append, List.map_append, List.sum_append]
  by_cases hp : o.payer = a <;> simp [hp]

/-- A hold placed within the available funds. -/
theorem newOrder_keeps_funds {s : State} (hf : FundsLaw s) (o : Order) (h : o.payer ≠ 0 → (o.hold : Int) ≤ availableFunds s o.payer) :
    FundsLaw { s with orders := s.orders ++ [o] } := by
  intro a h1 h2
  have hold := hf a h1 h2
  refine ⟨?_, hold.2⟩
  show (holdsOf { s with orders := s.orders ++ [o] } a : Int) ≤ (s.account a).balance + (s.account a).limit
  rw [holdsOf_newOrder]
  by_cases hp : o.payer = a
  · have funds := h (by omega)
    rw [hp] at funds
    simp only [availableFunds] at funds
    rw [if_pos hp, Nat.cast_add]
    omega
  · rw [if_neg hp]
    exact hold.1

/-- The holds on an account after one order of the table is changed, its payer kept. -/
theorem holds_changed (g : Order → Order) (hg : ∀ x, (g x).payer = x.payer) (a : Nat) : ∀ (l : List Order) (o : Order),
    (l.map Order.number).Nodup → o ∈ l →
    (((l.map fun x => if x.number = o.number then g x else x).filter fun x => x.payer == a).map Order.hold).sum +
        (if o.payer = a then o.hold else 0) =
      ((l.filter fun x => x.payer == a).map Order.hold).sum + (if o.payer = a then (g o).hold else 0)
  | [], o, _, ho => absurd ho List.not_mem_nil
  | x :: xs, o, hn, ho => by
    rw [List.map_cons, List.nodup_cons] at hn
    obtain ⟨hx, hn⟩ := hn
    rcases List.mem_cons.1 ho with rfl | ho
    · have rest : (xs.map fun y => if y.number = o.number then g y else y) = xs := by
        refine (List.map_congr_left fun y hy => if_neg fun e => hx ?_).trans xs.map_id
        rw [← e]
        exact List.mem_map_of_mem hy
      rw [List.map_cons, if_pos rfl, rest]
      by_cases hp : o.payer = a
      · simp only [hp, List.filter_cons, hg, beq_self_eq_true, if_true, List.map_cons, List.sum_cons]
        omega
      · simp [hg, hp]
    · have ih := holds_changed g hg a xs o hn ho
      have hne : x.number ≠ o.number := fun e => hx (e ▸ List.mem_map_of_mem ho)
      rw [List.map_cons, if_neg hne]
      by_cases hp : x.payer = a
      · simp only [List.filter_cons, hp, beq_self_eq_true, if_true, List.map_cons, List.sum_cons]
        omega
      · simpa [hp] using ih

theorem holdsOf_modOrder {s : State} {o : Order} (g : Order → Order) (hg : ∀ x, (g x).payer = x.payer) (a : Nat)
    (hn : (s.orders.map Order.number).Nodup) (ho : o ∈ s.orders) :
    holdsOf (s.modOrder o.number g) a + (if o.payer = a then o.hold else 0) =
      holdsOf s a + (if o.payer = a then (g o).hold else 0) := holds_changed g hg a s.orders o hn ho

theorem withHold_hold_le (o : Order) (n : Nat) : (o.withHold n).hold ≤ n := by
  unfold Order.withHold
  dsimp only
  split
  · exact Nat.zero_le _
  · exact Nat.le_refl _

/-- A narrowed hold. -/
theorem withHold_keeps_funds {s : State} (hf : FundsLaw s) (hn : (s.orders.map Order.number).Nodup) {o : Order} (ho : o ∈ s.orders)
    {n : Nat} (h : n ≤ o.hold) : FundsLaw (s.modOrder o.number fun x => x.withHold n) := by
  intro a h1 h2
  have hold := hf a h1 h2
  refine ⟨?_, hold.2⟩
  have := holdsOf_modOrder (fun x => x.withHold n) (fun _ => rfl) a hn ho
  show (holdsOf (s.modOrder o.number fun x => x.withHold n) a : Int) ≤ (s.account a).balance + (s.account a).limit
  have hle := withHold_hold_le o n
  have := hold.1
  split at * <;> omega

/-- The payer's record after a charge; every other account's is as it was. -/
theorem account_charge (s : State) (payer st m : Nat) (what : Charged) (a : Nat) (ha : 1 ≤ a) :
    (charge s payer st m what).account a = s.account a ∨ (a = payer ∧
      (charge s payer st m what).account a = { s.account a with balance := (s.account a).balance - m, charged := (s.account a).charged + m }) := by
  cases payer with
  | zero => exact .inl rfl
  | succ p =>
    have hget : (charge s (p + 1) st m what).account a =
      tget (tset s.ret.accounts (p + 1) { s.account (p + 1) with
        balance := (s.account (p + 1)).balance - m, charged := (s.account (p + 1)).charged + m }) a Account.initial := rfl
    rw [hget, tget_of_tset]
    split
    · next h =>
      obtain ⟨rfl, _⟩ := h
      exact .inr ⟨rfl, rfl⟩
    · exact .inl rfl

/-- A charge of at most its order's hold lowers balance and hold alike. -/
theorem chargeOrder_keeps_funds {s : State} (hf : FundsLaw s) (hn : (s.orders.map Order.number).Nodup) {o : Order} (ho : o ∈ s.orders)
    (m pages : Nat) (what : Charged) (h : m ≤ o.hold) : FundsLaw (chargeOrder s o m pages what) := by
  intro a h1 h2
  obtain ⟨hold, hzero⟩ := hf a h1 h2
  have hsum := holdsOf_modOrder (s := charge s o.payer o.station m what)
    (fun x => { x with charged := x.charged + pages, amount := x.amount + m }.withHold (x.hold - m)) (fun _ => rfl) a hn ho
  change holdsOf (chargeOrder s o m pages what) a + _ = holdsOf s a + _ at hsum
  have hle := withHold_hold_le { o with charged := o.charged + pages, amount := o.amount + m } (o.hold - m)
  show ((holdsOf (chargeOrder s o m pages what) a : Int) ≤ ((charge s o.payer o.station m what).account a).balance +
    ((charge s o.payer o.station m what).account a).limit) ∧ (((charge s o.payer o.station m what).account a).state = .inactive →
      ((charge s o.payer o.station m what).account a).limit = 0)
  rcases account_charge s o.payer o.station m what a h1 with e | ⟨hp, e⟩
  · rw [e]
    refine ⟨?_, hzero⟩
    split at hsum <;> omega
  · rw [e]
    refine ⟨?_, hzero⟩
    rw [if_pos hp.symm, if_pos hp.symm] at hsum
    simp only
    omega

/-- Orders that leave the table. -/
theorem filter_keeps_funds {s : State} (hf : FundsLaw s) (p : Order → Bool) : FundsLaw { s with orders := s.orders.filter p } := by
  intro a h1 h2
  obtain ⟨hold, hzero⟩ := hf a h1 h2
  refine ⟨le_trans ?_ hold, hzero⟩
  have : (((s.orders.filter p).filter fun o => o.payer == a).map Order.hold).sum ≤
      ((s.orders.filter fun o => o.payer == a).map Order.hold).sum :=
    (((List.filter_sublist (p := p)).filter _).map _).sum_le_sum fun _ _ => Nat.zero_le _
  exact Int.ofNat_le.2 this

/-- Settles O10: one lemma for each event. -/
theorem fundsLawIsKept : Obligations.FundsLawIsKept := by
  refine fun s hf => ⟨fun c k h body t hc hk hl e => simple_keeps_funds hf hc hk hl e,
    fun tag st n number rate certFee q sel fee hfee => newOrder_keeps_funds hf _ fun hp => ?_,
    fun hn o ho => ⟨fun x hx => withHold_keeps_funds hf hn ho hx, fun m pages what h => chargeOrder_keeps_funds hf hn ho m pages what h⟩,
    filter_keeps_funds hf⟩
  show ((if q.payer = 0 then 0 else fee : Nat) : Int) ≤ _
  rw [if_neg (show q.payer ≠ 0 from hp)]
  exact hfee hp

end Sys2Proof.Machine
end

section
/-! PROOFS. The Host Link: frames received byte by byte, the Reply Queue, the outgoing line and PAGE frames (R190 to R192, R101). -/

namespace Sys2Proof.Machine

/-! ### A frame on the line -/

/-- A frame as the line carries it: the start byte, the length of the body, the bytes that the check value covers, and a check
field. `frameBytes` builds it with the right check value (`frameBytes_eq_framed`). -/
def framed (checked : List Byte) (check : Nat) : List Byte := 0x5A :: be 2 (checked.length - 4) ++ checked ++ be 2 check

theorem frameBytes_eq_framed (k : Byte) (tag : Word16) (st : Byte) (body : List Byte) : frameBytes k tag st body =
    framed (k :: be 2 tag.toNat ++ st :: body) (crc16 (k :: be 2 tag.toNat ++ st :: body)).toNat := by
  have hl : (k :: be 2 tag.toNat ++ st :: body).length - 4 = body.length := by simp; omega
  rw [framed, hl, frameBytes]

section
variable {checked : List Byte} {check : Nat}

theorem framed_length (h4 : 4 ≤ checked.length) : (framed checked check).length = 9 + (checked.length - 4) := by
  simp [framed]
  omega

/-- From its third byte on, the bytes received tell the length field. -/
theorem numAt_take_framed {n : Nat} (h4 : checked.length ≤ 1104) (hn : 3 ≤ n) :
    numAt ((framed checked check).take n) 1 2 = checked.length - 4 := by
  have e : (framed checked check).take n = [0x5A] ++ (be 2 (checked.length - 4) ++ (checked ++ be 2 check).take (n - 3)) := by
    obtain ⟨m, rfl⟩ := Nat.exists_eq_add_of_le hn
    have h3 : (0x5A :: be 2 (checked.length - 4)).length = 3 := by simp
    rw [framed, List.append_assoc, ← h3, List.take_length_add_append]
    simp
  rw [e]
  exact numAt_be rfl (by omega)

theorem checked_of_framed : sliceOf (framed checked check) 3 checked.length = checked := by
  rw [framed, List.append_assoc]
  exact slice_at (by simp) rfl

theorem check_of_framed (h4 : 4 ≤ checked.length) (hc : check < 65536) :
    numAt (framed checked check) (7 + (checked.length - 4)) 2 = check := by
  have e : framed checked check = (0x5A :: be 2 (checked.length - 4) ++ checked) ++ (be 2 check ++ []) := by simp [framed]
  rw [e]
  exact numAt_be (by simp; omega) hc

/-- Before its last byte a frame is in hand. -/
theorem rxStep_within_framed {n : Nat} (h4 : 4 ≤ checked.length) (hl : checked.length ≤ 1104) (hn : n + 1 < (framed checked check).length) :
    rxStep ((framed checked check).take n) ((framed checked check)[n]'(by omega)) = ((framed checked check).take (n + 1), none) := by
  have hlen := framed_length (check := check) h4
  have hbytes : (framed checked check).take n ++ [(framed checked check)[n]'(by omega)] = (framed checked check).take (n + 1) :=
    List.take_append_getElem (by omega)
  have hsize : ((framed checked check).take (n + 1)).length = n + 1 := by rw [List.length_take]; omega
  cases n with
  | zero => rfl
  | succ n =>
    have hne : (framed checked check).take (n + 1) ≠ [] := fun e => by rw [List.take_eq_nil_iff] at e; simp [framed] at e
    simp only [rxStep, hbytes, hsize, if_neg hne]
    by_cases h3 : n + 1 + 1 < 3
    · rw [if_pos h3]
    · have hnum := numAt_take_framed (check := check) hl (Nat.not_lt.1 h3)
      rw [if_neg h3, hnum, if_neg (by simp only [Config.bodyLimit]; omega), if_pos (by omega)]

/-- At its last byte a frame is complete: good, or bad with CHECK. -/
theorem rxStep_last_framed (h4 : 4 ≤ checked.length) (hl : checked.length ≤ 1104) (hc : check < 65536)
    {rx : List Byte} {b : Byte} (hb : rx ++ [b] = framed checked check) :
    rxStep rx b = if check = (crc16 checked).toNat then
        ([], some (.request (BitVec.ofNat 8 (numAt (framed checked check) 3 1))
          ⟨BitVec.ofNat 16 (numAt (framed checked check) 4 2), BitVec.ofNat 8 (numAt (framed checked check) 6 1)⟩
          (sliceOf (framed checked check) 7 (checked.length - 4))))
      else ([], some (.bad .check)) := by
  have hnum : numAt (framed checked check) 1 2 = checked.length - 4 := by
    have := numAt_take_framed (check := check) (n := (framed checked check).length) hl (by rw [framed_length h4]; omega)
    rwa [List.take_length] at this
  have hchecked : 4 + (checked.length - 4) = checked.length := by omega
  rw [rxStep_of_length hb hnum (by simp only [Config.bodyLimit]; omega) (framed_length h4), check_of_framed h4 hc, hchecked,
    checked_of_framed]

end

/-- The fields that the receiver reads from a frame are those it was built from. -/
theorem fields_of_frameBytes (k : Byte) (tag : Word16) (st : Byte) (body : List Byte) :
    BitVec.ofNat 8 (numAt (frameBytes k tag st body) 3 1) = k ∧ BitVec.ofNat 16 (numAt (frameBytes k tag st body) 4 2) = tag ∧
      BitVec.ofNat 8 (numAt (frameBytes k tag st body) 6 1) = st ∧ sliceOf (frameBytes k tag st body) 7 body.length = body := by
  have byteAt (a c : List Byte) (x : Byte) (o : Nat) (ho : a.length = o) : BitVec.ofNat 8 (numAt (a ++ ([x] ++ c)) o 1) = x := by
    rw [numAt, slice_at (b := [x]) (l := 1) ho rfl]
    simp [beNat]
  generalize hcrc : be 2 (crc16 (k :: be 2 tag.toNat ++ st :: body)).toNat = crc
  have frame : frameBytes k tag st body = 0x5A :: be 2 body.length ++ (k :: be 2 tag.toNat ++ st :: body) ++ crc := by
    rw [frameBytes, hcrc]
  refine ⟨?_, ?_, ?_, ?_⟩
  · rw [show frameBytes k tag st body = (0x5A :: be 2 body.length) ++ ([k] ++ (be 2 tag.toNat ++ st :: body ++ crc)) by simp [frame]]
    exact byteAt _ _ _ _ (by simp)
  · rw [show frameBytes k tag st body = (0x5A :: be 2 body.length ++ [k]) ++ (be 2 tag.toNat ++ (st :: body ++ crc)) by simp [frame],
      numAt_be (by simp) (word16_toNat_lt tag), BitVec.ofNat_toNat, BitVec.setWidth_eq]
  · rw [show frameBytes k tag st body = (0x5A :: be 2 body.length ++ k :: be 2 tag.toNat) ++ ([st] ++ (body ++ crc)) by simp [frame]]
    exact byteAt _ _ _ _ (by simp)
  · rw [show frameBytes k tag st body = (0x5A :: be 2 body.length ++ k :: be 2 tag.toNat ++ [st]) ++ (body ++ crc) by simp [frame]]
    exact slice_at (by simp) rfl

/-! ### Bytes heard -/

theorem hear_append (s : State) (a b : List Byte) : hear s (a ++ b) = hear (hear s a) b := List.foldl_append

theorem rxByte_of_none {s : State} {b : Byte} {rx : List Byte} (hw : s.waiting = none) (hx : rxStep s.rx b = (rx, none)) :
    rxByte s b = { s with rx := rx } := by
  simp [rxByte, hw, hx]

theorem rxByte_of_some {s : State} {b : Byte} {rx : List Byte} {a : Arrival} (hw : s.waiting = none)
    (hx : rxStep s.rx b = (rx, some a)) : rxByte s b = arrive { s with rx := rx } a := by
  simp [rxByte, hw, hx]

/-- Held off, the receiver hears nothing. -/
theorem hear_of_waiting {s : State} (hw : s.waiting.isSome = true) : ∀ bytes : List Byte, hear s bytes = s
  | [] => rfl
  | b :: bs => by
    show hear (rxByte s b) bs = s
    rw [rxByte, if_pos hw, hear_of_waiting hw bs]

theorem LinkTakes.with_rx {s : State} (ha : LinkTakes s) : { s with rx := [] } = s := by
  obtain ⟨_, _, hx, _⟩ := ha
  rw [← hx]

section
variable {checked : List Byte} {check : Nat} {s : State}

theorem hear_take_framed (h4 : 4 ≤ checked.length) (hl : checked.length ≤ 1104) (ha : LinkTakes s) :
    ∀ n, n < (framed checked check).length →
      hear s ((framed checked check).take n) = { s with rx := (framed checked check).take n }
  | 0, _ => ha.with_rx.symm
  | n + 1, hn => by
    obtain ⟨_, hw, _, _⟩ := id ha
    have hb := rxStep_within_framed h4 hl hn
    rw [← List.take_append_getElem (by omega)] at hb ⊢
    rw [hear_append, hear_take_framed h4 hl ha n (by omega)]
    exact rxByte_of_none hw hb

/-- A frame's bytes are all but its last, and its last. -/
theorem framed_split (h4 : 4 ≤ checked.length) : ∃ b, (framed checked check).take (8 + (checked.length - 4)) ++ [b] = framed checked check := by
  have hlen := framed_length (check := check) h4
  refine ⟨(framed checked check)[8 + (checked.length - 4)]'(by omega), ?_⟩
  rw [List.take_append_getElem (by omega), List.take_of_length_le (by omega)]

/-- A whole frame is what its last byte completes. -/
theorem hear_framed {a : Arrival} (h4 : 4 ≤ checked.length) (hl : checked.length ≤ 1104) (ha : LinkTakes s)
    (hx : ∀ rx b, rx ++ [b] = framed checked check → rxStep rx b = ([], some a)) : hear s (framed checked check) = arrive s a := by
  obtain ⟨b, hb⟩ := framed_split (check := check) h4
  have hlen := framed_length (check := check) h4
  obtain ⟨_, hw, _, _⟩ := id ha
  have key : hear s ((framed checked check).take (8 + (checked.length - 4)) ++ [b]) = arrive s a := by
    rw [hear_append, hear_take_framed h4 hl ha _ (by omega)]
    refine (rxByte_of_some (s := { s with rx := (framed checked check).take (8 + (checked.length - 4)) }) hw (hx _ b hb)).trans ?_
    show arrive { s with rx := [] } a = arrive s a
    rw [ha.with_rx]
  rwa [hb] at key

end

/-! ### Frames of R198 are received good -/

theorem rxStep_last_frameBytes {k : Byte} {tag : Word16} {st : Byte} {body rx : List Byte} {b : Byte} (hl : body.length ≤ 1100)
    (hb : rx ++ [b] = frameBytes k tag st body) : rxStep rx b = ([], some (.request k ⟨tag, st⟩ body)) := by
  obtain ⟨hk, ht, hs, hbody⟩ := fields_of_frameBytes k tag st body
  have hlen : (k :: be 2 tag.toNat ++ st :: body).length = 4 + body.length := by simp; omega
  rw [frameBytes_eq_framed] at hb hk ht hs hbody
  rw [rxStep_last_framed (by omega) (by omega) (BitVec.isLt _) hb, if_pos rfl, hk, ht, hs, hlen, Nat.add_sub_cancel_left, hbody]

theorem holdsBadFrame_drop_framed {checked : List Byte} {check : Nat} (h4 : 4 ≤ checked.length) (hl : checked.length ≤ 1104)
    (hx : ∀ rx b, rx ++ [b] = framed checked check → (rxStep rx b).2.any Arrival.isBad = false) :
    ∀ m n, n + m = (framed checked check).length →
      holdsBadFrame ((framed checked check).take n) ((framed checked check).drop n) = false
  | 0, n, hn => by rw [List.drop_eq_nil_of_le (by omega)]; rfl
  | m + 1, n, hn => by
    have hlt : n < (framed checked check).length := by omega
    rw [List.drop_eq_getElem_cons hlt, holdsBadFrame, Bool.or_eq_false_iff]
    by_cases hm : n + 1 < (framed checked check).length
    · rw [rxStep_within_framed h4 hl hm]
      exact ⟨rfl, holdsBadFrame_drop_framed h4 hl hx m (n + 1) (by omega)⟩
    · refine ⟨hx _ _ ?_, ?_⟩
      · rw [List.take_append_getElem hlt, List.take_of_length_le (by omega)]
      · rw [List.drop_eq_nil_of_le (by omega)]
        rfl

/-- Settles O14. -/
theorem sentFramesAreReceivedGood : Obligations.SentFramesAreReceivedGood := by
  intro k tag st body hl
  have hlen : (k :: be 2 tag.toNat ++ st :: body).length = 4 + body.length := by simp; omega
  have last {rx : List Byte} {b : Byte} (hb : rx ++ [b] = frameBytes k tag st body) := rxStep_last_frameBytes hl hb
  rw [frameBytes_eq_framed] at last ⊢
  refine ⟨?_, fun s ha => ⟨hear_framed (by omega) (by omega) ha fun _ _ => last, hear_take_framed (by omega) (by omega) ha⟩⟩
  exact holdsBadFrame_drop_framed (by omega) (by omega) (fun rx b hb => by rw [last hb]; rfl) _ 0 (Nat.zero_add _)

/-! ### Bad frames and gaps -/

theorem arrive_of_place {s : State} (a : Arrival) (hr : replyCount s < 8) : arrive s a = takeArrival s a := if_neg (Nat.not_le.2 hr)

theorem arrive_of_full {s : State} (a : Arrival) (hr : 8 ≤ replyCount s) : arrive s a = { s with waiting := some a } := if_pos hr

theorem exec_badFrame {s : State} (hp : s.powered = true) (bytes : List Byte) : exec (.badFrame bytes) s = .next (hear s bytes) := by
  show Host.Outcome.next (badFrameOp s bytes) = _
  rw [badFrameOp, if_pos hp]

theorem hear_of_length {s : State} (ha : LinkTakes s) {hi lo : Byte} (h : 1100 < hi.toNat * 256 + lo.toNat) :
    hear s [0x5A, hi, lo] = arrive s (.bad .length) := by
  obtain ⟨_, hw, hx, _⟩ := id ha
  have hlen : numAt [0x5A, hi, lo] 1 2 = hi.toNat * 256 + lo.toNat := by simp [numAt, sliceOf, beNat]
  have h1 : rxByte s 0x5A = { s with rx := [0x5A] } := rxByte_of_none hw (by rw [hx]; rfl)
  have h2 : rxByte { s with rx := [0x5A] } hi = { s with rx := [0x5A, hi] } := rxByte_of_none hw rfl
  have h3 : rxStep [0x5A, hi] lo = ([], some (.bad .length)) := by
    simp only [rxStep, List.cons_append, List.nil_append, hlen, Config.bodyLimit]
    rw [if_neg (List.cons_ne_nil _ _), if_neg (by simp), if_pos h]
  have h4 : rxByte { s with rx := [0x5A, hi] } lo = arrive { s with rx := [] } (.bad .length) :=
    rxByte_of_some (s := { s with rx := [0x5A, hi] }) hw h3
  show rxByte (rxByte (rxByte s 0x5A) hi) lo = _
  rw [h1, h2, h4, ha.with_rx]

/-- A hunt discards every byte but a start byte. -/
theorem hear_hunted {s : State} (ha : LinkTakes s) : ∀ hunted : List Byte, 0x5A ∉ hunted → hear s hunted = s
  | [], _ => rfl
  | b :: bs, hb => by
    obtain ⟨_, hw, hx, _⟩ := id ha
    obtain ⟨hne, hbs⟩ := not_or.1 (fun e => hb (List.mem_cons.2 e))
    have h1 : rxByte s b = { s with rx := [] } := rxByte_of_none hw (by rw [hx, rxStep_of_hunt, if_neg (Ne.symm hne)])
    show hear (rxByte s b) bs = s
    rw [h1, ha.with_rx, hear_hunted ha bs hbs]

theorem badFramesAreRejected : BadFramesAreRejected := by
  intro s ha
  obtain ⟨hp, _, _, hr⟩ := id ha
  have rejected {bytes : List Byte} {why : BadReason} (h : hear s bytes = arrive s (.bad why)) :
      exec (.badFrame bytes) s = .next (pumpLine { s with control := s.control ++ [.linkReject why] }) := by
    rw [exec_badFrame hp, h, arrive_of_place _ hr]
    rfl
  refine ⟨fun hi lo h => rejected (hear_of_length ha h), fun checked check h4 hl hc hne => rejected ?_, fun hunted bytes hh => ?_,
    fun first rest t e => ?_⟩
  · exact hear_framed h4 hl ha fun rx b hb => by rw [rxStep_last_framed h4 hl hc hb, if_neg hne]
  · rw [exec_badFrame hp, exec_badFrame hp, hear_append, hear_hunted ha hunted hh]
  · rw [exec_badFrame hp] at e
    cases e
    have hq : (hear s first).powered = true := (hear_tame (f := True) trivial first s).powered.trans hp
    rw [exec_badFrame hp, exec_badFrame hq, hear_append]

/-- The byte that ends a gap begins a new hunt. -/
theorem rxStep_begins_hunt (next : Byte) : rxStep [] next = (if next = 0x5A then [0x5A] else [], none) := by
  rw [rxStep_of_hunt]
  split
  · next h => rw [h]
  · rfl

theorem gapsAreRejected : GapsAreRejected := by
  intro next s hp hw
  have hop : ¬ (s.powered = false ∨ s.waiting.isSome = true) := by simp [hp, hw]
  have gap (hx : s.rx ≠ []) :
      exec (.interbyteGap next) s = .next (arrive { s with rx := if next = 0x5A then [0x5A] else [] } (.bad .gap)) := by
    show Host.Outcome.next (gapOp s next) = _
    rw [gapOp, if_neg hop, if_neg hx, rxStep_begins_hunt]
  refine ⟨fun hx => ?_, fun hx hr => ?_, fun hx hr => ?_⟩
  · show Host.Outcome.next (gapOp s next) = _
    rw [gapOp, if_neg hop, if_pos hx, rxByte_of_none hw (by rw [hx]; exact rxStep_begins_hunt next)]
  · exact (gap hx).trans (congrArg Host.Outcome.next (arrive_of_place _ hr))
  · exact (gap hx).trans (congrArg Host.Outcome.next (arrive_of_full _ hr))

theorem bytesGoOnWithTheFrameInHand : BytesGoOnWithTheFrameInHand := by
  intro c k h body s hc hp hx
  rw [exec_request hc, exec_badFrame hp, arriveKind, arriveFrame, if_neg hx]
  split
  · next hn =>
    have hw : s.waiting.isSome = true := hn.resolve_left fun e => Bool.noConfusion (hp.symm.trans e)
    rw [hear_of_waiting hw]
  · rfl

/-- Settles O18. -/
theorem badFramesAndGaps : Obligations.BadFramesAndGaps := ⟨badFramesAreRejected, gapsAreRejected, bytesGoOnWithTheFrameInHand⟩

/-! ### The Reply Queue and the line -/

theorem takeWaiting_of_some {s : State} {a : Arrival} (hw : s.waiting = some a) (hr : replyCount s < 8) :
    takeWaiting s = takeArrival { s with waiting := none } a := by
  simp only [takeWaiting, hw]
  exact if_pos hr

theorem fullReplyQueueHoldsTheFrame : FullReplyQueueHoldsTheFrame := by
  refine ⟨fun c k h body s hc hp => ⟨fun hw hx hr => ?_, fun hw => ?_⟩, fun s hp hl hw => ?_, fun s a hp hl hw hr => ?_⟩
  · rw [exec_request hc, arriveKind, arriveFrame, if_neg (by simp [hp, hw]), if_pos hx, arrive_of_full _ hr]
  · rw [exec_request hc, arriveKind, arriveFrame, if_pos (.inr hw)]
  · show Host.Outcome.next (whenPowered s frameSentOp) = _
    rw [whenPowered_eq hp, frameSentOp, if_pos hl, takeWaiting]
    simp only [hw]
  · show Host.Outcome.next (whenPowered s frameSentOp) = _
    rw [whenPowered_eq hp, frameSentOp, if_pos hl, takeWaiting_of_some (s := { s with line := none, control := s.control.tail }) hw hr]

theorem pumpLine_of_busy {s : State} (h : s.heldOff = true ∨ s.line.isSome = true) : pumpLine s = s := by
  rw [pumpLine, if_pos (by rcases h with h | h <;> simp [h])]

section
variable {s : State} (hh : s.heldOff = false) (hl : s.line = none)
include hh hl

theorem pumpLine_of_nothing (hn : nextPageFrame s = none) (hc : s.control = []) : pumpLine s = s := by
  simp [pumpLine, hh, hl, hn, hc]

/-- The free line takes a PAGE frame where no control frame waits, or where the last frame was one. -/
theorem pumpLine_of_page {p : PageFrame} (hn : nextPageFrame s = some p) (h : s.control = [] ∨ s.lastWasControl = true) :
    pumpLine s = linePage s p := by
  cases hc : s.control with
  | nil => simp [pumpLine, hh, hl, hn, hc]
  | cons f fs =>
    have ht : s.lastWasControl = true := h.resolve_left fun e => List.cons_ne_nil f fs (hc.symm.trans e)
    simp [pumpLine, hh, hl, hn, hc, ht]

/-- The free line takes a control frame where no PAGE frame waits, or where the last frame was one. -/
theorem pumpLine_of_control (hc : s.control ≠ []) (h : nextPageFrame s = none ∨ s.lastWasControl = false) :
    pumpLine s = lineControl s := by
  obtain ⟨f, fs, hc⟩ := List.exists_cons_of_ne_nil hc
  cases hn : nextPageFrame s with
  | none => simp [pumpLine, hh, hl, hn, hc]
  | some p =>
    have ht : s.lastWasControl = false := h.resolve_left fun e => Option.some_ne_none p (hn.symm.trans e)
    simp [pumpLine, hh, hl, hn, hc, ht]

end

/-- The line changes only itself, its turn and the round. -/
theorem pumpLine_keeps (s : State) : (pumpLine s).control = s.control ∧ (pumpLine s).ret = s.ret ∧ (pumpLine s).fetches = s.fetches := by
  unfold pumpLine
  split
  · exact ⟨rfl, rfl, rfl⟩
  · split
    · exact ⟨rfl, rfl, rfl⟩
    · split <;> exact ⟨rfl, rfl, rfl⟩
    · exact ⟨rfl, rfl, rfl⟩
    · exact ⟨rfl, rfl, rfl⟩

theorem lineAlternates : LineAlternates := by
  refine ⟨fun s hold hp => ?_, fun s => ⟨pumpLine_of_busy, fun hh hl => ?_, pumpLine_keeps s⟩⟩
  · show Host.Outcome.next (whenPowered s fun s => holdOffOp s hold) = _
    rw [whenPowered_eq hp]
    rfl
  · refine ⟨pumpLine_of_nothing hh hl, fun hn hc => ?_, fun p hn => ⟨fun h => ?_, fun hc h => ?_⟩⟩
    · rw [pumpLine_of_control hh hl hc (.inl hn)]
      rfl
    · rw [pumpLine_of_page hh hl hn h]
      rfl
    · rw [pumpLine_of_control hh hl hc (.inr h)]
      rfl

/-- Settles O19. -/
theorem lineAndReplyQueue : Obligations.LineAndReplyQueue := ⟨fullReplyQueueHoldsTheFrame, lineAlternates⟩

/-! ### PAGE frames (R101) -/

theorem exec_pageFrameSent {s : State} {p : PageFrame} (hp : s.powered = true) (hl : s.line = some (.page p)) :
    exec .pageFrameSent s = .next (settle (pageFrameDone { s with line := none } p)) := by
  show Host.Outcome.next (whenPowered s pageSentOp) = _
  rw [whenPowered_eq hp, pageSentOp, hl]

/-- Settles O21. -/
theorem pageFrameSentAdvancesDelivery : Obligations.PageFrameSentAdvancesDelivery := by
  refine ⟨fun s p f q b hp hl hf hq hm ho hb => ⟨fun hn => ?_, fun hn => ?_⟩,
    fun s p f q hp hl hf hq => ⟨fun hm ho => ?_, fun hm ho => ?_⟩⟩
  all_goals
    have hf' : State.findFetch { s with line := none } p.fetch = some f := hf
    rw [exec_pageFrameSent hp hl, pageFrameDone, hf']
    simp only [hq, hm, ho]
  · simp only [hb, if_pos hn]
  · simp only [hb, if_neg (Nat.not_lt.2 hn)]

end Sys2Proof.Machine
end

section
/-! PROOFS. Bytes written and read back: request bodies, label blocks, document records and staging blocks (R200, R203, R204). -/

namespace Sys2Proof.Machine

/-! ### Request bodies -/

theorem refAt_be (ref : Word32) (c : List Byte) : refAt (be 4 ref.toNat ++ c) 0 = ref := by
  rw [refAt, numAt_be_first c 4 _ (word32_toNat_lt ref), BitVec.ofNat_toNat, BitVec.setWidth_eq]

theorem word16_read (w : Word16) : BitVec.ofNat 16 (numAt (be 2 w.toNat) 0 2) = w := by
  rw [numAt_be_whole 2 _ (word16_toNat_lt w), BitVec.ofNat_toNat, BitVec.setWidth_eq]

/-- Page pairs behind a head of `o` bytes. -/
theorem pairsAt_of_append {head rest b : List Byte} {rs : List (Nat × Nat)} {o : Nat} (hb : b = head ++ (pairBytes rs ++ rest)) (h : head.length = o)
    (hr : ∀ r ∈ rs, r.1 < 256 ∧ r.2 < 256) : pairsAt b o rs.length = rs := by
  rw [hb]
  exact pairsAt_read head rest rs o h hr

theorem parseFetch_bytes {d a b u : Nat} (hd : d < 4294967296) (ha : a < 256) (hb : b < 256) (hu : u < 256) :
    parseFetch (be 4 d ++ be 1 a ++ be 1 b ++ be 1 u) = ⟨d, a, b, u⟩ := by
  simp [parseFetch, numAt_skip_be, numAt_be_first, numAt_be_whole, hd, ha, hb, hu]

theorem parseCopy_bytes {d k n p : Nat} {ss : List (Nat × Nat)} (hd : d < 4294967296) (hk : k < 256) (hn : n < 256) (hp : p < 256)
    (hs : ss.length < 256) (hr : ∀ r ∈ ss, r.1 < 256 ∧ r.2 < 256) :
    parseCopy (be 4 d ++ be 1 k ++ be 1 n ++ be 1 p ++ be 1 ss.length ++ pairBytes ss) = ⟨d, k, n, p, ss⟩ := by
  have pairs := pairsAt_of_append (b := be 4 d ++ be 1 k ++ be 1 n ++ be 1 p ++ be 1 ss.length ++ pairBytes ss)
    (head := be 4 d ++ be 1 k ++ be 1 n ++ be 1 p ++ be 1 ss.length) (rest := []) (o := 8) (by simp) (by simp) hr
  simp only [List.append_assoc] at pairs
  simp [parseCopy, numAt_skip_be, numAt_be_first, hd, hk, hn, hp, hs, pairs]

theorem parseFileBegin_bytes {ref : Word32} {k n t : Nat} {code : Word16} {rs : List (Nat × Nat)} {os : List Nat} (hk : k < 256)
    (hn : n < 65536) (ht : t < 4294967296) (hl : rs.length < 256) (hr : ∀ r ∈ rs, r.1 < 256 ∧ r.2 < 256) (ho : os.length < 256)
    (hof : ∀ o ∈ os, o < 65536) :
    parseFileBegin (be 4 ref.toNat ++ be 1 k ++ be 1 os.length ++ be 2 n ++ be 2 code.toNat ++ be 4 t ++ be 1 rs.length ++
      pairBytes rs ++ os.flatMap (be 2 ·)) = ⟨ref, k, os.length, n, code, t, rs, os⟩ := by
  have pairs := pairsAt_of_append (b := be 4 ref.toNat ++ be 1 k ++ be 1 os.length ++ be 2 n ++ be 2 code.toNat ++ be 4 t ++
      be 1 rs.length ++ pairBytes rs ++ os.flatMap (be 2 ·)) (rest := os.flatMap (be 2 ·)) (o := 15)
    (head := be 4 ref.toNat ++ be 1 k ++ be 1 os.length ++ be 2 n ++ be 2 code.toNat ++ be 4 t ++ be 1 rs.length)
    (by simp) (by simp) hr
  have offsets := flatBe_read (be 4 ref.toNat ++ be 1 k ++ be 1 os.length ++ be 2 n ++ be 2 code.toNat ++ be 4 t ++ be 1 rs.length ++
    pairBytes rs) [] 2 os (15 + 2 * rs.length) (by simp [pairBytes_length]; omega) hof
  simp only [List.append_assoc, List.append_nil] at pairs offsets
  have hc := word16_toNat_lt code
  simp only [Nat.reducePow] at hc
  simp [parseFileBegin, refAt_be, numAt_skip_be, numAt_be_first, hk, hn, ht, hl, ho, hc, pairs, offsets]

theorem requestBodiesReadAsLaidOut : RequestBodiesReadAsLaidOut := by
  refine ⟨fun d a b u => parseFetch_bytes, fun d k n p ss => parseCopy_bytes, fun ref k n t code rs os => parseFileBegin_bytes,
    fun ref q data hq => ?_, fun ref => ?_, fun ref code => ?_, fun st tag hst => ?_⟩
  · simp [parseFileData, refAt_be, numAt_skip_be, numAt_be_first, hq, List.drop_append]
  · simpa using refAt_be ref []
  · simp [parseConsent, refAt_be, numAt_skip_be, word16_read]
  · simp [parseCancel, numAt_skip_be, numAt_be_first, word16_read, hst]

/-! ### The label block -/

theorem faceOf_code (f : Face) : faceOf (faceCode f) = some f := by cases f <;> rfl

theorem markOf_code (m : Mark) : markOf m.code = some m := by cases m <;> rfl

theorem closeReasonOf_code (r : Option CloseReason) : closeReasonOf ((r.map CloseReason.code).getD 0) = r := by
  cases r with
  | none => rfl
  | some r => cases r <;> rfl

theorem label_content_length (l : Label) : l.content.length = 1022 := by simp [Label.content, flag, -List.reduceReplicate]

/-- A block of 1,022 bytes and their check value passes the check. -/
theorem block_checks {content : List Byte} (h : content.length = 1022) :
    (content ++ be 2 (crc16 content).toNat).length = 1024 ∧ (content ++ be 2 (crc16 content).toNat).take 1022 = content ∧
      numAt (content ++ be 2 (crc16 content).toNat) 1022 2 = (crc16 content).toNat := by
  refine ⟨by simp [h], by rw [← h, List.take_left], ?_⟩
  have := numAt_be (a := content) (c := []) h (word16_toNat_lt (crc16 content))
  rwa [List.append_nil] at this

theorem labelBlockRoundTrip : LabelBlockRoundTrip := by
  intro l hs hf hd hl hc
  obtain ⟨hlen, htake, hcrc⟩ := block_checks (label_content_length l)
  have hlast : l.last.getD 0 < 4294967296 := by
    cases h : l.last with
    | none => simp
    | some n => exact hl n h
  have hface : faceCode l.face < 256 := by cases l.face <;> decide
  have hmark : l.mark.code < 256 := by cases l.mark <;> decide
  have hreason : (l.closeReason.map CloseReason.code).getD 0 < 256 := by
    cases l.closeReason with
    | none => decide
    | some r => cases r <;> decide
  have fields : ∀ crc, let b := l.content ++ crc
      numAt b 0 4 = formatWord ∧ numAt b 4 4 = l.serial ∧ numAt b 8 1 = faceCode l.face ∧ numAt b 9 1 = l.mark.code ∧
      numAt b 10 4 = l.firstToBe ∧ numAt b 14 2 = l.openedDay ∧ numAt b 16 1 = (l.closeReason.map CloseReason.code).getD 0 ∧
      numAt b 17 1 = (if l.last.isSome then 1 else 0) ∧ numAt b 18 4 = l.last.getD 0 ∧ numAt b 22 2 = l.count := by
    intro crc
    simp [-List.reduceReplicate, Label.content, formatWord, numAt_skip_be, numAt_be_first, numAt_skip_flag, numAt_flag, hs, hf, hd, hc, hlast, hface, hmark,
      hreason]
  obtain ⟨f0, f4, f8, f9, f10, f14, f16, f17, f18, f22⟩ := fields (be 2 (crc16 l.content).toNat)
  have last : (if (if l.last.isSome then 1 else 0) = 1 then some (l.last.getD 0) else none) = l.last := by cases l.last <;> rfl
  rw [Label.bytes, readLabelBlock, if_pos ⟨hlen, f0, by rw [htake, hcrc]⟩]
  simp only [f4, f8, f9, f10, f14, f16, f17, f18, f22, faceOf_code, markOf_code, closeReasonOf_code, last]

/-! ### The document record -/

theorem head_lt_of_pageShape {os : List Nat} {n : Nat}
    (h : ∀ p ∈ os.zip (os.drop 1 ++ [n]), p.1 < p.2) : ∀ o ∈ os, o < n := by
  induction os with
  | nil => exact fun _ h => absurd h List.not_mem_nil
  | cons a rest ih =>
    cases rest with
    | nil =>
      intro o ho
      rw [List.mem_singleton.1 ho]
      exact h (a, n) (by simp)
    | cons b rest =>
      have ih := ih fun p hp => h p (List.mem_cons_of_mem _ hp)
      have hab : a < b := h (a, b) (by simp)
      intro o ho
      rcases List.mem_cons.1 ho with rfl | ho
      · exact hab.trans (ih b (List.mem_cons_self ..))
      · exact ih o ho

/-- A page's offset lies within the document. -/
theorem offset_lt_of_pageShapeOk {os : List Nat} {n : Nat} (h : pageShapeOk os n = true) : ∀ o ∈ os, o < n := by
  refine head_lt_of_pageShape fun p hp => ?_
  rw [pageShapeOk, Bool.and_eq_true] at h
  exact (of_decide_eq_true (List.all_eq_true.1 h.2 p hp)).1

/-- The ranges of a rectification; none of an original. -/
def DocRecord.ranges (r : DocRecord) : List (Nat × Nat) := (r.rect.map Prod.snd).getD []

/-- What a valid record's fields leave of the widths they are written in. -/
structure DocRecord.Fits (r : DocRecord) : Prop where
  number : r.number < 4294967296
  station : r.station < 256
  day : r.day < 65536
  second : r.second < 4294967296
  pages : 1 ≤ r.pageCount ∧ r.pageCount ≤ 200
  offsets : r.offsets.length = r.pageCount
  offset : ∀ o ∈ r.offsets, o < 65536
  start : r.start < 4294967296
  count : r.count < 65536
  remaps : r.remaps.length ≤ 32
  remap : ∀ e ∈ r.remaps, e.1 < 65536 ∧ e.2 < 65536
  target : (r.rect.map Prod.fst).getD 0 < 4294967296
  ranges : r.ranges.length ≤ 8
  range : ∀ p ∈ r.ranges, p.1 < 256 ∧ p.2 < 256

theorem DocRecord.fits_of_valid {r : DocRecord} (h : r.valid = true) : r.Fits := by
  simp only [DocRecord.valid, Bool.and_eq_true, decide_eq_true_eq, beq_iff_eq, List.all_eq_true, Config.docNumberEnd, Config.secondsPerDay,
    Config.docBlockLimit, Config.dataBlocks, Config.remapLimit, Config.spareBlocks] at h
  obtain ⟨⟨⟨⟨⟨⟨⟨⟨⟨⟨⟨⟨⟨hnum, hday⟩, hsec⟩, hst⟩, hpages⟩, hoff⟩, hcount⟩, hstart⟩, hshape⟩, hremaps⟩, hremap⟩, _⟩, _⟩, hrect⟩ := h
  have rect : (r.rect.map Prod.fst).getD 0 < 4294967296 ∧ r.ranges.length ≤ 8 ∧ ∀ p ∈ r.ranges, p.1 < 256 ∧ p.2 < 256 := by
    unfold DocRecord.ranges
    cases hr : r.rect with
    | none => simp
    | some x =>
      obtain ⟨t, ranges⟩ := x
      simp only [hr, Bool.and_eq_true, decide_eq_true_eq, List.all_eq_true, rangeOk, Config.pageLimit] at hrect
      obtain ⟨⟨ht, hl⟩, hp⟩ := hrect
      refine ⟨by simp only [Option.map_some, Option.getD_some]; omega, hl.2, fun p hm => ?_⟩
      have := hp p hm
      omega
  obtain ⟨htarget, hranges, hrange⟩ := rect
  exact ⟨hnum.2, by omega, by omega, by omega, hpages, hoff, fun o ho => by have := offset_lt_of_pageShapeOk hshape o ho; omega, by omega,
    by omega, hremaps, fun e he => by have := hremap e he; omega, htarget, hranges, hrange⟩

/-- A list of pairs of two-byte numbers reads back. -/
theorem remaps_read (a c : List Byte) (l : List (Nat × Nat)) (hl : ∀ e ∈ l, e.1 < 65536 ∧ e.2 < 65536) :
    ((List.range l.length).map fun i => (numAt (a ++ ((l.flatMap fun e => be 2 e.1 ++ be 2 e.2) ++ c)) (a.length + 4 * i) 2,
      numAt (a ++ ((l.flatMap fun e => be 2 e.1 ++ be 2 e.2) ++ c)) (a.length + 2 + 4 * i) 2)) = l := by
  induction l generalizing a with
  | nil => rfl
  | cons e l ih =>
    obtain ⟨h1, h2⟩ := hl e (List.mem_cons_self ..)
    have ih := ih (a ++ (be 2 e.1 ++ be 2 e.2)) fun x hx => hl x (List.mem_cons_of_mem _ hx)
    have hlen : (a ++ (be 2 e.1 ++ be 2 e.2)).length = a.length + 4 := by simp
    have split : a ++ (((e :: l).flatMap fun e => be 2 e.1 ++ be 2 e.2) ++ c) =
        (a ++ (be 2 e.1 ++ be 2 e.2)) ++ ((l.flatMap fun e => be 2 e.1 ++ be 2 e.2) ++ c) := by simp
    rw [List.length_cons, List.range_succ_eq_map, List.map_cons, List.map_map]
    refine List.cons_eq_cons.2 ⟨Prod.ext ?_ ?_, ?_⟩
    · rw [List.flatMap_cons, List.append_assoc, List.append_assoc]
      exact numAt_be rfl h1
    · rw [List.flatMap_cons, List.append_assoc, List.append_assoc, ← List.append_assoc a]
      exact numAt_be (by simp) h2
    · rw [split]
      refine (List.map_congr_left fun i _ => ?_).trans ih
      simp only [Function.comp, hlen, Nat.succ_eq_add_one, Nat.mul_add, Nat.mul_one]
      congr 2 <;> omega

/-- Pairs of two-byte numbers behind a head of `o` bytes. -/
theorem remaps_of_append {b head rest : List Byte} {l : List (Nat × Nat)} {o q : Nat}
    (hb : b = head ++ ((l.flatMap fun e => be 2 e.1 ++ be 2 e.2) ++ rest)) (ho : head.length = o) (hq : o + 2 = q)
    (hl : ∀ e ∈ l, e.1 < 65536 ∧ e.2 < 65536) :
    ((List.range l.length).map fun i => (numAt b (o + 4 * i) 2, numAt b (q + 4 * i) 2)) = l := by
  subst hb ho hq
  exact remaps_read head rest l hl

/-- Two-byte numbers behind a head of `o` bytes. -/
theorem numbers_of_append {b head rest : List Byte} {l : List Nat} {o : Nat} (hb : b = head ++ (l.flatMap (be 2 ·) ++ rest))
    (ho : head.length = o) (hl : ∀ x ∈ l, x < 65536) : ((List.range l.length).map fun i => numAt b (o + 2 * i) 2) = l := by
  rw [hb]
  exact flatBe_read head rest 2 l o ho hl

/-- The bytes of a record's content, each group named. -/
theorem DocRecord.content_eq (r : DocRecord) : r.content =
    be 4 r.number ++ (be 1 (if r.rect.isSome then 2 else 1) ++ (be 1 r.station ++ (be 2 r.day ++ (be 4 r.second ++ (be 4 r.ref.toNat ++
      (be 1 r.pageCount ++ (be 1 r.ranges.length ++ (be 1 r.remaps.length ++ (be 1 0 ++ (be 4 r.start ++ (be 2 r.count ++
        (be 4 ((r.rect.map Prod.fst).getD 0) ++ (padTo 16 (pairBytes r.ranges) ++
          (padTo 128 (r.remaps.flatMap fun e => be 2 e.1 ++ be 2 e.2) ++
            (padTo 400 (r.offsets.flatMap (be 2 ·)) ++ List.replicate 448 0))))))))))))))) := by
  simp only [DocRecord.content, List.append_assoc]
  rfl

section
variable {r : DocRecord} (hf : r.Fits)
include hf

theorem docRecord_pads : (padTo 16 (pairBytes r.ranges)).length = 16 ∧
    (padTo 128 (r.remaps.flatMap fun e => be 2 e.1 ++ be 2 e.2)).length = 128 ∧ (padTo 400 (r.offsets.flatMap (be 2 ·))).length = 400 := by
  obtain ⟨_, hp⟩ := hf.pages
  refine ⟨padTo_len _ _ ?_, padTo_len _ _ ?_, padTo_len _ _ ?_⟩
  · rw [pairBytes_length]; have := hf.ranges; omega
  · rw [remapBytes_length]; have := hf.remaps; omega
  · rw [flatBe_length, hf.offsets]; omega

theorem docRecord_content_length : r.content.length = 1022 := by
  obtain ⟨h1, h2, h3⟩ := docRecord_pads hf
  rw [DocRecord.content_eq]
  simp [-List.reduceReplicate, h1, h2, h3]

theorem docRecord_numbers (crc : List Byte) : let b := r.content ++ crc
    numAt b 0 4 = r.number ∧ numAt b 4 1 = (if r.rect.isSome then 2 else 1) ∧ numAt b 5 1 = r.station ∧ numAt b 6 2 = r.day ∧
      numAt b 8 4 = r.second ∧ numAt b 12 4 = r.ref.toNat ∧ numAt b 16 1 = r.pageCount ∧ numAt b 17 1 = r.ranges.length ∧
      numAt b 18 1 = r.remaps.length ∧ numAt b 20 4 = r.start ∧ numAt b 24 2 = r.count ∧
      numAt b 26 4 = (r.rect.map Prod.fst).getD 0 := by
  have hk : (if r.rect.isSome then 2 else 1) < 256 := by split <;> decide
  have hp : r.pageCount < 256 := by have := hf.pages; omega
  have hr : r.ranges.length < 256 := by have := hf.ranges; omega
  have hm : r.remaps.length < 256 := by have := hf.remaps; omega
  have href := word32_toNat_lt r.ref
  simp only [Nat.reducePow] at href
  rw [DocRecord.content_eq]
  simp [-List.reduceReplicate, numAt_skip_be, numAt_be_first, hf.number, hf.station, hf.day, hf.second, hf.start, hf.count, hf.target, hk, hp,
    hr, hm, href]

/-- The bytes before the ranges of a record. -/
def DocRecord.head (r : DocRecord) : List Byte :=
  be 4 r.number ++ be 1 (if r.rect.isSome then 2 else 1) ++ be 1 r.station ++ be 2 r.day ++ be 4 r.second ++ be 4 r.ref.toNat ++
    be 1 r.pageCount ++ be 1 r.ranges.length ++ be 1 r.remaps.length ++ be 1 0 ++ be 4 r.start ++ be 2 r.count ++
    be 4 ((r.rect.map Prod.fst).getD 0)

theorem docRecord_lists (crc : List Byte) : let b := r.content ++ crc
    pairsAt b 30 r.ranges.length = r.ranges ∧
      ((List.range r.remaps.length).map fun i => (numAt b (46 + 4 * i) 2, numAt b (48 + 4 * i) 2)) = r.remaps ∧
      ((List.range r.pageCount).map fun i => numAt b (174 + 2 * i) 2) = r.offsets := by
  obtain ⟨h1, h2, _⟩ := docRecord_pads hf
  have hhead : r.head.length = 30 := by simp [DocRecord.head]
  have content : r.content ++ crc = r.head ++ (padTo 16 (pairBytes r.ranges) ++
      (padTo 128 (r.remaps.flatMap fun e => be 2 e.1 ++ be 2 e.2) ++
        (padTo 400 (r.offsets.flatMap (be 2 ·)) ++ (List.replicate 448 0 ++ crc)))) := by
    simp only [DocRecord.content_eq, DocRecord.head, List.append_assoc]
  dsimp only
  rw [content]
  refine ⟨?_, ?_, ?_⟩
  · exact pairsAt_of_append (by rw [padTo, List.append_assoc]) hhead hf.range
  · exact remaps_of_append (head := r.head ++ padTo 16 (pairBytes r.ranges)) (by simp only [padTo, List.append_assoc]; rfl)
      (by rw [List.length_append, hhead, h1]) rfl hf.remap
  · rw [← hf.offsets]
    exact numbers_of_append (head := r.head ++ padTo 16 (pairBytes r.ranges) ++ padTo 128 (r.remaps.flatMap fun e => be 2 e.1 ++ be 2 e.2))
      (by simp only [padTo, List.append_assoc]; rfl) (by rw [List.length_append, List.length_append, hhead, h1, h2]) hf.offset

end

theorem documentRecordRoundTrip : DocumentRecordRoundTrip := by
  intro r hv
  have hf := DocRecord.fits_of_valid hv
  obtain ⟨hlen, htake, hcrc⟩ := block_checks (docRecord_content_length hf)
  obtain ⟨h0, h4, h5, h6, h8, h12, h16, h17, h18, h20, h24, h26⟩ := docRecord_numbers hf (be 2 (crc16 r.content).toNat)
  obtain ⟨hranges, hremaps, hoffsets⟩ := docRecord_lists hf (be 2 (crc16 r.content).toNat)
  have href : BitVec.ofNat 32 r.ref.toNat = r.ref := by rw [BitVec.ofNat_toNat, BitVec.setWidth_eq]
  have kind : (if r.rect.isSome then 2 else 1) = 1 ∧ r.ranges.length = 0 ∧ (r.rect.map Prod.fst).getD 0 = 0 ∨
      (if r.rect.isSome then 2 else 1) = 2 := by
    unfold DocRecord.ranges
    cases r.rect with
    | none => exact .inl ⟨rfl, rfl, rfl⟩
    | some x => exact .inr rfl
  have rect : (if (if r.rect.isSome then 2 else 1) = 2 then some ((r.rect.map Prod.fst).getD 0, r.ranges) else none) = r.rect := by
    unfold DocRecord.ranges
    cases r.rect <;> rfl
  rw [DocRecord.bytes, readSlotBlock]
  simp only [h0, h4, h5, h6, h8, h12, h16, h17, h18, h20, h24, h26, hranges, hremaps, hoffsets, href, rect, htake, hcrc, hlen]
  rw [if_pos ⟨trivial, trivial, hf.ranges, hf.remaps, hf.pages.1, hf.pages.2, kind⟩]
  exact if_pos hv

/-- Settles O15. -/
theorem layoutsRoundTrip : Obligations.LayoutsRoundTrip :=
  ⟨requestBodiesReadAsLaidOut, labelBlockRoundTrip, documentRecordRoundTrip⟩

/-! ### Staging -/

/-- Settles O16. -/
theorem stagingBlockReadsBack : Obligations.StagingBlockReadsBack := by
  intro s b bytes hw hl
  refine ⟨List.ext_getElem (by simp [readBlock, hl, Config.blockBytes]) fun i h1 h2 => ?_, fun c hc => List.map_congr_left fun i hi => ?_⟩
  · have hi : i < 1024 := hl ▸ h2
    simp only [readBlock, List.getElem_map, List.getElem_range, writeBlock]
    rw [memRead_memWriteAll _ _ _ _ hw, dif_pos (by simp [Config.blockBytes, hl]; omega)]
    simp [Config.blockBytes]
  · have hi : i < 1024 := List.mem_range.1 hi
    refine memRead_writeBlock_outside s b _ bytes hw ?_
    simp only [Config.blockBytes]
    omega

end Sys2Proof.Machine
end

section
/-! PROOFS. Requests on cartridges, sides, slots, drives and the picker (R11, R18, R22, R29, R39, R44, R46, R61, R62). -/

namespace Sys2Proof.Machine

/-! ### Slots -/

theorem slotOk_iff (n : Nat) : slotOk n = true ↔ 1 ≤ n ∧ n ≤ 120 := decide_eq_true_iff

theorem slotOk_eq_false {n : Nat} (h : n = 0 ∨ 120 < n) : slotOk n = false :=
  Bool.eq_false_iff.2 fun e => by have := (slotOk_iff n).1 e; omega

theorem slotOp_outside {s : State} {n : Nat} {x : Answer} (h : n = 0 ∨ 120 < n) :
    (if (!slotOk n) = true then refuse s .badField [] else x) = refuse s .badField [] :=
  if_pos (by rw [slotOk_eq_false h]; rfl)

theorem slotOp_inside {s : State} {n : Nat} {x : Answer} (h1 : 1 ≤ n) (h2 : n ≤ 120) :
    (if (!slotOk n) = true then refuse s .badField [] else x) = x :=
  if_neg (by simp [(slotOk_iff n).2 ⟨h1, h2⟩])

/-- The test of SLOT_DISABLE: an empty slot, marked already or the home of no record. -/
theorem disable_test (s : State) (n : Nat) :
    ((s.slot n).disabled && (s.slot n).occ == .empty || (s.slot n).occ == .empty && (homeOf s n).isNone) = true ↔
      (s.slot n).occ = .empty ∧ ((s.slot n).disabled = true ∨ homeOf s n = none) := by
  simp only [Bool.or_eq_true, Bool.and_eq_true, beq_iff_eq, Option.isNone_iff_eq_none]
  tauto

theorem slotRequestsSetTheMark : SlotRequestsSetTheMark := by
  intro s h b n x
  refine ⟨fun ha => ⟨fun hn => exec_settles_refuse ha rfl rfl (slotOp_outside hn), fun h1 h2 => ⟨fun ho hf => ?_, fun hn => ?_⟩⟩,
    fun ha => ⟨fun hn => exec_settles_refuse ha rfl rfl (slotOp_outside hn),
      fun h1 h2 => exec_settles_done ha rfl rfl (slotOp_inside h1 h2)⟩⟩
  · refine exec_settles_done ha rfl rfl ((slotOp_inside h1 h2).trans ?_)
    have ho : (s.slot (numAt b 0 1)).occ = .empty := ho
    have marked : (⟨(s.slot (numAt b 0 1)).occ, true⟩ : Slot) = ⟨.empty, true⟩ := by rw [ho]
    rw [if_pos ((disable_test s n).2 ⟨ho, hf⟩)]
    show done s (s.setSlot (numAt b 0 1) ⟨(s.slot (numAt b 0 1)).occ, true⟩)
      (slotFields (s.setSlot (numAt b 0 1) ⟨(s.slot (numAt b 0 1)).occ, true⟩) (numAt b 0 1)) = _
    rw [marked]
    rfl
  · refine exec_settles_refuse ha rfl rfl ((slotOp_inside h1 h2).trans (if_neg fun e => ?_))
    obtain ⟨he, hd⟩ := (disable_test s n).1 e
    rcases hn with hn | ⟨hn, hm⟩
    · exact hn he
    · rcases hd with hd | hd
      · exact Bool.noConfusion (hn.symm.trans hd)
      · exact hm hd

/-! ### Cartridges -/

theorem forgetFreesTheRecord : ForgetFreesTheRecord := by
  intro s h b ha r
  refine ⟨fun hr => exec_settles_refuse ha rfl rfl ?_, fun c hc => ⟨fun hw => exec_settles_refuse ha rfl rfl ?_, fun hw =>
    ⟨fun hn => exec_settles_refuse ha rfl rfl ?_, fun h1 h2 => exec_settles_done ha rfl rfl ?_⟩⟩⟩
  all_goals simp only [dispatch, forgetOp]
  · rw [show recordOfLabel s (numAt b 0 4) = none from hr]
  · rw [show recordOfLabel s (numAt b 0 4) = some c from hc]
    simp only [hw, Bool.not_false, if_true]
  · rw [show recordOfLabel s (numAt b 0 4) = some c from hc]
    simp only [hw, Bool.not_true, Bool.false_eq_true, if_false]
    exact if_pos hn
  · rw [show recordOfLabel s (numAt b 0 4) = some c from hc]
    simp only [hw, Bool.not_true, Bool.false_eq_true, if_false]
    exact if_neg (by simp [sideOf, h1, h2])

theorem exportBeginsAnExport : ExportBeginsAnExport := by
  intro s h b ha r
  refine ⟨fun hm => exec_settles_refuse ha rfl rfl (if_pos hm), fun hm => ⟨fun hr => exec_settles_refuse ha rfl rfl ?_, fun c hc =>
    ⟨fun hl => exec_settles_refuse ha rfl rfl ?_, fun hl hk => exec_settles_refuse ha rfl rfl ?_, fun hl hk =>
      ⟨fun hb => exec_settles_refuse ha rfl rfl ?_, fun hb => exec_settles_accepted ha rfl rfl ?_⟩⟩⟩⟩
  all_goals refine (if_neg hm).trans ?_
  · rw [show recordOfLabel s (numAt b 0 4) = none from hr]
  all_goals rw [show recordOfLabel s (numAt b 0 4) = some c from hc]
  · simp only [hl, Bool.not_false, if_true]
  · simp only [hl, hk, Bool.not_true, Bool.false_eq_true, if_false, if_true]
  · simp only [hl, hk, hb, Bool.not_true, Bool.false_eq_true, if_false, if_true]
  · simp only [hl, hk, hb, Bool.not_true, Bool.false_eq_true, if_false]
    rfl

/-! ### Sides -/

theorem closeSideUpdate_of_opened {s : State} {n : Nat} (h : (s.side n).state = .opened) (why : CloseReason) :
    closeSideUpdate s n why = s.setSide n { s.side n with state := .closed, closeReason := some why, closedPending := true } := if_pos h

/-- A filing writes on the open side. -/
theorem writing_any (s : State) : (s.filings.any fun f => f.state == .writing || f.state == .committing) = true ↔
    ∃ f ∈ s.filings, f.state = .writing ∨ f.state = .committing := by simp

theorem closeSideClosesTheOpenSide : CloseSideClosesTheOpenSide := by
  intro s h b ha n e
  refine ⟨fun hn => exec_settles_refuse ha rfl rfl (if_pos ?_), fun h1 h2 => ?_⟩
  · have hn : numAt b 0 2 = 0 ∨ 320 < numAt b 0 2 := hn
    simp only [Config.sideCount]
    omega
  have inside : ¬ ¬ (1 ≤ n ∧ n ≤ Config.sideCount) := not_not.2 ⟨h1, h2⟩
  refine ⟨fun hs => exec_settles_refuse ha rfl rfl ((if_neg inside).trans (if_pos hs)), fun hs hf =>
    exec_settles_refuse ha rfl rfl ((if_neg inside).trans ((if_neg (not_not.2 hs)).trans (if_pos ((writing_any s).2 hf)))), fun hs hf =>
    exec_settles_done ha rfl rfl ((if_neg inside).trans ((if_neg (not_not.2 hs)).trans ((if_neg ?_).trans ?_)))⟩
  · intro hw
    obtain ⟨f, hm, hst⟩ := (writing_any s).1 hw
    exact hst.elim (hf f hm).1 (hf f hm).2
  · rw [closeSideAs, closeSideUpdate_of_opened hs]

/-- No closed mark is being written on the side: none is abandoned. -/
theorem abandonMark_eq_self {s : State} {n : Nat} (h : ∀ d l p, (s.drive d).task ≠ .writeLabel (.closing n) l p) : abandonMark s n = s := by
  have none_closing : ∀ d, closingOn (s.drive d) n = false := fun d => by
    unfold closingOn
    split
    · next k l p e => exact beq_false_of_ne fun hk => h d l p (hk ▸ e)
    · rfl
  have : (findDrive fun d => closingOn (s.drive d) n && s.bay.queue.any fun e => e.module == driveAddr d && e.cmd.isBlockOp) = none := by
    simp [findDrive, none_closing]
  simp only [abandonMark, this]

/-- No item works on the side: none ends. -/
theorem endFaultyWork_eq_self {s : State} {n : Nat} (h : ∀ i ∈ s.work, i.side ≠ some n) (wasBlank : Bool) : endFaultyWork s n wasBlank = s := by
  have none : (s.work.filter fun i => i.side == some n && !i.ended) = [] :=
    List.filter_eq_nil_iff.2 fun i hi => by simp [h i hi]
  simp only [endFaultyWork, endSideWork, none, List.foldl_nil]

theorem markFaultySetsTheSide : MarkFaultySetsTheSide := by
  intro s h b ha n e
  refine ⟨fun hn => exec_settles_refuse ha rfl rfl (if_pos ?_), fun h1 h2 hs => ?_⟩
  · rcases hn with hn | hn | hn
    · exact .inl fun hr => by have := hr.1; omega
    · exact .inl fun hr => Nat.not_le.2 hn hr.2
    · exact .inr hn
  have inside : ¬ (¬ (1 ≤ n ∧ n ≤ Config.sideCount) ∨ sideAssigned s n = false) := by
    rintro (hn | hn)
    · exact hn ⟨h1, h2⟩
    · exact Bool.noConfusion (hs.symm.trans hn)
  refine ⟨fun ho => exec_settles_refuse ha rfl rfl ((if_neg inside).trans (if_pos ho)), fun hf =>
    exec_settles_done ha rfl rfl ((if_neg inside).trans ((if_neg ?_).trans (if_pos hf))), fun hb =>
    ⟨exec_settles_done ha rfl rfl ((if_neg inside).trans ((if_neg ?_).trans (if_neg ?_))), fun hd =>
      ⟨abandonMark_eq_self hd, fun hw => endFaultyWork_eq_self (s := s.setSide n _) hw _⟩⟩⟩
  · intro ho
    exact absurd ((show (s.side n).state = .opened from ho).symm.trans hf) nofun
  · intro ho
    have ho : (s.side n).state = .opened := ho
    rcases hb with hb | hb <;> exact absurd (ho.symm.trans hb) nofun
  · intro ho
    have ho : (s.side n).state = .faulty := ho
    rcases hb with hb | hb <;> exact absurd (ho.symm.trans hb) nofun

/-- Settles O32. -/
theorem cartridgeAndSideRequests : Obligations.CartridgeAndSideRequests :=
  ⟨forgetFreesTheRecord, exportBeginsAnExport, closeSideClosesTheOpenSide, markFaultySetsTheSide⟩

/-! ### Drives and the picker -/

theorem driveServiceOp_outside {s : State} {b : List Byte} (h : numAt b 0 1 = 0 ∨ 4 < numAt b 0 1) :
    driveServiceOp s b = refuse s .badField [] := if_pos (by omega)

theorem driveServiceOp_out {s : State} {b : List Byte} (h1 : 1 ≤ numAt b 0 1) (h2 : numAt b 0 1 ≤ 4) (hb : numAt b 1 1 = 1) :
    driveServiceOp s b = driveServiceOut s (numAt b 0 1) := (if_neg (by omega)).trans (if_pos hb)

theorem driveServiceOp_in {s : State} {b : List Byte} (h1 : 1 ≤ numAt b 0 1) (h2 : numAt b 0 1 ≤ 4) (hb : numAt b 1 1 = 2) :
    driveServiceOp s b = driveServiceIn s (numAt b 0 1) := (if_neg (by omega)).trans (if_neg (by omega))

theorem driveServiceOutByState : DriveServiceOutByState := by
  intro s h b ha hb d x run out
  refine ⟨fun hd => exec_settles_refuse ha rfl rfl (driveServiceOp_outside hd), fun h1 h2 => ⟨fun hx => ?_, fun hx =>
    ⟨fun he => ?_, fun hf ho => ?_, fun hf ho => ?_, fun hr => ?_⟩⟩, fun hn => ?_⟩
  · exact exec_settles_done ha rfl rfl ((driveServiceOp_out h1 h2 hb).trans (if_pos hx))
  · refine exec_settles_done ha rfl rfl ((driveServiceOp_out h1 h2 hb).trans ((if_neg (not_not.2 hx)).trans ?_))
    rw [show (s.drive (numAt b 0 1)).state = .empty from he]
  · refine exec_settles_done ha rfl rfl ((driveServiceOp_out h1 h2 hb).trans ((if_neg (not_not.2 hx)).trans ?_))
    rw [show (s.drive (numAt b 0 1)).state = .faulted from hf]
    exact if_pos ho
  · refine exec_settles_refuse ha rfl rfl ((driveServiceOp_out h1 h2 hb).trans ((if_neg (not_not.2 hx)).trans ?_))
    rw [show (s.drive (numAt b 0 1)).state = .faulted from hf]
    exact if_neg ho
  · refine exec_settles_accepted ha rfl rfl ((driveServiceOp_out h1 h2 hb).trans ((if_neg (not_not.2 hx)).trans ?_))
    rcases hr with hr | hr | hr | hr | hr <;> rw [show (s.drive (numAt b 0 1)).state = _ from hr]
  · rw [returnAssigned, hn]

theorem driveServiceInByState : DriveServiceInByState := by
  intro s h b ha hb d x run
  refine ⟨fun hd => exec_settles_refuse ha rfl rfl (driveServiceOp_outside hd), fun h1 h2 => ⟨fun hx => ?_, fun hx =>
    ⟨fun hs => ?_, fun h3 h4 => ?_⟩⟩⟩
  · exact exec_settles_refuse ha rfl rfl ((driveServiceOp_in h1 h2 hb).trans (if_pos hx))
  · exact exec_settles_accepted ha rfl rfl ((driveServiceOp_in h1 h2 hb).trans ((if_neg hx).trans (if_pos hs)))
  · exact exec_settles_done ha rfl rfl ((driveServiceOp_in h1 h2 hb).trans ((if_neg hx).trans (if_neg (not_or.2 ⟨h3, h4⟩))))

theorem pickerResetParksThePicker : PickerResetParksThePicker := by
  refine fun s h b ha => ⟨fun hn => exec_settles_refuse ha rfl rfl (if_pos (Option.isSome_iff_ne_none.2 hn)),
    fun hn => exec_settles_accepted ha rfl rfl (if_neg ?_)⟩
  rw [hn]
  nofun

/-- Settles O33. -/
theorem driveSlotAndPickerRequests : Obligations.DriveSlotAndPickerRequests :=
  ⟨driveServiceOutByState, driveServiceInByState, slotRequestsSetTheMark, pickerResetParksThePicker⟩

end Sys2Proof.Machine
end

section
/-! PROOFS. Modes, RESTART, power and time (R133, R179, R180, R182, R184 to R189). -/

namespace Sys2Proof.Machine

/-! ### REST, NIGHT and WAKE -/

/-- A drive spins or works. -/
def spinning (s : State) : Prop := ∃ d ∈ s.drives, d.state = .active ∨ d.state = .spinningUp

theorem spinning_iff (s : State) : (s.drives.any fun d => d.state == .active || d.state == .spinningUp) = true ↔ spinning s := by
  simp [spinning]

theorem allTransfers_ne_nil (s : State) : allTransfers s ≠ [] ↔ s.picker.queue ≠ [] ∨ s.picker.deferred ≠ [] := by
  rw [allTransfers, ne_eq, List.append_eq_nil_iff, not_and_or]

theorem restBlocked_places (s : State) :
    (s.work ≠ [] → restBlocked s = 1) ∧
    (s.work = [] → s.filings ≠ [] → restBlocked s = 2) ∧
    (s.work = [] → s.filings = [] → spinning s → restBlocked s = 3) ∧
    (s.work = [] → s.filings = [] → ¬ spinning s → s.picker.queue ≠ [] ∨ s.picker.deferred ≠ [] → restBlocked s = 4) ∧
    (s.work = [] → s.filings = [] → ¬ spinning s → s.picker.queue = [] → s.picker.deferred = [] → s.picker.state ≠ .idle →
      s.picker.state ≠ .parked → restBlocked s = 5) := by
  rw [restBlocked]
  refine ⟨fun h => if_pos h, fun h1 h2 => ?_, fun h1 h2 h3 => ?_, fun h1 h2 h3 h4 => ?_, fun h1 h2 h3 h4 h5 h6 h7 => ?_⟩
  · rw [if_neg (not_not.2 h1), if_pos h2]
  · rw [if_neg (not_not.2 h1), if_neg (not_not.2 h2), if_pos ((spinning_iff s).2 h3)]
  · rw [if_neg (not_not.2 h1), if_neg (not_not.2 h2), if_neg fun e => h3 ((spinning_iff s).1 e), if_pos ((allTransfers_ne_nil s).2 h4)]
  · have none : ¬ allTransfers s ≠ [] := fun e => ((allTransfers_ne_nil s).1 e).elim (fun e => e h4) fun e => e h5
    rw [if_neg (not_not.2 h1), if_neg (not_not.2 h2), if_neg fun e => h3 ((spinning_iff s).1 e), if_neg none, if_pos ⟨h6, h7⟩]

theorem restBlocked_eq_zero_iff (s : State) : restBlocked s = 0 ↔ s.work = [] ∧ s.filings = [] ∧
    (∀ d ∈ s.drives, d.state ≠ .active ∧ d.state ≠ .spinningUp) ∧ s.picker.queue = [] ∧ s.picker.deferred = [] ∧
    (s.picker.state = .idle ∨ s.picker.state = .parked) := by
  have still : ¬ spinning s ↔ ∀ d ∈ s.drives, d.state ≠ .active ∧ d.state ≠ .spinningUp := by simp [spinning]
  rw [← still]
  obtain ⟨p1, p2, p3, p4, p5⟩ := restBlocked_places s
  constructor
  · intro h
    have other (n : Nat) (hn : n ≠ 0) (e : restBlocked s = n) : False := hn (e.symm.trans h)
    have h1 : s.work = [] := by_contra fun e => other 1 nofun (p1 e)
    have h2 : s.filings = [] := by_contra fun e => other 2 nofun (p2 h1 e)
    have h3 : ¬ spinning s := fun e => other 3 nofun (p3 h1 h2 e)
    have h4 : ¬ (s.picker.queue ≠ [] ∨ s.picker.deferred ≠ []) := fun e => other 4 nofun (p4 h1 h2 h3 e)
    obtain ⟨hq, hd⟩ := not_or.1 h4
    refine ⟨h1, h2, h3, not_not.1 hq, not_not.1 hd, by_contra fun e => ?_⟩
    obtain ⟨hi, hp⟩ := not_or.1 e
    exact other 5 nofun (p5 h1 h2 h3 (not_not.1 hq) (not_not.1 hd) hi hp)
  · rintro ⟨h1, h2, h3, hq, hd, hs⟩
    have none : ¬ allTransfers s ≠ [] := fun e => ((allTransfers_ne_nil s).1 e).elim (fun e => e hq) fun e => e hd
    rw [restBlocked, if_neg (not_not.2 h1), if_neg (not_not.2 h2), if_neg fun e => h3 ((spinning_iff s).1 e), if_neg none,
      if_neg fun e => hs.elim e.1 e.2]

theorem nightBlocked_eq_zero_iff (s : State) : nightBlocked s = 0 ↔
    restBlocked s = 0 ∧ s.ret.dayOpen = false ∧ ∀ f ∈ s.filings, f.state ≠ .awaitingConsent := by
  have waits : (s.filings.any fun f => f.state == .awaitingConsent) = true ↔ ¬ ∀ f ∈ s.filings, f.state ≠ .awaitingConsent := by simp
  rw [nightBlocked]
  constructor
  · intro h
    split_ifs at h with h1 h2 h3
    · exact absurd h h1
    · exact ⟨not_not.1 h1, Bool.eq_false_iff.2 h2, not_not.1 fun e => h3 (waits.2 e)⟩
  · rintro ⟨h1, h2, h3⟩
    rw [if_neg (not_not.2 h1), if_neg (ne_true_of_eq_false h2), if_neg fun e => waits.1 e h3]

theorem requestTransfer_of_room {s : State} (hd : s.picker.deferred = []) (hq : s.picker.queue.length < Config.transferCapacity)
    (kind : XferKind) (cart : Option Nat) (src : Place) (dst : Option Place) (face : Face) (item : Option Nat)
    (report : Option RejectReason) (first : Bool) :
    requestTransfer s kind cart src dst face item report first =
      { s with
        picker := { s.picker with queue := s.picker.queue ++ [⟨s.nextId, kind, cart, src, dst, face, item, report, first⟩] }
        nextId := s.nextId + 1 } := by
  simp only [requestTransfer, freshId, State.modPicker, hd, and_true, if_pos hq]

/-- The way home of what a drive holds. -/
def wayHome (s : State) (d : Nat) (occ : Occupant) : Option (XferKind × Option Nat × Place × Option Place) :=
  match occ with
  | .empty => none
  | .record c => ((s.cart c).bind Cart.home).map fun h => (.ret, some c, .drive d, some (.slot h))
  | .unrecorded => some (.reject, none, .drive d, none)

/-- What NIGHT asks for the cartridge of a drive. -/
def homeRequest (s : State) (d : Nat) : Option (XferKind × Option Nat × Place × Option Place) :=
  if (s.drive d).state = .faulted ∨ (s.drive d).state = .outOfService then none else wayHome s d (s.drive d).occ

def Transfer.signature (x : Transfer) : XferKind × Option Nat × Place × Option Place := (x.kind, x.cart, x.src, x.dst)

/-- `asked` transfers have been queued on an empty queue. -/
def State.asking (s : State) (asked : List Transfer) : State :=
  { s with picker := { s.picker with queue := asked }, nextId := s.nextId + asked.length }

/-- What NIGHT does for one drive. -/
def nightStep (s : State) (d : Nat) : State :=
  if (s.drive d).state = .faulted ∨ (s.drive d).state = .outOfService ∨ transferFrom s d then s
  else requestHome s (s.drive d).occ (.drive d) none false

theorem nightRelease_eq (s : State) : nightRelease s = drives4.foldl nightStep s := rfl

/-- A transfer out of another drive, its source fixed. -/
def Transfer.from_other (x : Transfer) (d : Nat) : Prop := x.kind ≠ .exportPut ∧ x.src ≠ .drive d

theorem xferSource_of_kind {s : State} {x : Transfer} (h : x.kind ≠ .exportPut) : xferSource s x = x.src := by
  unfold xferSource
  split
  · next hk _ => exact absurd hk h
  · rfl

/-- One more transfer is asked for, or none. -/
def AsksOne (s t : State) (d : Nat) (asked : List Transfer) (what : Option (XferKind × Option Nat × Place × Option Place)) : Prop :=
  ∃ new : List Transfer, t = s.asking (asked ++ new) ∧ new.map Transfer.signature = what.toList ∧ new.length ≤ 1 ∧
    ∀ x ∈ new, x.kind ≠ .exportPut ∧ x.src = .drive d

theorem asksOne_none (s : State) (d : Nat) (asked : List Transfer) : AsksOne s (s.asking asked) d asked none :=
  ⟨[], by rw [List.append_nil], rfl, Nat.zero_le _, fun _ hx => absurd hx List.not_mem_nil⟩

theorem transferFrom_asking {s : State} {asked : List Transfer} {d : Nat} (hd : s.picker.deferred = []) (ho : ∀ x ∈ asked, x.from_other d) :
    transferFrom (s.asking asked) d = false := by
  have all : allTransfers (s.asking asked) = asked := by
    show asked ++ s.picker.deferred = asked
    rw [hd, List.append_nil]
  rw [transferFrom, all, List.any_eq_false]
  intro x hx
  obtain ⟨hk, hsrc⟩ := ho x hx
  rw [xferSource_of_kind hk]
  exact fun e => hsrc (beq_iff_eq.1 e)

section
variable {s : State} {asked : List Transfer} {d : Nat} (hd : s.picker.deferred = []) (hl : asked.length < Config.transferCapacity)
include hd hl

theorem asksOne_transfer (kind : XferKind) (hk : kind ≠ .exportPut) (cart : Option Nat) (dst : Option Place) :
    AsksOne s (requestTransfer (s.asking asked) kind cart (.drive d) dst .a none none false) d asked
      (some (kind, cart, .drive d, dst)) := by
  refine ⟨[⟨s.nextId + asked.length, kind, cart, .drive d, dst, .a, none, none, false⟩], ?_, rfl, Nat.le_refl _, fun x hx => ?_⟩
  · rw [requestTransfer_of_room (s := s.asking asked) hd hl, State.asking, State.asking, List.length_append]
    rfl
  · rw [List.mem_singleton.1 hx]
    exact ⟨hk, rfl⟩

theorem requestHome_asking (occ : Occupant) :
    AsksOne s (requestHome (s.asking asked) occ (.drive d) none false) d asked (wayHome s d occ) := by
  cases occ with
  | empty => exact asksOne_none s d asked
  | record c =>
    have hcart : (s.asking asked).cart c = s.cart c := rfl
    simp only [requestHome, wayHome, hcart]
    cases (s.cart c).bind Cart.home with
    | none => exact asksOne_none s d asked
    | some h => exact asksOne_transfer hd hl .ret nofun _ _
  | unrecorded => exact asksOne_transfer hd hl .reject nofun _ _

theorem nightStep_asking (ho : ∀ x ∈ asked, x.from_other d) : AsksOne s (nightStep (s.asking asked) d) d asked (homeRequest s d) := by
  have hdrive : (s.asking asked).drive d = s.drive d := rfl
  have hfrom := transferFrom_asking hd ho
  rw [nightStep, homeRequest, hdrive, hfrom]
  by_cases hs : (s.drive d).state = .faulted ∨ (s.drive d).state = .outOfService
  · rw [if_pos hs, if_pos (hs.imp_right .inl)]
    exact asksOne_none s d asked
  · rw [if_neg hs, if_neg fun e => hs (e.imp_right fun e => e.resolve_right nofun)]
    exact requestHome_asking hd hl _

end

theorem nightSteps_asking {s : State} (hd : s.picker.deferred = []) : ∀ (l : List Nat) (asked : List Transfer), l.Nodup →
    asked.length + l.length ≤ Config.transferCapacity → (∀ d ∈ l, ∀ x ∈ asked, x.from_other d) →
    ∃ new : List Transfer, l.foldl nightStep (s.asking asked) = s.asking (asked ++ new) ∧
      new.map Transfer.signature = l.filterMap (homeRequest s)
  | [], asked, _, _, _ => ⟨[], by rw [List.append_nil]; rfl, rfl⟩
  | d :: l, asked, hn, hl, ho => by
    obtain ⟨hnot, hn⟩ := List.nodup_cons.1 hn
    rw [List.length_cons] at hl
    obtain ⟨new, e, hm, hlen, hnew⟩ := nightStep_asking hd (by omega) (ho d (List.mem_cons_self ..))
    obtain ⟨rest, e', hm'⟩ := nightSteps_asking hd l (asked ++ new) hn (by rw [List.length_append]; omega) fun k hk x hx => by
      rcases List.mem_append.1 hx with hx | hx
      · exact ho k (List.mem_cons_of_mem _ hk) x hx
      · obtain ⟨hkind, hsrc⟩ := hnew x hx
        refine ⟨hkind, fun e => hnot ?_⟩
        rw [hsrc] at e
        cases e
        exact hk
    refine ⟨new ++ rest, by rw [List.foldl_cons, e, e', List.append_assoc], ?_⟩
    rw [List.map_append, hm, hm', List.filterMap_cons]
    cases homeRequest s d <;> rfl

theorem nightRelease_asks {s : State} (hq : s.picker.queue = []) (hd : s.picker.deferred = []) :
    ∃ asked : List Transfer, nightRelease s = s.asking asked ∧ asked.map Transfer.signature = [1, 2, 3, 4].filterMap (homeRequest s) := by
  have start : s.asking [] = s := by
    have same : { s.picker with queue := [] } = s.picker := by rw [← hq]
    rw [State.asking, same]
    rfl
  obtain ⟨asked, e, hm⟩ := nightSteps_asking hd drives4 [] (by decide) (by decide) fun d _ x hx => absurd hx List.not_mem_nil
  refine ⟨asked, ?_, hm⟩
  rw [nightRelease_eq]
  rwa [start, List.nil_append] at e

theorem nightOp_of_awake {s : State} (h : s.mode ≠ .night) : nightOp s =
    if nightBlocked s ≠ 0 then refuse s .busy (be 1 (nightBlocked s)) else done s (nightRelease { s with mode := .night }) [] := by
  unfold nightOp
  split
  · next hm => exact absurd hm h
  · rfl

theorem restAndNightByConditions : RestAndNightByConditions := by
  refine fun s h b => ⟨fun ha => ⟨fun hm => ?_, fun hm => ?_, fun hm => ⟨fun hr => ?_, fun hr => ?_⟩⟩,
    fun ha => ⟨fun hm => ?_, fun hm => ⟨fun hr => ?_, fun hr => ?_⟩⟩, restBlocked_eq_zero_iff s, nightBlocked_eq_zero_iff s,
    restBlocked_places s, fun hr => if_pos hr, fun hr hd => (if_neg (not_not.2 hr)).trans (if_pos hd), nightRelease_asks⟩
  · exact exec_settles_refuse ha rfl rfl (by simp only [dispatch, restOp, hm])
  · exact exec_settles_done ha rfl rfl (by simp only [dispatch, restOp, hm])
  · exact exec_settles_refuse ha rfl rfl (by simp only [dispatch, restOp, hm]; exact if_pos hr)
  · exact exec_settles_done ha rfl rfl (by simp only [dispatch, restOp, hm]; exact if_neg (not_not.2 hr))
  · exact exec_settles_done ha rfl rfl (by simp only [dispatch, nightOp, hm])
  · refine exec_settles_refuse ha rfl rfl ?_
    show nightOp s = _
    rw [nightOp_of_awake hm]
    exact if_pos hr
  · refine exec_settles_done ha rfl rfl ?_
    show nightOp s = _
    rw [nightOp_of_awake hm]
    exact if_neg (not_not.2 hr)

theorem wakeReturnsToRun : WakeReturnsToRun := by
  intro s h b ha
  refine exec_settles_done ha rfl rfl ?_
  obtain ⟨_, hm, _⟩ := ha
  obtain ⟨hstart, hrebuild⟩ := hm nofun
  show wakeOp s = _
  unfold wakeOp
  cases h : s.mode with
  | night => rfl
  | rest => rfl
  | run =>
    show done s s [] = _
    rw [← h]
  | start => exact absurd h hstart
  | rebuild => exact absurd h hrebuild

/-- Settles O34. -/
theorem modeRequests : Obligations.ModeRequests := ⟨restAndNightByConditions, wakeReturnsToRun⟩

end Sys2Proof.Machine
end

section
/-! PROOFS. RESTART, power and time (R133, R179, R180, R182, R183, R189). -/

namespace Sys2Proof.Machine

/-! ### Power -/

theorem unpoweredBoardTakesNothing : UnpoweredBoardTakesNothing := by
  intro c s hp hn
  by_cases hc : requestOf c = none
  · have off (op : State → State) : whenPowered s op = s := by rw [whenPowered, hp]; rfl
    cases c
    case powerOn g => exact absurd rfl (hn g)
    case unknownKindFrame kind h b =>
      show Host.Outcome.next (arriveFrame s kind h b) = _
      rw [arriveFrame, if_pos (.inl hp)]
    case badFrame bytes =>
      show Host.Outcome.next (badFrameOp s bytes) = _
      rw [badFrameOp, hp]
      rfl
    case interbyteGap b =>
      show Host.Outcome.next (gapOp s b) = _
      rw [gapOp, if_pos (.inl hp)]
    case printerFrameBad bytes => rfl
    all_goals first
      | exact congrArg Host.Outcome.next (off _)
      | cases hc
  · obtain ⟨⟨k, h, b⟩, hr⟩ := Option.ne_none_iff_exists'.1 hc
    rw [exec_request hr, arriveKind, arriveFrame, if_pos (.inl hp)]

/-- A power-on is a START over the store as it stands, or a rebuild over the cleared one. -/
theorem powerOnOp_cases (s : State) (good : Bool) :
    (good = true ∧ s.ret.written = true ∧ s.ret.rebuildFlag = false ∧ powerOnOp s good = State.poweredOn s.ret .start s.pending) ∨
      ((good = false ∨ s.ret.written = false ∨ s.ret.rebuildFlag = true) ∧
        powerOnOp s good = State.poweredOn Retained.initial .rebuild s.pending) := by
  unfold powerOnOp storePasses
  split
  · next h =>
    simp only [Bool.and_eq_true, Bool.not_eq_true'] at h
    exact .inl ⟨h.1.1, h.1.2, h.2, rfl⟩
  · next h =>
    refine .inr ⟨?_, rfl⟩
    cases good <;> cases hw : s.ret.written <;> cases hr : s.ret.rebuildFlag <;> simp_all

theorem powerOnStartsOrRebuilds : PowerOnStartsOrRebuilds := by
  intro s good
  refine ⟨powerOnOp s good, rfl, ?_⟩
  rcases powerOnOp_cases s good with ⟨h1, h2, h3, e⟩ | ⟨h, e⟩ <;> rw [e]
  · refine ⟨rfl, rfl, fun _ _ _ => ⟨rfl, rfl⟩, fun hbad => ?_, rfl, rfl, rfl, rfl, rfl, rfl, rfl, rfl, rfl, rfl, rfl, rfl, rfl, rfl, rfl, rfl,
      rfl, rfl, rfl, rfl, rfl, rfl, rfl⟩
    simp [h1, h2, h3] at hbad
  · refine ⟨rfl, rfl, fun g1 g2 g3 => ?_, fun _ => ⟨rfl, rfl⟩, rfl, rfl, rfl, rfl, rfl, rfl, rfl, rfl, rfl, rfl, rfl, rfl, rfl, rfl, rfl, rfl,
      rfl, rfl, rfl, rfl, rfl, rfl, rfl⟩
    simp [g1, g2, g3] at h

theorem powerLossKeepsTheRetainedStore : PowerLossKeepsTheRetainedStore := by
  intro s hp
  refine ⟨powerLossOp s, congrArg Host.Outcome.next (whenPowered_eq hp), ?_⟩
  exact ⟨rfl, rfl, rfl, rfl, rfl, rfl, rfl, rfl, rfl, rfl, rfl, rfl, rfl, rfl, rfl, rfl, rfl, rfl, rfl, rfl, rfl, rfl, rfl, rfl, rfl,
    rfl, rfl, rfl, rfl, rfl, rfl⟩

/-- Settles O36. -/
theorem powerOnAndLoss : Obligations.PowerOnAndLoss :=
  ⟨powerOnStartsOrRebuilds, powerLossKeepsTheRetainedStore, unpoweredBoardTakesNothing⟩

/-! ### Time -/

theorem clockSecondAdvancesTheClock : ClockSecondAdvancesTheClock := by
  intro s hp
  have h : Calm ⟨false, false⟩ { s with clock := s.clock.map Clock.tick, elapsed := s.elapsed + 1 } (settle (clockSecondOp s)) :=
    settle_calm (expireDue_calm (Calm.refl _ _))
  have hf := h.fixed
  have hmoney := h.money rfl
  simp only [State.fixed, State.money, Prod.mk.injEq] at hf hmoney
  obtain ⟨_, _, hclock, helapsed, hparams, hstations, _, _, _, hfees, hopen, _, _⟩ := hf
  obtain ⟨haccounts, hcash, _⟩ := hmoney
  have reading (c : Clock) (hc : s.clock = some c) : (settle (clockSecondOp s)).clock = some c.tick := by rw [hclock, hc]; rfl
  refine ⟨settle (clockSecondOp s), congrArg Host.Outcome.next (whenPowered_eq hp), helapsed, fun hc => by rw [hclock, hc]; rfl,
    fun d n hc hn => ?_, fun d hc hd => ?_, fun hc => reading _ hc, hparams, hstations, h.mem rfl, haccounts, hcash, hfees, hopen⟩
  · rw [reading _ hc, Clock.tick, if_pos hn]
  · rw [reading _ hc, Clock.tick, if_neg (Nat.lt_irrefl 86400), if_pos hd]

theorem exec_consentDeadline {s : State} (hp : s.powered = true) (ref : Word32) :
    exec (.consentDeadline ref) s = .next (settle (consentDeadlineOp s ref)) := congrArg Host.Outcome.next (whenPowered_eq hp)

/-- A pending consent is due when the clock has reached its deadline. -/
theorem due_iff {f : Filing} {r : RectInfo} {d now : Clock} (hs : f.state = .awaitingConsent) (hr : f.rect = some r)
    (hd : r.deadline = some d) : f.due now = true ↔ d.day < now.day ∨ d.day = now.day ∧ d.second ≤ now.second := by
  simp [Filing.due, hs, hr, hd, Clock.reaches]

theorem consentDeadlineVoidsTheFiling : ConsentDeadlineVoidsTheFiling := by
  refine fun s ref hp => ⟨fun now f r d hc hf hs hr hd => ⟨fun h => ?_, fun h => ?_⟩, fun h => ?_⟩
  all_goals rw [exec_consentDeadline hp]
  · simp only [consentDeadlineOp, hc, hf, (due_iff hs hr hd).2 h, if_true, voidFiling, hs, hr]
    rfl
  · have late : ¬ f.due now = true := fun e => by have := (due_iff hs hr hd).1 e; omega
    simp only [consentDeadlineOp, hc, hf, if_neg late]
  · rcases h with h | h
    · simp only [consentDeadlineOp, h]
    · cases hc : s.clock <;> simp only [consentDeadlineOp, hc, h]

/-- Settles O37. -/
theorem timePasses : Obligations.TimePasses := ⟨clockSecondAdvancesTheClock, consentDeadlineVoidsTheFiling⟩

/-! ### RESTART (R189) -/

/-- What RESTART changes at the drives: their table, and commands that leave the queues, block commands and those of a mount. -/
def DrivesOnly (s t : State) : Prop :=
  ∃ dr q, t = { s with drives := dr, bay := { s.bay with queue := q } } ∧ (∀ e ∈ q, e ∈ s.bay.queue) ∧
    ∀ e ∈ s.bay.queue, e.cmd.isBlockOp = false → e.cmd ≠ .load → e.cmd ≠ .spinUp → e ∈ q

theorem DrivesOnly.refl (s : State) : DrivesOnly s s := ⟨s.drives, s.bay.queue, rfl, fun _ => id, fun _ h _ _ _ => h⟩

theorem DrivesOnly.trans {a b c : State} (h : DrivesOnly a b) (k : DrivesOnly b c) : DrivesOnly a c := by
  obtain ⟨_, q, rfl, h1, h2⟩ := h
  obtain ⟨_, _, rfl, k1, k2⟩ := k
  exact ⟨_, _, rfl, fun e he => h1 e (k1 e he), fun e he b l u => k2 e (h2 e he b l u) b l u⟩

theorem DrivesOnly.modDrive (s : State) (d : Nat) (f : Drive → Drive) : DrivesOnly s (s.modDrive d f) :=
  ⟨_, s.bay.queue, rfl, fun _ => id, fun _ h _ _ _ => h⟩

theorem DrivesOnly.dropCommands (s : State) (p : BayEntry → Bool)
    (h : ∀ e, p e = true → e.cmd.isBlockOp = true ∨ e.cmd = .load ∨ e.cmd = .spinUp) : DrivesOnly s (dropCommands s p) := by
  refine ⟨s.drives, s.bay.queue.filter fun e => !p e, rfl, fun _ he => (List.mem_filter.1 he).1, fun e he hb hl hu => ?_⟩
  refine List.mem_filter.2 ⟨he, ?_⟩
  cases hp : p e with
  | false => rfl
  | true =>
    rcases h e hp with h | h | h
    · exact Bool.noConfusion (hb.symm.trans h)
    · exact absurd h hl
    · exact absurd h hu

theorem stopBurst_drivesOnly (s : State) (d : Nat) : DrivesOnly s (stopBurst s d) := by
  have dropped : DrivesOnly s (dropCommands s fun e => e.module == driveAddr d && e.cmd.isBlockOp) :=
    DrivesOnly.dropCommands s _ fun e he => .inl (Bool.and_eq_true_iff.1 he).2
  unfold stopBurst
  dsimp only
  split
  · exact dropped.trans (DrivesOnly.modDrive _ _ _)
  · exact dropped.trans (DrivesOnly.modDrive _ _ _)

theorem undoMount_drivesOnly (s : State) (d : Nat) : DrivesOnly s (undoMount s d) := by
  unfold undoMount
  dsimp only
  split
  · refine (DrivesOnly.dropCommands s _ fun e he => .inr ?_).trans (DrivesOnly.modDrive _ _ _)
    simpa using (Bool.and_eq_true_iff.1 he).2
  · exact DrivesOnly.refl s

theorem restartDrive_drivesOnly (s : State) (d : Nat) : DrivesOnly s (restartDrive s d) := by
  have marked := DrivesOnly.modDrive s d fun x => { x with chain := 0, chainAsk := false }
  unfold restartDrive
  dsimp only
  split
  · exact marked.trans (stopBurst_drivesOnly _ d)
  · exact marked.trans (stopBurst_drivesOnly _ d)
  · exact marked.trans (stopBurst_drivesOnly _ d)
  · split
    · exact marked
    · exact marked.trans (undoMount_drivesOnly _ d)
  · exact marked.trans (DrivesOnly.modDrive _ _ _)
  · exact marked

theorem restartDrives_drivesOnly (l : List Nat) (s : State) : DrivesOnly s (l.foldl restartDrive s) := by
  induction l generalizing s with
  | nil => exact DrivesOnly.refl s
  | cons d l ih => exact (restartDrive_drivesOnly s d).trans (ih _)

/-- No block command of drive `d` is queued. -/
def NoBlockOps (s : State) (d : Nat) : Prop := ∀ e ∈ s.bay.queue, e.module = d + 1 → e.cmd.isBlockOp = false

theorem DrivesOnly.noBlockOps {s t : State} (h : DrivesOnly s t) {d : Nat} (hn : NoBlockOps s d) : NoBlockOps t d := by
  obtain ⟨_, q, rfl, h1, _⟩ := h
  exact fun e he => hn e (h1 e he)

theorem stopBurst_noBlockOps (s : State) (d : Nat) : NoBlockOps (stopBurst s d) d := by
  have dropped : NoBlockOps (dropCommands s fun e => e.module == driveAddr d && e.cmd.isBlockOp) d := fun e he hm => by
    have := (List.mem_filter.1 he).2
    simpa [driveAddr, hm] using this
  unfold stopBurst
  dsimp only
  split
  · exact (DrivesOnly.modDrive _ _ _).noBlockOps dropped
  · exact (DrivesOnly.modDrive _ _ _).noBlockOps dropped

/-- A burst's drive loses its block commands. -/
theorem restartDrive_noBlockOps {s : State} {d : Nat} (h : (s.drive d).task.isBurst = true) : NoBlockOps (restartDrive s d) d := by
  have ht : ((s.modDrive d fun x => { x with chain := 0, chainAsk := false }).drive d).task = (s.drive d).task :=
    drive_modDrive_keeps s d d Drive.task fun _ => rfl
  unfold restartDrive
  dsimp only
  rw [ht]
  cases hk : (s.drive d).task with
  | readBurst b => exact stopBurst_noBlockOps _ d
  | writeBurst b => exact stopBurst_noBlockOps _ d
  | commitBurst b => exact stopBurst_noBlockOps _ d
  | _ => rw [hk] at h; cases h

theorem drive_dropCommands (s : State) (p : BayEntry → Bool) (k : Nat) : (dropCommands s p).drive k = s.drive k := rfl

/-- Another drive is not touched. -/
theorem drive_restartDrive_other (s : State) {d k : Nat} (h : d ≠ k) : (restartDrive s d).drive k = s.drive k := by
  have other (t : State) (f : Drive → Drive) : (t.modDrive d f).drive k = t.drive k := by
    rw [State.drive_modDrive, if_neg fun e => h e.1]
  have stop (t : State) : (stopBurst t d).drive k = t.drive k := by
    unfold stopBurst
    dsimp only
    split <;> rw [other, drive_dropCommands]
  unfold restartDrive
  dsimp only
  split
  · rw [stop, other]
  · rw [stop, other]
  · rw [stop, other]
  · split
    · rw [other]
    · unfold undoMount
      dsimp only
      split
      · rw [other, drive_dropCommands, other]
      · rw [other]
  · rw [other, other]
  · rw [other]

theorem restartDrives_noBlockOps {d : Nat} : ∀ (l : List Nat) (s : State), d ∈ l → (s.drive d).task.isBurst = true →
    NoBlockOps (l.foldl restartDrive s) d
  | [], _, hd, _ => absurd hd List.not_mem_nil
  | k :: l, s, hd, hb => by
    rw [List.foldl_cons]
    by_cases hk : k = d
    · subst hk
      exact (restartDrives_drivesOnly l _).noBlockOps (restartDrive_noBlockOps hb)
    · refine restartDrives_noBlockOps l _ ((List.mem_cons.1 hd).resolve_left (Ne.symm hk)) ?_
      rw [drive_restartDrive_other s hk]
      exact hb

/-- What asking for the inspections again changes: INSPECT items and held requests are added. -/
def InspectsOnly (s t : State) : Prop :=
  ∃ w hs n, t = { s with work := w, heldReqs := hs, nextId := n } ∧ ((∀ i ∈ s.work, i.kind = .inspect) → ∀ i ∈ w, i.kind = .inspect) ∧
    ((∀ q ∈ s.heldReqs, ∃ m d, q = .inspect m d) → ∀ q ∈ hs, ∃ m d, q = .inspect m d)

theorem InspectsOnly.refl (s : State) : InspectsOnly s s := ⟨s.work, s.heldReqs, s.nextId, rfl, id, id⟩

theorem InspectsOnly.trans {a b c : State} (h : InspectsOnly a b) (k : InspectsOnly b c) : InspectsOnly a c := by
  obtain ⟨_, _, _, rfl, h1, h2⟩ := h
  obtain ⟨_, _, _, rfl, k1, k2⟩ := k
  exact ⟨_, _, _, rfl, fun e => k1 (h1 e), fun e => k2 (h2 e)⟩

theorem inspects_append {w : List Item} {i : Item} (hi : i.kind = .inspect) (h : ∀ i ∈ w, i.kind = .inspect) :
    ∀ x ∈ w ++ [i], x.kind = .inspect := fun x hx => by
  rcases List.mem_append.1 hx with hx | hx
  · exact h x hx
  · rw [List.mem_singleton.1 hx]; exact hi

theorem createItem_inspectsOnly (s : State) (mail : Nat) (st : ItemState) (drive : Option Nat) :
    InspectsOnly s (createItem s none none .media .inspect none none none none (some mail) st drive).2 :=
  ⟨_, s.heldReqs, s.nextId + 1, rfl, inspects_append rfl, id⟩

theorem modItem_inspectsOnly (s : State) (id : Nat) (d : Option Nat) :
    InspectsOnly s (s.modItem id fun i => { i with inDrive := d }) := by
  refine ⟨_, s.heldReqs, s.nextId, rfl, fun h i hi => ?_, fun h => h⟩
  obtain ⟨x, hx, rfl⟩ := List.mem_map.1 hi
  split <;> exact h x hx

theorem createInspectItem_inspectsOnly (s : State) (mail : Nat) (drive : Option Nat) :
    InspectsOnly s (createInspectItem s mail drive) := by
  unfold createInspectItem
  split
  · split
    · exact createItem_inspectsOnly s mail _ _
    · split
      · exact createItem_inspectsOnly s mail _ _
      · exact (createItem_inspectsOnly s mail .waiting none).trans (modItem_inspectsOnly _ _ _)
  · refine ⟨s.work, _, s.nextId, rfl, id, fun h q hq => ?_⟩
    rcases List.mem_append.1 hq with hq | hq
    · exact h q hq
    · exact ⟨mail, drive, List.mem_singleton.1 hq⟩

theorem foldl_inspectsOnly {α : Type} {f : State → α → State} (hf : ∀ s x, InspectsOnly s (f s x)) :
    ∀ (l : List α) (s : State), InspectsOnly s (l.foldl f s)
  | [], s => InspectsOnly.refl s
  | x :: l, s => (hf s x).trans (foldl_inspectsOnly hf l (f s x))

theorem askInspects_inspectsOnly (s : State) (order : List Nat) : InspectsOnly s (askInspects s order) :=
  (foldl_inspectsOnly (fun s _ => createInspectItem_inspectsOnly s _ _) _ _).trans
    (foldl_inspectsOnly (fun s _ => createInspectItem_inspectsOnly s _ _) _ _)

/-- A transfer that RESTART leaves: neither MOUNT nor IMPORT_TAKE, or the one that holds the arm. -/
theorem mem_dropMounts_iff (s : State) (x : Transfer) : (x ∈ (dropMounts s).picker.queue ++ (dropMounts s).picker.deferred) ↔
    x ∈ s.picker.queue ++ s.picker.deferred ∧ (x.kind = .mount ∨ x.kind = .importTake → s.picker.arm.map Arm.xfer = some x.id) := by
  show x ∈ s.picker.queue.filter _ ++ s.picker.deferred.filter _ ↔ _
  rw [← List.filter_append, List.mem_filter]
  refine and_congr_right fun _ => ?_
  simp only [Bool.not_eq_true', Bool.and_eq_false_imp, Bool.or_eq_true, beq_iff_eq, bne_eq_false_iff_eq]

/-- The state before RESTART reaches the drives. -/
def restartBase (s : State) : State := dropMounts (dropWork (restartStore s))

theorem restartOp_state (s : State) : (restartOp s).state =
    askInspects { (drives4.foldl restartDrive (restartBase s)).modPicker (fun p => { p with inspectWanted := [] }) with mode := .run }
      (inspectOrder s) := rfl

theorem mem_drives4 {d : Nat} (h1 : 1 ≤ d) (h4 : d ≤ 4) : d ∈ drives4 := by
  simp only [drives4, List.mem_cons, List.not_mem_nil, or_false]
  omega

/-- Settles O35: the drives' part and the inspections' part change only what they name. -/
theorem restartEndsAllWork : Obligations.RestartEndsAllWork := by
  intro s h b ha
  refine ⟨(restartOp s).state, exec_settles_done ha rfl rfl rfl, ?_⟩
  have bursts : ∀ d, 1 ≤ d → d ≤ 4 → (s.drive d).task.isBurst = true → NoBlockOps (drives4.foldl restartDrive (restartBase s)) d :=
    fun d h1 h4 hb => restartDrives_noBlockOps drives4 (restartBase s) (mem_drives4 h1 h4) hb
  obtain ⟨dr, q, drives, left, stays⟩ := restartDrives_drivesOnly drives4 (restartBase s)
  rw [restartOp_state]
  rw [drives] at bursts ⊢
  obtain ⟨w, held, n, e, hw, hh⟩ := askInspects_inspectsOnly
    { ({ restartBase s with drives := dr, bay := { (restartBase s).bay with queue := q } } : State).modPicker
        (fun p => { p with inspectWanted := [] }) with mode := .run } (inspectOrder s)
  rw [e]
  refine ⟨rfl, rfl, rfl, rfl, rfl, rfl, rfl, hw fun i hi => absurd hi List.not_mem_nil, rfl, rfl, rfl, rfl, rfl, rfl, rfl, rfl, rfl, rfl,
    rfl, rfl, rfl, hh fun i hi => absurd hi List.not_mem_nil, fun x hx hk => ?_, fun x hx h1 h2 => ?_, left, rfl, stays, bursts⟩
  · exact ((mem_dropMounts_iff (dropWork (restartStore s)) x).1 hx).2 hk
  · show x ∈ s.picker.queue.filter _
    exact List.mem_filter.2 ⟨hx, by simp [h1, h2]⟩

end Sys2Proof.Machine
end

section
/-! PROOFS. FETCH, COPY_ORDER and CANCEL (R96, R97, R107, R147 to R149, R161, R185). -/

namespace Sys2Proof.Machine

/-! ### A work request ends REST -/

/-- The state in RUN. -/
def State.awake (s : State) : State := { s with mode := .run }

section
variable {s : State} {k : ReqKind} {h : Hdr} {b : List Byte}

theorem wakeFromRest_of_admitted (ha : Admitted s k h b) (hk : k ≠ .status) (hm : s.mode ≠ .night) : wakeFromRest s = s.awake := by
  obtain ⟨_, hmode, _⟩ := ha
  obtain ⟨hstart, hrebuild⟩ := hmode hk
  unfold wakeFromRest State.awake
  cases hs : s.mode with
  | night => exact absurd hs hm
  | rest => rfl
  | run =>
    rw [if_neg nofun, ← hs]
  | start => exact absurd hs hstart
  | rebuild => exact absurd hs hrebuild

end

@[simp] theorem tagInUse_awake (s : State) (tag : Word16) (st : Nat) : tagInUse s.awake tag st = tagInUse s tag st := rfl
@[simp] theorem reachDoc_awake (s : State) (d : Nat) : reachDoc s.awake d = reachDoc s d := rfl
@[simp] theorem listFull_awake (s : State) : listFull s.awake = listFull s := rfl
@[simp] theorem availableFunds_awake (s : State) (a : Nat) : availableFunds s.awake a = availableFunds s a := rfl
@[simp] theorem freeOrder_awake (s : State) : freeOrder s.awake = freeOrder s := rfl
@[simp] theorem selectionOf_awake (s : State) (q : CopyReq) : selectionOf s.awake q = selectionOf s q := rfl
@[simp] theorem ret_awake (s : State) : s.awake.ret = s.ret := rfl
@[simp] theorem account_awake (s : State) (a : Nat) : s.awake.account a = s.account a := rfl

/-! ### The reach of a document (R96) -/

section
variable {s : State} {d n : Nat}

theorem reachDoc_of_none (h : rangeLookup s d = none) : reachDoc s d = .no .notFound (flag (decide (s.ret.nextDoc ≤ d))) := by
  simp only [reachDoc, h]

variable (h : rangeLookup s d = some n)
include h

theorem reachDoc_of_withdrawn (hw : cartInState s (sideCart n) .withdrawn = true) :
    reachDoc s d = .no .offline (be 4 (((s.cart (sideCart n)).map Cart.label).getD 0) ++ be 2 n) := by
  simp only [reachDoc, h, hw, if_true]

theorem reachDoc_of_unavailable (hw : cartInState s (sideCart n) .withdrawn = false) (hu : unavailableCode s n ≠ 0) :
    reachDoc s d = .no .unavailable (be 2 n ++ be 1 (unavailableCode s n)) := by
  simp only [reachDoc, h, hw, Bool.false_eq_true, if_false, if_pos hu]

theorem reachDoc_of_side (hw : cartInState s (sideCart n) .withdrawn = false) (hu : unavailableCode s n = 0) :
    reachDoc s d = .side n := by
  simp only [reachDoc, h, hw, Bool.false_eq_true, if_false, if_neg (not_not.2 hu)]

end

theorem listFull_eq_true {s : State} (h : 48 ≤ s.work.length ∨ s.heldReqs ≠ []) : listFull s = true := by
  simpa [listFull] using h

theorem listFull_of_room {s : State} (hw : s.work.length < 48) (hh : s.heldReqs = []) : listFull s = false := by
  simpa [listFull, hh] using hw

/-! ### FETCH -/

theorem fetch_fieldsOk_iff (q : FetchReq) : q.fieldsOk = true ↔ 1 ≤ q.first ∧ q.first ≤ q.last ∧ q.last ≤ 200 ∧ q.urgent ≤ 1 := by
  simp [FetchReq.fieldsOk, rangeOk, and_assoc]

theorem fetchMakesRecordAndItem : FetchMakesRecordAndItem := by
  intro s h b n ha hm q cls h1 h2 h3 h4 ht hr hw hu hl hh hf
  have fields : (parseFetch b).fieldsOk = true := (fetch_fieldsOk_iff _).2 ⟨h1, h2, h3, h4⟩
  have reach : reachDoc s (parseFetch b).doc = .side n := reachDoc_of_side hr hw hu
  have room : ¬ 48 ≤ s.fetches.length := Nat.not_le.2 hf
  refine exec_settles_accepted ha rfl rfl ?_
  show fetchOp s h.tag h.station.toNat b = _
  simp only [fetchOp, if_neg hm, wakeFromRest_of_admitted ha nofun hm, fields, tagInUse_awake, ht, reachDoc_awake, reach, listFull_awake,
    listFull_of_room hl hh, Bool.not_true, Bool.or_self, Bool.false_eq_true, if_false, Bool.false_or, decide_eq_true_eq]
  exact if_neg room

theorem fetchRefusalsInOrder : FetchRefusalsInOrder := by
  intro s h b ha q refused
  refine ⟨fun hm => exec_settles_refuse ha rfl rfl (if_pos hm), fun hm => ?_⟩
  have refuses {code : RefCode} {f : List Byte} (e : fetchOp s h.tag h.station.toNat b = refuseAfter s s.awake code f) : refused code f :=
    exec_settles_refuseAfter ha rfl rfl e
  have wake := wakeFromRest_of_admitted ha nofun hm
  refine ⟨fun hbad => refuses ?_, fun h1 h2 h3 h4 ht => ?_⟩
  · have test : (!(parseFetch b).fieldsOk || tagInUse s h.tag h.station.toNat) = true := by
      rw [Bool.or_eq_true, Bool.not_eq_true', ← Bool.not_eq_true, fetch_fieldsOk_iff]
      exact hbad
    simp only [fetchOp, if_neg hm, wake, tagInUse_awake, test, if_true]
  have fields : (parseFetch b).fieldsOk = true := (fetch_fieldsOk_iff _).2 ⟨h1, h2, h3, h4⟩
  have unreachable {code : RefCode} {f : List Byte} (e : reachDoc s (parseFetch b).doc = .no code f) : refused code f :=
    refuses (by simp only [fetchOp, if_neg hm, wake, fields, tagInUse_awake, ht, reachDoc_awake, e, Bool.not_true, Bool.or_self,
      Bool.false_eq_true, if_false])
  refine ⟨fun hr => unreachable (reachDoc_of_none hr), fun n hr => ⟨fun hw => unreachable (reachDoc_of_withdrawn hr hw), fun hw =>
    ⟨fun hu => unreachable (reachDoc_of_unavailable hr hw hu), fun hu hl => refuses ?_⟩⟩⟩
  have reach : reachDoc s (parseFetch b).doc = .side n := reachDoc_of_side hr hw hu
  have full : (listFull s || decide (48 ≤ s.fetches.length)) = true := by
    rw [Bool.or_eq_true, decide_eq_true_eq]
    rcases hl with hl | hl | hl
    · exact .inl (listFull_eq_true (.inl hl))
    · exact .inl (listFull_eq_true (.inr hl))
    · exact .inr hl
  simp only [fetchOp, if_neg hm, wake, fields, tagInUse_awake, ht, reachDoc_awake, reach, Bool.not_true, Bool.or_self,
    Bool.false_eq_true, if_false]
  exact if_pos full

/-- Settles O38. -/
theorem fetchRequest : Obligations.FetchRequest := ⟨fetchMakesRecordAndItem, fetchRefusalsInOrder⟩

/-! ### COPY_ORDER -/

/-- The hold of an order on account (R147). -/
def copyFee (s : State) (q : CopyReq) : Nat :=
  holdFor q.sets (selectionOf s q).length (ratesOf s.ret.fees (q.kind == 2)).1 (ratesOf s.ret.fees (q.kind == 2)).2

theorem ratesOf_eq (f : Fees) (cert : Bool) : ratesOf f cert = (if cert then f.cert else f.plain, if cert then f.certFee else 0) := by
  cases cert <;> rfl

/-- What COPY_ORDER checks behind the reach of its document, in order (R147). -/
structure CopyChecks (s : State) (h : Hdr) (b : List Byte) (n : Nat) : Prop where
  night : s.mode ≠ .night
  wake : wakeFromRest s = s.awake
  fields : (parseCopy b).fieldsOk = true
  tag : tagInUse s h.tag h.station.toNat = false
  day : s.ret.dayOpen = true
  reach : reachDoc s (parseCopy b).doc = .side n

/-- The number of an order and its place in the Work List, the last of COPY_ORDER's checks. -/
def copyPlaced (s : State) (tag : Word16) (st : Nat) (q : CopyReq) (n : Nat) : Answer :=
  match freeOrder s with
  | none => refuseAfter s s.awake .tableFull []
  | some number =>
    if listFull s then refuseAfter s s.awake .listFull []
    else if q.payer = 0 ∧ st = 0 then refuseAfter s s.awake .notPermitted []
    else
      accepted s (enterOrder s.awake tag st q n number) (be 1 number ++ be 2 n ++ be 1 (selectionOf s q).length
        ++ (selectionOf s q).flatMap (be 1 ·) ++ be 4 (if q.payer = 0 then 0 else copyFee s q)
        ++ flag (holdsPort (enterOrder s.awake tag st q n number) number)
        ++ optField 4 (if q.payer = 0 then some (copyFee s q) else none))

/-- COPY_ORDER on a document within reach. -/
theorem copyOrderOp_of_reach {s : State} {h : Hdr} {b : List Byte} {n : Nat} (c : CopyChecks s h b n) :
    copyOrderOp s h.tag h.station.toNat b =
      if (parseCopy b).payer ≠ 0 ∧ (s.account (parseCopy b).payer).state ≠ .active then refuseAfter s s.awake .accountState []
      else if selectionOf s (parseCopy b) = [] then refuseAfter s s.awake .nothingToCopy []
      else if (parseCopy b).payer ≠ 0 ∧ availableFunds s (parseCopy b).payer < copyFee s (parseCopy b) then
        refuseAfter s s.awake .funds (be 4 (copyFee s (parseCopy b)) ++ balanceBytes (availableFunds s (parseCopy b).payer))
      else copyPlaced s h.tag h.station.toNat (parseCopy b) n := by
  obtain ⟨hm, wake, fields, ht, hd, reach⟩ := c
  simp only [copyOrderOp, if_neg hm, wake, fields, tagInUse_awake, ht, ret_awake, hd, reachDoc_awake, reach, Bool.not_true, Bool.or_self,
    Bool.false_eq_true, if_false]
  rfl

section
variable {s : State} {tag : Word16} {st n : Nat} {q : CopyReq}

theorem copyPlaced_of_full (h : freeOrder s = none) : copyPlaced s tag st q n = refuseAfter s s.awake .tableFull [] := by
  simp only [copyPlaced, h]

theorem copyPlaced_of_listFull {number : Nat} (h : freeOrder s = some number) (hl : listFull s = true) :
    copyPlaced s tag st q n = refuseAfter s s.awake .listFull [] := by
  simp only [copyPlaced, h, hl, if_true]

theorem copyPlaced_of_cash {number : Nat} (h : freeOrder s = some number) (hl : listFull s = false) (hc : q.payer = 0 ∧ st = 0) :
    copyPlaced s tag st q n = refuseAfter s s.awake .notPermitted [] := by
  simp only [copyPlaced, h, hl, Bool.false_eq_true, if_false]
  exact if_pos hc

theorem copyPlaced_of_room {number : Nat} (h : freeOrder s = some number) (hl : listFull s = false) (hc : ¬ (q.payer = 0 ∧ st = 0)) :
    copyPlaced s tag st q n =
      accepted s (enterOrder s.awake tag st q n number) (be 1 number ++ be 2 n ++ be 1 (selectionOf s q).length
        ++ (selectionOf s q).flatMap (be 1 ·) ++ be 4 (if q.payer = 0 then 0 else copyFee s q)
        ++ flag (holdsPort (enterOrder s.awake tag st q n number) number)
        ++ optField 4 (if q.payer = 0 then some (copyFee s q) else none)) := by
  simp only [copyPlaced, h, hl, Bool.false_eq_true, if_false]
  exact if_neg hc

end

/-- The fee as the statement of R147 writes it. -/
theorem copyFee_eq (s : State) (q : CopyReq) : copyFee s q = q.sets * ((selectionOf s q).length *
    (if q.kind == 2 then s.ret.fees.cert else s.ret.fees.plain) + if q.kind == 2 then s.ret.fees.certFee else 0) := by
  rw [copyFee, ratesOf_eq]
  rfl

/-- The state an accepted COPY_ORDER leaves before the port is granted. -/
theorem enterOrder_awake (s : State) (tag : Word16) (st : Nat) (q : CopyReq) (n number : Nat) :
    let rate := if q.kind == 2 then s.ret.fees.cert else s.ret.fees.plain
    let certFee := if q.kind == 2 then s.ret.fees.certFee else 0
    let t := { s.awake with
      nextId := s.nextId + 1
      work := s.work ++ [⟨s.nextId, some tag, some st, .copy, .copy, some n, some q.doc, none, some number, none, 0, s.params.yieldLimit,
        .waitingPort, none, false, none⟩]
      orders := s.orders ++ [newOrder number s.acceptCount tag st q n rate certFee (selectionOf s q)
        (if q.payer = 0 then 0 else copyFee s q) s.nextId]
      acceptCount := s.acceptCount + 1 }
    enterOrder s.awake tag st q n number = (portGrantRule t).getD t := by
  simp only [enterOrder, ret_awake, ratesOf_eq, copyFee_eq, selectionOf_awake, holdFor]
  rfl

theorem copyOrderMakesOrderAndItem : CopyOrderMakesOrderAndItem := by
  intro s h b n number ha hm q r cert rate certFee sel fee hf ht hd hr hw hu hp hs hn hl hh hcash t u
  have checks : CopyChecks s h b n := ⟨hm, wakeFromRest_of_admitted ha nofun hm, hf, ht, hd, reachDoc_of_side hr hw hu⟩
  have hfee : fee = copyFee s q := (copyFee_eq s q).symm
  have state : u = enterOrder s.awake h.tag h.station.toNat q n number := by
    rw [enterOrder_awake, ← hfee]
    rfl
  have hs : selectionOf s (parseCopy b) ≠ [] := hs
  refine exec_settles_accepted ha rfl rfl ((copyOrderOp_of_reach checks).trans ?_)
  have placed := copyPlaced_of_room (q := q) (tag := h.tag) (st := h.station.toNat) (n := n) hn (listFull_of_room hl hh)
    fun e => hcash e.1 e.2
  rw [if_neg fun e => e.2 (hp e.1).1, if_neg hs, if_neg fun e => absurd e.2 (Int.not_lt.2 (hfee ▸ (hp e.1).2)), state, hfee]
  exact placed

theorem copyOrderRefusalsInOrder : CopyOrderRefusalsInOrder := by
  intro s h b ha q cert sel fee refused
  refine ⟨fun hm => exec_settles_refuse ha rfl rfl (if_pos hm), fun hm => ?_⟩
  have refuses {code : RefCode} {f : List Byte} (e : copyOrderOp s h.tag h.station.toNat b = refuseAfter s s.awake code f) : refused code f :=
    exec_settles_refuseAfter ha rfl rfl e
  have wake := wakeFromRest_of_admitted ha nofun hm
  have hfee : fee = copyFee s q := (copyFee_eq s q).symm
  refine ⟨fun hbad => refuses ?_, fun hf ht => ?_⟩
  · have test : (!(parseCopy b).fieldsOk || tagInUse s h.tag h.station.toNat) = true := by
      rw [Bool.or_eq_true, Bool.not_eq_true']
      exact hbad
    simp only [copyOrderOp, if_neg hm, wake, tagInUse_awake, test, if_true]
  have hf : (parseCopy b).fieldsOk = true := hf
  refine ⟨fun hd => refuses ?_, fun hd => ?_⟩
  · simp only [copyOrderOp, if_neg hm, wake, hf, tagInUse_awake, ht, ret_awake, hd, Bool.not_true, Bool.or_self, Bool.false_eq_true,
      if_false, Bool.not_false, if_true]
  have unreachable {code : RefCode} {f : List Byte} (e : reachDoc s (parseCopy b).doc = .no code f) : refused code f :=
    refuses (by simp only [copyOrderOp, if_neg hm, wake, hf, tagInUse_awake, ht, ret_awake, hd, reachDoc_awake, e, Bool.not_true,
      Bool.or_self, Bool.false_eq_true, if_false])
  refine ⟨fun hr => unreachable (reachDoc_of_none hr), fun n hr => ⟨fun hw => unreachable (reachDoc_of_withdrawn hr hw), fun hw =>
    ⟨fun hu => unreachable (reachDoc_of_unavailable hr hw hu), fun hu => ?_⟩⟩⟩
  have checks : CopyChecks s h b n := ⟨hm, wake, hf, ht, hd, reachDoc_of_side hr hw hu⟩
  have reached := copyOrderOp_of_reach checks
  refine ⟨fun h0 hst => refuses (reached.trans (if_pos ⟨h0, hst⟩)), fun hp => ?_⟩
  have active : ¬ (q.payer ≠ 0 ∧ (s.account q.payer).state ≠ .active) := fun e => hp.elim e.1 e.2
  rw [if_neg active] at reached
  refine ⟨fun hs => refuses (reached.trans (if_pos hs)), fun hs h0 hlt => ?_, fun hs hle => ?_⟩
  all_goals have hs : selectionOf s (parseCopy b) ≠ [] := hs
  · rw [if_neg hs, if_pos ⟨h0, hfee ▸ hlt⟩, show copyFee s (parseCopy b) = fee from hfee.symm] at reached
    exact refuses reached
  have funds : ¬ (q.payer ≠ 0 ∧ availableFunds s q.payer < copyFee s q) := fun e =>
    hle.elim e.1 fun hle => absurd e.2 (Int.not_lt.2 (hfee ▸ hle))
  rw [if_neg hs, if_neg funds] at reached
  refine ⟨fun hn => refuses (reached.trans (copyPlaced_of_full hn)), fun hn => ?_⟩
  obtain ⟨number, hn⟩ := Option.ne_none_iff_exists'.1 hn
  exact ⟨fun hl => refuses (reached.trans (copyPlaced_of_listFull hn (listFull_eq_true hl))), fun hl hh h0 hst =>
    refuses (reached.trans (copyPlaced_of_cash hn (listFull_of_room hl hh) ⟨h0, hst⟩))⟩

/-- Settles O39. -/
theorem copyOrderRequest : Obligations.CopyOrderRequest := ⟨copyOrderMakesOrderAndItem, copyOrderRefusalsInOrder⟩

/-! ### CANCEL -/

section
variable {s : State} {h : Hdr} {b : List Byte}

/-- The station has the right: it is the request's, or a supervisor's. -/
def cancelRight (s : State) (st : Nat) (q : CancelReq) : Bool := st == q.station || isSupervisor s st

theorem cancelOp_of_no_right {st : Nat} (hr : cancelRight s st (parseCancel b) = false) : cancelOp s st b = refuse s .notPermitted [] :=
  if_pos (by rw [show (st == (parseCancel b).station || isSupervisor s st) = false from hr]; rfl)

theorem cancelOp_of_fetch {st : Nat} {f : Fetch} (hr : cancelRight s st (parseCancel b) = true)
    (hf : (s.fetches.find? fun f => f.tag == (parseCancel b).tag && f.station == (parseCancel b).station) = some f) :
    cancelOp s st b = done s (cancelFetch s f) (be 1 f.delivered ++ be 1 f.withheld ++ be 1 f.unreadable) := by
  simp only [cancelOp, show (st == (parseCancel b).station || isSupervisor s st) = true from hr, hf, Bool.not_true, Bool.false_eq_true,
    if_false]

variable {st : Nat} (hr : cancelRight s st (parseCancel b) = true)
  (hf : (s.fetches.find? fun f => f.tag == (parseCancel b).tag && f.station == (parseCancel b).station) = none)
include hr hf

theorem cancelOp_of_nothing
    (ho : (s.orders.find? fun o => o.tag == (parseCancel b).tag && o.station == (parseCancel b).station) = none) :
    cancelOp s st b = refuse s .notFound [] := by
  simp only [cancelOp, show (st == (parseCancel b).station || isSupervisor s st) = true from hr, hf, ho, Bool.not_true, Bool.false_eq_true,
    if_false]

theorem cancelOp_of_order {o : Order}
    (ho : (s.orders.find? fun o => o.tag == (parseCancel b).tag && o.station == (parseCancel b).station) = some o) :
    cancelOp s st b = cancelOrder s o := by
  simp only [cancelOp, show (st == (parseCancel b).station || isSupervisor s st) = true from hr, hf, ho, Bool.not_true, Bool.false_eq_true,
    if_false]

end

theorem cancelEndsFetchOrOrder : CancelEndsFetchOrOrder := by
  intro s h b ha q right f? o?
  refine ⟨fun hr => exec_settles_refuse ha rfl rfl (cancelOp_of_no_right hr), fun hr =>
    ⟨fun f hf => exec_settles_done ha rfl rfl (cancelOp_of_fetch hr hf), fun hf ho => exec_settles_refuse ha rfl rfl
      (cancelOp_of_nothing hr hf ho), fun o hf ho => ?_⟩⟩
  have order : dispatch .cancel s h.tag h.station.toNat b = cancelOrder s o := cancelOp_of_order hr hf ho
  refine ⟨fun hc => exec_settles_accepted ha rfl rfl (order.trans ?_), fun hc hi => exec_settles_accepted ha rfl rfl (order.trans ?_),
    fun hc hi => exec_settles_done ha rfl rfl (order.trans ?_)⟩
  · obtain ⟨c, hc⟩ := Option.ne_none_iff_exists'.1 hc
    simp only [cancelOrder, hc]
  · obtain ⟨i, hi⟩ := Option.ne_none_iff_exists'.1 hi
    simp only [cancelOrder, hc, hi]
  · simp only [cancelOrder, hc, hi]

/-- What an item's end may change: the Work List, claims, what fetches and orders have read, the drives and the transfers. -/
def ItemsOnly (s t : State) : Prop :=
  ∃ work claims fetches orders drives picker, t = { s with
    work := work, claims := claims, fetches := fetches, orders := orders, drives := drives, picker := picker } ∧
    orders.length = s.orders.length ∧ fetches.length = s.fetches.length

namespace ItemsOnly

theorem refl (s : State) : ItemsOnly s s := ⟨s.work, s.claims, s.fetches, s.orders, s.drives, s.picker, rfl, rfl, rfl⟩

theorem trans {a b c : State} (h : ItemsOnly a b) (k : ItemsOnly b c) : ItemsOnly a c := by
  obtain ⟨_, _, _, o, _, _, rfl, ho, hf⟩ := h
  obtain ⟨_, _, _, _, _, _, rfl, ho', hf'⟩ := k
  exact ⟨_, _, _, _, _, _, rfl, ho'.trans ho, hf'.trans hf⟩

theorem foldl {α : Type} {f : State → α → State} (hf : ∀ s x, ItemsOnly s (f s x)) :
    ∀ (l : List α) (s : State), ItemsOnly s (l.foldl f s)
  | [], s => refl s
  | x :: l, s => (hf s x).trans (foldl hf l (f s x))

theorem withdrawClaims (s : State) (id : Nat) : ItemsOnly s (withdrawClaims s id) := by
  rw [withdrawClaims_eq_foldl]
  exact foldl (fun s c => ⟨s.work, _, _, _, s.drives, s.picker, rfl, List.length_map .., List.length_map ..⟩) _ s

theorem removeItem (s : State) (id : Nat) : ItemsOnly s (removeItem s id) := by
  unfold Machine.removeItem
  split
  · next i _ =>
    cases i.drive with
    | none => exact ⟨_, s.claims, s.fetches, s.orders, s.drives, s.picker, rfl, rfl, rfl⟩
    | some d => exact ⟨_, s.claims, s.fetches, s.orders, _, s.picker, rfl, rfl, rfl⟩
  · exact refl s

theorem endItem (s : State) (id : Nat) : ItemsOnly s (endItem s id) := by
  unfold Machine.endItem
  split
  · split
    · exact ⟨_, s.claims, s.fetches, s.orders, s.drives, s.picker, rfl, rfl, rfl⟩
    · refine ((withdrawClaims s id).trans ?_).trans (removeItem _ id)
      exact ⟨_, _, _, _, _, _, rfl, rfl, rfl⟩
  · exact refl s

theorem endItemOpt (s : State) (id : Option Nat) : ItemsOnly s (endItemOpt s id) := by
  cases id with
  | none => exact refl s
  | some id => exact endItem s id

theorem freeOf (s : State) (claim : Nat) (bs : List Nat) : ItemsOnly s (freeOf s claim bs) :=
  ⟨s.work, _, s.fetches, s.orders, s.drives, s.picker, rfl, rfl, rfl⟩

theorem freeFetchPages (s : State) (f : Fetch) : ItemsOnly s (freeFetchPages s f) :=
  foldl (fun s (p : FetchPage) => freeOf s p.claim p.blocks) _ s

end ItemsOnly

theorem cancelledFetchLeavesSilently : CancelledFetchLeavesSilently := by
  intro s f
  refine ⟨fun g hg => ?_, ?_⟩
  · have := (List.mem_filter.1 hg).2
    simpa using this
  · obtain ⟨_, _, _, _, _, _, e, ho, -⟩ := (ItemsOnly.endItemOpt s f.item).trans (ItemsOnly.freeFetchPages _ f)
    refine ⟨?_, ?_, ?_, ?_⟩ <;> simp only [cancelFetch, e]
    exact ho

/-- Settles O40. -/
theorem cancelRequest : Obligations.CancelRequest := ⟨cancelEndsFetchOrOrder, cancelledFetchLeavesSilently⟩

end Sys2Proof.Machine
end

section
/-! PROOFS. The filing requests (R110 to R113, R126, R128, R131, R133 to R135, R137). -/

namespace Sys2Proof.Machine

/-! ### FILE_BEGIN -/

@[simp] theorem findFiling_awake (s : State) (r : Word32) : s.awake.findFiling r = s.findFiling r := rfl
@[simp] theorem fullRights_awake (s : State) (st : Nat) : fullRights s.awake st = fullRights s st := rfl
@[simp] theorem clock_awake (s : State) : s.awake.clock = s.clock := rfl
@[simp] theorem rangeLookup_awake (s : State) (d : Nat) : rangeLookup s.awake d = rangeLookup s d := rfl
@[simp] theorem tableRoom_awake (s : State) (r : Bool) : tableRoom s.awake r = tableRoom s r := rfl
@[simp] theorem filingClaimFits_awake (s : State) (n : Nat) : filingClaimFits s.awake n = filingClaimFits s n := rfl

theorem afterVoidings_of_original {s : State} {st : Nat} {q : FileBeginReq} (h : q.kind ≠ 2) : afterVoidings s st q = s := if_neg h

theorem afterVoidings_of_rectification {s : State} {st : Nat} {q : FileBeginReq} (h : q.kind = 2) :
    afterVoidings s st q = supersede s st := if_pos h

/-- What FILE_BEGIN checks first (R110). -/
structure FileBeginChecks (s : State) (st : Nat) (q : FileBeginReq) : Prop where
  night : s.mode ≠ .night
  wake : wakeFromRest s = s.awake
  clock : s.clock ≠ none
  rights : fullRights s st = true
  fields : q.fieldsOk = true

/-- FILE_BEGIN with its fields in range: the table's checks, on the state after the voidings. -/
theorem fileBeginOp_of_checks {s : State} {tag : Word16} {st : Nat} {b : List Byte} (c : FileBeginChecks s st (parseFileBegin b)) :
    fileBeginOp s tag st b =
      let q := parseFileBegin b
      let v := afterVoidings s.awake st q
      if (v.findFiling q.ref).isSome then refuseAfter s s.awake .badField []
      else if q.kind = 2 ∧ rangeLookup s q.target = none then refuseAfter s s.awake .notFound []
      else if !tableRoom v (q.kind == 2) then refuseAfter s s.awake .tableFull []
      else if !filingClaimFits v q.count then refuseAfter s s.awake .stagingFull []
      else ⟨enterFiling v tag st q, .accepted, be 4 q.ref.toNat ++ be 2 q.count, v.control.length⟩ := by
  obtain ⟨hm, wake, hc, hr, hf⟩ := c
  simp only [fileBeginOp, if_neg hm, wake, clock_awake, if_neg hc, fullRights_awake, hr, hf, Bool.not_true, Bool.false_eq_true, if_false,
    rangeLookup_awake]

theorem kind_of_fieldsOk {q : FileBeginReq} (h : q.fieldsOk = true) : q.kind = 1 ∨ q.kind = 2 := by
  simp only [FileBeginReq.fieldsOk, Bool.and_eq_true, Bool.or_eq_true, beq_iff_eq] at h
  exact h.2.imp And.left fun h => h.1.1

/-- A filing enters on the state after the voidings. -/
theorem fileBeginOp_enters {s v : State} {tag : Word16} {st : Nat} {b : List Byte} (c : FileBeginChecks s st (parseFileBegin b))
    (hv : afterVoidings s.awake st (parseFileBegin b) = v) (hn : v.findFiling (parseFileBegin b).ref = none)
    (ht : (parseFileBegin b).kind = 2 → rangeLookup s (parseFileBegin b).target ≠ none)
    (hr : tableRoom v ((parseFileBegin b).kind == 2) = true) (hf : filingClaimFits v (parseFileBegin b).count = true) :
    fileBeginOp s tag st b = ⟨enterFiling v tag st (parseFileBegin b), .accepted,
      be 4 (parseFileBegin b).ref.toNat ++ be 2 (parseFileBegin b).count, v.control.length⟩ := by
  refine (fileBeginOp_of_checks c).trans ?_
  have unknown : ¬ (v.findFiling (parseFileBegin b).ref).isSome = true := by rw [hn]; nofun
  dsimp only
  rw [hv, if_neg unknown, if_neg fun e => ht e.1 e.2, hr, hf]
  rfl

/-- An ORIGINAL enters with its claim; it reserves nothing. -/
theorem enterFiling_of_original {s : State} {tag : Word16} {st : Nat} {q : FileBeginReq} (h : q.kind ≠ 2) :
    enterFiling s tag st q = { s with
      nextId := s.nextId + 1
      claims := s.claims ++ [⟨s.nextId, .filing q.ref, q.count, some ((freeBlocks s).take q.count), (freeBlocks s).take q.count, [], 0, true⟩]
      filings := s.filings ++ [newFiling tag st q] } := by
  rw [enterFiling, if_neg h]
  rfl

theorem fileBeginEntersTheFiling : FileBeginEntersTheFiling := by
  intro s h b ha hm hc hr q hq r
  have checks : FileBeginChecks s h.station.toNat q := ⟨hm, wakeFromRest_of_admitted ha nofun hm, hc, hr, hq⟩
  refine ⟨fun hk hn ht hf => ?_, fun hk ht => ?_⟩
  · have kind : (parseFileBegin b).kind ≠ 2 := fun e => absurd (hk.symm.trans e) nofun
    have room : tableRoom s.awake ((parseFileBegin b).kind == 2) = true := by rw [beq_false_of_ne kind]; exact ht
    refine exec_settles_accepted ha rfl rfl ((fileBeginOp_enters checks (afterVoidings_of_original kind) hn (fun e => absurd e kind) room
      hf).trans ?_)
    rw [enterFiling_of_original kind]
    rfl
  · intro v hn hroom hf
    have kind : (parseFileBegin b).kind = 2 := hk
    have room : tableRoom v ((parseFileBegin b).kind == 2) = true := by rw [kind]; exact hroom
    have entered := fileBeginOp_enters (tag := h.tag) checks (afterVoidings_of_rectification kind) hn
      (fun _ => Option.isSome_iff_ne_none.1 ht) room hf
    rw [exec_settles ha rfl rfl, show dispatch .fileBegin s h.tag h.station.toNat b = _ from entered]
    rfl

theorem fileBeginRefusalsInOrder : FileBeginRefusalsInOrder := by
  intro s h b ha q r v refused
  refine ⟨fun hm => exec_settles_refuse ha rfl rfl (if_pos hm), fun hm => ?_⟩
  have refuses {code : RefCode} (e : fileBeginOp s h.tag h.station.toNat b = refuseAfter s s.awake code []) : refused code :=
    exec_settles_refuseAfter ha rfl rfl e
  have wake := wakeFromRest_of_admitted ha nofun hm
  refine ⟨fun hc => refuses ?_, fun hc => ⟨fun hr => refuses ?_, fun hr => ⟨fun hbad => ?_, fun hq hn => ?_⟩⟩⟩
  · simp only [fileBeginOp, if_neg hm, wake, clock_awake, hc, if_true]
  · simp only [fileBeginOp, if_neg hm, wake, clock_awake, if_neg hc, fullRights_awake, hr, Bool.not_false, if_true]
  · cases hq : (parseFileBegin b).fieldsOk with
    | false =>
      refine refuses ?_
      simp only [fileBeginOp, if_neg hm, wake, clock_awake, if_neg hc, fullRights_awake, hr, hq, Bool.not_true, Bool.false_eq_true,
        if_false, Bool.not_false, if_true]
    | true =>
      have hbad : v.findFiling q.ref ≠ none := hbad.resolve_left fun e => Bool.noConfusion (hq.symm.trans e)
      exact refuses ((fileBeginOp_of_checks ⟨hm, wake, hc, hr, hq⟩).trans (if_pos (Option.isSome_iff_ne_none.2 hbad)))
  have reached := fileBeginOp_of_checks (tag := h.tag) ⟨hm, wake, hc, hr, hq⟩
  have known : ¬ (v.findFiling q.ref).isSome = true := by rw [hn]; nofun
  refine ⟨fun hk ht => refuses (reached.trans ((if_neg known).trans (if_pos ⟨hk, ht⟩))), fun ht => ?_⟩
  have target : ¬ (q.kind = 2 ∧ rangeLookup s q.target = none) := fun e => ht.elim (fun hk => absurd (hk.symm.trans e.1) nofun) fun ht => ht e.2
  refine ⟨fun hroom => refuses (reached.trans ((if_neg known).trans ((if_neg target).trans (if_pos (congrArg (! ·) hroom))))),
    fun hroom hf => refuses (reached.trans ((if_neg known).trans ((if_neg target).trans
      ((if_neg (ne_true_of_eq_false (congrArg (! ·) hroom))).trans (if_pos (congrArg (! ·) hf))))))⟩

/-- Settles O41. -/
theorem fileBeginRequest : Obligations.FileBeginRequest := ⟨fileBeginEntersTheFiling, fileBeginRefusalsInOrder⟩

/-! ### FILE_DATA and FILE_END -/

section
variable {s : State} {st : Nat} {ref : Word32} {f : Filing}

theorem receivingCheck_of_night (h : s.mode = .night) : receivingCheck s st ref = .error .night := if_pos h

variable (hm : s.mode ≠ .night)
include hm

theorem receivingCheck_of_none (h : s.findFiling ref = none) : receivingCheck s st ref = .error .notFound := by
  simp only [receivingCheck, if_neg hm, h]

variable (h : s.findFiling ref = some f)
include h

theorem receivingCheck_of_station (hs : st ≠ f.station) : receivingCheck s st ref = .error .notPermitted := by
  simp only [receivingCheck, if_neg hm, h, if_pos hs]

variable (hs : st = f.station)
include hs

theorem receivingCheck_of_busy (hr : f.state ≠ .receiving) : receivingCheck s st ref = .error .busy := by
  simp only [receivingCheck, if_neg hm, h, if_neg (not_not.2 hs), if_pos hr]

theorem receivingCheck_of_receiving (hr : f.state = .receiving) : receivingCheck s st ref = .ok f := by
  simp only [receivingCheck, if_neg hm, h, if_neg (not_not.2 hs), if_neg (not_not.2 hr)]

end

theorem fileDataOp_of_error {s : State} {st : Nat} {b : List Byte} {c : RefCode}
    (h : receivingCheck s st (parseFileData b).ref = .error c) : fileDataOp s st b = refuse s c [] := by
  simp only [fileDataOp, h]

theorem fileEndOp_of_error {s : State} {st : Nat} {b : List Byte} {c : RefCode}
    (h : receivingCheck s st (refAt b 0) = .error c) : fileEndOp s st b = refuse s c [] := by
  simp only [fileEndOp, h]

theorem fileDataAndEnd : FileDataAndEnd := by
  refine fun s h b => ⟨fun ha => ?_, fun ha => ?_⟩
  · have error {c : RefCode} (e : receivingCheck s h.station.toNat (parseFileData b).ref = .error c) :
        exec (.fileData h b) s = .next (pumpLine (refusedAs s h .fileData c [])) := exec_pumps_refuse ha rfl rfl (fileDataOp_of_error e)
    refine ⟨fun hm => error (receivingCheck_of_night hm), fun hm => ⟨fun hn => error (receivingCheck_of_none hm hn), fun f hf =>
      ⟨fun hs => error (receivingCheck_of_station hm hf hs), fun hs => ⟨fun hr => error (receivingCheck_of_busy hm hf hs hr), fun hr => ?_⟩⟩⟩⟩
    have ok := receivingCheck_of_receiving hm hf hs hr
    refine ⟨fun hq => exec_pumps_refuse ha rfl rfl ?_, fun hq => ⟨fun hne => exec_pumps_refuse ha rfl rfl ?_, fun he blk hb =>
      exec_pumps_done ha rfl rfl ?_⟩⟩
    all_goals
      show fileDataOp s h.station.toNat b = _
      simp only [fileDataOp, ok]
    · exact if_pos hq
    · exact (if_neg (Nat.not_le.2 hq)).trans (if_pos hne)
    · refine (if_neg (Nat.not_le.2 hq)).trans ((if_neg (not_not.2 he)).trans ?_)
      rw [show (filingBlocks s (parseFileData b).ref)[(parseFileData b).seq]? = some blk from hb]
  · have error {c : RefCode} (e : receivingCheck s h.station.toNat (refAt b 0) = .error c) :
        exec (.fileEnd h b) s = .next (settle (refusedAs s h .fileEnd c [])) := exec_settles_refuse ha rfl rfl (fileEndOp_of_error e)
    refine ⟨fun hm => error (receivingCheck_of_night hm), fun hm => ⟨fun hn => error (receivingCheck_of_none hm hn), fun f hf =>
      ⟨fun hs => error (receivingCheck_of_station hm hf hs), fun hs => ⟨fun hr => error (receivingCheck_of_busy hm hf hs hr), fun hr => ?_⟩⟩⟩⟩
    have ok := receivingCheck_of_receiving hm hf hs hr
    refine ⟨fun hl => exec_settles_refuse ha rfl rfl ?_, fun hl => ⟨fun hrect => exec_settles_accepted ha rfl rfl ?_, fun hrect =>
      exec_settles_accepted ha rfl rfl ?_⟩⟩
    all_goals
      show fileEndOp s h.station.toNat b = _
      simp only [fileEndOp, ok]
    · exact if_pos hl
    · refine (if_neg (Nat.not_lt.2 hl)).trans (if_neg ?_)
      rw [hrect]; nofun
    · exact (if_neg (Nat.not_lt.2 hl)).trans (if_pos (Option.isSome_iff_ne_none.2 hrect))

/-- What `createFileItem` does for a filing in the table: an item at the tail of class FILE, or a held request while the list is
full (R71). -/
theorem createFileItem_of_room {s : State} {ref : Word32} {f : Filing} (hf : s.findFiling ref = some f) (hw : s.work.length < 48)
    (hh : s.heldReqs = []) : createFileItem s ref =
      State.modFiling { s with
        nextId := s.nextId + 1
        work := s.work ++ [⟨s.nextId, some f.tag, some f.station, .file, .file, none, none, some ref, none, none, 0,
          s.params.yieldLimit, .waiting, none, false, none⟩] } ref fun x => { x with item := some s.nextId } := by
  simp only [createFileItem, hf, if_pos (And.intro (show s.work.length < Config.workCapacity from hw) hh)]
  rfl

theorem createFileItem_of_full {s : State} {ref : Word32} {f : Filing} (hf : s.findFiling ref = some f)
    (hl : 48 ≤ s.work.length ∨ s.heldReqs ≠ []) : createFileItem s ref = { s with heldReqs := s.heldReqs ++ [.file ref] } := by
  have full : ¬ (s.work.length < Config.workCapacity ∧ s.heldReqs = []) := fun ⟨h1, h2⟩ =>
    hl.elim (fun h => Nat.not_lt.2 h h1) fun h => h h2
  simp only [createFileItem, hf, if_neg full]

/-- The filing QUEUED with its FILE order, before its item is asked for (R113). -/
def queuedAs (s : State) (ref : Word32) : State :=
  State.modFiling { s with fileCount := s.fileCount + 1, fileLine := s.fileLine ++ [ref] } ref fun x =>
    { x with state := .queued, fileOrder := some s.fileCount }

theorem queueFiling_eq (s : State) (ref : Word32) : queueFiling s ref = createFileItem (queuedAs s ref) ref := rfl

theorem queuedFilingTakesFileOrder : QueuedFilingTakesFileOrder := by
  intro s ref f hf t
  have hq : (queuedAs s ref).findFiling ref = some { f with state := .queued, fileOrder := some s.fileCount } :=
    findFiling_modFiling hf fun _ => rfl
  have ht : t = createFileItem (queuedAs s ref) ref := queueFiling_eq s ref
  by_cases hroom : s.work.length < 48 ∧ s.heldReqs = []
  · obtain ⟨hw, hh⟩ := hroom
    have hfind : t.findFiling ref = some { f with state := .queued, fileOrder := some s.fileCount, item := some s.nextId } := by
      rw [ht, createFileItem_of_room hq hw hh]
      exact findFiling_modFiling hq fun _ => rfl
    rw [hfind, ht, createFileItem_of_room hq hw hh]
    refine ⟨rfl, rfl, fun g hg => ?_, fun _ _ => ⟨hh, rfl⟩, fun hl => ?_, rfl, rfl, rfl⟩
    · cases hg
      exact ⟨rfl, rfl⟩
    · exact hl.elim (fun h => absurd hw (Nat.not_lt.2 h)) fun h => absurd hh h
  · have hl : 48 ≤ s.work.length ∨ s.heldReqs ≠ [] := by
      rcases not_and_or.1 hroom with h | h
      · exact .inl (Nat.not_lt.1 h)
      · exact .inr h
    rw [ht, createFileItem_of_full hq hl]
    refine ⟨rfl, rfl, fun g hg => ?_, fun hw hh => absurd ⟨hw, hh⟩ hroom, fun _ => ⟨rfl, rfl⟩, rfl, rfl, rfl⟩
    cases hq.symm.trans hg
    exact ⟨rfl, rfl⟩

/-- Settles O42. -/
theorem filingData : Obligations.FilingData := ⟨fileDataAndEnd, queuedFilingTakesFileOrder⟩

/-! ### CONSENT and FILE_CANCEL -/

/-- Settles O43. -/
theorem consentQueuesTheFiling : Obligations.ConsentQueuesTheFiling := by
  intro s h b ha q st refused
  refine ⟨fun hm => exec_settles_refuse ha rfl rfl (if_pos hm), fun hm => ⟨fun hn => exec_settles_refuse ha rfl rfl ?_, fun f hf =>
    ⟨fun hr => exec_settles_refuse ha rfl rfl ?_, fun r hr => ⟨fun hs => exec_settles_refuse ha rfl rfl ?_, fun hs hne => ?_⟩⟩⟩⟩
  · show consentOp s st b = _
    simp only [consentOp, if_neg hm, show s.findFiling (parseConsent b).ref = none from hn]
  · show consentOp s st b = _
    simp only [consentOp, if_neg hm, show s.findFiling (parseConsent b).ref = some f from hf, hr]
  · have right : (!isSupervisor s st || st == f.station) = true := by simpa using hs
    show consentOp s st b = _
    simp only [consentOp, if_neg hm, show s.findFiling (parseConsent b).ref = some f from hf, hr, right, if_true]
  have right : (!isSupervisor s st || st == f.station) = false := by simp [hs, hne]
  have reached : consentOp s st b =
      if f.state ≠ .awaitingConsent then refuse s .busy (be 1 f.state.code)
      else if q.code ≠ r.code then refuseAfter s (voidFiling s f .code) .badCode (flag true)
      else accepted s (queueFiling s q.ref) (be 4 q.ref.toNat ++ be 1 FilingState.queued.code) := by
    simp only [consentOp, if_neg hm, show s.findFiling (parseConsent b).ref = some f from hf, hr, right, Bool.false_eq_true, if_false]
    rfl
  exact ⟨fun hb => exec_settles_refuse ha rfl rfl (reached.trans (if_pos hb)), fun hb hc => exec_settles_refuseAfter ha rfl rfl
    (reached.trans ((if_neg (not_not.2 hb)).trans (if_pos hc))), fun hb hc => exec_settles_accepted ha rfl rfl
    (reached.trans ((if_neg (not_not.2 hb)).trans (if_neg (not_not.2 hc))))⟩

theorem fileCancelRemovesOrPends : FileCancelRemovesOrPends := by
  intro s h b ha ref st refused
  refine ⟨fun hn => exec_settles_refuse ha rfl rfl ?_, fun f hf => ⟨fun hst hs => exec_settles_refuse ha rfl rfl ?_, fun hs => ?_⟩⟩
  · show fileCancelOp s st b = _
    simp only [fileCancelOp, show s.findFiling (refAt b 0) = none from hn]
  · have right : (!(st == f.station || isSupervisor s st)) = true := by simp [hst, hs]
    show fileCancelOp s st b = _
    simp only [fileCancelOp, show s.findFiling (refAt b 0) = some f from hf, right, if_true]
  have right : (!(st == f.station || isSupervisor s st)) = false := by
    rw [Bool.not_eq_false', Bool.or_eq_true, beq_iff_eq]
    exact hs
  have reached : fileCancelOp s st b =
      if f.state = .committing then refuse s .busy []
      else if f.cancelPending || writingNow s f then
        accepted s (s.modFiling ref fun x => { x with cancelPending := true }) (be 1 2 ++ be 2 f.claimed)
      else done s (removeFiling s ref) (be 1 1 ++ be 2 f.claimed) := by
    simp only [fileCancelOp, show s.findFiling (refAt b 0) = some f from hf, right, Bool.false_eq_true, if_false]
    rfl
  refine ⟨fun hc => exec_settles_refuse ha rfl rfl (reached.trans (if_pos hc)), fun hc hp hw => exec_settles_done ha rfl rfl
    (reached.trans ((if_neg hc).trans (if_neg ?_))), fun hc hp => exec_settles_accepted ha rfl rfl
    (reached.trans ((if_neg hc).trans (if_pos ?_)))⟩
  · rw [hp, hw]; nofun
  · exact Bool.or_eq_true_iff.2 hp

theorem clearMarker_eq (s : State) (ref : Word32) : ∃ m, clearMarker s ref = s.retain (fun r => { r with marker := m }) ∧
    ∀ x, m = some x → x.ref ≠ ref := by
  have same : s.retain (fun r => { r with marker := s.ret.marker }) = s := rfl
  unfold clearMarker
  split
  · next x hm =>
    rw [hm] at same
    by_cases hr : x.ref = ref
    · exact ⟨none, if_pos hr, nofun⟩
    · refine ⟨some x, (if_neg hr).trans same.symm, fun y hy => ?_⟩
      cases hy
      exact hr
  · next hm =>
    rw [hm] at same
    exact ⟨none, same.symm, nofun⟩

theorem removedFilingLeavesNothing : RemovedFilingLeavesNothing := by
  intro s ref t
  obtain ⟨work, claims, fetches, orders, drives, picker, e, _⟩ := ItemsOnly.endItemOpt s ((s.findFiling ref).bind Filing.item)
  obtain ⟨m, hm, hne⟩ := clearMarker_eq (freeFilingClaim (endItemOpt s ((s.findFiling ref).bind Filing.item)) ref) ref
  have ht : t = { clearMarker (freeFilingClaim (endItemOpt s ((s.findFiling ref).bind Filing.item)) ref) ref with
      filings := s.filings.filter fun f => f.ref != ref
      fileLine := s.fileLine.filter fun r => r != ref
      reserved := s.reserved.filter fun e => e.2 != ref
      heldReqs := s.heldReqs.filter fun h => h != .file ref } := by
    show removeFiling s ref = _
    rw [removeFiling]
    dsimp only
    rw [hm, e]
    rfl
  rw [hm, e] at ht
  rw [ht]
  refine ⟨rfl, fun c hc => ?_, fun e he => ?_, fun hr => ?_, fun hr => ?_, hne, rfl, rfl, rfl⟩
  · exact by simpa using (List.mem_filter.1 hc).2
  · exact by simpa using (List.mem_filter.1 he).2
  · exact absurd (List.mem_filter.1 hr).2 (by simp)
  · exact absurd (List.mem_filter.1 hr).2 (by simp)

/-- Settles O44. -/
theorem fileCancelRequest : Obligations.FileCancelRequest := ⟨fileCancelRemovesOrPends, removedFilingLeavesNothing⟩

end Sys2Proof.Machine
end

section
/-! PROOFS. Commands taken on the bus, limits and timers, and the Print Port (R31, R35 to R37, R52, R56, R65, R153 to R155, R159,
R201, R202). -/

namespace Sys2Proof.Machine

/-! ### A module takes a command -/

section
variable {s : State} {e : BayEntry} {n : Nat} (hp : s.powered = true) (hb : s.bay.bus = some (e, n)) (hc : e.cmd ≠ .status)
include hp hb hc

theorem exec_taken_by_picker (hm : e.module = 1) :
    exec .bayCommandTaken s = .next (settle (pickerCommandTaken (freeBus s) e.cmd)) := by
  refine congrArg Host.Outcome.next ((whenPowered_eq hp).trans ?_)
  have hat : moduleAt e.module = .picker := if_pos hm
  simp only [bayCommandTakenOp, hb, if_neg hc, hat]

theorem exec_taken_by_drive {d : Nat} (h1 : 1 ≤ d) (h4 : d ≤ 4) (hm : e.module = d + 1) :
    exec .bayCommandTaken s = .next (settle (driveCommandTaken (freeBus s) d e.cmd)) := by
  refine congrArg Host.Outcome.next ((whenPowered_eq hp).trans ?_)
  have hat : moduleAt e.module = .drive d := by
    rw [hm, moduleAt, if_neg (by omega), if_pos (by omega), Nat.add_sub_cancel]
  simp only [bayCommandTakenOp, hb, if_neg hc, hat]

theorem exec_taken_by_door {m : Nat} (h : m = 1 ∨ m = 2) (hm : e.module = m + 5) :
    exec .bayCommandTaken s = .next (settle (doorCommandTaken (freeBus s) m e.cmd)) := by
  refine congrArg Host.Outcome.next ((whenPowered_eq hp).trans ?_)
  have hat : moduleAt e.module = .door m := by
    rw [hm, moduleAt, if_neg (by omega), if_neg (by omega), Nat.add_sub_cancel]
  simp only [bayCommandTakenOp, hb, if_neg hc, hat]

end

theorem pickerCommandTaken_transfer {s : State} {src : Place} {dst : Place} {flip : Bool} {a : Arm} (ha : s.picker.arm = some a) :
    pickerCommandTaken s (.transfer src dst flip) =
      { s with picker := { s.picker with arm := some { a with taken := true }, state := .fetching, parkAsked := false } } := by
  simp only [pickerCommandTaken, State.modPicker, ha, Option.map_some, Option.isSome_some, if_true]

/-- Settles O46. -/
theorem commandTakenByItsModule : Obligations.CommandTakenByItsModule := by
  intro s e n hp hb hc u
  refine ⟨fun d h1 h4 hm => exec_taken_by_drive hp hb hc h1 h4 hm, fun src dst flip a hm ht ha => ?_, fun hm ht => ?_,
    fun m h hm => ⟨fun ht => ?_, fun ht => ?_⟩⟩
  · rw [exec_taken_by_picker hp hb hc hm, ht, pickerCommandTaken_transfer (s := freeBus s) ha]
    rfl
  · rw [exec_taken_by_picker hp hb hc hm]
    rcases ht with ht | ⟨a, b, ht⟩ <;> rw [ht] <;> rfl
  · rw [exec_taken_by_door hp hb hc h hm, ht]
    rfl
  · rw [exec_taken_by_door hp hb hc h hm, ht]
    rfl

/-! ### Limits and timers -/

theorem pickerFault_of_transfer {s : State} {a : Arm} {t : Transfer} (ha : s.picker.arm = some a) (ht : armXfer s = some t)
    (hf : s.picker.state ≠ .faulted) (why : PickerFaultReason) : pickerFault s why = { s with
      picker := { s.picker with
        state := .faulted, fault := some why, parkAsked := false, arm := none
        broken := some ⟨{ t with src := xferSource s t }, a.mail, a.taken, none⟩ }
      bay := { s.bay with queue := (s.bay.queue.filter fun e => e.module != 1) ++ [⟨1, .status, .broken⟩] } } := by
  have ha' : ((dropQueued s 1).modPicker fun p => { p with state := .faulted, fault := some why, parkAsked := false }).picker.arm = some a := ha
  have ht' : armXfer ((dropQueued s 1).modPicker fun p => { p with state := .faulted, fault := some why, parkAsked := false }) = some t := ht
  rw [pickerFault, if_neg hf]
  simp only [ha', ht']
  rfl

theorem transferTimeoutFaultsThePicker : TransferTimeoutFaultsThePicker := by
  refine fun s hp => ⟨fun a t ha htaken ht hf => ?_, fun ha => ?_⟩
  all_goals refine congrArg Host.Outcome.next ((whenPowered_eq hp).trans (congrArg settle ?_))
  · have taken : s.picker.arm.any Arm.taken = true := by rw [ha]; exact htaken
    rw [transferTimeoutOp, if_pos taken, pickerFault_of_transfer ha ht hf, htaken]
  · rw [transferTimeoutOp, ha]
    rfl

theorem driveTimersExpire : DriveTimersExpire := by
  refine fun s d hp => ⟨fun hl => ?_, fun hl => ?_, fun hs hi ht hm => ?_, fun hs hi ht => ?_, fun hn => ?_⟩
  all_goals refine congrArg Host.Outcome.next ((whenPowered_eq hp).trans (congrArg settle ?_))
  · exact if_pos hl
  · exact if_neg (ne_true_of_eq_false hl)
  · exact (if_pos ⟨hs, hi⟩).trans (if_pos ⟨ht, hm⟩)
  · exact (if_pos ⟨hs, hi⟩).trans (if_neg fun e => ht.elim (fun h => h e.1) fun h => h e.2)
  · exact if_neg fun e => hn.elim (fun h => h e.1) fun h => Bool.noConfusion (h.symm.trans e.2)

/-- Settles O55. -/
theorem limitsExpire : Obligations.LimitsExpire := ⟨transferTimeoutFaultsThePicker, driveTimersExpire⟩

/-! ### A page goes to the printer -/

theorem sendingOrder_of_holder {s : State} {n : Nat} {o : Order} (hh : s.port.holder = some n) (hi : s.port.inHand = none)
    (hf : s.findOrder n = some o) (ha : o.state = .active) (hc : o.closing = none) : sendingOrder s = some o := by
  simp only [sendingOrder, hh, hi, hf, if_pos (And.intro ha hc)]

theorem sendingOrder_of_none {s : State} (h : s.port.holder = none ∨ s.port.inHand ≠ none) : sendingOrder s = none := by
  unfold sendingOrder
  split
  · next n hh hi =>
    rcases h with h | h
    · exact absurd (h.symm.trans hh) nofun
    · exact absurd hi h
  · rfl

theorem sendPagePutsAPageInHand : SendPagePutsAPageInHand := by
  refine fun s hp => ⟨fun n o t hh hi hf ha hc ht => ?_, fun h => ?_⟩
  all_goals refine congrArg Host.Outcome.next ((whenPowered_eq hp).trans (congrArg settle ?_))
  · simp only [sendPageOp, sendingOrder_of_holder hh hi hf ha hc, ht]
    rfl
  · simp only [sendPageOp, sendingOrder_of_none h]

theorem pageEndStartsTheAnswerLimit : PageEndStartsTheAnswerLimit := by
  refine fun s h hp hi hs => ⟨fun hr => ?_, fun hr => ?_⟩
  all_goals
    refine congrArg Host.Outcome.next ((whenPowered_eq hp).trans ?_)
    simp only [pageEndSentOp, State.modPort, hi, Option.map_some, hs, Bool.false_eq_true, if_false]
  · rw [if_pos hr]
  · rw [if_neg hr]

/-- Settles O57. -/
theorem pageGoesToThePrinter : Obligations.PageGoesToThePrinter := ⟨sendPagePutsAPageInHand, pageEndStartsTheAnswerLimit⟩

/-! ### The printer's states -/

@[simp] theorem setPrinter_port (s : State) (st : PrinterState) (cause : Nat) : (setPrinter s st cause).port = { s.port with printer := st } :=
  notify_port ..

@[simp] theorem setPrinter_orders (s : State) (st : PrinterState) (cause : Nat) : (setPrinter s st cause).orders = s.orders :=
  notify_orders ..

theorem findOrder_setPrinter (s : State) (st : PrinterState) (cause n : Nat) : (setPrinter s st cause).findOrder n = s.findOrder n := by
  rw [State.findOrder, setPrinter_orders, State.findOrder]

theorem printerFault_of_none {s : State} (h : s.port.holder = none) (cause : Nat) : printerFault s cause = setPrinter s .fault cause := by
  simp only [printerFault, setPrinter_port, h]

theorem printerFault_of_holder {s : State} {n : Nat} {o : Order} (hh : s.port.holder = some n) (hf : s.findOrder n = some o) (cause : Nat) :
    printerFault s cause = endOrder (setPrinter s .fault cause) n ((o.closing.map Closing.toEnd).getD .printer) := by
  simp only [printerFault, setPrinter_port, hh, findOrder_setPrinter, hf, Option.bind_some]
  cases o.closing <;> rfl

theorem exec_printerStatus {s : State} (hp : s.powered = true) (b : Byte) :
    exec (.printerStatus b) s = .next (settle (printerStatusOp s b)) := congrArg Host.Outcome.next (whenPowered_eq hp)

theorem printerStatusOp_discards {s : State} {b : Byte} (h : b = 0 ∨ 3 < b.toNat) : printerStatusOp s b = s := by
  have hb : b.toNat ≠ 1 ∧ b.toNat ≠ 2 ∧ b.toNat ≠ 3 := by
    rcases h with rfl | h
    · exact ⟨nofun, nofun, nofun⟩
    · omega
  obtain ⟨h1, h2, h3⟩ := hb
  unfold printerStatusOp
  split
  · exact absurd ‹_› h1
  · exact absurd ‹_› h2
  · exact absurd ‹_› h3
  · rfl

theorem printerReady_of_ready {s : State} (h : s.port.printer = .ready) : printerReady s = s := by simp only [printerReady, h]

theorem printerReady_of_fault {s : State} (h : s.port.printer = .fault) : printerReady s = setPrinter s .ready 1 := by
  simp only [printerReady, h]

theorem printerReady_of_notReady {s : State} (h : s.port.printer = .notReady) : printerReady s =
    setLimit (setHolderState (setPrinter s .ready 1) fun o => if o.closing.isSome then o.state else .active) .stopped .running := by
  simp only [printerReady, h]

theorem printerNotReady_of_notReady {s : State} (h : s.port.printer = .notReady) : printerNotReady s = s := by
  simp only [printerNotReady, h]

theorem printerNotReady_of_fault {s : State} (h : s.port.printer = .fault) : printerNotReady s = setPrinter s .notReady 1 := by
  simp only [printerNotReady, h]

theorem printerNotReady_of_ready {s : State} (h : s.port.printer = .ready) : printerNotReady s =
    setLimit (setHolderState (setPrinter s .notReady 1) fun o => if o.closing.isSome then o.state else .suspended) .running .stopped := by
  simp only [printerNotReady, h]

theorem printerStatusByState : PrinterStatusByState := by
  intro s hp notice
  have runs {b : Byte} {t : State} (e : printerStatusOp s b = t) : exec (.printerStatus b) s = .next (settle t) :=
    (exec_printerStatus hp b).trans (congrArg (fun x => Host.Outcome.next (settle x)) e)
  exact ⟨fun h => runs (b := 1) (printerReady_of_ready h), fun h => runs (b := 2) (printerNotReady_of_notReady h),
    fun h => runs (b := 3) (if_pos h), fun h => runs (b := 1) (printerReady_of_fault h), fun h => runs (b := 2) (printerNotReady_of_fault h),
    fun h => runs (b := 2) (printerNotReady_of_ready h), fun h => runs (b := 1) (printerReady_of_notReady h),
    fun h hh => runs (b := 3) ((if_neg h).trans (printerFault_of_none hh 1)),
    fun n o h hh hf => runs (b := 3) ((if_neg h).trans (printerFault_of_holder hh hf 1)),
    fun b hb => runs (printerStatusOp_discards hb), fun _ => rfl⟩

theorem answerTimeoutFaultsThePrinter : AnswerTimeoutFaultsThePrinter := by
  refine fun s h hp hi => ⟨fun n o hl hh hf => ?_, fun hl => ?_⟩
  all_goals refine congrArg Host.Outcome.next ((whenPowered_eq hp).trans (congrArg settle ?_))
  · have expired := printerFault_of_holder (s := s.modPort fun p => { p with inHand := some { h with limit := .expired } }) hh hf 2
    simp only [answerTimeoutOp, hi, if_pos hl]
    rw [expired]
    unfold setPrinter
    rw [show (s.modPort fun p => { p with inHand := some { h with limit := .expired } }).port.holder = some n from hh]
    rfl
  · simp only [answerTimeoutOp, hi, if_neg hl]

/-- Settles O59. -/
theorem printerStateChanges : Obligations.PrinterStateChanges := ⟨printerStatusByState, answerTimeoutFaultsThePrinter⟩

end Sys2Proof.Machine
end

section
/-! PROOFS. A transfer that completes (R26, R35, R44, R52, R57, R197). -/

namespace Sys2Proof.Machine

/-! ### What a transfer carries (R26) -/

theorem carried_of_empty_none {s : State} {t : Transfer} {src : Place} (he : placeOcc s src = .empty) (ht : t.cart = none) :
    carried s t src = .unrecorded := by
  unfold carried
  rw [he, ht]

theorem carried_of_empty_some {s : State} {t : Transfer} {src : Place} {c : Nat} (he : placeOcc s src = .empty)
    (ht : t.cart = some c) :
    carried s t src = if placeOf s c = none ∧ cartInState s c .inLibrary then .record c else .empty := by
  unfold carried
  rw [he, ht]

theorem carriedIsTheOccupant : CarriedIsTheOccupant := by
  refine fun s t src => ⟨carried_of_occupied, carried_of_empty_none, fun c he ht => ⟨fun hp hc => ?_, fun hn => ?_⟩⟩
  · rw [carried_of_empty_some he ht, if_pos ⟨hp, hc⟩]
  · rw [carried_of_empty_some he ht, if_neg]
    rintro ⟨hp, hc⟩
    rcases hn with hn | hn
    · exact hn hp
    · exact Bool.noConfusion (hn.symm.trans hc)

/-! ### The transfers that wait -/

/-- The queue and the requests deferred from it (R34). -/
def transfersOf (s : State) : List Transfer := s.picker.queue ++ s.picker.deferred

theorem transfersOf_congr {s t : State} (h : t.picker = s.picker) : transfersOf t = transfersOf s := by
  unfold transfersOf
  rw [h]

/-- What filters the queue and the deferred requests alike filters the transfers that wait. -/
theorem transfersOf_filter {s t : State} {keep : Transfer → Bool} (hq : t.picker.queue = s.picker.queue.filter keep)
    (hd : t.picker.deferred = s.picker.deferred.filter keep) : transfersOf t = (transfersOf s).filter keep := by
  unfold transfersOf
  rw [hq, hd, List.filter_append]

theorem transfersOf_dropXfer (s : State) (id : Nat) : transfersOf (dropXfer s id) = (transfersOf s).filter fun x => x.id != id :=
  transfersOf_filter rfl rfl

theorem transfersOf_dropCartXfers (s : State) (c : Nat) :
    transfersOf (dropCartXfers s c) = (transfersOf s).filter fun x => x.cart != some c := transfersOf_filter rfl rfl

theorem transfersOf_modMail (s : State) (m : Nat) (f : Mail → Mail) : transfersOf (modMail s m f) = transfersOf s := by
  unfold transfersOf
  rw [modMail_picker]

theorem transfersOf_vacate (s : State) (p : Place) :
    transfersOf (vacate s p) = (transfersOf s).filter fun x => !(x.src == p && x.kind != .exportPut) := by
  have hdrop : transfersOf (dropFrom s p) = _ := transfersOf_filter rfl rfl
  rw [← hdrop]
  cases p with
  | mail m => exact transfersOf_modMail (dropFrom s (.mail m)) m _
  | slot _ | drive _ | gripper => rfl

theorem cartridgeIn_of_empty {s : State} {d : Nat} (h : (s.drive d).state = .empty) (occ : Occupant) (face : Face)
    (mail : Option Nat) :
    cartridgeIn s d occ face mail = beginMount (s.modDrive d fun x =>
      { x with occ := occ, face := some face, fromMail := mail, chain := if (holderOf s d).isSome then 1 else 0, dirLoaded := false,
               found := false, label := none, serial := none }) d := if_pos h

theorem cartridgeIn_picker (s : State) (d : Nat) (occ : Occupant) (face : Face) (mail : Option Nat) :
    (cartridgeIn s d occ face mail).picker = s.picker := by
  unfold cartridgeIn
  dsimp only
  split <;> rfl

theorem transfersOf_occupy (s : State) (p : Place) (occ : Occupant) (face : Face) (mail : Option Nat) :
    transfersOf (occupy s p occ face mail) = transfersOf s := by
  cases p with
  | mail m => exact transfersOf_modMail s m _
  | drive d => exact transfersOf_congr (cartridgeIn_picker s d occ face mail)
  | slot _ | gripper => rfl

/-! ### Items end, and drop transfers of theirs (R73, R75) -/

/-- No transfer is asked for. -/
def OnlyDrops (s t : State) : Prop := transfersOf t ⊆ transfersOf s

namespace OnlyDrops

theorem refl (s : State) : OnlyDrops s s := List.Subset.refl _

theorem trans {a b c : State} (h : OnlyDrops a b) (k : OnlyDrops b c) : OnlyDrops a c := List.Subset.trans k h

theorem of_eq {s t : State} (h : t.picker = s.picker) : OnlyDrops s t := fun _ hx => transfersOf_congr h ▸ hx

theorem of_filter {s t : State} {keep : Transfer → Bool} (h : transfersOf t = (transfersOf s).filter keep) : OnlyDrops s t :=
  fun _ hx => List.mem_of_mem_filter (h ▸ hx)

theorem withdrawClaims (s : State) (id : Nat) : OnlyDrops s (withdrawClaims s id) := by
  unfold Machine.withdrawClaims
  refine of_eq (foldl_keeps _ State.picker (fun _ _ => ?_) _ s)
  rfl

theorem dropItemTransfers (s : State) (id : Nat) : OnlyDrops s (dropItemTransfers s id) := of_filter (transfersOf_filter rfl rfl)

theorem removeItem (s : State) (id : Nat) : OnlyDrops s (removeItem s id) := by
  unfold Machine.removeItem
  split
  · next i _ => cases hd : i.drive <;> exact of_eq rfl
  · exact refl s

theorem endItem (s : State) (id : Nat) : OnlyDrops s (endItem s id) := by
  unfold Machine.endItem
  split
  · split
    · exact of_eq rfl
    · exact ((withdrawClaims s id).trans (dropItemTransfers _ id)).trans (removeItem _ id)
  · exact refl s

theorem endItemOpt (s : State) (id : Option Nat) : OnlyDrops s (endItemOpt s id) := by
  cases id with
  | none => exact refl s
  | some id => exact endItem s id

theorem returnItem (s : State) (id : Nat) : OnlyDrops s (returnItem s id) := by
  unfold Machine.returnItem
  split
  · exact ((withdrawClaims s id).trans (dropItemTransfers _ id)).trans (of_eq rfl)
  · exact refl s

theorem endTaken (s : State) (t : Transfer) (src : Place) : OnlyDrops s (endTaken s t src) := by
  have hitem := endItemOpt s t.item
  unfold Machine.endTaken
  cases src with
  | mail m =>
    have hmail := hitem.trans (endItemOpt _ (inspectInMail (Machine.endItemOpt s t.item) m))
    dsimp only
    split
    · exact hmail.trans (endItemOpt _ _)
    · exact hmail
  | slot _ | drive _ | gripper =>
    dsimp only
    split
    · exact hitem.trans (endItemOpt _ _)
    · exact hitem

theorem followTake (s : State) (src : Place) (d : Nat) : OnlyDrops s (followTake s src d) := by
  unfold Machine.followTake
  cases src with
  | mail m =>
    dsimp only
    split
    · exact (returnItem s _).trans (of_eq rfl)
    · exact refl s
  | slot _ | drive _ | gripper => exact refl s

theorem takeArrived (s : State) (t : Transfer) (src : Place) (d : Nat) : OnlyDrops s (takeArrived s t src d) := by
  unfold Machine.takeArrived
  split
  · exact (endTaken s t src).trans (of_eq (notify_picker ..))
  · exact followTake s src d

theorem exportDone (s : State) (c m : Nat) : OnlyDrops s (exportDone s c m) := by
  unfold Machine.exportDone
  split
  · exact refl s
  · exact (of_filter (transfersOf_dropCartXfers (s.setCart c _) c)).trans (of_eq (notify_picker ..))

theorem importRejected (s : State) (mail label : Option Nat) (why : RejectReason) :
    OnlyDrops s (importRejected s mail label why) := of_eq (notify_picker ..)

end OnlyDrops

/-! ### The move, and what follows it -/

/-- The cartridge moved and its transfer dropped, before what its kind of transfer adds. -/
def moved (s : State) (t : Transfer) (src dst : Place) : State :=
  rebuildMoved (occupy (vacate (dropXfer s t.id) src) dst (carried s t src) t.face (mailOf s src)) src dst

section
variable (s : State) {t : Transfer} (src dst : Place)

theorem completeXfer_of_plain (he : t.kind ≠ .exportPut) (hr : t.kind ≠ .reject) (hi : t.kind ≠ .importTake) :
    completeXfer s t src dst = moved s t src dst := by
  unfold completeXfer
  cases hk : t.kind
  case exportPut => exact absurd hk he
  case reject => exact absurd hk hr
  case importTake => exact absurd hk hi
  all_goals rfl

theorem completeXfer_of_export {c m : Nat} (he : t.kind = .exportPut) (hc : carried s t src = .record c) :
    completeXfer s t src (.mail m) = exportDone (moved s t src (.mail m)) c m := by
  unfold completeXfer
  simp only [he, hc]
  rfl

theorem completeXfer_of_take {d : Nat} (hi : t.kind = .importTake) :
    completeXfer s t src (.drive d) = takeArrived (moved s t src (.drive d)) t src d := by
  unfold completeXfer
  simp only [hi]
  rfl

/-- A REJECT adds at most its IMPORT_REJECTED (R43). -/
theorem completeXfer_of_reject (hr : t.kind = .reject) :
    (completeXfer s t src dst).ret = (moved s t src dst).ret ∧ (completeXfer s t src dst).picker = (moved s t src dst).picker := by
  unfold completeXfer
  simp only [hr]
  split
  · exact ⟨notify_ret .., notify_picker ..⟩
  · exact ⟨rfl, rfl⟩

theorem completeXfer_onlyDrops : OnlyDrops (moved s t src dst) (completeXfer s t src dst) := by
  unfold completeXfer
  dsimp only
  split
  · exact OnlyDrops.exportDone _ _ _
  · split
    · exact OnlyDrops.importRejected _ _ _ _
    · exact OnlyDrops.refl _
  · exact OnlyDrops.takeArrived _ _ _ _
  · exact OnlyDrops.refl _

theorem transfersOf_moved : transfersOf (moved s t src dst) =
    ((transfersOf s).filter fun x => x.id != t.id).filter fun x => !(x.src == src && x.kind != .exportPut) := by
  calc transfersOf (moved s t src dst)
      = transfersOf (vacate (dropXfer s t.id) src) := transfersOf_occupy _ dst _ _ _
    _ = _ := by rw [transfersOf_vacate, transfersOf_dropXfer]

theorem transfers_after_completeXfer {x : Transfer} (h : x ∈ transfersOf (completeXfer s t src dst)) :
    x.id ≠ t.id ∧ (x.src = src → x.kind = .exportPut) := by
  have hm := completeXfer_onlyDrops s src dst h
  rw [transfersOf_moved, List.mem_filter, List.mem_filter] at hm
  obtain ⟨⟨-, hid⟩, hsrc⟩ := hm
  refine ⟨by simpa using hid, fun he => ?_⟩
  simpa [he] using hsrc

end

/-! ### The places -/

section
variable {s : State} (hs : TablesSized s)
include hs

theorem slot_setSlot_self {n : Nat} (h1 : 1 ≤ n) (hl : n ≤ 120) (e : Slot) : (s.setSlot n e).slot n = e := by
  obtain ⟨hslots, -⟩ := hs
  rw [State.slot_setSlot, if_pos ⟨rfl, h1, hslots ▸ hl⟩]

theorem tablesSized_drives : s.drives.length = 4 := by
  obtain ⟨-, -, -, -, -, -, -, hdrives, -⟩ := hs
  exact hdrives

theorem tablesSized_mails : s.picker.mails.length = 2 := by
  obtain ⟨-, -, -, -, -, -, -, -, hmails⟩ := hs
  exact hmails

theorem tablesSized_carts : s.ret.carts.length = 160 := by
  obtain ⟨-, hcarts, -⟩ := hs
  exact hcarts

end

theorem drive_beginMount {s : State} {d : Nat} (h1 : 1 ≤ d) (hl : d ≤ s.drives.length) :
    (beginMount s d).drive d = { s.drive d with state := .spinningUp, task := .spinUp, op := none } :=
  drive_modDrive_self h1 hl fun x => { x with state := .spinningUp, task := .spinUp, op := none }

theorem drive_cartridgeIn {s : State} {d : Nat} (h1 : 1 ≤ d) (hl : d ≤ s.drives.length) (he : (s.drive d).state = .empty)
    (occ : Occupant) (face : Face) (mail : Option Nat) :
    let x := (cartridgeIn s d occ face mail).drive d
    x.occ = occ ∧ x.face = some face ∧ x.state = .spinningUp ∧ x.task = .spinUp ∧ x.fromMail = mail := by
  dsimp only
  rw [cartridgeIn_of_empty he, drive_beginMount h1 (by simpa [State.modDrive] using hl), drive_modDrive_self h1 hl]
  exact ⟨rfl, rfl, rfl, rfl, rfl⟩

theorem bay_cartridgeIn {s : State} {d : Nat} (he : (s.drive d).state = .empty) (occ : Occupant) (face : Face)
    (mail : Option Nat) :
    (cartridgeIn s d occ face mail).bay.queue = s.bay.queue ++ [⟨d + 1, .load, .plain⟩, ⟨d + 1, .spinUp, .plain⟩] := by
  rw [cartridgeIn_of_empty he]
  exact List.append_assoc _ _ _

theorem cartridgeIn_ret (s : State) (d : Nat) (occ : Occupant) (face : Face) (mail : Option Nat) :
    (cartridgeIn s d occ face mail).ret = s.ret := by
  unfold cartridgeIn
  dsimp only
  split <;> rfl

theorem cartridgeOut_of_stopped {s : State} {d : Nat} (h1 : 1 ≤ d) (hl : d ≤ s.drives.length) (hst : (s.drive d).state = .stopped)
    (hsv : (s.drive d).service = .inService) :
    let x := (cartridgeOut s d).drive d
    x.occ = .empty ∧ x.face = none ∧ x.dir = [] ∧ x.ejected = false ∧ x.state = .empty := by
  have hx : (cartridgeOut s d).drive d = _ := drive_modDrive_self h1 hl _
  simp only [hst, hsv] at hx
  dsimp only
  rw [hx]
  exact ⟨rfl, rfl, rfl, rfl, rfl⟩

theorem slot_cartridgeIn (s : State) (d : Nat) (occ : Occupant) (face : Face) (mail : Option Nat) (n : Nat) :
    (cartridgeIn s d occ face mail).slot n = s.slot n := by
  unfold State.slot
  rw [cartridgeIn_ret]

theorem mail_cartridgeIn (s : State) (d : Nat) (occ : Occupant) (face : Face) (mail : Option Nat) (m : Nat) :
    (cartridgeIn s d occ face mail).mail m = s.mail m := by
  unfold State.mail
  rw [cartridgeIn_picker]

theorem modMail_drives (s : State) (m : Nat) (f : Mail → Mail) : (modMail s m f).drives = s.drives := by
  unfold modMail
  dsimp only
  split
  · rfl
  · exact notify_drives ..

/-- An INSPECT item that follows its cartridge changes neither the drives nor the picker but for transfers it drops (R40). -/
theorem followTake_drives (s : State) (src : Place) (d : Nat) : (followTake s src d).drives = s.drives := by
  have hback : ∀ id, (returnItem s id).drives = s.drives := fun id => by
    unfold returnItem
    split
    · have hw : (withdrawClaims s id).drives = s.drives := by
        unfold withdrawClaims
        refine foldl_keeps _ State.drives (fun _ _ => ?_) _ s
        rfl
      exact hw
    · rfl
  unfold followTake
  cases src with
  | mail m =>
    dsimp only
    split
    · exact hback _
    · rfl
  | slot _ | drive _ | gripper => rfl

theorem followTake_workOnly (s : State) (src : Place) (d : Nat) : WorkOnly s (followTake s src d) := by
  unfold followTake
  cases src with
  | mail m =>
    dsimp only
    split
    · exact (WorkOnly.returnItem s _).trans (WorkOnly.setWork _ _ _ _ _ _)
    · exact WorkOnly.refl s
  | slot _ | drive _ | gripper => exact WorkOnly.refl s

/-! ### Each kind of transfer -/

section
variable {s : State} {t : Transfer} (hs : TablesSized s)
include hs

theorem completeXfer_mount {n d : Nat} (hn : 1 ≤ n) (hn' : n ≤ 120) (hd : 1 ≤ d) (hd' : d ≤ 4) (hk : t.kind = .mount)
    (he : (s.drive d).state = .empty) :
    let u := completeXfer s t (.slot n) (.drive d)
    u.slot n = ⟨.empty, (s.slot n).disabled⟩ ∧ (u.drive d).occ = carried s t (.slot n) ∧ (u.drive d).face = some t.face ∧
      (u.drive d).state = .spinningUp ∧ (u.drive d).task = .spinUp ∧
      u.bay.queue = s.bay.queue ++ [⟨d + 1, .load, .plain⟩, ⟨d + 1, .spinUp, .plain⟩] := by
  dsimp only
  rw [completeXfer_of_plain s _ _ (by simp [hk]) (by simp [hk]) (by simp [hk])]
  let v := vacate (dropXfer s t.id) (.slot n)
  obtain ⟨hocc, hface, hstate, htask, -⟩ := drive_cartridgeIn (s := v) hd ((tablesSized_drives hs).symm ▸ hd') he
    (carried s t (.slot n)) t.face none
  exact ⟨(slot_cartridgeIn v d _ _ _ n).trans (slot_setSlot_self hs hn hn' _), hocc, hface, hstate, htask,
    bay_cartridgeIn (s := v) he _ _ _⟩

theorem completeXfer_importTake {m d : Nat} (hm : m = 1 ∨ m = 2) (hd : 1 ≤ d) (hd' : d ≤ 4) (hk : t.kind = .importTake)
    (he : (s.drive d).state = .empty) :
    let u := completeXfer s t (.mail m) (.drive d)
    (u.mail m).state = .empty ∧ (u.mail m).occ = .empty ∧ (u.drive d).occ = carried s t (.mail m) ∧
      (u.drive d).fromMail = some m ∧ (u.drive d).state = .spinningUp := by
  let v := vacate (dropXfer s t.id) (.mail m)
  have hdrives : v.drives = s.drives := modMail_drives (dropFrom (dropXfer s t.id) (.mail m)) m _
  have hv : (v.drive d).state = .empty := by
    unfold State.drive
    rw [hdrives]
    exact he
  have hmail : v.mail m = { s.mail m with state := .empty, occ := .empty } :=
    mail_modMail (s := dropFrom (dropXfer s t.id) (.mail m)) (by omega) ((tablesSized_mails hs).symm ▸ by omega) _
  obtain ⟨hocc, -, hstate, -, hfrom⟩ := drive_cartridgeIn (s := v) hd (by rw [hdrives, tablesSized_drives hs]; exact hd') hv
    (carried s t (.mail m)) t.face (some m)
  let w := moved s t (.mail m) (.drive d)
  have hw : w.mail m = v.mail m := mail_cartridgeIn v d _ _ _ m
  have harrived : completeXfer s t (.mail m) (.drive d) = followTake w (.mail m) d :=
    (completeXfer_of_take s _ hk).trans (if_neg (not_not_intro hstate))
  have hdrive : (followTake w (.mail m) d).drive d = w.drive d := by
    unfold State.drive
    rw [followTake_drives]
  dsimp only
  rw [harrived, (followTake_workOnly w (.mail m) d).mail m, hdrive, hw, hmail]
  exact ⟨rfl, rfl, hocc, hfrom, hstate⟩

theorem completeXfer_home {n d : Nat} (hn : 1 ≤ n) (hn' : n ≤ 120) (hd : 1 ≤ d) (hd' : d ≤ 4)
    (hk : t.kind = .dismount ∨ t.kind = .ret) (hst : (s.drive d).state = .stopped) (hsv : (s.drive d).service = .inService) :
    let u := completeXfer s t (.drive d) (.slot n)
    u.slot n = ⟨carried s t (.drive d), (s.slot n).disabled⟩ ∧ (u.drive d).occ = .empty ∧ (u.drive d).face = none ∧
      (u.drive d).dir = [] ∧ (u.drive d).ejected = false ∧ (u.drive d).state = .empty := by
  dsimp only
  rw [completeXfer_of_plain s _ _ (by rcases hk with h | h <;> simp [h]) (by rcases hk with h | h <;> simp [h])
    (by rcases hk with h | h <;> simp [h])]
  exact ⟨slot_setSlot_self hs hn hn' _,
    cartridgeOut_of_stopped (s := dropFrom (dropXfer s t.id) (.drive d)) hd ((tablesSized_drives hs).symm ▸ hd') hst hsv⟩

/-- The slot is empty and the mail slot LOADED_OUT once a cartridge was moved from the one to the other. -/
theorem moved_to_mail {n m : Nat} (hn : 1 ≤ n) (hn' : n ≤ 120) (hm : m = 1 ∨ m = 2) :
    let u := moved s t (.slot n) (.mail m)
    (u.slot n).occ = .empty ∧ (u.mail m).state = .loadedOut ∧ (u.mail m).occ = .unrecorded := by
  let v := vacate (dropXfer s t.id) (.slot n)
  let w := modMail v m fun x => { x with state := .loadedOut, occ := .unrecorded }
  have hmail : w.mail m = { s.mail m with state := .loadedOut, occ := .unrecorded } :=
    mail_modMail (s := v) (by omega) ((tablesSized_mails hs).symm ▸ by omega) _
  have hslot : w.slot n = { s.slot n with occ := .empty } := by
    unfold State.slot
    rw [ret_modMail]
    exact slot_setSlot_self hs hn hn' _
  refine ⟨congrArg Slot.occ hslot, congrArg Mail.state hmail, congrArg Mail.occ hmail⟩

theorem completeXfer_reject {n m : Nat} (hn : 1 ≤ n) (hn' : n ≤ 120) (hm : m = 1 ∨ m = 2) (hk : t.kind = .reject) :
    let u := completeXfer s t (.slot n) (.mail m)
    (u.slot n).occ = .empty ∧ (u.mail m).state = .loadedOut ∧ (u.mail m).occ = .unrecorded := by
  obtain ⟨hret, hpicker⟩ := completeXfer_of_reject s (.slot n) (.mail m) hk
  have hmoved := moved_to_mail (t := t) hs hn hn' hm
  dsimp only
  unfold State.slot State.mail
  rw [hret, hpicker]
  exact hmoved

end

/-! ### An EXPORT_PUT (R44, R53, R197) -/

/-- The record withdrawn, its transfers and its pending EXPORT dropped, and its sides off the Label-Failed List. -/
def withdrawnRecord (s : State) (c : Nat) (k : Cart) : State :=
  { dropCartXfers (s.setCart c (some { k with state := .withdrawn, home := none })) c with
    labelFailed := s.labelFailed.filter fun n => sideCart n != c }

theorem exportDone_of_cart {s : State} {c : Nat} {k : Cart} (h : s.cart c = some k) (m : Nat) :
    exportDone s c m = notify (withdrawnRecord s c k) .exported
      ((s.picker.exportPending.find? fun x => x.cart == c).map fun x => (x.tag, x.station))
      (be 4 k.label ++ optNum 1 k.home ++ be 1 m) := by
  unfold exportDone
  rw [h]
  rfl

/-- The record of an EXPORT_PUT leaves the library: its entry, its pending EXPORT, its transfers and its sides' place on the
Label-Failed List. -/
theorem exportDone_withdraws {s : State} {c m : Nat} {k : Cart} (hc : 1 ≤ c) (hc' : c ≤ s.ret.carts.length)
    (h : s.cart c = some k) :
    let u := exportDone s c m
    u.cart c = some { k with state := .withdrawn, home := none } ∧ (∀ e ∈ u.picker.exportPending, e.cart ≠ c) ∧
      (∀ x ∈ u.picker.queue ++ u.picker.deferred, x.cart ≠ some c) ∧ ∀ i ∈ u.labelFailed, sideCart i ≠ c := by
  dsimp only
  rw [exportDone_of_cart h]
  unfold State.cart
  rw [notify_ret, notify_picker, notify_labelFailed]
  refine ⟨(State.cart_setCart s c c _).trans (if_pos ⟨rfl, hc, hc'⟩), fun e he => ?_, fun x hx => ?_, fun i hi => ?_⟩
  · simpa using (List.mem_filter.1 he).2
  · have hx' : x ∈ transfersOf (dropCartXfers s c) := hx
    rw [transfersOf_dropCartXfers] at hx'
    simpa using (List.mem_filter.1 hx').2
  · simpa using (List.mem_filter.1 hi).2

theorem exportDone_keeps (s : State) (c m : Nat) :
    (exportDone s c m).ret.slots = s.ret.slots ∧ (exportDone s c m).picker.mails = s.picker.mails := by
  cases h : s.cart c with
  | none =>
    unfold exportDone
    rw [h]
    exact ⟨rfl, rfl⟩
  | some k =>
    rw [exportDone_of_cart h, notify_ret, notify_picker]
    exact ⟨rfl, rfl⟩

theorem completeXfer_exportPut {s : State} {t : Transfer} (hs : TablesSized s) {n m c : Nat} {k : Cart} (hn : 1 ≤ n)
    (hn' : n ≤ 120) (hm : m = 1 ∨ m = 2) (hc : 1 ≤ c) (hc' : c ≤ 160) (hk : t.kind = .exportPut)
    (ho : (s.slot n).occ = .record c) (hcart : s.cart c = some k) :
    let u := completeXfer s t (.slot n) (.mail m)
    u.cart c = some { k with state := .withdrawn, home := none } ∧ (u.slot n).occ = .empty ∧
      (u.mail m).state = .loadedOut ∧ (u.mail m).occ = .unrecorded ∧ (∀ e ∈ u.picker.exportPending, e.cart ≠ c) ∧
      (∀ x ∈ u.picker.queue ++ u.picker.deferred, x.cart ≠ some c) ∧ (∀ i ∈ u.labelFailed, sideCart i ≠ c) ∧
      (noticeCount s < 31 → (.notice ⟨.exported, (s.picker.exportPending.find? fun x => x.cart == c).map fun x =>
        (x.tag, x.station), be 4 k.label ++ optNum 1 k.home ++ be 1 m⟩ : ControlFrame) ∈ u.control) := by
  let w := moved s t (.slot n) (.mail m)
  let v := vacate (dropXfer s t.id) (.slot n)
  have hdone : completeXfer s t (.slot n) (.mail m) = exportDone w c m :=
    completeXfer_of_export s _ hk ((carried_of_occupied (src := .slot n) (by rw [placeOcc, ho]; nofun)).trans ho)
  have hcarts : w.ret.carts = s.ret.carts := (congrArg Retained.carts (ret_modMail v m _)).trans rfl
  have hcart' : w.cart c = some k := by
    unfold State.cart
    rw [hcarts]
    exact hcart
  have hpending : w.picker.exportPending = s.picker.exportPending :=
    (congrArg Picker.exportPending (modMail_picker v m _)).trans rfl
  have hroom : noticeCount w ≤ noticeCount s + 1 := noticeCount_modMail_le v m _
  obtain ⟨hslot, hstate, hocc⟩ := moved_to_mail (t := t) hs hn hn' hm
  obtain ⟨hentry, hexports, htransfers, hlabels⟩ :=
    exportDone_withdraws (m := m) hc (by rw [hcarts, tablesSized_carts hs]; exact hc') hcart'
  obtain ⟨hslots, hmails⟩ := exportDone_keeps w c m
  dsimp only
  rw [hdone]
  refine ⟨hentry, ?_, ?_, ?_, hexports, htransfers, hlabels, fun h => ?_⟩
  · unfold State.slot
    rw [hslots]
    exact hslot
  · unfold State.mail
    rw [hmails]
    exact hstate
  · unfold State.mail
    rw [hmails]
    exact hocc
  · rw [exportDone_of_cart hcart', hpending]
    exact mem_control_notify (s := withdrawnRecord w c k) (show noticeCount w < 32 by omega) _ _ _

theorem transferMovesTheCartridge : TransferMovesTheCartridge := fun s _ hs =>
  ⟨fun src dst _ hx => transfers_after_completeXfer s src dst hx,
    fun _ _ hn hn' hd hd' hk he => completeXfer_mount hs hn hn' hd hd' hk he,
    fun _ _ hm hd hd' hk he => completeXfer_importTake hs hm hd hd' hk he,
    fun _ _ hn hn' hd hd' hk hst hsv => completeXfer_home hs hn hn' hd hd' hk hst hsv,
    fun _ _ _ _ hn hn' hm hc hc' hk ho hcart => completeXfer_exportPut hs hn hn' hm hc hc' hk ho hcart,
    fun _ _ hn hn' hm hk => completeXfer_reject hs hn hn' hm hk⟩

/-- Settles O48. -/
theorem transferCompletes : Obligations.TransferCompletes := ⟨carriedIsTheOccupant, transferMovesTheCartridge⟩

end Sys2Proof.Machine
end

section
/-! PROOFS. Drive faults: what a burst comes to, what the fault leaves alone, its notice and a stuck cartridge (R63, R64, R66,
R104, R121, R125, R126, R183). -/

namespace Sys2Proof.Machine

/-! ### The burst at its drive's fault -/

/-- A page that the fault left in the burst is unread again. -/
theorem unname_pages (f : Fetch) (c : Nat) :
    (f.unname c).pages = f.pages.map fun p => if p.claim = c ∧ p.outcome = .inBurst then ⟨p.page, .unread, 0, []⟩ else p := rfl

theorem freeOf_foldl_fetches (id : Nat) (blocks : Nat → List Nat) (l : List Nat) (s : State) :
    (l.foldl (fun s p => freeOf s id (blocks p)) s).fetches = s.fetches :=
  foldl_keeps (fun s p => freeOf s id (blocks p)) State.fetches (fun _ _ => rfl) l s

/-- The pages that a faulted burst has not wholly read. -/
def ReadBurst.unread (b : ReadBurst) : List Nat := (b.run ++ b.rest).map ReadCell.page ++ b.bad.map Prod.fst

theorem mem_unread_iff (b : ReadBurst) (n : Nat) :
    n ∈ b.unread ↔ (∃ e ∈ b.run ++ b.rest, e.page = n) ∨ ∃ e ∈ b.bad, e.1 = n := by
  unfold ReadBurst.unread
  rw [List.mem_append, List.mem_map, List.mem_map]

/-- A faulted burst settles the pages it read as the end of a burst does, and gives the others up. -/
theorem fetchBurstFault_findFetch {s : State} {id : Nat} {b : ReadBurst} {f : Fetch} {c : Claim}
    (hf : (s.fetches.find? fun f => f.item == some id) = some f) (hc : s.findClaim b.claim = some c) :
    (fetchBurstFault s id b).findFetch f.seq =
      (((c.pageList.filter fun p => !b.unread.contains p).foldl (fun s p => settleFetchPage s f c [] p) s).findFetch f.seq).map
        (Fetch.unname · c.id) := by
  unfold fetchBurstFault
  rw [hf, hc]
  dsimp only
  rw [findFetch_modFetch _ _ (f := (Fetch.unname · c.id)) fun _ => rfl]
  unfold State.findFetch
  rw [freeOf_foldl_fetches]
  rfl

theorem fetchFaultStagesWhatWasRead {s : State} {id : Nat} {b : ReadBurst} {f g : Fetch} {c : Claim}
    (hf : (s.fetches.find? fun f => f.item == some id) = some f) (hc : s.findClaim b.claim = some c)
    (hfound : s.findFetch f.seq = some f) (hnodup : (f.pages.map FetchPage.page).Nodup)
    (hlisted : ∀ p ∈ f.pages, p.claim = c.id → p.outcome = .inBurst → p.page ∈ c.pageList)
    (hg : (fetchBurstFault s id b).findFetch f.seq = some g) :
    g.pages = f.pages.map fun p =>
      if p.outcome = .inBurst ∧ p.claim = c.id then
        (if (∃ e ∈ b.run ++ b.rest, e.page = p.page) ∨ (∃ e ∈ b.bad, e.1 = p.page) then ⟨p.page, .unread, 0, []⟩
          else ⟨p.page, .staged, c.id, c.pageBlocks p.page⟩)
      else p := by
  obtain ⟨g', hg', hpages⟩ := pages_foldl_settleFetchPage f c [] (c.pageList.filter fun p => !b.unread.contains p) s f hfound
  rw [fetchBurstFault_findFetch hf hc, hg', Option.map_some, Option.some.injEq] at hg
  rw [← hg, unname_pages, hpages, List.map_map]
  refine List.map_congr_left fun p hp => ?_
  rw [Function.comp_apply]
  have hnamed : namedTo f c p.page ↔ p.outcome = .inBurst ∧ p.claim = c.id := by
    refine ⟨fun ⟨q, hq, hpage, hclaim, hout⟩ => ?_, fun ⟨hout, hclaim⟩ => ⟨p, hp, rfl, hclaim, hout⟩⟩
    rw [← List.inj_on_of_nodup_map hnodup hq hp hpage]
    exact ⟨hout, hclaim⟩
  have hread : p.page ∈ (c.pageList.filter fun p => !b.unread.contains p) ↔ p.page ∈ c.pageList ∧ p.page ∉ b.unread := by
    simp [List.mem_filter]
  simp only [← mem_unread_iff, hread, hnamed]
  by_cases h : p.outcome = .inBurst ∧ p.claim = c.id
  · obtain ⟨hout, hclaim⟩ := h
    by_cases hu : p.page ∈ b.unread
    · simp [hout, hclaim, hu]
    · simp [hout, hclaim, hu, hlisted p hp hclaim hout, settledPage]
  · simp only [h, and_false, if_false]
    exact if_neg fun hx => h hx.symm

theorem writeBurstFault_of_cancel {s : State} {b : WriteBurst} {f : Filing} (hf : s.findFiling b.ref = some f)
    (hc : f.cancelPending = true) : writeBurstFault s b = removeFiling s b.ref := by
  unfold writeBurstFault
  rw [hf]
  exact if_pos hc

theorem writeBurstFault_of_no_cancel {s : State} {b : WriteBurst} {f : Filing} (hf : s.findFiling b.ref = some f)
    (hc : f.cancelPending = false) : writeBurstFault s b = s.modFiling b.ref fun x => { x with progress := b.settled } := by
  unfold writeBurstFault
  rw [hf]
  exact if_neg (by simp [hc])

theorem settled_of_not_verify {b : WriteBurst} (h : b.pass ≠ .verify) : b.settled = b.lo := by
  unfold WriteBurst.settled
  split
  · next hv => exact absurd hv h
  · rfl

theorem settled_of_verify {b : WriteBurst} (h : b.pass = .verify) (hr : b.relocate = none) : b.settled = b.next := by
  simp [WriteBurst.settled, h, hr]

theorem commitBurstFault_of_assigned {s : State} {b : CommitBurst} (h : (s.side b.side).state ≠ .blank) :
    commitBurstFault s b = (s.setSide b.side { s.side b.side with slotsUsed := (s.side b.side).slotsUsed + 1 }).modFiling b.ref
      fun x => { x with state := .writing } := by
  unfold commitBurstFault countSlot
  rw [if_neg h]

theorem faultEndsTheBurst : FaultEndsTheBurst := by
  refine ⟨fun s id b f c hf hc hfound _ hnodup hlisted g hg => fetchFaultStagesWhatWasRead hf hc hfound hnodup hlisted hg,
    fun s b f hf => ⟨writeBurstFault_of_cancel hf, fun hc => ⟨fun hv => ?_, fun hv hr => ?_⟩⟩,
    fun s b => commitBurstFault_of_assigned⟩
  · rw [writeBurstFault_of_no_cancel hf hc, settled_of_not_verify hv]
  · rw [writeBurstFault_of_no_cancel hf hc, settled_of_verify hv hr]

/-! ### What the fault leaves alone -/

/-- A drive but for what the end of its work asks of it. -/
def Drive.settled (x : Drive) : Drive := { x with chainAsk := false, found := false }

/-- The drives keep their cartridges, their states and their tasks, the Bay Link its queue and the machine its mode. -/
structure DrivesStay (s t : State) : Prop where
  mode : t.mode = s.mode
  queue : t.bay.queue = s.bay.queue
  drives : t.drives.length = s.drives.length
  drive : ∀ k, (t.drive k).settled = (s.drive k).settled

/-- So, and no notice is placed. -/
structure SilentStay (s t : State) : Prop extends DrivesStay s t where
  control : t.control = s.control

namespace DrivesStay

theorem refl (s : State) : DrivesStay s s := ⟨rfl, rfl, rfl, fun _ => rfl⟩

theorem trans {a b c : State} (h : DrivesStay a b) (k : DrivesStay b c) : DrivesStay a c :=
  ⟨k.mode.trans h.mode, k.queue.trans h.queue, k.drives.trans h.drives, fun d => (k.drive d).trans (h.drive d)⟩

theorem foldl {α : Type} {f : State → α → State} (hf : ∀ s x, DrivesStay s (f s x)) :
    ∀ (l : List α) (s : State), DrivesStay s (l.foldl f s)
  | [], s => refl s
  | x :: xs, s => (hf s x).trans (foldl hf xs (f s x))

theorem notify (s : State) (k : NoticeKind) (a : Option (Word16 × Nat)) (b : List Byte) : DrivesStay s (notify s k a b) := by
  unfold Machine.notify
  split <;> exact ⟨rfl, rfl, rfl, fun _ => rfl⟩

end DrivesStay

namespace SilentStay

theorem refl (s : State) : SilentStay s s := ⟨.refl s, rfl⟩

theorem trans {a b c : State} (h : SilentStay a b) (k : SilentStay b c) : SilentStay a c :=
  ⟨h.toDrivesStay.trans k.toDrivesStay, k.control.trans h.control⟩

theorem foldl {α : Type} {f : State → α → State} (hf : ∀ s x, SilentStay s (f s x)) :
    ∀ (l : List α) (s : State), SilentStay s (l.foldl f s)
  | [], s => refl s
  | x :: xs, s => (hf s x).trans (foldl hf xs (f s x))

/-- What changes neither the drives nor the Bay Link nor the control queue. -/
theorem of_eq {s t : State} (hm : t.mode = s.mode) (hb : t.bay = s.bay) (hd : t.drives = s.drives) (hc : t.control = s.control) : SilentStay s t := by
  refine ⟨⟨hm, by rw [hb], by rw [hd], fun k => ?_⟩, hc⟩
  unfold State.drive
  rw [hd]

theorem modDrive (s : State) (d : Nat) {f : Drive → Drive} (hf : ∀ x, (f x).settled = x.settled) : SilentStay s (s.modDrive d f) :=
  ⟨⟨rfl, rfl, tset_length _ _ _, fun k => drive_modDrive_keeps s d k Drive.settled hf⟩, rfl⟩

/-! #### Items and claims -/

theorem withdrawClaims (s : State) (id : Nat) : SilentStay s (withdrawClaims s id) := by
  unfold Machine.withdrawClaims
  refine foldl (fun _ _ => ?_) _ s
  exact of_eq rfl rfl rfl rfl

theorem dropItemTransfers (s : State) (id : Nat) : SilentStay s (dropItemTransfers s id) := of_eq rfl rfl rfl rfl

theorem freeClaim (s : State) (claim : Nat) (l : List Nat) : SilentStay s (freeOf s claim l) := of_eq rfl rfl rfl rfl

theorem freeDrive (s : State) (d : Option Nat) : SilentStay s (freeDrive s d) := by
  cases d with
  | none => exact refl s
  | some d => exact modDrive s d (f := fun x => { x with chainAsk := true }) fun _ => rfl

theorem removeItem (s : State) (id : Nat) : SilentStay s (removeItem s id) := by
  unfold Machine.removeItem
  split
  · exact (of_eq rfl rfl rfl rfl : SilentStay s { s with work := s.work.filter fun x => x.id != id }).trans (freeDrive _ _)
  · exact refl s

theorem endItem (s : State) (id : Nat) : SilentStay s (endItem s id) := by
  unfold Machine.endItem
  split
  · split
    · exact of_eq rfl rfl rfl rfl
    · exact ((withdrawClaims s id).trans (dropItemTransfers _ id)).trans (removeItem _ id)
  · exact refl s

theorem endItemOpt (s : State) (id : Option Nat) : SilentStay s (endItemOpt s id) := by
  cases id with
  | none => exact refl s
  | some id => exact endItem s id

theorem returnItem (s : State) (id : Nat) : SilentStay s (returnItem s id) := by
  unfold Machine.returnItem
  split
  · exact (withdrawClaims s id).trans (of_eq rfl rfl rfl rfl)
  · exact refl s

theorem finishItem (s : State) (id : Nat) : SilentStay s (finishItem s id) :=
  (removeItem s id).trans (of_eq rfl rfl rfl rfl)

/-! #### Filings -/

theorem setTarget (s : State) (f : Filing) (n : Option Nat) : SilentStay s (setTarget s f n) := by
  unfold Machine.setTarget
  dsimp only
  split <;> exact of_eq rfl rfl rfl rfl

theorem clearMarker (s : State) (ref : Word32) : SilentStay s (clearMarker s ref) := by
  unfold Machine.clearMarker
  split
  · split
    · exact of_eq rfl rfl rfl rfl
    · exact refl s
  · exact refl s

theorem removeFiling (s : State) (ref : Word32) : SilentStay s (removeFiling s ref) := by
  have hclaim : SilentStay s (freeFilingClaim (Machine.endItemOpt s ((s.findFiling ref).bind Filing.item)) ref) :=
    (endItemOpt s _).trans (of_eq rfl rfl rfl rfl)
  exact (hclaim.trans (clearMarker _ ref)).trans (of_eq rfl rfl rfl rfl)

/-! #### Bursts -/

theorem settleFetchPage (s : State) (f : Fetch) (c : Claim) (page : Nat) : SilentStay s (settleFetchPage s f c [] page) := by
  unfold Machine.settleFetchPage
  dsimp only
  split <;> exact of_eq rfl rfl rfl rfl

theorem settleCopyPage (s : State) (n : Nat) (c : Claim) (page : Nat) : SilentStay s (settleCopyPage s n c [] page) := by
  unfold Machine.settleCopyPage
  dsimp only
  split
  · exact of_eq rfl rfl rfl rfl
  · split <;> exact of_eq rfl rfl rfl rfl

theorem fetchBurstFault (s : State) (id : Nat) (b : ReadBurst) : SilentStay s (fetchBurstFault s id b) := by
  unfold Machine.fetchBurstFault
  split
  · next f c _ _ =>
    exact ((foldl (fun s p => settleFetchPage s f c p) _ s).trans (foldl (fun s p => freeClaim s c.id (c.pageBlocks p)) _ _)).trans
      (of_eq rfl rfl rfl rfl)
  · exact of_eq rfl rfl rfl rfl

theorem copyBurstFault (s : State) (id : Nat) (b : ReadBurst) : SilentStay s (copyBurstFault s id b) := by
  unfold Machine.copyBurstFault
  split
  · next o c _ _ =>
    exact ((foldl (fun s p => settleCopyPage s o.number c p) _ s).trans (foldl (fun s p => freeClaim s c.id (c.pageBlocks p)) _ _)).trans
      (of_eq rfl rfl rfl rfl)
  · exact of_eq rfl rfl rfl rfl

theorem writeBurstFault (s : State) (b : WriteBurst) : SilentStay s (writeBurstFault s b) := by
  unfold Machine.writeBurstFault
  split
  · exact refl s
  · split
    · exact removeFiling s _
    · exact of_eq rfl rfl rfl rfl

theorem commitBurstFault (s : State) (b : CommitBurst) : SilentStay s (commitBurstFault s b) := by
  unfold Machine.commitBurstFault countSlot
  split <;> exact of_eq rfl rfl rfl rfl

theorem faultBurst (s : State) (t : Task) : SilentStay s (faultBurst s t) := by
  unfold Machine.faultBurst
  split
  case h_1 b =>
    split
    · next i _ =>
      split
      · exact of_eq rfl rfl rfl rfl
      · unfold readBurstFault
        split
        · exact fetchBurstFault s _ b
        · exact copyBurstFault s _ b
        all_goals exact of_eq rfl rfl rfl rfl
    · exact of_eq rfl rfl rfl rfl
  case h_2 => exact writeBurstFault s _
  case h_3 => exact commitBurstFault s _
  case h_4 => exact refl s

/-! #### The drive's work -/

theorem loseOpening (s : State) (d : Nat) : SilentStay s (loseOpening s d) := by
  unfold Machine.loseOpening loseTarget
  dsimp only
  split
  · split
    · split
      · exact setTarget s _ none
      · exact refl s
    · exact refl s
  · exact refl s

theorem loseChosen (s : State) (r : Word32) : SilentStay s (loseChosen s r) := by
  unfold Machine.loseChosen
  split
  · exact setTarget s _ none
  · exact refl s

theorem faultHolder (s : State) (d : Nat) : SilentStay s (faultHolder s d) := by
  unfold Machine.faultHolder
  split
  · exact loseOpening s d
  · next i _ =>
    split
    · exact finishItem s _
    · split
      · exact endItem s _
      · dsimp only
        split
        · split
          · exact (loseChosen s _).trans (returnItem _ _)
          · exact returnItem s _
        · exact returnItem s _

theorem faultInspect (s : State) (d : Nat) : SilentStay s (faultInspect s d) := by
  unfold Machine.faultInspect
  split
  · exact endItemOpt s _
  · exact refl s

theorem dropMountsInto (s : State) (d : Nat) : SilentStay s (dropMountsInto s d) := by
  unfold Machine.dropMountsInto
  refine SilentStay.trans (b := s.modPicker _) (of_eq rfl rfl rfl rfl) (foldl (fun _ _ => ?_) _ _)
  exact of_eq rfl rfl rfl rfl

end SilentStay

/-! ### The fault itself -/

namespace DrivesStay

theorem faultImport (s : State) (d : Nat) : DrivesStay s (faultImport s d) := by
  unfold Machine.faultImport
  dsimp only
  split
  · exact (notify s _ _ _).trans (SilentStay.modDrive _ d (f := fun y => { y with found := true }) fun _ => rfl).toDrivesStay
  · exact refl s

end DrivesStay

theorem faultImport_of_no_unrecorded {s : State} {d : Nat} (h : (s.drive d).occ ≠ .unrecorded) : faultImport s d = s :=
  if_neg fun hx => h hx.1

/-- The queued commands and the drive's work are gone, before the drive itself is faulted. -/
def faultCleared (s : State) (d : Nat) : State :=
  dropMountsInto (faultImport (faultInspect (faultHolder (faultBurst (dropQueued s (driveAddr d)) (s.drive d).task) d) d) d) d

/-- A drive that goes FAULTED. -/
def Drive.asFaulted (x : Drive) (why : DriveFault) : Drive :=
  { x with state := .faulted, task := .idle, op := none, idleOn := false, spinLimit := false, fault := some why,
           service := if x.service = .leaving then .inService else x.service, chainAsk := false, spinDue := false,
           toEject := false, chan := [] }

/-- The drive faulted, before its cartridge is ejected or DRIVE_FAULT is reported. -/
def faulted (s : State) (d : Nat) (why : DriveFault) : State := (faultCleared s d).modDrive d (Drive.asFaulted · why)

section
variable {s : State} {d : Nat} (hf : (s.drive d).state ≠ .faulted) (ho : (s.drive d).state ≠ .outOfService) (why : DriveFault)
include hf ho

theorem driveFault_of_cartridge (hc : (s.drive d).occ ≠ .empty) (he : (s.drive d).ejected = false) :
    driveFault s d why = beginEject (faulted s d why) d .fault := (if_neg fun h => h.elim hf ho).trans (if_pos ⟨hc, he⟩)

theorem driveFault_of_no_cartridge (h : (s.drive d).occ = .empty ∨ (s.drive d).ejected = true) :
    driveFault s d why = driveFaultNotice (faulted s d why) d := by
  refine (if_neg fun h => h.elim hf ho).trans (if_neg ?_)
  rintro ⟨hc, he⟩
  rcases h with h | h
  · exact hc h
  · exact Bool.noConfusion (he.symm.trans h)

end

theorem faultCleared_upToImport (s : State) (d : Nat) :
    SilentStay (dropQueued s (driveAddr d)) (faultInspect (faultHolder (faultBurst (dropQueued s (driveAddr d)) (s.drive d).task) d) d) :=
  ((SilentStay.faultBurst _ _).trans (SilentStay.faultHolder _ d)).trans (SilentStay.faultInspect _ d)

theorem faultCleared_stays (s : State) (d : Nat) : DrivesStay (dropQueued s (driveAddr d)) (faultCleared s d) :=
  ((faultCleared_upToImport s d).toDrivesStay.trans (DrivesStay.faultImport _ d)).trans (SilentStay.dropMountsInto _ d).toDrivesStay

theorem fields_of_settled {x y : Drive} (h : y.settled = x.settled) :
    y.occ = x.occ ∧ y.face = x.face ∧ y.service = x.service ∧ y.ejected = x.ejected ∧ y.task = x.task :=
  ⟨show y.settled.occ = x.settled.occ by rw [h], show y.settled.face = x.settled.face by rw [h],
    show y.settled.service = x.settled.service by rw [h], show y.settled.ejected = x.settled.ejected by rw [h],
    show y.settled.task = x.settled.task by rw [h]⟩

/-- No notice is placed where the drive holds no cartridge. -/
theorem faultCleared_control {s : State} {d : Nat} (h : (s.drive d).occ = .empty) : (faultCleared s d).control = s.control := by
  have hup := faultCleared_upToImport s d
  obtain ⟨hocc, -⟩ := fields_of_settled (hup.drive d)
  unfold faultCleared
  rw [faultImport_of_no_unrecorded (by rw [hocc]; intro hu; cases hu.symm.trans h)]
  exact (hup.trans (SilentStay.dropMountsInto _ d)).control

section
variable {s : State} {d : Nat} (hd : s.drives.length = 4) (h1 : 1 ≤ d) (h4 : d ≤ 4) (why : DriveFault)
include hd h1 h4

theorem drive_faulted : (faulted s d why).drive d = ((faultCleared s d).drive d).asFaulted why := by
  refine drive_modDrive_self h1 ?_ _
  rw [(faultCleared_stays s d).drives]
  exact hd.symm ▸ h4

theorem fields_of_faulted {y : Drive} (hy : y = (faulted s d why).drive d) :
    y.state = .faulted ∧ y.fault = some why ∧ y.idleOn = false ∧ y.spinLimit = false ∧
      y.service = (if (s.drive d).service = .leaving then .inService else (s.drive d).service) ∧ y.task = .idle ∧
      y.occ = (s.drive d).occ ∧ y.face = (s.drive d).face := by
  obtain ⟨hocc, hface, hservice, -, -⟩ := fields_of_settled ((faultCleared_stays s d).drive d)
  rw [hy, drive_faulted hd h1 h4]
  refine ⟨rfl, rfl, rfl, rfl, ?_, rfl, hocc, hface⟩
  rw [← show ((faultCleared s d).drive d).service = (s.drive d).service from hservice]
  rfl

theorem drive_beginEject (w : EjectWhy) : (beginEject (faulted s d why) d w).drive d =
    { (faulted s d why).drive d with
      task := .eject w, op := none, chan := channelFor (faulted s d why) (.eject w) .eject } := by
  refine drive_modDrive_self (s := faulted s d why) h1 ?_ fun x =>
    { x with task := .eject w, op := none, chan := channelFor (faulted s d why) (.eject w) .eject }
  rw [show (faulted s d why).drives.length = (faultCleared s d).drives.length from tset_length _ _ _,
    (faultCleared_stays s d).drives]
  exact hd.symm ▸ h4

end

theorem queue_faulted (s : State) (d : Nat) (why : DriveFault) :
    (faulted s d why).bay.queue = s.bay.queue.filter fun e => e.module != d + 1 := (faultCleared_stays s d).queue

theorem driveFaultNotice_stays (s : State) (d : Nat) : DrivesStay s (driveFaultNotice s d) := DrivesStay.notify s _ _ _

theorem drive_driveFaultNotice (s : State) (d k : Nat) : (driveFaultNotice s d).drive k = s.drive k := by
  unfold State.drive driveFaultNotice
  rw [notify_drives]

/-- DRIVE_FAULT of a drive whose fields are told. -/
theorem mem_control_driveFaultNotice {s : State} (h : noticeCount s < 32) (d : Nat) :
    (.notice ⟨.driveFault, none, be 1 d ++ optNum 1 ((s.drive d).fault.map DriveFault.code) ++
      optNum 4 (occupantLabel s (s.drive d).occ) ++ optNum 1 ((s.drive d).face.map faceCode) ++
        be 1 (faultCartridge (s.drive d))⟩ : ControlFrame) ∈ (driveFaultNotice s d).control := mem_control_notify h _ _ _

/-- The drive holds a cartridge: it is ejected. -/
theorem faultEjects {s : State} {d : Nat} (hd : s.drives.length = 4) (h1 : 1 ≤ d) (h4 : d ≤ 4) (why : DriveFault)
    (hf : (s.drive d).state ≠ .faulted) (ho : (s.drive d).state ≠ .outOfService) (hc : (s.drive d).occ ≠ .empty)
    (he : (s.drive d).ejected = false) :
    let y := (driveFault s d why).drive d
    y.state = .faulted ∧ y.fault = some why ∧ y.idleOn = false ∧ y.spinLimit = false ∧
      y.service = (if (s.drive d).service = .leaving then .inService else (s.drive d).service) ∧ y.task = .eject .fault ∧
      (driveFault s d why).bay.queue = (s.bay.queue.filter fun e => e.module != d + 1) ++ [⟨d + 1, .eject, .plain⟩] := by
  obtain ⟨hstate, hwhy, hidle, hspin, hservice, -⟩ := fields_of_faulted hd h1 h4 why rfl
  dsimp only
  rw [driveFault_of_cartridge hf ho why hc he, drive_beginEject hd h1 h4]
  exact ⟨hstate, hwhy, hidle, hspin, hservice, rfl, congrArg (· ++ _) (queue_faulted s d why)⟩

/-- It holds none, or an ejected one: the fault is reported. -/
theorem faultReports {s : State} {d : Nat} (hd : s.drives.length = 4) (h1 : 1 ≤ d) (h4 : d ≤ 4) (why : DriveFault)
    (hf : (s.drive d).state ≠ .faulted) (ho : (s.drive d).state ≠ .outOfService)
    (h : (s.drive d).occ = .empty ∨ (s.drive d).ejected = true) :
    let y := (driveFault s d why).drive d
    y.state = .faulted ∧ y.fault = some why ∧ y.idleOn = false ∧ y.spinLimit = false ∧
      y.service = (if (s.drive d).service = .leaving then .inService else (s.drive d).service) ∧ y.task = .idle ∧
      (driveFault s d why).bay.queue = s.bay.queue.filter fun e => e.module != d + 1 := by
  obtain ⟨hstate, hwhy, hidle, hspin, hservice, htask, -⟩ := fields_of_faulted hd h1 h4 why rfl
  dsimp only
  rw [driveFault_of_no_cartridge hf ho why h, drive_driveFaultNotice]
  exact ⟨hstate, hwhy, hidle, hspin, hservice, htask, (driveFaultNotice_stays _ d).queue.trans (queue_faulted s d why)⟩

theorem emptyDriveFaultIsReported {s : State} {d : Nat} (hd : s.drives.length = 4) (h1 : 1 ≤ d) (h4 : d ≤ 4) (why : DriveFault)
    (hf : (s.drive d).state ≠ .faulted) (ho : (s.drive d).state ≠ .outOfService) (he : (s.drive d).occ = .empty)
    (hn : noticeCount s < 32) :
    (.notice ⟨.driveFault, none, be 1 d ++ be 1 why.code ++ be 4 0 ++ optNum 1 ((s.drive d).face.map faceCode) ++ be 1 0⟩ :
      ControlFrame) ∈ (driveFault s d why).control := by
  obtain ⟨-, hwhy, -, -, -, -, hocc, hface⟩ := fields_of_faulted hd h1 h4 why rfl
  have hroom : noticeCount (faulted s d why) < 32 := by
    unfold noticeCount at hn ⊢
    rwa [show (faulted s d why).control = s.control from faultCleared_control he]
  have hnotice := mem_control_driveFaultNotice hroom d
  have hempty := hocc.trans he
  rw [hwhy, hface, hempty, faultCartridge, if_pos hempty] at hnotice
  rw [driveFault_of_no_cartridge hf ho why (.inl he)]
  exact hnotice

theorem faultStopsTheDrive : FaultStopsTheDrive := by
  intro s d why hd h1 h4 x t
  refine ⟨fun h => if_pos h, fun hf ho => ?_⟩
  by_cases hej : x.occ ≠ .empty ∧ x.ejected = false
  · obtain ⟨hstate, hwhy, hidle, hspin, hservice, htask, hqueue⟩ := faultEjects hd h1 h4 why hf ho hej.1 hej.2
    refine ⟨hstate, hwhy, hidle, hspin, hservice, ?_, fun _ _ => htask, fun h => ?_, fun h => absurd h hej.1⟩
    · rw [if_pos hej]
      exact hqueue
    · rcases h with h | h
      · exact absurd h hej.1
      · exact Bool.noConfusion (hej.2.symm.trans h)
  · have hout : x.occ = .empty ∨ x.ejected = true := by
      by_cases h : x.occ = .empty
      · exact .inl h
      · exact .inr (by simpa using fun e => hej ⟨h, e⟩)
    obtain ⟨hstate, hwhy, hidle, hspin, hservice, htask, hqueue⟩ := faultReports hd h1 h4 why hf ho hout
    refine ⟨hstate, hwhy, hidle, hspin, hservice, ?_, fun h1 h2 => absurd ⟨h1, h2⟩ hej, fun _ => htask,
      emptyDriveFaultIsReported hd h1 h4 why hf ho⟩
    rw [if_neg hej, List.append_nil]
    exact hqueue

/-! ### A stuck cartridge (R64, R183) -/

namespace SilentStay

theorem modFetch (s : State) (n : Nat) (f : Fetch → Fetch) : SilentStay s (s.modFetch n f) := of_eq rfl rfl rfl rfl

theorem modOrder (s : State) (n : Nat) (f : Order → Order) : SilentStay s (s.modOrder n f) := of_eq rfl rfl rfl rfl

theorem fetchUnavailable (s : State) (n : Nat) : SilentStay s (fetchUnavailable s n) := by
  unfold Machine.fetchUnavailable
  split
  · exact refl s
  · exact (endItemOpt s _).trans (modFetch _ n _)

theorem dropCopyPages (s : State) (n : Nat) (p : CopyPage → Bool) : SilentStay s (dropCopyPages s n p) := by
  unfold Machine.dropCopyPages
  split
  · exact refl s
  · exact (foldl (fun s (q : CopyPage) => freeClaim s q.claim q.blocks) _ s).trans (modOrder _ n _)

theorem renameWaitingCopy (s : State) (o : Order) (p : Claim → Bool) : SilentStay s (renameWaitingCopy s o p) := by
  unfold Machine.renameWaitingCopy
  split
  · exact refl s
  · split
    · exact (withdrawClaims s _).trans (of_eq rfl rfl rfl rfl)
    · exact refl s

theorem voidSet (s : State) (n : Nat) : SilentStay s (voidSet s n) := by
  unfold Machine.voidSet
  split
  · exact refl s
  · split
    · exact ((renameWaitingCopy s _ _).trans (dropCopyPages _ n _)).trans (of_eq rfl rfl rfl rfl)
    · exact refl s

theorem haltItem (s : State) (o : Order) (why : Closing) : SilentStay s (haltItem s o why) := by
  unfold Machine.haltItem
  split
  · exact (endItem s _).trans (modOrder _ _ _)
  · exact refl s

theorem clearPort (s : State) (n : Nat) : SilentStay s (clearPort s n) := by
  unfold Machine.clearPort
  split
  · exact of_eq rfl rfl rfl rfl
  · exact refl s

end SilentStay

namespace DrivesStay

theorem reportOrder (s : State) (o : Order) (stop : Nat × Nat) (why : OrderEnd) : DrivesStay s (reportOrder s o stop why) := by
  cases why with
  | cancelledSilent => exact refl s
  | done | cancelled | printer | media | unavailable => exact notify s _ _ _

theorem endOrder (s : State) (n : Nat) (why : OrderEnd) : DrivesStay s (endOrder s n why) := by
  unfold Machine.endOrder
  split
  · exact refl s
  · refine DrivesStay.trans (SilentStay.toDrivesStay ?_) (reportOrder _ _ _ why)
    exact ((((SilentStay.voidSet s n).trans (SilentStay.endItemOpt _ _)).trans (SilentStay.dropCopyPages _ n _)).trans
      (SilentStay.clearPort _ n)).trans (SilentStay.of_eq rfl rfl rfl rfl)

theorem closeOrder (s : State) (n : Nat) (why : Closing) (atOnce : OrderEnd) : DrivesStay s (closeOrder s n why atOnce) := by
  unfold Machine.closeOrder
  split
  · exact refl s
  · split
    · exact (SilentStay.haltItem s _ why).toDrivesStay
    · exact endOrder s n atOnce
    · dsimp only
      split
      · exact ((SilentStay.modOrder s n _).trans (SilentStay.haltItem _ _ why)).toDrivesStay
      · exact (((SilentStay.voidSet s n).trans (SilentStay.modOrder _ n _)).trans (SilentStay.haltItem _ _ why)).toDrivesStay

theorem failFiling (s : State) (ref : Word32) (why : FailReason) : DrivesStay s (failFiling s ref why) := by
  unfold Machine.failFiling
  split
  · exact refl s
  · exact (SilentStay.removeFiling s ref).toDrivesStay.trans (notify _ _ _ _)

theorem endUnavailable (s : State) (i : Item) : DrivesStay s (endUnavailable s i) := by
  unfold Machine.endUnavailable
  split
  · split
    · exact (SilentStay.fetchUnavailable s _).toDrivesStay
    · exact refl s
  · split
    · exact closeOrder s _ _ _
    · exact refl s
  · split
    · exact failFiling s _ _
    · exact refl s
  · exact refl s

theorem endCartWork (s : State) (c : Nat) : DrivesStay s (endCartWork s c) := by
  have hside : ∀ s n, DrivesStay s (endSideWork s n Machine.endUnavailable) := fun s n => by
    refine foldl (fun s i => ?_) _ s
    split <;> exact endUnavailable s i
  exact (hside s _).trans (hside _ _)

theorem rebuildHalt (s : State) : DrivesStay s (rebuildHalt s) := by
  unfold Machine.rebuildHalt
  split
  · exact DrivesStay.trans (b := s.modRebuild fun r => { r with halted := true }) (SilentStay.toDrivesStay (SilentStay.of_eq rfl rfl rfl rfl))
      (notify _ _ _ _)
  · exact refl s

end DrivesStay

theorem notify_boot (s : State) (k : NoticeKind) (a : Option (Word16 × Nat)) (b : List Byte) : (notify s k a b).boot = s.boot := by
  unfold notify
  split <;> rfl

theorem rebuildHalt_halted {s : State} (h : s.mode = .rebuild) : (rebuildHalt s).boot.rebuild.halted = true := by
  unfold rebuildHalt
  split
  · exact congrArg (fun b : Boot => b.rebuild.halted) (notify_boot ..)
  · next hn => simpa [h] using hn

/-- A notice once placed stays in the control queue. -/
theorem Calm.mem_control {kd : Kind} {s t : State} (h : Calm kd s t) {x : ControlFrame} (hx : x ∈ s.control) : x ∈ t.control := by
  obtain ⟨ns, hns, -⟩ := h.ctl
  rw [hns]
  exact List.mem_append_left _ hx

theorem stuckCartridgeIsReported : StuckCartridgeIsReported := by
  intro s d c hd h1 h4 hocc hej t
  let u := s.modDrive d fun x => { x with task := .idle, op := none }
  have hu : u.drive d = { s.drive d with task := .idle, op := none } := drive_modDrive_self h1 (hd.symm ▸ h4) _
  let v := driveFaultNotice u d
  have hv : v.drive d = u.drive d := drive_driveFaultNotice u d d
  have hocc' : (v.drive d).occ = .record c := by
    rw [hv, hu]
    exact hocc
  have ht : t = rebuildHalt (endCartWork v c) := by
    change rebuildHalt _ = _
    rw [show (v.drive d).occ = .record c from hocc']
  have hstays : DrivesStay v t := ht ▸ (DrivesStay.endCartWork v c).trans (DrivesStay.rebuildHalt _)
  have hcalm : Calm anyKind v t := ht ▸ rebuildHalt_calm (endCartWork_calm (Calm.refl anyKind v) c)
  obtain ⟨htocc, -, -, -, httask⟩ := fields_of_settled (hstays.drive d)
  refine ⟨?_, htocc.trans hocc', fun hm => ?_, fun hn => hcalm.mem_control ?_⟩
  · rw [httask, hv, hu]
  · rw [ht]
    exact rebuildHalt_halted ((DrivesStay.endCartWork v c).mode.trans ((driveFaultNotice_stays u d).mode.trans hm))
  · have hnotice := mem_control_driveFaultNotice (s := u) hn d
    rw [hu] at hnotice
    simp only [hocc, hej, occupantLabel, faultCartridge] at hnotice
    exact hnotice

/-- Settles O56. -/
theorem driveFaultStopsAndEjects : Obligations.DriveFaultStopsAndEjects :=
  ⟨faultStopsTheDrive, faultEndsTheBurst, stuckCartridgeIsReported⟩

end Sys2Proof.Machine
end

section
/-! PROOFS. Orders that end: what leaves with an order, its notice, and a set in progress voided (R141, R157, R160). -/

namespace Sys2Proof.Machine

/-! ### The parts of an order's end -/

/-- The state once an order has left the table and the port, before its notice. -/
def orderGone (s : State) (n : Nat) (o : Order) : State :=
  let v := clearPort (dropCopyPages (endItemOpt (voidSet s n) o.item) n fun _ => true) n
  { v with orders := v.orders.filter fun x => x.number != n }

/-- The order as its set's voiding leaves it: what its notice tells. -/
theorem findOrder_voidSet {s : State} {n : Nat} {o : Order} (h : s.findOrder n = some o) :
    ∃ p, (voidSet s n).findOrder n = some p ∧ p.item = o.item ∧ (o.inProgress = false → p = o) := by
  cases hp : o.inProgress with
  | false =>
    have hself : voidSet s n = s := voidSet_eq_self fun p hfind => by
      cases h.symm.trans hfind
      exact hp
    exact ⟨o, hself.symm ▸ h, rfl, fun _ => rfl⟩
  | true =>
    obtain ⟨p, hfind, hcore⟩ := findOrder_of_coreOrder (voidSet_inProgress h hp).1
    exact ⟨p, hfind, show p.core.item = _ by rw [hcore]; rfl, fun hn => Bool.noConfusion hn⟩

theorem endOrder_eq_report {s : State} {n : Nat} {o : Order} (h : s.findOrder n = some o) (why : OrderEnd) :
    ∃ p, (o.inProgress = false → p = o) ∧ endOrder s n why = reportOrder (orderGone s n o) p (stopPoint s o) why := by
  obtain ⟨p, hfind, hitem, hsame⟩ := findOrder_voidSet h
  refine ⟨p, hsame, ?_⟩
  unfold endOrder
  rw [h]
  dsimp only
  rw [hfind, Option.getD_some, hitem]
  rfl

/-- The notice changes the control queue alone. -/
theorem reportOrder_only (s : State) (o : Order) (stop : Nat × Nat) (why : OrderEnd) :
    ∃ control dropped, reportOrder s o stop why = { s with control := control, dropped := dropped } := by
  have hnotify : ∀ k a b, ∃ control dropped, notify s k a b = { s with control := control, dropped := dropped } := fun k a b => by
    unfold notify
    split
    · exact ⟨_, s.dropped, rfl⟩
    · exact ⟨s.control, _, rfl⟩
  cases why with
  | cancelledSilent => exact ⟨s.control, s.dropped, rfl⟩
  | done | cancelled | printer | media | unavailable => exact hnotify _ _ _

/-! ### What stands -/

namespace ItemsOnly

theorem modOrder (s : State) (n : Nat) (f : Order → Order) : ItemsOnly s (s.modOrder n f) :=
  ⟨s.work, s.claims, s.fetches, _, s.drives, s.picker, rfl, List.length_map .., rfl⟩

theorem modItem (s : State) (id : Nat) (f : Item → Item) : ItemsOnly s (s.modItem id f) :=
  ⟨_, s.claims, s.fetches, s.orders, s.drives, s.picker, rfl, rfl, rfl⟩

theorem dropCopyPages (s : State) (n : Nat) (p : CopyPage → Bool) : ItemsOnly s (dropCopyPages s n p) := by
  unfold Machine.dropCopyPages
  split
  · exact refl s
  · exact (foldl (fun s (q : CopyPage) => freeOf s q.claim q.blocks) _ s).trans (modOrder _ n _)

theorem renameWaitingCopy (s : State) (o : Order) (p : Claim → Bool) : ItemsOnly s (renameWaitingCopy s o p) := by
  unfold Machine.renameWaitingCopy
  split
  · exact refl s
  · split
    · exact (withdrawClaims s _).trans (modItem _ _ _)
    · exact refl s

end ItemsOnly

/-- A voided set leaves the money, but for the day's count, and what an item's end leaves. -/
theorem voidSet_itemsOnly (s : State) (n : Nat) :
    voidSet s n = s ∨ ∃ v, ItemsOnly s v ∧ voidSet s n = countVoided (v.modOrder n Order.voidedOn) := by
  unfold voidSet
  split
  · exact .inl rfl
  · next o _ =>
    split
    · exact .inr ⟨_, (ItemsOnly.renameWaitingCopy s o _).trans (ItemsOnly.dropCopyPages _ n _), rfl⟩
    · exact .inl rfl

/-- The accounts, the tallies, the rates, the staged bytes and the filings stand, and so does the number of fetch records. -/
structure TablesStand (s t : State) : Prop where
  accounts : t.ret.accounts = s.ret.accounts
  cash : t.ret.cash = s.ret.cash
  fees : t.ret.fees = s.ret.fees
  mem : t.mem = s.mem
  filings : t.filings = s.filings
  fetches : t.fetches.length = s.fetches.length

namespace TablesStand

theorem refl (s : State) : TablesStand s s := ⟨rfl, rfl, rfl, rfl, rfl, rfl⟩

theorem trans {a b c : State} (h : TablesStand a b) (k : TablesStand b c) : TablesStand a c :=
  ⟨k.accounts.trans h.accounts, k.cash.trans h.cash, k.fees.trans h.fees, k.mem.trans h.mem, k.filings.trans h.filings,
    k.fetches.trans h.fetches⟩

theorem of_itemsOnly {s t : State} (h : ItemsOnly s t) : TablesStand s t := by
  obtain ⟨_, _, _, _, _, _, rfl, -, hf⟩ := h
  exact ⟨rfl, rfl, rfl, rfl, rfl, hf⟩

theorem voidSet (s : State) (n : Nat) : TablesStand s (voidSet s n) := by
  rcases voidSet_itemsOnly s n with h | ⟨v, hv, h⟩
  · rw [h]
    exact refl s
  · rw [h]
    exact (of_itemsOnly hv).trans ⟨rfl, rfl, rfl, rfl, rfl, rfl⟩

theorem clearPort (s : State) (n : Nat) : TablesStand s (clearPort s n) := by
  unfold Machine.clearPort
  split
  · exact ⟨rfl, rfl, rfl, rfl, rfl, rfl⟩
  · exact refl s

theorem orderGone (s : State) (n : Nat) (o : Order) : TablesStand s (orderGone s n o) := by
  have hend := (voidSet s n).trans (of_itemsOnly (ItemsOnly.endItemOpt _ o.item))
  have hleft := (hend.trans (of_itemsOnly (ItemsOnly.dropCopyPages _ n fun _ => true))).trans (clearPort _ n)
  exact hleft.trans ⟨rfl, rfl, rfl, rfl, rfl, rfl⟩

end TablesStand

/-! ### The table and the port -/

theorem map_number_modOrder (s : State) (n : Nat) {f : Order → Order} (hf : ∀ o, (f o).number = o.number) :
    (s.modOrder n f).orders.map Order.number = s.orders.map Order.number := by
  rw [State.modOrder_orders, List.map_map]
  refine List.map_congr_left fun o _ => ?_
  by_cases h : o.number = n <;> simp [h, hf]

theorem PagesOnly.numbers {s t : State} (h : PagesOnly s t) : t.orders.map Order.number = s.orders.map Order.number := by
  have hn : Order.number = Order.number ∘ Order.core := rfl
  rw [hn, ← List.map_map, h.orders, List.map_map]

theorem voidSet_numbers (s : State) (n : Nat) : (voidSet s n).orders.map Order.number = s.orders.map Order.number := by
  rcases voidSet_cases s n with h | ⟨v, hv, h⟩
  · rw [h]
  · rw [h]
    exact (map_number_modOrder v n (f := Order.voidedOn) fun _ => rfl).trans hv.numbers

theorem orderGone_numbers (s : State) (n : Nat) (o : Order) :
    (orderGone s n o).orders.map Order.number = (s.orders.map Order.number).filter fun m => m != n := by
  have hpages := (PagesOnly.endItemOpt (voidSet s n) o.item).trans (PagesOnly.dropCopyPages _ n fun _ => true)
  unfold orderGone
  dsimp only
  rw [(clearPort_keeps _ n).2.1, ← voidSet_numbers s n, ← hpages.numbers, List.filter_map]
  rfl

theorem clearPort_holder (s : State) (n : Nat) : (clearPort s n).port.holder ≠ some n := by
  unfold clearPort
  split
  · exact nofun
  · next h => exact fun he => h (by simp [holdsPort, he])

/-! ### The item -/

/-- Every item was there before, and was being served if it is. -/
def ItemsStay (s t : State) : Prop := ∀ i ∈ t.work, ∃ j ∈ s.work, j.id = i.id ∧ (i.state = .active → j.state = .active)

theorem ItemsStay.of_eq {s t : State} (h : t.work = s.work) : ItemsStay s t := fun i hi => ⟨i, h ▸ hi, rfl, id⟩

theorem dropCopyPages_work (s : State) (n : Nat) (p : CopyPage → Bool) : (dropCopyPages s n p).work = s.work := by
  unfold dropCopyPages
  split
  · rfl
  · exact foldl_keeps (fun s (q : CopyPage) => freeOf s q.claim q.blocks) State.work (fun _ _ => rfl) _ s

theorem clearPort_work (s : State) (n : Nat) : (clearPort s n).work = s.work := by
  unfold clearPort
  split <;> rfl

theorem renameWaitingCopy_items (s : State) (o : Order) (p : Claim → Bool) : ItemsStay s (renameWaitingCopy s o p) := by
  unfold renameWaitingCopy
  split
  · exact .of_eq rfl
  · split
    · intro i hi
      obtain ⟨j, hj, rfl⟩ := List.mem_map.1 hi
      refine ⟨j, by simpa using hj, ?_⟩
      dsimp only
      split
      · split
        · exact ⟨rfl, nofun⟩
        · exact ⟨rfl, id⟩
      · exact ⟨rfl, id⟩
    · exact .of_eq rfl

theorem voidSet_items (s : State) (n : Nat) : ItemsStay s (voidSet s n) := by
  unfold voidSet
  split
  · exact .of_eq rfl
  · next o _ =>
    split
    · intro i hi
      have hi' : i ∈ (dropCopyPages (renameWaitingCopy s o fun c => c.set == o.curSet) n _).work := hi
      rw [dropCopyPages_work] at hi'
      exact renameWaitingCopy_items s o _ i hi'
    · exact .of_eq rfl

theorem removeItem_work {s : State} {id : Nat} {i : Item} (h : s.findItem id = some i) :
    (removeItem s id).work = s.work.filter fun x => x.id != id := by
  unfold removeItem
  rw [h]
  dsimp only
  cases i.drive <;> rfl

/-- An item that is not being served leaves the Work List at once (R75). -/
theorem endItem_removes {s : State} {id : Nat} (h : ∀ i ∈ s.work, i.id = id → i.state ≠ .active) :
    ∀ i ∈ (endItem s id).work, i.id ≠ id := by
  unfold endItem
  cases hf : s.findItem id with
  | none =>
    intro i hi he
    have := List.find?_eq_none.1 hf i hi
    simp [he] at this
  | some j =>
    have hj : j.id = id := by simpa using List.find?_some hf
    dsimp only
    rw [if_neg (h j (List.mem_of_find?_eq_some hf) hj)]
    have hfind : (dropItemTransfers (withdrawClaims s id) id).findItem id = some j := by
      unfold State.findItem
      rw [dropItemTransfers_work, withdrawClaims_work]
      exact hf
    rw [removeItem_work hfind]
    exact fun i hi => by simpa using (List.mem_filter.1 hi).2

theorem orderGone_item {s : State} {n id : Nat} {o : Order} (ho : o.item = some id)
    (h : ∀ i ∈ s.work, i.id = id → i.state ≠ .active) : ∀ i ∈ (orderGone s n o).work, i.id ≠ id := by
  intro i hi
  have hi' : i ∈ (endItem (voidSet s n) id).work := by
    have hwork : (orderGone s n o).work = (endItemOpt (voidSet s n) o.item).work :=
      (clearPort_work _ n).trans (dropCopyPages_work _ n _)
    rw [hwork, ho] at hi
    exact hi
  refine endItem_removes (fun j hj hid hactive => ?_) i hi'
  obtain ⟨k, hk, hkid, hkactive⟩ := voidSet_items s n j hj
  exact h k hk (hkid.trans hid) (hkactive hactive)

/-! ### The staged pages -/

/-- The blocks of every page in the list are freed. -/
theorem freed_of_foldl_freeOf : ∀ (l : List CopyPage) (s : State),
    ∀ c ∈ (l.foldl (fun s q => freeOf s q.claim q.blocks) s).claims,
      (∃ k ∈ s.claims, k.id = c.id ∧ k.blocks = c.blocks ∧ c.live ⊆ k.live) ∧
        ∀ q ∈ l, c.id = q.claim → c.blocks ≠ none → ∀ b ∈ q.blocks, b ∉ c.live
  | [], _, c, hc => ⟨⟨c, hc, rfl, rfl, List.Subset.refl _⟩, nofun⟩
  | p :: l, s, c, hc => by
    obtain ⟨⟨k, hk, hid, hblocks, hlive⟩, hrest⟩ := freed_of_foldl_freeOf l (freeOf s p.claim p.blocks) c hc
    obtain ⟨j, hj, hjid, hjblocks, hjlive, hfreed⟩ := mem_claims_freeOf hk
    refine ⟨⟨j, hj, hjid.trans hid, hjblocks.trans hblocks, List.Subset.trans hlive hjlive⟩, fun q hq hqc hb b hbq => ?_⟩
    rcases List.mem_cons.1 hq with rfl | hq
    · exact fun hl => hfreed (hid.trans hqc) (hblocks ▸ hb) b hbq (hlive hl)
    · exact hrest q hq hqc hb b hbq

theorem clearPort_claims (s : State) (n : Nat) : (clearPort s n).claims = s.claims := by
  unfold clearPort
  split <;> rfl

theorem orderGone_frees {s : State} {n : Nat} {o : Order} (h : s.findOrder n = some o) (hp : o.inProgress = false)
    (hi : o.item = none) : ∀ q ∈ o.pages, q.outcome = .staged → ∀ c ∈ (orderGone s n o).claims, c.id = q.claim →
      c.blocks ≠ none → ∀ b ∈ q.blocks, b ∉ c.live := by
  intro q hq hstaged c hc
  have hself : voidSet s n = s := voidSet_eq_self fun p hfind => by
    cases h.symm.trans hfind
    exact hp
  have hc' : c ∈ ((o.pages.filter fun q => true && q.outcome == .staged).foldl (fun s q => freeOf s q.claim q.blocks) s).claims := by
    have hclaims : (orderGone s n o).claims = (dropCopyPages s n fun _ => true).claims := by
      refine (clearPort_claims _ n).trans ?_
      rw [hself, hi]
      rfl
    rw [hclaims] at hc
    unfold dropCopyPages at hc
    rw [h] at hc
    exact hc
  exact (freed_of_foldl_freeOf _ s c hc').2 q (List.mem_filter.2 ⟨hq, by simp [hstaged]⟩)

theorem endedOrderIsGone : EndedOrderIsGone := by
  intro s n why o h t
  obtain ⟨p, -, heq⟩ := endOrder_eq_report h why
  obtain ⟨control, dropped, honly⟩ := reportOrder_only (orderGone s n o) p (stopPoint s o) why
  have ht : t = { orderGone s n o with control := control, dropped := dropped } := heq.trans honly
  have hstand := TablesStand.orderGone s n o
  refine ⟨findOrder_endOrder s n why, ?_⟩
  rw [ht]
  exact ⟨clearPort_holder _ n, orderGone_numbers s n o, hstand.accounts, hstand.cash, hstand.fees, hstand.mem, hstand.filings,
    hstand.fetches, fun id ho hw => orderGone_item ho hw, orderGone_frees h⟩

/-! ### Its notice -/

theorem orderGone_control (s : State) (n : Nat) (o : Order) : (orderGone s n o).control = s.control :=
  ((((SilentStay.voidSet s n).trans (SilentStay.endItemOpt _ o.item)).trans (SilentStay.dropCopyPages _ n _)).trans
    (SilentStay.clearPort _ n)).control

theorem notify_control_of_room {s : State} (h : noticeCount s < 32) (k : NoticeKind) (a : Option (Word16 × Nat)) (b : List Byte) :
    (notify s k a b).control = s.control ++ [.notice ⟨k, a, b⟩] := by
  unfold notify
  rw [if_pos h]

theorem orderNotice_control {s : State} (h : noticeCount s < 32) (o : Order) (kind : NoticeKind) (code : Nat) (more : List Byte) :
    (orderNotice s o kind code more).control = s.control ++ [.notice ⟨kind, some (o.tag, o.station),
      be 1 o.number ++ be 4 o.doc ++ be 1 (if o.cert then 2 else 1) ++ be 1 o.sets ++ be 1 o.payer ++ be 1 code ++ be 2 o.charged ++
        be 2 o.spoiled ++ be 1 o.setsDone ++ be 1 o.setsVoided ++ be 4 o.amount ++ more⟩] := by
  unfold orderNotice
  rw [notify_control_of_room h]
  simp only [orderCounts, kindCode, List.append_assoc]

theorem endedOrderIsReported : EndedOrderIsReported := by
  intro s n o h hp hn fields stop ends
  have hroom : noticeCount (orderGone s n o) < 32 := by
    unfold noticeCount at hn ⊢
    rwa [orderGone_control]
  have hend : ∀ why, endOrder s n why = reportOrder (orderGone s n o) o (stopPoint s o) why := fun why => by
    obtain ⟨p, hsame, heq⟩ := endOrder_eq_report h why
    rw [heq, hsame hp]
  have hends : ∀ why kind code more, reportOrder (orderGone s n o) o (stopPoint s o) why = orderNotice (orderGone s n o) o kind code more →
      ends why kind (fields code ++ more) := fun why kind code more hr => by
    show (endOrder s n why).control = _
    rw [hend, hr, orderNotice_control hroom, orderGone_control]
  have hdone : ∀ why kind code, reportOrder (orderGone s n o) o (stopPoint s o) why = orderNotice (orderGone s n o) o kind code [] →
      ends why kind (fields code) := fun why kind code hr => List.append_nil (fields code) ▸ hends why kind code [] hr
  refine ⟨hdone _ _ 1 rfl, hdone _ _ 2 rfl, hends _ _ 1 _ rfl, hends _ _ 2 _ rfl, hends _ _ 3 _ rfl, ?_⟩
  rw [hend]
  exact orderGone_control s n o

/-! ### A set in progress -/

theorem setInProgressIsVoided : SetInProgressIsVoided := by
  intro s n o h
  refine ⟨fun hp => voidSet_eq_self fun p hfind => ?_, fun hp => ?_⟩
  · cases h.symm.trans hfind
    exact hp
  · obtain ⟨hcore, hret⟩ := voidSet_inProgress h hp
    obtain ⟨p, hfind, hpcore⟩ := findOrder_of_coreOrder hcore
    refine ⟨hret, p, hfind, ?_⟩
    rw [Order.eq_of_core hpcore]
    exact ⟨rfl, rfl, rfl, rfl, rfl, rfl, rfl, rfl⟩

/-- Settles O60. -/
theorem endedOrderLeavesTableAndPort : Obligations.EndedOrderLeavesTableAndPort :=
  ⟨endedOrderIsGone, endedOrderIsReported, setInProgressIsVoided⟩

end Sys2Proof.Machine
end
